-- ==== Sys2Proof/Word.lean ====
section
/-! DEFINITION. The word types of the Beruth B9 (R6: bit 0 is the least significant bit, multi-byte values are
little-endian) and nothing else: helpers that read or build words stand in Machine/Bits.lean. -/

namespace Sys2Proof

/-- A 64-bit word: a scalar register, an address before it is checked. -/
abbrev Word := BitVec 64

/-- One byte of scratchpad or memory. -/
abbrev Byte := BitVec 8

/-- Number of a scalar operand field: `s0` to `s63` (R22). -/
abbrev SReg := BitVec 6

/-- Number of a handle operand field: `h0` to `h31` (R22). -/
abbrev HReg := BitVec 5

/-- Number of a guard operand field: `g0` to `g15` (R22). -/
abbrev GReg := BitVec 4

end Sys2Proof
end

