-- ==== Sys2Proof/Machine/Bits.lean ====
section
/-! DEFINITION. Bit fields, byte order and packing (R6, R9): every helper with which the decoder, the registers and the
records are cut out of words. -/

namespace Sys2Proof

/-- `x[lo + n - 1 : lo]` of a number, the bit slice of R9. -/
def field (w lo n : Nat) : Nat := w / 2 ^ lo % 2 ^ n

/-- Lay fields of the given widths one above the other, the first lowest. -/
def packFields : List (Nat × Nat) → Nat
  | [] => 0
  | (n, v) :: rest => v % 2 ^ n + 2 ^ n * packFields rest

/-- Cut a number into fields of the given widths, the lowest first. -/
def cutFields : List Nat → Nat → List Nat
  | [], _ => []
  | n :: rest, w => w % 2 ^ n :: cutFields rest (w / 2 ^ n)

/-- The `n` bytes of a number, least significant first (R6). -/
def bytesLE : Nat → Nat → List Byte
  | 0, _ => []
  | n + 1, v => BitVec.ofNat 8 v :: bytesLE n (v / 256)

/-- The number whose bytes are given, least significant first (R6). -/
def ofBytesLE : List Byte → Nat
  | [] => 0
  | b :: rest => b.toNat + 256 * ofBytesLE rest

/-- The word of up to eight bytes, least significant first. -/
def wordLE (bs : List Byte) : Word := BitVec.ofNat 64 (ofBytesLE bs)

/-- The value of an `n`-bit two's-complement number. -/
def sval (n v : Nat) : Int := if v % 2 ^ n < 2 ^ (n - 1) then (v % 2 ^ n : Nat) else (v % 2 ^ n : Nat) - (2 ^ n : Nat)

/-- The low `n` bits of an integer, two's complement. -/
def ofSval (n : Nat) (x : Int) : Nat := (x % (2 ^ n : Nat)).toNat

/-- `sat(x, lo, hi)` of R129. -/
def satInt (x lo hi : Int) : Int := min (max x lo) hi

/-- Division rounded up, `⌈a ÷ b⌉`. -/
def ceilDiv (a b : Nat) : Nat := (a + b - 1) / b

/-- The number of a bit. -/
def b1 (b : Bool) : Nat := if b then 1 else 0

/-- Whether two extents share a byte. -/
def overlap (a n b k : Nat) : Bool := a < b + k && b < a + n

/-- The number of one bits in the low `n` bits. -/
def popcount : Nat → Nat → Nat
  | 0, _ => 0
  | n + 1, v => v % 2 + popcount n (v / 2)

/-- Bit `i` of a number. -/
def bitAt (v i : Nat) : Bool := v / 2 ^ i % 2 == 1

/-- The positions of the one bits among the low `n` bits, ascending. -/
def bitsSet (n v : Nat) : List Nat := (List.range n).filter (bitAt v)

/-- The number of significant bits of a number; 0 for 0. -/
def bitLen (v : Nat) : Nat := if v = 0 then 0 else Nat.log2 v + 1

/-- Newton's steps towards the integer square root, from above; `fuel` steps at most. -/
def sqrtFrom (n : Nat) : Nat → Nat → Nat
  | 0, g => g
  | fuel + 1, g =>
    let x := (g + n / g) / 2
    if x < g then sqrtFrom n fuel x else g

/-- The integer square root, rounded down. -/
def isqrt (n : Nat) : Nat := if n = 0 then 0 else sqrtFrom n (bitLen n) (2 ^ ((bitLen n + 1) / 2))

/-- Element `i` of a list, or a default. -/
def getD' {α : Type} (d : α) (l : List α) (i : Nat) : α := (l[i]?).getD d

/-- Cut a list into pieces of `n`, with `fuel` pieces at most. -/
def chunksOf {α : Type} (n : Nat) : Nat → List α → List (List α)
  | 0, _ => []
  | fuel + 1, l => if l.isEmpty then [] else l.take n :: chunksOf n fuel (l.drop n)

end Sys2Proof
end

