-- ==== Sys2Proof/Syntax.lean ====
section
/-! DEFINITION. The abstract syntax: the code enumerations that several opcodes share (R31 to R37), the header of the
64/96-bit and of the 128-bit formats (R20, R24), and `Instr`, with one constructor for every row of
spec/opcode_table.json: the 162 instructions, then the 70 steps that are no instruction words (the events of the
engines, the caches, the homes, the fabric and the host), whose arguments say which unit moves. -/

namespace Sys2Proof

/-- Scope code (R31, R253). -/
inductive Scope where
  | core | pod | die | dev | sys
  deriving DecidableEq, Repr

/-- Access size code (R31): 1, 2, 4 or 8 bytes. -/
inductive Size where
  | b | h | w | d
  deriving DecidableEq, Repr

/-- Reuse class (R31, R83). -/
abbrev RClass := BitVec 2

/-- Rounding code (R32); `dyn` takes `fpc`.RMD. -/
inductive RM where
  | dyn | rne | rtz | rdn | rup | rna
  deriving DecidableEq, Repr

/-- Scalar float format code (R33, codes 0 to 3). -/
inductive SFmt where
  | f64 | f32 | f16 | bf16
  deriving DecidableEq, Repr

/-- Element format code EF (R33). -/
inductive EF where
  | f64 | f32 | f16 | bf16 | i8 | i16 | i32 | i64 | mk8
  deriving DecidableEq, Repr

/-- Conversion code of `FCVT` (R33). -/
inductive Cvt where
  | f64 | f32 | f16 | bf16 | i64 | nat64 | i32 | nat32
  deriving DecidableEq, Repr

/-- Integer condition (R34). -/
inductive ICond where
  | eq | ne | lt | ge | le | gt | ltu | geu | leu | gtu
  deriving DecidableEq, Repr

/-- Float condition (R34). -/
inductive FCond where
  | eq | ne | lt | ge | le | gt | un | ord
  deriving DecidableEq, Repr

/-- How a compare writes its guard (R60). -/
inductive GWrite where
  | write | and | or
  deriving DecidableEq, Repr

/-- The four sign forms of a fused multiply-add (R67). -/
inductive Fma where
  | fma | fms | fnma | fnms
  deriving DecidableEq, Repr

/-- The operations of `GLOG` (R62), each with the operands it reads. -/
inductive GlogOp where
  | and (gd ga gb : GReg) | or (gd ga gb : GReg) | xor (gd ga gb : GReg) | andn (gd ga gb : GReg)
  | not (gd ga : GReg) | mov (gd ga : GReg) | set (gd : GReg) | clr (gd : GReg)
  | gtos (d : SReg) | stog (a : SReg)
  deriving DecidableEq, Repr

/-- The identity registers in the numbering of `IDR` (R37, R71). -/
inductive IdReg where
  | core | pod | die | dev | org0 | org1 | org2 | org3 | ext0 | ext1 | ext2 | ext3
  | grp0 | grp1 | grp2 | grp3 | lanes | chan
  deriving DecidableEq, Repr

/-- The system registers (R72). -/
inductive SysReg where
  | fpc | cyc | slots | depth | lc | wthr | pquota | lquota | inj
  | tvec | epc | ecause | einfo | eaddr | estat
  deriving DecidableEq, Repr

/-- The handle field selectors (R37). -/
inductive HField where
  | base | space | fmt | cursor | layout | planes | tile | block
  | ext0 | ext1 | ext2 | ext3 | stride1 | stride2
  deriving DecidableEq, Repr

/-- What `RFLUSH` leaves of an entry (R14). -/
inductive Flush where
  | keep | s | i
  deriving DecidableEq, Repr

/-- The operations of `AMO` (R38, R113). -/
inductive AmoOp where
  | add | and | or | xor | min | max | minu | maxu | swap | fadd
  deriving DecidableEq, Repr

/-- The engine flag byte (R35): `.acq`, `.rel` and the scope. -/
structure EFlags where
  acq : Bool
  rel : Bool
  scope : Scope
  deriving DecidableEq, Repr

/-- The operations of `VARITH` (R215). -/
inductive VOp where
  | add | sub | mul | div | sqrt | min | max | abs | neg | adds | subs
  deriving DecidableEq, Repr

/-- The operations of `VLOGIC` (R218). -/
inductive LogicOp where
  | and | or | xor | andn | not
  deriving DecidableEq, Repr

/-- The directions of `VSHIFT` (R218). -/
inductive ShiftOp where
  | shl | shr | sar | rot
  deriving DecidableEq, Repr

/-- The special functions (R226). -/
inductive SfuFn where
  | exp | log | recip | rsqrt | sin | cos | tanh | sigmoid | erf | exp2 | log2
  deriving DecidableEq, Repr

/-- The reductions of `VRED` (R225). -/
inductive RedOp where
  | sum | min | max | and | or | xor | sumsq
  deriving DecidableEq, Repr

/-- The scans of `VSCAN` (R225). -/
inductive ScanOp where
  | sum | min | max
  deriving DecidableEq, Repr

/-- The modes of `MMA` (R180). -/
inductive MmaMode where
  | pp | fl | ieee | wide | res
  deriving DecidableEq, Repr

/-- The header of a 64- or 96-bit instruction after LEN and OP (R17, R20). -/
structure Hd where
  dly : BitVec 4
  g : GReg
  gn : Bool
  deriving DecidableEq, Repr

/-- The header of a 128-bit instruction after LEN and OP (R24), with its post-increments (R28). -/
structure Hx where
  dly : BitVec 4
  ga : GReg
  gb : GReg
  gop : BitVec 2
  yld : Bool
  hint : BitVec 4
  pinc : BitVec 5
  inc1 : BitVec 16
  inc2 : BitVec 16
  inc3 : BitVec 16
  deriving DecidableEq, Repr

/-- One atomic request as a switch or a home sees it (R113, R364): who asked (source device, source team index, order
of issue, and the source's launch), the physical address, the operation, the size, the operand, and whether it is one at `.sys`. -/
structure AtomicReq where
  dev : Nat
  team : Nat
  ord : Nat
  pa : Nat
  op : AmoOp
  dbl : Bool
  v : Word
  seq : Word := 0
  sys : Bool := true
  deriving DecidableEq, Repr

/-- A request, or a run that another switch forwards, as it reaches the input queue of port `port` of the switch `sw` (R364). -/
structure SwitchArrival where
  sw : Nat
  port : Nat
  req : AtomicReq
  deriving DecidableEq, Repr

/-- What one device reports of a placement entry to the mesh's fabric cut (R350), with the bytes of its members' parts as it
read them at its own close. -/
structure PlaceReport where
  dev : Nat
  plate : Nat
  group : Nat
  state : BitVec 24
  pend : BitVec 24
  version : BitVec 16
  ended : Bool
  parts : List (Nat × List Byte) := []
  deriving DecidableEq, Repr

/-- How a home serves an atomic (R365): performed, with the old value; refused for a part of a BUSY entry, with the first refused byte
and the value there; refused for a poisoned granule. -/
inductive Served where
  | done (v : Word)
  | race (byte : Nat) (v : Word)
  | poison (granule : Nat)
  deriving DecidableEq, Repr

/-- What a device tells the others that run a linked launch of it (R344): with a superstep every core waits at `SSTEP`; its logs have been
applied and performed; it rolls the superstep back; the launch has ended. -/
inductive LinkedStep where
  | ready | applied | rolled | ended
  deriving DecidableEq, Repr

/-- Dirty bytes that a device gives back with its reply to a coherence message (R90), and the team index and launch of the core that
wrote them (R353). -/
structure Dirty where
  pa : Nat
  bytes : List Byte
  team : Nat
  seq : Word
  deriving DecidableEq, Repr

/-- What a fabric message carries (R320, R360): for a message that arrives, what it asks of this device once its tag has verified. -/
inductive Payload where
  /-- class 0: a committed write (`commit`) or a write-back of a core of the sending device, to the home of its bytes -/
  | write (pa : Nat) (bytes : List Byte) (team : Nat) (seq : Word) (commit : Bool)
  /-- class 0: an atomic request for a home -/
  | atomic (r : AtomicReq)
  /-- class 0: a compare and swap, of core team index `team`, at `.sys` or not: expected and new value (R114) -/
  | cas (team : Nat) (seq : Word) (pa : Nat) (dbl sys : Bool) (e v : Word)
  /-- class 0: a miss, or with `excl` a request for ownership (R367) -/
  | read (pa len : Nat) (excl : Bool)
  /-- class 0: a `CBACQ` of a core of the sending device, by core, team index and launch (R293, R375) -/
  | cbAcquire (pa core team : Nat) (seq : Word)
  /-- class 0: a `CBINIT` of a core of the sending device (R291, R293) -/
  | cbInit (pa size count team : Nat) (seq : Word)
  /-- class 0: a commit of an index of a circular buffer (R293) -/
  | cbCommit (pa idx : Nat)
  /-- class 0: a release of stages of a circular buffer (R293) -/
  | cbRelease (pa n : Nat)
  /-- class 0: a device that starts a stage asks for reports of a queue (R372) -/
  | cbAsk (pa : Nat)
  /-- class 0: an occupancy report (R372) -/
  | cbReport (pa resv head tail count : Nat)
  /-- class 0: an `ACQ` of a core of the sending device (R281) -/
  | acquire (pa core team : Nat) (seq : Word) (excl : Bool)
  /-- class 0: a hold of the sending device is given up (R282) -/
  | release (pa : Nat) (excl : Bool)
  /-- class 0: a step of a linked launch, in its superstep `n`, of which the sender knows `tries` rollbacks (R344) -/
  | linked (seq : Word) (n tries : Nat) (what : LinkedStep)
  /-- class 1: an `ACQ` of the receiving device, of the core with team index `team`, has been granted (R281) -/
  | granted (pa team : Nat) (seq : Word) (excl : Bool)
  /-- class 0: slots that a circular buffer's home returns (R294) -/
  | slots (pa : Nat) (idx : List Nat)
  /-- class 1: the bytes of a miss, or of an ownership request; none of a poisoned granule (R319) -/
  | data (pa : Nat) (bytes : List Byte)
  /-- class 1: what a compare and swap returns (R114) -/
  | found (team : Nat) (seq : Word) (v : Served)
  /-- class 1: what an atomic returns (R113, R365) -/
  | result (r : AtomicReq) (v : Served)
  /-- class 1: the home has performed a write of a core of the receiving device (R259, R368) -/
  | written (pa n team : Nat) (seq : Word)
  /-- class 1: the home refused a write of a core of the receiving device, a committed one with `commit`; the bytes there stand as
  given, `byte` is the first refused (R353) -/
  | refused (team : Nat) (seq : Word) (byte pa : Nat) (commit : Bool) (bytes : List Byte)
  /-- class 1: the reply to Invalidate or Downgrade of an extent, with the dirty bytes written back (R90, R368) -/
  | reply (pa len : Nat) (kept : Bool) (dirty : List Dirty)
  /-- class 2: Invalidate of an extent from every L1 of this device (R90, R367) -/
  | invalidate (pa len : Nat)
  /-- class 2: Downgrade of an extent in every L1 of this device (R90, R367) -/
  | downgrade (pa len : Nat)
  /-- class 3: a placement report to a mesh's fabric cut (R350) -/
  | place (r : PlaceReport)
  /-- of no flow: a message of a flow of the receiving device has been delivered (R360) -/
  | ack (cls : BitVec 2) (num : BitVec 32)
  /-- of no flow: the port's partner has discarded a message of the receiving device, whose tag failed (R320) -/
  | nack (dst : Nat) (cls : BitVec 2) (num : BitVec 32)
  deriving DecidableEq, Repr

/-- A message on a fabric link (R320, R321, R360): its flow (source device and class), sequence number and payload; `mark` is a
reply's congestion mark (R361, R362). -/
structure LinkMsg where
  src : Nat
  cls : BitVec 2
  seq : BitVec 32
  payload : Payload
  mark : Bool := false
  deriving DecidableEq, Repr

/-- The engines of a core that can stop at a fault (R379 SRC, R385). -/
inductive Engine where
  | copy | port | plane | etcher | rstat | placement
  deriving DecidableEq, Repr

/-- The unit a rollback is charged to (R318, R327, R405). -/
inductive FaultUnit where
  | core (c : Nat) | laneGroup (pod g : Nat) | sfu (pod : Nat) | channel (pod c : Nat) | none
  deriving DecidableEq, Repr

/-- Every row of the opcode table, in the table's order. Operand names follow R36 to R40. -/
inductive Instr where
  -- 64-bit format, scalar pipeline
  | nop (dly : BitVec 4)
  | add (h : Hd) (a b c : SReg)
  | sub (h : Hd) (a b c : SReg)
  | and (h : Hd) (a b c : SReg)
  | or (h : Hd) (a b c : SReg)
  | xor (h : Hd) (a b c : SReg)
  | andn (h : Hd) (a b c : SReg)
  | shl (h : Hd) (a b c : SReg)
  | shr (h : Hd) (a b c : SReg)
  | sar (h : Hd) (a b c : SReg)
  | rot (h : Hd) (a b c : SReg)
  | min (h : Hd) (a b c : SReg)
  | max (h : Hd) (a b c : SReg)
  | minu (h : Hd) (a b c : SReg)
  | maxu (h : Hd) (a b c : SReg)
  | addImm (h : Hd) (a b : SReg) (imm : BitVec 21)
  | subImm (h : Hd) (a b : SReg) (imm : BitVec 21)
  | andImm (h : Hd) (a b : SReg) (imm : BitVec 21)
  | orImm (h : Hd) (a b : SReg) (imm : BitVec 21)
  | xorImm (h : Hd) (a b : SReg) (imm : BitVec 21)
  | andnImm (h : Hd) (a b : SReg) (imm : BitVec 21)
  | shlImm (h : Hd) (a b : SReg) (n : BitVec 6)
  | shrImm (h : Hd) (a b : SReg) (n : BitVec 6)
  | sarImm (h : Hd) (a b : SReg) (n : BitVec 6)
  | rotImm (h : Hd) (a b : SReg) (n : BitVec 6)
  | minImm (h : Hd) (a b : SReg) (imm : BitVec 21)
  | maxImm (h : Hd) (a b : SReg) (imm : BitVec 21)
  | minuImm (h : Hd) (a b : SReg) (imm : BitVec 21)
  | maxuImm (h : Hd) (a b : SReg) (imm : BitVec 21)
  | mul (h : Hd) (a b c : SReg)
  | mulh (h : Hd) (a b c : SReg)
  | mulhu (h : Hd) (a b c : SReg)
  | div (h : Hd) (a b c : SReg)
  | divu (h : Hd) (a b c : SReg)
  | rem (h : Hd) (a b c : SReg)
  | remu (h : Hd) (a b c : SReg)
  | clz (h : Hd) (a b : SReg)
  | ctz (h : Hd) (a b : SReg)
  | popc (h : Hd) (a b : SReg)
  | brev (h : Hd) (a b : SReg)
  | bswap (h : Hd) (a b : SReg)
  | mix (h : Hd) (a b c : SReg)
  | bfx (h : Hd) (a b : SReg) (sx : Bool) (lsb widthM1 : BitVec 6)
  | bfi (h : Hd) (a b : SReg) (lsb widthM1 : BitVec 6)
  | cmp (h : Hd) (gd : GReg) (b c : SReg) (cond : ICond) (w : GWrite)
  | cmpi (h : Hd) (gd : GReg) (b : SReg) (imm : BitVec 21) (cond : ICond) (w : GWrite)
  | sel (h : Hd) (a b c : SReg) (gs : GReg) (inv : Bool)
  | glog (h : Hd) (op : GlogOp)
  | movi (h : Hd) (a : SReg) (imm : BitVec 21)
  | movw (h : Hd) (a : SReg) (imm : BitVec 53)
  | fadd (h : Hd) (a b c : SReg) (f : SFmt) (rm : RM)
  | fsub (h : Hd) (a b c : SReg) (f : SFmt) (rm : RM)
  | fmul (h : Hd) (a b c : SReg) (f : SFmt) (rm : RM)
  | fdiv (h : Hd) (a b c : SReg) (f : SFmt) (rm : RM)
  | fsqrt (h : Hd) (a b : SReg) (f : SFmt) (rm : RM)
  | fmin (h : Hd) (a b c : SReg) (f : SFmt) (rm : RM)
  | fmax (h : Hd) (a b c : SReg) (f : SFmt) (rm : RM)
  | ffma (h : Hd) (a b c : SReg) (k : Fma) (f : SFmt) (rm : RM)
  | fcmp (h : Hd) (gd : GReg) (b c : SReg) (cond : FCond) (f : SFmt) (sig : Bool)
  | fcvt (h : Hd) (a b : SReg) (dst src : Cvt) (rm : RM)
  | fclass (h : Hd) (a b : SReg) (f : SFmt)
  | idr (h : Hd) (a : SReg) (r : IdReg)
  | srr (h : Hd) (a : SReg) (r : SysReg)
  | srw (h : Hd) (r : SysReg) (b : SReg)
  | br (h : Hd) (imm : BitVec 21)
  | brl (h : Hd) (imm : BitVec 53)
  | call (h : Hd) (a : SReg) (imm : BitVec 21)
  | calll (h : Hd) (a : SReg) (imm : BitVec 53)
  | ret (h : Hd) (b : SReg)
  | jmpr (h : Hd) (a b : SReg) (imm : BitVec 21)
  | loop (h : Hd) (b : SReg) (imm : BitVec 21)
  | endl (h : Hd)
  | brk (h : Hd) (code : BitVec 20)
  | trap (h : Hd) (code : BitVec 20)
  | syscall (h : Hd) (code : BitVec 20)
  | eret (h : Hd)
  | exit (h : Hd)
  | detach (h : Hd)
  | join (h : Hd)
  | yield (h : Hd)
  -- memory
  | ld (h : Hd) (a b : SReg) (imm : BitVec 21) (size : Size) (sx : Bool)
  | ldx (h : Hd) (a b c : SReg) (imm : BitVec 53) (size : Size) (sx : Bool)
  | st (h : Hd) (a b : SReg) (imm : BitVec 21) (size : Size)
  | rflush (h : Hd) (b : SReg) (imm : BitVec 21) (c : SReg) (m : Flush)
  | rdrop (h : Hd) (b : SReg) (imm : BitVec 21) (c : SReg)
  | rpin (h : Hd) (gd : GReg) (b : SReg) (imm : BitVec 21) (c : SReg) (x : Bool) (cls : RClass)
  | runpin (h : Hd) (b : SReg) (imm : BitVec 21) (c : SReg)
  | pref (h : Hd) (b : SReg) (imm : BitVec 21) (c : SReg) (x : Bool) (cls : RClass)
  | fence (h : Hd) (scope : Scope)
  | ifence (h : Hd) (b : SReg) (scope : Scope)
  | pfence (h : Hd)
  | amo (h : Hd) (a b c : SReg) (op : AmoOp) (dbl : Bool) (scope : Scope)
  | cas (h : Hd) (a b c : SReg) (dbl : Bool) (scope : Scope)
  | acq (h : Hd) (b : SReg) (x : Bool) (scope : Scope)
  | rel (h : Hd) (b : SReg) (scope : Scope)
  | bar (h : Hd) (b : SReg)
  | sstep (h : Hd)
  | msgsend (h : Hd) (b c : SReg) (cc : BitVec 4)
  | msgwait (h : Hd) (a : SReg)
  | trig (h : Hd)
  | waitdep (h : Hd)
  | xwait (h : Hd) (b : SReg) (ch : BitVec 3)
  | ccwait (h : Hd) (b : SReg) (cc : BitVec 4)
  | twait (h : Hd) (t : BitVec 5)
  | trel (h : Hd) (t : BitVec 5)
  | tstate (h : Hd) (a : SReg) (t : BitVec 5)
  | hget (h : Hd) (a : SReg) (b : HReg) (f : HField)
  | hset (h : Hd) (a : HReg) (b : SReg) (f : HField)
  | hmov (h : Hd) (a b : HReg)
  | claim (h : Hd) (a b : SReg)
  | vrelease (h : Hd)
  | cbwait (h : Hd) (b c : SReg)
  | cbrel (h : Hd) (b c : SReg)
  -- 96-bit format
  | hld (h : Hd) (a : HReg) (b : SReg) (imm : BitVec 53)
  | hst (h : Hd) (a : HReg) (b : SReg) (imm : BitVec 53)
  | hview (h : Hd) (a b : HReg) (c : SReg) (dim : BitVec 2) (ext : BitVec 16)
  | send (h : Hd) (a b : SReg) (c : HReg) (ch : BitVec 3) (fl : EFlags) (dst : BitVec 19)
  | cbinit (h : Hd) (b c : SReg) (count : BitVec 8)
  | cbacq (h : Hd) (a b : SReg)
  | cbcommit (h : Hd) (b : SReg)
  | mprog (h : Hd) (prog : BitVec 53)
  | rset (h : Hd) (b c : SReg)
  | pdecl (h : Hd) (a b c : SReg) (state : BitVec 53)
  | pwait (h : Hd) (b : SReg)
  | pstate (h : Hd) (a b : SReg)
  | xstat (h : Hd) (a : SReg) (ch : BitVec 3)
  | ccrd (h : Hd) (a : SReg) (cc : BitVec 4)
  -- 128-bit format
  | varith (h : Hx) (o1 o2 : HReg) (o3 : HReg) (o4 : SReg) (op : VOp) (ef : EF) (rm : RM)
  | vfma (h : Hx) (o1 o2 o3 o4 : HReg) (o5 : SReg) (k : Fma) (ef : SFmt) (rm : RM)
  | vcmp (h : Hx) (o1 o2 o3 : HReg) (o4 : SReg) (cond : BitVec 4) (ef : EF) (sig : Bool)
  | vsel (h : Hx) (o1 o2 o3 o4 : HReg) (o5 : SReg) (ef : EF)
  | vlogic (h : Hx) (o1 o2 o3 : HReg) (o4 : SReg) (op : LogicOp) (ef : EF)
  | vshift (h : Hx) (o1 o2 : HReg) (o3 : HReg) (o4 : SReg) (op : ShiftOp) (ef : EF) (count : Option (BitVec 6))
  | vcvt (h : Hx) (o1 o2 : HReg) (o3 : SReg) (tag : BitVec 8) (rm : RM)
  | vreq (h : Hx) (o1 o2 : HReg) (o3 : SReg) (bsf4 : Bool)
  | vsfu (h : Hx) (o1 o2 : HReg) (o3 : SReg) (fn : SfuFn) (ef : SFmt)
  | vred (h : Hx) (o1 o2 : HReg) (o3 : SReg) (op : RedOp) (ef : EF) (rm : RM)
  | vscan (h : Hx) (o1 o2 : HReg) (o3 : SReg) (op : ScanOp) (ef : EF) (ex : Bool) (rm : RM)
  | vperm (h : Hx) (o1 o2 o3 : HReg) (o4 : SReg) (scat : Bool) (ef : EF)
  | vbcast (h : Hx) (o1 o2 : HReg) (o3 : SReg) (ef : EF)
  | vmov (h : Hx) (o1 o2 : HReg) (o3 : SReg)
  | vfill (h : Hx) (o1 : HReg) (o2 o3 : SReg) (size : Size)
  | vclass (h : Hx) (o1 o2 : HReg) (o3 : SReg) (ef : SFmt)
  | vmix (h : Hx) (o1 o2 : HReg) (o3 o4 : SReg)
  | mgang (h : Hx) (o1 : SReg)
  | mma (h : Hx) (o1 o2 : HReg) (o3 : SReg) (mode : MmaMode) (acc sp : Bool) (pa pb : BitVec 4)
  | mrec (h : Hx) (o1 o2 : HReg) (o3 : SReg) (ef : EF)
  | mhatch (h : Hx) (o1 o2 : HReg)
  | munhatch (h : Hx) (o1 o2 : HReg)
  | epi (h : Hx) (o1 : HReg) (o2 : SReg) (fl : EFlags)
  | rstat (h : Hx) (o1 : HReg) (slot : BitVec 2)
  | mwait (h : Hx)
  | mabort (h : Hx)
  | rfwd (h : Hx) (o1 o2 : HReg) (o3 : SReg)
  | rrev (h : Hx) (o1 o2 : HReg) (o3 : SReg) (gd : GReg)
  | rchk (h : Hx) (o1 : HReg) (o2 : SReg) (gd : GReg)
  | put (h : Hx) (o1 : HReg) (o2 : SReg) (o3 : HReg) (o4 : SReg) (fl : EFlags) (cc : BitVec 4)
  | get (h : Hx) (o1 : HReg) (o2 : SReg) (o3 : HReg) (o4 : SReg) (fl : EFlags) (cc : BitVec 4)
  | pld (h : Hx) (o1 : HReg) (o2 o3 : SReg) (fl : EFlags)
  | pconv (h : Hx) (o1 o2 : SReg) (fl : EFlags)
  | tfill (h : Hx) (o1 o2 : HReg) (fl : EFlags) (t : BitVec 5) (ch : BitVec 3)
  | tdrain (h : Hx) (o1 o2 : HReg) (fl : EFlags) (t : BitVec 5) (ch : BitVec 3)
  -- steps of the core's own storage and of the range caches; `c` is a core (8 × pod + `id.core`), `k` a place in a queue
  | pendingWriteLand (c : Nat)
  | l1Fill (c k : Nat)
  | ownershipGrant (c k : Nat)
  | invalidate (c pa len : Nat)
  | downgrade (c pa len : Nat)
  | walkComplete (die k : Nat)
  | hotRowHalve (die : Nat)
  -- steps of the engines
  | mmaStart (c : Nat)
  | mmaComplete (c : Nat)
  | mrecComplete (c : Nat)
  | mhatchComplete (c : Nat)
  | rstatComplete (c : Nat)
  | epiComplete (c : Nat)
  | sfuRequestStart (pod : Nat)
  | sfuDeliver (c : Nat)
  | tfillComplete (c k : Nat)
  | tdrainComplete (c k : Nat)
  | sendLand (c k : Nat)
  | packetLand (c k : Nat)
  | getRequestServe (c k : Nat)
  | getReplyLand (c k : Nat)
  | subroundOpen (launch : Nat)
  | subroundClose (c : Nat)
  | messageArrive (c k : Nat)
  -- steps of barriers, sync objects, homes and supersteps
  | phaseClose (launch group : Nat)
  | acqGrant (pa : Nat)
  | slotReturn (cb : Nat) (idx : List Nat)
  | homeAtomic (k : Nat)
  | sstepComplete (launch : Nat)
  | occupancyReport (cb resv head tail count : Nat)
  | placementCutClose (e : Nat)
  | conversionPartWritten (e : Nat)
  | conversionComplete (e : Nat)
  | fabricCutClose (e : Nat) (reports : List PlaceReport)
  | rollback (launch : Nat) (u : FaultUnit)
  -- steps of the fabric and of hosts
  | linkMessageReceive (port : Nat) (m : LinkMsg) (tagOk : Bool)
  | switchRequestArrival (r : SwitchArrival)
  | replySplit (k : Nat)
  | cxlSnoop (addr : Nat)
  | hostWrite (addr : Nat) (bytes : List Byte)
  | engineFaultDelivery (c : Nat)
  -- scheduling
  | waitThreshold (c : Nat)
  | swapDeadline (c : Nat)
  | teamReturn (c : Nat)
  | preemptDeadline (c : Nat)
  | launchRecordAccept (q : Nat)
  | launchStart (seq : Word)
  | completionRecordWrite (q : Nat)
  -- host registers and commands
  | queueDoorbell (q : Nat) (pidx : BitVec 32)
  | queueCheadWrite (q : Nat) (chead : BitVec 32)
  | queueEnable (q : Nat)
  | queueDisable (q : Nat)
  | devidxWrite (idx : BitVec 11)
  | eheadWrite (ehead : BitVec 32)
  | hostRegisterWrite (off : Nat) (v : Word)
  | preEmpt (seq : Word)
  | resume (seq : Word)
  | endLaunch (seq : Word)
  | invalidateTlb (seq : Word)
  | returnLink (seq : Word)
  | powerMode (seq : Word)
  | wrst
  | functionLevelReset
  | coldReset
  | attestationRequest (nonce : BitVec 384)
  | linkTraining (port lanes partner : Nat) (reach : List Nat)
  | thermalThrottle
  | thermalTrip
  | commandStoppedAtFault (c : Nat) (e : Engine) (k : Nat)
  | writeBackComplete (c k : Nat)
  deriving DecidableEq, Repr

end Sys2Proof
end

