-- ==== Sys2Proof/WellFormed.lean ====
section
/-! DEFINITION. Which terms of `Instr` are instructions: the relations between fields that R27, R28, R33 and the opcode
map (R36 to R40, R192) ask for. A step that is no instruction word is always well formed. -/

namespace Sys2Proof

/-- A scope may be named only with a flag (R35). -/
def EFlags.wf (f : EFlags) : Bool := f.acq || f.rel || f.scope == .core

/-- No two post-incremented operands name one handle (R28). -/
def pincDistinct : List Nat → Bool
  | [] => true
  | x :: rest => !rest.contains x && pincDistinct rest

/-- The registers of the operands whose PINC bit is set, ascending; `ops` pairs an operand's place with its handle. -/
def pincRegs (pinc : Nat) (ops : List (Nat × Nat)) : List Nat :=
  (ops.filter fun o => bitAt pinc o.1).map (·.2)

/-- The rules of R28 for an instruction whose handle operands are `ops` (place in O1 to O5 from 0, register). -/
def pincOk (pinc inc1 inc2 inc3 : Nat) (ops : List (Nat × Nat)) : Bool :=
  let used := pincRegs pinc ops
  popcount 5 pinc == used.length && used.length ≤ 3 && pincDistinct used
    && (1 ≤ used.length || inc1 == 0) && (2 ≤ used.length || inc2 == 0) && (3 ≤ used.length || inc3 == 0)

/-- The header rules of the 128-bit format: GB with GOP (R25), HINT (R27), post-increment (R28). -/
def Hx.wf (h : Hx) (hints : Bool) (ops : List (Nat × Nat)) : Bool :=
  (h.gop != 0 || h.gb == 0) && (hints || h.hint == 0)
    && pincOk h.pinc.toNat h.inc1.toNat h.inc2.toNat h.inc3.toNat ops

/-- The float element formats of R33: EF 0 to 3 and MK8. -/
def EF.isFloat : EF → Bool
  | .f64 | .f32 | .f16 | .bf16 | .mk8 => true
  | .i8 | .i16 | .i32 | .i64 => false

/-- EF 0 to 3. -/
def EF.isIeee : EF → Bool
  | .f64 | .f32 | .f16 | .bf16 => true
  | _ => false

/-- EF 4 to 7. -/
def EF.isInt (e : EF) : Bool := !e.isFloat

/-- The conversion codes that are floats. -/
def Cvt.isFloat : Cvt → Bool
  | .f64 | .f32 | .f16 | .bf16 => true
  | .i64 | .nat64 | .i32 | .nat32 => false

/-- Which EF each `VARITH` operation takes (R215). -/
def VOp.efOk : VOp → EF → Bool
  | .div, e | .sqrt, e => e.isIeee
  | .adds, e | .subs, e => e.isInt
  | _, _ => true

/-- The `VARITH` operations written with one source (R40). -/
def VOp.unary : VOp → Bool
  | .abs | .neg | .sqrt => true
  | _ => false

/-- Which EF each reduction takes (R225). -/
def RedOp.efOk : RedOp → EF → Bool
  | .and, e | .or, e | .xor, e => e.isInt
  | .sumsq, e => e.isIeee
  | _, _ => true

/-- The format tags of R128 that `VCVT` converts between (R220). -/
def cvtTags : List Nat := [0x01, 0x02, 0x03, 0x04, 0x10, 0x11, 0x12, 0x20, 0x21, 0x22, 0x23, 0x24]

/-- The fields of operation `i` of a microprogram (R192). -/
def progOp (prog i : Nat) : Nat := field prog (12 * i) 12

/-- R192, detail 5: op0 is present and no present operation has an unassigned compare code. -/
def progAssigned (prog : Nat) : Bool :=
  bitAt (progOp prog 0) 0 && (List.range 4).all fun i => field (progOp prog i) 9 3 < 6

/-- R192, detail 6: what must be zero is zero. -/
def progZeros (prog : Nat) : Bool :=
  field prog 50 3 == 0
    && ((List.range 4).all fun i =>
      let o := progOp prog i
      if bitAt o 0 then
        (field o 1 3 == 5 || field o 9 3 == 0) && (field o 1 3 < 6 || field o 7 2 == 0)
      else o == 0)
    && ((List.range 3).all fun i => bitAt (progOp prog i) 0 || progOp prog (i + 1) == 0)

/-- The code rules of a compare in element format `ef` (R217). -/
def vcmpOk (cond : Nat) (ef : EF) : Bool := if ef.isFloat then cond < 8 else cond < 10

/-- The relations the opcode map asks of an instruction's fields (R29). -/
def WellFormed : Instr → Bool
  | .bfx _ _ _ _ lsb w => lsb.toNat + (w.toNat + 1) ≤ 64
  | .bfi _ _ _ lsb w => lsb.toNat + (w.toNat + 1) ≤ 64
  | .fcvt _ _ _ dst src _ => dst != src && (dst.isFloat || src.isFloat)
  | .loop _ _ imm => 0 < imm.toInt
  | .ld _ _ _ _ size sx => !(sx && size == .d)
  | .ldx _ _ _ _ _ size sx => !(sx && size == .d)
  | .amo _ _ _ _ op dbl _ => op != .fadd || dbl
  | .send _ _ _ _ _ fl _ => fl.wf
  | .hset _ _ _ f => f != .fmt
  | .mprog _ prog => progAssigned prog.toNat && progZeros prog.toNat
  | .varith h o1 o2 o3 _ op ef rm =>
    op.efOk ef && (ef.isFloat || rm == .dyn) && (!op.unary || o3 == 0)
      && h.wf false (if op.unary then [(0, o1.toNat), (1, o2.toNat)] else [(0, o1.toNat), (1, o2.toNat), (2, o3.toNat)])
  | .vfma h o1 o2 o3 o4 _ _ _ _ => h.wf false [(0, o1.toNat), (1, o2.toNat), (2, o3.toNat), (3, o4.toNat)]
  | .vcmp h o1 o2 o3 _ cond ef sig =>
    vcmpOk cond.toNat ef && (!sig || ef.isFloat) && h.wf false [(0, o1.toNat), (1, o2.toNat), (2, o3.toNat)]
  | .vsel h o1 o2 o3 o4 _ _ => h.wf false [(0, o1.toNat), (1, o2.toNat), (2, o3.toNat), (3, o4.toNat)]
  | .vlogic h o1 o2 o3 _ op ef =>
    ef.isInt && (op != .not || o3 == 0)
      && h.wf false (if op == .not then [(0, o1.toNat), (1, o2.toNat)] else [(0, o1.toNat), (1, o2.toNat), (2, o3.toNat)])
  | .vshift h o1 o2 o3 _ _ ef count =>
    ef.isInt && (count.isNone || o3 == 0)
      && h.wf false (if count.isSome then [(0, o1.toNat), (1, o2.toNat)] else [(0, o1.toNat), (1, o2.toNat), (2, o3.toNat)])
  | .vcvt h o1 o2 _ tag _ => cvtTags.contains tag.toNat && h.wf false [(0, o1.toNat), (1, o2.toNat)]
  | .vreq h o1 o2 _ _ => h.wf false [(0, o1.toNat), (1, o2.toNat)]
  | .vsfu h o1 o2 _ _ _ => h.wf false [(0, o1.toNat), (1, o2.toNat)]
  | .vred h o1 o2 _ op ef _ => op.efOk ef && h.wf false [(0, o1.toNat), (1, o2.toNat)]
  | .vscan h o1 o2 _ _ _ _ _ => h.wf false [(0, o1.toNat), (1, o2.toNat)]
  | .vperm h o1 o2 o3 _ _ _ => h.wf false [(0, o1.toNat), (1, o2.toNat), (2, o3.toNat)]
  | .vbcast h o1 o2 _ _ => h.wf false [(0, o1.toNat), (1, o2.toNat)]
  | .vmov h o1 o2 _ => h.wf false [(0, o1.toNat), (1, o2.toNat)]
  | .vfill h o1 _ _ _ => h.wf false [(0, o1.toNat)]
  | .vclass h o1 o2 _ _ => h.wf false [(0, o1.toNat), (1, o2.toNat)]
  | .vmix h o1 o2 _ _ => h.wf false [(0, o1.toNat), (1, o2.toNat)]
  | .mgang h _ => h.wf false []
  | .mma h o1 o2 _ mode _ sp pa pb =>
    (!sp || mode == .pp) && (mode == .pp || (pa == 0 && pb == 0)) && h.wf false [(0, o1.toNat), (1, o2.toNat)]
  | .mrec h o1 o2 _ ef => ef != .mk8 && h.wf false [(0, o1.toNat), (1, o2.toNat)]
  | .mhatch h o1 o2 => h.wf false [(0, o1.toNat), (1, o2.toNat)]
  | .munhatch h o1 o2 => h.wf false [(0, o1.toNat), (1, o2.toNat)]
  | .epi h o1 _ fl => fl.wf && h.wf false [(0, o1.toNat)]
  | .rstat h o1 _ => h.wf false [(0, o1.toNat)]
  | .mwait h => h.wf false []
  | .mabort h => h.wf false []
  | .rfwd h o1 o2 _ => h.wf false [(0, o1.toNat), (1, o2.toNat)]
  | .rrev h o1 o2 _ _ => h.wf false [(0, o1.toNat), (1, o2.toNat)]
  | .rchk h o1 _ _ => h.wf false [(0, o1.toNat)]
  | .put h o1 _ o3 _ fl _ => fl.wf && h.wf true [(0, o1.toNat), (2, o3.toNat)]
  | .get h o1 _ o3 _ fl _ => fl.wf && h.wf true [(0, o1.toNat), (2, o3.toNat)]
  | .pld h o1 _ _ fl => fl.wf && h.wf true [(0, o1.toNat)]
  | .pconv h _ _ fl => fl.wf && h.wf false []
  | .tfill h o1 o2 fl _ _ => fl.wf && h.wf true [(0, o1.toNat), (1, o2.toNat)]
  | .tdrain h o1 o2 fl _ _ => fl.wf && h.wf true [(0, o1.toNat), (1, o2.toNat)]
  | .nop _ | .add _ _ _ _ | .sub _ _ _ _ | .and _ _ _ _ | .or _ _ _ _ | .xor _ _ _ _ | .andn _ _ _ _ | .shl _ _ _ _
  | .shr _ _ _ _ | .sar _ _ _ _ | .rot _ _ _ _ | .min _ _ _ _ | .max _ _ _ _ | .minu _ _ _ _ | .maxu _ _ _ _
  | .addImm _ _ _ _ | .subImm _ _ _ _ | .andImm _ _ _ _ | .orImm _ _ _ _ | .xorImm _ _ _ _ | .andnImm _ _ _ _
  | .shlImm _ _ _ _ | .shrImm _ _ _ _ | .sarImm _ _ _ _ | .rotImm _ _ _ _ | .minImm _ _ _ _ | .maxImm _ _ _ _
  | .minuImm _ _ _ _ | .maxuImm _ _ _ _ | .mul _ _ _ _ | .mulh _ _ _ _ | .mulhu _ _ _ _ | .div _ _ _ _ | .divu _ _ _ _
  | .rem _ _ _ _ | .remu _ _ _ _ | .clz _ _ _ | .ctz _ _ _ | .popc _ _ _ | .brev _ _ _ | .bswap _ _ _ | .mix _ _ _ _
  | .cmp _ _ _ _ _ _ | .cmpi _ _ _ _ _ _ | .sel _ _ _ _ _ _ | .glog _ _ | .movi _ _ _ | .movw _ _ _ | .fadd _ _ _ _ _ _
  | .fsub _ _ _ _ _ _ | .fmul _ _ _ _ _ _ | .fdiv _ _ _ _ _ _ | .fsqrt _ _ _ _ _ | .fmin _ _ _ _ _ _ | .fmax _ _ _ _ _ _
  | .ffma _ _ _ _ _ _ _ | .fcmp _ _ _ _ _ _ _ | .fclass _ _ _ _ | .idr _ _ _ | .srr _ _ _ | .srw _ _ _ | .br _ _ | .brl _ _
  | .call _ _ _ | .calll _ _ _ | .ret _ _ | .jmpr _ _ _ _ | .endl _ | .brk _ _ | .trap _ _ | .syscall _ _ | .eret _ | .exit _
  | .detach _ | .join _ | .yield _ | .st _ _ _ _ _ | .rflush _ _ _ _ _ | .rdrop _ _ _ _ | .rpin _ _ _ _ _ _ _
  | .runpin _ _ _ _ | .pref _ _ _ _ _ _ | .fence _ _ | .ifence _ _ _ | .pfence _ | .cas _ _ _ _ _ _ | .acq _ _ _ _
  | .rel _ _ _ | .bar _ _ | .sstep _ | .msgsend _ _ _ _ | .msgwait _ _ | .trig _ | .waitdep _ | .xwait _ _ _ | .ccwait _ _ _
  | .twait _ _ | .trel _ _ | .tstate _ _ _ | .hget _ _ _ _ | .hmov _ _ _ | .claim _ _ _ | .vrelease _ | .cbwait _ _ _
  | .cbrel _ _ _ | .hld _ _ _ _ | .hst _ _ _ _ | .hview _ _ _ _ _ _ | .cbinit _ _ _ _ | .cbacq _ _ _ | .cbcommit _ _
  | .rset _ _ _ | .pdecl _ _ _ _ _ | .pwait _ _ | .pstate _ _ _ | .xstat _ _ _ | .ccrd _ _ _ | .pendingWriteLand _
  | .l1Fill _ _ | .ownershipGrant _ _ | .invalidate _ _ _ | .downgrade _ _ _ | .walkComplete _ _ | .hotRowHalve _
  | .mmaStart _ | .mmaComplete _ | .mrecComplete _ | .mhatchComplete _ | .rstatComplete _ | .epiComplete _
  | .sfuRequestStart _ | .sfuDeliver _ | .tfillComplete _ _ | .tdrainComplete _ _ | .sendLand _ _ | .packetLand _ _
  | .getRequestServe _ _ | .getReplyLand _ _ | .subroundOpen _ | .subroundClose _ | .messageArrive _ _ | .phaseClose _ _
  | .acqGrant _ | .slotReturn _ _ | .homeAtomic _ | .sstepComplete _ | .occupancyReport _ _ _ _ _ | .placementCutClose _
  | .conversionPartWritten _ | .conversionComplete _ | .fabricCutClose _ _ | .rollback _ _ | .linkMessageReceive _ _ _
  | .switchRequestArrival _ | .replySplit _ | .cxlSnoop _ | .hostWrite _ _ | .engineFaultDelivery _ | .waitThreshold _
  | .swapDeadline _ | .teamReturn _ | .preemptDeadline _ | .launchRecordAccept _ | .launchStart _ | .completionRecordWrite _
  | .queueDoorbell _ _ | .queueCheadWrite _ _ | .queueEnable _ | .queueDisable _ | .devidxWrite _ | .eheadWrite _
  | .hostRegisterWrite _ _ | .preEmpt _ | .resume _ | .endLaunch _ | .invalidateTlb _ | .returnLink _ | .powerMode _ | .wrst
  | .functionLevelReset | .coldReset | .attestationRequest _ | .linkTraining _ _ _ _ | .thermalThrottle | .thermalTrip
  | .commandStoppedAtFault _ _ _ | .writeBackComplete _ _ => true

end Sys2Proof
end

