-- ==== Sys2Proof/Decode.lean ====
section
/-! DEFINITION. The decoder, total on any bytes, which rejects by the detail codes of R29, and the encoder written from
the same maps (R17 to R40). -/

namespace Sys2Proof

/-- The fields of a 64- or 96-bit word after LEN (R17, R20); `imm` is IMM21 or IMM53, unsigned. -/
structure Raw where
  op : Nat
  dly : Nat
  g : Nat
  gn : Nat
  a : Nat
  b : Nat
  c : Nat
  sub : Nat
  imm : Nat
  deriving DecidableEq, Repr

/-- The fields of a 128-bit word after LEN (R17, R24). -/
structure RawX where
  op : Nat
  dly : Nat
  ga : Nat
  gb : Nat
  gop : Nat
  yld : Nat
  hint : Nat
  o1 : Nat
  o2 : Nat
  o3 : Nat
  o4 : Nat
  o5 : Nat
  sub : Nat
  pinc : Nat
  inc1 : Nat
  inc2 : Nat
  inc3 : Nat
  aux : Nat
  deriving DecidableEq, Repr

/-- The widths of the 64-bit format, LEN lowest (R17, R20). -/
def widths64 : List Nat := [2, 8, 4, 4, 1, 6, 6, 6, 6, 21]

/-- The widths of the 96-bit format. -/
def widths96 : List Nat := [2, 8, 4, 4, 1, 6, 6, 6, 6, 53]

/-- The widths of the 128-bit format (R24). -/
def widths128 : List Nat := [2, 8, 4, 4, 4, 2, 1, 4, 6, 6, 6, 6, 6, 8, 5, 16, 16, 16, 8]

/-- The fields of a word in the 64-bit format (`n` = 21) or the 96-bit format (`n` = 53). -/
def Raw.ofWord (n w : Nat) : Raw :=
  { op := field w 2 8, dly := field w 10 4, g := field w 14 4, gn := field w 18 1, a := field w 19 6,
    b := field w 25 6, c := field w 31 6, sub := field w 37 6, imm := field w 43 n }

/-- The fields of a 128-bit word (R24). -/
def RawX.ofWord (w : Nat) : RawX :=
  { op := field w 2 8, dly := field w 10 4, ga := field w 14 4, gb := field w 18 4, gop := field w 22 2,
    yld := field w 24 1, hint := field w 25 4, o1 := field w 29 6, o2 := field w 35 6, o3 := field w 41 6,
    o4 := field w 47 6, o5 := field w 53 6, sub := field w 59 8, pinc := field w 67 5, inc1 := field w 72 16,
    inc2 := field w 88 16, inc3 := field w 104 16, aux := field w 120 8 }

/-- The word of a 64-bit (`len` 1, `n` 21) or 96-bit (`len` 2, `n` 53) instruction. -/
def Raw.toWord (len n : Nat) (r : Raw) : Nat :=
  packFields [(2, len), (8, r.op), (4, r.dly), (4, r.g), (1, r.gn), (6, r.a), (6, r.b), (6, r.c), (6, r.sub), (n, r.imm)]

/-- The word of a 128-bit instruction. -/
def RawX.toWord (r : RawX) : Nat :=
  packFields [(2, 3), (8, r.op), (4, r.dly), (4, r.ga), (4, r.gb), (2, r.gop), (1, r.yld), (4, r.hint), (6, r.o1),
    (6, r.o2), (6, r.o3), (6, r.o4), (6, r.o5), (8, r.sub), (5, r.pinc), (16, r.inc1), (16, r.inc2), (16, r.inc3),
    (8, r.aux)]

/-- Detail code of an illegal instruction (R29). -/
abbrev Detail := Nat

/-- Reject with detail `d` unless `c` holds. -/
def chk (d : Detail) (c : Bool) : Except Detail Unit := if c then .ok () else .error d

/-- Take an assigned code, or reject with detail 5 (R29). -/
def code5 {α : Type} : Option α → Except Detail α
  | some x => .ok x
  | none => .error 5

/-- The Scope named by a code (R31). -/
def Scope.ofCode : Nat → Option Scope
  | 0 => some .core
  | 1 => some .pod
  | 2 => some .die
  | 3 => some .dev
  | 4 => some .sys
  | _ => none

/-- The code of a Scope (R31). -/
def Scope.code : Scope → Nat
  | .core => 0
  | .pod => 1
  | .die => 2
  | .dev => 3
  | .sys => 4

/-- The Size named by a code (R31). -/
def Size.ofCode : Nat → Option Size
  | 0 => some .b
  | 1 => some .h
  | 2 => some .w
  | 3 => some .d
  | _ => none

/-- The code of a Size (R31). -/
def Size.code : Size → Nat
  | .b => 0
  | .h => 1
  | .w => 2
  | .d => 3

/-- The RM named by a code (R32). -/
def RM.ofCode : Nat → Option RM
  | 0 => some .dyn
  | 1 => some .rne
  | 2 => some .rtz
  | 3 => some .rdn
  | 4 => some .rup
  | 5 => some .rna
  | _ => none

/-- The code of a RM (R32). -/
def RM.code : RM → Nat
  | .dyn => 0
  | .rne => 1
  | .rtz => 2
  | .rdn => 3
  | .rup => 4
  | .rna => 5

/-- The SFmt named by a code (R33). -/
def SFmt.ofCode : Nat → Option SFmt
  | 0 => some .f64
  | 1 => some .f32
  | 2 => some .f16
  | 3 => some .bf16
  | _ => none

/-- The code of a SFmt (R33). -/
def SFmt.code : SFmt → Nat
  | .f64 => 0
  | .f32 => 1
  | .f16 => 2
  | .bf16 => 3

/-- The EF named by a code (R33). -/
def EF.ofCode : Nat → Option EF
  | 0 => some .f64
  | 1 => some .f32
  | 2 => some .f16
  | 3 => some .bf16
  | 4 => some .i8
  | 5 => some .i16
  | 6 => some .i32
  | 7 => some .i64
  | 8 => some .mk8
  | _ => none

/-- The code of a EF (R33). -/
def EF.code : EF → Nat
  | .f64 => 0
  | .f32 => 1
  | .f16 => 2
  | .bf16 => 3
  | .i8 => 4
  | .i16 => 5
  | .i32 => 6
  | .i64 => 7
  | .mk8 => 8

/-- The Cvt named by a code (R33). -/
def Cvt.ofCode : Nat → Option Cvt
  | 0 => some .f64
  | 1 => some .f32
  | 2 => some .f16
  | 3 => some .bf16
  | 4 => some .i64
  | 5 => some .nat64
  | 6 => some .i32
  | 7 => some .nat32
  | _ => none

/-- The code of a Cvt (R33). -/
def Cvt.code : Cvt → Nat
  | .f64 => 0
  | .f32 => 1
  | .f16 => 2
  | .bf16 => 3
  | .i64 => 4
  | .nat64 => 5
  | .i32 => 6
  | .nat32 => 7

/-- The ICond named by a code (R34). -/
def ICond.ofCode : Nat → Option ICond
  | 0 => some .eq
  | 1 => some .ne
  | 2 => some .lt
  | 3 => some .ge
  | 4 => some .le
  | 5 => some .gt
  | 6 => some .ltu
  | 7 => some .geu
  | 8 => some .leu
  | 9 => some .gtu
  | _ => none

/-- The code of a ICond (R34). -/
def ICond.code : ICond → Nat
  | .eq => 0
  | .ne => 1
  | .lt => 2
  | .ge => 3
  | .le => 4
  | .gt => 5
  | .ltu => 6
  | .geu => 7
  | .leu => 8
  | .gtu => 9

/-- The FCond named by a code (R34). -/
def FCond.ofCode : Nat → Option FCond
  | 0 => some .eq
  | 1 => some .ne
  | 2 => some .lt
  | 3 => some .ge
  | 4 => some .le
  | 5 => some .gt
  | 6 => some .un
  | 7 => some .ord
  | _ => none

/-- The code of a FCond (R34). -/
def FCond.code : FCond → Nat
  | .eq => 0
  | .ne => 1
  | .lt => 2
  | .ge => 3
  | .le => 4
  | .gt => 5
  | .un => 6
  | .ord => 7

/-- The GWrite named by a code (R60). -/
def GWrite.ofCode : Nat → Option GWrite
  | 0 => some .write
  | 1 => some .and
  | 2 => some .or
  | _ => none

/-- The code of a GWrite (R60). -/
def GWrite.code : GWrite → Nat
  | .write => 0
  | .and => 1
  | .or => 2

/-- The Fma named by a code (R67). -/
def Fma.ofCode : Nat → Option Fma
  | 0 => some .fma
  | 1 => some .fms
  | 2 => some .fnma
  | 3 => some .fnms
  | _ => none

/-- The code of a Fma (R67). -/
def Fma.code : Fma → Nat
  | .fma => 0
  | .fms => 1
  | .fnma => 2
  | .fnms => 3

/-- The IdReg named by a code (R37). -/
def IdReg.ofCode : Nat → Option IdReg
  | 0 => some .core
  | 1 => some .pod
  | 2 => some .die
  | 3 => some .dev
  | 4 => some .org0
  | 5 => some .org1
  | 6 => some .org2
  | 7 => some .org3
  | 8 => some .ext0
  | 9 => some .ext1
  | 10 => some .ext2
  | 11 => some .ext3
  | 12 => some .grp0
  | 13 => some .grp1
  | 14 => some .grp2
  | 15 => some .grp3
  | 16 => some .lanes
  | 17 => some .chan
  | _ => none

/-- The code of a IdReg (R37). -/
def IdReg.code : IdReg → Nat
  | .core => 0
  | .pod => 1
  | .die => 2
  | .dev => 3
  | .org0 => 4
  | .org1 => 5
  | .org2 => 6
  | .org3 => 7
  | .ext0 => 8
  | .ext1 => 9
  | .ext2 => 10
  | .ext3 => 11
  | .grp0 => 12
  | .grp1 => 13
  | .grp2 => 14
  | .grp3 => 15
  | .lanes => 16
  | .chan => 17

/-- The SysReg named by a code (R72). -/
def SysReg.ofCode : Nat → Option SysReg
  | 0 => some .fpc
  | 1 => some .cyc
  | 2 => some .slots
  | 3 => some .depth
  | 4 => some .lc
  | 16 => some .wthr
  | 17 => some .pquota
  | 18 => some .lquota
  | 32 => some .inj
  | 48 => some .tvec
  | 49 => some .epc
  | 50 => some .ecause
  | 51 => some .einfo
  | 52 => some .eaddr
  | 53 => some .estat
  | _ => none

/-- The code of a SysReg (R72). -/
def SysReg.code : SysReg → Nat
  | .fpc => 0
  | .cyc => 1
  | .slots => 2
  | .depth => 3
  | .lc => 4
  | .wthr => 16
  | .pquota => 17
  | .lquota => 18
  | .inj => 32
  | .tvec => 48
  | .epc => 49
  | .ecause => 50
  | .einfo => 51
  | .eaddr => 52
  | .estat => 53

/-- The HField named by a code (R37). -/
def HField.ofCode : Nat → Option HField
  | 0 => some .base
  | 1 => some .space
  | 2 => some .fmt
  | 3 => some .cursor
  | 4 => some .layout
  | 5 => some .planes
  | 6 => some .tile
  | 7 => some .block
  | 8 => some .ext0
  | 9 => some .ext1
  | 10 => some .ext2
  | 11 => some .ext3
  | 12 => some .stride1
  | 13 => some .stride2
  | _ => none

/-- The code of a HField (R37). -/
def HField.code : HField → Nat
  | .base => 0
  | .space => 1
  | .fmt => 2
  | .cursor => 3
  | .layout => 4
  | .planes => 5
  | .tile => 6
  | .block => 7
  | .ext0 => 8
  | .ext1 => 9
  | .ext2 => 10
  | .ext3 => 11
  | .stride1 => 12
  | .stride2 => 13

/-- The Flush named by a code (R14). -/
def Flush.ofCode : Nat → Option Flush
  | 0 => some .keep
  | 1 => some .s
  | 2 => some .i
  | _ => none

/-- The code of a Flush (R14). -/
def Flush.code : Flush → Nat
  | .keep => 0
  | .s => 1
  | .i => 2

/-- The AmoOp named by a code (R38). -/
def AmoOp.ofCode : Nat → Option AmoOp
  | 0 => some .add
  | 1 => some .and
  | 2 => some .or
  | 3 => some .xor
  | 4 => some .min
  | 5 => some .max
  | 6 => some .minu
  | 7 => some .maxu
  | 8 => some .swap
  | 9 => some .fadd
  | _ => none

/-- The code of a AmoOp (R38). -/
def AmoOp.code : AmoOp → Nat
  | .add => 0
  | .and => 1
  | .or => 2
  | .xor => 3
  | .min => 4
  | .max => 5
  | .minu => 6
  | .maxu => 7
  | .swap => 8
  | .fadd => 9

/-- The VOp named by a code (R40). -/
def VOp.ofCode : Nat → Option VOp
  | 0 => some .add
  | 1 => some .sub
  | 2 => some .mul
  | 3 => some .div
  | 4 => some .sqrt
  | 5 => some .min
  | 6 => some .max
  | 7 => some .abs
  | 8 => some .neg
  | 9 => some .adds
  | 10 => some .subs
  | _ => none

/-- The code of a VOp (R40). -/
def VOp.code : VOp → Nat
  | .add => 0
  | .sub => 1
  | .mul => 2
  | .div => 3
  | .sqrt => 4
  | .min => 5
  | .max => 6
  | .abs => 7
  | .neg => 8
  | .adds => 9
  | .subs => 10

/-- The LogicOp named by a code (R40). -/
def LogicOp.ofCode : Nat → Option LogicOp
  | 0 => some .and
  | 1 => some .or
  | 2 => some .xor
  | 3 => some .andn
  | 4 => some .not
  | _ => none

/-- The code of a LogicOp (R40). -/
def LogicOp.code : LogicOp → Nat
  | .and => 0
  | .or => 1
  | .xor => 2
  | .andn => 3
  | .not => 4

/-- The ShiftOp named by a code (R40). -/
def ShiftOp.ofCode : Nat → Option ShiftOp
  | 0 => some .shl
  | 1 => some .shr
  | 2 => some .sar
  | 3 => some .rot
  | _ => none

/-- The code of a ShiftOp (R40). -/
def ShiftOp.code : ShiftOp → Nat
  | .shl => 0
  | .shr => 1
  | .sar => 2
  | .rot => 3

/-- The SfuFn named by a code (R40). -/
def SfuFn.ofCode : Nat → Option SfuFn
  | 0 => some .exp
  | 1 => some .log
  | 2 => some .recip
  | 3 => some .rsqrt
  | 4 => some .sin
  | 5 => some .cos
  | 6 => some .tanh
  | 7 => some .sigmoid
  | 8 => some .erf
  | 9 => some .exp2
  | 10 => some .log2
  | _ => none

/-- The code of a SfuFn (R40). -/
def SfuFn.code : SfuFn → Nat
  | .exp => 0
  | .log => 1
  | .recip => 2
  | .rsqrt => 3
  | .sin => 4
  | .cos => 5
  | .tanh => 6
  | .sigmoid => 7
  | .erf => 8
  | .exp2 => 9
  | .log2 => 10

/-- The RedOp named by a code (R225). -/
def RedOp.ofCode : Nat → Option RedOp
  | 0 => some .sum
  | 1 => some .min
  | 2 => some .max
  | 3 => some .and
  | 4 => some .or
  | 5 => some .xor
  | 6 => some .sumsq
  | _ => none

/-- The code of a RedOp (R225). -/
def RedOp.code : RedOp → Nat
  | .sum => 0
  | .min => 1
  | .max => 2
  | .and => 3
  | .or => 4
  | .xor => 5
  | .sumsq => 6

/-- The ScanOp named by a code (R225). -/
def ScanOp.ofCode : Nat → Option ScanOp
  | 0 => some .sum
  | 1 => some .min
  | 2 => some .max
  | _ => none

/-- The code of a ScanOp (R225). -/
def ScanOp.code : ScanOp → Nat
  | .sum => 0
  | .min => 1
  | .max => 2

/-- The MmaMode named by a code (R40). -/
def MmaMode.ofCode : Nat → Option MmaMode
  | 0 => some .pp
  | 1 => some .fl
  | 2 => some .ieee
  | 3 => some .wide
  | 4 => some .res
  | _ => none

/-- The code of a MmaMode (R40). -/
def MmaMode.code : MmaMode → Nat
  | .pp => 0
  | .fl => 1
  | .ieee => 2
  | .wide => 3
  | .res => 4

/-- The number of a flag bit. -/
def bit (b : Bool) : Nat := if b then 1 else 0

/-- The engine flags of a flag byte (R35): detail 5 for a byte that R35 does not assign. -/
def EFlags.ofByte (v : Nat) : Except Detail EFlags := do
  chk 5 (v / 32 == 0)
  let sc ← code5 (Scope.ofCode (field v 2 3))
  let f : EFlags := { acq := bitAt v 0, rel := bitAt v 1, scope := sc }
  chk 5 f.wf
  return f

/-- The flag byte (R35). -/
def EFlags.byte (f : EFlags) : Nat := bit f.acq + 2 * bit f.rel + 4 * f.scope.code

/-- The header of a 64- or 96-bit word. -/
def Raw.hd (r : Raw) : Hd := { dly := .ofNat 4 r.dly, g := .ofNat 4 r.g, gn := r.gn == 1 }

/-- The header of a 128-bit word. -/
def RawX.hx (r : RawX) : Hx :=
  { dly := .ofNat 4 r.dly, ga := .ofNat 4 r.ga, gb := .ofNat 4 r.gb, gop := .ofNat 2 r.gop, yld := r.yld == 1,
    hint := .ofNat 4 r.hint, pinc := .ofNat 5 r.pinc, inc1 := .ofNat 16 r.inc1, inc2 := .ofNat 16 r.inc2,
    inc3 := .ofNat 16 r.inc3 }

/-- A scalar operand field. -/
abbrev sr (n : Nat) : SReg := BitVec.ofNat 6 n
/-- A handle operand field. -/
abbrev hr (n : Nat) : HReg := BitVec.ofNat 5 n
/-- A guard operand field. -/
abbrev gr (n : Nat) : GReg := BitVec.ofNat 4 n

/-- Fields the map marks zero (detail 6). -/
def zeros (l : List Nat) : Except Detail Unit := chk 6 (l.all (· == 0))

/-- A handle operand below 32 (detail 7, R22). -/
def isH (n : Nat) : Except Detail Unit := chk 7 (n < 32)

/-- A guard operand below 16 (detail 7, R22). -/
def isG (n : Nat) : Except Detail Unit := chk 7 (n < 16)

/-- What R25, R27, R22 and R28 check of every 128-bit word, after its own codes: GB with GOP 0 and HINT where no hint is
taken (detail 6), the handle operands (detail 7), the post-increments (detail 8). `ops` pairs the places of the handle
operands with their fields. -/
def RawX.common (r : RawX) (hints : Bool) (zero : List Nat) (ops : List (Nat × Nat)) : Except Detail Unit := do
  chk 6 ((r.gop != 0 || r.gb == 0) && (hints || r.hint == 0) && zero.all (· == 0))
  chk 7 (ops.all fun o => o.2 < 32)
  chk 8 (pincOk r.pinc r.inc1 r.inc2 r.inc3 ops)

/-- The operation of OP 0x01 and 0x02 by SUB, register form (R36). -/
def aluReg (h : Hd) (a b c : SReg) : Nat → Option Instr
  | 0 => some (.add h a b c) | 1 => some (.sub h a b c) | 2 => some (.and h a b c) | 3 => some (.or h a b c)
  | 4 => some (.xor h a b c) | 5 => some (.andn h a b c) | 6 => some (.shl h a b c) | 7 => some (.shr h a b c)
  | 8 => some (.sar h a b c) | 9 => some (.rot h a b c) | 10 => some (.min h a b c) | 11 => some (.max h a b c)
  | 12 => some (.minu h a b c) | 13 => some (.maxu h a b c) | _ => none

/-- The same, immediate form (R36). -/
def aluImm (h : Hd) (a b : SReg) (imm : Nat) : Nat → Option Instr
  | 0 => some (.addImm h a b (.ofNat 21 imm)) | 1 => some (.subImm h a b (.ofNat 21 imm))
  | 2 => some (.andImm h a b (.ofNat 21 imm)) | 3 => some (.orImm h a b (.ofNat 21 imm))
  | 4 => some (.xorImm h a b (.ofNat 21 imm)) | 5 => some (.andnImm h a b (.ofNat 21 imm))
  | 6 => some (.shlImm h a b (.ofNat 6 imm)) | 7 => some (.shrImm h a b (.ofNat 6 imm))
  | 8 => some (.sarImm h a b (.ofNat 6 imm)) | 9 => some (.rotImm h a b (.ofNat 6 imm))
  | 10 => some (.minImm h a b (.ofNat 21 imm)) | 11 => some (.maxImm h a b (.ofNat 21 imm))
  | 12 => some (.minuImm h a b (.ofNat 21 imm)) | 13 => some (.maxuImm h a b (.ofNat 21 imm)) | _ => none

/-- OP 0x03 by SUB (R36). -/
def mulDiv (h : Hd) (a b c : SReg) : Nat → Option Instr
  | 0 => some (.mul h a b c) | 1 => some (.mulh h a b c) | 2 => some (.mulhu h a b c) | 3 => some (.div h a b c)
  | 4 => some (.divu h a b c) | 5 => some (.rem h a b c) | 6 => some (.remu h a b c) | _ => none

/-- OP 0x04 by SUB (R36). -/
def bitOp (h : Hd) (a b c : SReg) : Nat → Option Instr
  | 0 => some (.clz h a b) | 1 => some (.ctz h a b) | 2 => some (.popc h a b) | 3 => some (.brev h a b)
  | 4 => some (.bswap h a b) | 5 => some (.mix h a b c) | _ => none

/-- OP 0x0A by SUB with its operand checks (R62). -/
def glogOp (r : Raw) : Except Detail Instr :=
  let three (k : GReg → GReg → GReg → GlogOp) : Except Detail Instr := do
    zeros [r.imm]; isG r.a; isG r.b; isG r.c
    return .glog r.hd (k (gr r.a) (gr r.b) (gr r.c))
  let two (k : GReg → GReg → GlogOp) : Except Detail Instr := do
    zeros [r.imm, r.c]; isG r.a; isG r.b
    return .glog r.hd (k (gr r.a) (gr r.b))
  let one (k : GReg → GlogOp) : Except Detail Instr := do
    zeros [r.imm, r.b, r.c]; isG r.a
    return .glog r.hd (k (gr r.a))
  match r.sub with
  | 0 => three .and
  | 1 => three .or
  | 2 => three .xor
  | 3 => three .andn
  | 4 => two .not
  | 5 => two .mov
  | 6 => one .set
  | 7 => one .clr
  | 8 => do zeros [r.imm, r.b, r.c]; return .glog r.hd (.gtos (sr r.a))
  | 9 => do zeros [r.imm, r.a, r.c]; return .glog r.hd (.stog (sr r.b))
  | _ => .error 5

/-- OP 0x0C by SUB[2:0] (R36, R66). -/
def farith (h : Hd) (a b c : SReg) (f : SFmt) (rm : RM) : Nat → Option Instr
  | 0 => some (.fadd h a b c f rm) | 1 => some (.fsub h a b c f rm) | 2 => some (.fmul h a b c f rm)
  | 3 => some (.fdiv h a b c f rm) | 4 => some (.fsqrt h a b f rm) | 5 => some (.fmin h a b c f rm)
  | 6 => some (.fmax h a b c f rm) | _ => none

/-- A trap-raising instruction's code field (R76): bit 20 set is detail 7. -/
def trapCode (r : Raw) (k : Hd → BitVec 20 → Instr) : Except Detail Instr := do
  chk 5 (r.sub == 0); zeros [r.a, r.b, r.c]; chk 7 (r.imm < 2 ^ 20)
  return k r.hd (.ofNat 20 r.imm)

/-- An instruction of no operand. -/
def bare (r : Raw) (i : Hd → Instr) : Except Detail Instr := do
  chk 5 (r.sub == 0); zeros [r.a, r.b, r.c, r.imm]
  return i r.hd

/-- The extent operands of R108, SUB checked by the caller. -/
def Raw.off (r : Raw) : BitVec 21 := .ofNat 21 r.imm

/-- The 64-bit opcodes below 0x40 (R36). -/
def decodeLow (r : Raw) : Except Detail Instr :=
  let h := r.hd
  match r.op with
  | 0x00 => do
    chk 5 (r.sub == 0); zeros [r.g, r.gn, r.a, r.b, r.c, r.imm]
    return .nop (.ofNat 4 r.dly)
  | 0x01 => do
    let i ← code5 (aluReg h (sr r.a) (sr r.b) (sr r.c) r.sub)
    zeros [r.imm]
    return i
  | 0x02 => do
    let i ← code5 (aluImm h (sr r.a) (sr r.b) r.imm r.sub)
    zeros [r.c]
    chk 7 (r.sub < 6 || 9 < r.sub || r.imm < 64)
    return i
  | 0x03 => do
    let i ← code5 (mulDiv h (sr r.a) (sr r.b) (sr r.c) r.sub)
    zeros [r.imm]
    return i
  | 0x04 => do
    let i ← code5 (bitOp h (sr r.a) (sr r.b) (sr r.c) r.sub)
    zeros [r.imm]
    chk 6 (r.sub == 5 || r.c == 0)
    return i
  | 0x05 => do
    chk 5 (r.sub < 2); zeros [r.c, r.imm / 2 ^ 12]
    chk 7 (field r.imm 0 6 + (field r.imm 6 6 + 1) ≤ 64)
    return .bfx h (sr r.a) (sr r.b) (r.sub == 1) (.ofNat 6 (field r.imm 0 6)) (.ofNat 6 (field r.imm 6 6))
  | 0x06 => do
    chk 5 (r.sub == 0); zeros [r.c, r.imm / 2 ^ 12]
    chk 7 (field r.imm 0 6 + (field r.imm 6 6 + 1) ≤ 64)
    return .bfi h (sr r.a) (sr r.b) (.ofNat 6 (field r.imm 0 6)) (.ofNat 6 (field r.imm 6 6))
  | 0x07 => do
    let cond ← code5 (ICond.ofCode (field r.sub 0 4))
    let w ← code5 (GWrite.ofCode (field r.sub 4 2))
    zeros [r.imm]; isG r.a
    return .cmp h (gr r.a) (sr r.b) (sr r.c) cond w
  | 0x08 => do
    let cond ← code5 (ICond.ofCode (field r.sub 0 4))
    let w ← code5 (GWrite.ofCode (field r.sub 4 2))
    zeros [r.c]; isG r.a
    return .cmpi h (gr r.a) (sr r.b) r.off cond w
  | 0x09 => do
    chk 5 (r.sub == 0); zeros [r.imm / 32]
    return .sel h (sr r.a) (sr r.b) (sr r.c) (gr (field r.imm 0 4)) (bitAt r.imm 4)
  | 0x0A => glogOp r
  | 0x0B => do
    chk 5 (r.sub == 0); zeros [r.b, r.c]
    return .movi h (sr r.a) r.off
  | 0x0C => do
    let f ← code5 (SFmt.ofCode (field r.sub 3 3))
    let rm ← code5 (RM.ofCode (field r.imm 0 3))
    let i ← code5 (farith h (sr r.a) (sr r.b) (sr r.c) f rm (field r.sub 0 3))
    zeros [r.imm / 8]
    chk 6 (field r.sub 0 3 != 4 || r.c == 0)
    return i
  | 0x0D => do
    let k ← code5 (Fma.ofCode (field r.sub 0 3))
    let f ← code5 (SFmt.ofCode (field r.sub 3 3))
    let rm ← code5 (RM.ofCode (field r.imm 0 3))
    zeros [r.imm / 8]
    return .ffma h (sr r.a) (sr r.b) (sr r.c) k f rm
  | 0x0E => do
    let cond ← code5 (FCond.ofCode (field r.sub 0 3))
    let f ← code5 (SFmt.ofCode (field r.sub 3 3))
    zeros [r.imm / 2]; isG r.a
    return .fcmp h (gr r.a) (sr r.b) (sr r.c) cond f (bitAt r.imm 0)
  | 0x0F => do
    let dst ← code5 (Cvt.ofCode (field r.sub 0 3))
    let src ← code5 (Cvt.ofCode (field r.sub 3 3))
    let rm ← code5 (RM.ofCode (field r.imm 0 3))
    chk 5 (dst != src && (dst.isFloat || src.isFloat))
    zeros [r.c, r.imm / 8]
    return .fcvt h (sr r.a) (sr r.b) dst src rm
  | 0x10 => do
    let f ← code5 (SFmt.ofCode (field r.sub 3 3))
    chk 5 (field r.sub 0 3 == 0)
    zeros [r.c, r.imm]
    return .fclass h (sr r.a) (sr r.b) f
  | 0x11 => do
    chk 5 (r.sub == 0); zeros [r.b, r.c]
    match IdReg.ofCode r.imm with
    | some x => return .idr h (sr r.a) x
    | none => .error 7
  | 0x12 => do
    chk 5 (r.sub == 0); zeros [r.b, r.c, r.imm / 2 ^ 12]
    match SysReg.ofCode r.imm with
    | some x => return .srr h (sr r.a) x
    | none => .error 7
  | 0x13 => do
    chk 5 (r.sub == 0); zeros [r.a, r.c, r.imm / 2 ^ 12]
    match SysReg.ofCode r.imm with
    | some x => return .srw h x (sr r.b)
    | none => .error 7
  | 0x14 => do
    chk 5 (r.sub == 0); zeros [r.a, r.b, r.c]
    return .br h r.off
  | 0x15 => do
    chk 5 (r.sub == 0); zeros [r.b, r.c]
    return .call h (sr r.a) r.off
  | 0x16 => do
    chk 5 (r.sub == 0); zeros [r.a, r.c, r.imm]
    return .ret h (sr r.b)
  | 0x17 => do
    chk 5 (r.sub == 0); zeros [r.c]
    return .jmpr h (sr r.a) (sr r.b) r.off
  | 0x18 => do
    chk 5 (r.sub == 0); zeros [r.a, r.c]
    chk 7 (0 < r.off.toInt)
    return .loop h (sr r.b) r.off
  | 0x19 => bare r .endl
  | 0x1A => trapCode r .brk
  | 0x1B => trapCode r .trap
  | 0x1C => trapCode r .syscall
  | 0x1D => bare r .eret
  | 0x1E => bare r .exit
  | 0x1F => bare r .detach
  | 0x20 => bare r .join
  | 0x21 => bare r .yield
  | _ => .error 4

/-- The 64-bit opcodes from 0x40 (R38). -/
def decodeMem (r : Raw) : Except Detail Instr :=
  let h := r.hd
  match r.op with
  | 0x40 => do
    let size ← code5 (Size.ofCode (field r.sub 0 2))
    chk 5 (r.sub / 8 == 0 && !(bitAt r.sub 2 && size == .d))
    zeros [r.c]
    return .ld h (sr r.a) (sr r.b) r.off size (bitAt r.sub 2)
  | 0x41 => do
    let size ← code5 (Size.ofCode r.sub)
    zeros [r.c]
    return .st h (sr r.a) (sr r.b) r.off size
  | 0x42 => do
    let m ← code5 (Flush.ofCode r.sub)
    zeros [r.a]
    return .rflush h (sr r.b) r.off (sr r.c) m
  | 0x43 => do
    chk 5 (r.sub == 0); zeros [r.a]
    return .rdrop h (sr r.b) r.off (sr r.c)
  | 0x44 => do
    chk 5 (r.sub < 8); isG r.a
    return .rpin h (gr r.a) (sr r.b) r.off (sr r.c) (bitAt r.sub 0) (.ofNat 2 (field r.sub 1 2))
  | 0x45 => do
    chk 5 (r.sub == 0); zeros [r.a]
    return .runpin h (sr r.b) r.off (sr r.c)
  | 0x46 => do
    chk 5 (r.sub < 8); zeros [r.a]
    return .pref h (sr r.b) r.off (sr r.c) (bitAt r.sub 0) (.ofNat 2 (field r.sub 1 2))
  | 0x47 => do
    let sc ← code5 (Scope.ofCode r.sub)
    zeros [r.a, r.b, r.c, r.imm]
    return .fence h sc
  | 0x48 => do
    let sc ← code5 (Scope.ofCode r.sub)
    zeros [r.a, r.c, r.imm]
    return .ifence h (sr r.b) sc
  | 0x49 => bare r .pfence
  | 0x4A => do
    let op ← code5 (AmoOp.ofCode (field r.sub 0 4))
    let sc ← code5 (Scope.ofCode (field r.imm 0 3))
    chk 5 (r.sub < 32 && (op != .fadd || bitAt r.sub 4))
    zeros [r.imm / 8]
    return .amo h (sr r.a) (sr r.b) (sr r.c) op (bitAt r.sub 4) sc
  | 0x4B => do
    chk 5 (r.sub == 0 || r.sub == 16)
    let sc ← code5 (Scope.ofCode (field r.imm 0 3))
    zeros [r.imm / 8]
    return .cas h (sr r.a) (sr r.b) (sr r.c) (bitAt r.sub 4) sc
  | 0x4C => do
    let sc ← code5 (Scope.ofCode (field r.sub 0 3))
    chk 5 (r.sub < 16)
    zeros [r.a, r.c, r.imm]
    return .acq h (sr r.b) (bitAt r.sub 3) sc
  | 0x4D => do
    let sc ← code5 (Scope.ofCode r.sub)
    zeros [r.a, r.c, r.imm]
    return .rel h (sr r.b) sc
  | 0x4E => do
    chk 5 (r.sub == 0); zeros [r.a, r.c, r.imm]
    return .bar h (sr r.b)
  | 0x4F => bare r .sstep
  | 0x50 => do
    chk 5 (r.sub == 0); zeros [r.a, r.imm / 16]
    return .msgsend h (sr r.b) (sr r.c) (.ofNat 4 r.imm)
  | 0x51 => do
    chk 5 (r.sub == 0); zeros [r.b, r.c, r.imm]
    return .msgwait h (sr r.a)
  | 0x52 => bare r .trig
  | 0x53 => bare r .waitdep
  | 0x54 => do
    chk 5 (r.sub == 0); zeros [r.a, r.c, r.imm / 8]
    return .xwait h (sr r.b) (.ofNat 3 r.imm)
  | 0x55 => do
    chk 5 (r.sub == 0); zeros [r.a, r.c, r.imm / 16]
    return .ccwait h (sr r.b) (.ofNat 4 r.imm)
  | 0x56 => do
    chk 5 (r.sub == 0); zeros [r.a, r.b, r.c, r.imm / 32]
    return .twait h (.ofNat 5 r.imm)
  | 0x57 => do
    chk 5 (r.sub == 0); zeros [r.a, r.b, r.c, r.imm / 32]
    return .trel h (.ofNat 5 r.imm)
  | 0x58 => do
    chk 5 (r.sub == 0); zeros [r.b, r.c, r.imm / 32]
    return .tstate h (sr r.a) (.ofNat 5 r.imm)
  | 0x59 => do
    let f ← code5 (HField.ofCode r.sub)
    zeros [r.c, r.imm]; isH r.b
    return .hget h (sr r.a) (hr r.b) f
  | 0x5A => do
    let f ← code5 (HField.ofCode r.sub)
    chk 5 (f != .fmt)
    zeros [r.c, r.imm]; isH r.a
    return .hset h (hr r.a) (sr r.b) f
  | 0x5B => do
    chk 5 (r.sub == 0); zeros [r.c, r.imm]; isH r.a; isH r.b
    return .hmov h (hr r.a) (hr r.b)
  | 0x5C => do
    chk 5 (r.sub == 0); zeros [r.c, r.imm]
    return .claim h (sr r.a) (sr r.b)
  | 0x5D => bare r .vrelease
  | 0x5E => do
    chk 5 (r.sub == 0); zeros [r.a, r.imm]
    return .cbwait h (sr r.b) (sr r.c)
  | 0x5F => do
    chk 5 (r.sub == 0); zeros [r.a, r.imm]
    return .cbrel h (sr r.b) (sr r.c)
  | _ => .error 4

/-- The 96-bit opcodes (R39). -/
def decode96 (r : Raw) : Except Detail Instr :=
  let h := r.hd
  let imm : BitVec 53 := .ofNat 53 r.imm
  match r.op with
  | 0x80 => do
    chk 5 (r.sub == 0); zeros [r.b, r.c]
    return .movw h (sr r.a) imm
  | 0x81 => do
    chk 5 (r.sub == 0); zeros [r.a, r.b, r.c]
    return .brl h imm
  | 0x82 => do
    chk 5 (r.sub == 0); zeros [r.b, r.c]
    return .calll h (sr r.a) imm
  | 0x83 => do
    let size ← code5 (Size.ofCode (field r.sub 0 2))
    chk 5 (r.sub / 8 == 0 && !(bitAt r.sub 2 && size == .d))
    return .ldx h (sr r.a) (sr r.b) (sr r.c) imm size (bitAt r.sub 2)
  | 0x84 => do
    chk 5 (r.sub == 0); zeros [r.c]; isH r.a
    return .hld h (hr r.a) (sr r.b) imm
  | 0x85 => do
    chk 5 (r.sub == 0); zeros [r.c]; isH r.a
    return .hst h (hr r.a) (sr r.b) imm
  | 0x86 => do
    chk 5 (r.sub < 4); zeros [r.imm / 2 ^ 16]; isH r.a; isH r.b
    return .hview h (hr r.a) (hr r.b) (sr r.c) (.ofNat 2 r.sub) (.ofNat 16 r.imm)
  | 0x87 => do
    chk 5 (r.sub < 8)
    let sc ← code5 (Scope.ofCode (field r.imm 2 3))
    let fl : EFlags := { acq := bitAt r.imm 0, rel := bitAt r.imm 1, scope := sc }
    zeros [r.imm / 2 ^ 24]; chk 6 fl.wf; isH r.c
    return .send h (sr r.a) (sr r.b) (hr r.c) (.ofNat 3 r.sub) fl (.ofNat 19 (field r.imm 5 19))
  | 0x88 => do
    chk 5 (r.sub == 0); zeros [r.a, r.imm / 256]
    return .cbinit h (sr r.b) (sr r.c) (.ofNat 8 r.imm)
  | 0x89 => do
    chk 5 (r.sub == 0); zeros [r.c, r.imm]
    return .cbacq h (sr r.a) (sr r.b)
  | 0x8A => do
    chk 5 (r.sub == 0); zeros [r.a, r.c, r.imm]
    return .cbcommit h (sr r.b)
  | 0x8B => do
    chk 5 (r.sub == 0 && progAssigned r.imm); zeros [r.a, r.b, r.c]; chk 6 (progZeros r.imm)
    return .mprog h imm
  | 0x8C => do
    chk 5 (r.sub == 0); zeros [r.a, r.imm]
    return .rset h (sr r.b) (sr r.c)
  | 0x8D => do
    chk 5 (r.sub == 0)
    return .pdecl h (sr r.a) (sr r.b) (sr r.c) imm
  | 0x8E => do
    chk 5 (r.sub == 0); zeros [r.a, r.c, r.imm]
    return .pwait h (sr r.b)
  | 0x8F => do
    chk 5 (r.sub == 0); zeros [r.c, r.imm]
    return .pstate h (sr r.a) (sr r.b)
  | 0x90 => do
    chk 5 (r.sub == 0); zeros [r.b, r.c, r.imm / 8]
    return .xstat h (sr r.a) (.ofNat 3 r.imm)
  | 0x91 => do
    chk 5 (r.sub == 0); zeros [r.b, r.c, r.imm / 16]
    return .ccrd h (sr r.a) (.ofNat 4 r.imm)
  | _ => .error 4

/-- Two handle operands in O1 and O2. -/
def RawX.two (r : RawX) : List (Nat × Nat) := [(0, r.o1), (1, r.o2)]

/-- Three handle operands in O1 to O3. -/
def RawX.three (r : RawX) : List (Nat × Nat) := [(0, r.o1), (1, r.o2), (2, r.o3)]

/-- Four handle operands in O1 to O4. -/
def RawX.four (r : RawX) : List (Nat × Nat) := [(0, r.o1), (1, r.o2), (2, r.o3), (3, r.o4)]

/-- The 128-bit opcodes of the vector lanes, 0xC0 to 0xCF and 0xE2 (R40). -/
def decodeVec (r : RawX) : Except Detail Instr :=
  let h := r.hx
  match r.op with
  | 0xC0 => do
    let op ← code5 (VOp.ofCode (field r.sub 0 4))
    let ef ← code5 (EF.ofCode (field r.sub 4 4))
    chk 5 (op.efOk ef)
    let rm ← code5 (if ef.isInt then some .dyn else RM.ofCode (field r.aux 0 3))
    r.common false [if ef.isInt then r.aux else r.aux / 8, r.o5, if op.unary then r.o3 else 0]
      (if op.unary then r.two else r.three)
    return .varith h (hr r.o1) (hr r.o2) (hr r.o3) (sr r.o4) op ef rm
  | 0xC1 => do
    let k ← code5 (Fma.ofCode (field r.sub 0 4))
    let ef ← code5 (SFmt.ofCode (field r.sub 4 4))
    let rm ← code5 (RM.ofCode (field r.aux 0 3))
    r.common false [r.aux / 8] r.four
    return .vfma h (hr r.o1) (hr r.o2) (hr r.o3) (hr r.o4) (sr r.o5) k ef rm
  | 0xC2 => do
    let ef ← code5 (EF.ofCode (field r.sub 4 4))
    chk 5 (vcmpOk (field r.sub 0 4) ef)
    r.common false [if ef.isFloat then r.aux / 2 else r.aux, r.o5] r.three
    return .vcmp h (hr r.o1) (hr r.o2) (hr r.o3) (sr r.o4) (.ofNat 4 (field r.sub 0 4)) ef (bitAt r.aux 0)
  | 0xC3 => do
    let ef ← code5 (EF.ofCode (field r.sub 4 4))
    chk 5 (field r.sub 0 4 == 0)
    r.common false [r.aux] r.four
    return .vsel h (hr r.o1) (hr r.o2) (hr r.o3) (hr r.o4) (sr r.o5) ef
  | 0xC4 => do
    let op ← code5 (LogicOp.ofCode (field r.sub 0 4))
    let ef ← code5 (EF.ofCode (field r.sub 4 4))
    chk 5 ef.isInt
    r.common false [r.aux, r.o5, if op == .not then r.o3 else 0] (if op == .not then r.two else r.three)
    return .vlogic h (hr r.o1) (hr r.o2) (hr r.o3) (sr r.o4) op ef
  | 0xC5 => do
    let op ← code5 (ShiftOp.ofCode (field r.sub 0 2))
    let ef ← code5 (EF.ofCode (field r.sub 4 4))
    chk 5 (ef.isInt && !bitAt r.sub 3)
    let imm := bitAt r.sub 2
    r.common false [if imm then r.aux / 64 else r.aux, r.o5, if imm then r.o3 else 0] (if imm then r.two else r.three)
    return .vshift h (hr r.o1) (hr r.o2) (hr r.o3) (sr r.o4) op ef (if imm then some (.ofNat 6 r.aux) else none)
  | 0xC6 => do
    chk 5 (cvtTags.contains r.sub)
    let rm ← code5 (RM.ofCode (field r.aux 0 3))
    r.common false [r.aux / 8, r.o4, r.o5] r.two
    return .vcvt h (hr r.o1) (hr r.o2) (sr r.o3) (.ofNat 8 r.sub) rm
  | 0xC7 => do
    chk 5 (r.sub == 0x11 || r.sub == 0x12)
    r.common false [r.aux, r.o4, r.o5] r.two
    return .vreq h (hr r.o1) (hr r.o2) (sr r.o3) (r.sub == 0x12)
  | 0xC8 => do
    let fn ← code5 (SfuFn.ofCode r.sub)
    let ef ← code5 (SFmt.ofCode (field r.aux 0 4))
    r.common false [r.aux / 16, r.o4, r.o5] r.two
    return .vsfu h (hr r.o1) (hr r.o2) (sr r.o3) fn ef
  | 0xC9 => do
    let op ← code5 (RedOp.ofCode (field r.sub 0 4))
    let ef ← code5 (EF.ofCode (field r.sub 4 4))
    chk 5 (op.efOk ef)
    let rm ← code5 (RM.ofCode (field r.aux 0 3))
    r.common false [r.aux / 8, r.o4, r.o5] r.two
    return .vred h (hr r.o1) (hr r.o2) (sr r.o3) op ef rm
  | 0xCA => do
    let op ← code5 (ScanOp.ofCode (field r.sub 0 4))
    let ef ← code5 (EF.ofCode (field r.sub 4 4))
    let rm ← code5 (RM.ofCode (field r.aux 1 3))
    r.common false [r.aux / 16, r.o4, r.o5] r.two
    return .vscan h (hr r.o1) (hr r.o2) (sr r.o3) op ef (bitAt r.aux 0) rm
  | 0xCB => do
    let ef ← code5 (EF.ofCode (field r.sub 4 4))
    chk 5 (field r.sub 1 3 == 0)
    r.common false [r.aux, r.o5] r.three
    return .vperm h (hr r.o1) (hr r.o2) (hr r.o3) (sr r.o4) (bitAt r.sub 0) ef
  | 0xCC => do
    let ef ← code5 (EF.ofCode (field r.sub 4 4))
    chk 5 (field r.sub 0 4 == 0)
    r.common false [r.aux, r.o4, r.o5] r.two
    return .vbcast h (hr r.o1) (hr r.o2) (sr r.o3) ef
  | 0xCD => do
    chk 5 (r.sub == 0)
    r.common false [r.aux, r.o4, r.o5] r.two
    return .vmov h (hr r.o1) (hr r.o2) (sr r.o3)
  | 0xCE => do
    let size ← code5 (Size.ofCode r.sub)
    r.common false [r.aux, r.o4, r.o5] [(0, r.o1)]
    return .vfill h (hr r.o1) (sr r.o2) (sr r.o3) size
  | 0xCF => do
    let ef ← code5 (SFmt.ofCode (field r.sub 4 4))
    chk 5 (field r.sub 0 4 == 0)
    r.common false [r.aux, r.o4, r.o5] r.two
    return .vclass h (hr r.o1) (hr r.o2) (sr r.o3) ef
  | 0xE2 => do
    chk 5 (r.sub == 0)
    r.common false [r.aux, r.o5] r.two
    return .vmix h (hr r.o1) (hr r.o2) (sr r.o3) (sr r.o4)
  | _ => .error 4

/-- The other 128-bit opcodes: the plane engine, the etcher, residues, exchange, placement and copies (R40). -/
def decodeEng (r : RawX) : Except Detail Instr :=
  let h := r.hx
  match r.op with
  | 0xD0 => do
    chk 5 (r.sub == 0)
    r.common false [r.aux, r.o2, r.o3, r.o4, r.o5] []
    return .mgang h (sr r.o1)
  | 0xD1 => do
    let mode ← code5 (MmaMode.ofCode (field r.sub 0 3))
    chk 5 (r.sub < 32 && (!bitAt r.sub 4 || mode == .pp))
    r.common false [if mode == .pp then 0 else r.aux, r.o4, r.o5] r.two
    return .mma h (hr r.o1) (hr r.o2) (sr r.o3) mode (bitAt r.sub 3) (bitAt r.sub 4) (.ofNat 4 (field r.aux 0 4))
      (.ofNat 4 (field r.aux 4 4))
  | 0xD2 => do
    let ef ← code5 (EF.ofCode r.sub)
    chk 5 (ef != .mk8)
    r.common false [r.aux, r.o4, r.o5] r.two
    return .mrec h (hr r.o1) (hr r.o2) (sr r.o3) ef
  | 0xD3 => do
    chk 5 (r.sub == 0)
    r.common false [r.aux, r.o3, r.o4, r.o5] r.two
    return .mhatch h (hr r.o1) (hr r.o2)
  | 0xD4 => do
    chk 5 (r.sub == 0)
    r.common false [r.aux, r.o3, r.o4, r.o5] r.two
    return .munhatch h (hr r.o1) (hr r.o2)
  | 0xD5 => do
    let fl ← EFlags.ofByte r.sub
    r.common false [r.aux, r.o3, r.o4, r.o5] [(0, r.o1)]
    return .epi h (hr r.o1) (sr r.o2) fl
  | 0xD6 => do
    chk 5 (r.sub < 4)
    r.common false [r.aux, r.o2, r.o3, r.o4, r.o5] [(0, r.o1)]
    return .rstat h (hr r.o1) (.ofNat 2 r.sub)
  | 0xD7 => do
    chk 5 (r.sub == 0)
    r.common false [r.aux, r.o1, r.o2, r.o3, r.o4, r.o5] []
    return .mwait h
  | 0xD8 => do
    chk 5 (r.sub == 0)
    r.common false [r.aux, r.o1, r.o2, r.o3, r.o4, r.o5] []
    return .mabort h
  | 0xD9 => do
    chk 5 (r.sub == 0)
    r.common false [r.aux, r.o4, r.o5] r.two
    return .rfwd h (hr r.o1) (hr r.o2) (sr r.o3)
  | 0xDA => do
    chk 5 (r.sub == 0)
    r.common false [r.aux / 16, r.o4, r.o5] r.two
    return .rrev h (hr r.o1) (hr r.o2) (sr r.o3) (gr r.aux)
  | 0xDB => do
    chk 5 (r.sub == 0)
    r.common false [r.aux / 16, r.o3, r.o4, r.o5] [(0, r.o1)]
    return .rchk h (hr r.o1) (sr r.o2) (gr r.aux)
  | 0xDC => do
    let fl ← EFlags.ofByte r.sub
    r.common true [r.aux / 16, r.o5] [(0, r.o1), (2, r.o3)]
    return .put h (hr r.o1) (sr r.o2) (hr r.o3) (sr r.o4) fl (.ofNat 4 r.aux)
  | 0xDD => do
    let fl ← EFlags.ofByte r.sub
    r.common true [r.aux / 16, r.o5] [(0, r.o1), (2, r.o3)]
    return .get h (hr r.o1) (sr r.o2) (hr r.o3) (sr r.o4) fl (.ofNat 4 r.aux)
  | 0xDE => do
    let fl ← EFlags.ofByte r.sub
    r.common true [r.aux, r.o4, r.o5] [(0, r.o1)]
    return .pld h (hr r.o1) (sr r.o2) (sr r.o3) fl
  | 0xDF => do
    let fl ← EFlags.ofByte r.sub
    r.common false [r.aux, r.o3, r.o4, r.o5] []
    return .pconv h (sr r.o1) (sr r.o2) fl
  | 0xE0 => do
    let fl ← EFlags.ofByte r.sub
    r.common true [r.o3, r.o4, r.o5] r.two
    return .tfill h (hr r.o1) (hr r.o2) fl (.ofNat 5 (field r.aux 0 5)) (.ofNat 3 (field r.aux 5 3))
  | 0xE1 => do
    let fl ← EFlags.ofByte r.sub
    r.common true [r.o3, r.o4, r.o5] r.two
    return .tdrain h (hr r.o1) (hr r.o2) fl (.ofNat 5 (field r.aux 0 5)) (.ofNat 3 (field r.aux 5 3))
  | _ => .error 4

/-- Length in bytes that LEN selects (R17); 0 for the illegal code. -/
def lenBytes (w : Nat) : Nat :=
  match w % 4 with
  | 1 => 8
  | 2 => 12
  | 3 => 16
  | _ => 0

/-- Decode the instruction whose bits are `w` (bits beyond its length are not looked at): the instruction and its length
in bytes, or the detail code of R29 (details 2 to 8; detail 1 belongs to the fetch). -/
def decodeWord (w : Nat) : Except Detail (Instr × Nat) :=
  match w % 4 with
  | 1 => do
    let r := Raw.ofWord 21 w
    chk 3 (r.op < 0x80)
    let i ← if r.op < 0x40 then decodeLow r else decodeMem r
    return (i, 8)
  | 2 => do
    let r := Raw.ofWord 53 w
    chk 3 (0x80 ≤ r.op && r.op < 0xC0)
    let i ← decode96 r
    return (i, 12)
  | 3 => do
    let r := RawX.ofWord w
    chk 3 (0xC0 ≤ r.op)
    let i ← if r.op < 0xD0 || r.op == 0xE2 then decodeVec r else decodeEng r
    return (i, 16)
  | _ => .error 2

/-- Decode the instruction at the front of a list of bytes: it, and the bytes after it; too few bytes are rejected as an
instruction that does not lie inside its window (detail 1, R18). -/
def decode (bs : List Byte) : Except Detail (Instr × List Byte) := do
  let (i, n) ← decodeWord (ofBytesLE (bs.take 16))
  chk 1 (n ≤ bs.length)
  return (i, bs.drop n)

/-- The instruction the decoder reads from the table word `w` of `nbits` bits; every bit above them is zero. -/
def decodeTableWord (nbits w : Nat) : Option Instr :=
  match decode (bytesLE 16 (w % 2 ^ nbits)) with
  | .ok (i, _) => some i
  | .error _ => none

/-! ## The encoder (R17 to R40) -/

/-- The word of a 64-bit instruction from its header, OP, SUB, A, B, C and IMM21, with its length in bytes. -/
def Hd.enc64 (h : Hd) (op sub a b c imm : Nat) : Option (Nat × Nat) :=
  some ((Raw.toWord 1 21 { op := op, dly := h.dly.toNat, g := h.g.toNat, gn := bit h.gn, a := a, b := b, c := c, sub := sub, imm := imm }), 8)

/-- The word of a 96-bit instruction from its header, OP, SUB, A, B, C and IMM53, with its length in bytes. -/
def Hd.enc96 (h : Hd) (op sub a b c imm : Nat) : Option (Nat × Nat) :=
  some ((Raw.toWord 2 53 { op := op, dly := h.dly.toNat, g := h.g.toNat, gn := bit h.gn, a := a, b := b, c := c, sub := sub, imm := imm }), 12)

/-- The word of a 128-bit instruction from its header, OP, SUB8, O1 to O5 and AUX8, with its length in bytes. -/
def Hx.enc (h : Hx) (op sub o1 o2 o3 o4 o5 aux : Nat) : Option (Nat × Nat) :=
  some (RawX.toWord
    { op := op, dly := h.dly.toNat, ga := h.ga.toNat, gb := h.gb.toNat, gop := h.gop.toNat, yld := bit h.yld, hint := h.hint.toNat,
      o1 := o1, o2 := o2, o3 := o3, o4 := o4, o5 := o5, sub := sub, pinc := h.pinc.toNat, inc1 := h.inc1.toNat,
      inc2 := h.inc2.toNat, inc3 := h.inc3.toNat, aux := aux }, 16)

/-- The register form of OP 0x01 and 0x03. -/
def Hd.enc3 (h : Hd) (op sub : Nat) (a b c : SReg) : Option (Nat × Nat) := h.enc64 op sub a.toNat b.toNat c.toNat 0

/-- The immediate form of OP 0x02. -/
def Hd.encImm (h : Hd) (sub : Nat) (a b : SReg) (imm : Nat) : Option (Nat × Nat) := h.enc64 2 sub a.toNat b.toNat 0 imm

/-- A `GLOG` operation (R62). -/
def GlogOp.enc (h : Hd) : GlogOp → Option (Nat × Nat)
  | .and d a b => h.enc64 0x0A 0 d.toNat a.toNat b.toNat 0
  | .or d a b => h.enc64 0x0A 1 d.toNat a.toNat b.toNat 0
  | .xor d a b => h.enc64 0x0A 2 d.toNat a.toNat b.toNat 0
  | .andn d a b => h.enc64 0x0A 3 d.toNat a.toNat b.toNat 0
  | .not d a => h.enc64 0x0A 4 d.toNat a.toNat 0 0
  | .mov d a => h.enc64 0x0A 5 d.toNat a.toNat 0 0
  | .set d => h.enc64 0x0A 6 d.toNat 0 0 0
  | .clr d => h.enc64 0x0A 7 d.toNat 0 0 0
  | .gtos d => h.enc64 0x0A 8 d.toNat 0 0 0
  | .stog a => h.enc64 0x0A 9 0 a.toNat 0 0

/-- The word of an instruction and its length in bytes; none for a step that is no instruction word. -/
def encodeWord : Instr → Option (Nat × Nat)
  | .nop dly => Hd.enc64 { dly := dly, g := 0, gn := false } 0 0 0 0 0 0
  | .add h a b c => h.enc3 1 0 a b c
  | .sub h a b c => h.enc3 1 1 a b c
  | .and h a b c => h.enc3 1 2 a b c
  | .or h a b c => h.enc3 1 3 a b c
  | .xor h a b c => h.enc3 1 4 a b c
  | .andn h a b c => h.enc3 1 5 a b c
  | .shl h a b c => h.enc3 1 6 a b c
  | .shr h a b c => h.enc3 1 7 a b c
  | .sar h a b c => h.enc3 1 8 a b c
  | .rot h a b c => h.enc3 1 9 a b c
  | .min h a b c => h.enc3 1 10 a b c
  | .max h a b c => h.enc3 1 11 a b c
  | .minu h a b c => h.enc3 1 12 a b c
  | .maxu h a b c => h.enc3 1 13 a b c
  | .addImm h a b imm => h.encImm 0 a b imm.toNat
  | .subImm h a b imm => h.encImm 1 a b imm.toNat
  | .andImm h a b imm => h.encImm 2 a b imm.toNat
  | .orImm h a b imm => h.encImm 3 a b imm.toNat
  | .xorImm h a b imm => h.encImm 4 a b imm.toNat
  | .andnImm h a b imm => h.encImm 5 a b imm.toNat
  | .shlImm h a b n => h.encImm 6 a b n.toNat
  | .shrImm h a b n => h.encImm 7 a b n.toNat
  | .sarImm h a b n => h.encImm 8 a b n.toNat
  | .rotImm h a b n => h.encImm 9 a b n.toNat
  | .minImm h a b imm => h.encImm 10 a b imm.toNat
  | .maxImm h a b imm => h.encImm 11 a b imm.toNat
  | .minuImm h a b imm => h.encImm 12 a b imm.toNat
  | .maxuImm h a b imm => h.encImm 13 a b imm.toNat
  | .mul h a b c => h.enc3 3 0 a b c
  | .mulh h a b c => h.enc3 3 1 a b c
  | .mulhu h a b c => h.enc3 3 2 a b c
  | .div h a b c => h.enc3 3 3 a b c
  | .divu h a b c => h.enc3 3 4 a b c
  | .rem h a b c => h.enc3 3 5 a b c
  | .remu h a b c => h.enc3 3 6 a b c
  | .clz h a b => h.enc3 4 0 a b 0
  | .ctz h a b => h.enc3 4 1 a b 0
  | .popc h a b => h.enc3 4 2 a b 0
  | .brev h a b => h.enc3 4 3 a b 0
  | .bswap h a b => h.enc3 4 4 a b 0
  | .mix h a b c => h.enc3 4 5 a b c
  | .bfx h a b sx lsb w => h.enc64 5 (bit sx) a.toNat b.toNat 0 (lsb.toNat + 64 * w.toNat)
  | .bfi h a b lsb w => h.enc64 6 0 a.toNat b.toNat 0 (lsb.toNat + 64 * w.toNat)
  | .cmp h gd b c cond w => h.enc64 7 (cond.code + 16 * w.code) gd.toNat b.toNat c.toNat 0
  | .cmpi h gd b imm cond w => h.enc64 8 (cond.code + 16 * w.code) gd.toNat b.toNat 0 imm.toNat
  | .sel h a b c gs inv => h.enc64 9 0 a.toNat b.toNat c.toNat (gs.toNat + 16 * bit inv)
  | .glog h op => op.enc h
  | .movi h a imm => h.enc64 0x0B 0 a.toNat 0 0 imm.toNat
  | .movw h a imm => h.enc96 0x80 0 a.toNat 0 0 imm.toNat
  | .fadd h a b c f rm => h.enc64 0x0C (8 * f.code) a.toNat b.toNat c.toNat rm.code
  | .fsub h a b c f rm => h.enc64 0x0C (1 + 8 * f.code) a.toNat b.toNat c.toNat rm.code
  | .fmul h a b c f rm => h.enc64 0x0C (2 + 8 * f.code) a.toNat b.toNat c.toNat rm.code
  | .fdiv h a b c f rm => h.enc64 0x0C (3 + 8 * f.code) a.toNat b.toNat c.toNat rm.code
  | .fsqrt h a b f rm => h.enc64 0x0C (4 + 8 * f.code) a.toNat b.toNat 0 rm.code
  | .fmin h a b c f rm => h.enc64 0x0C (5 + 8 * f.code) a.toNat b.toNat c.toNat rm.code
  | .fmax h a b c f rm => h.enc64 0x0C (6 + 8 * f.code) a.toNat b.toNat c.toNat rm.code
  | .ffma h a b c k f rm => h.enc64 0x0D (k.code + 8 * f.code) a.toNat b.toNat c.toNat rm.code
  | .fcmp h gd b c cond f sig => h.enc64 0x0E (cond.code + 8 * f.code) gd.toNat b.toNat c.toNat (bit sig)
  | .fcvt h a b dst src rm => h.enc64 0x0F (dst.code + 8 * src.code) a.toNat b.toNat 0 rm.code
  | .fclass h a b f => h.enc64 0x10 (8 * f.code) a.toNat b.toNat 0 0
  | .idr h a r => h.enc64 0x11 0 a.toNat 0 0 r.code
  | .srr h a r => h.enc64 0x12 0 a.toNat 0 0 r.code
  | .srw h r b => h.enc64 0x13 0 0 b.toNat 0 r.code
  | .br h imm => h.enc64 0x14 0 0 0 0 imm.toNat
  | .brl h imm => h.enc96 0x81 0 0 0 0 imm.toNat
  | .call h a imm => h.enc64 0x15 0 a.toNat 0 0 imm.toNat
  | .calll h a imm => h.enc96 0x82 0 a.toNat 0 0 imm.toNat
  | .ret h b => h.enc64 0x16 0 0 b.toNat 0 0
  | .jmpr h a b imm => h.enc64 0x17 0 a.toNat b.toNat 0 imm.toNat
  | .loop h b imm => h.enc64 0x18 0 0 b.toNat 0 imm.toNat
  | .endl h => h.enc64 0x19 0 0 0 0 0
  | .brk h code => h.enc64 0x1A 0 0 0 0 code.toNat
  | .trap h code => h.enc64 0x1B 0 0 0 0 code.toNat
  | .syscall h code => h.enc64 0x1C 0 0 0 0 code.toNat
  | .eret h => h.enc64 0x1D 0 0 0 0 0
  | .exit h => h.enc64 0x1E 0 0 0 0 0
  | .detach h => h.enc64 0x1F 0 0 0 0 0
  | .join h => h.enc64 0x20 0 0 0 0 0
  | .yield h => h.enc64 0x21 0 0 0 0 0
  | .ld h a b imm size sx => h.enc64 0x40 (size.code + 4 * bit sx) a.toNat b.toNat 0 imm.toNat
  | .ldx h a b c imm size sx => h.enc96 0x83 (size.code + 4 * bit sx) a.toNat b.toNat c.toNat imm.toNat
  | .st h a b imm size => h.enc64 0x41 size.code a.toNat b.toNat 0 imm.toNat
  | .rflush h b imm c m => h.enc64 0x42 m.code 0 b.toNat c.toNat imm.toNat
  | .rdrop h b imm c => h.enc64 0x43 0 0 b.toNat c.toNat imm.toNat
  | .rpin h gd b imm c x cls => h.enc64 0x44 (bit x + 2 * cls.toNat) gd.toNat b.toNat c.toNat imm.toNat
  | .runpin h b imm c => h.enc64 0x45 0 0 b.toNat c.toNat imm.toNat
  | .pref h b imm c x cls => h.enc64 0x46 (bit x + 2 * cls.toNat) 0 b.toNat c.toNat imm.toNat
  | .fence h scope => h.enc64 0x47 scope.code 0 0 0 0
  | .ifence h b scope => h.enc64 0x48 scope.code 0 b.toNat 0 0
  | .pfence h => h.enc64 0x49 0 0 0 0 0
  | .amo h a b c op dbl scope => h.enc64 0x4A (op.code + 16 * bit dbl) a.toNat b.toNat c.toNat scope.code
  | .cas h a b c dbl scope => h.enc64 0x4B (16 * bit dbl) a.toNat b.toNat c.toNat scope.code
  | .acq h b x scope => h.enc64 0x4C (scope.code + 8 * bit x) 0 b.toNat 0 0
  | .rel h b scope => h.enc64 0x4D scope.code 0 b.toNat 0 0
  | .bar h b => h.enc64 0x4E 0 0 b.toNat 0 0
  | .sstep h => h.enc64 0x4F 0 0 0 0 0
  | .msgsend h b c cc => h.enc64 0x50 0 0 b.toNat c.toNat cc.toNat
  | .msgwait h a => h.enc64 0x51 0 a.toNat 0 0 0
  | .trig h => h.enc64 0x52 0 0 0 0 0
  | .waitdep h => h.enc64 0x53 0 0 0 0 0
  | .xwait h b ch => h.enc64 0x54 0 0 b.toNat 0 ch.toNat
  | .ccwait h b cc => h.enc64 0x55 0 0 b.toNat 0 cc.toNat
  | .twait h t => h.enc64 0x56 0 0 0 0 t.toNat
  | .trel h t => h.enc64 0x57 0 0 0 0 t.toNat
  | .tstate h a t => h.enc64 0x58 0 a.toNat 0 0 t.toNat
  | .hget h a b f => h.enc64 0x59 f.code a.toNat b.toNat 0 0
  | .hset h a b f => h.enc64 0x5A f.code a.toNat b.toNat 0 0
  | .hmov h a b => h.enc64 0x5B 0 a.toNat b.toNat 0 0
  | .claim h a b => h.enc64 0x5C 0 a.toNat b.toNat 0 0
  | .vrelease h => h.enc64 0x5D 0 0 0 0 0
  | .cbwait h b c => h.enc64 0x5E 0 0 b.toNat c.toNat 0
  | .cbrel h b c => h.enc64 0x5F 0 0 b.toNat c.toNat 0
  | .hld h a b imm => h.enc96 0x84 0 a.toNat b.toNat 0 imm.toNat
  | .hst h a b imm => h.enc96 0x85 0 a.toNat b.toNat 0 imm.toNat
  | .hview h a b c dim ext => h.enc96 0x86 dim.toNat a.toNat b.toNat c.toNat ext.toNat
  | .send h a b c ch fl dst => h.enc96 0x87 ch.toNat a.toNat b.toNat c.toNat (fl.byte + 32 * dst.toNat)
  | .cbinit h b c count => h.enc96 0x88 0 0 b.toNat c.toNat count.toNat
  | .cbacq h a b => h.enc96 0x89 0 a.toNat b.toNat 0 0
  | .cbcommit h b => h.enc96 0x8A 0 0 b.toNat 0 0
  | .mprog h prog => h.enc96 0x8B 0 0 0 0 prog.toNat
  | .rset h b c => h.enc96 0x8C 0 0 b.toNat c.toNat 0
  | .pdecl h a b c state => h.enc96 0x8D 0 a.toNat b.toNat c.toNat state.toNat
  | .pwait h b => h.enc96 0x8E 0 0 b.toNat 0 0
  | .pstate h a b => h.enc96 0x8F 0 a.toNat b.toNat 0 0
  | .xstat h a ch => h.enc96 0x90 0 a.toNat 0 0 ch.toNat
  | .ccrd h a cc => h.enc96 0x91 0 a.toNat 0 0 cc.toNat
  | .varith h o1 o2 o3 o4 op ef rm => h.enc 0xC0 (op.code + 16 * ef.code) o1.toNat o2.toNat o3.toNat o4.toNat 0 rm.code
  | .vfma h o1 o2 o3 o4 o5 k ef rm => h.enc 0xC1 (k.code + 16 * ef.code) o1.toNat o2.toNat o3.toNat o4.toNat o5.toNat rm.code
  | .vcmp h o1 o2 o3 o4 cond ef sig => h.enc 0xC2 (cond.toNat + 16 * ef.code) o1.toNat o2.toNat o3.toNat o4.toNat 0 (bit sig)
  | .vsel h o1 o2 o3 o4 o5 ef => h.enc 0xC3 (16 * ef.code) o1.toNat o2.toNat o3.toNat o4.toNat o5.toNat 0
  | .vlogic h o1 o2 o3 o4 op ef => h.enc 0xC4 (op.code + 16 * ef.code) o1.toNat o2.toNat o3.toNat o4.toNat 0 0
  | .vshift h o1 o2 o3 o4 op ef none => h.enc 0xC5 (op.code + 16 * ef.code) o1.toNat o2.toNat o3.toNat o4.toNat 0 0
  | .vshift h o1 o2 o3 o4 op ef (some n) => h.enc 0xC5 (op.code + 4 + 16 * ef.code) o1.toNat o2.toNat o3.toNat o4.toNat 0 n.toNat
  | .vcvt h o1 o2 o3 tag rm => h.enc 0xC6 tag.toNat o1.toNat o2.toNat o3.toNat 0 0 rm.code
  | .vreq h o1 o2 o3 bsf4 => h.enc 0xC7 (0x11 + bit bsf4) o1.toNat o2.toNat o3.toNat 0 0 0
  | .vsfu h o1 o2 o3 fn ef => h.enc 0xC8 fn.code o1.toNat o2.toNat o3.toNat 0 0 ef.code
  | .vred h o1 o2 o3 op ef rm => h.enc 0xC9 (op.code + 16 * ef.code) o1.toNat o2.toNat o3.toNat 0 0 rm.code
  | .vscan h o1 o2 o3 op ef ex rm => h.enc 0xCA (op.code + 16 * ef.code) o1.toNat o2.toNat o3.toNat 0 0 (bit ex + 2 * rm.code)
  | .vperm h o1 o2 o3 o4 scat ef => h.enc 0xCB (bit scat + 16 * ef.code) o1.toNat o2.toNat o3.toNat o4.toNat 0 0
  | .vbcast h o1 o2 o3 ef => h.enc 0xCC (16 * ef.code) o1.toNat o2.toNat o3.toNat 0 0 0
  | .vmov h o1 o2 o3 => h.enc 0xCD 0 o1.toNat o2.toNat o3.toNat 0 0 0
  | .vfill h o1 o2 o3 size => h.enc 0xCE size.code o1.toNat o2.toNat o3.toNat 0 0 0
  | .vclass h o1 o2 o3 ef => h.enc 0xCF (16 * ef.code) o1.toNat o2.toNat o3.toNat 0 0 0
  | .vmix h o1 o2 o3 o4 => h.enc 0xE2 0 o1.toNat o2.toNat o3.toNat o4.toNat 0 0
  | .mgang h o1 => h.enc 0xD0 0 o1.toNat 0 0 0 0 0
  | .mma h o1 o2 o3 mode acc sp pa pb =>
    h.enc 0xD1 (mode.code + 8 * bit acc + 16 * bit sp) o1.toNat o2.toNat o3.toNat 0 0 (pa.toNat + 16 * pb.toNat)
  | .mrec h o1 o2 o3 ef => h.enc 0xD2 ef.code o1.toNat o2.toNat o3.toNat 0 0 0
  | .mhatch h o1 o2 => h.enc 0xD3 0 o1.toNat o2.toNat 0 0 0 0
  | .munhatch h o1 o2 => h.enc 0xD4 0 o1.toNat o2.toNat 0 0 0 0
  | .epi h o1 o2 fl => h.enc 0xD5 fl.byte o1.toNat o2.toNat 0 0 0 0
  | .rstat h o1 slot => h.enc 0xD6 slot.toNat o1.toNat 0 0 0 0 0
  | .mwait h => h.enc 0xD7 0 0 0 0 0 0 0
  | .mabort h => h.enc 0xD8 0 0 0 0 0 0 0
  | .rfwd h o1 o2 o3 => h.enc 0xD9 0 o1.toNat o2.toNat o3.toNat 0 0 0
  | .rrev h o1 o2 o3 gd => h.enc 0xDA 0 o1.toNat o2.toNat o3.toNat 0 0 gd.toNat
  | .rchk h o1 o2 gd => h.enc 0xDB 0 o1.toNat o2.toNat 0 0 0 gd.toNat
  | .put h o1 o2 o3 o4 fl cc => h.enc 0xDC fl.byte o1.toNat o2.toNat o3.toNat o4.toNat 0 cc.toNat
  | .get h o1 o2 o3 o4 fl cc => h.enc 0xDD fl.byte o1.toNat o2.toNat o3.toNat o4.toNat 0 cc.toNat
  | .pld h o1 o2 o3 fl => h.enc 0xDE fl.byte o1.toNat o2.toNat o3.toNat 0 0 0
  | .pconv h o1 o2 fl => h.enc 0xDF fl.byte o1.toNat o2.toNat 0 0 0 0
  | .tfill h o1 o2 fl t ch => h.enc 0xE0 fl.byte o1.toNat o2.toNat 0 0 0 (t.toNat + 32 * ch.toNat)
  | .tdrain h o1 o2 fl t ch => h.enc 0xE1 fl.byte o1.toNat o2.toNat 0 0 0 (t.toNat + 32 * ch.toNat)
  | .pendingWriteLand _ => none
  | .l1Fill _ _ => none
  | .ownershipGrant _ _ => none
  | .invalidate _ _ _ => none
  | .downgrade _ _ _ => none
  | .walkComplete _ _ => none
  | .hotRowHalve _ => none
  | .mmaStart _ => none
  | .mmaComplete _ => none
  | .mrecComplete _ => none
  | .mhatchComplete _ => none
  | .rstatComplete _ => none
  | .epiComplete _ => none
  | .sfuRequestStart _ => none
  | .sfuDeliver _ => none
  | .tfillComplete _ _ => none
  | .tdrainComplete _ _ => none
  | .sendLand _ _ => none
  | .packetLand _ _ => none
  | .getRequestServe _ _ => none
  | .getReplyLand _ _ => none
  | .subroundOpen _ => none
  | .subroundClose _ => none
  | .messageArrive _ _ => none
  | .phaseClose _ _ => none
  | .acqGrant _ => none
  | .slotReturn _ _ => none
  | .homeAtomic _ => none
  | .sstepComplete _ => none
  | .occupancyReport _ _ _ _ _ => none
  | .placementCutClose _ => none
  | .conversionPartWritten _ => none
  | .conversionComplete _ => none
  | .fabricCutClose _ _ => none
  | .rollback _ _ => none
  | .linkMessageReceive _ _ _ => none
  | .switchRequestArrival _ => none
  | .replySplit _ => none
  | .cxlSnoop _ => none
  | .hostWrite _ _ => none
  | .engineFaultDelivery _ => none
  | .waitThreshold _ => none
  | .swapDeadline _ => none
  | .teamReturn _ => none
  | .preemptDeadline _ => none
  | .launchRecordAccept _ => none
  | .launchStart _ => none
  | .completionRecordWrite _ => none
  | .queueDoorbell _ _ => none
  | .queueCheadWrite _ _ => none
  | .queueEnable _ => none
  | .queueDisable _ => none
  | .devidxWrite _ => none
  | .eheadWrite _ => none
  | .hostRegisterWrite _ _ => none
  | .preEmpt _ => none
  | .resume _ => none
  | .endLaunch _ => none
  | .invalidateTlb _ => none
  | .returnLink _ => none
  | .powerMode _ => none
  | .wrst => none
  | .functionLevelReset => none
  | .coldReset => none
  | .attestationRequest _ => none
  | .linkTraining _ _ _ _ => none
  | .thermalThrottle => none
  | .thermalTrip => none
  | .commandStoppedAtFault _ _ _ => none
  | .writeBackComplete _ _ => none

/-- Whether an instruction is an instruction word, not a step of a unit. -/
def Instr.isWord (i : Instr) : Bool := (encodeWord i).isSome

/-- The bytes of an instruction as memory holds them, lowest first; none for a step that is no instruction word. -/
def encode (i : Instr) : List Byte :=
  match encodeWord i with
  | some (w, n) => bytesLE n w
  | none => []

end Sys2Proof
end

