-- ==== Sys2Proof/Machine/Flags.lean ====
section
/-! DEFINITION. Number formats, rounding and exception flags (R128 to R144): IEEE formats, MK8, ACC72, integers. Values are
exact: a finite value is ± m × 2^e, and `sticky` says that the true value lies strictly between m and m + 1. -/

namespace Sys2Proof.Machine

/-- Exception flags: NV, DZ, OF, UF, NX from bit 0 (R64). -/
abbrev Fl := BitVec 5

/-- Invalid operation. -/
def fNV : Fl := 1
/-- Division by zero. -/
def fDZ : Fl := 2
/-- Overflow. -/
def fOF : Fl := 4
/-- Underflow. -/
def fUF : Fl := 8
/-- Inexact. -/
def fNX : Fl := 16

/-- A flag if a condition holds. -/
def flagIf (c : Bool) (f : Fl) : Fl := if c then f else 0

/-- Rounding modes of R132. -/
inductive Rnd where
  | rne | rtz | rdn | rup | rna
  deriving DecidableEq, Repr

/-- The mode of a rounding code, `fpc`.RMD for dynamic (R32, R64). -/
def rmMode (rm : RM) (rmd : Nat) : Rnd :=
  match rm with
  | RM.rne => .rne | RM.rtz => .rtz | RM.rdn => .rdn | RM.rup => .rup | RM.rna => .rna
  | RM.dyn => match rmd with
    | 2 => .rtz | 3 => .rdn | 4 => .rup | 5 => .rna | _ => .rne

/-- An IEEE format: significand bits, exponent bits (R130). -/
structure FFmt where
  p : Nat
  eb : Nat
  deriving DecidableEq, Repr

/-- Width in bits. -/
def FFmt.width (f : FFmt) : Nat := f.p + f.eb
/-- Exponent bias. -/
def FFmt.bias (f : FFmt) : Nat := 2 ^ (f.eb - 1) - 1
/-- Least normal exponent. -/
def FFmt.emin (f : FFmt) : Int := 1 - f.bias
/-- Greatest exponent. -/
def FFmt.emax (f : FFmt) : Int := f.bias

/-- The format of a scalar code (R33). -/
def sfmtOf : SFmt → FFmt
  | SFmt.f64 => ⟨53, 11⟩ | SFmt.f32 => ⟨24, 8⟩ | SFmt.f16 => ⟨11, 5⟩ | SFmt.bf16 => ⟨8, 8⟩

/-- A decoded value. A NaN keeps its sign, whether it signals, and its fraction below the quiet bit, left-aligned in 51
bits. -/
inductive FV where
  | nan (neg sig : Bool) (pay : Nat)
  | inf (neg : Bool)
  | fin (neg : Bool) (m : Nat) (e : Int)
  deriving DecidableEq, Repr

/-- The default NaN (R130). -/
def FV.dnan : FV := .nan false false 0
/-- A zero. -/
def FV.zero (neg : Bool) : FV := .fin neg 0 0
/-- Whether a value is a NaN. -/
def FV.isNaN : FV → Bool | .nan _ _ _ => true | _ => false
/-- Whether a value is a signalling NaN. -/
def FV.isSNaN : FV → Bool | .nan _ s _ => s | _ => false
/-- Whether a value is zero. -/
def FV.isZero : FV → Bool | .fin _ m _ => m == 0 | _ => false
/-- The sign. -/
def FV.neg : FV → Bool | .nan n _ _ => n | .inf n => n | .fin n _ _ => n
/-- The value with its sign flipped. -/
def FV.flip : FV → FV
  | .nan n s p => .nan n s p | .inf n => .inf (!n) | .fin n m e => .fin (!n) m e
/-- A value negated, a NaN as it is. -/
def FV.negated (v : FV) : FV := if v.isNaN then v else v.flip
/-- A NaN quieted. -/
def FV.quiet : FV → FV | .nan n _ p => .nan n false p | v => v

/-- The value of an integer. -/
def FV.ofInt (x : Int) : FV := .fin (x < 0) x.natAbs 0

/-- Decode a bit pattern of an IEEE format (R130). -/
def FFmt.decode (f : FFmt) (w : Nat) : FV :=
  let fb := f.p - 1
  let neg := bitAt w (f.width - 1)
  let ex := field w fb f.eb
  let fr := field w 0 fb
  if ex = 2 ^ f.eb - 1 then
    if fr = 0 then .inf neg
    else .nan neg (!bitAt fr (fb - 1)) (fr % 2 ^ (fb - 1) * 2 ^ (52 - fb))
  else if ex = 0 then .fin neg fr (f.emin - fb)
  else .fin neg (fr + 2 ^ fb) ((ex : Int) - f.bias - fb)

/-- Encode a value that the format represents (a NaN keeps the high payload bits that fit, R69). -/
def FFmt.encode (f : FFmt) (v : FV) : Nat :=
  let fb := f.p - 1
  let s (n : Bool) : Nat := if n then 2 ^ (f.width - 1) else 0
  match v with
  | .inf n => s n + (2 ^ f.eb - 1) * 2 ^ fb
  | .nan n sg p =>
    let hi := p / 2 ^ (52 - fb) % 2 ^ (fb - 1)
    s n + (2 ^ f.eb - 1) * 2 ^ fb + (if sg then (if hi = 0 then 1 else hi) else hi + 2 ^ (fb - 1))
  | .fin n m e =>
    if m = 0 then s n else
    -- put m at the format's exponent
    let l := bitLen m
    let q : Int := max (e + l - f.p) (f.emin - fb)
    let mm := if q ≤ e then m * 2 ^ (e - q).toNat else m / 2 ^ (q - e).toNat
    if mm < 2 ^ fb then s n + mm
    else s n + (q + fb + f.bias).toNat * 2 ^ fb + (mm - 2 ^ fb)

/-- Divide by 2^k, rounding by mode; answers the quotient and whether it is inexact. -/
def roundShift (r : Rnd) (neg : Bool) (m k : Nat) (sticky : Bool) : Nat × Bool :=
  let q := m / 2 ^ k
  let rem := m % 2 ^ k
  let half := 2 ^ k / 2
  let inex := rem != 0 || sticky
  let above := if k = 0 then false else half < rem || (rem == half && sticky)
  let tie := k != 0 && rem == half && !sticky
  let up := match r with
    | .rne => above || (tie && q % 2 == 1)
    | .rna => above || tie
    | .rtz => false
    | .rdn => neg && inex
    | .rup => !neg && inex
  (if up then q + 1 else q, inex)

/-- Round ± m × 2^e (plus a bit if `sticky`) to `p` bits with least normal exponent `emin` and greatest exponent `emax`
(R132, rne56 of R129). With `sticky`, m must hold more than p bits. -/
def roundFin (p : Nat) (emin emax : Int) (r : Rnd) (neg : Bool) (m : Nat) (e : Int) (sticky : Bool) : FV × Fl :=
  if m = 0 && !sticky then (.zero neg, 0) else
  let l := bitLen m
  let q : Int := max (e + l - p) (emin - (p - 1))
  let (m1, e1) : Nat × Int := if q < e then (m * 2 ^ (e - q).toNat, q) else (m, e)
  let (v, inex) := roundShift r neg m1 (q - e1).toNat sticky
  -- as though the exponent were unbounded
  let qu : Int := e + l - p
  let (mu, eu) : Nat × Int := if qu < e then (m * 2 ^ (e - qu).toNat, qu) else (m, e)
  let (vu, _) := roundShift r neg mu (qu - eu).toNat sticky
  let topu : Int := qu + bitLen vu - 1
  if emax < topu then
    let big : FV := .fin neg (2 ^ p - 1) (emax - (p - 1))
    let res := match r with
      | .rne | .rna => FV.inf neg
      | .rtz => big
      | .rdn => if neg then .inf neg else big
      | .rup => if neg then big else .inf neg
    (res, fOF ||| fNX)
  else (.fin neg v q, flagIf inex fNX ||| flagIf (inex && topu < emin) fUF)

/-- rnd(x, F, m) of R132 for a value. -/
def FFmt.round (f : FFmt) (r : Rnd) (v : FV) (sticky : Bool := false) : FV × Fl :=
  match v with
  | .fin n m e => roundFin f.p f.emin f.emax r n m e sticky
  | v => (v, 0)

/-- rne56 of R129. -/
def rne56 (v : FV) : FV × Fl :=
  match v with
  | .fin n m e => roundFin 56 (1 - 4095) 4096 .rne n m e false
  | v => (v, 0)

/-- The first NaN among the sources, quieted, and NV for a signalling one (R133). -/
def nanOf (l : List FV) : Option FV × Fl :=
  ((l.find? (·.isNaN)).map (·.quiet), flagIf (l.any (·.isSNaN)) fNV)

/-- The exact sum of two finite values, with the sign an exact zero takes (R66). -/
def sumFin (r : Rnd) (n1 : Bool) (m1 : Nat) (e1 : Int) (n2 : Bool) (m2 : Nat) (e2 : Int) : FV :=
  if m1 = 0 && m2 = 0 then .zero (if n1 == n2 then n1 else r == .rdn) else
  let e := min e1 e2
  let x : Int := (if n1 then -1 else 1) * (m1 * 2 ^ (e1 - e).toNat : Nat)
  let y : Int := (if n2 then -1 else 1) * (m2 * 2 ^ (e2 - e).toNat : Nat)
  if x + y = 0 then .zero (r == .rdn) else .fin (x + y < 0) (x + y).natAbs e

/-- The exact sum (R66), its NV, without rounding. -/
def addExact (r : Rnd) (a b : FV) : FV × Fl :=
  match nanOf [a, b] with
  | (some n, f) => (n, f)
  | _ => match a, b with
    | .inf x, .inf y => if x == y then (.inf x, 0) else (.dnan, fNV)
    | .inf x, _ => (.inf x, 0)
    | _, .inf y => (.inf y, 0)
    | .fin n1 m1 e1, .fin n2 m2 e2 => (sumFin r n1 m1 e1 n2 m2 e2, 0)
    | _, _ => (.dnan, 0)

/-- The exact product (R66), its NV, without rounding. -/
def mulExact (a b : FV) : FV × Fl :=
  match nanOf [a, b] with
  | (some n, f) => (n, f)
  | _ =>
    let s := a.neg != b.neg
    match a, b with
    | .inf _, v | v, .inf _ => if v.isZero then (.dnan, fNV) else (.inf s, 0)
    | .fin _ m1 e1, .fin _ m2 e2 => (.fin s (m1 * m2) (e1 + e2), 0)
    | _, _ => (.dnan, 0)

/-- Round in a format, joining flags. -/
def FFmt.finish (f : FFmt) (r : Rnd) (x : FV × Fl) : FV × Fl :=
  let y := f.round r x.1
  (y.1, x.2 ||| y.2)

/-- Addition (R66). -/
def FFmt.add (f : FFmt) (r : Rnd) (a b : FV) : FV × Fl := f.finish r (addExact r a b)

/-- Subtraction: `b` negated, a NaN `b` keeping its sign (R66, R133). -/
def FFmt.sub (f : FFmt) (r : Rnd) (a b : FV) : FV × Fl := f.finish r (addExact r a b.negated)

/-- Multiplication (R66). -/
def FFmt.mul (f : FFmt) (r : Rnd) (a b : FV) : FV × Fl := f.finish r (mulExact a b)

/-- Fused multiply-add a × b + c, the product negated if `np`, the addend if `nc` (R67). -/
def FFmt.fma (f : FFmt) (r : Rnd) (np nc : Bool) (a b c : FV) : FV × Fl :=
  let bad := match a, b with
    | .inf _, v => v.isZero
    | v, .inf _ => v.isZero
    | _, _ => false
  match nanOf [a, b, c] with
  | (some n, fl) => (n, fl ||| flagIf bad fNV)
  | _ =>
    let (p, f1) := mulExact a b
    if p.isNaN then (p, f1) else
    let (s, f2) := addExact r (if np then p.flip else p) (if nc then c.flip else c)
    f.finish r (s, f1 ||| f2)

/-- Division (R66). -/
def FFmt.div (f : FFmt) (r : Rnd) (a b : FV) : FV × Fl :=
  match nanOf [a, b] with
  | (some n, fl) => (n, fl)
  | _ =>
    let s := a.neg != b.neg
    match a, b with
    | .inf _, .inf _ => (.dnan, fNV)
    | .inf _, _ => (.inf s, 0)
    | _, .inf _ => (.zero s, 0)
    | .fin _ m1 e1, .fin _ m2 e2 =>
      if m2 = 0 then (if m1 = 0 then (.dnan, fNV) else (.inf s, fDZ))
      else if m1 = 0 then (.zero s, 0)
      else
        let k := f.p + 3 + bitLen m2
        let q := m1 * 2 ^ k / m2
        f.round r (.fin s q (e1 - e2 - k)) (m1 * 2 ^ k % m2 != 0)
    | _, _ => (.dnan, 0)

/-- Square root (R66). -/
def FFmt.sqrt (f : FFmt) (r : Rnd) (a : FV) : FV × Fl :=
  match nanOf [a] with
  | (some n, fl) => (n, fl)
  | _ => match a with
    | .inf n => if n then (.dnan, fNV) else (.inf false, 0)
    | .fin n m e =>
      if m = 0 then (.zero n, 0)
      else if n then (.dnan, fNV)
      else
        let k : Nat := 2 * (f.p + 3)
        let k' := if (e - k) % 2 = 0 then k else k + 1
        let x := m * 2 ^ k'
        let q := isqrt x
        f.round r (.fin false q ((e - k') / 2)) (q * q != x)
    | v => (v, 0)

/-- Order of two values, NaNs apart: less (R68: zeros equal). -/
def FV.lt (a b : FV) : Bool :=
  match a, b with
  | .inf n, .inf k => n && !k
  | .inf n, .fin _ _ _ => n
  | .fin _ _ _, .inf k => !k
  | .fin n1 m1 e1, .fin n2 m2 e2 =>
    let e := min e1 e2
    let x : Int := (if n1 then -1 else 1) * (m1 * 2 ^ (e1 - e).toNat : Nat)
    let y : Int := (if n2 then -1 else 1) * (m2 * 2 ^ (e2 - e).toNat : Nat)
    x < y
  | _, _ => false

/-- Equal values, NaNs apart. -/
def FV.eq (a b : FV) : Bool := !a.isNaN && !b.isNaN && !a.lt b && !b.lt a

/-- Minimum or maximum of IEEE 754-2019, −0 below +0 (R66). -/
def minMax (mx : Bool) (a b : FV) : FV × Fl :=
  let f := flagIf (a.isSNaN || b.isSNaN) fNV
  if a.isNaN then (if b.isNaN then a.quiet else b, f)
  else if b.isNaN then (a, f)
  else
    let less := a.lt b || (a.isZero && b.isZero && a.neg && !b.neg)
    (if less != mx then a else b, f)

/-- The float conditions (R34, R68). -/
def fcondHolds (c : FCond) (a b : FV) : Bool :=
  let un := a.isNaN || b.isNaN
  match c with
  | .eq => a.eq b
  | .ne => !a.eq b
  | .lt => !un && a.lt b
  | .ge => !un && !a.lt b
  | .le => !un && !b.lt a
  | .gt => !un && b.lt a
  | .un => un
  | .ord => !un

/-- The flags of a compare (R68). -/
def cmpFlags (sig : Bool) (a b : FV) : Fl :=
  flagIf (if sig then a.isNaN || b.isNaN else a.isSNaN || b.isSNaN) fNV

/-- The class mask of R70. -/
def FFmt.classOf (f : FFmt) (v : FV) : Nat :=
  match v with
  | .nan _ s _ => if s then 2 ^ 8 else 2 ^ 9
  | .inf n => if n then 1 else 2 ^ 7
  | .fin n m e =>
    if m = 0 then (if n then 2 ^ 3 else 2 ^ 4)
    else
      let normal : Bool := decide (f.emin ≤ e + bitLen m - 1)
      match n, normal with
      | true, true => 2 | true, false => 4 | false, false => 2 ^ 5 | false, true => 2 ^ 6

/-- Convert a value into an IEEE format (R69): a NaN keeps the high payload bits that fit, a signalling one raises NV. -/
def FFmt.convert (f : FFmt) (r : Rnd) (v : FV) : FV × Fl :=
  match v with
  | .nan _ s _ => (v.quiet, flagIf s fNV)
  | v => f.round r v

/-- Round a value to an integer. -/
def roundInt (r : Rnd) (n : Bool) (m : Nat) (e : Int) : Int × Bool :=
  let (q, inex) := if 0 ≤ e then (m * 2 ^ e.toNat, false) else roundShift r n m (-e).toNat false
  (if n then -(q : Int) else q, inex)

/-- Convert a value into an integer range (R69, R142). -/
def toIntRange (r : Rnd) (lo hi : Int) (v : FV) : Int × Fl :=
  match v with
  | .nan _ _ _ => (0, fNV)
  | .inf n => (if n then lo else hi, fNV)
  | .fin n m e =>
    let (x, inex) := roundInt r n m e
    if x < lo then (lo, fNV) else if hi < x then (hi, fNV) else (x, flagIf inex fNX)

/-! ## MK8 (R134 to R138) -/

/-- Tier tables of R135: exponent width and base by leading-zero count. -/
def mk8We (k : Nat) : Nat := (6 - k + 1) / 2
/-- Bases of R135. -/
def mk8Base (k : Nat) : Int :=
  match k with
  | 0 => -4 | 1 => 4 | 2 => -8 | 3 => 12 | 4 => -10 | 5 => 16 | _ => -11

/-- The magnitude of a payload in units of 2^−11 (R135). -/
def mk8Mag (p : Nat) : Nat :=
  if p = 0 then 0 else
  let k := 7 - bitLen p
  let n := 6 - k
  let we := mk8We k
  let wf := n - we
  let e := field p (n - we) we
  let f := field p 0 wf
  (2 ^ wf + f) * 2 ^ ((mk8Base k + e + 11).toNat) / 2 ^ wf

/-- Decode an MK8 byte; NaR is a quiet NaN with zero payload (R135, R137). -/
def mk8Decode (w : Nat) : FV :=
  let s := bitAt w 7
  let p := field w 0 7
  if p = 0 then (if s then .dnan else .zero false) else .fin s (mk8Mag p) (-11)

/-- The greatest payload magnitude at most `x` and the least at least `x`, both in units of 2^−11, as pairs of payload
and magnitude; `x` is given times 2^k. -/
def mk8Near (x k : Nat) : (Nat × Nat) × Option (Nat × Nat) :=
  (List.range 127).foldl (init := ((0, 0), none)) fun r i =>
    let p := i + 1
    let m := mk8Mag p
    let lo := if m * 2 ^ k ≤ x && r.1.2 < m then (p, m) else r.1
    let hi := if x ≤ m * 2 ^ k then (match r.2 with
      | some h => if m < h.2 then some (p, m) else r.2
      | none => some (p, m)) else r.2
    (lo, hi)

/-- Convert a value into MK8 (R136). -/
def mk8Encode (r : Rnd) (v : FV) : Nat × Fl :=
  match v with
  | .nan _ s _ => (0x80, flagIf s fNV)
  | .inf n => (if n then 0x83 else 0x03, fOF ||| fNX)
  | .fin n m e =>
    if m = 0 then (0, 0) else
    let k : Nat := if e + 11 < 0 then (-(e + 11)).toNat else 0
    let x := if e + 11 < 0 then m else m * 2 ^ (e + 11).toNat
    let (lo, top) := mk8Near x k
    match top with
    | none => (if n then 0x83 else 0x03, fOF ||| fNX)
    | some hi =>
      let exact := lo.2 == hi.2
      let twice := 2 * x
      let mid := (lo.2 + hi.2) * 2 ^ k
      let up := match r with
        | .rne => mid < twice || (mid == twice && hi.1 % 2 == 0)
        | .rna => mid ≤ twice
        | .rtz => false
        | .rdn => n
        | .rup => !n
      let c := if exact then lo else if up then hi else lo
      let code := if c.1 = 0 then 0 else c.1 + (if n then 128 else 0)
      (code, flagIf (!exact) fNX ||| flagIf (!exact && x < 2 ^ k) fUF)

/-! ## ACC72 (R143, R144) -/

/-- The fields of an ACC72 word: CLS, S, EXP, SIG. -/
def accWord (cls : Nat) (neg : Bool) (ex sig : Nat) : BitVec 72 :=
  BitVec.ofNat 72 (packFields [(56, sig), (13, ex), (1, if neg then 1 else 0), (2, cls)])

/-- A float-kind word of a value that rne56 has rounded (R144). -/
def accOfFV (v : FV) : BitVec 72 :=
  match v with
  | .nan n _ p => accWord 2 n 0 (2 ^ 55 + p * 2 ^ 4)
  | .inf n => accWord 1 n 0 0
  | .fin n m e =>
    if m = 0 then accWord 0 n 0 0 else
    let q : Int := max (e + bitLen m - 56) (1 - 4095 - 55)
    let mm := if q ≤ e then m * 2 ^ (e - q).toNat else m / 2 ^ (q - e).toNat
    if mm < 2 ^ 55 then accWord 0 n 0 mm else accWord 0 n (q + 4095 + 55).toNat mm

/-- The value of a float-kind word (R144). -/
def accToFV (w : BitVec 72) : FV :=
  let x := w.toNat
  let n := bitAt x 69
  let ex := field x 56 13
  let sig := field x 0 56
  match field x 70 2 with
  | 1 => .inf n
  | 2 => .nan n false (field x 4 51)
  | _ => if ex = 0 then .fin n sig (1 - 4095 - 55) else .fin n sig ((ex : Int) - 4095 - 55)

/-- The value of an integer-kind word (R144). -/
def accToInt (w : BitVec 72) : Int := sval 56 (field w.toNat 0 56)

/-- An integer-kind word; beyond 56 bits it saturates with CLS 3 (R145). -/
def accOfInt (x : Int) : BitVec 72 × Bool :=
  if x < -(2 ^ 55 : Nat) then (accWord 3 false 0 (2 ^ 55), true)
  else if (2 ^ 55 - 1 : Nat) < x then (accWord 3 false 0 (2 ^ 55 - 1), true)
  else (accWord 0 false 0 (ofSval 56 x), false)

/-- Whether a word is saturated. -/
def accSat (w : BitVec 72) : Bool := field w.toNat 70 2 == 3

end Sys2Proof.Machine
end

