-- ==== Sys2Proof/Config.lean ====
section
/-! DEFINITION. What an implementation fixes (R1) and the free values of the model. A free value is an `opaque` constant
without a body: nothing can be proved of it but what holds for every value. Each is applied to plain data of the state,
most to the step counter `State.tick`. -/

namespace Sys2Proof

/-- A firmware image (R408, R409): its bytes and version, the P-384 public key that it comes with, a key that certifies that one with the
certifying signature, and the signature over the image's digest. -/
structure Firmware where
  code : List Byte := []
  version : BitVec 64 := 0
  key : List Byte := []
  signer : Option (List Byte × List Byte) := none
  signature : List Byte := []
  deriving DecidableEq, Repr, Inhabited

end Sys2Proof

namespace Sys2Proof.Config

/-- Compute dies (R1). -/
def dies : Nat := 2
/-- Pods of a die (R1). -/
def podsPerDie : Nat := 48
/-- Pods of the device (R1). -/
def pods : Nat := 96
/-- Cores of a pod (R1). -/
def coresPerPod : Nat := 8
/-- Cores of the device (R1). -/
def cores : Nat := 768
/-- Result-ring slots of a core (R187). -/
def ringSlots : Nat := 4
/-- 16-byte granules of the unified array (R151). -/
def granules : Nat := 20480
/-- Bytes of a device's HBM: 768 GiB (R1). -/
def hbm : Nat := 768 * 2 ^ 30
/-- Host work queues (R1). -/
def queues : Nat := 2048
/-- Fabric ports (R363). -/
def ports : Nat := 16

/-- Which of `n` enabled moves is made at step `t` (the device fixes no order among its agents, R254, R413): a free
value; the scheduler takes it modulo the number of enabled moves. Log entry 4. -/
opaque schedule : Nat → Nat → Nat

/-- Cycles that pass beyond the issue slots at step `t`: stalls, hops and waits have no architected length (R82, R413).
Log entry 5. -/
opaque stallCycles : Nat → Nat

/-- Whether the fetch of step `t` takes the cached granule at a physical address although newer bytes have reached the
point of coherence (R262). Log entry 6. -/
opaque staleFetch : Nat → Nat → Bool

/-- How many bytes of a running command's result are written ahead of the others at step `t` (R201). Log entry 8. -/
opaque partWay : Nat → Nat

/-- The hash that indexes the hot-row counters by a row's physical start and length (R103). Log entry 7. -/
opaque rowHash : Nat → Nat → Nat

/-- The slice, of both dies, that a zone's hash chooses as its home in the shared mode (R102): even on die 0. Log entry 102. -/
opaque homeSlice : Nat → Nat

/-- The hash of a flow's identity with which its path-entropy field starts (R361). Log entry 103. -/
opaque flowHash : Nat → Nat → BitVec 8

/-- Flits that wait in the output queue of a port at step `t` (R361), and in the queue that a reply of a switch leaves (R362): queues
of switches outside the device among them. Log entry 109. -/
opaque queueDepth : Nat → Nat → Nat

/-- Hops from a port to a device: by a minimal path, and through the intermediate stage that an entropy chooses (R361). Log entry 109. -/
opaque hops : Nat → Nat → Nat
opaque hopsVia : Nat → Nat → Nat → Nat

/-- How many extents of another device a home's directory holds one by one (R367). Log entry 109. -/
opaque directoryRoom : Nat

/-- The hash of PA[51:4] that routes an atomic (R361). Log entry 103. -/
opaque atomHash : Nat → BitVec 8

/-- The check word of a granule (R319), and the last 8 bytes of a journal entry, which hold it and a sequence number (R328). Log entry 60. -/
opaque checkWord : List Byte → BitVec 16
opaque journalTail : BitVec 16 → BitVec 64 → BitVec 64

/-- The firmware image that the boot ROM finds at the bring-up of step `t` (R408). Log entry 9. -/
opaque firmware : Nat → Firmware

/-- SHA-384, and ECDSA on P-384: whether a signature of a digest verifies under a public key, and the signature of a digest under a private
key (R408, R409 name the algorithms). Log entry 10. -/
opaque sha384 : List Byte → BitVec 384
opaque p384Verify : List Byte → BitVec 384 → List Byte → Bool
opaque p384Sign : List Byte → BitVec 384 → List Byte

/-- The hash of the root public key in the boot ROM (R408). Log entry 9. -/
opaque rootKeyHash : BitVec 384

/-- The device's identity key pair and its certificate, made at manufacture (R408). Log entry 10. -/
opaque identityKey : List Byte
opaque identityPublic : List Byte
opaque identityCertificate : List Byte

/-- The bytes of section `k` of a context image at step `t`, but for the scratchpad's (R387 names what a section holds and not its form),
and how many there are. Log entry 116. -/
opaque sectionByte : Nat → Nat → Nat → Byte
opaque sectionSize : Nat → Nat

/-- The host port over which a host's write of the window of HBM comes at step `t` (R369). Log entry 119. -/
opaque windowPort : Nat → Nat

/-- The element size, in 4-bit units, that `SEND` takes of a handle whose format tag is unassigned: it does not check the
tag (R288), and R128 gives such a tag no size. Log entry 11. -/
opaque unassignedSize : Nat → Nat

/-- The sum of a row of a slot that holds both infinities and no NaN: R197 says that it is no NaN and nothing gives its
value. An index of a binary32 value that is no NaN, for command and row. Log entry 12. -/
opaque rstatMixed : Nat → Nat → Nat

/-- What `MMA.acc` of the integer kind takes of a word that `EPI` keep has left as a float: an integer of 56 bits. No rule
gives it. Log entry 13. -/
opaque keptWord : BitVec 72 → BitVec 56

/-- Whether STRIDE1 = EXT0 × e is rounded up when `MUNHATCH` writes an odd number of nibbles to a line (R198 gives a half
byte). Log entry 16. -/
opaque strideUp : Nat → Bool

end Sys2Proof.Config
end

