-- ==== Sys2Proof/Machine/State.lean ====
section
/-! DEFINITION. The state of the device: everything the spec names, as plain data, and the machine right after reset.
Sizes and addresses are `Nat`; register contents are bit vectors of the spec's width. -/

namespace Sys2Proof.Machine

/-- Byte storage: address and byte pairs in one canonical form (Machine/Memory.lean). -/
abbrev Mem := List Host.Cell

/-- Why the machine stops. Raised by `step` only. -/
inductive Fault where
  /-- The device has halted after a thermal trip (R411) and nothing from outside is pending: `step` raises it. Safe: the
  spec gives the halted device no further step but a reset. -/
  | deviceHalted
  deriving DecidableEq, Repr

/-- Why an instruction has no meaning. -/
inductive Refusal where
  /-- The instruction is not modelled yet: raised by the arms of `exec` alone. Safe. -/
  | notModelled (mnemonic : String)
  deriving DecidableEq, Repr

/-! ## What a core holds -/

/-- The causes of R380. -/
inductive Cause where
  | illegal | pageFault | access | format | starve | quota | race | overflow | float | syscall | breakpoint | residueEnd
  deriving DecidableEq, Repr

/-- The CAUSE number of R380. -/
def Cause.num : Cause → Nat
  | .illegal => 1 | .pageFault => 2 | .access => 3 | .format => 4 | .starve => 5 | .quota => 6 | .race => 7
  | .overflow => 8 | .float => 9 | .syscall => 10 | .breakpoint => 11 | .residueEnd => 12

/-- A trap as its rule raises it: cause, DETAIL, ADDR and its SPACE bit (R379, R380). -/
structure Trap where
  cause : Cause
  detail : Nat := 0
  addr : Nat := 0
  inPad : Bool := false
  deriving DecidableEq, Repr

/-- Loop state of a depth (R53). -/
structure Loop where
  count : Word := 0
  start : Word := 0
  stop : Word := 0
  deriving DecidableEq, Repr

/-- A handle register (R165); its reserved bits always read zero. -/
structure Handle where
  base : BitVec 53 := 0
  pad : Bool := false
  fmt : BitVec 8 := 0
  cursor : BitVec 32 := 0
  layout : BitVec 4 := 0
  planes : BitVec 4 := 0
  tile : BitVec 8 := 0xFF
  block : BitVec 8 := 0
  ext0 : BitVec 16 := 0
  ext1 : BitVec 16 := 0
  ext2 : BitVec 16 := 0
  ext3 : BitVec 16 := 0
  stride1 : BitVec 32 := 0
  stride2 : BitVec 32 := 0
  deriving DecidableEq, Repr

/-- The states of a tile (R173). -/
inductive TileState where
  | empty | filling | ready | draining
  deriving DecidableEq, Repr

/-- A tile-table entry (R173, R177). -/
structure Tile where
  st : TileState := .empty
  pend : Bool := false
  drainQ : Bool := false
  flt : Bool := false
  ch : BitVec 3 := 0
  done : BitVec 32 := 0
  deriving DecidableEq, Repr

/-- Kinds of accumulation (R144). -/
inductive SlotKind where
  | float | integer | residue
  deriving DecidableEq, Repr

/-- States of a ring slot (R187). -/
inductive SlotState where
  | free | filling | full
  deriving DecidableEq, Repr

/-- A slot's flag set (R187). -/
structure SlotFlags where
  nv : Bool := false
  dz : Bool := false
  ovf : Bool := false
  fo : Bool := false
  fu : Bool := false
  nx : Bool := false
  deriving DecidableEq, Repr

/-- A result-ring slot (R187): its 4,096 words of R143 by row then column; the empty list stands for all zero. `kind` says
how they are read (R144), `fillKind` is the kind that the slot's last fill gives (R188). -/
structure Slot where
  st : SlotState := .free
  kind : SlotKind := .float
  fillKind : SlotKind := .float
  flags : SlotFlags := {}
  words : List (BitVec 72) := []
  deriving DecidableEq, Repr

/-- A completion counter (R243). -/
structure Counter where
  done : BitVec 32 := 0
  cmds : BitVec 16 := 0
  stale : Bool := false
  flt : Bool := false
  deriving DecidableEq, Repr

/-- A hold on a sync object (R281): its virtual and physical address and its mode. -/
structure Hold where
  va : Nat
  pa : Nat
  excl : Bool
  deriving DecidableEq, Repr

/-- A circular-buffer reservation (R291), with the object's physical address, its SIZE and COUNT as reserved. -/
structure Resv where
  va : Nat
  pa : Nat
  idx : Nat
  epoch : BitVec 16
  size : Nat
  count : Nat
  deriving DecidableEq, Repr

/-- The context that a proof records and a rollback restores (R249, R322), `pc` being where it resumes. Scalars: `regs`
numbers 0 to 15 the global frame, 16 to 31 the argument frame, 32 + 32d to 63 + 32d the private frame of depth d (R51). -/
structure Ctx where
  regs : Vector Word 288
  guards : BitVec 16
  pc : Word
  depth : Fin 8
  loops : Vector Loop 8
  handles : Vector Handle 32
  fpc : Word
  tiles : Vector Tile 32
  ring : Vector Slot 4
  head : Fin 4
  tail : Fin 4
  armed : Bool
  prog : BitVec 53
  counters : Vector Counter 16
  want : Nat
  mailbox : List Word
  resv : List Resv
  nextId : Vector Word 8
  holds : List Hold
  attached : Bool
  deriving DecidableEq, Repr

/-- A placement arrival of a core (R336): entry, flags, HINT (R27), and the address of the arriving instruction. -/
structure Arrival where
  entry : Nat
  fl : EFlags
  hint : BitVec 4
  pc : Word
  deriving DecidableEq, Repr

/-- Registers outside the proof (R72, R326, R378, R379): the mode, the supervisor frame, the trap registers and the
quotas. `owed` is the number of delay slots owed after `ERET` (R19); `laneHit` the lane group on which the standing LANE bit of
`inj` last reported (R330); `left` the address saved when a `BAR` wait was last left (R275). -/
structure Sys where
  sup : Bool := false
  supFrame : Vector Word 32 := Vector.replicate 32 0
  cyc : Word := 0
  slots : Word := 0
  owed : Nat := 0
  wthr : BitVec 32 := 16384
  pmax : BitVec 16 := 0
  lmax : BitVec 32 := 0
  inj : BitVec 9 := 0
  laneHit : Option Nat := none
  tvec : Word := 0
  epc : Word := 0
  ecause : Word := 0
  einfo : Word := 0
  eaddr : Word := 0
  estat : Word := 0
  left : Word := 0
  deriving DecidableEq, Repr

/-- The identity registers that the launch unit writes (R71, R152, R160). `id.core`, `id.pod` and `id.die` are the
core's place, `id.dev` is DEVIDX. -/
structure Ident where
  org : Vector Word 4 := Vector.replicate 4 0
  ext : Vector Word 4 := Vector.replicate 4 0
  grp : Vector Word 4 := Vector.replicate 4 0xFFFFFFFFFFFFFFFF
  deriving DecidableEq, Repr

/-- L1 states (R83). -/
inductive L1State where
  | s | e | m
  deriving DecidableEq, Repr

/-- A valid L1 entry (R83), with its way and the array granules it occupies (R86). The set is PA[16:12] of `start`. -/
structure L1Entry where
  start : Nat
  data : List Byte
  st : L1State
  dstart : Nat
  dlen : Nat
  cls : RClass
  pin : Bool
  stamp : Nat
  stream : Bool
  way : Nat
  grans : List Nat
  deriving DecidableEq, Repr

/-- A TLB entry (R98, R99): page size in bits (13, 23, 33), page numbers, permissions, and the table entry's address. -/
structure TlbEntry where
  asid : BitVec 12
  root : Nat
  bits : Nat
  vpn : Nat
  ppn : Nat
  mt : BitVec 2
  rd : Bool
  wr : Bool
  ex : Bool
  us : Bool
  dt : Bool
  pte : Nat
  deriving DecidableEq, Repr

/-- What waits in a core's memory queue (R98, R107): a held-region store that needs ownership, a fill of `PREF`, dirty bytes
on their way home, or pinned bytes to be fetched again (R90). A store keeps its HINT (R27). -/
inductive MemReq where
  | own (va pa : Nat) (bytes : List Byte) (hint : BitVec 4)
  | fill (va len : Nat) (excl : Bool) (cls : RClass)
  | wback (pa : Nat) (bytes : List Byte)
  | repin (pa len : Nat) (cls : RClass)
  deriving DecidableEq, Repr

/-- A logged write (R11, R95): its command's place in program order, its first physical byte, its bytes, the log space it
takes, its HINT (R27). -/
structure LogEntry where
  pos : Nat
  pa : Nat
  bytes : List Byte
  space : Nat
  hint : BitVec 4 := 0
  deriving DecidableEq, Repr

/-- The record of an atomic (R115). -/
structure AtomRec where
  va : Nat
  op : Nat
  v1 : Word
  v2 : Word
  old : Word
  deriving DecidableEq, Repr

/-- A pending scratchpad write (R179): landing slot, its bytes with their addresses, the `fpc` flags it brings (R213),
whether its data are there (R227). -/
structure PendWrite where
  seq : Nat
  land : Nat
  bytes : List (Nat × Byte)
  flags : BitVec 5
  ready : Bool
  deriving DecidableEq, Repr

/-- A request to the pod SFU (R227), with its staged sources. -/
structure SfuReq where
  seq : Nat
  fn : SfuFn
  ef : SFmt
  src : List Byte
  dst : Nat
  started : Bool
  withdrawn : Bool
  deriving DecidableEq, Repr

/-- Where a timed `SEND` lands (R237): the barrier set and phase of its window, and the target's window slot. -/
abbrev Landing := Option (Nat × Nat × Nat)

/-- A copy-engine command: `SEND`, `TFILL` or `TDRAIN` (R175, R288) with its staged handles (R28). `need` is the number
of pending writes issued before it (R117); `done` counts bytes moved; `stop` says that it is stopped at a fault (R385),
and whether the fault has been delivered; `veil` holds the bytes that later writes of the core replaced (R117). -/
inductive CopyKind where
  | send | fill | drain
  deriving DecidableEq, Repr

structure CopyCmd where
  kind : CopyKind
  pc : Word
  pos : Nat
  ch : BitVec 3
  id : Word
  hl : Handle
  hg : Handle
  tile : Nat
  tgt : Nat
  dst : Nat
  fl : EFlags
  hint : BitVec 4
  need : Nat
  done : Nat
  stop : Option Bool
  timed : Landing
  veil : List (Nat × Byte) := []
  deriving DecidableEq, Repr

/-- Target of a `PUT` or `GET` (R238): team indices with the generation seen at issue (R245), or a plate. -/
inductive Target where
  | cores (l : List (Nat × Nat))
  | plate (h : Handle)
  deriving DecidableEq, Repr

inductive PortKind where
  | put | get | msg
  deriving DecidableEq, Repr

/-- An element of a `PUT` that has been read and has not landed at every receiver (R239, R241): its number, its index, its bytes. -/
structure PutElem where
  i : Nat
  v : Nat
  bytes : List Byte
  deriving DecidableEq, Repr

/-- A gather/put-port command (R239, R277). `i` is the next element, of a `PUT` to cores the first that has not
landed everywhere; `sent` counts what has landed at each receiver and `read` holds what is on its way; `reply` the bytes a served `GET` request returned
(`none` inside for a stale one); `first` numbers its packets per receiver (R241). -/
structure PortCmd where
  kind : PortKind
  pc : Word
  pos : Nat
  hd : Handle
  hx : Handle
  tgt : Target
  n : Nat
  i : Nat
  cc : BitVec 4
  fl : EFlags
  hint : BitVec 4
  need : Nat
  tile : Nat
  value : Word
  first : List (Nat × Nat)
  sent : List Nat := []
  read : List PutElem := []
  reply : Option (Option (List Byte))
  stop : Option Bool
  veil : List (Nat × Byte) := []
  deriving DecidableEq, Repr

/-- What a plane-engine command does (R190, R193, R198). -/
inductive PlaneOp where
  | mma (mode : MmaMode) (acc sp : Bool) (pa pb : BitVec 4)
  | mrec (ef : EF) (prog : BitVec 53)
  | hatch
  | unhatch
  deriving DecidableEq, Repr

/-- A plane-engine command with its staged handles: A and B, or destination and source. `slot` is the slot claimed
at the queue head, `done` counts the bytes that a hatch command has written. -/
structure PlaneCmd where
  op : PlaneOp
  pc : Word
  ha : Handle
  hb : Handle
  gang : Nat
  need : Nat
  order : Nat
  slot : Option (Fin 4)
  started : Bool
  old : Slot
  done : Nat := 0
  veil : List (Nat × Byte) := []
  deriving DecidableEq, Repr

/-- A row-statistics command (R197), with the bytes written so far. -/
structure StatCmd where
  pc : Word
  h : Handle
  slot : Fin 4
  need : Nat
  order : Nat
  done : Nat := 0
  deriving DecidableEq, Repr

/-- An etcher command (R123), with the operation words its record held at issue and the bytes written so far. -/
structure EpiCmd where
  pc : Word
  pos : Nat
  h : Handle
  words : List Word
  keep : Bool
  fl : EFlags
  need : Nat
  order : Nat
  done : Nat
  stop : Option Bool
  veil : List (Nat × Byte) := []
  deriving DecidableEq, Repr

/-- An imprecise trap waiting for delivery (R384): SRC, the command's place in program
order and its address, the trap, whether it can resume. -/
structure Pending where
  src : Nat
  pos : Nat := 0
  cmdpc : Word
  trap : Trap
  eflt : Bool
  deriving DecidableEq, Repr

/-- What a waiting instruction waits for (R148), recorded at its first issue. `target` is the number of closed phases a
`BAR` with `dly` delay slots waits for; an `SSTEP` goes on at `next` after `dly` delay slots; a `CCWAIT` waits for `n` of a counter, a `CBWAIT`
for `n` committed stages; a placement wait is for an entry's conversion, or (`part`) for the result in the core's own part (R335); a `TREL` on a
filling or draining tile waits for it to be emptied, after which it is satisfied; `commands` is the wait of `EXIT`, `CBCOMMIT` and `CBREL` for the core's own
commands. These last three are none of R148's. -/
inductive Wait where
  | msg | bar (group target dly : Nat) | sstep (next : Word) (dly : Nat) | emptied (t : Nat) | satisfied | xfer | counter (cc : BitVec 4) (n : Nat)
  | tile | engine | dep | acq (pa : Nat) | cbacq (pa : Nat) | cbwait (pa n : Nat) | placement (e : Nat) (part : Bool) | join | commands | other
  deriving DecidableEq, Repr

/-- One instruction that an attached follower has still to replay (R154): where it stands, what it is, its length and
the leader's next program counter; `trapped` when the leader trapped at it (R157). -/
structure Replay where
  pc : Word
  instr : Instr
  len : Nat
  next : Word
  trapped : Bool
  deriving DecidableEq, Repr

/-- A packet that has landed in the open sub-round (R242): sender team index, issue order, address and bytes. -/
structure Packet where
  team : Nat
  ord : Nat
  addr : Nat
  bytes : List Byte
  deriving DecidableEq, Repr

/-- What senders have declared to a receiver in the superstep and what has landed (R230, R241). -/
structure Inflow where
  team : Nat
  declared : Nat
  landed : Nat
  deriving DecidableEq, Repr

/-- The timed window of a core (R236): the barrier set and the phase that opened it, the slot counter at its first slot. -/
structure Window where
  group : Nat
  phase : Nat
  base : Word
  deriving DecidableEq, Repr

/-- Why a team is away (R286, R373, R386). -/
inductive Away where
  | swap (event : Nat) | parked (order : Nat) | preempt
  deriving DecidableEq, Repr

/-- The states of a core (R148); `Waiting` is `running` with a recorded wait. -/
inductive Phase where
  | idle | starting | running | swapped | exited
  deriving DecidableEq, Repr

/-- A core with its private storage and engines. -/
structure Core where
  phase : Phase
  retired : Bool
  launch : Option Word
  gen : Nat
  team : Nat
  ctx : Ctx
  proof : Ctx
  proofPhase : Phase
  proofTrig : Bool
  sys : Sys
  ident : Ident
  wait : Option Wait
  resume : Option Wait
  waited : Nat
  retires : Nat
  pos : Nat
  stopReq : Option Away
  stopped : Bool
  exchanging : Bool
  -- fetch chain (R153); `handed` says that a waiting instruction has been given to the attached followers (R156)
  chainPos : Nat
  replay : List Replay
  handed : Bool
  stalled : Bool
  -- scratchpad (R151, R179, R249); `pendHeld` holds the pending writes set aside by a trap, with the slots that remain
  padKiB : Nat
  pad : Mem
  padUndo : List (Nat × List Byte)
  pend : List PendWrite
  pendHeld : List PendWrite
  pendSeq : Nat
  sfu : Option SfuReq
  -- lanes (R205)
  reserve : Bool
  shared : List Nat
  -- range cache and translation; `farAtom` is the atomic on another device's bytes that the core waits for, with its answer once it has come
  l1 : List L1Entry
  l1Count : Nat
  tlb : List TlbEntry
  memq : List MemReq
  log : List LogEntry
  atoms : List AtomRec
  atomPos : Nat
  farAtom : Option (Option Served)
  cbIdx : List (Nat × Nat)
  cbPos : Nat
  icache : List (Nat × List Byte)
  plates : List (Nat × List Byte)
  metas : List (Nat × List Byte)
  -- engines
  copies : List CopyCmd
  port : List PortCmd
  plane : List PlaneCmd
  stats : List StatCmd
  etch : List EpiCmd
  order : Nat
  arrivals : Nat
  arrived : List Arrival
  faults : List Pending
  -- exchange
  window : Option Window
  sent : List (Nat × Nat)
  inflow : List Inflow
  inbox : List Packet
  closed : Nat
  trig : Bool
  faultCount : Nat
  -- the link into the port (R320, R327): failed sends in a row of each message, named by its sender's core and place; out of service
  linkFails : List ((Nat × Nat) × Nat)
  linkOut : Bool
  -- the context of the launch it last ran, and the dirty bytes of earlier launches that its L1 held at the start of the one it runs, until
  -- the first `SSTEP` writes them back (R162, R322)
  lastCtx : Option (BitVec 12 × Nat × Word)
  carried : List (Nat × List Byte)
  deriving DecidableEq, Repr

/-! ## What pods, dies and the device hold -/

/-- The lane pool of a pod and its shared units (R205, R227, R327). A group is retired, or held by a core. -/
structure Pod where
  retiredGroups : List Nat := []
  reserveOf : Vector Nat 8 := #v[0, 1, 2, 3, 4, 5, 6, 7]
  laneTurn : Nat := 7
  sfuTurn : Nat := 7
  ringTurn : Nat := 7
  groupFaults : Vector Nat 16 := Vector.replicate 16 0
  sfuFaults : Nat := 0
  deriving DecidableEq, Repr

/-- A page walk in flight (R98) with the cores that take its result. -/
structure Walk where
  asid : BitVec 12
  root : Nat
  va : Nat
  cores : List Nat
  deriving DecidableEq, Repr

/-- An entry of a die's L2 (R101, R102, R370): its extent, its partition in the partitioned mode, whether it holds bytes that have not
been written to their memory, the reuse class and stream hint it was installed with (R27). Its bytes are those at the point of coherence, which `State.mem` holds (log entry 17). -/
structure L2Entry where
  start : Nat
  len : Nat
  part : Nat
  dirty : Bool
  cls : RClass := 0
  stream : Bool := false
  deriving DecidableEq, Repr

/-- A die: context word of what runs on it (R149), its L2 (R101), walkers, the counters and pinned extents of hot rows (R103). -/
structure Die where
  ctx : Option Word := none
  l2 : List L2Entry := []
  walks : List Walk := []
  hot : List (Nat × Nat) := []
  pinned : List (Nat × Nat) := []
  gathers : Nat := 0
  deriving DecidableEq, Repr

/-- A group-table entry (R159). -/
structure Group where
  kind : Nat
  axes : List (Nat × Bool)
  members : List Nat
  deriving DecidableEq, Repr

/-- A region-table entry (R257). -/
structure Region where
  base : Nat
  len : Nat
  obj : Nat
  deriving DecidableEq, Repr

/-- A barrier set (R232): phase bit, how many phases have closed, who has arrived in the current phase and in the next. -/
structure BarSet where
  group : Nat
  phase : Bool
  closes : Nat
  cur : List Nat
  next : List Nat
  deriving DecidableEq, Repr

/-- Modes of a gang's residue state (R297). -/
inductive ResMode where
  | full | degraded | off
  deriving DecidableEq, Repr

/-- The residue state of a gang (R297, R312): the map last written, the mask, the counts. -/
structure GangState where
  group : Nat
  mode : ResMode := .full
  prim : BitVec 8 := 0x3F
  chk : BitVec 8 := 0xC0
  mask : BitVec 8 := 0
  counts : Vector Nat 8 := Vector.replicate 8 0
  unlocated : Nat := 0
  rot : Bool := false
  ovf : Bool := false
  retry : Bool := false
  deriving DecidableEq, Repr

/-- An effect on an object held aside until the superstep completes (R324): a hold given up, a hold granted within the squad on an
object that it has given up before, a commit, an advance of TAIL; and what an atomic of the squad has left of bytes on which it acted with
such an effect in place. -/
inductive Aside where
  | rel (pa : Nat) (excl : Bool)
  | hold (pa : Nat) (excl : Bool) (team : Nat)
  | commit (pa idx : Nat)
  | tail (pa n : Nat)
  | word (pa : Nat) (bytes : List Byte)
  deriving DecidableEq, Repr

/-- The unit that makes supersteps together: a launch, or an instance of a pipeline stage (R371). In its superstep `steps`, `told` says that the
linked launches have been told that it is ready, `applied` that its logs have been applied (R231), `committed` that these writes have been
performed and the linked launches told (R259, R344); `rolls` counts the rollbacks that this device has begun. -/
structure Squad where
  stage : Nat
  inst : Nat
  cores : List Nat
  bars : List BarSet := []
  barsProof : List BarSet := []
  gangs : List GangState := []
  aside : List Aside := []
  memUndo : List (Nat × List Byte) := []
  atomBytes : List (Nat × Byte) := []
  subround : Nat := 0
  steps : Nat := 0
  told : Bool := false
  applied : Bool := false
  committed : Bool := false
  rolls : Nat := 0
  parked : Bool := false
  deriving DecidableEq, Repr

/-- A launch or host-command record (R400), field by field. -/
structure Rec where
  kind : Nat := 0
  prio : Nat := 0
  spad : Nat := 0
  nreg : Nat := 0
  nstage : Nat := 0
  die : Nat := 0
  seq : Word := 0
  entry : Nat := 0
  root : Nat := 0
  asid : BitVec 12 := 0
  cset : Nat := 0
  args : Nat := 0
  gtab : Nat := 0
  rtab : Nat := 0
  e : List Nat := []
  g : List Nat := []
  save : Nat := 0
  stride : Nat := 0
  pmax : BitVec 16 := 0
  lmax : BitVec 32 := 0
  thr : BitVec 32 := 0
  jrnl : Nat := 0
  jlen : Nat := 0
  deps : Nat := 0
  ndep : Nat := 0
  pipe : Nat := 0
  devl : Nat := 0
  ctx : Word := 0
  arg0 : Word := 0
  arg1 : Word := 0
  tvec : Word := 0
  deriving DecidableEq, Repr

/-- A stage of a pipeline (R392). -/
structure Stage where
  entry : Nat
  inq : Nat
  outq : Nat
  high : Nat
  maxPods : Nat
  cores : BitVec 8
  start : BitVec 48
  deriving DecidableEq, Repr

/-- Where a launch stands between acceptance and its record (R390, R401, R403). -/
inductive LStatus where
  | waiting | running | ended (status : Nat) (detail : Word)
  deriving DecidableEq, Repr

/-- What another device has told of its part of a linked launch (R344): the supersteps that it was ready to complete, the last with so many
rollbacks known to it, and those whose logs it has applied; how often it has begun a rollback of superstep `step`; that its part has ended. -/
structure Linked where
  dev : Nat
  ready : Nat := 0
  tries : Nat := 0
  applied : Nat := 0
  step : Nat := 0
  rolls : Nat := 0
  ended : Bool := false
  deriving DecidableEq, Repr

/-- A launch or host command the device has accepted. `coreMask`, `links` and `table` are the cores, CHAIN bits and group table
of its first start, `chain`, `team` and `groups` those it runs with (R328). `finished` names the cores whose instances of a pipeline are
over, `carried` the dirty bytes of earlier launches that its cores came with (R162), `linked` what the other devices of its meshes have told (R344). `shown` names the objects whose handover it has made public (R324); when an agent outside it
acts on one, it is exposed (R328). -/
structure Launch where
  record : Rec
  queue : Nat
  order : Nat
  status : LStatus
  held : Bool := false
  gen : Nat := 0
  coreMask : List (Nat × Nat) := []
  links : List (Nat × Nat) := []
  chain : List (Nat × Nat) := []
  team : List Nat := []
  table : List (Nat × Group) := []
  groups : List (Nat × Group) := []
  regions : List Region := []
  producers : List Word := []
  devLists : List (Nat × List Nat) := []
  stages : List Stage := []
  squads : List Squad := []
  finished : List Nat := []
  linked : List Linked := []
  triggered : Bool := false
  exposed : Bool := false
  shown : List Nat := []
  journal : List (Nat × List Byte) := []
  carried : List (Nat × List Byte) := []
  journaled : Bool := false
  rerun : Bool := false
  cycles : Word := 0
  ovf : Bool := false
  degr : Bool := false
  deriving DecidableEq, Repr

/-- The saved image of a core (R387), with its place in the launch. `home` is the number by which the launch knows the core, `place` the
core it returns to: the same, but for an instance of a pipeline (R373). -/
structure Image where
  seq : Word
  squad : Nat
  team : Nat
  home : Nat
  place : Nat
  why : Away
  core : Core
  pins : List (Nat × Nat × RClass)
  deriving DecidableEq, Repr

/-- A request queued at a sync object's home (R281). -/
structure SyncReq where
  pa : Nat
  dev : Nat
  core : Nat
  team : Nat
  seq : Word
  excl : Bool
  granted : Bool
  deriving DecidableEq, Repr

/-- A `CBACQ` queued at its home (R293, R375); once served, its index stands in its core's record. -/
structure CbReq where
  pa : Nat
  dev : Nat
  core : Nat
  team : Nat
  seq : Word
  deriving DecidableEq, Repr

/-- What a squad's proof holds of a placement entry (R340): the squad by stage and instance, STATE and VERSION. -/
structure PlaceProof where
  stage : Nat
  inst : Nat
  state : BitVec 24
  version : BitVec 16
  deriving DecidableEq, Repr

/-- A placement-table entry (R331), with who has arrived at the open cut, whether the cut has closed, how many parts are
written, the bytes read at the close or, once `ready`, to be written (member, address, bytes); which cores have declared it, at their proofs
and since, the values at the proofs of the squads, and the cores that have changed it since their proof (R340). -/
structure Place where
  idx : Nat
  plate : Nat
  handle : Handle
  seq : Word
  busy : Bool := false
  group : Nat
  state : BitVec 24
  version : BitVec 16
  pend : BitVec 24 := 0
  gen : Nat
  declared : List Nat := []
  arrived : List Nat := []
  closed : Bool := false
  ready : Bool := false
  parts : List (Nat × Nat × List Byte) := []
  written : List Nat := []
  flags : BitVec 5 := 0
  proofDeclared : List Nat := []
  proofs : List PlaceProof := []
  changed : List Nat := []
  deriving DecidableEq, Repr

/-- A work-queue block of BAR0 (R396), with the sequence number last accepted (R398). -/
structure Queue where
  idx : Nat
  rbase : Nat := 0
  rlog : BitVec 4 := 0
  cbase : Nat := 0
  clog : BitVec 4 := 0
  en : Bool := false
  pidx : BitVec 32 := 0
  chead : BitVec 32 := 0
  cidx : BitVec 32 := 0
  ctail : BitVec 32 := 0
  last : Option Nat := none
  deriving DecidableEq, Repr

/-- A completion record not yet written (R402, R403). -/
structure Done where
  queue : Nat
  seq : Word
  ord : Nat
  status : Nat
  detail : Word
  ovf : Bool
  degr : Bool
  rerun : Bool
  cycles : Word
  deriving DecidableEq, Repr

/-- The event ring's block (R405). -/
structure EventRing where
  base : Nat := 0
  log : BitVec 4 := 0
  en : Bool := false
  ehead : BitVec 32 := 0
  etail : BitVec 32 := 0
  elost : BitVec 32 := 0
  deriving DecidableEq, Repr

/-- States of a fabric port (R363). -/
inductive PortState where
  | down | training | up | outOfService
  deriving DecidableEq, Repr

/-- A fabric port's status word (R363), its partner, the devices reached through it, and the messages that have failed on its link, in either
direction: the source, the class and the number of each, with its failures in a row (R320). -/
structure Port where
  st : PortState := .down
  lanes : Nat := 0
  partner : Option Nat := none
  reach : List Nat := []
  retry : BitVec 16 := 0
  cmark : BitVec 16 := 0
  failing : List ((Nat × Nat × Nat × Nat) × Nat) := []
  deriving DecidableEq, Repr

/-- What a host port does not support (R369): a partner that needs any of it fails link training. -/
inductive HostFeature where
  | flit68 | hdmH | hdmD | multiLogical | persistent | encryption
  deriving DecidableEq, Repr

/-- A host port (R359, R369): whether its link is up, and whether it was enumerated with CXL.mem and with CXL.cache. -/
structure HostPort where
  up : Bool := true
  mem : Bool := true
  cache : Bool := true
  deriving DecidableEq, Repr

/-- A request in a switch (R364): the switch and the port it came in at, what was forwarded and the constituents it stands for, whether
it has gone on to another switch, and the reply. -/
structure Combined where
  sw : Nat
  port : Nat
  fwd : AtomicReq
  parts : List AtomicReq
  onward : Bool := false
  reply : Option Served := none
  deriving DecidableEq, Repr

/-- The last report a device received of a queue (R372). -/
structure Report where
  pa : Nat
  resv : Nat
  head : Nat
  tail : Nat
  count : Nat
  deriving DecidableEq, Repr

/-- What a home has recorded of bytes that another device holds (R367): the extent, whether they are held in E or M, whether a
coherence message about them is on its way and not replied to (R368). -/
structure Remote where
  dev : Nat
  start : Nat
  len : Nat
  excl : Bool
  asked : Bool := false
  deriving DecidableEq, Repr

/-- A message sent and not yet acknowledged (R360): its number, the launch that sent it, what it carries, and its path (R361): the port it
leaves by, the entropy, whether the path is a Valiant one. -/
structure OutMsg where
  num : Nat
  seq : Option Word
  body : Payload
  port : Option Nat := none
  entropy : BitVec 8 := 0
  valiant : Bool := false
  deriving DecidableEq, Repr

/-- A write of a core of this device, named by team index and launch, that is on its way to the home of its bytes on another device and not
yet performed there (R259, R368). -/
structure FarWrite where
  pa : Nat
  len : Nat
  team : Nat
  seq : Word
  deriving DecidableEq, Repr

/-- A miss, or with `excl` a request for ownership, that another device's home has not answered (R367); `void` once that home has withdrawn
bytes of the extent, so that the answer may be older than the withdrawal (R91, R360). -/
structure Miss where
  start : Nat
  len : Nat
  excl : Bool
  void : Bool := false
  deriving DecidableEq, Repr

/-- A protocol's error response to a refused host write (R406): Completer Abort on CXL.io, a data-error response on CXL.mem. -/
inductive HostError where
  | completerAbort | dataError
  deriving DecidableEq, Repr

/-- A flow from this device (R360, R361): destination, class, the number that its next message takes, its path-entropy field, the
messages not yet acknowledged, and those held back by the limit. -/
structure OutFlow where
  dst : Nat
  cls : Nat
  next : Nat := 0
  entropy : BitVec 8
  unacked : List OutMsg := []
  held : List OutMsg := []
  deriving DecidableEq, Repr

/-- Whose move is next: a core's, an event of the opcode table, or one that has no mnemonic there: the plane engine or the etcher of a core
writes some bytes of its command's result ahead of the others (R201); and from outside the stored copy of a granule can no longer be corrected (R319), the link of a host port trains with a partner that needs some features, and is enumerated with the
protocols it offers (R359, R369), the firmware sets the window of HBM that is exposed to the host, the host reads bytes of that window and
keeps a copy, or gives a copy back with what it has made dirty (R369). -/
inductive Move where
  | issue (c : Nat)
  | event (i : Instr)
  | partWrite (c : Nat)
  | decay (granule : Nat)
  | hostLink (port : Nat) (needs : List HostFeature) (mem cache : Bool)
  | hdm (base len : Nat)
  | hostRead (port a n : Nat) (excl : Bool)
  | hostReply (port a n : Nat) (dirty : List (Nat × List Byte))
  deriving DecidableEq, Repr

/-- The device. Memory is every byte that physical addresses name, keyed as `Ops` says. `cur` is the core whose
instruction `exec` runs; `remotes` is what this device's homes have recorded of other devices' copies, `holding` what other homes have recorded
of this device's, `misses` the requests to them that have not been answered (R367), `farWrites` the writes to them that have not been
performed, `early` what other devices have told of linked launches that have not started here (R344); a host that keeps copies of this
device's HBM stands in `remotes` as number 2,048 + its port, `hostErrors` holds the error responses sent to the hosts (R406) and `controls` the
acknowledgements and negative acknowledgements sent over the links (R320, R360), by port and destination, oldest first;
`image` is the firmware image that the boot ROM has read last (R408); `unwritten` holds the answers that firmware owes once one runs (R407); `agenda` holds the moves that come next, the outside's among them; `tick` counts steps and feeds
the free values. -/
structure State where
  cores : Vector Core 768
  cur : Fin 768
  pods : Vector Pod 96
  dies : Vector Die 2
  mem : Mem
  poison : List Nat
  launches : List Launch
  images : List Image
  syncs : List SyncReq
  cbs : List CbReq
  reports : List Report
  reporting : List Report
  askers : List (Nat × Nat)
  credits : List (Nat × Nat)
  places : List Place
  queues : List Queue
  dones : List Done
  events : EventRing
  ports : Vector Port 16
  hostPorts : Vector HostPort 2
  hdm : Nat × Nat
  switch : List Combined
  replies : List (AtomicReq × Served × Bool)
  flows : List (Nat × Nat × Nat)
  remotes : List Remote
  holding : List Remote
  misses : List Miss
  farWrites : List FarWrite
  hostErrors : List (Nat × HostError)
  controls : List (Nat × Nat × Payload)
  image : Firmware
  unwritten : List (Nat × List Byte)
  sends : List OutFlow
  early : List (Word × Linked)
  fw : Nat
  idok : Bool
  devidx : BitVec 11
  present : List Nat
  power : BitVec 2
  throttled : Bool
  report : List Byte
  gens : Nat
  accepted : Nat
  agenda : List Move
  tick : Nat
  deriving DecidableEq, Repr

/-! ## Reset -/

/-- A context at launch and at reset (R52, R165, R173, R187): everything zero, handles and tiles at their reset values,
`g0` reads true, `fpc` holds RMD 1. -/
def Ctx.reset : Ctx :=
  { regs := Vector.replicate 288 0, guards := 0, pc := 0, depth := 0, loops := Vector.replicate 8 {},
    handles := Vector.replicate 32 {}, fpc := 1, tiles := Vector.replicate 32 {}, ring := Vector.replicate 4 {},
    head := 0, tail := 0, armed := false, prog := 0, counters := Vector.replicate 16 {}, want := 0, mailbox := [],
    resv := [], nextId := Vector.replicate 8 1, holds := [], attached := false }

/-- A core no launch holds (R148). -/
def Core.reset : Core :=
  { phase := .idle, retired := false, launch := none, gen := 0, team := 0, ctx := Ctx.reset, proof := Ctx.reset,
    proofPhase := .idle, proofTrig := false, sys := {}, ident := {}, wait := none, resume := none, waited := 0, retires := 0, pos := 0, stopReq := none, stopped := false, exchanging := false,
    chainPos := 0, replay := [], handed := false, stalled := false, padKiB := 0, pad := [], padUndo := [], pend := [], pendHeld := [],
    pendSeq := 0, sfu := none, reserve := false, shared := [], l1 := [], l1Count := 0, tlb := [],
    memq := [], log := [], atoms := [], atomPos := 0, farAtom := none, cbIdx := [], cbPos := 0, icache := [], plates := [], metas := [],
    copies := [], port := [], plane := [], stats := [], etch := [], order := 0, arrivals := 0,
    arrived := [], faults := [], window := none, sent := [], inflow := [], inbox := [], closed := 0, trig := false,
    faultCount := 0, linkFails := [], linkOut := false, lastCtx := none, carried := [] }

/-- The device right after a cold reset, its firmware still to be checked (R397, R407): no launch, no queue enabled, no index
assigned, every link down, HBM lost, which reads as zero (log entry 1). -/
def State.reset : State :=
  { cores := Vector.replicate 768 Core.reset, cur := 0, pods := Vector.replicate 96 {}, dies := Vector.replicate 2 {},
    mem := [], poison := [], launches := [], images := [], syncs := [], cbs := [], reports := [], reporting := [], askers := [], credits := [], places := [],
    queues := [], dones := [], events := {}, ports := Vector.replicate 16 {}, hostPorts := Vector.replicate 2 {}, hdm := (0, Config.hbm),
    switch := [], replies := [], flows := [], remotes := [], holding := [], misses := [], farWrites := [], hostErrors := [], controls := [], image := {}, unwritten := [], sends := [], early := [], fw := 0, idok := false, devidx := 0, present := [], power := 0,
    throttled := false, report := [], gens := 0, accepted := 0, agenda := [], tick := 0 }

end Sys2Proof.Machine
end

