-- ==== Sys2Proof/Machine/Memory.lean ====
section
/-! DEFINITION. Byte storage in one canonical form, used for memory and for scratchpads: cells with strictly rising
addresses, none equal to what an unlisted address reads as. -/

namespace Sys2Proof.Machine

/-- What an unlisted address reads as: zero. For scratchpads R150; for memory DESIGN CHOICE, unsafe, log entry 1. -/
def Mem.unlisted : Byte := 0

/-- The byte at an address. -/
def Mem.get : Mem → Nat → Byte
  | [], _ => Mem.unlisted
  | (a, b) :: rest, x => if x < a then Mem.unlisted else if x = a then b else Mem.get rest x

/-- Store one byte, keeping the canonical form. -/
def Mem.set : Mem → Nat → Byte → Mem
  | [], x, v => if v = Mem.unlisted then [] else [(x, v)]
  | (a, b) :: rest, x, v =>
    if x < a then (if v = Mem.unlisted then (a, b) :: rest else (x, v) :: (a, b) :: rest)
    else if x = a then (if v = Mem.unlisted then rest else (x, v) :: rest)
    else (a, b) :: Mem.set rest x v

/-- The `n` bytes from an address, lowest first. -/
def Mem.read (m : Mem) (a : Nat) : Nat → List Byte
  | 0 => []
  | n + 1 => m.get a :: Mem.read m (a + 1) n

/-- Store bytes from an address up. -/
def Mem.write (m : Mem) (a : Nat) : List Byte → Mem
  | [] => m
  | b :: bs => Mem.write (m.set a b) (a + 1) bs

/-- Store bytes at the addresses they carry, in order. -/
def Mem.writeAll (m : Mem) : List (Nat × Byte) → Mem
  | [] => m
  | (a, b) :: rest => Mem.writeAll (m.set a b) rest

/-- Storage that holds some bytes from an address up and nothing else. -/
def Mem.ofBytes : Nat → List Byte → Mem
  | _, [] => []
  | a, b :: bs => if b = Mem.unlisted then Mem.ofBytes (a + 1) bs else (a, b) :: Mem.ofBytes (a + 1) bs

/-- The canonical form, all listed addresses at least `lo`. -/
def Mem.wfFrom : Nat → Mem → Bool
  | _, [] => true
  | lo, (a, b) :: rest => decide (lo ≤ a) && b != Mem.unlisted && Mem.wfFrom (a + 1) rest

/-- The canonical form. -/
def Mem.wf (m : Mem) : Bool := Mem.wfFrom 0 m

/-- The address of the 16-byte granule that holds an address. -/
def granuleOf (a : Nat) : Nat := a / 16 * 16

/-- The granules that `n` bytes from `a` touch. -/
def granulesOf (a n : Nat) : List Nat :=
  if n = 0 then [] else (List.range ((a + n - 1) / 16 - a / 16 + 1)).map fun i => (a / 16 + i) * 16

/-- Cut `n` bytes from `a` at multiples of `z`: the pieces, lowest first; `fuel` pieces at most. -/
def cutAt (z : Nat) : Nat → Nat → Nat → List (Nat × Nat)
  | 0, _, _ => []
  | fuel + 1, a, n =>
    if n = 0 then [] else
      let k := min n (z - a % z)
      (a, k) :: cutAt z fuel (a + k) (n - k)

/-- Cut at multiples of `z`. -/
def pieces (z a n : Nat) : List (Nat × Nat) := cutAt z (n / z + 2) a n

end Sys2Proof.Machine
end

