-- ==== Sys2Proof/Machine/L1.lean ====
section
/-! DEFINITION. The L1 range cache as plain functions on its entries (R83 to R93). Each answers the entries afterwards and
the write-backs it made, each a physical address with its bytes, in order. -/

namespace Sys2Proof.Machine

/-- The write-backs of an operation. -/
abbrev Wbs := List (Nat × List Byte)

/-- Length of an entry in bytes (LEN). -/
def L1Entry.len (e : L1Entry) : Nat := e.data.length

/-- The address after an entry's last byte. -/
def L1Entry.stop (e : L1Entry) : Nat := e.start + e.data.length

/-- The L1 set of an address: PA[16:12] (R85). -/
def l1Set (pa : Nat) : Nat := pa / 4096 % 32

/-- Whether an entry holds the byte at an address. -/
def L1Entry.has (e : L1Entry) (pa : Nat) : Bool := e.start ≤ pa && pa < e.stop

/-- Whether an entry holds a byte of an extent. -/
def L1Entry.meets (e : L1Entry) (pa n : Nat) : Bool := e.start < pa + n && pa < e.stop

/-- An entry's dirty bytes as a write-back (R14). -/
def L1Entry.dirty (e : L1Entry) : Wbs :=
  if e.dlen = 0 then [] else [(e.start + e.dstart, (e.data.drop e.dstart).take e.dlen)]

/-- The granules an entry's bytes touch (R86). -/
def granCount (start len : Nat) : Nat := (start + len + 15) / 16 - start / 16

/-- The way that stands for none: an entry that has still to be given a way and granules. -/
def noWay : Nat := 16

/-- The piece of an entry over `[lo, hi)`, its dirty span clipped (R90); a way and granules have still to be given to it. -/
def L1Entry.cut (e : L1Entry) (lo hi : Nat) : L1Entry :=
  let d0 := max (e.start + e.dstart) lo
  let d1 := min (e.start + e.dstart + e.dlen) hi
  { e with start := lo, data := (e.data.drop (lo - e.start)).take (hi - lo), dstart := if d0 < d1 then d0 - lo else 0,
           dlen := d1 - d0, way := noWay, grans := [] }

/-- What an L1 operation sees beside the entries: the size of the scratchpad, which fixes the L1's share of the array (R86), the
access counter (R87), and the extents for which the core has a request outstanding, whose entries are never victims (R87). -/
structure L1Env where
  padKiB : Nat
  count : Nat
  busy : List (Nat × Nat)
  cls : RClass := 0
  stream : Bool := false
  deriving DecidableEq, Repr

/-- With the class and the stream mark of a HINT, which entries that a store makes take (R27). -/
def L1Env.hinted (hint : BitVec 4) (v : L1Env) : L1Env := { v with cls := hint.setWidth 2, stream := hint.getLsbD 3 }

/-- Whether a request is outstanding for an entry. -/
def L1Env.holds (v : L1Env) (e : L1Entry) : Bool := v.busy.any fun b => e.meets b.1 b.2

/-- The lowest-numbered way of a set that no entry holds (R12). -/
def freeWay (es : List L1Entry) (set : Nat) : Option Nat :=
  (List.range 16).find? fun w => !es.any fun e => l1Set e.start == set && e.way == w

/-- The least recently used of some entries; the lower way wins a tie (R87). Of entries of different sets with one STAMP and one way
number R87 names none first: the model takes the first as it lists them (DESIGN CHOICE, log entry 14). -/
def leastRecent : List L1Entry → Option L1Entry
  | [] => none
  | e :: rest =>
    match leastRecent rest with
    | none => some e
    | some r => if r.stamp < e.stamp || (r.stamp == e.stamp && r.way < e.way) then some r else some e

/-- Granules in use. -/
def usedGrans (es : List L1Entry) : List Nat := es.flatMap (·.grans)

/-- The `n` lowest free granules from `base` (DESIGN CHOICE, log entry 14: where an entry lies decides no result). -/
def takeGrans (used : List Nat) (base : Nat) : Nat → Nat → List Nat
  | 0, _ => []
  | _, 0 => []
  | fuel + 1, n + 1 =>
    if used.contains base then takeGrans used (base + 1) fuel (n + 1)
    else base :: takeGrans used (base + 1) fuel n

/-- The granules of the L1's share of the array (R151). -/
def l1Grans (padKiB : Nat) : Nat := Config.granules - padKiB * 64

/-- Whether an entry may be the victim of an operation that protects the entries of `keep` (R87). -/
def L1Env.victim (v : L1Env) (keep : L1Entry → Bool) (e : L1Entry) : Bool := !e.pin && !keep e && !v.holds e

/-- Make room for `n` granules by evicting least recently used entries that may be victims (R87). -/
def makeRoom (share n : Nat) (ok : L1Entry → Bool) : Nat → List L1Entry → Option (List L1Entry × Wbs)
  | 0, es => if (usedGrans es).length + n ≤ share then some (es, []) else none
  | fuel + 1, es =>
    if (usedGrans es).length + n ≤ share then some (es, [])
    else match leastRecent (es.filter ok) with
      | none => none
      | some x =>
        match makeRoom share n ok fuel (es.erase x) with
        | none => none
        | some (es', w) => some (es', x.dirty ++ w)

/-- Put an entry into the L1: in its own way if it has one, else in the lowest free way, else in the way of the set's
least recently used entry that may be a victim (R12, R87). `none`: it finds no way, or no room. -/
def addEntry (v : L1Env) (keep : L1Entry → Bool) (e : L1Entry) (es : List L1Entry) : Option (List L1Entry × Wbs) :=
  let set := l1Set e.start
  let spot : Option (Nat × List L1Entry × Wbs) :=
    if e.way < noWay then some (e.way, es, []) else
    match freeWay es set with
    | some w => some (w, es, [])
    | none =>
      match leastRecent (es.filter fun x => l1Set x.start == set && v.victim keep x) with
      | none => none
      | some x => some (x.way, es.erase x, x.dirty)
  match spot with
  | none => none
  | some (w, es1, wb1) =>
    let n := granCount e.start e.len
    match makeRoom (l1Grans v.padKiB) n (v.victim keep) es1.length es1 with
    | none => none
    | some (es2, wb2) =>
      let used := usedGrans es2
      some ({ e with way := w, grans := takeGrans used (v.padKiB * 64) (n + used.length) n } :: es2, wb1 ++ wb2)

/-- What placing entries leaves: the entries, the write-backs of what was evicted, and those that found no way. -/
structure Placed1 where
  es : List L1Entry
  wbs : Wbs := []
  lost : List L1Entry := []
  deriving DecidableEq, Repr

/-- Place entries one after another (R12). -/
def placeAll (v : L1Env) (keep : L1Entry → Bool) : List L1Entry → List L1Entry → Placed1
  | [], es => { es := es }
  | p :: ps, es =>
    match addEntry v keep p es with
    | some (es1, w1) => let r := placeAll v keep ps es1; { r with wbs := w1 ++ r.wbs }
    | none => let r := placeAll v keep ps es; { r with lost := p :: r.lost }

/-- The pieces of an entry, lowest first, those without bytes left out: the lowest keeps the entry's way (R12, R90). -/
def seats (e : L1Entry) (ps : List L1Entry) : List L1Entry :=
  match ps.filter (!·.data.isEmpty) with
  | [] => []
  | p :: rest => { p with way := e.way } :: rest

/-- Whether an entry is a piece of `e`: none is the victim of another (R12). -/
def L1Entry.within (e x : L1Entry) : Bool := e.start ≤ x.start && x.start < e.stop

/-- Replace an entry by pieces, lowest first (R12, R90). The pieces of a pinned entry are pinned, more ways and granules though they take:
the limits of R86 and R93 are those of a pin, and no rule says that a split keeps to them (DESIGN CHOICE, log entry 118). -/
def splitInto (v : L1Env) (e : L1Entry) (ps : List L1Entry) (es : List L1Entry) : Placed1 :=
  placeAll v e.within (seats e ps) (es.erase e)

/-- Split an entry around a middle piece that is never dropped (R12): where it finds no way it takes that of the piece below, which
is dropped, clean as it is. -/
def splitKeeping (v : L1Env) (e mid : L1Entry) (es : List L1Entry) : List L1Entry × Wbs :=
  let below := e.cut e.start mid.start
  let above := e.cut mid.stop e.stop
  let r := splitInto v e [below, mid, above] es
  if r.lost.any (·.start == mid.start) then
    let r' := splitInto v e [mid, above] es
    (r'.es, below.dirty ++ r'.wbs ++ r'.lost.flatMap (·.dirty))
  else (r.es, r.wbs ++ r.lost.flatMap (·.dirty))

/-- Whether the upper entry coalesces onto the lower one (R13). -/
def joinable (a b : L1Entry) : Bool :=
  a.stop == b.start && a.start / 4096 == b.start / 4096 && a.st == b.st && a.cls == b.cls && !a.pin && !b.pin
    && (a.dlen == 0 || b.dlen == 0 || (a.dstart + a.dlen == a.len && b.dstart == 0))

/-- Two adjacent entries merged (R13). Whether the merge of a stream-hinted entry with an ordinary one is one whose hits leave STAMP as it
is (R87), R13 does not say: it is where both are (DESIGN CHOICE, log entry 100). -/
def joined (a b : L1Entry) : L1Entry :=
  { a with data := a.data ++ b.data, stamp := max a.stamp b.stamp, stream := a.stream && b.stream,
           dstart := if a.dlen = 0 then (if b.dlen = 0 then 0 else a.len + b.dstart) else a.dstart,
           dlen := a.dlen + b.dlen, grans := (a.grans ++ b.grans).take (granCount a.start (a.len + b.len)) }

/-- Coalesce until no pair is left (R13). Which of two pairs that share an entry merges first, when only one of them can, R13 does not
say: the model takes the first as it lists the entries (DESIGN CHOICE, log entry 100). -/
def coalesce : Nat → List L1Entry → List L1Entry
  | 0, es => es
  | fuel + 1, es =>
    match es.findSome? fun a => (es.find? fun b => joinable a b).map fun b => (a, b) with
    | none => es
    | some (a, b) => coalesce fuel (joined a b :: (es.erase a).erase b)

/-- Coalesce, after write-backs collected so far. -/
def settle (r : List L1Entry × Wbs) : List L1Entry × Wbs := (coalesce r.1.length r.1, r.2)

/-- The stamp of an install or hit (R87); below zero it stays 0 (log entry 14). -/
def stampOf (count : Nat) (cls : RClass) (stream : Bool) : Nat :=
  if stream then 0 else
  match cls.toNat with
  | 0 => count
  | 1 => count - 256
  | 2 => count + 256
  | _ => count + 1024

/-- The maximal stretches of an extent that no entry covers (R10). -/
def gaps (es : List L1Entry) : Nat → Nat → List (Nat × Nat)
  | _, 0 => []
  | pa, n + 1 =>
    let rest := gaps es (pa + 1) n
    if es.any (·.has pa) then rest else
    match rest with
    | (a, k) :: more => if a = pa + 1 then (pa, k + 1) :: more else (pa, 1) :: rest
    | [] => [(pa, 1)]

/-- Run a step on each entry that stands when its turn comes. -/
def eachEntry (hit : L1Entry → Bool) (f : L1Entry → List L1Entry → List L1Entry × Wbs) (es : List L1Entry) : List L1Entry × Wbs :=
  settle <| es.foldl (init := (es, [])) fun r e =>
    if hit e && r.1.contains e then let q := f e r.1; (q.1, r.2 ++ q.2) else r

/-- Take what the home's Invalidate of an extent takes (R90): pieces inside removed, dirty bytes written back; a piece that finds no
way is written back and dropped. -/
def invalidateL1 (v : L1Env) (pa n : Nat) (es : List L1Entry) : List L1Entry × Wbs :=
  eachEntry (·.meets pa n) (fun e es =>
    let lo := max e.start pa
    let hi := min e.stop (pa + n)
    let r := splitInto v e [e.cut e.start lo, e.cut hi e.stop] es
    (r.es, (e.cut lo hi).dirty ++ r.wbs ++ r.lost.flatMap (·.dirty))) es

/-- Take what the home's Downgrade of an extent takes (R90): pieces inside become clean S. -/
def downgradeL1 (v : L1Env) (pa n : Nat) (es : List L1Entry) : List L1Entry × Wbs :=
  eachEntry (fun e => e.meets pa n && e.st != .s) (fun e es =>
    let lo := max e.start pa
    let hi := min e.stop (pa + n)
    let inside := e.cut lo hi
    let r := splitInto v e [e.cut e.start lo, { inside with st := .s, dstart := 0, dlen := 0 }, e.cut hi e.stop] es
    (r.es, inside.dirty ++ r.wbs ++ r.lost.flatMap (·.dirty))) es

/-- An entry with the bytes of a fill, a way and granules still to be given to it. -/
def filled (v : L1Env) (cls : RClass) (stream : Bool) (st : L1State) (f : Nat × List Byte) : L1Entry :=
  { start := f.1, data := f.2, st := st, dstart := 0, dlen := 0, cls := cls, pin := false,
    stamp := stampOf v.count cls stream, stream := stream, way := noWay, grans := [] }

/-- Place entries one after another, coalescing after each (R10, R13). -/
def placeEach (v : L1Env) : List L1Entry → List L1Entry → Placed1
  | [], es => { es := es }
  | p :: ps, es =>
    match addEntry v (fun _ => false) p es with
    | some (es1, w1) => let r := placeEach v ps (coalesce es1.length es1); { r with wbs := w1 ++ r.wbs }
    | none => let r := placeEach v ps es; { r with lost := p :: r.lost }

/-- Install fills: each gap of an extent becomes an entry of the given state with the bytes the home gave (R10, R88); the victims are
those of R87. -/
def installL1 (v : L1Env) (cls : RClass) (stream : Bool) (st : L1State) (fills : List (Nat × List Byte)) (es : List L1Entry) : Placed1 :=
  placeEach v (fills.map (filled v cls stream st)) es

/-- Whether entries that found no way or no room must wait for one: an entry that is not pinned is no victim only because a request is
outstanding for it (R87). -/
def Placed1.waits (v : L1Env) (r : Placed1) (lost : List L1Entry) : Bool := !lost.isEmpty && r.es.any fun e => !e.pin && v.holds e

/-- A hit: the stamps of the entries an access touches (R87). -/
def touchL1 (count pa n : Nat) (es : List L1Entry) : List L1Entry :=
  es.map fun e => if e.meets pa n && !e.stream then { e with stamp := stampOf count e.cls false } else e

/-- Write bytes into an entry's data at an address inside it. -/
def L1Entry.put (e : L1Entry) (pa : Nat) (bs : List Byte) : L1Entry :=
  { e with data := e.data.take (pa - e.start) ++ bs ++ e.data.drop (pa - e.start + bs.length) }

/-- Write those of some bytes that an entry holds. -/
def L1Entry.patch (e : L1Entry) (pa : Nat) (bs : List Byte) : L1Entry :=
  if e.meets pa bs.length then
    let lo := max e.start pa
    e.put lo ((bs.drop (lo - pa)).take (min e.stop (pa + bs.length) - lo))
  else e

/-- A store of owned bytes into one entry that holds them all, exclusively or in M (R88, R89). Where a dirty span apart from the bytes
should split the entry and the upper piece finds no way, the span is written back first, as in a pinned entry (DEDUCED: no
dirty piece is dropped; log entry 101). -/
def storeEntry (v : L1Env) (e : L1Entry) (pa : Nat) (bs : List Byte) (es : List L1Entry) : List L1Entry × Wbs :=
  let w := pa - e.start
  let e1 := { e.put pa bs with st := .m }
  let anew : List L1Entry × Wbs := ({ e1 with dstart := w, dlen := bs.length } :: es.erase e, e.dirty)
  if e.dlen = 0 then ({ e1 with dstart := w, dlen := bs.length } :: es.erase e, [])
  else if w ≤ e.dstart + e.dlen && e.dstart ≤ w + bs.length then
    let lo := min w e.dstart
    ({ e1 with dstart := lo, dlen := max (w + bs.length) (e.dstart + e.dlen) - lo } :: es.erase e, [])
  else if e.pin then anew
  else
    let lowW := w < e.dstart
    let mid := if lowW then e.start + w + bs.length else e.start + e.dstart + e.dlen
    let p := e1.cut e.start mid
    let q := e1.cut mid e.stop
    let fix := fun (x : L1Entry) => { x with dstart := pa - x.start, dlen := bs.length }
    let r := splitInto v e (if lowW then [fix p, q] else [p, fix q]) es
    if r.lost.isEmpty then (r.es, r.wbs) else anew

/-- A store of bytes whose ownership the home has granted, over one stretch that lies in one entry or in none
(R12, R88, R89). Bytes of no entry that find no way, all being pinned or waited for, make none: the caller sends them to their home (DESIGN
CHOICE, log entry 118). -/
def storeStretch (v : L1Env) (pa : Nat) (bs : List Byte) (es : List L1Entry) : Placed1 :=
  let fresh (e : L1Entry) : L1Entry := { e with data := bs, st := .m, dstart := 0, dlen := bs.length }
  match es.find? (·.has pa) with
  | none =>
    let e := fresh (filled v v.cls v.stream .m (pa, bs))
    match addEntry v (fun _ => false) e es with
    | some r => { es := r.1, wbs := r.2 }
    | none => { es := es, lost := [e] }
  | some e =>
    let r := match e.st with
      | .s => splitKeeping v e (fresh (e.cut pa (pa + bs.length))) es
      | _ => storeEntry v e pa bs es
    { es := r.1, wbs := r.2 }

/-- Cut a store at the boundaries of the entries it meets (R88); `fuel` stretches at most. -/
def stretches (es : List L1Entry) : Nat → Nat → List Byte → List (Nat × List Byte)
  | 0, _, _ => []
  | fuel + 1, pa, bs =>
    if bs.isEmpty then [] else
    let k := match es.find? (·.has pa) with
      | some e => min bs.length (e.stop - pa)
      | none => ((List.range bs.length).takeWhile fun i => !es.any (·.has (pa + i))).length
    (pa, bs.take k) :: stretches es fuel (pa + k) (bs.drop k)

/-- A store of owned bytes (within one zone), stretch by stretch. -/
def storeAll (v : L1Env) (pa : Nat) (bs : List Byte) (es : List L1Entry) : Placed1 :=
  (stretches es bs.length pa bs).foldl (init := { es := touchL1 v.count pa bs.length es }) fun r p =>
    let q := storeStretch v p.1 p.2 r.es
    { es := q.es, wbs := r.wbs ++ q.wbs, lost := r.lost ++ q.lost }

/-- A store of owned bytes. In a set whose ways are all pinned the bytes of a stretch that no entry holds go to their home (DESIGN CHOICE, log
entry 118). -/
def storeL1 (v : L1Env) (pa : Nat) (bs : List Byte) (es : List L1Entry) : List L1Entry × Wbs :=
  let r := storeAll v pa bs es
  settle (r.es, r.wbs ++ r.lost.flatMap (·.dirty))

/-- Whether every byte of an extent is held in E or M. -/
def ownedL1 (pa n : Nat) (es : List L1Entry) : Bool :=
  (List.range n).all fun i => es.any fun e => e.has (pa + i) && e.st != .s

/-- Make an extent owned and clean where it was not held exclusively: its S bytes become E, split as R12 (R88). -/
def ownL1 (v : L1Env) (pa n : Nat) (es : List L1Entry) : List L1Entry × Wbs :=
  eachEntry (fun e => e.meets pa n && e.st == .s) (fun e es =>
    splitKeeping v e { e.cut (max e.start pa) (min e.stop (pa + n)) with st := .e } es) es

/-- `RFLUSH` of one piece (R14, R108). -/
def flushL1 (m : Flush) (pa n : Nat) (es : List L1Entry) : List L1Entry × Wbs :=
  let wb := (es.filter (·.meets pa n)).flatMap (·.dirty)
  let es' := es.filterMap fun e =>
    if !e.meets pa n then some e else
    let clean := { e with dstart := 0, dlen := 0, st := if e.st == .m then .e else e.st }
    match m with
    | .keep => some clean
    | .s => some { clean with st := .s }
    | .i => if e.pin then some { clean with st := .s } else none
  (coalesce es'.length es', wb)

/-- `RDROP` of one piece (R108). -/
def dropL1 (pa n : Nat) (es : List L1Entry) : List L1Entry × Wbs :=
  let hit := es.filter fun e => e.meets pa n && !e.pin
  (es.filter fun e => !(e.meets pa n && !e.pin),
   hit.flatMap fun e => (e.cut e.start (max e.start pa)).dirty ++ (e.cut (min e.stop (pa + n)) e.stop).dirty)

/-- `RUNPIN` of one piece (R108). -/
def unpinL1 (pa n : Nat) (es : List L1Entry) : List L1Entry :=
  let es' := es.map fun e => if e.meets pa n then { e with pin := false } else e
  coalesce es'.length es'

/-- The granules that pinned entries occupy: PUSED (R94). -/
def pinnedGrans (es : List L1Entry) : Nat := (usedGrans (es.filter (·.pin))).length

/-- The entries once an extent is held and pinned with class `cls` (R109), ways and granules apart: its gaps are filled as `PREF` or, with
`x`, `PREF.x` would, entries coalesce, those of the extent are split at its bounds and pinned. -/
def pinPlan (v : L1Env) (x : Bool) (cls : RClass) (pa n : Nat) (fills : List (Nat × List Byte)) (es : List L1Entry) : List L1Entry :=
  let owned := if x then es.flatMap fun e =>
      if e.meets pa n && e.st == .s then
        seats e [e.cut e.start (max e.start pa), { e.cut (max e.start pa) (min e.stop (pa + n)) with st := .e },
                 e.cut (min e.stop (pa + n)) e.stop]
      else [e]
    else es
  let all := fills.map (filled v cls false (if x then .e else .s)) ++ owned
  (coalesce all.length all).flatMap fun e =>
    if !e.meets pa n then [e]
    else if pa ≤ e.start && e.stop ≤ pa + n then [{ e with pin := true, cls := cls }]
    else seats e [e.cut e.start (max e.start pa), { e.cut (max e.start pa) (min e.stop (pa + n)) with pin := true, cls := cls },
                  e.cut (min e.stop (pa + n)) e.stop]

/-- Whether an entry has the granules that its bytes need. -/
def L1Entry.seated (e : L1Entry) : Bool := e.way < noWay && e.grans.length == granCount e.start e.len

/-- Fill and pin an extent (R109): entries of the plan that stand stay; the others are placed, those with a way first, then the
pinned ones, none of the extent being a victim. -/
def pinL1 (v : L1Env) (x : Bool) (cls : RClass) (pa n : Nat) (fills : List (Nat × List Byte)) (es : List L1Entry) : Placed1 :=
  let plan := pinPlan v x cls pa n fills es
  let open' := plan.filter (!·.seated)
  let order := open'.filter (·.way < noWay) ++ open'.filter (fun e => noWay ≤ e.way && e.pin)
    ++ open'.filter fun e => noWay ≤ e.way && !e.pin
  placeAll v (fun e => e.pin || e.meets pa n) order (plan.filter (·.seated))

/-- Write back every dirty byte and leave the entries clean, M becoming E (R322). -/
def cleanL1 (es : List L1Entry) : List L1Entry × Wbs :=
  let es' := es.map fun e => { e with dstart := 0, dlen := 0, st := if e.st == .m then .e else e.st }
  (coalesce es'.length es', es.flatMap (·.dirty))

/-- Write back every dirty byte and invalidate every entry (R96, R102, R162). -/
def emptyL1 (es : List L1Entry) : List L1Entry × Wbs := ([], es.flatMap (·.dirty))

/-- The pinned entries of the set of an address. -/
def pinnedWays (pa : Nat) (es : List L1Entry) : Nat := (es.filter fun e => l1Set e.start == l1Set pa && e.pin).length

/-- The granules of the pinned entries of a plan. -/
def plannedGrans (es : List L1Entry) : Nat := ((es.filter (·.pin)).map fun e => granCount e.start e.len).foldl (· + ·) 0

end Sys2Proof.Machine
end

