-- ==== Sys2Proof/Machine/L2.lean ====
section
/-! DEFINITION. The L2 of a die as plain functions on its entries (R101, R102, R103, R370). The bytes of an entry are those at the point
of coherence, so an operation here changes no byte (log entry 17). -/

namespace Sys2Proof.Machine

/-- The unit on whose boundaries L2 entries start and end: 16 bytes for HBM (R101), 64 beyond a host port (R370). -/
def l2Unit (key : Nat) : Nat := if key / 2 ^ 52 = 0 then 16 else 64

/-- The pieces of an extent as L2 entries hold them: whole units within a zone, beyond a host port within one unit. -/
def l2Pieces (pa n : Nat) : List (Nat × Nat) :=
  let u := l2Unit pa
  let a := pa / u * u
  pieces (if u = 16 then 4096 else u) a (ceilDiv (pa + n) u * u - a)

/-- Whether an entry holds a byte of an extent. -/
def L2Entry.meets (e : L2Entry) (pa n : Nat) : Bool := overlap e.start e.len pa n

/-- The maximal stretches of `k` units from an address that no entry covers. -/
def l2Gaps (es : List L2Entry) (u : Nat) : Nat → Nat → List (Nat × Nat)
  | _, 0 => []
  | a, k + 1 =>
    let rest := l2Gaps es u (a + u) k
    if es.any (·.meets a u) then rest else
    match rest with
    | (b, n) :: more => if b = a + u then (a, n + u) :: more else (a, u) :: rest
    | [] => [(a, u)]

/-- Keep the entries of a partition, newest first, while they fit its capacity; the others leave (log entry 102). -/
def l2Fit (part : Nat) : Nat → List L2Entry → List L2Entry
  | _, [] => []
  | room, e :: es =>
    if e.part != part then e :: l2Fit part room es
    else if e.len ≤ room then e :: l2Fit part (room - e.len) es
    else l2Fit part room es

/-- Whether a HINT asks that no entry be allocated (R27). -/
def hintNoAlloc (hint : BitVec 4) : Bool := hint.getLsbD 2

/-- Whether a HINT marks a stream, which the caches replace first (R27). -/
def hintStream (hint : BitVec 4) : Bool := hint.getLsbD 3

/-- A piece of an extent comes into a partition, or is written there; with the stream hint it is the first to leave, with no-allocate
it makes no entry (R27). -/
def l2Put (part room : Nat) (dirty : Bool) (hint : BitVec 4) (es : List L2Entry) (z : Nat × Nat) : List L2Entry :=
  let here := es.filter (·.part == part)
  let new := if hintNoAlloc hint then [] else (l2Gaps here (l2Unit z.1) z.1 (z.2 / l2Unit z.1)).map fun g =>
    { start := g.1, len := g.2, part := part, dirty := dirty, cls := hint.setWidth 2, stream := hintStream hint : L2Entry }
  let old := es.map fun e => if e.part == part && dirty && e.meets z.1 z.2 then { e with dirty := true } else e
  let kept := old.filter (!·.stream)
  let late := old.filter (·.stream)
  l2Fit part room (if hintStream hint then kept ++ new ++ late else new ++ kept ++ late)

/-- Remove an extent's units from the entries (R370). -/
def l2Drop (pa n : Nat) (es : List L2Entry) : List L2Entry :=
  let u := l2Unit pa
  let a := pa / u * u
  let b := ceilDiv (pa + n) u * u
  es.flatMap fun e =>
    if !e.meets a (b - a) then [e]
    else ([{ e with len := a - e.start }, { e with start := b, len := e.start + e.len - b }] : List L2Entry).filter (0 < ·.len)

/-- An extent's dirty bytes are written to their memory. -/
def l2Clean (pa n : Nat) (es : List L2Entry) : List L2Entry := es.map fun e => if e.meets pa n then { e with dirty := false } else e

/-- Whether the L2 runs in its partitioned mode (R102, R400). -/
def Die.parted (x : Die) : Bool := bitAt (x.ctx.getD 0).toNat 0

/-- The threshold T of a die's context (R103, R400). -/
def Die.threshold (x : Die) : Nat := let t := field (x.ctx.getD 0).toNat 5 8; if t = 0 then 64 else t

/-- The size of the hot-row partition in bytes. -/
def Die.hotSize (x : Die) : Nat := field (x.ctx.getD 0).toNat 1 4 * 2 ^ 24

/-- The bytes that a partition of the L2 holds: of 12 pods, or the whole less its hot rows (R102, R103). -/
def Die.room (x : Die) : Nat := if x.parted then 2 ^ 28 else 2 ^ 30 - x.hotSize

/-- An extent comes into a partition of the L2, or is written there, with a HINT (R27). -/
def Die.hold (part : Nat) (dirty : Bool) (hint : BitVec 4) (pa n : Nat) (x : Die) : Die :=
  { x with l2 := (l2Pieces pa n).foldl (l2Put part x.room dirty hint) x.l2 }

end Sys2Proof.Machine
end

