-- ==== Sys2Proof/Machine/Rings.lean ====
section
/-! DEFINITION. The words of sync objects (R280 to R282) and circular-buffer objects (R290 to R293), and what an effect held aside does
to them (R324). -/

namespace Sys2Proof.Machine

/-! ## Sync objects -/

/-- Whether a word is one that `ACQ` and `REL` act on (R280). -/
def syncValid (w : Nat) : Bool := field w 26 6 == 0 && !(bitAt w 24 && field w 0 24 != 0)

/-- Whether a hold can be granted on a word (R281). -/
def syncFree (w : Nat) (excl : Bool) : Bool := !bitAt w 24 && (!excl || field w 0 24 == 0)

/-- The word with a hold more. -/
def syncHeld (w : Nat) (excl : Bool) (team : Nat) : Nat :=
  if excl then packFields [(24, 0), (1, 1), (1, field w 25 1), (6, 0), (32, team)]
  else packFields [(24, field w 0 24 + 1), (1, 0), (1, field w 25 1), (6, 0), (32, 0)]

/-- The word with QW as asked. -/
def syncQueued (w : Nat) (q : Bool) : Nat := packFields [(25, field w 0 25), (1, b1 q), (38, field w 26 38)]

/-- The word after a holder has left (R282). -/
def syncReleased (w : Nat) (excl : Bool) : Nat :=
  if excl then packFields [(24, field w 0 24), (1, 0), (1, field w 25 1), (6, field w 26 6), (32, 0)]
  else packFields [(24, (field w 0 24 + 2 ^ 24 - 1) % 2 ^ 24), (40, field w 24 40)]

/-- The word after an effect held aside. -/
def syncApply (pa : Nat) (w : Nat) : Aside → Nat
  | .rel p x => if p = pa then syncReleased w x else w
  | .hold p x t => if p = pa then syncHeld w x t else w
  | .commit _ _ | .tail _ _ | .word _ _ => w

/-! ## Circular buffers -/

/-- A circular-buffer object (R290). -/
structure Ring where
  size : Nat
  count : Nat
  epoch : Nat
  resv : Nat
  head : Nat
  tail : Nat
  cmt : Nat
  zeros : Bool
  deriving DecidableEq, Repr

/-- Read an object's 1,024 bits (R290). -/
def Ring.of (w : Nat) : Ring :=
  { size := field w 0 32, count := field w 32 8, epoch := field w 40 16, resv := field w 64 64, head := field w 128 64,
    tail := field w 192 64, cmt := field w 256 256, zeros := field w 56 8 == 0 && field w 512 512 == 0 }

/-- The bits of an object. -/
def Ring.bits (r : Ring) : Nat :=
  packFields [(32, r.size), (8, r.count), (16, r.epoch), (8, 0), (64, r.resv), (64, r.head), (64, r.tail), (256, r.cmt)]

/-- Whether SIZE and COUNT lie in their ranges (R290). -/
def ringSizes (size count : Nat) : Bool := 16 ≤ size && size ≤ 2 ^ 24 && size % 16 == 0 && 1 ≤ count && count ≤ 255

/-- Whether an object is one that the instructions act on (R290). -/
def Ring.valid (r : Ring) : Bool :=
  ringSizes r.size r.count && r.zeros && r.head ≤ r.resv && r.tail ≤ r.head && r.resv - r.tail ≤ r.count

/-- Advance HEAD over committed stages (R293). -/
def Ring.advance : Nat → Ring → Ring
  | 0, r => r
  | fuel + 1, r =>
    let k := r.head % max 1 r.count
    if bitAt r.cmt k then Ring.advance fuel { r with cmt := r.cmt - 2 ^ k, head := r.head + 1 } else r

/-- Commit an index (R293). -/
def Ring.commit (i : Nat) (r : Ring) : Ring :=
  let k := i % max 1 r.count
  Ring.advance 256 { r with cmt := if bitAt r.cmt k then r.cmt else r.cmt + 2 ^ k }

/-- Apply an advance that is held aside. -/
def Ring.apply (pa : Nat) (r : Ring) : Aside → Ring
  | .commit p i => if p = pa then r.commit i else r
  | .tail p n => if p = pa then { r with tail := r.tail + n } else r
  | .rel _ _ | .hold _ _ _ | .word _ _ => r

/-! ## Effects held aside (R324) -/

/-- The object that an effect acts on. -/
def Aside.pa : Aside → Nat
  | .rel p _ | .hold p _ _ | .commit p _ | .tail p _ | .word p _ => p

/-- How many bytes from there on the effect concerns. -/
def Aside.size : Aside → Nat
  | .rel _ _ | .hold _ _ _ => 8
  | .commit _ _ | .tail _ _ => 128
  | .word _ bs => bs.length

/-- Whether an effect acts on a sync object. -/
def Aside.sync : Aside → Bool
  | .rel _ _ | .hold _ _ _ => true
  | .commit _ _ | .tail _ _ | .word _ _ => false

/-- Memory as those see it for whom an effect has taken place already. -/
def Aside.on (m : Mem) (a : Aside) : Mem :=
  match a with
  | .word pa bs => m.write pa bs
  | _ =>
    if a.sync then m.write a.pa (bytesLE 8 (syncApply a.pa (ofBytesLE (m.read a.pa 8)) a))
    else m.write a.pa (bytesLE 64 (Ring.apply a.pa (Ring.of (ofBytesLE (m.read a.pa 128))) a).bits)

end Sys2Proof.Machine
end

