-- ==== Sys2Proof/Machine/Ops.lean ====
section
/-! DEFINITION. The named operations over the state: cores, registers, guards, the slot counter, homes and coherence,
event records, the end and the rollback of a launch, taking a trap and returning from it. -/

namespace Sys2Proof.Machine

/-! ## Cores -/

/-- The core whose instruction runs. -/
def State.core (s : State) : Core := s.cores[s.cur]

/-- Put the running core back. -/
def State.setCore (s : State) (c : Core) : State := { s with cores := s.cores.set s.cur c }

/-- Core number `i` (8 × pod + `id.core`). -/
def State.at (s : State) (i : Nat) : Core := if h : i < 768 then s.cores[i] else Core.reset

/-- Replace core number `i`. -/
def State.put (s : State) (i : Nat) (c : Core) : State := { s with cores := s.cores.setIfInBounds i c }

/-- Change core number `i`. -/
def State.on (s : State) (i : Nat) (f : Core → Core) : State := s.put i (f (s.at i))

/-- Change the running core. -/
def State.upd (s : State) (f : Core → Core) : State := s.setCore (f s.core)

/-- Change the running core's proof-recorded context. -/
def Core.updCtx (c : Core) (f : Ctx → Ctx) : Core := { c with ctx := f c.ctx }

/-- Change the running core's other registers. -/
def Core.updSys (c : Core) (f : Sys → Sys) : Core := { c with sys := f c.sys }

/-- The pod a core lies in. -/
def podOf (core : Nat) : Nat := core / 8

/-- The die a core lies on (R159). -/
def dieOf (core : Nat) : Nat := core / 384

/-! ## Scalars and guards -/

/-- Where a scalar name resolves (R51): global, argument or private frame. -/
def scalarIndex (depth n : Nat) : Nat :=
  if n < 16 then n
  else if n < 32 then (if depth = 0 then n else 32 + 32 * (depth - 1) + n)
  else 32 * depth + n

/-- Read a scalar (R51, R378): `s0` reads zero; in supervisor mode `s32` to `s63` name the supervisor frame. -/
def Core.getS (c : Core) (n : SReg) : Word :=
  if n = 0 then 0
  else if c.sys.sup && 32 ≤ n.toNat then c.sys.supFrame.getD (n.toNat - 32) 0
  else c.ctx.regs.getD (scalarIndex c.ctx.depth n.toNat) 0

/-- Write a scalar (R51, R378): a write to `s0` is discarded (R22). -/
def Core.setS (c : Core) (n : SReg) (v : Word) : Core :=
  if n = 0 then c
  else if c.sys.sup && 32 ≤ n.toNat then
    { c with sys := { c.sys with supFrame := c.sys.supFrame.setIfInBounds (n.toNat - 32) v } }
  else { c with ctx := { c.ctx with regs := c.ctx.regs.setIfInBounds (scalarIndex c.ctx.depth n.toNat) v } }

/-- Read a guard: `g0` reads true (R21). -/
def Core.getG (c : Core) (n : GReg) : Bool := n = 0 || c.ctx.guards.getLsbD n.toNat

/-- Write a guard: a write to `g0` is discarded (R22). -/
def Core.setG (c : Core) (n : GReg) (v : Bool) : Core :=
  if n = 0 then c else
    let m : BitVec 16 := 1#16 <<< n.toNat
    { c with ctx := { c.ctx with guards := if v then c.ctx.guards ||| m else c.ctx.guards &&& ~~~m } }

/-- The guard condition of the 64- and 96-bit formats (R21). -/
def Core.guard (c : Core) (h : Hd) : Bool := c.getG h.g != h.gn

/-- The guard condition of the 128-bit format (R25). -/
def Core.guardX (c : Core) (h : Hx) : Bool :=
  match h.gop.toNat with
  | 0 => c.getG h.ga
  | 1 => c.getG h.ga && c.getG h.gb
  | 2 => c.getG h.ga || c.getG h.gb
  | _ => c.getG h.ga && !c.getG h.gb

/-- Read a handle register. -/
def Core.getH (c : Core) (n : HReg) : Handle := c.ctx.handles[n.toNat]'n.isLt

/-- Write a handle register. -/
def Core.setH (c : Core) (n : HReg) (h : Handle) : Core :=
  { c with ctx := { c.ctx with handles := c.ctx.handles.set n.toNat h n.isLt } }

/-! ## Slots -/

/-- Complete an instruction: the next program counter, its slot and its delay slots (R19), the cycles that passed
(log entry 5); the wait it may have made is over. -/
def Core.retire (dly : Nat) (npc : Word) (stall : Nat) (c : Core) : Core :=
  { c with ctx := { c.ctx with pc := npc },
           sys := { c.sys with slots := c.sys.slots + 1 + BitVec.ofNat 64 dly,
                               cyc := c.sys.cyc + BitVec.ofNat 64 (1 + dly + stall) },
           wait := none, waited := 0, stalled := false, handed := false, retires := c.retires + 1, pos := c.pos + 1 }

/-- Honour the delay slots still owed, before the next instruction issues (R19, R382). -/
def Core.honour (c : Core) : Core :=
  { c with sys := { c.sys with slots := c.sys.slots + BitVec.ofNat 64 c.sys.owed,
                               cyc := c.sys.cyc + BitVec.ofNat 64 c.sys.owed, owed := 0 } }

/-- Complete the running core's instruction. -/
def State.retire (dly : Nat) (npc : Word) (s : State) : State :=
  s.upd (Core.retire dly npc (Config.stallCycles s.tick))

/-! ## Launches and squads -/

/-- A launch by its sequence number. -/
def State.launch (s : State) (seq : Word) : Option Launch := s.launches.find? fun l => l.record.seq == seq

/-- The launch a core belongs to. -/
def State.launchOf (s : State) (i : Nat) : Option Launch :=
  (s.at i).launch.bind s.launch

/-- Change a launch by its sequence number. -/
def State.updLaunch (s : State) (seq : Word) (f : Launch → Launch) : State :=
  { s with launches := s.launches.map fun l => if l.record.seq == seq then f l else l }

/-- The squad of a core within its launch. -/
def Launch.squadOf (l : Launch) (i : Nat) : Option Squad := l.squads.find? fun q => q.cores.contains i

/-- The squad of a core. -/
def State.squadOf (s : State) (i : Nat) : Option Squad := (s.launchOf i).bind (·.squadOf i)

/-- Change the squad of the member of a launch at core `i`, resident or away. -/
def State.updSquadOf (s : State) (seq : Word) (i : Nat) (f : Squad → Squad) : State :=
  s.updLaunch seq fun l => { l with squads := l.squads.map fun x => if x.cores.contains i then f x else x }

/-- Change the squad of a core. -/
def State.updSquad (s : State) (i : Nat) (f : Squad → Squad) : State :=
  match (s.at i).launch with
  | none => s
  | some q => s.updSquadOf q i f

/-- The barrier set of a group (R232). -/
def Launch.barSet (l : Launch) (g : Nat) : Option BarSet := l.squads.findSome? fun q => q.bars.find? (·.group == g)

/-- Change the barrier set of a group. -/
def State.updBar (s : State) (seq : Word) (g : Nat) (f : BarSet → BarSet) : State :=
  s.updLaunch seq fun l => { l with squads := l.squads.map fun q =>
    { q with bars := q.bars.map fun b => if b.group == g then f b else b } }

/-- What stands for a core in a launch's list of team indices once the instance of a pipeline that had the index is over: no core (R389). -/
def goneCore : Nat := 769

/-- The core that holds a team index of a launch (R152, R389). -/
def Launch.coreOf (l : Launch) (team : Nat) : Option Nat :=
  match l.team[team]? with
  | some c => if c != 768 then some c else none
  | none => none

/-- A member of a launch by its core number, resident or in its saved image (R388, R389). -/
def State.member (s : State) (seq : Word) (i : Nat) : Core :=
  if (s.at i).launch == some seq then s.at i
  else match s.images.find? fun m => m.seq == seq && m.home == i with
    | some m => m.core
    | none => Core.reset

/-- Change a member of a launch, resident or in its saved image. -/
def State.onMember (s : State) (seq : Word) (i : Nat) (f : Core → Core) : State :=
  if (s.at i).launch == some seq then s.on i f
  else { s with images := s.images.map fun m => if m.seq == seq && m.home == i then { m with core := f m.core } else m }

/-- Members of a squad that have not exited. -/
def State.live (s : State) (seq : Word) (q : Squad) : List Nat :=
  q.cores.filter fun i => (s.member seq i).phase != .exited

/-- The effects that the squad of a member holds aside (R324). -/
def State.asidesOf (s : State) (seq : Word) (i : Nat) : List Aside :=
  match s.launch seq with
  | none => []
  | some l => ((l.squadOf i).map (·.aside)).getD []

/-- Memory as the squad of a member sees it: the effects that it holds aside have taken place (R324). -/
def State.memOf (s : State) (seq : Word) (i : Nat) : Mem := (s.asidesOf seq i).foldl Aside.on s.mem

/-- Memory as core `i` sees it. -/
def State.memFor (s : State) (i : Nat) : Mem :=
  match (s.at i).launch with
  | none => s.mem
  | some seq => s.memOf seq i

/-! ## Dies, flows and the directory across devices (R101, R102, R360, R367) -/

/-- A die. -/
def State.die (s : State) (d : Nat) : Die := s.dies.getD d {}

/-- Replace a die. -/
def State.setDie (s : State) (d : Nat) (x : Die) : State := { s with dies := s.dies.setIfInBounds d x }

/-- Whether a physical byte lies in another device's HBM (R358). -/
def State.isRemote (s : State) (pa : Nat) : Bool := pa / 2 ^ 52 == 0 && pa / 2 ^ 41 != s.devidx.toNat

/-- The die and the partition of the L2 that holds bytes for core `who` (none: for an agent outside the cores): the partition of the
core's pod in the partitioned mode; else the core's die for another device's bytes (R367), and the slice that the hash names
for the device's own (R102). -/
def State.l2Home (s : State) (who : Option Nat) (pa : Nat) : Nat × Nat :=
  let shared := Config.homeSlice (pa / 4096) % 2
  match who with
  | none => (shared, 0)
  | some i =>
    let d := dieOf i
    if (s.die d).parted then (d, 1 + podOf i % 48 / 12)
    else if s.isRemote pa then (d, 0) else (shared, 0)

/-- Bytes come into the L2, or are written there, with a HINT (R27). -/
def State.l2Hold (s : State) (who : Option Nat) (dirty : Bool) (pa n : Nat) (hint : BitVec 4 := 0) : State :=
  let h := s.l2Home who pa
  s.setDie h.1 ((s.die h.1).hold h.2 dirty hint pa n)

/-- Bytes leave every L2. -/
def State.l2Drops (s : State) (pa n : Nat) : State := { s with dies := s.dies.map fun x => { x with l2 := l2Drop pa n x.l2 } }

/-- A port. -/
def State.linkPort (s : State) (p : Nat) : Port := s.ports.getD p {}

/-- Change a port. -/
def State.onPort (s : State) (p : Nat) (f : Port → Port) : State := { s with ports := s.ports.setIfInBounds p (f (s.linkPort p)) }

/-- Whether a port leads to a device (R363, R397). -/
def Port.leadsTo (dst : Nat) (p : Port) : Bool := p.st == .up && (p.partner == some dst || p.reach.contains dst)

/-- The ports that lead to a device. -/
def State.portsTo (s : State) (dst : Nat) : List Nat := (List.range Config.ports).filter fun p => (s.linkPort p).leadsTo dst

/-- The ports of some from which a device is the fewest hops away: the minimal paths (R361). -/
def nearest (dst : Nat) (ps : List Nat) : List Nat := ps.filter fun p => ps.all fun q => Config.hops p dst ≤ Config.hops q dst

/-- The port that an entropy selects among parallel ones (R361). -/
def byEntropy (e : BitVec 8) (ps : List Nat) : Option Nat := ps[e.toNat % max 1 ps.length]?

/-- The entropy of a message of a flow, and whether it always takes the minimal path (R361): atomics at `.sys` and placement traffic do. -/
def pathEntropy (f : OutFlow) : Payload → BitVec 8 × Bool
  | .atomic r => if r.sys then (Config.atomHash (field r.pa 4 48), true) else (f.entropy, false)
  | .cas _ _ pa _ sys _ _ => if sys then (Config.atomHash (field pa 4 48), true) else (f.entropy, false)
  | .place r => (BitVec.ofNat 8 r.group, true)
  | _ => (f.entropy, false)

/-- The path of a message at its injection (R361): the Valiant one only where its cost is strictly lower. Links that are out of service are
skipped (R363). -/
def State.routed (s : State) (f : OutFlow) (m : OutMsg) : OutMsg :=
  let e := pathEntropy f m.body
  let ps := s.portsTo f.dst
  match byEntropy e.1 (nearest f.dst ps), byEntropy e.1 ps with
  | some a, some b =>
    let valiant := !e.2 &&
      Config.queueDepth s.tick b * Config.hopsVia e.1.toNat b f.dst < Config.queueDepth s.tick a * Config.hops a f.dst
    { m with port := some (if valiant then b else a), entropy := e.1, valiant := valiant }
  | _, _ => { m with entropy := e.1 }

/-- A flow from this device, as it stands or new: its entropy starts at a hash of its identity (R361). -/
def State.outFlow (s : State) (dst cls : Nat) : OutFlow :=
  (s.sends.find? fun f => f.dst == dst && f.cls == cls).getD { dst := dst, cls := cls, entropy := Config.flowHash dst cls }

/-- Replace a flow. -/
def State.setFlow (s : State) (f : OutFlow) : State :=
  { s with sends := f :: s.sends.filter fun g => !(g.dst == f.dst && g.cls == f.cls) }

/-- Messages held back by the limit of R360 are numbered and leave while it allows; `fuel` of them at most. -/
def OutFlow.release (path : OutMsg → OutMsg) : Nat → OutFlow → OutFlow
  | 0, f => f
  | fuel + 1, f =>
    match f.held with
    | [] => f
    | m :: rest =>
      if 65536 ≤ f.unacked.length then f
      else OutFlow.release path fuel
        { f with next := (f.next + 1) % 2 ^ 32, unacked := f.unacked ++ [path { m with num := f.next }], held := rest }

/-- Send a message (R360): it takes its flow's next number, or is held while 65,536 of the flow are unacknowledged. -/
def State.sendTo (s : State) (dst cls : Nat) (seq : Option Word) (b : Payload) : State :=
  let f := s.outFlow dst cls
  s.setFlow (OutFlow.release (s.routed f) (f.held.length + 1) { f with held := f.held ++ [{ num := 0, seq := seq, body := b }] })

/-- Whether a record of another device's copies meets an extent. -/
def Remote.meets (r : Remote) (pa n : Nat) : Bool := overlap r.start r.len pa n

/-- The home sends a coherence message about a recorded extent: to a device as a message of class 2, to a host as a back-invalidation snoop
on its link (R367, R369). -/
def State.askFor (s : State) (r : Remote) (b : Payload) : State := if r.dev < 2048 then s.sendTo r.dev 2 none b else s

/-- The home sends Invalidate for an extent to every device and host whose recorded extents meet it and has not been asked (R90, R367,
R369). -/
def State.askOthers (s : State) (pa n : Nat) : State :=
  let rs := s.remotes.filter fun r => r.meets pa n && !r.asked
  let s1 := rs.foldl (fun s r => s.askFor r (.invalidate r.start r.len)) s
  { s1 with remotes := s1.remotes.map fun r => if r.meets pa n then { r with asked := true } else r }

/-- The home sends Downgrade for an extent to every device that holds bytes of it in E or M and has not been asked (R90, R367). -/
def State.askDown (s : State) (pa n : Nat) : State :=
  let hit (r : Remote) : Bool := r.excl && r.meets pa n
  let s1 := (s.remotes.filter fun r => hit r && !r.asked).foldl (fun s r => s.askFor r (.downgrade r.start r.len)) s
  { s1 with remotes := s1.remotes.map fun r => if hit r then { r with asked := true } else r }

/-- Whether another device holds bytes of an extent in E or M. -/
def State.heldElsewhere (s : State) (pa n : Nat) : Bool := s.remotes.any fun r => r.excl && r.meets pa n

/-- Whether another device's record meets an extent. -/
def State.knownElsewhere (s : State) (pa n : Nat) : Bool := s.remotes.any (·.meets pa n)

/-- The SEQ an event record names for a core. -/
def State.seqOf (s : State) (i : Nat) : Word := (s.at i).launch.getD 0

/-! ## Address spaces and the copies of the L1s -/

/-- The address space of a core: ASID and ROOT of its launch (R149). -/
def State.space (s : State) (i : Nat) : BitVec 12 × Nat :=
  match s.launchOf i with
  | some l => (l.record.asid, l.record.root)
  | none => (0, 0)

/-- Find a translation in a core's TLB. -/
def findTlb (asid : BitVec 12) (root va : Nat) (t : List TlbEntry) : Option TlbEntry :=
  t.find? fun e => e.asid == asid && e.root == root && e.vpn == va / 2 ^ e.bits

/-- The physical byte that a translation gives an address, keyed with MT above bit 51 (R358, R359). -/
def TlbEntry.key (e : TlbEntry) (va : Nat) : Nat := e.mt.toNat * 2 ^ 52 + e.ppn * 2 ^ e.bits + va % 2 ^ e.bits

/-- What a fill of a piece asks of the home: its gaps and, exclusively, the bytes that entries hold in S (R10, R88). -/
def wanted (excl : Bool) (es : List L1Entry) (z : Nat × Nat) : List (Nat × Nat) :=
  gaps es z.1 z.2 ++ if excl then (es.filter fun e => e.st == .s && e.meets z.1 z.2).map fun e =>
    (max e.start z.1, min e.stop (z.1 + z.2) - max e.start z.1) else []

/-- The extents for which a request of a memory queue is outstanding at a home: a fill's where the TLB translates it. -/
def State.outstanding (s : State) (i : Nat) : MemReq → List (Nat × Nat)
  | .own _ pa bs _ | .wback pa bs => [(pa, bs.length)]
  | .repin pa n _ => [(pa, n)]
  | .fill va n x _ => (Machine.pieces 4096 va n).flatMap fun p =>
      match findTlb (s.space i).1 (s.space i).2 p.1 (s.at i).tlb with
      | some e => wanted x (s.at i).l1 (e.key p.1, p.2)
      | none => []

/-- Whether an access to a piece reaches an extent that is outstanding: by its bytes, or through an entry that holds bytes of both
(R91). -/
def reaches (es : List L1Entry) (z b : Nat × Nat) : Bool :=
  overlap z.1 z.2 b.1 b.2 || es.any fun e => e.meets z.1 z.2 && e.meets b.1 b.2

/-- Whether accesses that reach a request wait for it: fills and ownership requests (R91). -/
def MemReq.awaited : MemReq → Bool
  | .wback _ _ => false
  | _ => true

/-- Whether an access of core `i` to some pieces must wait for requests of its memory queue (R91). -/
def State.reached (s : State) (i : Nat) (q : List MemReq) (zs : List (Nat × Nat)) : Bool :=
  (q.filter (·.awaited)).any fun r => (s.outstanding i r).any fun b => zs.any fun z => reaches (s.at i).l1 z b

/-- The extents for which core `i` has a request outstanding (R87): one that still waits for an earlier one is not yet made. -/
def State.busyExtents (s : State) (i : Nat) : List (Nat × Nat) :=
  let q := (s.at i).memq
  (List.range q.length).flatMap fun k => ((q[k]?).map fun r =>
    let b := s.outstanding i r
    if r.awaited && s.reached i (q.take k) b then [] else b).getD []

/-- What an operation on the L1 of core `i` sees beside the entries. -/
def State.l1Env (s : State) (i : Nat) : L1Env :=
  let c := s.at i
  { padKiB := c.padKiB, count := c.l1Count, busy := s.busyExtents i }

/-- Look an address up in an address space without touching anything (R335, R339): its key, if it is mapped. -/
def State.peekFrom (s : State) (va : Nat) : Nat → Nat → Option Nat
  | 0, _ => none
  | fuel + 1, table =>
    let level := 3 - fuel
    let w := ofBytesLE (s.mem.read (table + 8 * field va (43 - 10 * level) 10) 8)
    if !bitAt w 0 then none
    else if fuel = 0 || bitAt w 1 then
      let bits := 43 - 10 * level
      if level = 0 then none else some (field w 8 2 * 2 ^ 52 + field w bits (52 - bits) * 2 ^ bits + va % 2 ^ bits)
    else State.peekFrom s va fuel (field w 13 39 * 2 ^ 13)

/-- The key of an address under a root. -/
def State.peek (s : State) (root va : Nat) : Option Nat := s.peekFrom va 4 root

/-- The keys of an extent of an address space that is mapped, page by page. -/
def State.partKeys (s : State) (root a n : Nat) : List (Nat × Nat) :=
  (Machine.pieces 8192 a n).filterMap fun p => (s.peek root p.1).map fun k => (k, p.2)

/-- The cores, from a given number on, whose L1 holds a byte of an extent (the directory of R101). -/
def sharersFrom (pa n : Nat) : Nat → List Core → List Nat
  | _, [] => []
  | i, c :: cs => if c.l1.any (·.meets pa n) then i :: sharersFrom pa n (i + 1) cs else sharersFrom pa n (i + 1) cs

/-- The cores whose L1 holds a byte of an extent. -/
def State.sharers (s : State) (pa n : Nat) : List Nat := sharersFrom pa n 0 s.cores.toList

/-- The pinned bytes of an extent in a core's L1, to be fetched again once they are invalidated (R90). -/
def Core.repins (pa n : Nat) (c : Core) : List MemReq :=
  (c.l1.filter fun e => e.pin && e.meets pa n).map fun e => .repin (max e.start pa) (min e.stop (pa + n) - max e.start pa) e.cls

/-- The home takes other bytes: its extent is invalidated in every L1 without write-back (R325, R328). -/
def State.dropCopies (s : State) (pa n : Nat) : State :=
  (s.sharers pa n).foldl (fun s i =>
    let l1 := (invalidateL1 (s.l1Env i) pa n (s.at i).l1).1
    s.on i fun c => { c with l1 := l1, memq := c.memq ++ c.repins pa n }) s

/-! ## Homes: writes, coherence, poison -/

/-- A journal entry (R328): the granule's bytes, its physical address, and its check word with the launch's sequence number. -/
def journalEntry (seq : Word) (g : Nat) (bs : List Byte) : List Byte :=
  bs ++ bytesLE 8 (g % 2 ^ 52) ++ bytesLE 8 (Config.journalTail (Config.checkWord bs) seq).toNat

/-- Write bytes at keys, in order, every L1 copy dropped. -/
def State.writeKeys : List (Nat × Nat) → List Byte → State → State
  | [], _, s => s
  | (pa, n) :: ks, bs, s => State.writeKeys ks (bs.drop n) { s.dropCopies pa n with mem := s.mem.write pa (bs.take n) }

/-- Copy granules about to change into a launch's journal (R328); a journal that is full, or not mapped, ends journalling. -/
def State.journal (s : State) (seq : Word) (gs : List Nat) : State :=
  match s.launch seq with
  | none => s
  | some l =>
    let new := gs.filter fun g => !l.journal.any fun j => j.1 == g
    if !l.journaled || new.isEmpty then s
    else
      let es := new.map fun g => (g, s.mem.read g 16)
      let bs := es.flatMap fun e => journalEntry seq e.1 e.2
      let ks := s.partKeys l.record.root (l.record.jrnl + 32 * l.journal.length) bs.length
      if l.journal.length + new.length ≤ l.record.jlen * 32 && (ks.map (·.2)).foldl (· + ·) 0 == bs.length then
        (State.writeKeys ks bs s).updLaunch seq fun l => { l with journal := l.journal ++ es }
      else s.updLaunch seq fun l => { l with journaled := false }

/-- Record in a squad's memory undo record the granules about to change (R323). -/
def Squad.undo1 (q : Squad) (m : Mem) (gs : List Nat) : Squad :=
  let new := gs.filter fun g => !q.memUndo.any fun j => j.1 == g
  { q with memUndo := q.memUndo ++ new.map fun g => (g, m.read g 16) }

/-- Record bytes about to change on behalf of the member of a launch at core `i`: the journal (R328) and, unless the write is
logged or atomic, the memory undo record of its squad (R323). -/
def State.noted (s : State) (seq : Word) (i : Nat) (undo : Bool) (pa n : Nat) : State :=
  let gs := granulesOf pa n
  let s1 := s.journal seq gs
  if undo then s1.updLaunch seq fun l => { l with squads := l.squads.map fun q => if q.cores.contains i then q.undo1 s.mem gs else q }
  else s1

/-- Put bytes at their home, on behalf of core `who` (none: from outside): they are recorded for the core's launch; poison is
cleared where all 16 bytes are covered (R319). -/
def State.setBytes (s : State) (who : Option Nat) (undo : Bool) (pa : Nat) (bs : List Byte) (hint : BitVec 4 := 0) : State :=
  let s1 := match who with
    | none => s
    | some i => match (s.at i).launch with
      | none => s
      | some q => s.noted q i undo pa bs.length
  { s1.l2Hold who true pa bs.length hint with
      mem := s1.mem.write pa bs,
      poison := s1.poison.filter fun g => !(pa ≤ g && g + 16 ≤ pa + bs.length) }

/-- A message, on behalf of a launch if of one, to the home of bytes on another device (R360, R367); a launch's write is remembered until it
has been performed there (R259, R368). -/
def State.tellAs (s : State) (seq : Option Word) (pa : Nat) (b : Payload) : State :=
  if !s.isRemote pa then s
  else
    let s1 := s.sendTo (pa / 2 ^ 41) 0 seq b
    match b, seq with
    | .write a bs team q _, some _ => { s1 with farWrites := s1.farWrites ++ [{ pa := a, len := bs.length, team := team, seq := q }] }
    | _, _ => s1

/-- A message of core `who` to the home of bytes on another device. -/
def State.tellHome (s : State) (who : Option Nat) (pa : Nat) (b : Payload) : State :=
  match who with
  | none => s
  | some i => s.tellAs (s.at i).launch pa b

/-- Whether this device holds every granule of an extent of another device's HBM, exclusively with `excl` (R367). -/
def State.holds (s : State) (excl : Bool) (pa n : Nat) : Bool :=
  (granulesOf pa n).all fun g => s.holding.any fun r => r.start ≤ g && g + 16 ≤ r.start + r.len && (!excl || r.excl)

/-- A miss on another device's bytes, or a request for their ownership, is sent to their home once, for the granules that are not held
(R367), on behalf of a launch if of one. -/
def State.fetchFor (s : State) (seq : Option Word) (excl : Bool) (pa n : Nat) : State :=
  match (granulesOf pa n).filter fun g => !s.holds excl g 16 with
  | [] => s
  | g :: rest =>
    let k := rest.getLastD g + 16 - g
    if s.misses.any fun m => m.start == g && m.len == k && m.excl == excl then s
    else { s.tellAs seq g (.read g k excl) with misses := { start := g, len := k, excl := excl } :: s.misses }

/-- A miss of core `i` on another device's bytes. -/
def State.fetchFar (s : State) (i : Nat) (excl : Bool) (pa n : Nat) : State := s.fetchFor (s.at i).launch excl pa n

/-- What an access of core `i` to an extent has to wait for among the devices (R88, R90, R367): another device's bytes come from their
home; the device's own, held elsewhere in E or M, are asked for. None when it can go on: copies in S on other devices are withdrawn
behind its back (R254, R269). -/
def State.comes (s : State) (i : Nat) (excl : Bool) (pa n : Nat) : Option State :=
  if s.isRemote pa then (if s.holds excl pa n then none else some (s.fetchFar i excl pa n))
  else if s.heldElsewhere pa n then some (if excl then s.askOthers pa n else s.askDown pa n) else none

/-- Perform a write at the home of its bytes. -/
def State.homeWrite (s : State) (who : Option Nat) (undo : Bool) (pa : Nat) (bs : List Byte) : State :=
  (s.setBytes who undo pa bs).tellHome who pa (.write pa bs ((who.map fun i => (s.at i).team).getD 0)
    ((who.map s.seqOf).getD 0) false)

/-- Whether a request is an outstanding write-back that shares a byte with an extent. -/
def MemReq.wbackIn (pa n : Nat) : MemReq → Bool
  | .wback a bs => a < pa + n && pa < a + bs.length
  | _ => false

/-- The cores, from a given number on, with an outstanding write-back of bytes of an extent. -/
def wbackers (pa n : Nat) : Nat → List Core → List Nat
  | _, [] => []
  | i, c :: cs => if c.memq.any (·.wbackIn pa n) then i :: wbackers pa n (i + 1) cs else wbackers pa n (i + 1) cs

/-- Outstanding write-backs of core `i` that satisfy a condition reach their home, in order. -/
def State.drainWb (s : State) (p : MemReq → Bool) (i : Nat) : State :=
  let q := (s.at i).memq
  (q.filter p).foldl (fun s r => match r with
    | .wback a bs => s.homeWrite (some i) true a bs
    | _ => s) (s.on i fun c => { c with memq := q.filter (!p ·) })

/-- Perform a core's write-backs, older ones of the same bytes first. -/
def State.applyWbs (s : State) (i : Nat) (w : Wbs) : State :=
  w.foldl (fun s b => (s.drainWb (·.wbackIn b.1 b.2.length) i).homeWrite (some i) true b.1 b.2) s

/-- Run an L1 operation on core `i` and perform its write-backs. -/
def State.onL1 (s : State) (i : Nat) (f : L1Env → List L1Entry → List L1Entry × Wbs) : State :=
  let r := f (s.l1Env i) (s.at i).l1
  (s.on i fun c => { c with l1 := r.1 }).applyWbs i r.2

/-- Run an L1 operation on core `i`; its write-backs stay outstanding in the memory queue (R87). -/
def State.onL1q (s : State) (i : Nat) (f : L1Env → List L1Entry → List L1Entry × Wbs) : State :=
  let r := f (s.l1Env i) (s.at i).l1
  s.on i fun c => { c with l1 := r.1, memq := c.memq ++ r.2.map fun w => .wback w.1 w.2 }

/-- The home takes in every outstanding write-back of an extent before it serves it. -/
def State.settleWb (s : State) (pa n : Nat) : State :=
  (wbackers pa n 0 s.cores.toList).foldl (State.drainWb · (·.wbackIn pa n)) s

/-- Invalidate an extent in the L1 of core `i` (R90). -/
def State.invalidateAt (s : State) (i pa n : Nat) : State :=
  let again := (s.at i).repins pa n
  (s.onL1 i fun v es => invalidateL1 v pa n es).on i fun c => { c with memq := c.memq ++ again }

/-- The home withdraws an extent from every L1 but `keep`'s, and asks for it of every device that holds bytes of it (R90, R259, R367). -/
def State.withdraw (s : State) (keep : Option Nat) (pa n : Nat) : State :=
  ((s.sharers pa n).filter fun i => keep != some i).foldl (fun s i => s.invalidateAt i pa n) ((s.settleWb pa n).askOthers pa n)

/-- The home downgrades an extent in every L1 but `keep`'s (R90). -/
def State.downgrade (s : State) (keep : Option Nat) (pa n : Nat) : State :=
  ((s.sharers pa n).filter fun i => keep != some i).foldl (fun s i => s.onL1 i fun v es => downgradeL1 v pa n es)
    (s.settleWb pa n)

/-- A read at the point of coherence: every L1 copy in M is downgraded first (R98, R169, R239). -/
def State.coherentRead (s : State) (pa n : Nat) : State × List Byte :=
  let s1 := (s.downgrade none pa n).l2Hold none false pa n
  (s1, s1.mem.read pa n)

/-- A write performed at once at the home, every L1 copy withdrawn first (R259, R337). -/
def State.coherentWrite (s : State) (who : Option Nat) (undo : Bool) (pa : Nat) (bs : List Byte) : State :=
  (s.withdraw none pa bs.length).homeWrite who undo pa bs

/-! ## Event records (R405) -/

/-- Key of a byte of host memory (R359, MT 2). -/
def hostKey (a : Nat) : Nat := 2 * 2 ^ 52 + a % 2 ^ 52

/-- The physical address of a key (R358, R359), as records name it (R402, R405). -/
def physOf (k : Nat) : Nat := k % 2 ^ 52

/-- Write an event record, every L1 copy of its bytes withdrawn, or count it as lost (R405). -/
def State.event (s : State) (kind unit idx : Nat) (seq : Word) (addr : Nat) : State :=
  let e := s.events
  if !e.en then s
  else if (e.etail - e.ehead).toNat < 2 ^ e.log.toNat then
    let phase := 1 - e.etail.toNat / 2 ^ e.log.toNat % 2
    let w := packFields [(8, kind), (8, unit), (16, idx), (64, seq.toNat), (53, addr), (11, 0), (1, phase)]
    { s.coherentWrite none false (hostKey (e.base + 32 * (e.etail.toNat % 2 ^ e.log.toNat))) (bytesLE 32 w) with
        events := { e with etail := e.etail + 1 } }
  else { s with events := { e with elost := if e.elost = BitVec.allOnes 32 then e.elost else e.elost + 1 } }

/-- A write performed at once at the home on behalf of a member of a launch, resident or away; without `undo`, a committed one. -/
def State.memberWrite (s : State) (seq : Word) (i : Nat) (undo : Bool) (pa : Nat) (bs : List Byte) (hint : BitVec 4 := 0) : State :=
  (((s.withdraw none pa bs.length).noted seq i undo pa bs.length).setBytes none false pa bs hint).tellAs (some seq) pa
    (.write pa bs (s.member seq i).team seq !undo)

/-- Remember what bytes an atomic, or a store in supervisor mode, has left, of the member of a launch at a core or of an agent outside: a
rollback of the member's squad, or of one that has recorded the granule, leaves them so (R323, R326, R378, R404). -/
def State.kept (s : State) (who : Option (Word × Nat)) (pa : Nat) (bs : List Byte) : State :=
  let cells := (List.range bs.length).map fun k => (pa + k, bs.getD k 0)
  let own (l : Launch) (q : Squad) : Bool := who.any fun m => l.record.seq == m.1 && q.cores.contains m.2
  let holds (q : Squad) : Bool := q.memUndo.any fun u => overlap u.1 u.2.length pa bs.length
  let add (q : Squad) : Squad := { q with atomBytes := q.atomBytes.filter (fun b => !(pa ≤ b.1 && b.1 < pa + bs.length)) ++ cells }
  { s with launches := s.launches.map fun l => { l with squads := l.squads.map fun q => if own l q || holds q then add q else q } }

/-- The first poisoned granule an extent touches (R319). -/
def State.poisoned (s : State) (pa n : Nat) : Option Nat := (granulesOf pa n).find? s.poison.contains

/-! ## Scratchpad -/

/-- Write scratchpad bytes, saving each granule's old bytes before its first change in the superstep (R249). -/
def Core.padWrite (c : Core) (bs : List (Nat × Byte)) : Core :=
  let gs := (bs.map fun b => granuleOf b.1).dedup.filter fun g => !c.padUndo.any fun u => u.1 == g
  { c with padUndo := c.padUndo ++ gs.map (fun g => (g, c.pad.read g 16)), pad := c.pad.writeAll bs }

/-- Bytes with their addresses, from an address up. -/
def cellsAt (a : Nat) (bs : List Byte) : List (Nat × Byte) := (List.range bs.length).map fun i => (a + i, bs.getD i 0)

/-- The size of the scratchpad in bytes (R151). -/
def Core.padSize (c : Core) : Nat := c.padKiB * 1024

/-- OR exception flags into `fpc`: NV, DZ, OF, UF, NX from bit 4 (R64). -/
def Core.raise (c : Core) (f : BitVec 5) : Core :=
  { c with ctx := { c.ctx with fpc := c.ctx.fpc ||| (f.setWidth 64 <<< 4) } }

/-- What a command remembers of bytes about to be overwritten by the core's write `seq` (R117): the old ones when it must
not see the write, the new ones when it must. -/
def veilWith (pad : Mem) (need seq : Nat) (bs veil : List (Nat × Byte)) : List (Nat × Byte) :=
  bs.foldl (fun v b =>
    if need ≤ seq then (if v.any (·.1 == b.1) then v else (b.1, pad.get b.1) :: v)
    else v.map fun x => if x.1 == b.1 then b else x) veil

/-- Keep, for every engine command in flight, the bytes it has still to read as it must read them (R117). -/
def Core.veiled (c : Core) (seq : Nat) (bs : List (Nat × Byte)) : Core :=
  { c with copies := c.copies.map fun x => { x with veil := veilWith c.pad x.need seq bs x.veil },
           port := c.port.map fun x => { x with veil := veilWith c.pad x.need seq bs x.veil },
           plane := c.plane.map fun x => { x with veil := veilWith c.pad x.need seq bs x.veil },
           etch := c.etch.map fun x => { x with veil := veilWith c.pad x.need seq bs x.veil } }

/-- Scratchpad bytes as a command reads them (R117). -/
def Core.seen (c : Core) (veil : List (Nat × Byte)) (a n : Nat) : List Byte :=
  (List.range n).map fun k => match veil.find? fun x => x.1 == a + k with
    | some x => x.2
    | none => c.pad.get (a + k)

/-- What a command of order `k` has to read of bytes that one of order `o` writes (R201): a later one the written ones, an earlier one those
before. -/
def veilFor (pad : Mem) (o k : Nat) (bs veil : List (Nat × Byte)) : List (Nat × Byte) :=
  if o < k then veil.filter fun x => !bs.any fun b => b.1 == x.1 else if k < o then veilWith pad 0 0 bs veil else veil

/-- A command of order `o` writes scratchpad bytes. -/
def Core.engineWrite (c : Core) (o : Nat) (bs : List (Nat × Byte)) : Core :=
  { c.padWrite bs with plane := c.plane.map fun x => { x with veil := veilFor c.pad o x.order bs x.veil },
                       etch := c.etch.map fun x => { x with veil := veilFor c.pad o x.order bs x.veil } }

/-- The slot counter has reached a slot. -/
def Core.atSlot (d : Nat) (c : Core) : Core :=
  { c with sys := { c.sys with slots := if c.sys.slots.toNat < d then BitVec.ofNat 64 d else c.sys.slots } }

/-- The front pending write lands (R179, R213). -/
def Core.land (c : Core) (p : PendWrite) : Core :=
  { (((c.veiled p.seq p.bytes).padWrite p.bytes).raise p.flags) with pend := c.pend.erase p }

/-- The pending write that lands first: lowest landing slot, then issue order (R179). -/
def firstPend : List PendWrite → Option PendWrite
  | [] => none
  | p :: rest =>
    match firstPend rest with
    | none => some p
    | some r => if r.land < p.land then some r else some p

/-- Whether a core that has inserted slots has still to insert one, or to land a write of the slot that it has reached (R179). -/
def Core.mustLand (keep : Nat) (p : PendWrite) (c : Core) : Bool := keep < c.pend.length || p.land ≤ c.sys.slots.toNat

/-- Insert empty slots until at most `keep` writes are pending (R179), all writes of a slot reached landing: `none` while a write's data are
missing. -/
def Core.drainTo (keep : Nat) : Nat → Core → Option Core
  | 0, c => some c
  | fuel + 1, c =>
    match (firstPend c.pend).filter fun p => c.mustLand keep p with
    | none => some c
    | some p =>
      if !p.ready then none
      else Core.drainTo keep fuel ((c.land p).atSlot p.land)

/-- Insert empty slots until the pending-write queue is empty (R179). -/
def Core.drainAll (c : Core) : Option Core := Core.drainTo 0 c.pend.length c

/-- Insert empty slots until the queue has room for one more write (R179). -/
def Core.drainOne (c : Core) : Option Core := Core.drainTo 7 c.pend.length c

/-- Take an entry of the pending-write queue: the bytes land `l` slots after this one (R179). -/
def Core.pendWrite (c : Core) (l : Nat) (bs : List (Nat × Byte)) (flags : BitVec 5) (ready : Bool) : Core :=
  { c with pendSeq := c.pendSeq + 1,
           pend := c.pend ++ [{ seq := c.pendSeq, land := c.sys.slots.toNat + l, bytes := bs, flags := flags,
                                ready := ready }] }

/-! ## The end and the rollback of a launch -/

/-- A core that no launch holds any more: its caches stay, its pins are released (R96, R148, R162). -/
def Core.freed (c : Core) : Core :=
  { Core.reset with retired := c.retired, linkOut := c.linkOut, gen := c.gen, l1 := c.l1.map fun e => { e with pin := false },
                    l1Count := c.l1Count, padKiB := c.padKiB, tlb := c.tlb, icache := c.icache, plates := c.plates,
                    metas := c.metas, lastCtx := c.lastCtx, memq := c.memq.filter fun q => match q with | .wback _ _ => true | _ => false }

/-- Put bytes back at their home; every L1 copy of them is invalidated. -/
def State.putBack (s : State) (u : Nat × List Byte) : State :=
  { s.dropCopies u.1 u.2.length with mem := s.mem.write u.1 u.2 }

/-- Whether an entry may hold bytes that the superstep's try has written (R325): it is in M, and not as the core brought it. -/
def Core.tried (c : Core) (e : L1Entry) : Bool := e.st == .m && !e.dirty.all c.carried.contains

/-- The L1 without the entries that hold bytes of the try (R325). -/
def Core.untried (c : Core) : List L1Entry := c.l1.filter (!c.tried ·)

/-- The bytes that a core brought to its launch go to their home, as far as its L1 no longer holds them as they were (R162, R325). -/
def State.carry (s : State) (c : Core) : State :=
  (c.carried.filter fun w => !c.untried.any fun e => e.dirty.contains w).foldl State.putBack s

/-- Bytes with rising addresses as runs of neighbours. -/
def byteRuns : List (Nat × Byte) → List (Nat × List Byte)
  | [] => []
  | b :: rest =>
    match byteRuns rest with
    | (a, bs) :: rs => if a = b.1 + 1 then (b.1, b.2 :: bs) :: rs else (b.1, [b.2]) :: (a, bs) :: rs
    | [] => [(b.1, [b.2])]

/-- Bytes restored to a home on another device: those of a granule that no atomic and no store in supervisor mode has written. -/
def State.restoreFar (kept : List (Nat × Byte)) (s : State) (u : Nat × List Byte) : State :=
  (byteRuns ((cellsAt u.1 u.2).filter fun b => !kept.any fun k => k.1 == b.1)).foldl
    (fun s r => s.tellAs none r.1 (.write r.1 r.2 0 0 false)) s

/-! ### Reports of circular buffers (R372) -/

/-- Whether a running launch of this device has a stage that names a queue (R371). -/
def State.namesQueue (s : State) (pa : Nat) : Bool :=
  s.launches.any fun l => l.status == .running && l.stages.any fun st =>
    [st.inq, st.outq].any fun q => q != 0 && s.peek l.record.root q == some pa

/-- What a queue's home reports of it (R372). -/
def State.reportOf (s : State) (pa : Nat) : Report :=
  let r := Ring.of (ofBytesLE (s.mem.read pa 128))
  { pa := pa, resv := r.resv, head := r.head, tail := r.tail, count := r.count }

/-- The home of a queue has changed RESV, or made an advance of HEAD or TAIL public: it reports to this device, when a stage here names
the queue, and to every device that has asked (R372). -/
def State.cbChanged (s : State) (pa : Nat) : State :=
  if s.isRemote pa then s
  else
    let r := s.reportOf pa
    let s1 : State := if s.namesQueue pa then { s with reporting := s.reporting ++ [r] } else s
    (s1.askers.filter (·.1 == pa)).foldl (fun s a => s.sendTo a.2 0 none (.cbReport pa r.resv r.head r.tail r.count)) s1

/-- The queues of which reports are made. -/
def State.reportedQueues (s : State) : List Nat :=
  (s.askers.map (·.1) ++ s.launches.flatMap fun l => if l.status == .running then
    (l.stages.flatMap fun st => [st.inq, st.outq]).filterMap fun q => if q = 0 then none else s.peek l.record.root q else []).dedup

/-- A write, or what a rollback restores, has reached the words of queues (R372): those of which a report would differ are reported. -/
def State.queuesWritten (before s : State) : State :=
  (s.reportedQueues.filter fun pa => before.reportOf pa != s.reportOf pa).foldl State.cbChanged s

/-- Restore a squad's memory undo record; bytes that atomics and stores in supervisor mode wrote stay as the last of them left them
(R323, R325, R404); homes on other devices are told. -/
def State.restoreUndo (s : State) (q : Squad) : State :=
  let s1 := q.memUndo.foldl State.putBack s
  let s2 : State := { s1 with mem := s1.mem.writeAll (q.atomBytes.filter fun b => q.memUndo.any fun u => u.1 == granuleOf b.1) }
  State.queuesWritten s (q.memUndo.foldl (State.restoreFar q.atomBytes) s2)

/-- The cores of a launch, resident or away. -/
def State.coresOf (s : State) (seq : Word) : List Nat :=
  (List.range 768).filter fun i => (s.at i).launch == some seq

/-- A step on a word that lies in the records of other squads is taken in their records too: their rollback leaves it as it is
(R326). -/
def Squad.follow (pa : Nat) (f : Nat → Nat) (q : Squad) : Squad :=
  { q with memUndo := q.memUndo.map fun u =>
      if u.1 == granuleOf pa then
        let k := pa - u.1
        (u.1, u.2.take k ++ bytesLE 8 (f (ofBytesLE ((u.2.drop k).take 8))) ++ u.2.drop (k + 8))
      else u }

/-- Memory as an agent sees it: the member of a launch at a core, or one outside (R324). -/
def State.view (s : State) : Option (Word × Nat) → Mem
  | none => s.mem
  | some m => s.memOf m.1 m.2

/-- A step of the home on the word of a sync object, on behalf of the member of a launch at a core or of an agent outside (R280): every
L1 copy is withdrawn; with `undo` the member's squad records the word first (R323), and the other squads follow. Of an object of another
device it is the copy here that follows its home. -/
def State.syncStep (s : State) (who : Option (Word × Nat)) (undo : Bool) (pa : Nat) (f : Nat → Nat) : State :=
  let s1 := s.withdraw none pa 8
  let bs := bytesLE 8 (f (ofBytesLE (s1.mem.read pa 8)))
  let s2 := match who with
    | none => s1.setBytes none false pa bs
    | some m => if s.isRemote pa then s1.setBytes none false pa bs else s1.memberWrite m.1 m.2 undo pa bs
  let own (l : Launch) (q : Squad) : Bool := who.any fun m => l.record.seq == m.1 && q.cores.contains m.2
  { s2 with launches := s2.launches.map fun l => { l with squads := l.squads.map fun q => if own l q then q else q.follow pa f } }

/-- The QW bit of a sync object says again whether requests are queued (R280). -/
def State.requeue (s : State) (pa : Nat) : State :=
  let s := s.withdraw none pa 8
  let w := ofBytesLE (s.mem.read pa 8)
  let q := s.syncs.any fun r => r.pa == pa && !r.granted
  if bitAt w 25 == q then s else s.setBytes none false pa (bytesLE 8 (syncQueued w q))

/-- Remove requests that have not been granted from the queues of their objects. -/
def State.unqueue (s : State) (gone : SyncReq → Bool) : State :=
  (((s.syncs.filter gone).map (·.pa)).dedup).foldl State.requeue { s with syncs := s.syncs.filter (!gone ·) }

/-- Tell the other devices of a linked launch a step of it (R344). -/
def State.tellLinked (s : State) (seq : Word) (n tries : Nat) (what : LinkedStep) : State :=
  (((s.launch seq).map (·.linked)).getD []).foldl (fun s x => s.sendTo x.dev 0 (some seq) (.linked seq n tries what)) s

/-- The rollbacks of a squad's superstep that are known here: those that this device and that the others have begun (R344). -/
def Launch.triesOf (l : Launch) (q : Squad) : Nat :=
  q.rolls + (l.linked.map fun x => if x.step == q.steps then x.rolls else 0).foldl (· + ·) 0

/-- End a launch (R404): logs and memory undo, holds, reservations, placement entries; its cores become idle and its
completion record waits to be written. `undo` is false for a launch whose cores have all exited. -/
def State.endLaunch (s : State) (seq : Word) (status : Nat) (detail : Word) (undo : Bool := true) : State :=
  match s.launches.find? fun l => l.record.seq == seq with
  | none => s
  | some l =>
    match l.status with
    | .ended _ _ => s
    | _ =>
      let cores := s.coresOf seq
      let imgs := s.images.filter fun m => m.seq == seq
      let held (i : Nat) (c : Core) : List (Nat × Hold) := (if undo then c.proof.holds else c.ctx.holds).map fun k => (i, k)
      let holds := cores.flatMap (fun i => held i (s.at i)) ++ imgs.flatMap fun m => held m.home m.core
      let cyc := (cores.map fun i => (s.at i).sys.cyc).foldl (· + ·) 0 + (imgs.map (·.core.sys.cyc)).foldl (· + ·) 0
      let s1 := if undo then (cores.map s.at ++ imgs.map (·.core)).foldl State.carry (l.squads.foldl State.restoreUndo s) else s
      let s2 := holds.foldl (fun s k => (s.syncStep (some (seq, k.1)) false k.2.pa (syncReleased · k.2.excl)).tellAs (some seq) k.2.pa
        (.release k.2.pa k.2.excl)) s1
      let gangs := l.squads.flatMap (·.gangs)
      let s3 := cores.foldl (fun s i => s.on i fun c =>
        if undo then { ({ c with l1 := c.untried } : Core).freed with memq := [] } else c.freed) s2
      let l' := { l with status := .ended status detail, cycles := l.cycles + cyc, squads := [],
                         ovf := l.ovf || gangs.any (·.ovf), degr := l.degr || gangs.any fun g => g.mode == .degraded }
      let s4 := (s3.unqueue fun r => r.seq == seq && r.dev == s.devidx.toNat).tellLinked seq 0 0 .ended
      { s4 with
        launches := s4.launches.map fun x => if x.record.seq == seq then l' else x,
        images := s4.images.filter fun m => m.seq != seq,
        places := s4.places.filter fun e => e.gen != l.gen,
        cbs := s4.cbs.filter fun r => !(r.seq == seq && r.dev == s.devidx.toNat),
        dones := s4.dones ++ [{ queue := l.queue, seq := seq, ord := l.order, status := status, detail := detail,
                                ovf := l'.ovf, degr := l'.degr, rerun := l.rerun, cycles := l.cycles + cyc }] }

/-- Bring a core back to its proof (R325, R326): commands, log, pending writes, waits and traps leave no trace; the
registers of R326 stay. -/
def Core.rolledBack (c : Core) : Core :=
  { c with
    ctx := c.proof, phase := c.proofPhase, trig := c.proofTrig,
    sys := { c.sys with sup := false, owed := 0 },
    wait := none, resume := none, waited := 0, stalled := false, replay := [], exchanging := false,
    pad := c.padUndo.foldl (fun m u => m.write u.1 u.2) c.pad, padUndo := [], pend := [], pendHeld := [], handed := false,
    sfu := none, l1 := c.untried,
    memq := (c.memq.filter fun q => match q with | .repin _ _ _ => true | _ => false)
      ++ (c.l1.filter fun e => c.tried e && e.pin).map fun e => .repin e.start e.len e.cls,
    log := [], atomPos := 0, cbPos := 0, copies := [], port := [], plane := [], stats := [], etch := [],
    arrivals := if c.proof.armed then 1 else 0,
    arrived := [], faults := [], window := none, sent := [], inflow := [], inbox := [], closed := 0 }

/-- A saved image brought back to its proof (R325). -/
def Core.rolledAway (c : Core) : Core :=
  let r := c.rolledBack
  { r with phase := if r.phase == .exited then .exited else .swapped }

/-- A group of a launch. -/
def Launch.group (l : Launch) (g : Nat) : Option Group := (l.groups.find? fun x => x.1 == g).map (·.2)

/-- Whether a placement entry is one that the cores of a squad take part in (R331, R340). -/
def Launch.ownsPlace (l : Launch) (q : Squad) (e : Place) : Bool :=
  e.gen == l.gen && (l.group e.group).any fun g => g.members.any q.cores.contains

/-- A placement entry as a rollback of a squad leaves it (R340): what the squad's cores have changed since their proof is taken back,
arrivals of other squads stand. -/
def Place.rolled (q : Squad) (e : Place) : Place :=
  if !e.changed.any q.cores.contains then e
  else
    let left := e.arrived.filter (!q.cores.contains ·)
    let p := e.proofs.find? fun p => p.stage == q.stage && p.inst == q.inst
    let still := e.busy && !left.isEmpty
    { e with state := (p.map (·.state)).getD e.state, version := (p.map (·.version)).getD e.version,
             declared := e.declared.filter fun i => !q.cores.contains i || e.proofDeclared.contains i,
             changed := e.changed.filter (!q.cores.contains ·), busy := still, pend := if still then e.pend else 0, arrived := left,
             closed := false, ready := false, parts := [], written := [], flags := 0 }

/-- Change a squad, named by stage and instance. -/
def State.onSquad (s : State) (seq : Word) (q : Squad) (f : Squad → Squad) : State :=
  s.updLaunch seq fun l => { l with squads := l.squads.map fun x => if x.stage == q.stage && x.inst == q.inst then f x else x }

/-- Roll a squad back to its proof (R325, R340): memory undo, copies of objects with effects held aside, cores, placement entries,
barriers, queued requests. A request that stands at another device's home is the one that the re-executed `ACQ` or `CBACQ` waits on. -/
def State.rollSquad (s : State) (seq : Word) (q : Squad) : State :=
  match s.launch seq with
  | none => s
  | some l =>
    let s0 := (q.cores.map (s.member seq)).foldl State.carry (s.restoreUndo q)
    let s1 := q.aside.foldl (fun s a => s.dropCopies a.pa 128) s0
    let s2 := q.cores.foldl (fun s i => if (s.at i).launch == some seq then s.on i Core.rolledBack else s) s1
    let again (x : Squad) : Squad :=
      { x with bars := x.barsProof, aside := [], memUndo := [], subround := 0, told := false, applied := false, committed := false }
    let s3 := s2.onSquad seq q again
    let mine (dev : Nat) (sq : Word) (core : Nat) : Bool := dev == s.devidx.toNat && sq == seq && q.cores.contains core
    let s4 : State := { s3 with
      images := s3.images.map fun m => if m.seq == seq && q.cores.contains m.home then { m with core := m.core.rolledAway } else m,
      cbs := s3.cbs.filter fun r => !mine r.dev r.seq r.core || s.isRemote r.pa,
      places := (s3.places.map fun e => if l.ownsPlace q e then e.rolled q else e).filter fun e => !e.declared.isEmpty }
    s4.unqueue fun r => mine r.dev r.seq r.core && !s.isRemote r.pa

/-- Whether a squad's superstep can no longer be rolled back: its logs are being committed, or the linked launches count on it, which have
been told that it is ready (R231, R344). Nothing of the superstep runs then (log entry 122). -/
def Launch.closing (l : Launch) (q : Squad) : Bool := q.applied || (q.told && !l.linked.isEmpty)

/-- Roll a squad back, and with it the linked launches (R325, R344). -/
def State.rollLinked (s : State) (seq : Word) (q : Squad) : State :=
  if (s.launch seq).any (·.closing q) then s
  else ((s.onSquad seq q fun x => { x with rolls := x.rolls + 1 }).tellLinked seq q.steps 0 .rolled).rollSquad seq q

/-- Restore memory from a launch's journal (R328), at other devices' homes too, with the bytes that its cores brought in their L1s (R162). -/
def State.restoreJournal (s : State) (l : Launch) : State :=
  l.journal.foldl (State.restoreFar []) (l.carried.foldl State.putBack (l.journal.foldl State.putBack s))

/-- The rollback counts of a pod's units are cleared (R327). -/
def Pod.stepped (p : Pod) : Pod := { p with groupFaults := Vector.replicate 16 0, sfuFaults := 0 }

/-- Change a pod. -/
def State.onPod (s : State) (p : Nat) (f : Pod → Pod) : State := { s with pods := s.pods.setIfInBounds p (f (s.pods.getD p {})) }

/-- The rollback counts of some pods' units are cleared. -/
def State.clearCounts (s : State) (ps : List Nat) : State := ps.foldl (fun s p => s.onPod p Pod.stepped) s

/-- Re-run a launch from its start, or end it with `status` when it is not eligible (R328, R407): its cores are freed
and it waits to be started again. -/
def State.rerun (s : State) (seq : Word) (status : Nat) (detail : Word) : State :=
  match s.launch seq with
  | none => s
  | some l =>
    if l.exposed || !l.journaled then s.endLaunch seq status detail
    else
      let s1 := s.restoreJournal l
      let cores := s1.coresOf seq
      let s2 := cores.foldl (fun s i => s.on i fun c =>
        { c.freed with l1 := c.freed.l1.filter (fun e => e.st != .m), memq := [] }) s1
      let s3 := (s2.updLaunch seq fun l =>
        { l with status := .waiting, rerun := true, squads := [], journal := [], triggered := false }).clearCounts (cores.map podOf)
      let s4 : State := { s3 with images := s3.images.filter fun m => m.seq != seq,
                                  places := s3.places.filter fun e => e.gen != l.gen,
                                  cbs := s3.cbs.filter fun r => !(r.seq == seq && r.dev == s.devidx.toNat) }
      s4.unqueue fun r => r.seq == seq && r.dev == s.devidx.toNat

/-- Retire cores until the next device reset (R327) and report it (R405). -/
def State.retireCores (s : State) (cs : List Nat) (seq : Word) : State :=
  cs.foldl (fun s i => (s.on i fun c => { c with retired := true }).event 5 1 i seq 0) s

/-- A core whose reserve was a retired lane group receives the lowest healthy shared group, a free one before one that another core holds;
where it holds every one itself, the lowest of its own (R208; log entry 120). -/
def State.newReserve (s : State) (p k : Nat) : Option Nat :=
  let pod := s.pods.getD p {}
  let healthy := ((List.range 8).map (· + 8)).filter fun x => !pod.retiredGroups.contains x && !pod.reserveOf.toList.contains x
  let heldBy (own : Bool) (x : Nat) : Bool := (List.range 8).any fun j => (j == k) == own && (s.at (8 * p + j)).shared.contains x
  ((healthy.filter fun x => !heldBy true x && !heldBy false x) ++ healthy.filter (heldBy false) ++ healthy.filter (heldBy true)).head?

/-- Take a lane group out of its pod's pool (R208, R327). A core left without a reserve, no healthy shared group being there, is
retired and its launch re-run. -/
def State.dropGroup (s : State) (p g : Nat) (seq team : Word) : State :=
  let s1 := (s.onPod p fun x => { x with retiredGroups := g :: x.retiredGroups }).event 5 2 (16 * p + g) seq 0
  (List.range 8).foldl (fun s k =>
    let c := 8 * p + k
    if (s.pods.getD p {}).reserveOf.getD k 0 != g then s.on c fun x => { x with shared := x.shared.erase g }
    else match s.newReserve p k with
      | none => (s.retireCores [c] seq).rerun seq 15 team
      | some x =>
        (List.range 8).foldl (fun s j => s.on (8 * p + j) fun y => { y with shared := y.shared.erase x })
          (s.onPod p fun pod => { pod with reserveOf := pod.reserveOf.setIfInBounds k x })) s1

/-- A rollback of a squad, found at core `i`, charged to a unit (R318, R325); at the third charge of a superstep the unit is
retired and the response of R327 is taken instead. -/
def State.rollbackOf (s : State) (seq : Word) (q : Squad) (i : Nat) (team : Word) (u : FaultUnit) : State :=
  match u with
  | .core c =>
    let n := (s.at c).faultCount + 1
    let s1 := s.on c fun x => { x with faultCount := n }
    if 3 ≤ n then (s1.retireCores [c] seq).rerun seq 15 team else (s1.event 4 1 c seq 0).rollLinked seq q
  | .laneGroup p g =>
    let n := ((s.pods.getD p {}).groupFaults.getD g 0) + 1
    let s1 := s.onPod p fun x => { x with groupFaults := x.groupFaults.setIfInBounds g n }
    let s2 := (s1.event 4 2 (16 * p + g) seq 0).rollLinked seq q
    if 3 ≤ n then s2.dropGroup p g seq team else s2
  | .sfu p =>
    let n := (s.pods.getD p {}).sfuFaults + 1
    let s1 := s.onPod p fun x => { x with sfuFaults := n }
    if 3 ≤ n then ((s1.event 5 3 p seq 0).retireCores ((List.range 8).map (8 * p + ·)) seq).rerun seq 15 team
    else (s1.event 4 3 p seq 0).rollLinked seq q
  | .channel p c => (s.event 4 4 (8 * p + c) seq 0).rollLinked seq q
  | .none => (s.event 4 1 i seq 0).rollLinked seq q

/-- A rollback of the squad of core `i`. -/
def State.rollback (s : State) (i : Nat) (u : FaultUnit) : State :=
  match (s.at i).launch, s.squadOf i with
  | some seq, some q => s.rollbackOf seq q i (BitVec.ofNat 64 (s.at i).team) u
  | _, _ => s

/-! ## Taking a trap and returning from it -/

/-- How an entry was raised (R379): where `epc` points, delay slots owed, the wait left, IMPR with SRC and CMDPC, EFLT. -/
structure Entry where
  epc : Word
  owed : Nat := 0
  wkind : Nat := 0
  wgrp : Nat := 0
  impr : Bool := false
  src : Nat := 0
  cmdpc : Word := 0
  eflt : Bool := false
  deriving DecidableEq, Repr

/-- The trap registers an entry writes (R379, R381). -/
def Sys.entered (y : Sys) (t : Trap) (e : Entry) : Sys :=
  { y with
    sup := true, owed := 0,
    epc := e.epc &&& 0x1FFFFFFFFFFFFF#64,
    left := if e.wkind = 1 then e.epc &&& 0x1FFFFFFFFFFFFF#64 else y.left,
    ecause := BitVec.ofNat 64 (packFields [(8, t.cause.num), (1, b1 e.impr), (3, e.src)]),
    einfo := BitVec.ofNat 64 (packFields [(32, t.detail), (32, if e.impr then e.cmdpc.toNat else 0)]),
    eaddr := BitVec.ofNat 64 (packFields [(53, t.addr), (1, b1 t.inPad)]),
    estat := BitVec.ofNat 64 (packFields [(1, b1 y.sup), (4, e.owed), (2, e.wkind), (1, b1 (t.cause == .residueEnd)),
      (1, b1 e.eflt), (7, 0), (8, e.wgrp)]) }

/-- The core after it has taken a trap with a handler (R381): mode, registers, the handler's address; a request to the
SFU that has not started is withdrawn (R227); the pending writes are set aside with the slots that remain (R179); the core leaves its chain (R157). -/
def Core.entered (c : Core) (t : Trap) (e : Entry) : Core :=
  { c with
    sys := c.sys.entered t e,
    ctx := { c.ctx with pc := c.sys.tvec + BitVec.ofNat 64 (64 * t.cause.num), attached := false },
    wait := none, resume := none, waited := 0, replay := [], stalled := false, handed := false,
    pend := [], pendHeld := c.pend.map fun p => { p with land := p.land - c.sys.slots.toNat },
    sfu := c.sfu.map fun r => if r.started then r else { r with withdrawn := true } }

/-- The status and DETAIL with which an unhandled trap ends its launch (R381, R402). -/
def trapStatus (c : Core) (t : Trap) : Nat × Word :=
  if t.cause == .residueEnd && !c.sys.sup then (11, BitVec.ofNat 64 (t.detail % 256))
  else (if c.sys.sup then 10 else 9,
    BitVec.ofNat 64 (packFields [(32, t.detail), (8, t.cause.num), (24, c.team)]))

/-- TAKE A TRAP on the running core (R381): in supervisor mode or without a vector base the launch ends with an error
record; else the trap registers, the mode and the program counter change as Core.entered says. -/
def State.takeTrap (s : State) (t : Trap) (e : Entry) : State :=
  let c := s.core
  if c.sys.sup || c.sys.tvec = 0 then
    let r := trapStatus c t
    match c.launch with
    | some seq => s.endLaunch seq r.1 r.2
    | none => s
  else s.setCore (c.entered t e)

/-- Let commands whose fault has been delivered resume (R385). -/
def resumed (x : Option Bool) : Option Bool := if x == some true then none else x

/-- RETURN FROM A TRAP (R382), in supervisor mode: mode and program counter come back, the owed slots are owed, stopped
commands whose fault was delivered resume when EFLT stands, the pending writes set aside are owed their slots from the next
instruction's on (R179), and a left wait is resumed, a `BAR`'s only at the address saved when it was left (R275). `dly` is the
delay of the `ERET`. The writes set aside took none of the eight entries while the handler ran, and with its own they may be more than eight now
(DESIGN CHOICE, log entry 124). -/
def Core.returned (dly : Nat) (c : Core) : Core :=
  let st := c.sys.estat.toNat
  let eflt := bitAt st 8
  let tiles := (c.copies.filter fun x => x.stop == some true).map (·.tile)
    ++ (c.port.filter fun x => x.stop == some true).map (·.tile)
  let ccs := ((c.port.filter fun x => x.stop == some true).map (·.cc)).filter fun k =>
    !c.port.any fun x => x.stop == some false && x.cc == k
  { c with
    sys := { c.sys with sup := bitAt st 0, owed := field st 1 4 },
    ctx := { c.ctx with
      pc := c.sys.epc,
      counters := if eflt then ccs.foldl (fun v k => v.setIfInBounds k.toNat { v.getD k.toNat {} with flt := false }) c.ctx.counters
        else c.ctx.counters,
      tiles := if eflt then tiles.foldl (fun v k => v.setIfInBounds k { v.getD k {} with flt := false }) c.ctx.tiles
        else c.ctx.tiles },
    copies := if eflt then c.copies.map (fun x => { x with stop := resumed x.stop }) else c.copies,
    port := if eflt then c.port.map (fun x => { x with stop := resumed x.stop }) else c.port,
    etch := if eflt then c.etch.map (fun x => { x with stop := resumed x.stop }) else c.etch,
    sfu := c.sfu.map fun r => { r with withdrawn := false },
    pend := (c.pendHeld.map fun p => { p with land := c.sys.slots.toNat + 1 + dly + p.land }) ++ c.pend, pendHeld := [],
    resume := match field st 5 2 with
      | 1 => if c.sys.epc = c.sys.left then some (.bar (field st 16 8) 0 0) else none
      | 2 => some (.sstep c.sys.epc 0)
      | _ => none }

end Sys2Proof.Machine
end

