-- ==== Sys2Proof/Machine/Operands.lean ====
section
/-! DEFINITION. Tensor operands: the format table (R128), element places and footprints (R166), the checks of handle
operands (R167), block scales (R139 to R141), plates (R168, R170), and the parts of placed tensors (R333, R346). -/

namespace Sys2Proof.Machine

/-! ## Formats -/

/-- Element size in 4-bit units by format tag; none for an unassigned tag (R128). -/
def fmtNibbles : Nat → Option Nat
  | 0x01 => some 16 | 0x02 => some 8 | 0x03 => some 4 | 0x04 => some 4
  | 0x10 => some 2 | 0x11 => some 2 | 0x12 => some 1
  | 0x20 => some 2 | 0x21 => some 1 | 0x22 => some 4 | 0x23 => some 8 | 0x24 => some 16
  | 0x30 => some 2 | 0x3F => some 18
  | _ => none

/-- Tags of the IEEE formats. -/
def ieeeTags : List Nat := [0x01, 0x02, 0x03, 0x04]
/-- Tags of the INT formats. -/
def intTags : List Nat := [0x20, 0x21, 0x22, 0x23, 0x24]
/-- Tags of the block formats. -/
def blockTags : List Nat := [0x11, 0x12]

/-- The tag of an element format code (R128). -/
def efTag : EF → Nat
  | EF.f64 => 0x01 | EF.f32 => 0x02 | EF.f16 => 0x03 | EF.bf16 => 0x04
  | EF.i8 => 0x20 | EF.i16 => 0x22 | EF.i32 => 0x23 | EF.i64 => 0x24 | EF.mk8 => 0x10

/-- The tag of a scalar format code. -/
def sfTag : SFmt → Nat
  | SFmt.f64 => 0x01 | SFmt.f32 => 0x02 | SFmt.f16 => 0x03 | SFmt.bf16 => 0x04

/-- The IEEE format of a tag; binary64 for a tag that is none. -/
def tagFFmt : Nat → FFmt
  | 0x02 => ⟨24, 8⟩ | 0x03 => ⟨11, 5⟩ | 0x04 => ⟨8, 8⟩ | _ => ⟨53, 11⟩

/-- Width in bits of an element of an INT or RES format. -/
def tagBits (tag : Nat) : Nat := 4 * (fmtNibbles tag).getD 2

/-- Bytes of an element format code. -/
def efBytes (e : EF) : Nat := ((fmtNibbles (efTag e)).getD 2) / 2

/-! ## Geometry -/

/-- Element size of a handle in 4-bit units. -/
def Handle.nib (h : Handle) : Nat := (fmtNibbles h.fmt.toNat).getD (Config.unassignedSize h.fmt.toNat)

/-- BASE + CURSOR. -/
def Handle.start (h : Handle) : Nat := h.base.toNat + h.cursor.toNat

/-- The extent of a dimension. -/
def Handle.ext (h : Handle) : Nat → Nat
  | 0 => h.ext0.toNat | 1 => h.ext1.toNat | 2 => h.ext2.toNat | _ => h.ext3.toNat

/-- The number of lines (R166). -/
def Handle.lines (h : Handle) : Nat := h.ext 1 * h.ext 2 * h.ext 3

/-- Whether some extent is 0. -/
def Handle.empty (h : Handle) : Bool := h.ext 0 = 0 || h.lines = 0

/-- Whether the format is a block format. -/
def Handle.isBlock (h : Handle) : Bool := blockTags.contains h.fmt.toNat

/-- Bytes from a line's start that hold `n` elements. -/
def Handle.span (h : Handle) (n : Nat) : Nat := (n * h.nib + 1) / 2

/-- Where line `l` begins, as an offset from BASE + CURSOR, in layouts 0 and 2 (R166). -/
def Handle.lineOff (h : Handle) (l : Nat) : Nat :=
  let i1 := l % h.ext 1
  let r := l / h.ext 1
  i1 * h.stride1.toNat + r % h.ext 2 * h.stride2.toNat + r / h.ext 2 * (h.stride2.toNat * h.ext 2)

/-- The footprint F (R166). -/
def Handle.footprint (h : Handle) : Nat :=
  if h.empty then 0
  else if h.layout = 1 || h.layout = 3 then h.stride1.toNat * h.lines
  else h.lineOff (h.lines - 1) + h.span (h.ext 0)

/-- Length of the scale stripe of a block format (R166). -/
def Handle.stripe (h : Handle) : Nat :=
  if !h.isBlock then 0
  else if h.layout = 1 then 16 * ceilDiv (h.ext 0) 64 * h.lines
  else if h.layout = 3 then 32 * ceilDiv (h.ext 0) 128 * h.lines
  else ceilDiv (h.ext 0) 4 * h.lines

/-- Offset in the stripe of the scale of block `b` of line `l` (R166). -/
def Handle.scaleOff (h : Handle) (l b : Nat) : Nat :=
  if h.layout = 1 then 16 * (l * ceilDiv (h.ext 0) 64 + b / 16) + b % 16
  else if h.layout = 3 then 32 * (l * ceilDiv (h.ext 0) 128 + b / 32) + b % 32
  else l * ceilDiv (h.ext 0) 4 + b

/-- Length of the stipple map of layout 3 (R166). -/
def Handle.stipple (h : Handle) : Nat := if h.layout = 3 then 16 * ceilDiv (h.ext 0) 128 * h.lines else 0

/-- Elements, scale stripe and stipple map together. -/
def Handle.bytes (h : Handle) : Nat := h.footprint + h.stripe + h.stipple

/-- Chunks of a line of a hatched operand (R182, R183). -/
def Handle.chunks (h : Handle) : Nat := ceilDiv (h.ext 0) (if h.layout = 3 then 128 else 64)

/-- The bytes that a line holds: elements (R166), or the planes of its chunks (R182, R183). -/
def Handle.lineBytes (h : Handle) : Nat :=
  if h.layout = 1 || h.layout = 3 then h.chunks * 8 * (h.planes.toNat + 1) else h.span (h.ext 0)

/-- Where line `l` begins, as an offset from BASE + CURSOR (R166, R182, R183). -/
def Handle.lineStart (h : Handle) (l : Nat) : Nat :=
  if h.layout = 1 || h.layout = 3 then l * h.stride1.toNat else h.lineOff l

/-- The bytes of a handle's elements line by line, as addresses; a byte of two nibbles stands once. -/
def Handle.elemAddrs (h : Handle) : List Nat :=
  if h.empty then []
  else (List.range h.lines).flatMap fun l => (List.range h.lineBytes).map fun k => h.start + h.lineStart l + k

/-- The bytes of the scale stripe and the stipple map (R166). -/
def Handle.tailAddrs (h : Handle) : List Nat := (List.range (h.stripe + h.stipple)).map (h.start + h.footprint + ·)

/-! ## Checks of R167 -/

/-- The einfo word of a format trap (R167). -/
def fmtDetail (opnd fmt cond : Nat) : Nat := packFields [(3, opnd), (5, 0), (8, fmt), (4, cond)]

/-- A format trap. -/
def fmtTrap (opnd : Nat) (h : Handle) (cond : Nat) : Trap :=
  { cause := .format, detail := fmtDetail opnd h.fmt.toNat cond }

/-- The layouts R167 allows a format. -/
def layoutFits (tag layout : Nat) : Bool :=
  match layout with
  | 0 => true
  | 1 => intTags.contains tag || blockTags.contains tag
  | 2 => tag == 0x30
  | 3 => intTags.contains tag || blockTags.contains tag || tag == 0x10
  | _ => false

/-- The block condition of R167. -/
def blockFits (tag blk : Nat) : Bool := blk == if blockTags.contains tag then 2 else 0

/-- The tile condition of R167. -/
def tileFits (t : Nat) : Bool := t < 32 || t == 0xFF

/-- What an instruction accepts of a handle operand: the space, the tags (none: the tag is not checked), the layouts, the
shape. -/
structure Accept where
  space : Option Bool := some true
  tags : Option (List Nat)
  layouts : Option (List Nat) := some [0]
  shape : Bool := true

/-- The first condition of R167 that a handle breaks: space 5, tag 0, layout 1, block 2, tile 3, extents 4. Where the operand's FMT is not checked,
neither are the conditions that compare LAYOUT and BLOCK with it (DESIGN CHOICE, log entry 123). -/
def Accept.fails (a : Accept) (h : Handle) : Option Nat :=
  if a.space.any (· != h.pad) then some 5
  else if a.tags.any (fun l => !l.contains h.fmt.toNat || (fmtNibbles h.fmt.toNat).isNone) then some 0
  else if a.layouts.any (fun l => !l.contains h.layout.toNat) then some 1
  else if a.tags.isSome && !layoutFits h.fmt.toNat h.layout.toNat then some 1
  else if a.tags.isSome && !blockFits h.fmt.toNat h.block.toNat then some 2
  else if !tileFits h.tile.toNat then some 3
  else if !a.shape then some 4
  else none

/-- Judge operands in ascending number (R167). -/
def judge : List (Nat × Handle × Accept) → Option Trap
  | [] => none
  | (n, h, a) :: rest =>
    match a.fails h with
    | some c => some (fmtTrap n h c)
    | none => judge rest

/-- Every assigned tag. -/
def allTags : List Nat := [0x01, 0x02, 0x03, 0x04, 0x10, 0x11, 0x12, 0x20, 0x21, 0x22, 0x23, 0x24, 0x30, 0x3F]

/-! ## Plates -/

/-- A handle from the low 256 bits of a plate, CURSOR 0 and TILE 0xFF (R168, R170). -/
def Handle.ofPlate (w : Nat) : Handle :=
  { base := .ofNat 53 (field w 0 53), pad := bitAt w 53, fmt := .ofNat 8 (field w 56 8), cursor := 0,
    layout := .ofNat 4 (field w 96 4), planes := .ofNat 4 (field w 100 4), tile := 0xFF,
    block := .ofNat 8 (field w 112 8), ext0 := .ofNat 16 (field w 128 16), ext1 := .ofNat 16 (field w 144 16),
    ext2 := .ofNat 16 (field w 160 16), ext3 := .ofNat 16 (field w 176 16), stride1 := .ofNat 32 (field w 192 32),
    stride2 := .ofNat 32 (field w 224 32) }

/-- The 256 bits that `HST` stores (R170). -/
def Handle.toPlate (h : Handle) : Nat :=
  packFields [(53, h.base.toNat), (1, b1 h.pad), (2, 0), (8, h.fmt.toNat), (32, h.stride2.toNat * h.ext 2),
    (4, h.layout.toNat), (4, h.planes.toNat), (8, 0), (8, h.block.toNat), (8, 0), (16, h.ext 0), (16, h.ext 1),
    (16, h.ext 2), (16, h.ext 3), (32, h.stride1.toNat), (32, h.stride2.toNat)]

/-- The reserved fields of a plate (R165, R168): first bit and width. -/
def plateReserved : List (Nat × Nat) := [(54, 2), (104, 8), (120, 8), (309, 11), (373, 11), (393, 7), (416, 96)]

/-- The checks of `HLD` on a plate (R170), its handle as operand 1. Reserved fields that are not zero break a condition of
R167 that has no code: the model gives 2 for those of BLOCK and 4 for the others (DESIGN CHOICE, log entry 62). -/
def plateCheck (w : Nat) : Except Trap Handle :=
  let h := Handle.ofPlate w
  let stripeEnd := h.base.toNat + h.footprint + h.stripe
  match (Accept.fails { space := none, tags := some allTags, layouts := some [0, 1, 2, 3] } h) with
  | some c => .error (fmtTrap 1 h c)
  | none =>
    if plateReserved.any fun f => field w f.1 f.2 != 0 then .error (fmtTrap 1 h 4)
    else if 1 < h.ext 3 && field w 64 32 != (h.stride2.toNat * h.ext 2) % 2 ^ 32 then .error (fmtTrap 1 h 4)
    else if h.isBlock && field w 256 53 != (h.base.toNat + h.footprint) % 2 ^ 53 then .error (fmtTrap 1 h 2)
    else if h.layout = 3 && field w 320 53 != stripeEnd % 2 ^ 53 then .error (fmtTrap 1 h 1)
    else .ok h

/-! ## Block formats (R139 to R141) -/

/-- ⌊log2⌋ of a nonzero value. -/
def FV.log2 : FV → Int | .fin _ m e => e + bitLen m - 1 | _ => 0

/-- A value times 2^k. -/
def FV.scale (k : Int) : FV → FV | .fin n m e => .fin n m (e + k) | v => v

/-- A finite value rounded to an integer. -/
def FV.toInt (r : Rnd) : FV → Int × Bool
  | .fin n m e => roundInt r n m e
  | _ => (0, false)

/-- The scale of R140 for a block's values at width `w`, before it is kept within −127 to 127. -/
def blockScaleRaw (r : Rnd) (w : Nat) (xs : List FV) : Int :=
  if xs.all (·.isZero) then 0
  else if xs.any (fun x => match x with | .inf _ => true | _ => false) then 127
  else
    let nz := (xs.filter (!·.isZero)).map FV.log2
    let e := nz.foldl max (nz.head?.getD 0)
    let t := e - ((w : Int) - 2)
    let lo : Int := -(2 ^ (w - 1) : Nat)
    let hi : Int := (2 ^ (w - 1) : Nat) - 1
    let out := xs.any fun x => let v := ((x.scale (-t)).toInt r).1; v < lo || hi < v
    if out then t + 1 else t

/-- The scale that R140 chooses for a block's values at width `w`. -/
def blockScale (r : Rnd) (w : Nat) (xs : List FV) : Int := satInt (blockScaleRaw r w xs) (-127) 127

/-- One significand against a scale: the saturated integer, whether it changed, whether it saturated (R140). -/
def blockSig (r : Rnd) (w : Nat) (t : Int) (x : FV) : Int × Bool × Bool :=
  let lo : Int := -(2 ^ (w - 1) : Nat)
  let hi : Int := (2 ^ (w - 1) : Nat) - 1
  match x with
  | .inf n => (if n then lo else hi, true, true)
  | x =>
    let (v, inex) := (x.scale (-t)).toInt r
    let c := satInt v lo hi
    (c, inex || c != v, c != v)

/-- Convert a block into width `w` (R140): scale byte, significands, flags. -/
def blockConvert (r : Rnd) (w : Nat) (xs : List FV) : Nat × List Nat × Fl :=
  if xs.any (·.isNaN) then (0x80, xs.map (fun _ => 0), flagIf (xs.any (·.isSNaN)) fNV)
  else
    let t := blockScale r w xs
    let sg := xs.map (blockSig r w t)
    let clamped := blockScaleRaw r w xs < -127
    (ofSval 8 t, sg.map (fun x => ofSval w x.1),
      flagIf (sg.any (·.2.1)) fNX ||| flagIf (sg.any (·.2.2)) fOF ||| flagIf (clamped && sg.any (·.2.1)) fUF)

/-- The value of an element of a block (R139). -/
def blockValue (w : Nat) (scale sig : Nat) : FV :=
  if scale = 0x80 then .dnan
  else
    let v := sval w sig
    .fin (v < 0) v.natAbs (sval 8 scale)

/-! ## Elements -/

/-- Bits of element `k` of a run of bytes, elements of `nib` 4-bit units. -/
def elemBits (nib : Nat) (bs : List Byte) (k : Nat) : Nat :=
  if nib = 1 then field (bs.getD (k / 2) 0).toNat (4 * (k % 2)) 4
  else ofBytesLE ((bs.drop (k * nib / 2)).take (nib / 2))

/-- The bytes of a run of elements of `nib` 4-bit units. -/
def packElems (nib : Nat) (vs : List Nat) : List Byte :=
  if nib = 1 then
    (List.range ((vs.length + 1) / 2)).map fun j =>
      BitVec.ofNat 8 (packFields [(4, vs.getD (2 * j) 0), (4, vs.getD (2 * j + 1) 0)])
  else vs.flatMap (bytesLE (nib / 2))

/-- The value of an element of an IEEE, MK8 or INT tag. -/
def tagValue (tag w : Nat) : FV :=
  if tag = 0x10 then mk8Decode w
  else if intTags.contains tag then .ofInt (sval (tagBits tag) w)
  else (tagFFmt tag).decode w

/-- The bits of a value in an IEEE or MK8 tag, rounding by mode. -/
def tagBitsOf (r : Rnd) (tag : Nat) (v : FV) : Nat × Fl :=
  if tag = 0x10 then mk8Encode r v
  else if intTags.contains tag then
    let w := tagBits tag
    let (x, f) := toIntRange r (-(2 ^ (w - 1) : Nat)) ((2 ^ (w - 1) : Nat) - 1) v
    (ofSval w x, f)
  else
    let (y, f) := (tagFFmt tag).convert r v
    ((tagFFmt tag).encode y, f)

/-! ## Placed parts (R333, R346) -/

/-- Coordinates from a pod's rank and a device's position (R160, R343): axis 0 varies fastest. -/
def meshCoords : List (Nat × Bool) → Nat → Nat → List Nat
  | [], _, _ => []
  | (n, true) :: rest, p, d => d % n :: meshCoords rest p (d / n)
  | (n, false) :: rest, p, d => p % n :: meshCoords rest (p / n) d

/-- The number of members. -/
def meshSize (axes : List (Nat × Bool)) : Nat := axes.foldl (fun a x => a * x.1) 1

/-- The member index of coordinates (R333). -/
def memberIndex : List (Nat × Bool) → List Nat → Nat
  | (n, _) :: ax, c :: cs => c + n * memberIndex ax cs
  | _, _ => 0

/-- The coordinates of a member index. -/
def memberCoords : List (Nat × Bool) → Nat → List Nat
  | [], _ => []
  | (n, _) :: ax, m => m % n :: memberCoords ax (m / n)

/-- The byte of a state word for an axis (R332). -/
def stateByte (st a : Nat) : Nat := field st (8 * a) 8

/-- KIND of a state byte. -/
def stateKind (st a : Nat) : Nat := stateByte st a % 4

/-- ARG of a state byte. -/
def stateArg (st a : Nat) : Nat := stateByte st a / 4 % 4

/-- The axes sharded along a dimension, ascending. -/
def shardAxes (axes : List (Nat × Bool)) (st d : Nat) : List Nat :=
  (List.range axes.length).filter fun a => stateKind st a == 1 && stateArg st a == d

/-- n[d] of R346. -/
def shardCount (axes : List (Nat × Bool)) (st d : Nat) : Nat :=
  (shardAxes axes st d).foldl (fun n a => n * (axes.getD a (1, false)).1) 1

/-- p[d] of R346. -/
def shardLen (h : Handle) (axes : List (Nat × Bool)) (st d : Nat) : Nat :=
  let n := shardCount axes st d
  let x := h.ext d
  if d = 0 && h.isBlock then 4 * ceilDiv (ceilDiv x 4) n
  else if d = 0 && h.fmt = 0x21 then 2 * ceilDiv (ceilDiv x 2) n
  else ceilDiv x n

/-- j[d] of R346 for coordinates. -/
def shardPos (axes : List (Nat × Bool)) (st d : Nat) (cs : List Nat) : Nat :=
  (shardAxes axes st d).foldr (fun a r => cs.getD a 0 + (axes.getD a (1, false)).1 * r) 0

/-- x[d] of R346. -/
def shardExt (h : Handle) (axes : List (Nat × Bool)) (st d : Nat) (cs : List Nat) : Nat :=
  let p := shardLen h axes st d
  min p (h.ext d - shardPos axes st d cs * p)

/-- The size Z of a part (R333). -/
def partSize (h : Handle) : Nat := ceilDiv h.bytes 64 * 64

/-- The handle of the part of coordinates `cs` in state `st` (R333, R346). -/
def partHandle (h : Handle) (axes : List (Nat × Bool)) (st : Nat) (cs : List Nat) : Handle :=
  { h with
    base := .ofNat 53 (h.base.toNat + memberIndex axes cs * partSize h), cursor := 0, tile := 0xFF,
    ext0 := .ofNat 16 (shardExt h axes st 0 cs), ext1 := .ofNat 16 (shardExt h axes st 1 cs),
    ext2 := .ofNat 16 (shardExt h axes st 2 cs), ext3 := .ofNat 16 (shardExt h axes st 3 cs) }

/-- The pods of a group's members, ascending. -/
def Group.pods (g : Group) : List Nat := (List.range Config.pods).filter fun p => g.members.any fun c => podOf c == p

/-- The position of the device in a mesh's device list (R343). -/
def State.devPos (s : State) (l : Launch) (g : Nat) : Nat :=
  match l.devLists.find? fun x => x.1 == g with
  | none => 0
  | some x => (x.2.findIdx? (· == s.devidx.toNat)).getD 0

/-- The coordinates of the member in whose pod, or on whose device, a core runs (R335, R343). -/
def State.coordsOfCore (s : State) (l : Launch) (g : Nat) (grp : Group) (core : Nat) : List Nat :=
  meshCoords grp.axes ((grp.pods.findIdx? (· == podOf core)).getD 0) (s.devPos l g)

/-- The own part of a core under an entry: address and size (R333, R335). -/
def State.ownPart (s : State) (e : Place) (core : Nat) : Option (Nat × Nat) :=
  match s.launchOf core with
  | none => none
  | some l => match l.group e.group with
    | none => none
    | some g =>
      if g.members.contains core then
        some (e.handle.base.toNat + memberIndex g.axes (s.coordsOfCore l e.group g core) * partSize e.handle,
              partSize e.handle)
      else none

/-- The entries of a core's launch. -/
def State.placesOf (s : State) (core : Nat) : List Place :=
  match s.launchOf core with
  | none => []
  | some l => s.places.filter fun e => e.gen == l.gen

/-- Whether an access of a core touches its own part of an entry while the result of a cut that the core has arrived at is not yet in the
part (R335). -/
def State.holdsPart (s : State) (core va n : Nat) (e : Place) : Bool :=
  e.declared.contains core && e.busy && e.arrived.contains core &&
    (s.ownPart e core).any fun p => overlap va n p.1 p.2 &&
      !e.written.contains ((p.1 - e.handle.base.toNat) / max 1 p.2)

/-- R335: an access of a core to its own part waits when the core has arrived at a cut whose result is not yet in the
part. -/
def State.partHeld (s : State) (core va n : Nat) : Bool := (s.placesOf core).any (s.holdsPart core va n)

/-- What such an access waits for. -/
def State.partWait (s : State) (core va n : Nat) : Wait :=
  .placement (((s.placesOf core).find? (s.holdsPart core va n)).map (·.idx) |>.getD 0) true

end Sys2Proof.Machine
end

