-- ==== Sys2Proof/Machine/Window.lean ====
section
/-! DEFINITION. Slots: pending scratchpad writes (R179), timed windows and the `SEND`s that land in them (R236, R237), link failures of a
core's port (R320, R327, R330), and the empty slots that an instruction inserts before it issues (R179). -/

namespace Sys2Proof.Machine

/-! ## What has been performed and has landed -/

/-- Whether every store and write-back of a core has been performed. -/
def Core.performed (c : Core) : Bool :=
  c.memq.all fun q => match q with | .fill _ _ _ _ | .repin _ _ _ => true | _ => false

/-- Whether every engine command of a core has completed. -/
def Core.enginesIdle (c : Core) : Bool :=
  c.copies.isEmpty && c.port.isEmpty && c.plane.isEmpty && c.stats.isEmpty && c.etch.isEmpty

/-- Whether writes of core `i` to bytes of another device have still to be performed at their home (R259, R368). -/
def State.farPending (s : State) (i : Nat) : Bool :=
  (s.at i).launch.any fun seq => s.farWrites.any fun w => w.seq == seq && w.team == (s.at i).team

/-- Whether the earlier accesses of core `i` have been performed with respect to a scope (R110, R253, R260, R368): its own engines see
them at once; at `.sys` every device that the home has asked has replied, and so have the homes on other devices. -/
def State.performedAt (s : State) (i : Nat) (sc : Scope) : Bool :=
  sc == .core || ((s.at i).performed && (sc != .sys || (s.remotes.all (!·.asked) && !s.farPending i)))

/-- R117: whether every write that was pending when a command issued has landed. -/
def Core.landed (c : Core) (need : Nat) : Bool := (c.pend ++ c.pendHeld).all fun p => need ≤ p.seq

/-- The pending write that is due (R179): its landing slot has come and its data are there. -/
def Core.dueWrite (c : Core) : Option PendWrite :=
  match firstPend c.pend with
  | some p => if p.ready && p.land ≤ c.sys.slots.toNat then some p else none
  | none => none

/-- Whether a pending write is due whose data are missing: the core stands still (R227). -/
def Core.starved (c : Core) : Bool :=
  match firstPend c.pend with
  | some p => !p.ready && p.land ≤ c.sys.slots.toNat
  | none => false

/-- Whether a copy command of core `i` may access anything yet (R117, R260, R385). -/
def State.copyReady (s : State) (i : Nat) (x : CopyCmd) : Bool :=
  x.stop.isNone && (s.at i).landed x.need && (!(x.fl.acq && x.done = 0) || s.performedAt i x.fl.scope)

/-! ## The link into a core's port -/

/-- Clear an injection bit unless STICKY stands (R329). -/
def Sys.reported (y : Sys) (b : Nat) : Sys := if bitAt y.inj.toNat 8 then y else { y with inj := y.inj &&& ~~~(1#9 <<< b) }

/-- A failed send of a message in a row with the others of its name; at the eighth the link goes out of service (R320). -/
def Core.linkFailed (m : Nat × Nat) (c : Core) : Core :=
  let n := ((c.linkFails.find? (·.1 == m)).map (·.2)).getD 0 + 1
  let rest := c.linkFails.filter (·.1 != m)
  if 8 ≤ n then { c with linkFails := rest, linkOut := true } else { c with linkFails := (m, n) :: rest }

/-- A message to the port of core `r`, named by its sender's core and its command's place, fails its tag (R320, R329): it is sent
again. A link that fails it eight times in a row is retired, and the message takes another path (R320, R327). -/
def State.linkFails (s : State) (r : Nat) (m : Nat × Nat) : Option State :=
  if bitAt (s.at r).sys.inj.toNat 6 && !(s.at r).linkOut then
    let s1 := (s.on r fun c => (c.updSys (·.reported 6)).linkFailed m).event 3 1 r (s.seqOf r) 0
    some (if (s1.at r).linkOut then s1.event 5 1 r (s.seqOf r) 0 else s1)
  else none

/-- A message has passed the port of a core: its failures count no more. -/
def Core.linkPassed (m : Nat × Nat) (c : Core) : Core := { c with linkFails := c.linkFails.filter (·.1 != m) }

/-! ## Timed sends (R236, R237) -/

/-- The slot count of core `r` at which a timed send lands, when its window is open there (R237). -/
def Core.dueAt (r : Core) (l : Nat × Nat × Nat) : Option Nat :=
  r.window.bind fun w => if w.group == l.1 && w.phase == l.2.1 then some (w.base.toNat + l.2.2) else none

/-- Whether a timed `SEND` of an earlier window still has to land in core `i` (R237). -/
def State.inbound (s : State) (i g phase : Nat) : Bool :=
  (List.range 8).any fun k => (s.at (8 * podOf i + k)).copies.any fun x =>
    x.tgt == i % 8 && x.timed.any fun l => !(l.1 == g && l.2.1 == phase)

/-- The window slot at which core `o` issues next in a window, whether it runs, is held back at issue or waits; a core that has still to leave
the closed phase of its `BAR` is at slot 0. -/
def State.windowSlot (s : State) (w : Window) (o : Nat) : Option Nat :=
  let c := s.at o
  if c.phase != .running then none
  else match (if c.wait.isSome then c.wait else c.resume), c.window with
    | some (.bar g t _), _ => if g == w.group && t == w.phase then some 0 else none
    | _, some x => if x.group == w.group && x.phase == w.phase then some ((c.sys.slots - x.base).toNat + c.sys.owed) else none
    | _, none => none

/-- The members of core `i`'s set that may still issue a timed `SEND` that lands in it in a slot or earlier (R237). -/
def State.behind (s : State) (i slot : Nat) : List Nat :=
  match (s.at i).window with
  | none => []
  | some w => ((List.range 8).filter fun j =>
      j != i % 8 && (s.at (8 * podOf i + j)).launch == (s.at i).launch &&
        (s.windowSlot w (8 * podOf i + j)).any fun k => w.base.toNat + k + 2 * ((i % 8 + 8 - j) % 8) + 4 ≤ slot).map (8 * podOf i + ·)

/-- An entry of the tile table. -/
def Core.tile (c : Core) (t : Nat) : Tile := c.ctx.tiles.getD t {}

/-- Packets of a sender to a receiver in one sub-round (R241). -/
def Launch.allowance (l : Launch) : Nat := max 1 (1024 / max 1 (l.team.filter (· != 768)).length)

/-- Whether a command fills a new slot; none for a command on no slot. -/
def PlaneOp.fills : PlaneOp → Option Bool
  | .mma _ acc _ _ _ => some (!acc)
  | .mrec _ prog => some (field prog.toNat 48 2 != 3)
  | .hatch | .unhatch => none

/-- The receivers of a port command. -/
def PortCmd.receivers (x : PortCmd) : List Nat :=
  match x.tgt with
  | .cores l => l.map (·.1)
  | .plate _ => []

/-- How many packets of a `PUT` have landed at its `j`-th receiver. -/
def PortCmd.landedAt (x : PortCmd) (j : Nat) : Nat := x.sent.getD j 0

/-- The receivers, by place in the list, that the next packet of a `PUT` at place `k` of a port may reach now (R240, R241, R261): of those
where its sub-round is open, those that wait for the lowest element, once no earlier command of the core has packets left for any of
them. -/
def Core.putOpen (c : Core) (k : Nat) (x : PortCmd) (l : List (Nat × Nat)) (allowance subround : Nat) : List Nat :=
  let before (t : Nat) : Bool := (c.port.take k).any fun y => y.kind == .put &&
    (List.range y.receivers.length).any fun m => y.receivers.getD m 0 == t && y.landedAt m < y.n
  let first (t : Nat) : Nat := ((x.first.find? (·.1 == t)).map (·.2)).getD 0
  let ok (j : Nat) : Bool := let t := (l.getD j (0, 0)).1
    x.landedAt j < x.n && (first t + x.landedAt j) / allowance ≤ subround
  let open' := (List.range l.length).filter ok
  let low := (open'.map x.landedAt).foldl min x.n
  let js := open'.filter fun j => x.landedAt j == low
  if js.any fun j => before (l.getD j (0, 0)).1 then [] else js

/-- Whether a copy command stands still until another command or core has done its part: a timed `SEND` until its slot, a command whose tile is
not yet its own (R173, R237). -/
def Core.copyHeld (c : Core) (x : CopyCmd) : Bool :=
  match x.kind with
  | .send => x.timed.isSome
  | .fill => (c.tile x.tile).st != .filling
  | .drain => (c.tile x.tile).st != .draining

/-- Whether a port command stands still until another core has done its part: a message before a full mailbox, a packet whose sub-round is not
open (R241, R276). -/
def State.portHeld (s : State) (o k : Nat) (x : PortCmd) : Bool :=
  match s.launchOf o with
  | none => true
  | some l =>
    match x.kind, x.tgt with
    | .msg, .cores ((t, _) :: _) => (l.coreOf t).any fun r => 16 ≤ (s.member l.record.seq r).ctx.mailbox.length
    | .put, .cores ts => ((s.at o).putOpen k x ts l.allowance (((l.squadOf o).map (·.subround)).getD 0)).isEmpty
    | _, _ => false

/-- Whether a gang operation of core `o` has still to be given by another member (R185, R197): `given` says whether a core has one. -/
def State.gangHeld (s : State) (o : Nat) (given : Core → Bool) : Bool :=
  (s.launchOf o).any fun l => (l.groups.find? fun g => g.2.kind == 1 && g.2.members.contains o).any fun g =>
    g.2.members.any fun m => (s.at m).phase != .exited && !given (s.at m)

/-- Whether no engine command of core `o` can move before another core has done its part. -/
def State.enginesHeld (s : State) (o : Nat) : Bool :=
  let c := s.at o
  let plane := c.plane.head?.any fun x => x.op.fills.isSome && !x.started && s.gangHeld o (!·.plane.isEmpty)
  c.memq.isEmpty && c.copies.all c.copyHeld && (List.range c.port.length).all (fun k => (c.port[k]?).all (s.portHeld o k))
    && (c.plane.isEmpty || plane) && (c.stats.isEmpty || plane || s.gangHeld o (!·.stats.isEmpty)) && (c.etch.isEmpty || plane)

/-- Whether core `o` waits for what only another core can still do. -/
def State.stuck (s : State) (o : Nat) : Bool :=
  let c := s.at o
  s.enginesHeld o && match c.wait with
  | some .msg => c.ctx.mailbox.isEmpty
  | some (.counter cc n) => (c.ctx.counters.getD cc.toNat {}).done.toNat < n
  | some .join | some (.acq _) | some (.cbacq _) | some (.cbwait _ _) | some (.placement _ _) | some (.bar _ _ _) | some (.sstep _ _) => true
  | some _ => !c.enginesIdle
  | none => c.resume.isSome

/-- Whether every other core of core `i`'s launch has exited, is stuck, or stands frozen itself: only `i` can go on. -/
def State.lastToGo (s : State) (i : Nat) : Bool :=
  (List.range 768).all fun k =>
    let c := s.at k
    k == i || c.launch != (s.at i).launch || c.phase == .exited || s.stuck k
      || !(s.behind k (c.sys.slots.toNat + c.sys.owed)).isEmpty

/-- Whether a core must not reach a slot yet (R237): a member of its set may still issue a timed `SEND` that lands there or earlier; the
core freezes for it, unless the member waits for what only this core can still do (log entry 107). -/
def State.frozenAt (s : State) (i slot : Nat) : Bool :=
  (s.behind i slot).any fun o => !s.stuck o || !s.lastToGo i

/-- The timed `SEND`s on their way to core `i`, as the slot they land in, the sender and their place in its queue (R237). -/
def State.ringIn (s : State) (i : Nat) : List (Nat × Nat × Nat) :=
  (List.range 8).flatMap fun j =>
    let o := 8 * podOf i + j
    let xs := (s.at o).copies
    (List.range xs.length).filterMap fun k => xs[k]?.bind fun x =>
      if x.kind == .send && x.tgt == i % 8 then (x.timed.bind (s.at i).dueAt).map fun d => (d, o, k) else none

/-- The first of some landings: the lowest slot, then the lowest sender, then the sender's order (R237). -/
def firstRing : List (Nat × Nat × Nat) → Option (Nat × Nat × Nat)
  | [] => none
  | x :: rest =>
    match firstRing rest with
    | none => some x
    | some r => if r.1 < x.1 then some r else some x

/-- The first timed `SEND` that is due in core `i` (R237). -/
def State.dueSend (s : State) (i : Nat) : Option (Nat × Nat) :=
  ((firstRing (s.ringIn i)).filter fun x => x.1 ≤ (s.at i).sys.slots.toNat).map (·.2)

/-- The bytes of the send at place `k` of core `c` land in its target and the transfer completes (R237, R240, R288); none while it cannot
move. -/
def State.sendMove (s : State) (c k : Nat) : Option State :=
  let me := s.at c
  match me.copies[k]?, me.launch with
  | some x, some seq =>
    let r := 8 * podOf c + x.tgt
    if x.kind != .send || !s.copyReady c x || (x.fl.rel && !s.performedAt c x.fl.scope) then none
    else match s.linkFails r (c, x.pos) with
      | some s1 => some s1
      | none =>
        let bs := me.seen x.veil x.hl.start x.hl.bytes
        some ((s.onMember seq r fun m => (m.linkPassed (c, x.pos)).padWrite (cellsAt x.dst bs)).on c fun m =>
          { m with copies := m.copies.eraseIdx k })
  | _, _ => none

/-! ## Empty slots (R179) -/

/-- What came of inserting slots: done, the core stands frozen where it has come to, or a write's data are missing. -/
inductive Slots where
  | ok (s : State)
  | frozen (s : State)
  | starved (s : State)
  deriving DecidableEq, Repr

/-- Insert empty slots until at most `keep` writes are pending in core `i`, all writes of a slot reached landing, timed `SEND`s in their slots
(R179, R237); a core that must freeze, or whose bytes have not arrived, goes on later. -/
def State.slotsTo (i keep : Nat) : Nat → State → Slots
  | 0, s => .frozen s
  | fuel + 1, s =>
    match (firstPend (s.at i).pend).filter fun p => (s.at i).mustLand keep p with
    | none => match s.dueSend i with
      | some (o, k) => match s.sendMove o k with
        | some s1 => State.slotsTo i keep fuel s1
        | none => .frozen s
      | none => .ok s
    | some p =>
      if s.frozenAt i p.land then .frozen s
      else match (firstRing (s.ringIn i)).filter fun x => x.1 < p.land with
        | some (d, o, k) =>
          let s1 := s.on i (Core.atSlot d)
          match s1.sendMove o k with
          | some s2 => State.slotsTo i keep fuel s2
          | none => .frozen s1
        | none => if p.ready then State.slotsTo i keep fuel (s.on i fun c => (c.land p).atSlot p.land) else .starved s

end Sys2Proof.Machine
end

