-- ==== Sys2Proof/Machine/Issue.lean ====
section
/-! DEFINITION. How an instruction issues (R19, R21, R380): a body computes the state after the instruction's effect, or
says why it does not complete; `issue` adds the guard, the slot, the delay slots, the next program counter, the trap. -/

namespace Sys2Proof.Machine

/-- Why an instruction does not complete in this step. -/
inductive Halt where
  /-- A precise trap at the instruction, with the effects its rule allows it (R380). -/
  | trap (t : Trap) (s : State)
  /-- A trap taken after the instruction has completed (R19, R381). -/
  | after (t : Trap) (s : State)
  /-- A wait (R148). -/
  | wait (w : Wait) (s : State)
  /-- Held back at issue on the core's own resources (R163, R179). -/
  | stall (s : State)
  /-- The launch has ended or is rolled back. -/
  | gone (s : State)
  deriving DecidableEq, Repr

/-- A computation of an instruction's body. -/
abbrev Run (α : Type) := Except Halt α

/-- A body answers the state after the effect and, for a transfer, the next program counter. -/
abbrev Body := State → Run (State × Option Word)

/-- The outcome type of `exec`. -/
abbrev Out := Host.Outcome State Fault Refusal

/-- A yield point: a core with a pending request stops at this boundary (R26, R286); an attached follower stops with its
leader (R158). -/
def Core.atYield (yld : Bool) (c : Core) : Core :=
  if yld && c.stopReq.isSome && !c.ctx.attached then { c with stopped := true } else c

/-- Complete the instruction and look for a pending request at a yield point. -/
def State.finish (yld : Bool) (dly : Nat) (npc : Word) (s : State) : State :=
  (s.retire dly npc).upd (Core.atYield yld)

/-- The state after an instruction that did not complete. -/
def State.halted (dly : Nat) (pc next : Word) : Halt → State
  | .trap t s => s.takeTrap t { epc := pc }
  | .after t s => (s.retire 0 next).takeTrap t { epc := next, owed := dly }
  | .wait w s => s.upd fun c => { c with wait := some w, waited := c.waited + 1 + Config.stallCycles s.tick }
  | .stall s => s.upd fun c => { c with stalled := true }
  | .gone s => s

/-- Issue an instruction of `len` bytes: a false guard leaves only the slots (R21). -/
def State.issue (s : State) (holds yld : Bool) (dly len : Nat) (body : Body) : Out :=
  let pc := s.core.ctx.pc
  let next := pc + BitVec.ofNat 64 len
  if !holds then .next (s.finish yld dly next)
  else
    match body s with
    | .ok (s', npc) => .next (s'.finish yld dly (npc.getD next))
    | .error h => .next (State.halted dly pc next h)

/-- Issue a 64-bit instruction. -/
def State.issue64 (s : State) (h : Hd) (body : Body) : Out := s.issue (s.core.guard h) false h.dly.toNat 8 body

/-- Issue a 96-bit instruction. -/
def State.issue96 (s : State) (h : Hd) (body : Body) : Out := s.issue (s.core.guard h) false h.dly.toNat 12 body

/-- Add a signed 16-bit increment to a handle's CURSOR modulo 2^32 (R28). -/
def Core.bump1 (n : HReg) (inc : BitVec 16) (c : Core) : Core :=
  c.setH n { c.getH n with cursor := (c.getH n).cursor + inc.signExtend 32 }

/-- The post-increments of a 128-bit instruction (R28): `ops` pairs an operand's place with its handle register. -/
def Core.bumps : List HReg → List (BitVec 16) → Core → Core
  | r :: rs, i :: is, c => Core.bumps rs is (c.bump1 r i)
  | _, _, c => c

/-- The registers whose PINC bit is set, in ascending operand order. -/
def postsOf (h : Hx) (ops : List (Nat × HReg)) : List HReg :=
  (ops.filter fun o => bitAt h.pinc.toNat o.1).map (·.2)

/-- Issue a 128-bit instruction: post-increments are applied when it completes (R28). -/
def State.issue128 (s : State) (h : Hx) (ops : List (Nat × HReg)) (body : Body) : Out :=
  s.issue (s.core.guardX h) h.yld h.dly.toNat 16 fun s =>
    let bump (s : State) := s.upd (Core.bumps (postsOf h ops) [h.inc1, h.inc2, h.inc3])
    match body s with
    | .ok (s', npc) => .ok (bump s', npc)
    | .error (.after t s') => .error (.after t (bump s'))
    | .error e => .error e

/-- A completed body without a transfer. -/
def done (s : State) : Run (State × Option Word) := .ok (s, none)

/-- A trap raised by a body. -/
def raise {α : Type} (t : Trap) (s : State) : Run α := .error (.trap t s)

/-- An illegal-instruction trap at the running core's instruction: `eaddr` is its address (R380). -/
def illegal (d : Nat) (s : State) : Trap := { cause := .illegal, detail := d, addr := s.core.ctx.pc.toNat }

/-- An access violation. -/
def accessTrap (d addr : Nat) (pad : Bool := false) : Trap :=
  { cause := .access, detail := d, addr := addr % 2 ^ 53, inPad := pad }

/-- Trap unless a condition holds. -/
def need (c : Bool) (t : Trap) (s : State) : Run Unit := if c then .ok () else .error (.trap t s)

/-- Insert empty slots as `f` does without a timed window, or, with one, until at most `keep` writes are pending (R179, R237); stall
while a write's data are missing. -/
def State.slotted (s : State) (keep : Nat) (f : Core → Option Core) : Run State :=
  if s.core.pend.isEmpty then .ok s
  else if s.core.window.isNone then
    match f s.core with
    | some c => .ok (s.setCore c)
    | none => .error (.stall s)
  else match State.slotsTo s.cur keep (s.core.pend.length + 512) s with
    | .ok t => .ok t
    | .frozen t => .error (.gone t)
    | .starved t => .error (.stall t)

/-- Insert empty slots until the pending-write queue is empty (R179). -/
def State.drained (s : State) : Run State := s.slotted 0 Core.drainAll

/-- Insert empty slots until the pending-write queue has room (R179). -/
def State.roomed (s : State) : Run State := s.slotted 7 Core.drainOne

/-- Wait until a condition holds. -/
def waitFor (c : Bool) (w : Wait) (s : State) : Run Unit := if c then .ok () else .error (.wait w s)

end Sys2Proof.Machine
end

