-- ==== Sys2Proof/Machine/Access.lean ====
section
/-! DEFINITION. Access to global memory: translation (R97 to R100, R358, R359), fills (R10, R88, R92, R319), loads (R104),
the kinds of store (R11, R335, R378), the commit log (R95), plates (R169), atomics (R113, R115). -/

namespace Sys2Proof.Machine

/-- What an access needs of a page, and whether it is made in user mode. -/
structure Need where
  rd : Bool := false
  wr : Bool := false
  ex : Bool := false
  user : Bool := true
  deriving DecidableEq, Repr

/-- The need of the running core's loads. -/
def Core.reads (c : Core) : Need := { rd := true, user := !c.sys.sup }

/-- The need of the running core's stores. -/
def Core.writes (c : Core) : Need := { wr := true, user := !c.sys.sup }

/-! ## Translation -/

/-- A page-fault trap (R380). -/
def pageFault (n : Need) (level va : Nat) : Trap :=
  { cause := .pageFault, detail := packFields [(1, b1 n.wr), (1, b1 n.ex), (2, level)], addr := va }

/-- The DETAIL of R380 with which a translation refuses an access (R99), if it does. -/
def TlbEntry.refuses (e : TlbEntry) (n : Need) : Option Nat :=
  if e.mt = 3 then some 3
  else if n.user && !e.us then some 1
  else if (n.rd && !e.rd) || (n.wr && !e.wr) || (n.ex && !e.ex) then some 0
  else none

/-- Whether the bytes' device or host port can be reached (R358, R359): the DETAIL of the violation if not. An offset of 768 GiB or
more names no byte of the HBM that R1 gives a device: the access is a violation like one of a device that is not there (log entry 105). -/
def State.unreachable (s : State) (key : Nat) : Option Nat :=
  let pa := key % 2 ^ 52
  if key / 2 ^ 52 = 0 then
    let d := pa / 2 ^ 41
    if pa % 2 ^ 41 < Config.hbm && (d = s.devidx.toNat || s.present.contains d) then none else some 6
  else
    let p := s.hostPorts.getD (pa / 2 ^ 51) { up := false }
    if p.up && (if key / 2 ^ 52 = 1 then p.mem else p.cache) then none else some 9

/-- How a walk ends without a leaf: a page fault at a level (R99), or a poisoned granule (R319); or it goes on once the bytes of a table
entry have come from another device (R90, R367). -/
inductive WalkEnd where
  | fault (level : Nat)
  | poisoned (granule : Nat)
  | away
  deriving DecidableEq, Repr

/-- Why an address has no translation now: a trap, or a walk that waits. -/
inductive NoPage where
  | trap (t : Trap)
  | away
  deriving DecidableEq, Repr

/-- How an instruction ends that needs the translation. -/
def NoPage.ends {α : Type} (s : State) : NoPage → Run α
  | .trap t => .error (.trap t s)
  | .away => .error (.stall s)

/-- Walk the page table for core `i` from a table at `level` = 4 − `fuel` (R98, R99). AC is set when the walk ends at a valid leaf, DT
when a store does that is permitted and can be performed, at the home of the entry, no other device holding it. -/
def State.walk (s : State) (i : Nat) (asid : BitVec 12) (root va : Nat) (n : Need) : Nat → Nat → State × Except WalkEnd TlbEntry
  | 0, _ => (s, .error (.fault 3))
  | fuel + 1, table =>
    let level := 3 - fuel
    let ea := table + 8 * field va (43 - 10 * level) 10
    match s.poisoned ea 8, s.comes i false ea 8 with
    | some g, _ => (s, .error (.poisoned g))
    | none, some s1 => (s1, .error .away)
    | none, none =>
      let r := s.coherentRead ea 8
      let w := ofBytesLE r.2
      if !bitAt w 0 then (r.1, .error (.fault level))
      else if fuel = 0 || bitAt w 1 then
        if level = 0 then (r.1, .error (.fault 0))
        else
          let bits := 43 - 10 * level
          let e : TlbEntry :=
            { asid := asid, root := root, bits := bits, vpn := va / 2 ^ bits, ppn := field w bits (52 - bits),
              mt := .ofNat 2 (field w 8 2), rd := bitAt w 2, wr := bitAt w 3, ex := bitAt w 4, us := bitAt w 5,
              dt := bitAt w 7, pte := ea }
          let dt := n.wr && (e.refuses n).isNone && (s.unreachable (e.key va)).isNone
          let w' := w ||| 64 ||| (if dt then 128 else 0)
          if w' = w then (r.1, .ok e)
          else match r.1.comes i true ea 8 with
            | some s1 => (s1, .error .away)
            | none =>
              let bs := bytesLE 8 w'
              ((r.1.coherentWrite none false ea bs).tellHome (some i) ea (.write ea bs (s.at i).team (s.seqOf i) false),
                .ok { e with dt := e.dt || dt })
      else State.walk r.1 i asid root va n fuel (field w 13 39 * 2 ^ 13)

/-- Put a translation of an address into a TLB of 64 entries in place of the old one (R98, R100; log entry 15). -/
def putTlb (e : TlbEntry) (va : Nat) (t : List TlbEntry) : List TlbEntry :=
  (e :: t.filter fun x => !(x.asid == e.asid && x.root == e.root && x.vpn == va / 2 ^ x.bits)).take 64

/-- A granule that cannot be read is reported and ends a launch (R319, R405). What is known of another device's granule is forgotten: its home
is asked again. -/
def State.poisonLaunch (s : State) (seq : Option Word) (g : Nat) : State :=
  let s1 := s.event 7 6 0 (seq.getD 0) (physOf g)
  let s2 : State := if s1.isRemote g then { s1 with poison := s1.poison.erase g } else s1
  match seq with
  | none => s2
  | some q => s2.endLaunch q 12 (BitVec.ofNat 64 (physOf g))

/-- A granule that cannot be read ends the launch of core `i`. -/
def State.poisonEnds (s : State) (i g : Nat) : State := s.poisonLaunch (s.at i).launch g

/-- The stamps of the entries that an access hits (R87). -/
def Core.hits (zs : List (Nat × Nat)) (c : Core) : Core := { c with l1 := zs.foldl (fun es z => touchL1 c.l1Count z.1 z.2 es) c.l1 }

/-- One more access to the L1 (R87): its count, and the stamps of the entries it hits. -/
def Core.touch (zs : List (Nat × Nat)) (c : Core) : Core := Core.hits zs { c with l1Count := c.l1Count + 1 }

/-! ### The walkers of a die (R98) -/

/-- Whether two addresses lie in one page, in units of the smallest. -/
def onePage (a b : Nat) : Bool := a / 8192 == b / 8192

/-- Attach a walk of a page to a walk of the die under the same root, or queue it (R98, R394): the first 64 have a walker. -/
def Die.request (asid : BitVec 12) (root va i : Nat) (x : Die) : Die :=
  let same (w : Walk) : Bool := w.root == root && onePage w.va va
  if x.walks.any same then
    { x with walks := x.walks.map fun w => if same w && !w.cores.contains i then { w with cores := w.cores ++ [i] } else w }
  else { x with walks := x.walks ++ [{ asid := asid, root := root, va := va, cores := [i] }] }

/-- What is left of a request when a page of it cannot be translated: a `PREF` stops there (R92). -/
def MemReq.upTo (va : Nat) : MemReq → Option MemReq
  | .fill a n x k =>
    let page := va / 8192 * 8192
    if a + n ≤ page || page + 8192 ≤ a then some (.fill a n x k)
    else if a < page then some (.fill a (page - a) x k) else none
  | r => some r

/-- A walk of a die has ended. -/
def State.dropWalk (s : State) (d k : Nat) : State := s.setDie d { s.die d with walks := (s.die d).walks.eraseIdx k }

/-- A walk in flight ends (R98 to R100): its translation enters the TLBs of the cores attached to it that still run under its root, or
their fills stop at the page. -/
def State.endWalk (s : State) (d k : Nat) : State :=
  match (s.die d).walks[k]? with
  | none => s
  | some w =>
    let live := w.cores.filter fun i => (s.space i).2 == w.root
    match s.walk (w.cores.headD 0) w.asid w.root w.va {} 4 w.root with
    | (s2, .error .away) => s2
    | (s2, .ok e) =>
      live.foldl (fun s i => s.on i fun c => { c with tlb := putTlb { e with asid := (s.space i).1 } w.va c.tlb }) (s2.dropWalk d k)
    | (s2, .error (.fault _)) =>
      live.foldl (fun s i => s.on i fun c => { c with memq := c.memq.filterMap (·.upTo w.va) }) (s2.dropWalk d k)
    | (s2, .error (.poisoned g)) => live.foldl (fun s i => s.poisonEnds i g) (s2.dropWalk d k)

/-- The oldest walks of a die end until the one at place `k` has a walker (R394). -/
def State.walkersFor (s : State) (d k : Nat) : State := (List.range (k - 63)).foldl (fun s _ => s.endWalk d 0) s

/-- A miss of core `i` finds a walker (R98, R394): the walk of its page that is under way ends with the core attached to it; with every
walker busy the oldest walks end first. -/
def State.seize (s : State) (i va : Nat) : State :=
  let d := dieOf i
  let sp := s.space i
  let place (s : State) : Option Nat := (s.die d).walks.findIdx? fun w => w.root == sp.2 && onePage w.va va
  let s1 := s.walkersFor d ((place s).getD (s.die d).walks.length)
  match place s1 with
  | some k => if k < 64 then (s1.setDie d ((s1.die d).request sp.1 sp.2 va i)).endWalk d k else s1
  | none => s1

/-- Serve an access with a translation (R99, R358, R359): the key of the byte and the bytes left in the page. -/
def State.served (s : State) (n : Need) (va : Nat) (e : TlbEntry) : Except NoPage (Nat × Nat) :=
  match e.refuses n with
  | some d => .error (.trap (accessTrap d va))
  | none =>
    match s.unreachable (e.key va) with
    | some d => .error (.trap (accessTrap d va))
    | none => .ok (e.key va, 2 ^ e.bits - va % 2 ^ e.bits)

/-- Walk for core `i`, keep the translation, and serve an access with it. -/
def State.walkFor (s : State) (i : Nat) (n : Need) (va : Nat) : State × Except NoPage (Nat × Nat) :=
  let sp := s.space i
  match s.walk i sp.1 sp.2 va n 4 sp.2 with
  | (s', .error .away) => (s', .error .away)
  | (s', .error (.fault l)) => (s', .error (.trap (pageFault n l va)))
  | (s', .error (.poisoned g)) => (s'.poisonEnds i g, .error (.trap (pageFault n 3 va)))
  | (s', .ok e) => (s'.on i fun c => { c with tlb := putTlb e va c.tlb }, s'.served n va e)

/-- Translate one address for core `i` (R97 to R100): a walk is made for a miss, and again where the entry refuses the access or its
page has not been marked dirty. -/
def State.translate (s : State) (i : Nat) (n : Need) (va : Nat) : State × Except NoPage (Nat × Nat) :=
  if 2 ^ 53 ≤ va then (s, .error (.trap (accessTrap 2 va)))
  else
    let sp := s.space i
    let s1 := if (findTlb sp.1 sp.2 va (s.at i).tlb).isNone then s.seize i va else s
    match findTlb sp.1 sp.2 va (s1.at i).tlb with
    | some e => if (e.refuses n).isNone && (!n.wr || e.dt) then (s1, s1.served n va e) else s1.walkFor i n va
    | none => if 64 ≤ (s1.die (dieOf i)).walks.length then (s1, .error .away) else s1.walkFor i n va

/-- A translated piece: virtual address, key, length. -/
abbrev Piece := Nat × Nat × Nat

/-- Translate an extent piece by piece in address order (R92), up to the first fault. -/
def State.translateFrom (i : Nat) (n : Need) : Nat → State → Nat → Nat → State × List Piece × Option NoPage
  | 0, s, _, _ => (s, [], none)
  | fuel + 1, s, va, len =>
    if len = 0 then (s, [], none)
    else match s.translate i n va with
      | (s', .error t) => (s', [], some t)
      | (s', .ok (pa, left)) =>
        let k := min len left
        let (s2, ps, t) := State.translateFrom i n fuel s' (va + k) (len - k)
        (s2, (va, pa, k) :: ps, t)

/-- Translate an extent. -/
def State.translateAll (s : State) (i : Nat) (n : Need) (va len : Nat) : State × List Piece × Option NoPage :=
  State.translateFrom i n (len / 8192 + 2) s va len

/-- Translate an extent, or trap with nothing done but the walks. -/
def State.pieces (s : State) (i : Nat) (n : Need) (va len : Nat) : Run (State × List Piece) :=
  match s.translateAll i n va len with
  | (s', ps, none) => .ok (s', ps)
  | (s', _, some t) => t.ends s'

/-! ## Fills -/

/-- Granules enter core `i` from their home: a poisoned one ends the launch (R319); another device's bytes are fetched from their home, and
bytes that another device holds in E or M are first asked for (R90, R367); an injected E2E report is fetched again, or, sticky, fails three fetches and is consumed by the
core (R318, R330). -/
def State.enters (s : State) (i pa n : Nat) (hint : BitVec 4 := 0) : Run State :=
  match s.poisoned pa n with
  | some g => .error (.gone (s.poisonEnds i g))
  | none =>
    match s.comes i false pa n with
    | some s1 => .error (.stall s1)
    | none =>
      let s := s.l2Hold (some i) false pa n hint
      let y := (s.at i).sys
      let again (s : State) : State := s.event 2 6 0 (s.seqOf i) (granuleOf pa)
      if !bitAt y.inj.toNat 5 then .ok s
      else if bitAt y.inj.toNat 8 then .error (.gone ((again (again s)).rollback i (.core i)))
      else .ok (again (s.on i fun c => { c with sys := c.sys.reported 5 }))

/-- Pieces enter a core one after another. -/
def State.entersAll (i : Nat) : List (Nat × Nat) → State → Run State
  | [], s => .ok s
  | g :: rest, s => do
    let s' ← s.enters i g.1 g.2
    State.entersAll i rest s'

/-- Bytes of the pieces as core `i` reads them at their home (R10, R324). -/
def State.homeBytes (s : State) (i : Nat) (gs : List (Nat × Nat)) : List (Nat × List Byte) :=
  let m := s.memFor i
  gs.map fun g => (g.1, m.read g.1 g.2)

/-- The home makes an extent ready for core `i`: alone, or with its gaps downgraded elsewhere (R88, R90). -/
def State.served1 (s : State) (i : Nat) (excl : Bool) (pa n : Nat) (gs : List (Nat × Nat)) : State :=
  if excl then s.withdraw (some i) pa n else gs.foldl (fun s g => s.downgrade (some i) g.1 g.2) s

/-- An exclusive access waits until no other device holds the bytes, or their home has granted them (R88, R367). -/
def State.alone (s : State) (i : Nat) (excl : Bool) (pa n : Nat) : Run Unit :=
  match if excl then s.comes i true pa n else none with
  | some s1 => .error (.stall s1)
  | none => .ok ()

/-- Bytes of no value in place of those of a fill: where entries go does not depend on what they hold. -/
def blanks (gs : List (Nat × Nat)) : List (Nat × List Byte) := gs.map fun g => (g.1, List.replicate g.2 0)

/-- Whether a fill of core `i` has to wait for a way or granules (R87): every one that it could take has a request outstanding. -/
def State.fillWaits (s : State) (i : Nat) (excl : Bool) (cls : RClass) (stream : Bool) (pa n : Nat) : Bool :=
  let v := s.l1Env i
  let dry := installL1 v cls stream (if excl then .e else .s) (blanks (gaps (s.at i).l1 pa n)) (s.at i).l1
  dry.waits v dry.lost

/-- Fill what the L1 of core `i` lacks of an extent inside a zone (R10, R88): shared, or exclusive. A fill waits while every way that it
could take has a request outstanding (R87); in a set whose ways are all pinned it makes no entry (DESIGN CHOICE, log entry 118). -/
def State.fill (s : State) (i : Nat) (excl : Bool) (cls : RClass) (stream : Bool) (pa n : Nat) : Run State := do
  let st : L1State := if excl then .e else .s
  let gs := gaps (s.at i).l1 pa n
  if s.fillWaits i excl cls stream pa n then .error (.stall s) else
  s.alone i excl pa n
  let s1 ← State.entersAll i gs s
  let s2 := s1.served1 i excl pa n gs
  let s3 := s2.onL1q i fun v es => let r := installL1 v cls stream st (s2.homeBytes i gs) es; (r.es, r.wbs)
  return if excl then s3.onL1q i fun v es => ownL1 v pa n es else s3

/-- Fill the pieces of an access, zone by zone. -/
def State.fillAll (i : Nat) (excl : Bool) (cls : RClass) (stream : Bool) : List (Nat × Nat) → State → Run State
  | [], s => .ok s
  | (pa, n) :: rest, s => do
    let s' ← s.fill i excl cls stream pa n
    State.fillAll i excl cls stream rest s'

/-- The zone pieces of translated pieces (R85). -/
def zonesOf (ps : List Piece) : List (Nat × Nat) := ps.flatMap fun p => Machine.pieces 4096 p.2.1 p.2.2

/-- The byte of a core's view: its L1 entry's, else the home's. -/
def viewByte (es : List L1Entry) (m : Mem) (pa : Nat) : Byte :=
  match es.find? (·.has pa) with
  | some e => e.data.getD (pa - e.start) 0
  | none => m.get pa

/-- The newest byte the core has logged for a physical byte in this superstep (R104). -/
def loggedByte (log : List LogEntry) (pa : Nat) : Option Byte :=
  match log.reverse.find? fun e => e.pa ≤ pa && pa < e.pa + e.bytes.length with
  | some e => e.bytes[pa - e.pa]?
  | none => none

/-- A byte as a core loads it: the newest it has logged, else what its L1 held before the access, else the home's. -/
def seenByte (c : Core) (m : Mem) (pa : Nat) : Byte :=
  match loggedByte c.log pa with
  | some b => b
  | none => viewByte c.l1 m pa

/-- An access that has to wait is counted when it is performed (R87). -/
def State.countLater {α : Type} (i : Nat) : Run α → Run α
  | .error (.stall s) => .error (.stall (s.on i fun c => { c with l1Count := c.l1Count - 1 }))
  | r => r

/-- Load bytes for core `i` (R92, R104): pieces before a fault are installed, then it traps. -/
def State.loadBytes (s : State) (i : Nat) (nd : Need) (va n : Nat) : Run (State × List Byte) := do
  let (s1, ps, t) := s.translateAll i nd va n
  let zs := zonesOf ps
  if s1.reached i (s1.at i).memq zs then .error (.stall s1) else
  let s2 ← State.countLater i (State.fillAll i false 0 false zs (s1.on i (Core.touch zs)))
  match t with
  | some t => t.ends s2
  | none =>
    return (s2, zs.flatMap fun z => (List.range z.2).map fun k => seenByte (s1.at i) (s2.memFor i) (z.1 + k))

/-! ## Pins (R90, R93, R109) -/

/-- The pinned extents that are on their way back into the L1 (R90). -/
def Core.backPins (c : Core) : List (Nat × Nat) := c.memq.filterMap fun q => match q with | .repin pa n _ => some (pa, n) | _ => none

/-- Granules pinned: PUSED (R94), bytes on their way back among them. -/
def Core.pused (c : Core) : Nat := pinnedGrans c.l1 + (c.backPins.map fun b => granCount b.1 b.2).foldl (· + ·) 0

/-- Whether the limits of R93 allow a pin of the pieces with class `cls`: the entries as `RPIN` would leave them are counted. -/
def Core.pinFits (c : Core) (x : Bool) (cls : RClass) (zs : List (Nat × Nat)) : Bool :=
  let v : L1Env := { padKiB := c.padKiB, count := c.l1Count, busy := [] }
  let plan := zs.foldl (fun es z => pinPlan v x cls z.1 z.2 (blanks (gaps es z.1 z.2)) es) c.l1
  let back := c.backPins
  zs.all (fun z => pinnedWays z.1 plan + (back.filter fun b => l1Set b.1 == l1Set z.1).length ≤ 14)
    && plannedGrans plan + (back.map fun b => granCount b.1 b.2).foldl (· + ·) 0 ≤ min c.sys.pmax.toNat (l1Grans c.padKiB - 512)

/-- Whether a pin has to wait for a way or granules (R87). -/
def State.pinWaits (s : State) (i : Nat) (x : Bool) (cls : RClass) (z : Nat × Nat) : Bool :=
  let v := s.l1Env i
  let dry := pinL1 v x cls z.1 z.2 (blanks (gaps (s.at i).l1 z.1 z.2)) (s.at i).l1
  dry.waits v (dry.lost.filter (·.pin))

/-- Hold and pin a piece inside a zone (R109): its gaps enter the core as a fill's do; while a way that it needs has a request outstanding
it waits (R87). -/
def State.pinPiece (i : Nat) (x : Bool) (cls : RClass) (s : State) (z : Nat × Nat) : Run State := do
  let gs := gaps (s.at i).l1 z.1 z.2
  if s.pinWaits i x cls z then .error (.stall s) else
  s.alone i x z.1 z.2
  let s1 ← State.entersAll i gs s
  let s2 := s1.served1 i x z.1 z.2 gs
  return s2.onL1q i fun v es =>
    let r := pinL1 v x cls z.1 z.2 (s2.homeBytes i gs) es
    settle (r.es, r.wbs ++ r.lost.flatMap (·.dirty))

/-! ## The kinds of store -/

/-- Whether a byte's address lies in a region bound to an object that the core holds exclusively (R11, R257). Regions are judged by
virtual address; no rule says whether a hold that was taken through another mapping of the object's word counts: the model takes the
address that `ACQ` named (DESIGN CHOICE, log entry 104). -/
def State.inHeldRegion (s : State) (i va : Nat) : Bool :=
  match s.launchOf i with
  | none => false
  | some l => l.regions.any fun r => r.base ≤ va && va < r.base + r.len &&
      (s.at i).ctx.holds.any fun h => h.va == r.obj && h.excl

/-- Whether an extent lies in a circular-buffer stage that the core has reserved (R292). -/
def inStage (rs : List Resv) (va n : Nat) : Bool :=
  rs.any fun r => let a := r.va + 128 + r.idx % max 1 r.count * r.size; a ≤ va && va + n ≤ a + r.size

/-- Whether an extent lies in a placement part that the core owns and has declared (R335). -/
def State.inOwnPart (s : State) (i va n : Nat) : Bool :=
  (s.placesOf i).any fun e => e.declared.contains i && (s.ownPart e i).any fun p => p.1 ≤ va && va + n ≤ p.1 + p.2

/-- Whether a write of the core is performed in its L1 and not logged (R11, R292, R335). -/
def State.heldWrite (s : State) (i va n : Nat) : Bool :=
  inStage (s.at i).ctx.resv va n || s.inOwnPart i va n || (List.range n).all fun k => s.inHeldRegion i (va + k)

/-- A store to bytes of a part of a BUSY entry by a core that is none of its participants (R339, R352): the entry's index
and the first refused byte, as its offset in the store. -/
def State.races (s : State) (i : Nat) (ps : List Piece) : Option (Nat × Nat) :=
  s.places.findSome? fun e =>
    if !e.busy then none else
    match s.launches.find? fun l => l.gen == e.gen with
    | none => none
    | some l => match l.group e.group with
      | none => none
      | some g =>
        let own := if (s.at i).launch == some l.record.seq && g.members.contains i then
          some (memberIndex g.axes (s.coordsOfCore l e.group g i)) else none
        (List.range (meshSize g.axes)).findSome? fun m =>
          if own == some m then none
          else if (meshDev g.axes (memberCoords g.axes m)) != s.devPos l e.group && g.axes.any (·.2) then none else
          let keys := s.partKeys l.record.root (e.handle.base.toNat + m * partSize e.handle) (partSize e.handle)
          ps.findSome? fun p => ((List.range p.2.2).find? fun k =>
            keys.any fun q => q.1 ≤ p.2.1 + k && p.2.1 + k < q.1 + q.2).map fun k => (e.idx, p.1 + k)
where
  /-- The device position of coordinates. -/
  meshDev : List (Nat × Bool) → List Nat → Nat
    | (n, true) :: ax, c :: cs => c + n * meshDev ax cs
    | (_, false) :: ax, _ :: cs => meshDev ax cs
    | _, _ => 0

/-- The placement-race trap of a store (R339). -/
def raceTrap (r : Nat × Nat) : Trap := { cause := .race, detail := r.1, addr := r.2 }

/-- Bytes of the commit log used in the superstep (R95). -/
def Core.logUsed (c : Core) : Nat := (c.log.map (·.space)).foldl (· + ·) 0

/-- The log-quota trap at an address (R95). -/
def quotaTrap (c : Core) (va : Nat) : Trap := { cause := .quota, detail := c.sys.lmax.toNat, addr := va }

/-- Whether `n` more bytes of log space fit (R95). -/
def Core.logFits (c : Core) (n : Nat) : Bool := c.logUsed + n ≤ c.sys.lmax.toNat * 1024

/-- Add a write to the log, its pieces sharing one place in program order; the first takes the space. -/
def logWrites (pos space : Nat) (ps : List Piece) (bs : List Byte) (hint : BitVec 4 := 0) : List LogEntry :=
  match ps with
  | [] => []
  | (_, pa, n) :: ps => { pos := pos, pa := pa, bytes := bs.take n, space := space, hint := hint } :: logWrites pos 0 ps (bs.drop n) hint

/-- Perform owned bytes in the L1, or queue them until the home grants ownership and what they reach is over (R88, R91, R107). -/
def State.storePieces (i : Nat) (hint : BitVec 4) : List Piece → List Byte → State → State
  | [], _, s => s
  | (va, pa, n) :: ps, bs, s =>
    let s' := (Machine.pieces 4096 pa n).foldl (fun s z =>
      let b := (bs.drop (z.1 - pa)).take z.2
      let c := s.at i
      if ownedL1 z.1 z.2 c.l1 && !s.reached i c.memq [z] then s.onL1q i fun v es => storeL1 (v.hinted hint) z.1 b es
      else s.on i fun c => { c with memq := c.memq ++ [.own (va + (z.1 - pa)) z.1 b hint] }) s
    State.storePieces i hint ps (bs.drop n) s'

/-- A store that is performed in the L1 (R11): one access, at its issue (R87). -/
def State.storeHeld (i : Nat) (ps : List Piece) (bs : List Byte) (s : State) (hint : BitVec 4 := 0) : State :=
  State.storePieces i hint ps bs (s.on i (Core.touch (zonesOf ps)))

/-- Bytes as an atomic, or a store in supervisor mode, of core `i` has left them to its squad: where effects that the squad holds aside would
change them again, they are held aside behind these (R324; log entry 106). -/
def State.seenAs (s : State) (i pa : Nat) (bs : List Byte) : State :=
  if (s.memFor i).read pa bs.length == bs then s else s.updSquad i fun q => { q with aside := q.aside ++ [.word pa bs] }

/-- The member of a launch at a core, if a launch holds it. -/
def State.whoAt (s : State) (i : Nat) : Option (Word × Nat) := (s.at i).launch.map fun q => (q, i)

/-- A store in supervisor mode is performed at once at its homes, and no rollback undoes it (R378, R404). -/
def State.storeNow (i : Nat) : List Piece → List Byte → State → State
  | [], _, s => s
  | (_, pa, n) :: ps, bs, s =>
    let b := bs.take n
    State.storeNow i ps (bs.drop n) (((s.coherentWrite none false pa b).tellHome (some i) pa (.write pa b (s.at i).team (s.seqOf i) false)).kept (s.whoAt i) pa b |>.seenAs i pa b)

/-- An access at `.sys` to bytes that another device holds waits until they have been withdrawn from it (R368). -/
def State.sysWaits (s : State) (ps : List Piece) : Run Unit :=
  if ps.any fun p => s.knownElsewhere p.2.1 p.2.2 then .error (.stall (ps.foldl (fun s p => s.askOthers p.2.1 p.2.2) s)) else .ok ()

/-- A store of the running core (R11, R91, R92, R106, R335, R339, R378), translated and checked before any byte is stored. -/
def State.storeBytes (s : State) (va : Nat) (bs : List Byte) : Run State := do
  let i := s.cur.val
  let n := bs.length
  let (s1, ps) ← s.pieces i s.core.writes va n
  match s1.races i ps with
  | some r => .error (.trap (raceTrap r) s1)
  | none =>
    if s1.partHeld i va n then .error (.wait (s1.partWait i va n) s1)
    else if s1.core.sys.sup then
      if s1.reached i s1.core.memq (zonesOf ps) then .error (.stall s1) else
      s1.sysWaits ps
      return State.storeNow i ps bs s1
    else if s1.heldWrite i va n then return State.storeHeld i ps bs s1
    else if !s1.core.logFits 16 then .error (.trap (quotaTrap s1.core va) s1)
    else return s1.upd fun c => { c with log := c.log ++ logWrites c.pos 16 ps bs }

/-! ## Plates -/

/-- The bytes of an object of up to 64 bytes read through a cache tagged by physical address, most recent first. -/
def cacheRead (cap pa n : Nat) (cache : List (Nat × List Byte)) (m : Mem) : List Byte × List (Nat × List Byte) :=
  match cache.find? (·.1 == pa) with
  | some e => (e.2, e :: cache.filter (·.1 != pa))
  | none => let b := m.read pa n; (b, ((pa, b) :: cache).take cap)

/-- The plate at an address, through the plate cache (R169): its 512 bits. -/
def State.readPlate (s : State) (va : Nat) : Run (State × Nat) := do
  need (va % 64 == 0) (accessTrap 5 va) s
  let (s1, ps) ← s.pieces s.cur.val s.core.reads va 64
  let pa := (ps.headD (0, 0, 0)).2.1
  let s2 ← if (s1.core.plates.any (·.1 == pa)) then pure s1 else s1.enters s.cur.val pa 64
  let (b, cache) := cacheRead 32 pa 64 s2.core.plates (s2.memFor s.cur)
  return (s2.upd fun c => { c with plates := cache }, ofBytesLE b)

/-! ## Atomics -/

/-- The new value of an atomic and the flags of `.fadd` (R113): operands of `n` bytes. -/
def amoNew (op : AmoOp) (n : Nat) (old v : Nat) : Nat × Fl :=
  let w := 8 * n
  match op with
  | .add => ((old + v) % 2 ^ w, 0)
  | .and => (old &&& v, 0)
  | .or => (old ||| v, 0)
  | .xor => (old ^^^ v, 0)
  | .min => (if sval w v < sval w old then v else old, 0)
  | .max => (if sval w old < sval w v then v else old, 0)
  | .minu => (if v < old then v else old, 0)
  | .maxu => (if old < v then v else old, 0)
  | .swap => (v, 0)
  | .fadd =>
    let f : FFmt := ⟨53, 11⟩
    let r := f.add .rne (f.decode old) (f.decode v)
    (f.encode r.1, r.2)

/-- Perform an indivisible step at the point of coherence of the scope (R113) on `n` bytes at a key, for core `i`:
`.core` and `.pod` in the core's L1, clean in E, and at the home; wider scopes at the home alone. The old value is the one that the
core's squad sees; other agents see the step on the word without what the squad holds aside (R324, log entry 106). -/
def State.atomicStep (s : State) (i : Nat) (sc : Scope) (pa n : Nat) (f : Nat → Option Nat) : Run (State × Nat) := do
  let inL1 := sc == .core || sc == .pod
  let s1 ← if inL1 then State.countLater i ((s.on i (Core.touch [(pa, n)])).fill i true 0 false pa n)
    else (do s.alone i true pa n; let s0 ← s.enters i pa n; pure (s0.withdraw none pa n))
  let s2 := if inL1 then s1.onL1 i fun _ es => flushL1 .keep pa n es else s1
  let old := ofBytesLE ((s2.memFor i).read pa n)
  match f old with
  | none => return (s2, old)
  | some v =>
    let s3 := match f (ofBytesLE (s2.mem.read pa n)) with
      | none => s2
      | some p =>
        let bs := bytesLE n p
        let s3 := (s2.setBytes (some i) false pa bs).kept (s2.whoAt i) pa bs
        if inL1 then s3.tellHome (some i) pa (.write pa bs (s3.at i).team (s3.seqOf i) false) else s3
    let s4 := s3.seenAs i pa (bytesLE n v)
    return (if inL1 then s4.on i fun c => { c with l1 := c.l1.map (·.patch pa (bytesLE n v)) } else s4, old)

end Sys2Proof.Machine
end

