-- ==== Sys2Proof/Machine/Scalar.lean ====
section
/-! DEFINITION. The integer, bit-field and guard instructions (R54 to R62). Each result is computed by a plain function of the
operand values; the meaning reads the operands, writes the destination and completes. -/

namespace Sys2Proof.Machine

/-! ## The functions -/

/-- The immediate of 21 bits, sign-extended (R23). -/
def imm21 (i : BitVec 21) : Word := i.signExtend 64

/-- Shift left by a count modulo 64 (R54). -/
def shlW (a b : Word) : Word := a <<< (b.toNat % 64)
/-- Shift right, zeros in (R54). -/
def shrW (a b : Word) : Word := a >>> (b.toNat % 64)
/-- Shift right, sign in (R54). -/
def sarW (a b : Word) : Word := a.sshiftRight (b.toNat % 64)
/-- Rotate left (R54). -/
def rotW (a b : Word) : Word := a.rotateLeft (b.toNat % 64)
/-- Signed minimum (R54). -/
def minW (a b : Word) : Word := if a.toInt ≤ b.toInt then a else b
/-- Signed maximum (R54). -/
def maxW (a b : Word) : Word := if a.toInt ≤ b.toInt then b else a
/-- Unsigned minimum (R54). -/
def minuW (a b : Word) : Word := if a.toNat ≤ b.toNat then a else b
/-- Unsigned maximum (R54). -/
def maxuW (a b : Word) : Word := if a.toNat ≤ b.toNat then b else a
/-- High half of the signed product (R55). -/
def mulhW (a b : Word) : Word := BitVec.ofInt 64 (a.toInt * b.toInt / (2 ^ 64 : Nat))
/-- High half of the unsigned product (R55). -/
def mulhuW (a b : Word) : Word := BitVec.ofNat 64 (a.toNat * b.toNat / 2 ^ 64)
/-- Signed division (R55). -/
def divW (a b : Word) : Word :=
  if b = 0 then BitVec.allOnes 64 else BitVec.ofInt 64 (Int.tdiv a.toInt b.toInt)
/-- Unsigned division (R55). -/
def divuW (a b : Word) : Word := if b = 0 then BitVec.allOnes 64 else BitVec.ofNat 64 (a.toNat / b.toNat)
/-- Signed remainder, the sign of the dividend (R55). -/
def remW (a b : Word) : Word := if b = 0 then a else BitVec.ofInt 64 (Int.tmod a.toInt b.toInt)
/-- Unsigned remainder (R55). -/
def remuW (a b : Word) : Word := if b = 0 then a else BitVec.ofNat 64 (a.toNat % b.toNat)
/-- Leading zeros (R56). -/
def clzW (a : Word) : Word := BitVec.ofNat 64 (64 - bitLen a.toNat)
/-- Trailing zeros (R56). -/
def ctzW (a : Word) : Word := BitVec.ofNat 64 (((List.range 64).find? fun i => a.getLsbD i).getD 64)
/-- One bits (R56). -/
def popcW (a : Word) : Word := BitVec.ofNat 64 (popcount 64 a.toNat)
/-- Bits reversed (R56). -/
def brevW (a : Word) : Word := a.reverse
/-- Bytes reversed (R56). -/
def bswapW (a : Word) : Word := wordLE (bytesLE 8 a.toNat).reverse

/-- The constants of R57. -/
def mixC : Nat → Word
  | 0 => 0x9E3779B97F4A7C15 | 1 => 0xBF58476D1CE4E5B9 | 2 => 0x94D049BB133111EB | _ => 0xC2B2AE3D27D4EB4F

/-- One round of R57. -/
def mixRound (key x : Word) (i : Nat) : Word :=
  let x := x ^^^ (x >>> 31)
  let x := x * mixC i
  let x := x ^^^ (x >>> 29)
  x ^^^ key.rotateLeft (17 * (i + 1) % 64)

/-- squash64 of R57. -/
def squash64 (key ctr : Word) : Word := (List.range 4).foldl (mixRound key) (ctr ^^^ key)

/-- The field of `BFX` (R58). -/
def bfxW (sx : Bool) (lsb width : Nat) (a : Word) : Word :=
  let v := field a.toNat lsb width
  if sx then BitVec.ofInt 64 (sval width v) else BitVec.ofNat 64 v

/-- The insertion of `BFI` (R58). -/
def bfiW (lsb width : Nat) (d a : Word) : Word :=
  let m : Word := BitVec.ofNat 64 ((2 ^ width - 1) * 2 ^ lsb)
  (d &&& ~~~m) ||| (BitVec.ofNat 64 (a.toNat % 2 ^ width * 2 ^ lsb) &&& m)

/-- The integer conditions (R34, R60). -/
def icondHolds (c : ICond) (a b : Word) : Bool :=
  match c with
  | .eq => a == b | .ne => a != b
  | .lt => a.toInt < b.toInt | .ge => b.toInt ≤ a.toInt | .le => a.toInt ≤ b.toInt | .gt => b.toInt < a.toInt
  | .ltu => a.toNat < b.toNat | .geu => b.toNat ≤ a.toNat | .leu => a.toNat ≤ b.toNat | .gtu => b.toNat < a.toNat

/-- How a compare writes its guard (R60). -/
def gwrite (w : GWrite) (old c : Bool) : Bool :=
  match w with
  | .write => c | .and => old && c | .or => old || c

/-- The guards as a word: bit 0 always 1 (R62). -/
def Core.guardsWord (c : Core) : Word := (c.ctx.guards ||| 1).setWidth 64

/-- `GLOG` (R62). -/
def Core.glog (op : GlogOp) (c : Core) : Core :=
  match op with
  | .and d a b => c.setG d (c.getG a && c.getG b)
  | .or d a b => c.setG d (c.getG a || c.getG b)
  | .xor d a b => c.setG d (c.getG a != c.getG b)
  | .andn d a b => c.setG d (c.getG a && !c.getG b)
  | .not d a => c.setG d (!c.getG a)
  | .mov d a => c.setG d (c.getG a)
  | .set d => c.setG d true
  | .clr d => c.setG d false
  | .gtos d => c.setS d c.guardsWord
  | .stog a => c.updCtx fun x => { x with guards := (c.getS a).setWidth 16 }

/-! ## Shapes -/

/-- Complete with a change of the core alone. -/
def State.pure64 (s : State) (h : Hd) (f : Core → Core) : Out := s.issue64 h fun s => done (s.upd f)

/-- s[A] := f s[B] s[C]. -/
def State.alu3 (s : State) (h : Hd) (a b c : SReg) (f : Word → Word → Word) : Out :=
  s.pure64 h fun k => k.setS a (f (k.getS b) (k.getS c))

/-- s[A] := f s[B] imm. -/
def State.aluI (s : State) (h : Hd) (a b : SReg) (imm : Word) (f : Word → Word → Word) : Out :=
  s.pure64 h fun k => k.setS a (f (k.getS b) imm)

/-- s[A] := f s[B]. -/
def State.alu2 (s : State) (h : Hd) (a b : SReg) (f : Word → Word) : Out :=
  s.pure64 h fun k => k.setS a (f (k.getS b))

/-! ## The meanings -/

/-- `ADD` (R54). -/
def execAdd (h : Hd) (a b c : SReg) (s : State) : Out := s.alu3 h a b c (· + ·)

/-- `SUB` (R54). -/
def execSub (h : Hd) (a b c : SReg) (s : State) : Out := s.alu3 h a b c (· - ·)

/-- `AND` (R54). -/
def execAnd (h : Hd) (a b c : SReg) (s : State) : Out := s.alu3 h a b c (· &&& ·)

/-- `OR` (R54). -/
def execOr (h : Hd) (a b c : SReg) (s : State) : Out := s.alu3 h a b c (· ||| ·)

/-- `XOR` (R54). -/
def execXor (h : Hd) (a b c : SReg) (s : State) : Out := s.alu3 h a b c (· ^^^ ·)

/-- `ANDN` (R54). -/
def execAndn (h : Hd) (a b c : SReg) (s : State) : Out := s.alu3 h a b c (fun x y => x &&& ~~~y)

/-- `SHL` (R54). -/
def execShl (h : Hd) (a b c : SReg) (s : State) : Out := s.alu3 h a b c shlW

/-- `SHR` (R54). -/
def execShr (h : Hd) (a b c : SReg) (s : State) : Out := s.alu3 h a b c shrW

/-- `SAR` (R54). -/
def execSar (h : Hd) (a b c : SReg) (s : State) : Out := s.alu3 h a b c sarW

/-- `ROT` (R54). -/
def execRot (h : Hd) (a b c : SReg) (s : State) : Out := s.alu3 h a b c rotW

/-- `MIN` (R54). -/
def execMin (h : Hd) (a b c : SReg) (s : State) : Out := s.alu3 h a b c minW

/-- `MAX` (R54). -/
def execMax (h : Hd) (a b c : SReg) (s : State) : Out := s.alu3 h a b c maxW

/-- `MINU` (R54). -/
def execMinu (h : Hd) (a b c : SReg) (s : State) : Out := s.alu3 h a b c minuW

/-- `MAXU` (R54). -/
def execMaxu (h : Hd) (a b c : SReg) (s : State) : Out := s.alu3 h a b c maxuW

/-- `ADD`, immediate form (R54). -/
def execAddImm (h : Hd) (a b : SReg) (imm : BitVec 21) (s : State) : Out := s.aluI h a b (imm21 imm) (· + ·)

/-- `SUB`, immediate form (R54). -/
def execSubImm (h : Hd) (a b : SReg) (imm : BitVec 21) (s : State) : Out := s.aluI h a b (imm21 imm) (· - ·)

/-- `AND`, immediate form (R54). -/
def execAndImm (h : Hd) (a b : SReg) (imm : BitVec 21) (s : State) : Out := s.aluI h a b (imm21 imm) (· &&& ·)

/-- `OR`, immediate form (R54). -/
def execOrImm (h : Hd) (a b : SReg) (imm : BitVec 21) (s : State) : Out := s.aluI h a b (imm21 imm) (· ||| ·)

/-- `XOR`, immediate form (R54). -/
def execXorImm (h : Hd) (a b : SReg) (imm : BitVec 21) (s : State) : Out := s.aluI h a b (imm21 imm) (· ^^^ ·)

/-- `ANDN`, immediate form (R54). -/
def execAndnImm (h : Hd) (a b : SReg) (imm : BitVec 21) (s : State) : Out := s.aluI h a b (imm21 imm) (fun x y => x &&& ~~~y)

/-- `SHL`, immediate form (R54). -/
def execShlImm (h : Hd) (a b : SReg) (n : BitVec 6) (s : State) : Out := s.aluI h a b (n.setWidth 64) shlW

/-- `SHR`, immediate form (R54). -/
def execShrImm (h : Hd) (a b : SReg) (n : BitVec 6) (s : State) : Out := s.aluI h a b (n.setWidth 64) shrW

/-- `SAR`, immediate form (R54). -/
def execSarImm (h : Hd) (a b : SReg) (n : BitVec 6) (s : State) : Out := s.aluI h a b (n.setWidth 64) sarW

/-- `ROT`, immediate form (R54). -/
def execRotImm (h : Hd) (a b : SReg) (n : BitVec 6) (s : State) : Out := s.aluI h a b (n.setWidth 64) rotW

/-- `MIN`, immediate form (R54). -/
def execMinImm (h : Hd) (a b : SReg) (imm : BitVec 21) (s : State) : Out := s.aluI h a b (imm21 imm) minW

/-- `MAX`, immediate form (R54). -/
def execMaxImm (h : Hd) (a b : SReg) (imm : BitVec 21) (s : State) : Out := s.aluI h a b (imm21 imm) maxW

/-- `MINU`, immediate form (R54). -/
def execMinuImm (h : Hd) (a b : SReg) (imm : BitVec 21) (s : State) : Out := s.aluI h a b (imm21 imm) minuW

/-- `MAXU`, immediate form (R54). -/
def execMaxuImm (h : Hd) (a b : SReg) (imm : BitVec 21) (s : State) : Out := s.aluI h a b (imm21 imm) maxuW

/-- `MUL` (R55). -/
def execMul (h : Hd) (a b c : SReg) (s : State) : Out := s.alu3 h a b c (· * ·)

/-- `MULH` (R55). -/
def execMulh (h : Hd) (a b c : SReg) (s : State) : Out := s.alu3 h a b c mulhW

/-- `MULHU` (R55). -/
def execMulhu (h : Hd) (a b c : SReg) (s : State) : Out := s.alu3 h a b c mulhuW

/-- `DIV` (R55). -/
def execDiv (h : Hd) (a b c : SReg) (s : State) : Out := s.alu3 h a b c divW

/-- `DIVU` (R55). -/
def execDivu (h : Hd) (a b c : SReg) (s : State) : Out := s.alu3 h a b c divuW

/-- `REM` (R55). -/
def execRem (h : Hd) (a b c : SReg) (s : State) : Out := s.alu3 h a b c remW

/-- `REMU` (R55). -/
def execRemu (h : Hd) (a b c : SReg) (s : State) : Out := s.alu3 h a b c remuW

/-- `CLZ` (R56). -/
def execClz (h : Hd) (a b : SReg) (s : State) : Out := s.alu2 h a b clzW

/-- `CTZ` (R56). -/
def execCtz (h : Hd) (a b : SReg) (s : State) : Out := s.alu2 h a b ctzW

/-- `POPC` (R56). -/
def execPopc (h : Hd) (a b : SReg) (s : State) : Out := s.alu2 h a b popcW

/-- `BREV` (R56). -/
def execBrev (h : Hd) (a b : SReg) (s : State) : Out := s.alu2 h a b brevW

/-- `BSWAP` (R56). -/
def execBswap (h : Hd) (a b : SReg) (s : State) : Out := s.alu2 h a b bswapW

/-- `MIX` (R57). -/
def execMix (h : Hd) (a b c : SReg) (s : State) : Out := s.alu3 h a b c squash64

/-- `BFX` (R58). -/
def execBfx (h : Hd) (a b : SReg) (sx : Bool) (lsb widthM1 : BitVec 6) (s : State) : Out :=
  s.alu2 h a b (bfxW sx lsb.toNat (widthM1.toNat + 1))

/-- `BFI` (R58). -/
def execBfi (h : Hd) (a b : SReg) (lsb widthM1 : BitVec 6) (s : State) : Out :=
  s.pure64 h fun k => k.setS a (bfiW lsb.toNat (widthM1.toNat + 1) (k.getS a) (k.getS b))

/-- `CMP` (R60). -/
def execCmp (h : Hd) (gd : GReg) (b c : SReg) (cond : ICond) (w : GWrite) (s : State) : Out :=
  s.pure64 h fun k => k.setG gd (gwrite w (k.getG gd) (icondHolds cond (k.getS b) (k.getS c)))

/-- `CMPI` (R60). -/
def execCmpi (h : Hd) (gd : GReg) (b : SReg) (imm : BitVec 21) (cond : ICond) (w : GWrite) (s : State) : Out :=
  s.pure64 h fun k => k.setG gd (gwrite w (k.getG gd) (icondHolds cond (k.getS b) (imm21 imm)))

/-- `SEL` (R61). -/
def execSel (h : Hd) (a b c : SReg) (gs : GReg) (inv : Bool) (s : State) : Out :=
  s.pure64 h fun k => k.setS a (if k.getG gs != inv then k.getS b else k.getS c)

/-- `GLOG` (R62). -/
def execGlog (h : Hd) (op : GlogOp) (s : State) : Out := s.pure64 h (Core.glog op)

/-- `MOVI` (R59). -/
def execMovi (h : Hd) (a : SReg) (imm : BitVec 21) (s : State) : Out := s.pure64 h fun k => k.setS a (imm21 imm)

/-- `MOVW` (R59). -/
def execMovw (h : Hd) (a : SReg) (imm : BitVec 53) (s : State) : Out :=
  s.issue96 h fun s => done (s.upd fun k => k.setS a (imm.signExtend 64))

/-- `NOP` (R30). -/
def execNop (dly : BitVec 4) (s : State) : Out := s.issue true false dly.toNat 8 done

end Sys2Proof.Machine
end

