-- ==== Sys2Proof/Machine/Float.lean ====
section
/-! DEFINITION. The scalar floating-point instructions (R63 to R70). -/

namespace Sys2Proof.Machine

/-- An operand of a scalar format: its low bits (R63). -/
def fval (f : SFmt) (w : Word) : FV := (sfmtOf f).decode (w.toNat % 2 ^ (sfmtOf f).width)

/-- A result of a scalar format: upper bits zero (R63). -/
def fword (f : SFmt) (v : FV) : Word := BitVec.ofNat 64 ((sfmtOf f).encode v)

/-- The rounding mode of a rounding code on a core (R32, R64). -/
def Core.mode (c : Core) (rm : RM) : Rnd := rmMode rm (field c.ctx.fpc.toNat 0 3)

/-- Whether raising flags takes a trap (R65). -/
def Core.traps (c : Core) (f : Fl) : Bool := (c.ctx.fpc >>> 9).setWidth 5 &&& f != 0

/-- The floating-point trap of R65: `einfo` holds the raised flags. -/
def floatTrap (f : Fl) : Trap := { cause := .float, detail := f.toNat }

/-- Set the raised flags; write the destination, or trap when a raised flag is enabled (R64, R65). -/
def State.floatEnd (f : Fl) (wr : Core → Core) (s : State) : Run (State × Option Word) :=
  if s.core.traps f then .error (.trap (floatTrap f) (s.upd (·.raise f)))
  else .ok (s.upd fun c => wr (c.raise f), none)

/-- An operation on two operands (R66). -/
def State.float3 (s : State) (h : Hd) (a b c : SReg) (f : SFmt) (op : Core → FV → FV → FV × Fl) : Out :=
  s.issue64 h fun s =>
    let k := s.core
    let r := op k (fval f (k.getS b)) (fval f (k.getS c))
    s.floatEnd r.2 fun k => k.setS a (fword f r.1)

/-- `FADD` (R66). -/
def execFadd (h : Hd) (a b c : SReg) (f : SFmt) (rm : RM) (s : State) : Out :=
  s.float3 h a b c f fun k => (sfmtOf f).add (k.mode rm)

/-- `FSUB` (R66). -/
def execFsub (h : Hd) (a b c : SReg) (f : SFmt) (rm : RM) (s : State) : Out :=
  s.float3 h a b c f fun k => (sfmtOf f).sub (k.mode rm)

/-- `FMUL` (R66). -/
def execFmul (h : Hd) (a b c : SReg) (f : SFmt) (rm : RM) (s : State) : Out :=
  s.float3 h a b c f fun k => (sfmtOf f).mul (k.mode rm)

/-- `FDIV` (R66). -/
def execFdiv (h : Hd) (a b c : SReg) (f : SFmt) (rm : RM) (s : State) : Out :=
  s.float3 h a b c f fun k => (sfmtOf f).div (k.mode rm)

/-- `FSQRT` (R66). -/
def execFsqrt (h : Hd) (a b : SReg) (f : SFmt) (rm : RM) (s : State) : Out :=
  s.float3 h a b b f fun k x _ => (sfmtOf f).sqrt (k.mode rm) x

/-- `FMIN` (R66); it rounds nothing. -/
def execFmin (h : Hd) (a b c : SReg) (f : SFmt) (_rm : RM) (s : State) : Out :=
  s.float3 h a b c f fun _ => minMax false

/-- `FMAX` (R66). -/
def execFmax (h : Hd) (a b c : SReg) (f : SFmt) (_rm : RM) (s : State) : Out :=
  s.float3 h a b c f fun _ => minMax true

/-- Whether the product and the addend are negated (R67). -/
def fmaSigns : Fma → Bool × Bool
  | .fma => (false, false) | .fms => (false, true) | .fnma => (true, true) | .fnms => (true, false)

/-- `FFMA` (R67): factors s[B], s[C], addend s[A]. -/
def execFfma (h : Hd) (a b c : SReg) (k : Fma) (f : SFmt) (rm : RM) (s : State) : Out :=
  s.issue64 h fun s =>
    let x := s.core
    let r := (sfmtOf f).fma (x.mode rm) (fmaSigns k).1 (fmaSigns k).2 (fval f (x.getS b)) (fval f (x.getS c)) (fval f (x.getS a))
    s.floatEnd r.2 fun k => k.setS a (fword f r.1)

/-- `FCMP` (R68). -/
def execFcmp (h : Hd) (gd : GReg) (b c : SReg) (cond : FCond) (f : SFmt) (sig : Bool) (s : State) : Out :=
  s.issue64 h fun s =>
    let x := fval f (s.core.getS b)
    let y := fval f (s.core.getS c)
    s.floatEnd (cmpFlags sig x y) fun k => k.setG gd (fcondHolds cond x y)

/-- The source of a conversion as an exact value (R69). -/
def cvtSource (c : Cvt) (w : Word) : FV :=
  match c with
  | .f64 => fval .f64 w | .f32 => fval .f32 w | .f16 => fval .f16 w | .bf16 => fval .bf16 w
  | .i64 => .ofInt w.toInt | .nat64 => .ofInt w.toNat
  | .i32 => .ofInt (sval 32 (w.toNat % 2 ^ 32)) | .nat32 => .ofInt (w.toNat % 2 ^ 32 : Nat)

/-- A conversion into a float format. -/
def cvtFloat (f : SFmt) (r : Rnd) (v : FV) : Word × Fl :=
  let y := (sfmtOf f).convert r v
  (fword f y.1, y.2)

/-- A conversion into an integer range, sign- or zero-extended (R69). -/
def cvtInt (lo hi : Int) (r : Rnd) (v : FV) : Word × Fl :=
  let y := toIntRange r lo hi v
  (BitVec.ofInt 64 y.1, y.2)

/-- The destination of a conversion (R69). -/
def cvtDest (c : Cvt) (r : Rnd) (v : FV) : Word × Fl :=
  match c with
  | .f64 => cvtFloat .f64 r v | .f32 => cvtFloat .f32 r v | .f16 => cvtFloat .f16 r v | .bf16 => cvtFloat .bf16 r v
  | .i64 => cvtInt (-(2 ^ 63 : Nat)) ((2 ^ 63 : Nat) - 1) r v
  | .nat64 => cvtInt 0 ((2 ^ 64 : Nat) - 1) r v
  | .i32 => cvtInt (-(2 ^ 31 : Nat)) ((2 ^ 31 : Nat) - 1) r v
  | .nat32 => cvtInt 0 ((2 ^ 32 : Nat) - 1) r v

/-- `FCVT` (R69). -/
def execFcvt (h : Hd) (a b : SReg) (dst src : Cvt) (rm : RM) (s : State) : Out :=
  s.issue64 h fun s =>
    let r := cvtDest dst (s.core.mode rm) (cvtSource src (s.core.getS b))
    s.floatEnd r.2 fun k => k.setS a r.1

/-- `FCLASS` (R70). -/
def execFclass (h : Hd) (a b : SReg) (f : SFmt) (s : State) : Out :=
  s.issue64 h fun s => done (s.upd fun k => k.setS a (BitVec.ofNat 64 ((sfmtOf f).classOf (fval f (k.getS b)))))

end Sys2Proof.Machine
end

