-- ==== Sys2Proof/Machine/System.lean ====
section
/-! DEFINITION. Identity and system registers (R71, R72) with the layouts of R64, R94, R95, R285, R329 and R379. -/

namespace Sys2Proof.Machine

/-- The lanes granted to a core (R205). -/
def Core.lanes (c : Core) : Nat := (if c.reserve then 8 else 0) + 8 * c.shared.length

/-- The value of an identity register of core `i` (R71). -/
def State.idValue (s : State) (i : Nat) (r : IdReg) : Word :=
  let c := s.at i
  let d := c.ident
  match r with
  | .core => BitVec.ofNat 64 (i % 8)
  | .pod => BitVec.ofNat 64 (i / 8 % 48)
  | .die => BitVec.ofNat 64 (i / 384)
  | .dev => s.devidx.setWidth 64
  | .org0 => d.org[0] | .org1 => d.org[1] | .org2 => d.org[2] | .org3 => d.org[3]
  | .ext0 => d.ext[0] | .ext1 => d.ext[1] | .ext2 => d.ext[2] | .ext3 => d.ext[3]
  | .grp0 => d.grp[0] | .grp1 => d.grp[1] | .grp2 => d.grp[2] | .grp3 => d.grp[3]
  | .lanes => BitVec.ofNat 64 c.lanes
  | .chan => BitVec.ofNat 64 (i % 8)

/-- Whether a register is marked Sup (R72). -/
def isSup : SysReg → Bool
  | .fpc | .cyc | .slots | .depth | .lc => false
  | _ => true

/-- Whether a register is read-only (R72). -/
def isRO : SysReg → Bool
  | .cyc | .slots | .depth => true
  | _ => false

/-- The value of a system register. -/
def Core.sysValue (c : Core) (r : SysReg) : Word :=
  let y := c.sys
  match r with
  | .fpc => c.ctx.fpc
  | .cyc => y.cyc
  | .slots => y.slots
  | .depth => BitVec.ofNat 64 c.ctx.depth
  | .lc => if c.ctx.depth = 0 then 0 else (c.ctx.loops[c.ctx.depth]).count
  | .wthr => y.wthr.setWidth 64
  | .pquota => BitVec.ofNat 64 (packFields [(16, y.pmax.toNat), (16, c.pused)])
  | .lquota => BitVec.ofNat 64 (packFields [(32, y.lmax.toNat), (32, ceilDiv c.logUsed 1024)])
  | .inj => y.inj.setWidth 64
  | .tvec => y.tvec | .epc => y.epc | .ecause => y.ecause | .einfo => y.einfo | .eaddr => y.eaddr | .estat => y.estat

/-- The `fpc` that a write of a value leaves (R64): a rounding code outside 1 to 5 leaves RMD. -/
def fpcWritten (old v : Word) : Word :=
  let m := field v.toNat 0 3
  (v &&& 0x3FF0#64) ||| (if 1 ≤ m && m ≤ 5 then BitVec.ofNat 64 m else old &&& 7#64)

/-- Write a system register; a reserved or read-only field ignores the write (R7). -/
def Core.sysWrite (c : Core) (r : SysReg) (v : Word) : Core :=
  match r with
  | .fpc => c.updCtx fun x => { x with fpc := fpcWritten x.fpc v }
  | .cyc | .slots | .depth => c
  | .lc =>
    if c.ctx.depth = 0 then c
    else c.updCtx fun x => { x with loops := x.loops.set x.depth { x.loops[x.depth] with count := v } }
  | .wthr => c.updSys fun y => { y with wthr := v.setWidth 32 }
  | .pquota => c.updSys fun y => { y with pmax := v.setWidth 16 }
  | .lquota => c.updSys fun y => { y with lmax := v.setWidth 32 }
  | .inj => c.updSys fun y => { y with inj := v.setWidth 9 &&& 0x17F#9, laneHit := none }
  | .tvec => c.updSys fun y => { y with tvec := v &&& 0x1FFFFFFFFFFFC0#64 }
  | .epc => c.updSys fun y => { y with epc := v &&& 0x1FFFFFFFFFFFFF#64 }
  | .ecause => c.updSys fun y => { y with ecause := v &&& 0xFFF#64 }
  | .einfo => c.updSys fun y => { y with einfo := v }
  | .eaddr => c.updSys fun y => { y with eaddr := v &&& 0x3FFFFFFFFFFFFF#64 }
  | .estat => c.updSys fun y => { y with estat := v &&& 0xFF01FF#64 }

/-- `IDR` (R71). -/
def execIdr (h : Hd) (a : SReg) (r : IdReg) (s : State) : Out :=
  s.issue64 h fun s => done (s.upd fun k => k.setS a (s.idValue s.cur r))

/-- `SRR` (R72): of `fpc`, once every earlier floating-point instruction has completed (R179, R213). -/
def execSrr (h : Hd) (a : SReg) (r : SysReg) (s : State) : Out :=
  s.issue64 h fun s => do
    need (!isSup r || s.core.sys.sup) (accessTrap 8 0) s
    let s ← if r == .fpc then s.drained else pure s
    done (s.upd fun k => k.setS a (k.sysValue r))

/-- `SRW` (R72). -/
def execSrw (h : Hd) (r : SysReg) (b : SReg) (s : State) : Out :=
  s.issue64 h fun s => do
    need ((!isSup r || s.core.sys.sup) && !isRO r) (accessTrap 8 0) s
    let s ← if r == .fpc then s.drained else pure s
    done (s.upd fun k => k.sysWrite r (k.getS b))

end Sys2Proof.Machine
end

