-- ==== Sys2Proof/Machine/Control.lean ====
section
/-! DEFINITION. Control transfer, loops, the trap-raising instructions, the return from a trap, fetch chains and the yield
point (R73 to R81, R382). -/

namespace Sys2Proof.Machine

/-- The target of a transfer by `n` words of four bytes (R73). -/
def relTarget (pc off : Word) : Word := pc + 4 * off

/-- A taken transfer, or a `LOOP` of count 0, costs two cycles that are no slots (R73). -/
def State.redirected (s : State) : State := s.upd (·.updSys fun y => { y with cyc := y.cyc + 2 })

/-- Transfer to a place computed from the core, writing what `f` writes. -/
def State.jump64 (s : State) (h : Hd) (target : Core → Word) (f : Core → Core) : Out :=
  s.issue64 h fun s => .ok ((s.upd f).redirected, some (target s.core))

/-- `BR` (R73). -/
def execBr (h : Hd) (imm : BitVec 21) (s : State) : Out := s.jump64 h (fun c => relTarget c.ctx.pc (imm21 imm)) id

/-- `BRL` (R73). -/
def execBrl (h : Hd) (imm : BitVec 53) (s : State) : Out :=
  s.issue96 h fun s => .ok (s.redirected, some (relTarget s.core.ctx.pc (imm.signExtend 64)))

/-- `CALL` (R73): the link is pc + 8. -/
def execCall (h : Hd) (a : SReg) (imm : BitVec 21) (s : State) : Out :=
  s.jump64 h (fun c => relTarget c.ctx.pc (imm21 imm)) fun c => c.setS a (c.ctx.pc + 8)

/-- `CALLL` (R73): the link is pc + 12. -/
def execCalll (h : Hd) (a : SReg) (imm : BitVec 53) (s : State) : Out :=
  s.issue96 h fun s =>
    .ok ((s.upd fun c => c.setS a (c.ctx.pc + 12)).redirected, some (relTarget s.core.ctx.pc (imm.signExtend 64)))

/-- `RET` (R73). -/
def execRet (h : Hd) (b : SReg) (s : State) : Out := s.jump64 h (fun c => c.getS b) id

/-- `JMPR` (R73): the target is read before the link is written. -/
def execJmpr (h : Hd) (a b : SReg) (imm : BitVec 21) (s : State) : Out :=
  s.jump64 h (fun c => c.getS b + imm21 imm) fun c => c.setS a (c.ctx.pc + 8)

/-- Enter depth d + 1 with count `n` (R74). -/
def Core.enterLoop (n stop : Word) (c : Core) : Core :=
  let d : Fin 8 := c.ctx.depth + 1
  c.updCtx fun x => { x with depth := d, loops := x.loops.set d { count := n, start := x.pc + 8, stop := stop } }

/-- `LOOP` (R74, R75, R378). -/
def execLoop (h : Hd) (b : SReg) (imm : BitVec 21) (s : State) : Out :=
  s.issue64 h fun s => do
    let c := s.core
    need (!c.sys.sup) (illegal 13 s) s
    let stop := relTarget c.ctx.pc (imm21 imm)
    if c.getS b = 0 then .ok (s.redirected, some (stop + 8))
    else
      need (c.ctx.depth != 7) (illegal 9 s) s
      done (s.upd (Core.enterLoop (c.getS b) stop))

/-- Count the current depth's loop down, or leave the depth (R74). -/
def Core.endLoop (c : Core) : Core :=
  let d := c.ctx.depth
  let l := c.ctx.loops[d]
  if l.count.toNat ≤ 1 then c.updCtx fun x => { x with depth := d - 1, loops := x.loops.set d { l with count := 0 } }
  else c.updCtx fun x => { x with loops := x.loops.set d { l with count := l.count - 1 } }

/-- `ENDL` (R74, R75, R378). -/
def execEndl (h : Hd) (s : State) : Out :=
  s.issue64 h fun s => do
    let c := s.core
    let l := c.ctx.loops[c.ctx.depth]
    need (!c.sys.sup) (illegal 13 s) s
    need (c.ctx.depth != 0 && c.ctx.pc == l.stop) (illegal 10 s) s
    .ok (s.upd Core.endLoop, if l.count.toNat ≤ 1 then none else some l.start)

/-- `BRK` (R76): a breakpoint trap at itself. -/
def execBrk (h : Hd) (code : BitVec 20) (s : State) : Out :=
  s.issue64 h fun s => .error (.trap { cause := .breakpoint, detail := code.toNat } s)

/-- `TRAP` (R76): the next instruction's address is saved, and `einfo` bit 20 is set. -/
def execTrap (h : Hd) (code : BitVec 20) (s : State) : Out :=
  s.issue64 h fun s => .error (.after { cause := .syscall, detail := code.toNat + 2 ^ 20 } s)

/-- `SYSCALL` (R76). -/
def execSyscall (h : Hd) (code : BitVec 20) (s : State) : Out :=
  s.issue64 h fun s => .error (.after { cause := .syscall, detail := code.toNat } s)

/-- The number of closed phases after which a standing arrival's phase has closed (R232, R275). -/
def State.barTarget (s : State) (i g : Nat) : Nat :=
  match (s.launchOf i).bind (·.barSet g) with
  | none => 0
  | some b => if b.next.contains i then b.closes + 2 else if b.cur.contains i then b.closes + 1 else b.closes

/-- The core after `ERET` on core `i` (R382), a left `BAR` waiting for the phase of its standing arrival. -/
def State.returnOn (s : State) (i dly : Nat) (c : Core) : Core :=
  let r := c.returned dly
  match r.resume with
  | some (.bar g _ _) => { r with resume := some (.bar g (s.barTarget i g) 0) }
  | _ => r

/-- The status and DETAIL with which KILL ends the launch (R382): the end of residue mode, else the trap recorded. -/
def killStatus (c : Core) : Nat × Word :=
  if field c.sys.ecause.toNat 0 8 = 12 then (11, c.sys.einfo &&& 0xFF#64)
  else (9, BitVec.ofNat 64 (packFields [(32, field c.sys.einfo.toNat 0 32), (8, field c.sys.ecause.toNat 0 8), (24, c.team)]))

/-- `ERET` (R77, R382). -/
def execEret (h : Hd) (s : State) : Out :=
  s.issue64 h fun s => do
    let c := s.core
    need c.sys.sup (accessTrap 8 0) s
    if bitAt c.sys.estat.toNat 7 then
      let r := killStatus c
      .error (.gone (s.endLaunch (s.seqOf s.cur) r.1 r.2))
    else .ok (s.upd (s.returnOn s.cur h.dly.toNat), some c.sys.epc)

/-! ## Chains (R153 to R158) -/

/-- The CHAIN bits of a core's pod (R153). -/
def Launch.chainOf (l : Launch) (pod : Nat) : Nat := ((l.chain.find? fun x => x.1 == pod).map (·.2)).getD 0

/-- The number of links below a core in its pod (R153), from its place `k`. -/
def chainLinks (bits : Nat) : Nat → Nat
  | 0 => 0
  | k + 1 => if bitAt bits k then chainLinks bits k + 1 else 0

/-- The cores above a leader that are slaved to it, `n` places looked at (R153). -/
def chainAbove (bits : Nat) : Nat → Nat → List Nat
  | _, 0 => []
  | k, n + 1 => if bitAt bits k then (k + 1) :: chainAbove bits (k + 1) n else []

/-- The followers' cores of the chain that core `i` leads. -/
def State.followersOf (s : State) (i : Nat) : List Nat :=
  match s.launchOf i with
  | none => []
  | some l =>
    if chainLinks (l.chainOf (podOf i)) (i % 8) ≠ 0 then []
    else (chainAbove (l.chainOf (podOf i)) (i % 8) 7).map (8 * podOf i + ·)

/-- The leader of a core's chain. -/
def State.leaderOf (s : State) (i : Nat) : Nat := i - (s.at i).chainPos

/-- The followers of core `i` that are attached (R154). -/
def State.attachedOf (s : State) (i : Nat) : List Nat :=
  (s.followersOf i).filter fun k => (s.at k).ctx.attached && (s.at k).launch == (s.at i).launch && (s.at k).phase != .exited

/-- The detached members that a leader's `JOIN` waits for (R81, R157). -/
def State.detachedOf (s : State) (i : Nat) : List Nat :=
  (s.followersOf i).filter fun k => !(s.at k).ctx.attached && (s.at k).phase == .running

/-- `DETACH` (R80): an attached follower leaves its leader's stream; nothing else changes. -/
def execDetach (h : Hd) (s : State) : Out :=
  s.issue64 h fun s => done (s.upd fun c => { c with ctx := { c.ctx with attached := false }, replay := [] })

/-- A waiting member is re-slaved: its `JOIN` completes (R81). -/
def Core.reslave (dly stall : Nat) (c : Core) : Core :=
  let r := c.retire dly (c.ctx.pc + 8) stall
  { r with ctx := { r.ctx with attached := true }, replay := [] }

/-- `JOIN` (R81). -/
def execJoin (h : Hd) (s : State) : Out :=
  s.issue64 h fun s => do
    let s ← s.drained
    let c := s.core
    let i := s.cur.val
    if c.ctx.attached then done s
    else if c.chainPos = 0 then
      let ms := s.detachedOf i
      waitFor (ms.all fun k => (s.at k).wait == some .join && (s.at k).ctx.pc == c.ctx.pc) .join s
      done (ms.foldl (fun s k => s.on k (Core.reslave h.dly.toNat (Config.stallCycles s.tick))) s)
    else
      let l := s.at (s.leaderOf i)
      if l.phase == .exited || l.phase == .idle then done s
      else
        need (!(l.wait == some .join && l.ctx.pc != c.ctx.pc)) (illegal 11 s) s
        .error (.wait .join s)

/-- `YIELD` (R79). -/
def execYield (h : Hd) (s : State) : Out := s.issue (s.core.guard h) true h.dly.toNat 8 done

end Sys2Proof.Machine
end

