-- ==== Sys2Proof/Machine/Load.lean ====
section
/-! DEFINITION. Loads, stores, extents, fences and atomics (R104 to R115). -/

namespace Sys2Proof.Machine

/-- The core's exchange phase has begun (R235). -/
def State.exch (s : State) : State := s.upd fun c => { c with exchanging := true }

/-- Bytes of a size code (R31). -/
def sizeBytes : Size → Nat
  | .b => 1 | .h => 2 | .w => 4 | .d => 8

/-- The value of loaded bytes, little-endian, sign- or zero-extended (R104). -/
def loadValue (sx : Bool) (bs : List Byte) : Word :=
  if sx then BitVec.ofInt 64 (sval (8 * bs.length) (ofBytesLE bs)) else BitVec.ofNat 64 (ofBytesLE bs)

/-- A load of `n` bytes at an address into s[A] (R104, R335). -/
def State.load (s : State) (a : SReg) (va : Word) (n : Nat) (sx : Bool) : Run (State × Option Word) := do
  if s.partHeld s.cur va.toNat n then .error (.wait (s.partWait s.cur va.toNat n) s)
  else
    let (s', bs) ← s.loadBytes s.cur s.core.reads va.toNat n
    done (s'.upd fun c => c.setS a (loadValue sx bs))

/-- `LD` (R104). -/
def execLd (h : Hd) (a b : SReg) (imm : BitVec 21) (size : Size) (sx : Bool) (s : State) : Out :=
  s.issue64 h fun s => s.exch.load a (s.core.getS b + imm21 imm) (sizeBytes size) sx

/-- `LDX` (R105). -/
def execLdx (h : Hd) (a b c : SReg) (imm : BitVec 53) (size : Size) (sx : Bool) (s : State) : Out :=
  s.issue96 h fun s =>
    let k := s.core
    s.exch.load a (k.getS b + k.getS c * BitVec.ofNat 64 (sizeBytes size) + imm.signExtend 64) (sizeBytes size) sx

/-- `ST` (R106). -/
def execSt (h : Hd) (a b : SReg) (imm : BitVec 21) (size : Size) (s : State) : Out :=
  s.issue64 h fun s => do
    let k := s.core
    let s' ← s.exch.storeBytes (k.getS b + imm21 imm).toNat (bytesLE (sizeBytes size) (k.getS a).toNat)
    done s'

/-! ## Extents (R108, R109) -/

/-- The start of an extent. -/
def Core.extent (c : Core) (b : SReg) (imm : BitVec 21) : Nat := (c.getS b + imm21 imm).toNat

/-- The zone pieces of an extent that the running core may read, or a trap (R108). -/
def State.extentZones (s : State) (va n : Nat) : Run (State × List (Nat × Nat)) := do
  need (n ≤ 4096) (accessTrap 10 0) s
  if n = 0 then return (s, [])
  else
    let (s', ps) ← s.pieces s.cur s.core.reads va n
    if s'.reached s.cur s'.core.memq (zonesOf ps) then .error (.stall s') else return (s', zonesOf ps)

/-- Run an L1 operation on every piece of an extent that has bytes: one access (R87). -/
def State.eachZone (f : Nat → Nat → List L1Entry → List L1Entry × Wbs) (zs : List (Nat × Nat)) (s : State) : State :=
  if zs.isEmpty then s else zs.foldl (fun s z => s.onL1 s.cur fun _ es => f z.1 z.2 es) (s.upd (Core.touch []))

/-- `RFLUSH` (R14, R108): the write-backs are performed before the next instruction. -/
def execRflush (h : Hd) (b : SReg) (imm : BitVec 21) (c : SReg) (m : Flush) (s : State) : Out :=
  s.issue64 h fun s => do
    let k := s.core
    let (s, zs) ← s.exch.extentZones (k.extent b imm) (k.getS c).toNat
    done (State.eachZone (flushL1 m) zs (zs.foldl (fun s z => s.settleWb z.1 z.2) s))

/-- `RDROP` (R108). -/
def execRdrop (h : Hd) (b : SReg) (imm : BitVec 21) (c : SReg) (s : State) : Out :=
  s.issue64 h fun s => do
    let k := s.core
    let (s, zs) ← s.exch.extentZones (k.extent b imm) (k.getS c).toNat
    done (State.eachZone dropL1 zs s)

/-- `RUNPIN` (R108). -/
def execRunpin (h : Hd) (b : SReg) (imm : BitVec 21) (c : SReg) (s : State) : Out :=
  s.issue64 h fun s => do
    let k := s.core
    let (s, zs) ← s.exch.extentZones (k.extent b imm) (k.getS c).toNat
    done (State.eachZone (fun pa n es => (unpinL1 pa n es, [])) zs s)

/-- `PREF` (R87, R92, R97, R108): one access; the fill is queued, up to the last address there is, and nothing waits for it. -/
def execPref (h : Hd) (b : SReg) (imm : BitVec 21) (c : SReg) (x : Bool) (cls : RClass) (s : State) : Out :=
  s.issue64 h fun s =>
    let k := s.core
    let va := k.extent b imm
    let n := min (min (k.getS c).toNat 4096) (2 ^ 53 - va)
    done (if n = 0 then s.exch else s.exch.upd fun k' => { k'.touch [] with memq := k'.memq ++ [.fill va n x cls] })

/-- `RPIN` (R93, R109): one access; what it needs is counted before anything is fetched. -/
def execRpin (h : Hd) (gd : GReg) (b : SReg) (imm : BitVec 21) (c : SReg) (x : Bool) (cls : RClass) (s : State) : Out :=
  s.issue64 h fun s => do
    let k := s.core
    let (s, zs) ← s.exch.extentZones (k.extent b imm) (k.getS c).toNat
    if zs.isEmpty then done (s.upd fun k => k.setG gd true)
    else if !s.core.pinFits x cls zs then done (s.upd fun k => k.setG gd false)
    else
      let s ← State.countLater s.cur (zs.foldlM (State.pinPiece s.cur x cls) (s.upd (Core.touch zs)))
      done (s.upd fun k => k.setG gd true)

/-! ## Fences (R110 to R112) -/

/-- `FENCE` (R110, R368): loads are performed as they issue; stores and write-backs may still wait in the memory queue. -/
def execFence (h : Hd) (scope : Scope) (s : State) : Out :=
  s.issue64 h fun s => if s.performedAt s.cur scope then done s else .error (.stall s)

/-- Whether core `k` lies within a scope of core `i` (R253). -/
def inScope (sc : Scope) (i k : Nat) : Bool :=
  match sc with
  | .core => i == k
  | .pod => podOf i == podOf k
  | .die => dieOf i == dieOf k
  | .dev | .sys => true

/-- A group of the running core's launch, or an access violation (R161): one of the kinds accepted, the core a member if
asked for. -/
def State.groupOf (s : State) (g : Word) (kinds : List Nat) (member : Bool) : Run Group :=
  match (s.launchOf s.cur).bind fun l => if g.toNat < 256 then l.group g.toNat else none with
  | none => .error (.trap (accessTrap 6 0) s)
  | some x =>
    if kinds.contains x.kind && (!member || x.members.contains s.cur.val) then .ok x
    else .error (.trap (accessTrap 6 0) s)

/-- `IFENCE` (R111). -/
def execIfence (h : Hd) (b : SReg) (scope : Scope) (s : State) : Out :=
  s.issue64 h fun s => do
    let s := s.exch
    let i := s.cur.val
    if b = 0 then done (s.upd fun c => { c with icache := [] })
    else
      let g ← s.groupOf (s.core.getS b) [1, 2, 3, 4] false
      done ((g.members.filter (inScope scope i)).foldl (fun s k => s.on k fun c => { c with icache := [] }) s)

/-- `PFENCE` (R112): a command has read its plates when it issues. -/
def execPfence (h : Hd) (s : State) : Out :=
  s.issue64 h fun s => done (s.upd fun c => { c with plates := [], metas := [] })

/-! ## Atomics (R113 to R115) -/

/-- The recorded result of an atomic at this place of a re-executed superstep, or none when it is to be performed (R115);
an atomic that differs from its record ends the launch. -/
def State.recorded (s : State) (r : AtomRec) : Run (Option Word) :=
  let c := s.core
  match c.atoms[c.atomPos]? with
  | none => .ok none
  | some x =>
    if x.va == r.va && x.op == r.op && x.v1 == r.v1 && x.v2 == r.v2 then .ok (some x.old)
    else .error (.gone (s.endLaunch (s.seqOf s.cur) 16 (BitVec.ofNat 64 c.team)))

/-- A placement-race fault for the core's next instruction boundary, at a byte that another device's home has refused (R353): its DETAIL,
the entry there, is not known here (log entry 113). -/
def Core.refused (addr : Nat) (c : Core) : Core :=
  { c with faults := c.faults ++ [{ src := 6, cmdpc := c.ctx.pc, trap := { cause := .race, addr := addr }, eflt := false }] }

/-- Whether a launch still has to copy a granule of another device into its journal, and has not its bytes (R328). -/
def State.unjournaled (s : State) (seq : Word) (pa n : Nat) : Bool :=
  (s.launch seq).any fun l => l.journaled && (granulesOf pa n).any fun g => !(l.journal.any fun j => j.1 == g) && !s.holds false g 16

/-- Send a step to be performed at another device's home, and wait for its answer (R113, R293, R360): the granules that it changes are copied
into the launch's journal first, once their bytes have come (R328). -/
def State.sendStep (s : State) (pa n : Nat) (msg : Payload) : State :=
  let i := s.cur.val
  if s.unjournaled (s.seqOf i) pa n then s.fetchFar i false (granuleOf pa) (granuleOf (pa + n - 1) + 16 - granuleOf pa)
  else (((s.noted (s.seqOf i) i false pa n).upd fun c => { c with farAtom := some none }).tellHome (some i) pa msg)

/-- The answer to an atomic from another device's home has come: `v` stood there, `f` has been applied to it. The core's squad sees it with
what it holds aside (R324, log entry 106). -/
def State.farDone (s : State) (pa n v : Nat) (f : Nat → Option Nat) : State × Nat :=
  let i := s.cur.val
  let s1 : State := { s with mem := s.mem.write pa (bytesLE n v) }
  let old := ofBytesLE ((s1.memFor i).read pa n)
  let s2 := match f v with
    | some p => ({ s1 with mem := s1.mem.write pa (bytesLE n p) } : State).kept (s.whoAt i) pa (bytesLE n p)
    | none => s1
  (match f old with
    | some p => s2.seenAs i pa (bytesLE n p)
    | none => s2, old)

/-- An atomic that another device's home performs: it is sent once, and the core waits for the answer (R113, R353, R360, R365). A refused
one returns the value at the home (log entry 113). -/
def State.farAtomic (s : State) (va pa n : Nat) (msg : Payload) (f : Nat → Option Nat) : Run (State × Nat) :=
  let i := s.cur.val
  let t := s.upd fun c => { c with farAtom := none }
  match s.core.farAtom with
  | none => .error (.stall (s.sendStep pa n msg))
  | some none => .error (.stall s)
  | some (some (.done v)) => .ok (t.farDone pa n (v.toNat % 2 ^ (8 * n)) f)
  | some (some (.race b v)) =>
    .ok (t.upd (Core.refused ((va + (b - pa)) % 2 ^ 53)), v.toNat % 2 ^ (8 * n))
  | some (some (.poison g)) => .error (.gone (t.poisonEnds i g))

/-- An atomic on `n` bytes at an address (R91, R113 to R115, R339, R352, R378): `code` identifies opcode, operation, size and scope;
`v1`, `v2` are the operands; `msg` is what another device's home is asked; answers the old value. In supervisor mode the scope is
`.sys`. -/
def State.atomic (s : State) (va : Word) (n : Nat) (scope : Scope) (code : Nat) (v1 v2 : Word) (msg : Nat → Payload)
    (f : Nat → Option Nat) : Run (State × Nat) := do
  need (va.toNat < 2 ^ 53) (accessTrap 2 va.toNat) s
  need (va.toNat % n == 0) (accessTrap 5 va.toNat) s
  let (s1, ps) ← s.pieces s.cur { rd := true, wr := true, user := !s.core.sys.sup } va.toNat n
  let pa := (ps.headD (0, 0, 0)).2.1
  let sc := if s.core.sys.sup then .sys else scope
  match s1.races s.cur ps with
  | some r => .error (.trap (raceTrap r) s1)
  | none =>
    if s1.partHeld s.cur va.toNat n then .error (.wait (s1.partWait s.cur va.toNat n) s1)
    else if s1.reached s.cur s1.core.memq [(pa, n)] then .error (.stall s1)
    else
      let rec0 : AtomRec := { va := va.toNat, op := code, v1 := v1, v2 := v2, old := 0 }
      match ← s1.recorded rec0 with
      | some old => return (s1.upd fun c => { c with atomPos := c.atomPos + 1 }, old.toNat % 2 ^ (8 * n))
      | none =>
        let (s2, old) ← if s1.isRemote pa && !(sc == .core || sc == .pod) then s1.farAtomic va.toNat pa n (msg pa) f
          else s1.atomicStep s.cur sc pa n f
        return (s2.upd fun c => { c with atoms := c.atoms ++ [{ rec0 with old := BitVec.ofNat 64 old }], atomPos := c.atomPos + 1 }, old)

/-- `AMO` (R113): `.fadd` sets its flags and never traps. -/
def execAmo (h : Hd) (a b c : SReg) (op : AmoOp) (dbl : Bool) (scope : Scope) (s : State) : Out :=
  s.issue64 h fun s => do
    let s := s.exch
    let n := if dbl then 8 else 4
    let v := (s.core.getS c).toNat % 2 ^ (8 * n)
    let code := packFields [(1, 0), (4, op.code), (1, b1 dbl), (3, scope.code)]
    let msg (pa : Nat) : Payload :=
      .atomic { dev := s.devidx.toNat, team := s.core.team, ord := s.core.atomPos, pa := pa, op := op, dbl := dbl, v := s.core.getS c,
                seq := s.seqOf s.cur, sys := s.core.sys.sup || scope == .sys }
    let (s, old) ← s.atomic (s.core.getS b) n scope code (s.core.getS c) 0 msg fun old => some (amoNew op n old v).1
    done (s.upd fun k => (k.raise (amoNew op n old v).2).setS a (BitVec.ofInt 64 (sval (8 * n) old)))

/-- `CAS` (R114). -/
def execCas (h : Hd) (a b c : SReg) (dbl : Bool) (scope : Scope) (s : State) : Out :=
  s.issue64 h fun s => do
    let s := s.exch
    let n := if dbl then 8 else 4
    let e := (s.core.getS a).toNat % 2 ^ (8 * n)
    let v := (s.core.getS c).toNat % 2 ^ (8 * n)
    let code := packFields [(1, 1), (4, 0), (1, b1 dbl), (3, scope.code)]
    let msg (pa : Nat) : Payload := .cas s.core.team (s.seqOf s.cur) pa dbl (s.core.sys.sup || scope == .sys) (s.core.getS a) (s.core.getS c)
    let (s, old) ← s.atomic (s.core.getS b) n scope code (s.core.getS a) (s.core.getS c) msg
      fun old => if old = e then some v else none
    done (s.upd fun k => k.setS a (BitVec.ofInt 64 (sval (8 * n) old)))

end Sys2Proof.Machine
end

