-- ==== Sys2Proof/Machine/Tiles.lean ====
section
/-! DEFINITION. Handles, plates and tiles (R165 to R177), and the issue of `TFILL` and `TDRAIN` (R175, R287). -/

namespace Sys2Proof.Machine

/-! ## Handle registers (R170 to R172) -/

/-- The virtual address of a plate operand. -/
def Core.plateAddr (c : Core) (b : SReg) (imm : BitVec 53) : Nat := (c.getS b + imm.signExtend 64).toNat

/-- `HLD` (R170). -/
def execHld (h : Hd) (a : HReg) (b : SReg) (imm : BitVec 53) (s : State) : Out :=
  s.issue96 h fun s => do
    let s := s.exch
    let (s, w) ← s.readPlate (s.core.plateAddr b imm)
    match plateCheck w with
    | .error t => raise t s
    | .ok hd => done (s.upd fun c => c.setH a hd)

/-- `HST` (R170): checked as a store of 64 bytes, it stores bytes 0 to 31. -/
def execHst (h : Hd) (a : HReg) (b : SReg) (imm : BitVec 53) (s : State) : Out :=
  s.issue96 h fun s => do
    let s := s.exch
    let c := s.core
    let va := c.plateAddr b imm
    need (va % 64 == 0) (accessTrap 5 va) s
    let (s, _) ← s.pieces s.cur c.writes va 64
    let s ← s.storeBytes va (bytesLE 32 (c.getH a).toPlate)
    done s

/-- The step of one index of dimension `d` (R171). -/
def Handle.step (h : Handle) (d : Nat) : Nat :=
  match d with
  | 0 => h.nib / 2
  | 1 => h.stride1.toNat
  | 2 => h.stride2.toNat
  | _ => h.stride2.toNat * h.ext 2

/-- Replace the extent of a dimension. -/
def Handle.setExt (h : Handle) (d : Nat) (x : BitVec 16) : Handle :=
  match d with
  | 0 => { h with ext0 := x }
  | 1 => { h with ext1 := x }
  | 2 => { h with ext2 := x }
  | _ => { h with ext3 := x }

/-- `HVIEW` (R171). -/
def execHview (h : Hd) (a b : HReg) (c : SReg) (dim : BitVec 2) (ext : BitVec 16) (s : State) : Out :=
  s.issue96 h fun s => do
    let k := s.core
    let ha := k.getH b
    let d := dim.toNat
    let o := (k.getS c).toNat
    need (fmtNibbles ha.fmt.toNat).isSome (fmtTrap 2 ha 0) s
    need (o + ext.toNat ≤ ha.ext d) (fmtTrap 2 ha 4) s
    need (!(d == 0 && (ha.layout != 0 || [0x11, 0x12, 0x21].contains ha.fmt.toNat))) (fmtTrap 2 ha 1) s
    done (s.upd fun k => k.setH a (({ ha with base := BitVec.ofNat 53 (ha.base.toNat + o * ha.step d) }).setExt d ext))

/-- A field of a handle (R37). -/
def Handle.get (h : Handle) (f : HField) : Nat :=
  match f with
  | .base => h.base.toNat | .space => b1 h.pad | .fmt => h.fmt.toNat | .cursor => h.cursor.toNat
  | .layout => h.layout.toNat | .planes => h.planes.toNat | .tile => h.tile.toNat | .block => h.block.toNat
  | .ext0 => h.ext0.toNat | .ext1 => h.ext1.toNat | .ext2 => h.ext2.toNat | .ext3 => h.ext3.toNat
  | .stride1 => h.stride1.toNat | .stride2 => h.stride2.toNat

/-- Whether `HSET` accepts a value for a field (R172); FMT is never written (R37). -/
def setOk (f : HField) (v : Nat) : Bool :=
  match f with
  | .base => v < 2 ^ 53 | .space => v < 2 | .fmt => false | .cursor | .stride1 | .stride2 => v < 2 ^ 32
  | .layout => v < 4 | .planes => v < 16 | .tile => v < 32 || v == 255 | .block => v == 0 || v == 2
  | .ext0 | .ext1 | .ext2 | .ext3 => v < 65536

/-- Write a field of a handle. -/
def Handle.put (h : Handle) (f : HField) (v : Nat) : Handle :=
  match f with
  | .base => { h with base := .ofNat 53 v } | .space => { h with pad := v == 1 } | .fmt => h
  | .cursor => { h with cursor := .ofNat 32 v } | .layout => { h with layout := .ofNat 4 v }
  | .planes => { h with planes := .ofNat 4 v } | .tile => { h with tile := .ofNat 8 v }
  | .block => { h with block := .ofNat 8 v }
  | .ext0 => { h with ext0 := .ofNat 16 v } | .ext1 => { h with ext1 := .ofNat 16 v }
  | .ext2 => { h with ext2 := .ofNat 16 v } | .ext3 => { h with ext3 := .ofNat 16 v }
  | .stride1 => { h with stride1 := .ofNat 32 v } | .stride2 => { h with stride2 := .ofNat 32 v }

/-- `HGET` (R172). -/
def execHget (h : Hd) (a : SReg) (b : HReg) (f : HField) (s : State) : Out :=
  s.issue64 h fun s => done (s.upd fun c => c.setS a (BitVec.ofNat 64 ((c.getH b).get f)))

/-- `HSET` (R172): the format selector is an illegal instruction (R37). -/
def execHset (h : Hd) (a : HReg) (b : SReg) (f : HField) (s : State) : Out :=
  s.issue64 h fun s => do
    let v := (s.core.getS b).toNat
    need (f != .fmt) (illegal 5 s) s
    need (setOk f v) (fmtTrap 1 (s.core.getH a) (if f == .tile then 3 else 1)) s
    done (s.upd fun c => c.setH a ((c.getH a).put f v))

/-- `HMOV` (R172). -/
def execHmov (h : Hd) (a b : HReg) (s : State) : Out :=
  s.issue64 h fun s => done (s.upd fun c => c.setH a (c.getH b))

/-! ## Tiles (R173, R174, R177) -/

/-- A tile-starve trap (R380): its detail and the tile or slot. -/
def starveTrap (d t : Nat) : Trap := { cause := .starve, detail := packFields [(8, d), (5, t)] }

/-- Change an entry of the tile table. -/
def Core.setTile (c : Core) (t : Nat) (x : Tile) : Core := c.updCtx fun k => { k with tiles := k.tiles.setIfInBounds t x }

/-- Hold an instruction back by a tile of an operand (R174). -/
def State.hold1 (s : State) (h : Handle) : Run Unit :=
  if h.tile = 0xFF then .ok ()
  else
    let t := h.tile.toNat
    let e := s.core.tile t
    match e.st with
    | .ready => .ok ()
    | .filling => .error (.wait .tile s)
    | .draining => .error (.wait .tile s)
    | .empty => if e.pend then .error (.wait .tile s) else .error (.trap (starveTrap 1 t) s)

/-- Hold an instruction back by the tiles of its operands, in operand order. -/
def State.hold (s : State) : List Handle → Run Unit
  | [] => .ok ()
  | h :: hs => do
    s.hold1 h
    s.hold hs

/-- The tile becomes empty; a pending fill starts at once (R173). -/
def Tile.emptied (e : Tile) : Tile := if e.pend then { e with st := .filling, pend := false, flt := false, done := 0 } else { e with st := .empty, flt := false }

/-- `TFILL`, or a `GET` into a tile, steps its tile (R173): the entry afterwards, or a tile-starve detail. -/
def Tile.fill (e : Tile) (ch : BitVec 3) : Option Tile :=
  if e.pend then none else
  match e.st with
  | .empty => some { e with st := .filling, flt := false, ch := ch, done := 0 }
  | .filling => none
  | .ready | .draining => some { e with pend := true }

/-- `TDRAIN` steps its tile (R173). -/
def Tile.drain (e : Tile) (ch : BitVec 3) : Option Tile :=
  match e.st with
  | .empty | .draining => none
  | .filling => if e.drainQ then none else some { e with drainQ := true }
  | .ready => some { e with st := .draining, flt := false, ch := ch, done := 0 }

/-- A tile becomes empty (R173): a pending fill starts on the channel of its command. -/
def Core.tileEmptied (c : Core) (t : Nat) : Core :=
  let e := (c.tile t).emptied
  if e.st != .filling then c.setTile t e
  else c.setTile t { e with ch := ((c.copies.find? fun x => x.kind == .fill && x.tile == t).map (·.ch)).getD e.ch }

/-- The code of a tile state (R177). -/
def tileCode : TileState → Nat
  | .empty => 0 | .filling => 1 | .ready => 2 | .draining => 3

/-- `TWAIT` (R177). -/
def execTwait (h : Hd) (t : BitVec 5) (s : State) : Out :=
  s.issue64 h fun s => do
    let s ← s.drained
    let e := s.core.tile t.toNat
    waitFor (e.st == .ready || (e.st == .empty && !e.pend)) .tile s
    done s

/-- `TREL` (R173): on a filling tile it waits for ready, on a draining one until the drain has emptied it; neither is a wait of R148. -/
def execTrel (h : Hd) (t : BitVec 5) (s : State) : Out :=
  s.issue64 h fun s =>
    let e := s.core.tile t.toNat
    if s.core.wait == some .satisfied then done s
    else
      match e.st with
      | .empty => done s
      | .filling | .draining => .error (.wait (.emptied t.toNat) s)
      | .ready => done (s.upd fun c => c.tileEmptied t.toNat)

/-- `TSTATE` (R177). -/
def execTstate (h : Hd) (a : SReg) (t : BitVec 5) (s : State) : Out :=
  s.issue64 h fun s =>
    let e := s.core.tile t.toNat
    done (s.upd fun c => c.setS a (BitVec.ofNat 64 (packFields
      [(2, tileCode e.st), (1, b1 e.pend), (1, b1 e.flt), (4, 0), (3, e.ch.toNat), (5, 0), (32, e.done.toNat)])))

/-! ## `TFILL` and `TDRAIN` at issue (R175) -/

/-- The conditions of R175 on the two handles, after R167. -/
def transferTrap (hl hg : Handle) : Option Trap :=
  match judge [(1, hl, { space := none, tags := some allTags, layouts := some [0, 1, 2, 3] }),
               (2, hg, { space := none, tags := some allTags, layouts := some [0, 1, 2, 3] })] with
  | some t => some t
  | none =>
    if !hl.pad || hg.pad then some (fmtTrap 1 hl 5)
    else if hl.fmt != hg.fmt then some (fmtTrap 1 hl 0)
    else if hl.layout != hg.layout || hl.planes != hg.planes then some (fmtTrap 1 hl 1)
    else if hl.block != hg.block then some (fmtTrap 1 hl 2)
    else if hl.ext0 != hg.ext0 || hl.ext1 != hg.ext1 || hl.ext2 != hg.ext2 || hl.ext3 != hg.ext3 then some (fmtTrap 1 hl 4)
    else none

/-- Trap if a check found one. -/
def orTrap (t : Option Trap) (s : State) : Run Unit :=
  match t with
  | none => .ok ()
  | some t => .error (.trap t s)

/-- An access beyond the scratchpad (R151): the first byte of the access that lies beyond it. -/
def Core.padTrap (c : Core) (a : Nat) : Trap := accessTrap 4 (max a c.padSize) true

/-- Whether `n` bytes from a scratchpad address lie in it. -/
def Core.inPad (c : Core) (a n : Nat) : Bool := n == 0 || a + n ≤ c.padSize

/-- The next transfer identifier of a channel (R287). -/
def Core.nextOn (c : Core) (ch : BitVec 3) : Word := c.ctx.nextId.getD ch.toNat 1

/-- Take the identifier, and queue the command. -/
def Core.queueCopy (c : Core) (x : CopyCmd) : Core :=
  { c with ctx := { c.ctx with nextId := c.ctx.nextId.setIfInBounds x.ch.toNat (x.id + 1) }, copies := c.copies ++ [x] }

/-- A copy command as its issue stages it (R28, R117). -/
def Core.copyCmd (c : Core) (k : CopyKind) (ch : BitVec 3) (hl hg : Handle) (t : Nat) (fl : EFlags) (hint : BitVec 4) : CopyCmd :=
  { kind := k, pc := c.ctx.pc, pos := c.pos, ch := ch, id := c.nextOn ch, hl := hl, hg := hg, tile := t, tgt := 0, dst := 0,
    fl := fl, hint := hint, need := c.pendSeq, done := 0, stop := none, timed := none }

/-- `TFILL` or `TDRAIN` at issue (R175): `step` moves the tile, `d` is the detail of its refusal. -/
def State.transfer (s : State) (k : CopyKind) (hl hg : Handle) (fl : EFlags) (hint : BitVec 4) (t : BitVec 5) (ch : BitVec 3)
    (step : Tile → BitVec 3 → Option Tile) (d : Nat) : Run (State × Option Word) := do
  let s := s.exch
  orTrap (transferTrap hl hg) s
  need (s.core.inPad hl.start hl.bytes) (s.core.padTrap hl.start) s
  s.hold [hl, hg]
  match step (s.core.tile t.toNat) ch with
  | none => raise (starveTrap d t.toNat) s
  | some e => done (s.upd fun c => (c.queueCopy (c.copyCmd k ch hl hg t.toNat fl hint)).setTile t.toNat e)

/-- `TFILL` (R175). -/
def execTfill (h : Hx) (o1 o2 : HReg) (fl : EFlags) (t : BitVec 5) (ch : BitVec 3) (s : State) : Out :=
  s.issue128 h [(0, o1), (1, o2)] fun s =>
    s.transfer .fill (s.core.getH o1) (s.core.getH o2) fl h.hint t ch Tile.fill 2

/-- `TDRAIN` (R175). -/
def execTdrain (h : Hx) (o1 o2 : HReg) (fl : EFlags) (t : BitVec 5) (ch : BitVec 3) (s : State) : Out :=
  s.issue128 h [(0, o1), (1, o2)] fun s =>
    s.transfer .drain (s.core.getH o1) (s.core.getH o2) fl h.hint t ch Tile.drain 3

end Sys2Proof.Machine
end

