-- ==== Sys2Proof/Machine/Lanes.lean ====
section
/-! DEFINITION. The lane pool of a pod (R205 to R208). -/

namespace Sys2Proof.Machine

/-- A pod. -/
def State.pod (s : State) (p : Nat) : Pod := s.pods.getD p {}

/-- Replace a pod. -/
def State.setPod (s : State) (p : Nat) (x : Pod) : State := { s with pods := s.pods.setIfInBounds p x }

/-- The shared groups of a pod that no core holds (R205, R208). -/
def State.freeGroups (s : State) (p : Nat) : List Nat :=
  let pod := s.pod p
  (List.range 16).filter fun g => !pod.retiredGroups.contains g && !pod.reserveOf.toList.contains g
    && !(List.range 8).any fun k => (s.at (8 * p + k)).shared.contains g

/-- The groups that are held or free, ascending. -/
def State.candidates (s : State) (i : Nat) : List Nat :=
  (List.range 16).filter fun g => (s.at i).shared.contains g || (s.freeGroups (podOf i)).contains g

/-- The lanes asked for (R206). -/
def wantOf (q : Nat) : Nat := min 72 (ceilDiv q 8 * 8)

/-- Claim lanes for core `i` (R206). -/
def State.claim (s : State) (i want : Nat) : State :=
  let keep := if want = 0 then [] else (s.candidates i).take ((want - 8) / 8)
  s.on i fun c => { c with ctx := { c.ctx with want := want }, reserve := want != 0, shared := keep }

/-- Top a core's grant up to its want (R208): it keeps what it holds. -/
def State.topUp (s : State) (i : Nat) : State :=
  let c := s.at i
  if c.ctx.want = 0 then s
  else
    let more := (s.freeGroups (podOf i)).take ((c.ctx.want - 8) / 8 - c.shared.length)
    let s1 := s.on i fun c => { c with reserve := true, shared := c.shared ++ more }
    if more.isEmpty then s1 else s1.setPod (podOf i) { s1.pod (podOf i) with laneTurn := i % 8 }

/-- Top up the cores of a set, pod by pod, in rotating order (R163, R208). -/
def State.topUpAll (s : State) (cs : List Nat) : State :=
  (List.range Config.pods).foldl (fun s p =>
    let t := (s.pod p).laneTurn
    ((List.range 8).map fun k => 8 * p + (t + 1 + k) % 8).foldl (fun s i => if cs.contains i then s.topUp i else s) s) s

/-- Return every group (R207, R208). -/
def Core.unlaned (c : Core) : Core := { c with reserve := false, shared := [] }

/-- `CLAIM` (R206). -/
def execClaim (h : Hd) (a b : SReg) (s : State) : Out :=
  s.issue64 h fun s =>
    let s := s.claim s.cur (wantOf (s.core.getS b).toNat)
    done (s.upd fun c => c.setS a (BitVec.ofNat 64 c.lanes))

/-- `VRELEASE` (R207). -/
def execVrelease (h : Hd) (s : State) : Out := s.issue64 h fun s => done (s.claim s.cur 0)

end Sys2Proof.Machine
end

