-- ==== Sys2Proof/Machine/Sync.lean ====
section
/-! DEFINITION. Barriers, messages, dependent launches, the waits on copies and counters, and the issue of `SEND`
(R232, R236, R237, R243, R246, R274 to R279, R283 to R289). -/

namespace Sys2Proof.Machine

/-! ## Barriers (R232, R274, R275) -/

/-- Whether a member of a launch has exited, or its instance of a pipeline is over (R78, R392). -/
def State.exited (s : State) (seq : Word) (i : Nat) : Bool :=
  (s.member seq i).phase == .exited || (s.launch seq).any fun l => l.finished.contains i

/-- Whether the current phase of a set is full (R232): the arrivals and the members that have exited reach its members. -/
def State.phaseFull (s : State) (seq : Word) (g : Group) (b : BarSet) : Bool :=
  g.members.all fun m => b.cur.contains m || s.exited seq m

/-- Close the current phase of a set (R232). -/
def BarSet.closed (b : BarSet) : BarSet :=
  { b with phase := !b.phase, closes := b.closes + 1, cur := b.next, next := [] }

/-- Count an arrival (R232, R274): in the current phase, else in the next. -/
def BarSet.arrive (i : Nat) (b : BarSet) : BarSet :=
  if b.cur.contains i then { b with next := i :: b.next } else { b with cur := i :: b.cur }

/-- Whether all members of a group lie in one pod. -/
def Group.onePod (g : Group) : Bool := g.members.all fun m => podOf m == podOf (g.members.headD 0)

/-- Leaving a `BAR` opens the timed window when the set lies in one pod (R236): its slot 0 is the slot after. -/
def State.openWindow (s : State) (g phase : Nat) (grp : Group) (base : Word) : State :=
  s.upd fun c => { c with window := if grp.onePod then some { group := g, phase := phase, base := base } else none }

/-- `BAR` (R274). -/
def execBar (h : Hd) (b : SReg) (s : State) : Out :=
  s.issue64 h fun s => do
    let s ← s.drained
    let s := s.exch
    let i := s.cur.val
    let g := (s.core.getS b).toNat
    let grp ← s.groupOf (s.core.getS b) [2] true
    let seq := s.seqOf i
    let bs := ((s.launchOf i).bind (·.barSet g)).getD { group := g, phase := false, closes := 0, cur := [], next := [] }
    match s.core.wait with
    | some (.bar g' t d) =>
      waitFor (t ≤ bs.closes && !s.inbound i g t) (.bar g' t d) s
      done (s.openWindow g t grp (s.core.sys.slots + 1))
    | _ =>
      need (!(bs.cur.contains i && bs.next.contains i)) (accessTrap 7 0) s
      let target := if bs.cur.contains i then bs.closes + 2 else bs.closes + 1
      let s := (s.updBar seq g (BarSet.arrive i)).upd fun c => { c with window := none }
      .error (.wait (.bar g target h.dly.toNat) s)

/-! ## Messages (R276 to R279) -/

/-- The launch generation of the running core's launch. -/
def State.genOf (s : State) (i : Nat) : Nat := ((s.launchOf i).map (·.gen)).getD 0

/-- A team index of the running core's launch, or an access violation (R238, R277). -/
def State.teamTarget (s : State) (v : Nat) : Run Nat :=
  match (s.launchOf s.cur).bind (·.coreOf v) with
  | some _ => .ok v
  | none => .error (.trap (accessTrap 6 0) s)

/-- A gather/put-port command at issue. -/
def Core.portCmd (c : Core) (k : PortKind) (cc : BitVec 4) : PortCmd :=
  { kind := k, pc := c.ctx.pc, pos := c.pos, hd := {}, hx := {}, tgt := .cores [], n := 1, i := 0, cc := cc,
    fl := { acq := false, rel := false, scope := .core }, hint := 0, need := c.pendSeq, tile := 0xFF, value := 0,
    first := [], reply := none, stop := none }

/-- `MSGSEND` (R277). -/
def execMsgsend (h : Hd) (b c : SReg) (cc : BitVec 4) (s : State) : Out :=
  s.issue64 h fun s => do
    let s := s.exch
    let t ← s.teamTarget (s.core.getS b).toNat
    if 4 ≤ (s.core.port.filter fun x => x.kind == .msg).length then .error (.stall s)
    else
      let gen := s.genOf s.cur
      done (s.upd fun k => { k with port := k.port ++ [{ k.portCmd .msg cc with tgt := .cores [(t, gen)], value := k.getS c }] })

/-- `MSGWAIT` (R278). -/
def execMsgwait (h : Hd) (a : SReg) (s : State) : Out :=
  s.issue64 h fun s => do
    let s ← s.drained
    let s := s.exch
    match s.core.ctx.mailbox with
    | [] => .error (.wait .msg s)
    | v :: rest => done (s.upd fun c => (c.updCtx fun x => { x with mailbox := rest }).setS a v)

/-! ## Dependent launches (R283, R284, R391) -/

/-- `TRIG` (R283): it reaches dependents at the superstep's end (R324). -/
def execTrig (h : Hd) (s : State) : Out := s.issue64 h fun s => done (s.exch.upd fun c => { c with trig := true })

/-- What `WAITDEP` finds of a producer (R391): it goes on, waits, or the producer has failed. -/
def State.producer (s : State) (seq : Word) : Option Bool :=
  match s.launch seq with
  | none => some true
  | some l => match l.status with
    | .ended st _ => if st = 0 then some true else none
    | _ => some l.triggered

/-- `WAITDEP` (R284, R391). -/
def execWaitdep (h : Hd) (s : State) : Out :=
  s.issue64 h fun s => do
    let s ← s.drained
    let s := s.exch
    let ps := ((s.launchOf s.cur).map (·.producers)).getD []
    match ps.find? fun p => (s.producer p).isNone with
    | some p => .error (.gone (s.endLaunch (s.seqOf s.cur) 8 p))
    | none =>
      waitFor (ps.all fun p => s.producer p == some true) .dep s
      done (ps.foldl (fun s p => s.updLaunch p fun l => { l with exposed := true }) s)

/-! ## Copies and counters (R243, R246, R287 to R289) -/

/-- `xd` of a channel (R287): one below the oldest identifier in flight, or the newest taken. -/
def Core.xd (c : Core) (ch : BitVec 3) : Word :=
  let ids := (c.copies.filter fun x => x.ch == ch).map (·.id.toNat)
  BitVec.ofNat 64 (ids.foldl min (c.nextOn ch).toNat - 1)

/-- `XWAIT` (R289). -/
def execXwait (h : Hd) (b : SReg) (ch : BitVec 3) (s : State) : Out :=
  s.issue64 h fun s => do
    let s ← s.drained
    let v := s.core.getS b
    need (v.toNat < (s.core.nextOn ch).toNat) (accessTrap 10 0) s
    waitFor (v.toNat ≤ (s.core.xd ch).toNat) .xfer s
    done s

/-- `XSTAT` (R289). -/
def execXstat (h : Hd) (a : SReg) (ch : BitVec 3) (s : State) : Out :=
  s.issue96 h fun s => done (s.upd fun c => c.setS a (c.xd ch))

/-- A completion counter. -/
def Core.counter (c : Core) (cc : BitVec 4) : Counter := c.ctx.counters.getD cc.toNat {}

/-- Change a completion counter. -/
def Core.onCounter (c : Core) (cc : BitVec 4) (f : Counter → Counter) : Core :=
  c.updCtx fun x => { x with counters := x.counters.setIfInBounds cc.toNat (f (x.counters.getD cc.toNat {})) }

/-- `CCWAIT` (R246). -/
def execCcwait (h : Hd) (b : SReg) (cc : BitVec 4) (s : State) : Out :=
  s.issue64 h fun s => do
    let s ← s.drained
    let s := s.exch
    waitFor ((s.core.getS b).toNat ≤ (s.core.counter cc).done.toNat) (.counter cc (s.core.getS b).toNat) s
    done s

/-- `CCRD` (R246) in the layout of R243. -/
def execCcrd (h : Hd) (a : SReg) (cc : BitVec 4) (s : State) : Out :=
  s.issue96 h fun s =>
    let k := s.core.counter cc
    done (s.upd fun c => c.setS a (BitVec.ofNat 64 (packFields
      [(32, k.done.toNat), (16, k.cmds.toNat), (1, b1 k.stale), (1, b1 k.flt)])))

/-! ## `SEND` at issue (R237, R288) -/

/-- The window slot in which a timed `SEND` of `f` bytes to core `t` of the pod lands (R237); none when it is not timed. -/
def State.landing (s : State) (t f : Nat) : Landing :=
  let c := s.core
  match c.window, s.launchOf s.cur with
  | some w, some l => match l.group w.group with
    | some g =>
      if g.members.contains (8 * podOf s.cur + t) then
        some (w.group, w.phase, (c.sys.slots - w.base).toNat + 2 * ((t + 8 - s.cur.val % 8) % 8) + ceilDiv f 64 + 3)
      else none
    | none => none
  | _, _ => none

/-- `SEND` (R288). -/
def execSend (h : Hd) (a b : SReg) (c : HReg) (ch : BitVec 3) (fl : EFlags) (dst : BitVec 19) (s : State) : Out :=
  s.issue96 h fun s => do
    let s := s.exch
    let k := s.core
    let ha := k.getH c
    let t := (k.getS b).toNat
    orTrap (judge [(3, ha, { tags := none, layouts := none })]) s
    need (t < 8 && k.launch.isSome && (s.at (8 * podOf s.cur + t)).launch == k.launch) (accessTrap 6 0) s
    need (k.inPad ha.start ha.bytes) (k.padTrap ha.start) s
    need (k.inPad dst.toNat ha.bytes) (k.padTrap dst.toNat) s
    let land := s.landing t ha.bytes
    need (land.isNone || ha.bytes ≤ 2048) (fmtTrap 3 ha 4) s
    s.hold [ha]
    let id := k.nextOn ch
    if ha.bytes = 0 then
      done (s.upd fun k => (k.updCtx fun x => { x with nextId := x.nextId.setIfInBounds ch.toNat (id + 1) }).setS a id)
    else
      done (s.upd fun k => (k.queueCopy { k.copyCmd .send ch ha {} 0xFF fl 0 with
        tgt := t, dst := dst.toNat, timed := land }).setS a id)

end Sys2Proof.Machine
end

