-- ==== Sys2Proof/Machine/Objects.lean ====
section
/-! DEFINITION. Sync objects (R280 to R282, R258, R324) and circular buffers (R290 to R294, R375). -/

namespace Sys2Proof.Machine

/-! ## What both share -/

/-- The physical place of an object that the running core may read and write, or a trap (R281, R291). -/
def State.objectAt (s : State) (va align n : Nat) : Run (State × Nat) := do
  need (va < 2 ^ 53) (accessTrap 2 va) s
  need (va % align == 0) (accessTrap 5 va) s
  let (s, ps) ← s.pieces s.cur { rd := true, wr := true, user := !s.core.sys.sup } va n
  return (s, (ps.headD (0, 0, 0)).2.1)

/-- The object's bytes as the running core's squad sees them at the point of coherence (R113, R291, R324): every L1 copy is
withdrawn; at its home the instruction waits until no other device holds a copy, as at `.sys` (R368). -/
def State.objectRead (s : State) (pa n : Nat) : Run (State × Nat) := do
  if !s.isRemote pa then s.sysWaits [(0, pa, n)]
  let s ← s.enters s.cur pa n
  let s := s.withdraw none pa n
  return (s, ofBytesLE ((s.memFor s.cur).read pa n))

/-- An agent of a launch acts on an object: launches that have handed it on before are exposed (R328). -/
def State.expose (s : State) (seq : Word) (pa : Nat) : State :=
  { s with launches := s.launches.map fun l =>
      if l.record.seq != seq && l.shown.contains pa then { l with exposed := true } else l }

/-- An agent on another device acts on an object. -/
def State.exposeAll (s : State) (pa : Nat) : State :=
  { s with launches := s.launches.map fun l => if l.shown.contains pa then { l with exposed := true } else l }

/-- Hold an effect aside until the superstep of core `i` completes (R324); copies of the object that its squad holds are stale. -/
def State.holdAside (s : State) (i : Nat) (a : Aside) : State :=
  (s.withdraw none a.pa (if a.sync then 8 else 128)).updSquad i fun q => { q with aside := q.aside ++ [a] }

/-! ## Sync objects -/

/-- The member of a launch of this device that made a request; none for another device's. -/
def State.asker (s : State) (r : SyncReq) : Option (Word × Nat) := if r.dev == s.devidx.toNat then some (r.seq, r.core) else none

/-- Whether another squad holds a handover of the object aside: a request must wait for that superstep's end (R324). -/
def State.handedAside (s : State) (r : SyncReq) : Bool :=
  s.launches.any fun l => l.squads.any fun q =>
    q.aside.any (fun a => a.sync && a.pa == r.pa) && !(s.asker r).any fun m => l.record.seq == m.1 && q.cores.contains m.2

/-- A grant (R281): the hold is written at the home, or held aside with what the squad holds aside of the object already (R324); another
device is told. -/
def State.granting (s : State) (r : SyncReq) : State :=
  let s1 : State := { s with syncs := s.syncs.map fun x => if x == r then { x with granted := true } else x }
  let s2 := match s.asker r with
    | none => { s1.syncStep none false r.pa (syncHeld · r.excl r.team) with syncs := s1.syncs.erase { r with granted := true } }.sendTo r.dev 1 none
        (.granted r.pa r.team r.seq r.excl)
    | some m =>
      if (s1.asidesOf m.1 m.2).any fun a => a.sync && a.pa == r.pa then
        s1.updSquadOf m.1 m.2 fun q => { q with aside := q.aside ++ [Aside.hold r.pa r.excl r.team] }
      else s1.syncStep (some m) true r.pa (syncHeld · r.excl r.team)
  ((match s.asker r with
    | some m => s2.expose m.1 r.pa
    | none => s2.exposeAll r.pa)).requeue r.pa

/-- The home grants the head of an object's queue while it can be granted (R281, R324), once no other device holds a copy of the word (R368);
`fuel` requests at most. -/
def State.grant (pa : Nat) : Nat → State → State
  | 0, s => s
  | fuel + 1, s =>
    match s.syncs.find? fun r => r.pa == pa && !r.granted && !s.isRemote pa with
    | none => s
    | some r =>
      let s1 := s.withdraw none pa 8
      let w := ofBytesLE ((s1.view (s.asker r)).read pa 8)
      if s.knownElsewhere pa 8 || s.handedAside r || !syncFree w r.excl then s1 else State.grant pa fuel (s1.granting r)

/-- Whether a request is the one of a core of this device on an object. -/
def State.ownReq (s : State) (i pa : Nat) (r : SyncReq) : Bool :=
  r.pa == pa && r.core == i && r.seq == s.seqOf i && r.dev == s.devidx.toNat

/-- Queue a request at the object's home, which grants what it can (R281). A home on another device is asked, unless a request of an
abandoned try stands there (R325). -/
def State.enqueue (s : State) (r : SyncReq) : State :=
  let q : State := { s with syncs := s.syncs ++ [r] }
  if s.isRemote r.pa then
    if s.syncs.any fun y => y.pa == r.pa && y.core == r.core && y.seq == r.seq && y.dev == r.dev then s
    else q.tellAs (some r.seq) r.pa (.acquire r.pa r.core r.team r.seq r.excl)
  else
    let s1 := State.grant r.pa (s.syncs.length + 1) q
    if s1.syncs.contains r then s1.syncStep (s.asker r) true r.pa (syncQueued · true) else s1

/-- `ACQ` (R281). -/
def execAcq (h : Hd) (b : SReg) (x : Bool) (_scope : Scope) (s : State) : Out :=
  s.issue64 h fun s => do
    let s ← s.drained
    let s := s.exch
    let i := s.cur.val
    let va := (s.core.getS b).toNat
    let (s, pa) ← s.objectAt va 8 8
    need (!s.core.ctx.holds.any fun k => k.pa == pa) (accessTrap 7 va) s
    let s ← if s.core.wait == some (.acq pa) then pure s else do
      let (s, w) ← s.objectRead pa 8
      need (syncValid w) (accessTrap 7 va) s
      let r : SyncReq := { pa := pa, dev := s.devidx.toNat, core := i, team := s.core.team, seq := s.seqOf i, excl := x,
                           granted := false }
      pure (s.enqueue r)
    match s.syncs.find? fun y => s.ownReq i pa y && y.granted with
    | none => .error (.wait (.acq pa) s)
    | some r =>
      done (({ s with syncs := s.syncs.erase r } : State).upd fun c =>
        c.updCtx fun k => { k with holds := k.holds ++ [{ va := va, pa := pa, excl := x }] })

/-- The physical pieces of the regions bound to an object (R257, R258). -/
def State.regionKeys (s : State) (i obj : Nat) : List (Nat × Nat) :=
  match s.launchOf i with
  | none => []
  | some l => (l.regions.filter fun r => r.obj == obj).flatMap fun r => s.partKeys l.record.root r.base r.len

/-- Write back the dirty bytes that core `i` holds of some extents (R258, R293, R336). -/
def State.writeBack (s : State) (i : Nat) (ks : List (Nat × Nat)) : State :=
  (ks.flatMap fun k => Machine.pieces 4096 k.1 k.2).foldl
    (fun s z => if (s.at i).l1.any fun e => e.dlen != 0 && e.meets z.1 z.2 then s.onL1 i fun _ es => flushL1 .keep z.1 z.2 es
      else s) s

/-- Give up a hold (R282): inside the launch at once, for others when the superstep completes (R324). -/
def State.giveUp (s : State) (i : Nat) (k : Hold) : State :=
  (s.holdAside i (.rel k.pa k.excl)).on i fun c => c.updCtx fun x => { x with holds := x.holds.erase k }

/-- `REL` (R258, R282). -/
def execRel (h : Hd) (b : SReg) (scope : Scope) (s : State) : Out :=
  s.issue64 h fun s => do
    let s := s.exch
    let i := s.cur.val
    let va := (s.core.getS b).toNat
    let (s, pa) ← s.objectAt va 8 8
    match s.core.ctx.holds.find? fun k => k.pa == pa with
    | none => raise (accessTrap 7 va) s
    | some k =>
      let (s, w) ← s.objectRead pa 8
      need (syncValid w) (accessTrap 7 va) s
      let keys := s.regionKeys i k.va
      if scope == .sys then s.sysWaits (((pa, 8) :: keys).map fun z => (0, z))
      let s := s.writeBack i keys
      if !s.performedAt i scope then .error (.stall s)
      else done (State.grant pa (s.syncs.length + 1) (s.giveUp i k))

/-! ## Circular buffers -/

/-- The object at `va` for the running core, valid, with its place and what the core's squad sees of it (R290, R291). -/
def State.ringAt (s : State) (b : SReg) : Run (State × Nat × Nat × Ring) := do
  let va := (s.core.getS b).toNat
  let (s, pa) ← s.objectAt va 128 128
  let (s, w) ← s.objectRead pa 128
  let r := Ring.of w
  need r.valid (accessTrap 7 va) s
  return (s.expose (s.seqOf s.cur) pa, va, pa, r)

/-- Reserve the next index for a member (R293, R375): RESV stands whatever is rolled back, and the index is recorded. -/
def State.reserve (s : State) (seq : Word) (i pa : Nat) (r : Ring) : State :=
  let bs := bytesLE 8 (r.resv + 1)
  let s := s.memberWrite seq i false (pa + 8) bs
  (s.kept (some (seq, i)) (pa + 8) bs).onMember seq i fun c => { c with cbIdx := c.cbIdx ++ [(pa, r.resv)] }

/-- Send the indices reserved for other devices' requests, one message to each device (R294, R375). -/
def State.returnSlots (s : State) (pa : Nat) (back : List (Nat × Nat)) : State :=
  ((back.map (·.1)).dedup).foldl (fun s d => s.sendTo d 0 none (.slots pa ((back.filter (·.1 == d)).map (·.2)))) s

/-- Reserve one index for each queued request in turn while the buffer has room for it (R293, R375), once no other device holds a copy of the
object (R291, R368); `fuel` requests at most. What other devices' requests received is sent to them at the end. -/
def State.serveCb (pa : Nat) : Nat → State → List (Nat × Nat) → State
  | 0, s, back => s.returnSlots pa back
  | fuel + 1, s, back =>
    match s.cbs.find? (·.pa == pa) with
    | none => s.returnSlots pa back
    | some q =>
      let s := if s.isRemote pa then s else s.withdraw none pa 128
      let own := q.dev == s.devidx.toNat
      let r := Ring.of (ofBytesLE ((s.view (if own then some (q.seq, q.core) else none)).read pa 128))
      if s.isRemote pa || s.knownElsewhere pa 128 || !r.valid || r.count ≤ r.resv - r.tail then s.returnSlots pa back
      else
        let s1 : State := { s with cbs := s.cbs.erase q }
        if own then State.serveCb pa fuel ((s1.reserve q.seq q.core pa r).cbChanged pa) back
        else State.serveCb pa fuel ((s1.setBytes none false (pa + 8) (bytesLE 8 (r.resv + 1))).cbChanged pa)
          (back ++ [(q.dev, r.resv)])

/-- One index that a home on another device reserved goes to the first waiting `CBACQ` on the object, or is kept as a credit (R294,
R375). -/
def State.slotGiven (cb : Nat) (s : State) (idx : Nat) : State :=
  match s.cbs.find? (·.pa == cb) with
  | none => { s with credits := s.credits ++ [(cb, idx)] }
  | some q => ({ s with cbs := s.cbs.erase q } : State).onMember q.seq q.core fun c => { c with cbIdx := c.cbIdx ++ [(cb, idx)] }

/-- A `CBACQ` of core `i` asks for a slot (R293, R375): at its home, from the credits of the device, or of a home on another device, unless a
request of an abandoned try stands there (R325). -/
def State.askSlot (s : State) (i pa : Nat) : State :=
  let q : CbReq := { pa := pa, dev := s.devidx.toNat, core := i, team := (s.at i).team, seq := s.seqOf i }
  let s1 : State := { s with cbs := s.cbs ++ [q] }
  if !s.isRemote pa then State.serveCb pa (s1.cbs.length + 1) s1 []
  else if s.cbs.any fun r => r.pa == pa && r.core == i && r.seq == q.seq && r.dev == q.dev then s
  else match s.credits.find? (·.1 == pa) with
    | some c => State.slotGiven pa { s1 with credits := s1.credits.erase c } c.2
    | none => s1.tellHome (some i) pa (.cbAcquire pa i q.team q.seq)

/-- Effects held aside on the old fields of a circular buffer are void after its `CBINIT` (R293). -/
def State.voidAsides (s : State) (pa : Nat) : State :=
  let keep (a : Aside) : Bool := match a with
    | .commit p _ => p != pa
    | .tail p _ => p != pa
    | _ => true
  { s with launches := s.launches.map fun (l : Launch) => { l with squads := l.squads.map fun (q : Squad) =>
      { q with aside := q.aside.filter keep } } }

/-- An object as `CBINIT` leaves it (R293). -/
def Ring.fresh (size count : Nat) (old : Ring) : Ring :=
  { size := size, count := count, epoch := old.epoch + 1, resv := 0, head := 0, tail := 0, cmt := 0, zeros := true }

/-- `CBINIT` at another device's home (R291, R293): it is sent once, the bytes are recorded as they were (R323), and the core waits for the
answer. -/
def State.farInit (s : State) (pa : Nat) (msg : Payload) : Run (State × Option Word) :=
  let i := s.cur.val
  match s.core.farAtom with
  | none => .error (.stall ((s.noted (s.seqOf i) i true pa 64).sendStep pa 64 msg))
  | some none => .error (.stall s)
  | some (some _) => done ((s.voidAsides pa).upd fun c => { c with farAtom := none })

/-- `CBINIT` (R293): performed as one step at the home at `.sys`; it makes waiting instructions test the new fields. -/
def execCbinit (h : Hd) (b c : SReg) (count : BitVec 8) (s : State) : Out :=
  s.issue96 h fun s => do
    let s := s.exch
    let va := (s.core.getS b).toNat
    let size := (s.core.getS c).toNat
    let (s, pa) ← s.objectAt va 128 128
    need (ringSizes size count.toNat) (accessTrap 10 va) s
    let msg : Payload := .cbInit pa size count.toNat s.core.team (s.seqOf s.cur)
    if s.isRemote pa && s.core.farAtom.isSome then s.farInit pa msg
    else
      let (s, w) ← s.objectRead pa 128
      if s.isRemote pa then s.farInit pa msg
      else
        let s := ((s.voidAsides pa).expose (s.seqOf s.cur) pa).homeWrite (some s.cur) true pa
          (bytesLE 64 ((Ring.of w).fresh size count.toNat).bits)
        done (State.serveCb pa (s.cbs.length + 1) (s.cbChanged pa) [])

/-- `CBACQ` (R291, R293, R375). -/
def execCbacq (h : Hd) (a b : SReg) (s : State) : Out :=
  s.issue96 h fun s => do
    let s ← s.drained
    let s := s.exch
    let i := s.cur.val
    let (s, va, pa, r) ← s.ringAt b
    need (s.core.ctx.resv.length < 8) (accessTrap 7 va) s
    let s := if (s.core.cbIdx[s.core.cbPos]?).isSome then s
      else if s.core.wait == some (.cbacq pa) then State.serveCb pa (s.cbs.length + 1) s []
      else s.askSlot i pa
    match s.core.cbIdx[s.core.cbPos]? with
    | none => .error (.wait (.cbacq pa) s)
    | some x =>
      if x.1 != pa then .error (.gone (s.endLaunch (s.seqOf i) 16 (BitVec.ofNat 64 s.core.team)))
      else
        let e : Resv := { va := va, pa := pa, idx := x.2, epoch := BitVec.ofNat 16 r.epoch, size := r.size, count := r.count }
        done (s.upd fun c => { (c.updCtx fun k => { k with resv := k.resv ++ [e] }).setS a (BitVec.ofNat 64 x.2) with
          cbPos := c.cbPos + 1 })

/-- `CBCOMMIT` (R293). -/
def execCbcommit (h : Hd) (b : SReg) (s : State) : Out :=
  s.issue96 h fun s => do
    let s ← s.drained
    let s := s.exch
    let i := s.cur.val
    let (s, va, pa, r) ← s.ringAt b
    match s.core.ctx.resv.find? fun e => e.pa == pa with
    | none => raise (accessTrap 7 va) s
    | some e =>
      need (e.epoch.toNat == r.epoch) (accessTrap 7 va) s
      waitFor s.core.enginesIdle .commands s
      let keys := s.partKeys (s.space i).2 (va + 128 + e.idx % max 1 r.count * r.size) r.size
      s.sysWaits (keys.map fun z => (0, z))
      let s := s.writeBack i keys
      if !s.performedAt i .sys then .error (.stall s)
      else done ((s.holdAside i (.commit pa e.idx)).upd fun c => c.updCtx fun k => { k with resv := k.resv.erase e })

/-- `CBWAIT` (R293). -/
def execCbwait (h : Hd) (b c : SReg) (s : State) : Out :=
  s.issue64 h fun s => do
    let s ← s.drained
    let s := s.exch
    let n := (s.core.getS c).toNat
    let (s, va, pa, r) ← s.ringAt b
    need (n ≤ r.count) (accessTrap 10 va) s
    waitFor (n ≤ r.head - r.tail) (.cbwait pa n) s
    done s

/-- Whether an engine command of a core still reads global memory. -/
def Core.enginesRead (c : Core) : Bool := c.copies.any (fun x => x.kind == .fill) || c.port.any fun x => x.kind == .get

/-- `CBREL` (R293): after the core's earlier loads and engine reads. -/
def execCbrel (h : Hd) (b c : SReg) (s : State) : Out :=
  s.issue64 h fun s => do
    let s := s.exch
    let n := (s.core.getS c).toNat
    let (s, va, pa, r) ← s.ringAt b
    need (n ≤ r.head - r.tail) (accessTrap 10 va) s
    if n = 0 then done s
    else
      waitFor (!s.core.enginesRead) .commands s
      done (State.serveCb pa (s.cbs.length + 1) (s.holdAside s.cur (.tail pa n)) [])

end Sys2Proof.Machine
end

