-- ==== Sys2Proof/Machine/Context.lean ====
section
/-! DEFINITION. Saving a team's context and bringing it back (R96, R158, R208, R286, R373, R386 to R388). -/

namespace Sys2Proof.Machine

/-- What a core's image keeps (R387): not its L1, TLB, plate cache or metadata cache, which are empty on return; its
lanes are returned (R208). -/
def Core.imaged (c : Core) : Core :=
  { c with phase := if c.phase == .exited then .exited else .swapped, l1 := [], tlb := [], plates := [], metas := [], icache := [], memq := [], reserve := false,
           shared := [], stopReq := none, stopped := false, waited := 0 }

/-- A core whose team has been saved: free for other work. -/
def Core.vacated (c : Core) : Core := { c.freed with l1 := [], tlb := [], plates := [], metas := [] }

/-- The extents and classes of pinned entries (R96), those on their way back among them (R90). -/
def Core.pinned (c : Core) : List (Nat × Nat × RClass) :=
  (c.l1.filter (·.pin)).map (fun e => (e.start, e.len, e.cls))
    ++ c.memq.filterMap fun q => match q with | .repin a n k => some (a, n, k) | _ => none

/-- The place of a core's squad in its launch. -/
def Launch.squadIdx (l : Launch) (i : Nat) : Nat := (l.squads.findIdx? fun q => q.cores.contains i).getD 0

/-- The length of a section of a context image, in the order of R387's table; number 8 is the scratchpad. -/
def sectionLen (padKiB k : Nat) : Nat := if k = 8 then padKiB * 1024 else Config.sectionSize k

/-- Where a section begins in its image: the sections follow the directory one after another (log entry 116). -/
def sectionOff (padKiB k : Nat) : Nat := 256 + ((List.range k).map (sectionLen padKiB)).foldl (· + ·) 0

/-- The directory of a context image (R387): offset and length of each section, 8 bytes each; what is left of its 256 bytes is free. -/
def imageDir (t padKiB : Nat) : List Byte :=
  ((List.range 10).flatMap fun k => bytesLE 8 (sectionOff padKiB k) ++ bytesLE 8 (sectionLen padKiB k))
    ++ (List.range 96).map (Config.sectionByte t 10)

/-- The bytes of a context image (R387). -/
def Core.imageBytes (t : Nat) (c : Core) : List Byte :=
  imageDir t c.padKiB ++ (List.range 10).flatMap fun k =>
    if k = 8 then c.pad.read 0 (c.padKiB * 1024) else (List.range (Config.sectionSize k)).map (Config.sectionByte t k)

/-- Where the image of a team index begins (R387). -/
def Launch.imageAt (l : Launch) (team : Nat) : Nat := l.record.save + team * l.record.stride

/-- The context image of a member stands in the save area, at its team index times the image stride, as far as its pages are mapped (R387,
R388). -/
def State.layImage (s : State) (l : Launch) (c : Core) : State :=
  let bs := (c.imageBytes s.tick).take l.record.stride
  let a := l.imageAt c.team
  (Machine.pieces 8192 a bs.length).foldl (fun s p => match s.peek l.record.root p.1 with
    | some k => s.coherentWrite none false k ((bs.drop (p.1 - a)).take p.2)
    | none => s) s

/-- The images in memory of the members that a move has changed while they are away (R388). -/
def State.relayImages (before s : State) : State :=
  s.images.foldl (fun s m =>
    match before.images.find? fun x => x.seq == m.seq && x.team == m.team, s.launch m.seq with
    | some x, some l => if x.core == m.core then s else s.layImage l m.core
    | _, _ => s) s

/-- Where a member's image in memory holds its scratchpad, if it lies there whole: keys and lengths. -/
def State.padKeys (s : State) (l : Launch) (c : Core) : Option (List (Nat × Nat)) :=
  let n := c.padKiB * 1024
  let off := sectionOff c.padKiB 8
  let ks := s.partKeys l.record.root (l.imageAt c.team + off) n
  if off + n ≤ l.record.stride && (ks.map (·.2)).foldl (· + ·) 0 == n then some ks else none

/-- The scratchpad of a member that returns is read from its image in memory (R387, R388). -/
def State.readPad (s : State) (seq : Word) (i : Nat) : State :=
  match (s.launch seq).bind fun l => s.padKeys l (s.at i) with
  | none => s
  | some ks =>
    let r := ks.foldl (fun (r : State × List Byte) k => let x := r.1.coherentRead k.1 k.2; (x.1, r.2 ++ x.2)) (s, [])
    r.1.on i fun c => { c with pad := Mem.ofBytes 0 r.2 }

/-- A poisoned granule of a member's image in memory (R319). -/
def State.imagePoison (s : State) (m : Image) : Option Nat :=
  ((s.launch m.seq).bind fun l => s.padKeys l m.core).bind fun ks => ks.findSome? fun k => s.poisoned k.1 k.2

/-- Save core `i` (R387): the L1 is written back and emptied (R96), the image is laid down, the core is free. -/
def State.saveCore (why : Away) (s : State) (i : Nat) : State :=
  let c := s.at i
  match c.launch with
  | none => s
  | some seq =>
    let k := ((s.launch seq).map fun l => l.squadIdx i).getD 0
    let m : Image := { seq := seq, squad := k, team := c.team, home := i, place := i, why := why, core := c.imaged, pins := c.pinned }
    let s := s.onL1 i fun _ es => emptyL1 es
    let s := ((s.launch seq).map fun l => s.layImage l c).getD s
    { s.on i Core.vacated with images := s.images ++ [m] }

/-- The number of a member after its instance has moved to a pod. -/
def movedTo (cores : List Nat) (pod i : Nat) : Nat := if cores.contains i then 8 * pod + i % 8 else i

/-- Whose event a team waits for, under its new number. -/
def Away.moved (mv : Nat → Nat) : Away → Away
  | .swap e => .swap (mv e)
  | w => w

/-- The chains of a pod's cores move with them (R153, R158). -/
def movedChain (old new : Nat) (ch : List (Nat × Nat)) : List (Nat × Nat) :=
  if old = new then ch else (ch.filter fun x => x.1 != new).map fun x => if x.1 = old then (new, x.2) else x

/-- The members of a pipeline instance move to a pod, or, as the pods from 97 on, get numbers of their own while they are away (R373, R374,
R389): every place that names them follows. -/
def State.moveInstance (s : State) (seq : Word) (cores : List Nat) (pod : Nat) : State :=
  let mv := movedTo cores pod
  let mvs (l : List Nat) := l.map mv
  let gen := ((s.launch seq).map (·.gen)).getD 0
  let bars (bs : List BarSet) : List BarSet := bs.map fun b => { b with cur := mvs b.cur, next := mvs b.next }
  let s1 := s.updLaunch seq fun l =>
    { l with team := mvs l.team, finished := l.finished.filter fun i => !(mvs cores).contains i, groups := l.groups.map fun x => (x.1, { x.2 with members := mvs x.2.members }),
             chain := movedChain (podOf (cores.headD 0)) pod l.chain,
             squads := l.squads.map fun q => { q with cores := mvs q.cores, bars := bars q.bars, barsProof := bars q.barsProof } }
  let own (dev : Nat) (sq : Word) : Bool := dev == s.devidx.toNat && sq == seq
  { s1 with
    images := s1.images.map fun m => if m.seq == seq then { m with home := mv m.home, why := m.why.moved mv } else m,
    syncs := s1.syncs.map fun r => if own r.dev r.seq then { r with core := mv r.core } else r,
    cbs := s1.cbs.map fun r => if own r.dev r.seq then { r with core := mv r.core } else r,
    places := s1.places.map fun (e : Place) => if e.gen == gen then
      { e with declared := mvs e.declared, arrived := mvs e.arrived, proofDeclared := mvs e.proofDeclared, changed := mvs e.changed } else e }

/-- Save a team. An instance of a pipeline leaves its numbers to the instance that gets its pod (R373). -/
def State.saveTeam (s : State) (cs : List Nat) (why : Away) : State :=
  let c := cs.headD 0
  match s.launchOf c with
  | none => s
  | some l =>
    let s1 := cs.foldl (State.saveCore why) s
    if l.stages.isEmpty then s1 else s1.moveInstance l.record.seq cs (97 + l.squadIdx c)

/-- The core that runs an image again: exited cores stay exited, the others run and test their waits again (R286). -/
def Core.awake (m : Image) (c : Core) : Core :=
  { m.core with phase := if m.core.phase == .exited then .exited else .running,
                retired := c.retired, gen := m.core.gen, tlb := [], waited := 0 }

/-- Pin an extent again in S with its class (R90, R96). Bytes that another device holds come once they have been withdrawn from it. -/
def State.repin (i : Nat) (s : State) (p : Nat × Nat × RClass) : State :=
  (Machine.pieces 4096 p.1 p.2.1).foldl (fun s z =>
    match State.pinPiece i false p.2.2 s z with
    | .ok s1 => s1
    | .error (.gone s1) => s1
    | .error (.stall s1) => s1.on i fun c => { c with memq := c.memq ++ [.repin z.1 z.2 p.2.2] }
    | .error _ => s) s

/-- Bring an image back on core `i` (R286, R387, R390). -/
def State.restoreCore (s : State) (m : Image) (i : Nat) : State :=
  let s := (s.drainWb (fun _ => true) i).onL1 i fun _ es => emptyL1 es
  let s := { s.on i (Core.awake m) with images := s.images.filter fun x => !(x.seq == m.seq && x.home == m.home) }
  let s := s.readPad m.seq i
  m.pins.foldl (State.repin i) s

/-- Whether pinned extents of a core are still on their way. -/
def Core.repinning (c : Core) : Bool := c.memq.any fun q => match q with | .repin _ _ _ => true | _ => false

/-- The cores of a team that has come back stand still until the pins of all of them are there again (R96); `stopped` without a request
to stop says so. -/
def State.holdTeam (s : State) (team : List Nat) : State :=
  if team.any fun i => (s.at i).repinning then
    team.foldl (fun s i => s.on i fun c => if c.phase == .exited then c else { c with stopped := true }) s
  else s

/-- Once the pins of a team that has come back are there its cores go on (R96). -/
def State.wakeTeam (s : State) (team : List Nat) : State :=
  if team.any fun i => (s.at i).repinning then s
  else team.foldl (fun s i => s.on i fun c => if c.stopReq.isNone then { c with stopped := false } else c) s

/-- Bring images back, each on its own core, and grant lanes (R208); one that can no longer be read ends its launch (R319). -/
def State.restoreTeam (s : State) (ms : List Image) : State :=
  let team := ms.map (·.home)
  match ms.findSome? fun m => (s.imagePoison m).map fun g => (m.seq, g) with
  | some (seq, g) => s.poisonLaunch (some seq) g
  | none => ((ms.foldl (fun s m => s.restoreCore m m.home) s).topUpAll team).holdTeam team

/-- The cores of core `c`'s team, resident. -/
def State.teamCores (s : State) (c : Nat) : List Nat :=
  match s.squadOf c with
  | none => []
  | some q => q.cores.filter fun i => dieOf i == dieOf c && (s.at i).launch == (s.at c).launch

end Sys2Proof.Machine
end

