-- ==== Sys2Proof/Machine/Superstep.lean ====
section
/-! DEFINITION. The end of a superstep and of a core's part of a launch: the application of the logs (R231, R259), the
sub-rounds of counted exchange (R241, R242), the proof (R249, R322), the effects held aside (R324), `SSTEP` (R247) and
`EXIT` (R78). -/

namespace Sys2Proof.Machine

/-! ## Logs -/

/-- Insert by place in program order, after equal places. -/
def insertLog (e : LogEntry) : List LogEntry → List LogEntry
  | [] => [e]
  | x :: rest => if e.pos < x.pos then e :: x :: rest else x :: insertLog e rest

/-- A log in program order: an engine's writes stand at their command's place (R231). -/
def sortLog (l : List LogEntry) : List LogEntry := l.foldl (fun r e => insertLog e r) []

/-- Insert a core by its team index. -/
def insertTeam (t : Nat × Nat) : List (Nat × Nat) → List (Nat × Nat)
  | [] => [t]
  | x :: rest => if t.2 < x.2 then t :: x :: rest else x :: insertTeam t rest

/-- The members of a squad in ascending team index. -/
def State.byTeam (s : State) (seq : Word) (q : Squad) : List Nat :=
  ((q.cores.map fun i => (i, (s.member seq i).team)).foldl (fun r t => insertTeam t r) []).map (·.1)

/-- Perform a logged write (R259): the home withdraws every copy, then writes; what stood there is recorded until the superstep completes,
for a launch that ends before (R404). -/
def State.commitWrite (seq : Word) (i : Nat) (s : State) (e : LogEntry) : State :=
  (s.noted seq i true e.pa e.bytes.length).memberWrite seq i false e.pa e.bytes e.hint

/-- Apply one member's log (R259). -/
def State.applyLog (seq : Word) (s : State) (i : Nat) : State :=
  ((sortLog (s.member seq i).log).foldl (State.commitWrite seq i) s).onMember seq i fun c => { c with log := [] }

/-- The bytes that the logs of a squad hold. -/
def State.loggedBytes (s : State) (seq : Word) (q : Squad) : List (Nat × Nat) :=
  q.cores.flatMap fun i => (s.member seq i).log.map fun e => (e.pa, e.bytes.length)

/-- The extents of the device's own memory that a squad's superstep changes at its end: logged bytes and the objects of effects held aside. -/
def State.closingBytes (s : State) (seq : Word) (q : Squad) : List (Nat × Nat) :=
  (s.loggedBytes seq q ++ q.aside.map fun a => (a.pa, a.size)).filter fun z => !s.isRemote z.1

/-- The granules of other devices that a squad's logs write and whose bytes have still to come, to be recorded (R328, R404). -/
def State.unread (s : State) (seq : Word) (q : Squad) : List Nat :=
  ((s.loggedBytes seq q).filter fun z => s.isRemote z.1).flatMap fun z =>
    (granulesOf z.1 z.2).filter fun g => !s.holds false g 16 && !s.poison.contains g

/-- Whether the end of a squad's superstep has to wait: until other devices' copies of what it changes have been withdrawn (R368), and what
it changes on other devices is known. -/
def State.commitWaits (s : State) (seq : Word) (q : Squad) : Bool :=
  (s.closingBytes seq q).any (fun z => s.knownElsewhere z.1 z.2) || !(s.unread seq q).isEmpty

/-- Ask for what the end of a squad's superstep waits for. -/
def State.askCommit (s : State) (seq : Word) (q : Squad) : State :=
  (s.unread seq q).foldl (fun s g => s.fetchFor (some seq) false g 16) ((s.closingBytes seq q).foldl (fun s z => s.askOthers z.1 z.2) s)

/-- Apply the logs of a squad (R231). -/
def State.applyLogs (s : State) (seq : Word) (q : Squad) : State := (s.byTeam seq q).foldl (State.applyLog seq) s

/-- Apply the logs of a squad once in its superstep. -/
def State.commitLogs (s : State) (seq : Word) (q : Squad) : State :=
  if q.applied then s else (s.applyLogs seq q).onSquad seq q fun x => { x with applied := true }

/-- Whether writes of a squad's members have still to be performed at homes on other devices (R259, R368). -/
def State.squadPending (s : State) (seq : Word) (q : Squad) : Bool :=
  q.cores.any fun i => s.farWrites.any fun w => w.seq == seq && w.team == (s.member seq i).team

/-- A squad as its launch has it now. -/
def State.squadNow (s : State) (seq : Word) (q : Squad) : Squad :=
  ((s.launch seq).bind fun l => l.squads.find? fun x => x.stage == q.stage && x.inst == q.inst).getD q

/-! ## Sub-rounds -/

/-- Insert a packet by sender, then issue order (R242). -/
def insertPacket (p : Packet) : List Packet → List Packet
  | [] => [p]
  | x :: rest => if p.team < x.team || (p.team == x.team && p.ord < x.ord) then p :: x :: rest else x :: insertPacket p rest

/-- Close the open sub-round at a receiver (R242): the bytes that more than one sender wrote are written again, in order. -/
def Core.closeRound (c : Core) : Core :=
  let sorted := c.inbox.foldl (fun r p => insertPacket p r) []
  let shared (p : Packet) (a : Nat) : Bool := sorted.any fun x => x.team != p.team && x.addr ≤ a && a < x.addr + x.bytes.length
  let bs := sorted.flatMap fun p => (cellsAt p.addr p.bytes).filter fun b => shared p b.1
  { c.padWrite bs with inbox := [], closed := c.closed + 1 }

/-- The sub-rounds that a member's declared packets take (R241). -/
def Core.rounds (q : Nat) (c : Core) : Nat := (c.inflow.map fun f => ceilDiv f.declared q).foldl max 1

/-- Whether every packet declared to a core has landed. -/
def Core.landedAll (c : Core) : Bool := c.inflow.all fun f => f.declared ≤ f.landed

/-! ## Completion of a superstep -/

/-- Whether a core has arrived at an open cut of its launch (R336). -/
def State.atCut (s : State) (seq : Word) (i : Nat) : Bool :=
  match s.launch seq with
  | none => false
  | some l => s.places.any fun e => e.gen == l.gen && e.busy && e.arrived.contains i

/-- Whether a core waits at `SSTEP`, or goes on waiting there after a trap (R382). -/
def Core.atStep (c : Core) : Bool :=
  match c.wait, c.resume with
  | some (.sstep _ _), _ => true
  | none, some (.sstep _ _) => true
  | _, _ => false

/-- Whether a member waits at `SSTEP` with everything it issued or was sent complete (R231, R247). -/
def State.readyMember (s : State) (seq : Word) (i : Nat) : Bool :=
  let c := s.member seq i
  c.atStep && c.enginesIdle && c.performed && c.faults.isEmpty && c.landedAll && !s.atCut seq i

/-- Whether a squad's superstep completes (R231). -/
def State.squadReady (s : State) (seq : Word) (q : Squad) : Bool :=
  q.cores.all fun i => (s.member seq i).phase == .exited && (s.member seq i).landedAll || s.readyMember seq i

/-- An effect held aside reaches agents outside (R324), on behalf of the member of a launch at core `i`; a home on another device is
told, and the launch is exposed (R328; log entry 110). -/
def State.release (seq : Word) (i : Nat) (s : State) (a : Aside) : State :=
  let s1 := s.updLaunch seq fun l => { l with shown := if l.shown.contains a.pa then l.shown else a.pa :: l.shown,
                                              exposed := l.exposed || s.isRemote a.pa }
  if a.sync then
    let s2 := s1.syncStep (some (seq, i)) false a.pa fun w => syncApply a.pa w a
    match a with
    | .rel pa x => s2.tellAs (some seq) pa (.release pa x)
    | _ => s2
  else match a with
  | .word pa bs => State.queuesWritten s1 (s1.memberWrite seq i false pa bs)
  | _ =>
    let s2 := s1.withdraw none a.pa 128
    let r := Ring.apply a.pa (Ring.of (ofBytesLE (s2.mem.read a.pa 128))) a
    let s3 := (s2.noted seq i false a.pa 64).setBytes none false a.pa (bytesLE 64 r.bits)
    let s4 := match a with
      | .commit pa k => s3.tellAs (some seq) pa (.cbCommit pa k)
      | .tail pa n => s3.tellAs (some seq) pa (.cbRelease pa n)
      | _ => s3
    State.serveCb a.pa (s4.cbs.length + 1) (s4.cbChanged a.pa) []

/-- The effects held aside by a squad reach other agents, and queues go on (R281, R324, R375). -/
def State.releaseAll (s : State) (seq : Word) (i : Nat) (as : List Aside) : State :=
  let s := as.foldl (State.release seq i) s
  as.foldl (fun s a => if a.sync then State.grant a.pa (s.syncs.length + 1) s else s) s

/-- Whether every member of a launch has executed `TRIG` or `EXIT` in a completed superstep (R283, R324). -/
def State.allTriggered (s : State) (l : Launch) : Bool :=
  l.squads.all fun q => q.cores.all fun i =>
    (s.member l.record.seq i).proofTrig || (s.member l.record.seq i).proofPhase == .exited

/-- Record whether a launch has triggered; one whose dependents stand waiting is exposed (R328, R391). -/
def State.noteTrigger (s : State) (seq : Word) : State :=
  match s.launch seq with
  | none => s
  | some l =>
    if l.triggered || !s.allTriggered l then s
    else
      let seen := s.launches.any fun d => d.producers.contains seq && (match d.status with | .ended _ _ => false | _ => true)
      s.updLaunch seq fun l => { l with triggered := true, exposed := l.exposed || seen }

/-- A `BAR` or an `SSTEP` that went on waiting after a trap is over (R382): its slot has passed, and the core goes on where it stands. -/
def Core.waitEnds (stall : Nat) (c : Core) : Core :=
  { c with resume := none, waited := 0,
           sys := { c.sys with slots := c.sys.slots + 1, cyc := c.sys.cyc + BitVec.ofNat 64 (1 + stall) } }

/-- A member as the completion of `SSTEP` leaves it, before its proof (R247). -/
def Core.stepped (stall : Nat) (c : Core) : Core :=
  let c := c.closeRound
  let c := match c.wait, c.resume with
    | some (.sstep next dly), _ => { c.retire dly next stall with replay := c.replay.drop 1, resume := none }
    | none, some (.sstep _ _) => c.waitEnds stall
    | _, _ => c
  { c with ctx := { c.ctx with counters := Vector.replicate 16 {} }, padUndo := [], atoms := [], atomPos := 0, cbIdx := [],
           cbPos := 0, sent := [], inflow := [], inbox := [], closed := 0, exchanging := false, faultCount := 0, carried := [] }

/-- Take the proof (R249, R322). -/
def Core.prove (c : Core) : Core := { c with proof := c.ctx, proofPhase := if c.phase == .exited then .exited else .running, proofTrig := c.trig }

/-- A gang's counts at the end of a superstep (R297, R312). -/
def GangState.stepped (g : GangState) : GangState := { g with counts := Vector.replicate 8 0, unlocated := 0, retry := false }

/-- Whether a stage's output queue is full by the device's last report (R372). -/
def State.outputFull (s : State) (l : Launch) (stage : Nat) : Bool :=
  match l.stages[stage]? with
  | none => false
  | some st =>
    st.outq != 0 && match (s.peek l.record.root st.outq).bind fun pa => s.reports.find? (·.pa == pa) with
      | none => false
      | some r => r.resv - r.tail == r.count

/-- The squads of a stage that run: resident, with a member that has not exited. -/
def State.runningOf (s : State) (l : Launch) (stage : Nat) : List Squad :=
  l.squads.filter fun q => q.stage == stage && (s.live l.record.seq q).any fun i => (s.at i).launch == some l.record.seq

/-- Park an instance whose output queue is full while others of its stage run (R373). -/
def State.parkIfFull (s : State) (seq : Word) (q : Squad) : State :=
  match s.launch seq with
  | none => s
  | some l =>
    if l.stages.isEmpty || !s.outputFull l q.stage || (s.runningOf l q.stage).length < 2 || !(s.runningOf l q.stage).any (·.inst == q.inst) then s
    else
      let s := s.updLaunch seq fun l => { l with squads := l.squads.map fun x =>
        if x.stage == q.stage && x.inst == q.inst then { x with parked := true } else x }
      { s.saveTeam q.cores (.parked s.accepted) with accepted := s.accepted + 1 }

/-- A placement entry at a squad's proof (R340). -/
def Place.proven (q : Squad) (e : Place) : Place :=
  { e with proofs := { stage := q.stage, inst := q.inst, state := e.state, version := e.version } ::
             e.proofs.filter fun p => !(p.stage == q.stage && p.inst == q.inst),
           proofDeclared := (e.proofDeclared.filter (!q.cores.contains ·)) ++ e.declared.filter q.cores.contains,
           changed := e.changed.filter (!q.cores.contains ·) }

/-- Complete a superstep of a squad whose logs have been applied (R231, R247, R249, R324). -/
def State.completeStep (s : State) (seq : Word) (q : Squad) : State :=
  let i0 := q.cores.headD 0
  let stall := Config.stallCycles s.tick
  let s := q.cores.foldl (fun s i => s.onMember seq i (Core.stepped stall)) s
  let s := s.topUpAll (q.cores.filter fun i => (s.at i).launch == some seq && (s.at i).phase == .running)
  let s := q.cores.foldl (fun s i => s.onMember seq i Core.prove) s
  let s := s.clearCounts (q.cores.map podOf)
  let s := s.onSquad seq q fun x =>
    { x with barsProof := x.bars, gangs := x.gangs.map (·.stepped), aside := [], memUndo := [], atomBytes := [],
             subround := 0, steps := x.steps + 1, told := false, applied := false, committed := false, rolls := 0 }
  let prove (e : Place) : Place := if (s.launch seq).any (·.ownsPlace q e) then e.proven q else e
  let s : State := { s with places := s.places.map prove }
  let s := s.releaseAll seq i0 q.aside
  let s := s.noteTrigger seq
  s.parkIfFull seq q

/-- Tell the linked launches that a squad is ready (R344). -/
def State.tellReady (s : State) (seq : Word) (q : Squad) : State :=
  if q.told then s
  else (s.tellLinked seq q.steps (((s.launch seq).map (·.triesOf q)).getD 0) .ready).onSquad seq q fun x => { x with told := true }

/-- Whether a device has told that it is ready to complete a superstep with the rollbacks that are known here: then none of the linked
launches rolls it back any more (R344). -/
def Linked.readyFor (n tries : Nat) (d : Linked) : Bool := n < d.applied || (d.ready == n + 1 && d.tries == tries)

/-- The logs of a linked launch apply once every other device is ready and those of lower index have applied theirs (R344). -/
def State.applyLinked (s : State) (seq : Word) (q : Squad) (ds : List Linked) : State :=
  let tries := ((s.launch seq).map (·.triesOf q)).getD 0
  if ds.all fun d => d.readyFor q.steps tries && (d.dev > s.devidx.toNat || q.steps < d.applied) then s.commitLogs seq q else s

/-- The linked launches are told once the logs have been applied and every write performed at `.sys` (R259, R344). -/
def State.tellApplied (s : State) (seq : Word) (q : Squad) : State :=
  if !q.applied || q.committed || s.squadPending seq q then s
  else (s.tellLinked seq q.steps 0 .applied).onSquad seq q fun x => { x with committed := true }

/-- A superstep of a linked launch (R344): it completes once every device has applied its logs. -/
def State.linkedStep (s : State) (seq : Word) (q : Squad) (ds : List Linked) : State :=
  let s1 := s.tellReady seq q
  let s2 := s1.applyLinked seq (s1.squadNow seq q) ds
  let s3 := s2.tellApplied seq (s2.squadNow seq q)
  if (s3.squadNow seq q).committed && ds.all fun d => q.steps < d.applied then s3.completeStep seq q else s3

/-- A superstep of a launch that is not linked: it completes once its logs have been applied and every write performed at `.sys` (R259). -/
def State.ownStep (s : State) (seq : Word) (q : Squad) : State :=
  let s1 := s.commitLogs seq q
  if s1.squadPending seq q then s1 else s1.completeStep seq q

/-- Complete the superstep of a squad that is ready, once no other device holds bytes that it changes (R368), together with the linked
launches that have not ended (R344). -/
def State.stepOrAsk (s : State) (seq : Word) (q : Squad) : State :=
  if !q.applied && s.commitWaits seq q then s.askCommit seq q
  else
    let ds := (((s.launch seq).map (·.linked)).getD []).filter (!·.ended)
    if ds.isEmpty then s.ownStep seq q else s.linkedStep seq q ds

/-- Complete the superstep of core `i`'s squad if it is ready. -/
def State.tryStep (s : State) (seq : Word) (i : Nat) : State :=
  match (s.launch seq).bind (·.squadOf i) with
  | none => s
  | some q => if !(s.live seq q).isEmpty && s.squadReady seq q then s.stepOrAsk seq q else s

/-- Arrive at `SSTEP` (R236, R247, R322). -/
def State.arriveStep (s : State) (next : Word) (dly : Nat) : State :=
  (s.onL1 s.cur fun _ es => cleanL1 es).upd fun c => { c with window := none, wait := some (.sstep next dly) }

/-- `SSTEP` (R247): it completes on every core at once, so the completion itself retires it. -/
def execSstep (h : Hd) (s : State) : Out :=
  s.issue64 h fun s => do
    let s ← s.drained
    let s := s.exch
    let s ← match s.core.wait with
      | some (.sstep _ _) => pure s
      | _ => if s.core.performed then pure (s.arriveStep (s.core.ctx.pc + 8) h.dly.toNat) else .error (.stall s)
    let s := s.tryStep (s.seqOf s.cur) s.cur
    match s.core.wait with
    | some w => .error (.wait w s)
    | none => .error (.gone s)

/-! ## The end of a core's part (R78) -/

/-- Whether a request fetches pinned bytes again (R90). -/
def MemReq.repins : MemReq → Bool
  | .repin _ _ _ => true
  | _ => false

/-- A core as `EXIT` leaves it (R78, R165, R208). -/
def Core.left (c : Core) : Core :=
  { c.unlaned with phase := .exited, window := none, wait := none, stopReq := none, stopped := false,
                   l1 := c.l1.map fun e => { e with pin := false }, memq := c.memq.filter (!·.repins),
                   ctx := { c.ctx with handles := Vector.replicate 32 {}, want := 0, resv := [] } }

/-- The squad's part of the launch is over (R78): logs are committed and effects let out; its cores become idle. -/
def State.finishSquad (s : State) (seq : Word) (q : Squad) : State :=
  let s := s.commitLogs seq q
  let s := q.cores.foldl (fun s i => s.onMember seq i Core.prove) s
  let s := s.onSquad seq q fun x => { x with aside := [], memUndo := [], atomBytes := [] }
  (s.releaseAll seq (q.cores.headD 0) q.aside).noteTrigger seq

/-- When every core of a squad has exited its part ends; when every squad's has, the launch ends with success (R78,
R392). The cores of a pipeline instance that is over are free (R374). -/
def State.settleExit (s : State) (seq : Word) (i : Nat) : State :=
  match (s.launch seq).bind (·.squadOf i) with
  | none => s
  | some q =>
    if !(s.live seq q).isEmpty then s.tryStep seq i
    else
      let s := s.finishSquad seq q
      match s.launch seq with
      | none => s
      | some l =>
        if l.squads.all fun x => (s.live seq x).isEmpty then s.endLaunch seq 0 0 false
        else if l.stages.isEmpty then s
        else
          let cyc := (q.cores.map fun i => (s.at i).sys.cyc).foldl (· + ·) 0
          let s := q.cores.foldl (fun s i => s.on i Core.freed) s
          s.updLaunch seq fun l => { l with
            cycles := l.cycles + cyc, finished := l.finished ++ q.cores, team := l.team.map fun c => if q.cores.contains c then goneCore else c,
            squads := l.squads.map fun x => if x.stage == q.stage && x.inst == q.inst then { x with cores := [] } else x }

/-- When core `i` is the last of its squad to exit, its `EXIT` commits the squad's logs (R78), and waits until every copy of what they write
has been withdrawn and every write performed (R353, R368). -/
def State.lastOut (s : State) (seq : Word) (i : Nat) : Run State :=
  match (s.launch seq).bind (·.squadOf i) with
  | none => .ok s
  | some q =>
    if s.live seq q != [i] then .ok s
    else if !q.applied && s.commitWaits seq q then .error (.stall (s.askCommit seq q))
    else
      let s1 := s.commitLogs seq q
      if s1.squadPending seq q then .error (.stall s1) else .ok s1

/-- `EXIT` (R78): it closes the core's timed window (R236); each object still held is released as by `REL.sys`. -/
def execExit (h : Hd) (s : State) : Out :=
  s.issue64 h fun s => do
    let s ← s.drained
    let s := s.upd fun c => { c with window := none }
    let i := s.cur.val
    let seq := s.seqOf i
    waitFor (s.core.enginesIdle && s.core.faults.isEmpty && !s.atCut seq i && !s.inbound i 256 0) .commands s
    let holds := s.core.ctx.holds
    let keys := holds.flatMap fun k => s.regionKeys i k.va
    s.sysWaits ((holds.map (fun k : Hold => (k.pa, 8)) ++ keys).map fun z => (0, z))
    let s := s.writeBack i keys
    if !s.performedAt i (if holds.isEmpty then .dev else .sys) || s.farPending i then .error (.stall s)
    else
      let s ← s.lastOut seq i
      let s := holds.foldl (fun s k => s.giveUp i k) s
      let s := holds.foldl (fun s k => State.grant k.pa (s.syncs.length + 1) s) s
      let s := (s.retire h.dly.toNat (s.core.ctx.pc + 8)).upd Core.left
      .error (.gone (s.settleExit seq i))

end Sys2Proof.Machine
end

