-- ==== Sys2Proof/Machine/Sfu.lean ====
section
/-! DEFINITION. The special functions of R226: the exact value rounded once to nearest, ties to even. Values that are no
exact rationals are enclosed in an interval of fixed-point numbers, at growing precision, until both ends round alike. -/

namespace Sys2Proof.Machine

/-- An enclosure: the value lies strictly between `lo` and `hi`, times 2^`e`. -/
structure Iv where
  lo : Int
  hi : Int
  e : Int
  deriving DecidableEq, Repr

/-- An enclosure around a fixed-point result of `p` fraction bits, wider than the error of every series below. -/
def Iv.around (v : Int) (p : Nat) : Iv := { lo := v - 2 ^ 20, hi := v + 2 ^ 20, e := -(p : Int) }

/-- Round an enclosure when both ends agree. -/
def Iv.round (f : FFmt) (x : Iv) : Option (FV × Fl) :=
  let mag (neg : Bool) (a b : Nat) : Option (FV × Fl) :=
    if bitLen a < 64 then none else
      let r1 := f.round .rne (.fin neg a x.e) true
      let r2 := f.round .rne (.fin neg (b - 1) x.e) true
      if f.encode r1.1 = f.encode r2.1 && r1.2 = r2.2 then some r1 else none
  if 0 < x.lo then mag false x.lo.toNat x.hi.toNat
  else if x.hi < 0 then mag true (-x.hi).toNat (-x.lo).toNat
  else none

/-- Series of terms: each term is `step` of the term before, summed until one is 0. -/
def series (step : Nat → Int → Int) : Nat → Nat → Int → Int
  | 0, _, _ => 0
  | fuel + 1, n, t => if t = 0 then 0 else t + series step fuel (n + 1) (step n t)

/-- Σ of terms divided by the odd numbers, alternating in sign if `alt`, for atan and atanh: `t` is the power of z. -/
def oddSeries (alt : Bool) (z2 : Int) (p : Nat) : Nat → Nat → Int → Int
  | 0, _, _ => 0
  | fuel + 1, n, t =>
    if t = 0 then 0
    else (if alt && n % 2 = 1 then -(t / (2 * n + 1)) else t / (2 * n + 1))
      + oddSeries alt z2 p fuel (n + 1) (t * z2 / 2 ^ p)

/-- π with `p` fraction bits. -/
def piFix (p : Nat) : Int :=
  let one : Int := 2 ^ p
  let atan (k : Int) : Int := oddSeries true (one / (k * k)) p p 0 (one / k)
  16 * atan 5 - 4 * atan 239

/-- Inverse hyperbolic tangent of a fixed-point number of small magnitude. -/
def atanhFix (p : Nat) (z : Int) : Int := oddSeries false (z * z / 2 ^ p) p p 0 z

/-- ln 2 with `p` fraction bits. -/
def ln2Fix (p : Nat) : Int := 2 * atanhFix p (2 ^ p / 3)

/-- e^r for a fixed-point r of magnitude below 1. -/
def expFix (p : Nat) (r : Int) : Int := series (fun n t => t * r / 2 ^ p / (n + 1)) p 0 (2 ^ p)

/-- The fixed-point number of ± m × 2^e. -/
def fixOf (p : Nat) (neg : Bool) (m : Nat) (e : Int) : Int :=
  let k : Int := e + p
  let v : Int := if 0 ≤ k then (m * 2 ^ k.toNat : Nat) else (m / 2 ^ (-k).toNat : Nat)
  if neg then -v else v

/-- e^x as a mantissa of `p` fraction bits and a power of two. -/
def expParts (p : Nat) (x : Int) : Int × Int :=
  let q := p + 16
  let l := ln2Fix q
  let k := (x * 2 ^ 16 + l / 2) / l
  (expFix q (x * 2 ^ 16 - k * l) / 2 ^ 16, k)

/-- ln x for x = m × 2^e > 0, as the pair of ln of the mantissa in [3/4, 3/2) and the power of two. -/
def lnParts (p : Nat) (m : Nat) (e : Int) : Int × Int :=
  let l := bitLen m
  let up : Bool := decide (3 * 2 ^ l ≤ 4 * m)
  let k : Int := e + l - (if up then 0 else 1)
  -- y = m / 2^l or m / 2^(l - 1)
  let y : Int := fixOf p false m (-(l : Int) + if up then 0 else 1)
  (2 * atanhFix p ((y - 2 ^ p) * 2 ^ p / (y + 2 ^ p)), k)

/-- sin and cos of a fixed-point number of magnitude below 1. -/
def sinFix (p : Nat) (r : Int) : Int := series (fun n t => -(t * (r * r / 2 ^ p) / 2 ^ p / ((2 * n + 2) * (2 * n + 3)))) p 0 r
/-- The cosine. -/
def cosFix (p : Nat) (r : Int) : Int :=
  series (fun n t => -(t * (r * r / 2 ^ p) / 2 ^ p / ((2 * n + 1) * (2 * n + 2)))) p 0 (2 ^ p)

/-- sin (or cos) of ± m × 2^e, `p` fraction bits. -/
def trigFix (cosine : Bool) (p : Nat) (neg : Bool) (m : Nat) (e : Int) : Int :=
  let q := p + 16 + (max 0 (e + bitLen m)).toNat
  let x := fixOf q neg m e
  let h := piFix (q + 8) / 2 ^ 9
  let k := (x + h / 2) / h
  let r := (x - k * h) / 2 ^ (q - p)
  match ((k + if cosine then 1 else 0) % 4).toNat with
  | 0 => sinFix p r
  | 1 => cosFix p r
  | 2 => -sinFix p r
  | _ => -cosFix p r

/-- The terms of erf, without the factor 2 / √π. -/
def erfTerms (x2 : Int) (p : Nat) : Nat → Nat → Int → Int
  | 0, _, _ => 0
  | fuel + 1, n, t => if t = 0 then 0 else t / (2 * n + 1) + erfTerms x2 p fuel (n + 1) (-(t * x2 / 2 ^ p / (n + 1)))

/-- The enclosure of a function at a finite nonzero argument whose value is irrational, at `p` fraction bits. Arguments
beyond the range of the reductions are answered by limits. -/
def sfuIv (fn : SfuFn) (p : Nat) (neg : Bool) (m : Nat) (e : Int) : Iv :=
  let top : Int := e + bitLen m  -- |x| < 2^top
  let below (v : Nat) (q : Int) : Iv := if neg then ⟨-(v : Int), -(v : Int) + 1, q⟩ else ⟨(v : Int) - 1, v, q⟩
  let near1 (up : Bool) : Iv := if up then ⟨2 ^ 100, 2 ^ 100 + 1, -100⟩ else ⟨2 ^ 100 - 1, 2 ^ 100, -100⟩
  let huge : Iv := ⟨2 ^ 100, 2 ^ 100 + 1, 5900⟩
  let nil : Iv := ⟨2 ^ 100, 2 ^ 100 + 1, -6100⟩
  let x := fixOf p neg m e
  match fn with
  | .exp =>
    if top < -60 then near1 (!neg)
    else if 12 ≤ top then (if neg then nil else huge)
    else
      let r := expParts p x
      { Iv.around r.1 p with e := r.2 - p }
  | .exp2 =>
    if top < -60 then near1 (!neg)
    else if 12 ≤ top then (if neg then nil else huge)
    else
      let k := x / 2 ^ p
      { Iv.around (expFix p ((x - k * 2 ^ p) * ln2Fix p / 2 ^ p)) p with e := k - p }
  | .log => let r := lnParts p m e; Iv.around (r.1 + r.2 * ln2Fix p) p
  | .log2 => let r := lnParts p m e; Iv.around (r.1 * 2 ^ p / ln2Fix p + r.2 * 2 ^ p) p
  | .sin => if top < -60 then below (m * 2 ^ 64) (e - 64) else Iv.around (trigFix false p neg m e) p
  | .cos => if top < -60 then near1 false else Iv.around (trigFix true p neg m e) p
  | .tanh =>
    if top < -60 then below (m * 2 ^ 64) (e - 64)
    else if 7 < top then below (2 ^ 100) (-100)
    else
      -- 1 − 2 / (e^2|x| + 1)
      let r := expParts p (2 * x.natAbs)
      let w : Int := r.1 * 2 ^ r.2.toNat
      let v : Int := 2 ^ p - 2 * 2 ^ (2 * p) / (w + 2 ^ p)
      Iv.around (if neg then -v else v) p
  | .sigmoid =>
    if top < -60 then { (below 0 0) with lo := 2 ^ 99 - (if neg then 1 else 0), hi := 2 ^ 99 + (if neg then 0 else 1), e := -100 }
    else if 12 ≤ top then (if neg then nil else near1 false)
    else
      let r := expParts p (-x)
      -- 1 / (1 + g × 2^k)
      if r.2 ≤ 0 then Iv.around (2 ^ (2 * p) / (2 ^ p + r.1 / 2 ^ (-r.2).toNat)) p
      else { Iv.around (2 ^ (2 * p) / (r.1 + 2 ^ p / 2 ^ r.2.toNat)) p with e := -r.2 - p }
  | .erf =>
    let q := p + 200
    let c := 2 ^ (q + 1) * 2 ^ q / (isqrt ((piFix q).toNat * 2 ^ q) : Int)  -- 2 / √π
    if top < -60 then
      -- 2 / √π × (x − x³ / 3), below the value by less than x⁵ / 5
      let t : Int := m * m * 2 ^ q / (3 * 2 ^ (-2 * e).toNat)
      let v : Int := c * (m : Int) - c * (m : Int) * t / 2 ^ q
      let u : Int := 2 ^ 20 * m
      let w : Int := c * (m : Int) / 2 ^ 240 + u
      if neg then ⟨-v - w, -v + u, e - q⟩ else ⟨v - u, v + w, e - q⟩
    else if 3 < top then below (2 ^ 100) (-100)
    else
      let y := fixOf q false m e
      let v := erfTerms (y * y / 2 ^ q) q q 0 y * c / 2 ^ (q + 200)
      Iv.around (if neg then -v else v) p
  | .recip | .rsqrt => near1 false

/-- Grow the precision until the rounding is certain. -/
def sfuRound (f : FFmt) (fn : SfuFn) (neg : Bool) (m : Nat) (e : Int) : Nat → Nat → FV × Fl
  | 0, p =>
    let x := sfuIv fn p neg m e
    f.round .rne (.fin (x.hi < 0) x.lo.natAbs x.e) true
  | fuel + 1, p =>
    match (sfuIv fn p neg m e).round f with
    | some r => r
    | none => sfuRound f fn neg m e fuel (2 * p)

/-- 1 / √(m × 2^e), rounded once. -/
def rsqrtOf (f : FFmt) (m : Nat) (e : Int) : FV × Fl :=
  let (m, e) := if e % 2 = 0 then (m, e) else (2 * m, e - 1)
  let k := 80 + bitLen m
  let q := isqrt (2 ^ (2 * k) / m)
  f.round .rne (.fin false q (-(k : Int) - e / 2)) (q * q * m != 2 ^ (2 * k))

/-- A power of two with integer exponent, as x = ± m × 2^e, if it is an integer of modest size. -/
def intOf (neg : Bool) (m : Nat) (e : Int) : Option Int :=
  if 20 < e + bitLen m then none
  else
    let v : Option Nat := if 0 ≤ e then some (m * 2 ^ e.toNat) else if m % 2 ^ (-e).toNat = 0 then some (m / 2 ^ (-e).toNat) else none
    v.map fun n => if neg then -(n : Int) else n

/-- A special function (R226). -/
def sfuEval (f : FFmt) (fn : SfuFn) (v : FV) : FV × Fl :=
  let one : FV := .fin false 1 0
  let bad : FV × Fl := (.dnan, fNV)
  match v with
  | .nan _ s _ => (v.quiet, flagIf s fNV)
  | .inf n =>
    match fn with
    | .exp | .exp2 => (if n then .zero false else .inf false, 0)
    | .log | .log2 => if n then bad else (.inf false, 0)
    | .recip => (.zero n, 0)
    | .rsqrt => if n then bad else (.zero false, 0)
    | .sin | .cos => bad
    | .tanh | .erf => (.fin n 1 0, 0)
    | .sigmoid => (if n then .zero false else one, 0)
  | .fin n m e =>
    if m = 0 then
      match fn with
      | .exp | .exp2 | .cos => (one, 0)
      | .log | .log2 => (.inf true, fDZ)
      | .recip | .rsqrt => (.inf n, fDZ)
      | .sin | .tanh | .erf => (.zero n, 0)
      | .sigmoid => (.fin false 1 (-1), 0)
    else
      let isPow : Bool := 2 ^ (bitLen m - 1) == m
      match fn with
      | .recip => f.div .rne one v
      | .rsqrt => if n then bad else rsqrtOf f m e
      | .log =>
        if n then bad
        else if isPow && e + bitLen m - 1 == 0 then (.zero false, 0)
        else sfuRound f fn n m e 8 192
      | .log2 =>
        if n then bad
        else if isPow then f.round .rne (.ofInt (e + bitLen m - 1))
        else sfuRound f fn n m e 8 192
      | .exp2 =>
        match intOf n m e with
        | some k => f.round .rne (.fin false 1 (max (-5000) (min 5000 k)))
        | none => sfuRound f fn n m e 8 192
      | _ => sfuRound f fn n m e 8 192

/-- The elements of an SFU request (R226): result bytes and flags. -/
def sfuBytes (fn : SfuFn) (ef : SFmt) (src : List Byte) : List Byte × Fl :=
  let f := sfmtOf ef
  let nb := f.width / 8
  let rs := (List.range (src.length / nb)).map fun i => sfuEval f fn (f.decode (elemBits (2 * nb) src i))
  (rs.flatMap fun r => bytesLE nb (f.encode r.1), rs.foldl (fun a r => a ||| r.2) 0)

end Sys2Proof.Machine
end

