-- ==== Sys2Proof/Machine/Vector.lean ====
section
/-! DEFINITION. The vector instructions (R205, R210 to R227). -/

namespace Sys2Proof.Machine

/-! ## Operands (R210) -/

/-- Bytes of `n` elements of `nib` 4-bit units. -/
def bytesOf (nib n : Nat) : Nat := (n * nib + 1) / 2

/-- The elements of a run of bytes. -/
def elemsOf (nib n : Nat) (bs : List Byte) : List Nat :=
  if nib = 1 then (bs.flatMap fun b => [b.toNat % 16, b.toNat / 16]).take n
  else (chunksOf (nib / 2) n bs).map ofBytesLE

/-- The `n` elements of an operand, from BASE + CURSOR. -/
def Core.elems (c : Core) (h : Handle) (nib n : Nat) : List Nat := elemsOf nib n (c.pad.read h.start (bytesOf nib n))

/-- The scale bytes of `n` elements of a block format (R210). -/
def Core.scales (c : Core) (h : Handle) (nib n : Nat) : List Nat :=
  (c.pad.read (h.start + bytesOf nib n) (ceilDiv n 4)).map (·.toNat)

/-- What an operand of a tag must satisfy. -/
def tagged (tag : Nat) : Accept := { tags := some [tag] }

/-- What an operand must satisfy whose FMT and LAYOUT are not checked (R210), nor BLOCK against that FMT (DESIGN CHOICE, log entry 123). -/
def untagged : Accept := { tags := none, layouts := none }

/-- What a destination must satisfy that takes its format from the instruction (R220; log entry 123). -/
def retagged : Accept := { tags := none }

/-- The first extent that runs past the scratchpad (R210). -/
def Core.padTraps (c : Core) : List (Nat × Nat) → Option Trap
  | [] => none
  | (a, n) :: rest => if c.inPad a n then Core.padTraps c rest else some (c.padTrap a)

/-! ## Lane instructions (R205, R211 to R214) -/

/-- The group whose residue shadow watches a core's lanes: its reserve (R205, R329). -/
def State.laneGroup (s : State) (i : Nat) : Nat := (s.pod (podOf i)).reserveOf.getD (i % 8) 0

/-- Whether the LANE bit of `inj` reports now (R329, R330): not once a group it reported on is retired. -/
def State.laneReports (s : State) (i : Nat) : Bool :=
  let c := s.at i
  bitAt c.sys.inj.toNat 1 && !c.sys.laneHit.any (s.pod (podOf i)).retiredGroups.contains

/-- What a lane instruction writes and the flags it raises. -/
abbrev Lanes := List (Nat × Byte) × Fl

/-- A lane instruction (R205, R210 to R214, R174, R179): its operands are checked, those in `exts` lie in the scratchpad,
its tiles are ready, the pending-write queue has room if it writes; then it reads, what it reads is checked, the core takes lanes if it
holds none, and its writes are pending for `l` slots. With no element to work on (`active`) no detector checks it (R330). A raised flag that is enabled traps with nothing written (R65, R213). -/
def State.lane (s : State) (chk : List (Nat × Handle × Accept)) (exts : List (Nat × Nat)) (l : Nat) (out : Core → Except Trap Lanes)
    (upd : Core → Core := id) (writes : Bool := exts.any (·.2 != 0)) (active : Bool := exts.any (·.2 != 0)) : Run (State × Option Word) := do
  orTrap (judge chk) s
  orTrap (s.core.padTraps exts) s
  s.hold (chk.map (·.2.1))
  let s0 ← if writes then s.roomed else pure s
  let r ← match out s0.core with
    | .error t => raise t s0
    | .ok r => pure r
  let s := if s0.core.lanes = 0 then s0.claim s0.cur 8 else s0
  let i := s.cur.val
  if active && s.laneReports i then
    let g := s.laneGroup i
    let s := s.upd (·.updSys fun y => { y.reported 1 with laneHit := if bitAt y.inj.toNat 8 then some g else none })
    .error (.gone (s.rollback i (.laneGroup (podOf i) g)))
  else if s.core.traps r.2 then .error (.trap (floatTrap r.2) (s.upd (·.raise r.2)))
  else done (s.upd fun c => upd (if r.1.isEmpty then c else c.pendWrite l r.1 r.2 true))

/-- Results laid out from a destination's start. -/
def lay (h : Handle) (nib : Nat) (rs : List (Nat × Fl)) : Lanes :=
  (cellsAt h.start (packElems nib (rs.map (·.1))), rs.foldl (fun a r => a ||| r.2) 0)

/-! ## Element-wise arithmetic (R215 to R219) -/

/-- Size of an element format in 4-bit units. -/
def efNib (e : EF) : Nat := (fmtNibbles (efTag e)).getD 2

/-- An integer operation of `VARITH` at width `w` (R215). -/
def intArith (op : VOp) (w : Nat) (x y : Nat) : Nat :=
  let a := sval w x
  let b := sval w y
  let lo : Int := -(2 ^ (w - 1) : Nat)
  let hi : Int := (2 ^ (w - 1) : Nat) - 1
  ofSval w <| match op with
    | .add => a + b | .sub => a - b | .mul => a * b | .min => min a b | .max => max a b
    | .abs => a.natAbs | .neg => -a | .adds => satInt (a + b) lo hi | .subs => satInt (a - b) lo hi
    | .div | .sqrt => 0

/-- A float operation of `VARITH` in an IEEE format (R215, R66). -/
def ieeeArith (op : VOp) (f : FFmt) (r : Rnd) (x y : Nat) : Nat × Fl :=
  let a := f.decode x
  let b := f.decode y
  let enc (v : FV × Fl) : Nat × Fl := (f.encode v.1, v.2)
  match op with
  | .add => enc (f.add r a b) | .sub => enc (f.sub r a b) | .mul => enc (f.mul r a b) | .div => enc (f.div r a b)
  | .sqrt => enc (f.sqrt r a) | .min => enc (minMax false a b) | .max => enc (minMax true a b)
  | .abs => (x % 2 ^ (f.width - 1), 0)
  | .neg => (x ^^^ 2 ^ (f.width - 1), 0)
  | .adds | .subs => (0, 0)

/-- The lesser or greater of two MK8 bytes by value; NaR if either is (R215). -/
def mk8MinMax (mx : Bool) (x y : Nat) : Nat :=
  if x = 0x80 || y = 0x80 then 0x80
  else if (minMax mx (mk8Decode x) (mk8Decode y)).1 = mk8Decode x then x else y

/-- An MK8 operation of `VARITH` (R138, R215). -/
def mk8Arith (op : VOp) (r : Rnd) (x y : Nat) : Nat × Fl :=
  let a := mk8Decode x
  let b := mk8Decode y
  let enc (v : FV × Fl) : Nat × Fl := mk8Encode r v.1
  match op with
  | .add => enc (addExact r a b) | .sub => enc (addExact r a b.negated) | .mul => enc (mulExact a b)
  | .min => (mk8MinMax false x y, 0) | .max => (mk8MinMax true x y, 0)
  | .abs => (if x = 0x80 then x else x % 128, 0)
  | .neg => (if x % 128 = 0 then x else x ^^^ 128, 0)
  | .div | .sqrt | .adds | .subs => (0, 0)

/-- An element of `VARITH` (R215). -/
def elemArith (op : VOp) (ef : EF) (r : Rnd) (x y : Nat) : Nat × Fl :=
  if ef.isInt then (intArith op (4 * efNib ef) x y, 0)
  else if ef = .mk8 then mk8Arith op r x y
  else ieeeArith op (tagFFmt (efTag ef)) r x y

/-- L of `VARITH` (R212). -/
def arithL (op : VOp) (ef : EF) : Nat :=
  match op with
  | .div | .sqrt => 8
  | .mul => 4
  | _ => if ef.isInt then 2 else 4

/-- Handle operands that an instruction names, with the unary form's O3 left out. -/
def ops3 (unary : Bool) (o1 o2 o3 : HReg) : List (Nat × HReg) :=
  if unary then [(0, o1), (1, o2)] else [(0, o1), (1, o2), (2, o3)]

/-- The element-wise instructions of two sources: `n` elements of `na` units in, `nd` units out. -/
def State.lane3 (s : State) (unary : Bool) (o1 o2 o3 : HReg) (o4 : SReg) (td ta : Nat) (l : Nat)
    (f : Core → Nat → Nat → Nat × Fl) : Run (State × Option Word) :=
  let c := s.core
  let n := (c.getS o4).toNat
  let (hd, ha, hb) := (c.getH o1, c.getH o2, c.getH o3)
  let nd := (fmtNibbles td).getD 2
  let na := (fmtNibbles ta).getD 2
  s.lane ([(1, hd, tagged td), (2, ha, tagged ta)] ++ if unary then [] else [(3, hb, tagged ta)])
    ([(hd.start, bytesOf nd n), (ha.start, bytesOf na n)] ++ if unary then [] else [(hb.start, bytesOf na n)]) l fun c =>
    let xs := c.elems ha na n
    let ys := if unary then xs else c.elems hb na n
    .ok (lay hd nd ((xs.zip ys).map fun p => f c p.1 p.2))

/-- `VARITH` (R215). -/
def execVarith (h : Hx) (o1 o2 o3 : HReg) (o4 : SReg) (op : VOp) (ef : EF) (rm : RM) (s : State) : Out :=
  s.issue128 h (ops3 op.unary o1 o2 o3) fun s =>
    s.lane3 op.unary o1 o2 o3 o4 (efTag ef) (efTag ef) (arithL op ef) fun c => elemArith op ef (c.mode rm)

/-- `VFMA` (R216). -/
def execVfma (h : Hx) (o1 o2 o3 o4 : HReg) (o5 : SReg) (k : Fma) (ef : SFmt) (rm : RM) (s : State) : Out :=
  s.issue128 h [(0, o1), (1, o2), (2, o3), (3, o4)] fun s =>
    let c := s.core
    let n := (c.getS o5).toNat
    let (hd, ha, hb, hc) := (c.getH o1, c.getH o2, c.getH o3, c.getH o4)
    let t := sfTag ef
    let nib := (fmtNibbles t).getD 2
    let f := sfmtOf ef
    s.lane [(1, hd, tagged t), (2, ha, tagged t), (3, hb, tagged t), (4, hc, tagged t)]
      ([hd, ha, hb, hc].map fun x => (x.start, bytesOf nib n)) 5 fun c =>
      .ok (lay hd nib (((c.elems ha nib n).zip ((c.elems hb nib n).zip (c.elems hc nib n))).map fun p =>
        let r := f.fma (c.mode rm) (fmaSigns k).1 (fmaSigns k).2 (f.decode p.1) (f.decode p.2.1) (f.decode p.2.2)
        (f.encode r.1, r.2)))

/-- A comparison of `VCMP` (R217). -/
def elemCmp (cond : Nat) (ef : EF) (sig : Bool) (x y : Nat) : Nat × Fl :=
  if ef.isInt then
    let w := 4 * efNib ef
    (b1 ((ICond.ofCode cond).any fun k => icondHolds k (BitVec.ofInt 64 (sval w x)) (BitVec.ofInt 64 (sval w y))), 0)
  else
    let a := tagValue (efTag ef) x
    let b := tagValue (efTag ef) y
    (b1 ((FCond.ofCode cond).any fun k => fcondHolds k a b), cmpFlags sig a b)

/-- `VCMP` (R217). -/
def execVcmp (h : Hx) (o1 o2 o3 : HReg) (o4 : SReg) (cond : BitVec 4) (ef : EF) (sig : Bool) (s : State) : Out :=
  s.issue128 h (ops3 false o1 o2 o3) fun s =>
    s.lane3 false o1 o2 o3 o4 0x20 (efTag ef) (if ef.isInt then 2 else 4) fun _ => elemCmp cond.toNat ef sig

/-- `VSEL` (R217). -/
def execVsel (h : Hx) (o1 o2 o3 o4 : HReg) (o5 : SReg) (ef : EF) (s : State) : Out :=
  s.issue128 h [(0, o1), (1, o2), (2, o3), (3, o4)] fun s =>
    let c := s.core
    let n := (c.getS o5).toNat
    let (hd, hm, ha, hb) := (c.getH o1, c.getH o2, c.getH o3, c.getH o4)
    let t := efTag ef
    let nib := efNib ef
    s.lane [(1, hd, tagged t), (2, hm, tagged 0x20), (3, ha, tagged t), (4, hb, tagged t)]
      [(hd.start, bytesOf nib n), (hm.start, n), (ha.start, bytesOf nib n), (hb.start, bytesOf nib n)] 2 fun c =>
      .ok (lay hd nib (((c.elems hm 2 n).zip ((c.elems ha nib n).zip (c.elems hb nib n))).map fun p =>
        (if p.1 = 0 then p.2.2 else p.2.1, 0)))

/-- An element of `VLOGIC` at width `w` (R218). -/
def elemLogic (op : LogicOp) (w x y : Nat) : Nat :=
  match op with
  | .and => x &&& y | .or => x ||| y | .xor => x ^^^ y | .andn => x &&& (2 ^ w - 1 - y) | .not => 2 ^ w - 1 - x

/-- `VLOGIC` (R218). -/
def execVlogic (h : Hx) (o1 o2 o3 : HReg) (o4 : SReg) (op : LogicOp) (ef : EF) (s : State) : Out :=
  s.issue128 h (ops3 (op == .not) o1 o2 o3) fun s =>
    s.lane3 (op == .not) o1 o2 o3 o4 (efTag ef) (efTag ef) 2 fun _ x y => (elemLogic op (4 * efNib ef) x y, 0)

/-- An element of `VSHIFT` at width `w` (R218). -/
def elemShift (op : ShiftOp) (w x cnt : Nat) : Nat :=
  let c := cnt % w
  match op with
  | .shl => x * 2 ^ c % 2 ^ w
  | .shr => x / 2 ^ c
  | .sar => ofSval w (sval w x / (2 ^ c : Nat))
  | .rot => (x * 2 ^ c + x / 2 ^ (w - c)) % 2 ^ w

/-- `VSHIFT` (R218). -/
def execVshift (h : Hx) (o1 o2 o3 : HReg) (o4 : SReg) (op : ShiftOp) (ef : EF) (count : Option (BitVec 6)) (s : State) : Out :=
  s.issue128 h (ops3 count.isSome o1 o2 o3) fun s =>
    s.lane3 count.isSome o1 o2 o3 o4 (efTag ef) (efTag ef) 2 fun _ x y =>
      (elemShift op (4 * efNib ef) x (count.elim y (·.toNat)), 0)

/-- `VCLASS` (R219). -/
def execVclass (h : Hx) (o1 o2 : HReg) (o3 : SReg) (ef : SFmt) (s : State) : Out :=
  s.issue128 h [(0, o1), (1, o2)] fun s =>
    s.lane3 true o1 o2 o2 o3 0x22 (sfTag ef) 2 fun _ x _ => ((sfmtOf ef).classOf ((sfmtOf ef).decode x), 0)

/-! ## Conversion and requantisation (R220, R221) -/

/-- The values of `n` elements of a tag with their scales (R139, R220). -/
def valuesOf (tag : Nat) (es sc : List Nat) : List FV :=
  if blockTags.contains tag then
    let w := 4 * (fmtNibbles tag).getD 2
    (List.range es.length).zip es |>.map fun p => blockValue w (sc.getD (p.1 / 4) 0) p.2
  else es.map (tagValue tag)

/-- Elements, scales and flags of values converted into a tag (R69, R136, R140, R142). -/
def convertTo (r : Rnd) (tag : Nat) (vs : List FV) : List Nat × List Nat × Fl :=
  if blockTags.contains tag then
    let w := 4 * (fmtNibbles tag).getD 2
    let bs := (chunksOf 4 vs.length vs).map (blockConvert r w)
    (bs.flatMap (·.2.1), bs.map (·.1), bs.foldl (fun a b => a ||| b.2.2) 0)
  else
    let rs := vs.map (tagBitsOf r tag)
    (rs.map (·.1), [], rs.foldl (fun a b => a ||| b.2) 0)

/-- `hd` as a conversion leaves it (R220). -/
def Handle.retag (h : Handle) (tag : Nat) : Handle :=
  { h with fmt := .ofNat 8 tag, layout := 0, planes := 0, block := if blockTags.contains tag then 2 else 0 }

/-- Bytes of `n` elements of a tag with their scales. -/
def tagBytes (tag n : Nat) : Nat :=
  bytesOf ((fmtNibbles tag).getD 2) n + if blockTags.contains tag then ceilDiv n 4 else 0

/-- `VCVT` and `VREQ`: from the tag of `ha`, one of `srcs`, into `tag`. Their rules say n = s[O2], where R40 and the written operands give the count the
place O3: O3 is read (DEDUCED, log entry 126). -/
def State.laneCvt (s : State) (o1 o2 : HReg) (o3 : SReg) (tag : Nat) (srcs : List Nat)
    (f : Core → List Nat → List Nat → List Nat × List Nat × Fl) : Run (State × Option Word) :=
  let c := s.core
  let n := (c.getS o3).toNat
  let (hd, ha) := (c.getH o1, c.getH o2)
  let src := ha.fmt.toNat
  let ns := (fmtNibbles src).getD 2
  s.lane [(1, hd, retagged), (2, ha, { tags := some srcs })] [(hd.start, tagBytes tag n), (ha.start, tagBytes src n)] 4
    (fun c =>
      let (es, sc, fl) := f c (c.elems ha ns n) (if blockTags.contains src then c.scales ha ns n else [])
      .ok (cellsAt hd.start (packElems ((fmtNibbles tag).getD 2) es ++ sc.map (BitVec.ofNat 8 ·)), fl))
    fun c => c.setH o1 ((c.getH o1).retag tag)

/-- `VCVT` (R220): equal tags are copied bit for bit. -/
def execVcvt (h : Hx) (o1 o2 : HReg) (o3 : SReg) (tag : BitVec 8) (rm : RM) (s : State) : Out :=
  s.issue128 h [(0, o1), (1, o2)] fun s =>
    let src := (s.core.getH o2).fmt.toNat
    s.laneCvt o1 o2 o3 tag.toNat cvtTags fun c es sc =>
      if src = tag.toNat then (es, sc, 0) else convertTo (c.mode rm) tag.toNat (valuesOf src es sc)

/-- `VREQ` (R141, R221): it raises NX and OF only. -/
def execVreq (h : Hx) (o1 o2 : HReg) (o3 : SReg) (bsf4 : Bool) (s : State) : Out :=
  s.issue128 h [(0, o1), (1, o2)] fun s =>
    let src := (s.core.getH o2).fmt.toNat
    let tag := if bsf4 then 0x12 else 0x11
    s.laneCvt o1 o2 o3 tag blockTags fun _ es sc =>
      let r := convertTo .rne tag (valuesOf src es sc)
      (r.1, r.2.1, r.2.2 &&& (fNX ||| fOF))

/-! ## Moves, permutations, generated values (R222 to R224) -/

/-- `VMOV` (R222). -/
def execVmov (h : Hx) (o1 o2 : HReg) (o3 : SReg) (s : State) : Out :=
  s.issue128 h [(0, o1), (1, o2)] fun s =>
    let c := s.core
    let n := (c.getS o3).toNat
    let (hd, ha) := (c.getH o1, c.getH o2)
    s.lane [(1, hd, untagged), (2, ha, untagged)] [(hd.start, n), (ha.start, n)] 2 fun c =>
      .ok (cellsAt hd.start (c.pad.read ha.start n), 0)

/-- `VFILL` (R222). -/
def execVfill (h : Hx) (o1 : HReg) (o2 o3 : SReg) (size : Size) (s : State) : Out :=
  s.issue128 h [(0, o1)] fun s =>
    let c := s.core
    let n := (c.getS o3).toNat
    let hd := c.getH o1
    let k := sizeBytes size
    s.lane [(1, hd, untagged)] [(hd.start, n * k)] 2 fun c =>
      .ok (cellsAt hd.start ((List.replicate n (bytesLE k (c.getS o2).toNat)).flatten), 0)

/-- `VBCAST` (R222). -/
def execVbcast (h : Hx) (o1 o2 : HReg) (o3 : SReg) (ef : EF) (s : State) : Out :=
  s.issue128 h [(0, o1), (1, o2)] fun s =>
    let c := s.core
    let n := (c.getS o3).toNat
    let (hd, ha) := (c.getH o1, c.getH o2)
    let k := efBytes ef
    s.lane [(1, hd, tagged (efTag ef)), (2, ha, tagged (efTag ef))] [(hd.start, n * k), (ha.start, min n 1 * k)] 2 fun c =>
      .ok (cellsAt hd.start ((List.replicate n (c.pad.read ha.start k)).flatten), 0)

/-- `VPERM` (R223): an index past the bound is a format trap on the index list. -/
def execVperm (h : Hx) (o1 o2 o3 : HReg) (o4 : SReg) (scat : Bool) (ef : EF) (s : State) : Out :=
  s.issue128 h (ops3 false o1 o2 o3) fun s =>
    let c := s.core
    let n := (c.getS o4).toNat
    let (hd, ha, hx) := (c.getH o1, c.getH o2, c.getH o3)
    let k := efBytes ef
    let bound := if scat then hd.ext 0 else ha.ext 0
    s.lane (active := n != 0) [(1, hd, tagged (efTag ef)), (2, ha, tagged (efTag ef)), (3, hx, tagged 0x23)]
      ([(hx.start, 4 * n)] ++ if scat then [(hd.start, bound * k), (ha.start, n * k)] else [(hd.start, n * k)]) 2 fun c =>
      let xs := c.elems hx 8 n
      if xs.any (bound ≤ ·) then .error (fmtTrap 3 hx 4)
      else if scat then
        .ok (((List.range n).zip xs).flatMap fun p => cellsAt (hd.start + p.2 * k) (c.pad.read (ha.start + p.1 * k) k), 0)
      else
        match c.padTraps (xs.map fun x => (ha.start + x * k, k)) with
        | some t => .error t
        | none => .ok (cellsAt hd.start (xs.flatMap fun x => c.pad.read (ha.start + x * k) k), 0)

/-- `VMIX` (R224). -/
def execVmix (h : Hx) (o1 o2 : HReg) (o3 o4 : SReg) (s : State) : Out :=
  s.issue128 h [(0, o1), (1, o2)] fun s =>
    s.lane3 true o1 o2 o2 o4 0x24 0x24 4 fun c x _ => ((squash64 (c.getS o3) (BitVec.ofNat 64 x)).toNat, 0)

/-! ## Reductions and scans (R225) -/

/-- The identity of a reduction (R225, R349). -/
def redIdentity (op : RedOp) (ef : EF) : Nat :=
  let w := 4 * efNib ef
  match op with
  | .sum | .sumsq | .or | .xor => 0
  | .and => 2 ^ w - 1
  | .min => if ef = .mk8 then 0x03 else if ef.isInt then 2 ^ (w - 1) - 1 else (tagFFmt (efTag ef)).encode (.inf false)
  | .max => if ef = .mk8 then 0x83 else if ef.isInt then 2 ^ (w - 1) else (tagFFmt (efTag ef)).encode (.inf true)

/-- The first element as the start of a reduction (R225): a NaN is quieted. -/
def redStart (op : RedOp) (ef : EF) (r : Rnd) (x : Nat) : Nat × Fl :=
  if ef.isInt || ef = .mk8 then (x, 0)
  else
    let f := tagFFmt (efTag ef)
    let v := f.decode x
    if op = .sumsq then let y := f.fma r false false v v (.zero false); (f.encode y.1, y.2)
    else (if v.isNaN then f.encode v.quiet else x, flagIf v.isSNaN fNV)

/-- One step of a reduction (R225). -/
def redStep (op : RedOp) (ef : EF) (r : Rnd) (acc x : Nat) : Nat × Fl :=
  match op with
  | .sum => elemArith .add ef r acc x
  | .min => elemArith .min ef r acc x
  | .max => elemArith .max ef r acc x
  | .and => (acc &&& x, 0)
  | .or => (acc ||| x, 0)
  | .xor => (acc ^^^ x, 0)
  | .sumsq =>
    let f := tagFFmt (efTag ef)
    let y := f.fma r false false (f.decode x) (f.decode x) (f.decode acc)
    (f.encode y.1, y.2)

/-- The accumulator after each element, with the flags of its step. -/
def prefixes (op : RedOp) (ef : EF) (r : Rnd) : Nat → List Nat → List (Nat × Fl)
  | _, [] => []
  | acc, x :: xs => let y := redStep op ef r acc x; y :: prefixes op ef r y.1 xs

/-- The accumulators of a list of elements, from the first. -/
def accsOf (op : RedOp) (ef : EF) (r : Rnd) : List Nat → List (Nat × Fl)
  | [] => []
  | x :: xs => let y := redStart op ef r x; y :: prefixes op ef r y.1 xs

/-- `VRED` (R225). -/
def execVred (h : Hx) (o1 o2 : HReg) (o3 : SReg) (op : RedOp) (ef : EF) (rm : RM) (s : State) : Out :=
  s.issue128 h [(0, o1), (1, o2)] fun s =>
    let c := s.core
    let n := (c.getS o3).toNat
    let (hd, ha) := (c.getH o1, c.getH o2)
    let nib := efNib ef
    s.lane (active := n != 0) [(1, hd, tagged (efTag ef)), (2, ha, tagged (efTag ef))] [(hd.start, bytesOf nib 1), (ha.start, bytesOf nib n)] 8 fun c =>
      let as := accsOf op ef (c.mode rm) (c.elems ha nib n)
      let last := (as.getLast?.map (·.1)).getD (redIdentity op ef)
      .ok (cellsAt hd.start (packElems nib [last]), as.foldl (fun a r => a ||| r.2) 0)

/-- The reduction of a scan. -/
def scanOp : ScanOp → RedOp
  | .sum => .sum | .min => .min | .max => .max

/-- `VSCAN` (R225): `.ex` writes the prefix before each element, and does not take in the last. -/
def execVscan (h : Hx) (o1 o2 : HReg) (o3 : SReg) (op : ScanOp) (ef : EF) (ex : Bool) (rm : RM) (s : State) : Out :=
  s.issue128 h [(0, o1), (1, o2)] fun s =>
    let c := s.core
    let n := (c.getS o3).toNat
    let (hd, ha) := (c.getH o1, c.getH o2)
    let nib := efNib ef
    let q := scanOp op
    s.lane [(1, hd, tagged (efTag ef)), (2, ha, tagged (efTag ef))] [(hd.start, bytesOf nib n), (ha.start, bytesOf nib n)] 8 fun c =>
      let xs := c.elems ha nib n
      .ok (lay hd nib (if ex && n != 0 then (redIdentity q ef, 0) :: accsOf q ef (c.mode rm) xs.dropLast
        else accsOf q ef (c.mode rm) xs))

/-! ## `VSFU` at issue (R226, R227) -/

/-- `VSFU`: it stages its sources; its flags are known before anything issues after it when one is enabled (R213). -/
def execVsfu (h : Hx) (o1 o2 : HReg) (o3 : SReg) (fn : SfuFn) (ef : SFmt) (s : State) : Out :=
  s.issue128 h [(0, o1), (1, o2)] fun s => do
    let c := s.core
    let n := (c.getS o3).toNat
    let (hd, ha) := (c.getH o1, c.getH o2)
    let k := (sfmtOf ef).width / 8
    orTrap (judge [(1, hd, tagged (sfTag ef)), (2, ha, tagged (sfTag ef))]) s
    need (n * k ≤ 512) (fmtTrap 2 ha 4) s
    orTrap (c.padTraps [(hd.start, n * k), (ha.start, n * k)]) s
    s.hold [hd, ha]
    if c.sfu.isSome then .error (.stall s)
    else if n = 0 then done s
    else
      let s ← s.roomed
      let c := s.core
      let src := c.pad.read ha.start (n * k)
      let fl := (sfuBytes fn ef src).2
      if c.traps fl then
        -- a mismatch of the dual path leaves the result unused, its flags with it (R214)
        if bitAt c.sys.inj.toNat 3 then .error (.gone ((s.upd (·.updSys (·.reported 3))).rollback s.cur (.sfu (podOf s.cur))))
        else .error (.trap (floatTrap fl) (s.setCore (c.raise fl)))
      else
        done (s.setCore { c.pendWrite 8 [] 0 false with sfu := some { seq := c.pendSeq, fn := fn, ef := ef, src := src,
                                                                          dst := hd.start, started := false, withdrawn := false } })

end Sys2Proof.Machine
end

