-- ==== Sys2Proof/Machine/Plane.lean ====
section
/-! DEFINITION. The plane engine: gangs, the result ring, `MMA`, `MREC`, hatching, row statistics (R117 to R122, R145, R146,
R180 to R194, R197 to R202). -/

namespace Sys2Proof.Machine

/-! ## The ring as issued commands leave it (R187, R188) -/

/-- Join two flag sets. -/
def SlotFlags.or (a b : SlotFlags) : SlotFlags :=
  { nv := a.nv || b.nv, dz := a.dz || b.dz, ovf := a.ovf || b.ovf, fo := a.fo || b.fo, fu := a.fu || b.fu, nx := a.nx || b.nx }

/-- Exception flags as slot flags. -/
def slotFlags (f : Fl) (ovf : Bool) : SlotFlags :=
  { nv := f.getLsbD 0, dz := f.getLsbD 1, fo := f.getLsbD 2, fu := f.getLsbD 3, nx := f.getLsbD 4, ovf := ovf }

/-- What a freed slot ORs into `fpc`: OVF counts as NV (R189). -/
def SlotFlags.fpc (x : SlotFlags) : Fl :=
  flagIf (x.nv || x.ovf) fNV ||| flagIf x.dz fDZ ||| flagIf x.fo fOF ||| flagIf x.fu fUF ||| flagIf x.nx fNX

/-- The kind a command is issued with for its slot (R180, R188, R193): that of the formats of the member's own operands, which its
own issue checks (log entry 111). -/
def PlaneCmd.kind (x : PlaneCmd) : SlotKind :=
  match x.op with
  | .mma MmaMode.pp _ _ _ _ => if x.ha.isBlock || x.hb.isBlock then .float else .integer
  | .mma MmaMode.res _ _ _ _ => .residue
  | .mma _ _ _ _ _ => .float
  | .mrec ef _ => if ef.isInt then .integer else .float
  | _ => .float

/-- Fills queued that have no slot yet. -/
def Core.unclaimed (c : Core) : Nat := (c.plane.filter fun x => x.op.fills == some true && x.slot.isNone).length

/-- Etcher commands queued that free a slot. -/
def Core.freeing (c : Core) : Nat := (c.etch.filter fun x => !x.keep).length

/-- Slots claimed by issued fills and not freed by issued etcher commands (R187). -/
def Core.claimed (c : Core) : Nat := (c.ctx.ring.toList.filter fun x => x.st != .free).length + c.unclaimed - c.freeing

/-- The slot of the most recently issued fill (R188). -/
def Core.lastSlot (c : Core) : Fin 4 := c.ctx.head + Fin.ofNat 4 c.unclaimed - 1

/-- The slot on which an etcher command issued now acts. -/
def Core.etchSlot (c : Core) : Fin 4 := c.ctx.tail + Fin.ofNat 4 c.freeing

/-- Whether a slot is claimed as issued commands leave it. -/
def Core.slotLive (c : Core) (n : Fin 4) : Bool := (n - c.etchSlot).toNat < c.claimed

/-- The slots of the queued plane commands, with their order: claimed, or to be claimed. -/
def slotsOf : Fin 4 → List PlaneCmd → List (Nat × Fin 4 × SlotKind)
  | _, [] => []
  | h, x :: xs =>
    match x.op.fills with
    | none => slotsOf h xs
    | some fill =>
      let n := x.slot.getD (if fill then h else h - 1)
      (x.order, n, x.kind) :: slotsOf (if fill && x.slot.isNone then h + 1 else h) xs

/-- A slot of the ring. -/
def Core.slot (c : Core) (n : Fin 4) : Slot := c.ctx.ring[n]

/-- Change a slot of the ring. -/
def Core.onSlot (c : Core) (n : Fin 4) (f : Slot → Slot) : Core :=
  c.updCtx fun k => { k with ring := k.ring.set n (f k.ring[n]) }

/-- The kind that the slot's last issued fill gives (R188). -/
def Core.fillKindOf (c : Core) (n : Fin 4) : SlotKind :=
  match ((slotsOf c.ctx.head c.plane).filter fun x => x.2.1 == n).getLast? with
  | some x => x.2.2
  | none => (c.slot n).fillKind

/-- How the slot's words will be read by a command issued now: by the kind of a fill still queued for it, else as they
stand. -/
def Core.kindOf (c : Core) (n : Fin 4) : SlotKind :=
  match ((slotsOf c.ctx.head c.plane).filter fun x => x.2.1 == n).getLast? with
  | some x => x.2.2
  | none => (c.slot n).kind

/-- The command at the head of the plane-engine queue claims its slot (R187, R188): a fill needs slot HEAD free. A command that
updates the head slot takes slot HEAD - 1 of this moment, also where the fill before it was cancelled (DESIGN CHOICE, log entry 90). -/
def Core.claimHead (c : Core) : Core :=
  match c.plane with
  | [] => c
  | x :: rest =>
    match x.op.fills, x.slot with
    | some true, none =>
      let h := c.ctx.head
      if (c.slot h).st == .free then
        { (c.onSlot h fun _ => { st := .filling, kind := x.kind, fillKind := x.kind }).updCtx (fun k => { k with head := h + 1 }) with
          plane := { x with slot := some h } :: rest }
      else c
    | some false, none => { c with plane := { x with slot := some (c.ctx.head - 1) } :: rest }
    | _, _ => c

/-! ## Gangs (R184 to R186) -/

/-- The gang of a core: its index and its members in rank order (R160). -/
def Launch.gangOf (l : Launch) (i : Nat) : Option (Nat × List Nat) :=
  (l.groups.find? fun g => g.2.kind == 1 && g.2.members.contains i).map fun g => (g.1, g.2.members)

/-- The members of a core's gang that have not exited, in rank order (R186). -/
def State.gang (s : State) (i : Nat) : List Nat :=
  match s.launchOf i with
  | none => []
  | some l => (((l.gangOf i).map (·.2)).getD []).filter fun m => (s.at m).launch == some l.record.seq && (s.at m).phase != .exited

/-- `MPROG` (R192). -/
def execMprog (h : Hd) (prog : BitVec 53) (s : State) : Out :=
  s.issue96 h fun s => done (s.upd fun c => c.updCtx fun k => { k with prog := prog })

/-- `MGANG` (R184). -/
def execMgang (h : Hx) (o1 : SReg) (s : State) : Out :=
  s.issue128 h [] fun s => do
    let _ ← s.groupOf (s.core.getS o1) [1] true
    done (if s.core.ctx.armed then s else
      s.upd fun c => { c.updCtx (fun k => { k with armed := true }) with arrivals := c.arrivals + 1 })

/-! ## Issue of `MMA` and `MREC` (R190, R193) -/

/-- The tags of `.pp` operands (R180). -/
def ppTags : List Nat := [0x21, 0x20, 0x22, 0x12, 0x11]

/-- Whether an operand has `n` planes and, in layout 1, a stride that holds its chunks (R181, R182). -/
def Handle.planesOk (h : Handle) (n : Nat) : Bool :=
  n ≤ h.planes.toNat + 1 && (h.layout != 1 || 8 * (h.planes.toNat + 1) * h.chunks ≤ h.stride1.toNat)

/-- What `MMA` accepts of its operands (R180, R181, R182, R183, R190). -/
def mmaAccepts (mode : MmaMode) (sp : Bool) (pa pb : Nat) (ha hb : Handle) : List (Nat × Handle × Accept) :=
  match mode with
  | .pp => [(1, ha, { tags := some ppTags, layouts := some [1], shape := ha.planesOk pa && ha.ext 1 ≤ 64 }),
            (2, hb, { tags := some ppTags, layouts := some (if sp then [3] else [1]), shape := hb.planesOk pb && hb.ext 1 ≤ 64 })]
  | .res => [(1, ha, { tags := some [0x30], layouts := some [2], shape := ha.ext 1 ≤ 64 }),
             (2, hb, { tags := some [0x30], layouts := some [2], shape := hb.ext 1 ≤ 64 })]
  | _ => [(1, ha, { tags := some ieeeTags, shape := ha.ext 1 ≤ 64 }), (2, hb, { tags := some ieeeTags, shape := hb.ext 1 ≤ 64 })]

/-- The extents of the bytes that an operand of `n` planes is read from (R182, R183, R190, R296). -/
def Handle.readExtents (h : Handle) (n : Nat) : List (Nat × Nat) :=
  if h.ext 0 = 0 || h.ext 1 = 0 then []
  else if h.layout = 1 || h.layout = 3 then
    let p := h.planes.toNat + 1
    let k := h.chunks
    let tail := h.ext 1 * k
    [(h.start, (h.ext 1 - 1) * h.stride1.toNat + (k - 1) * 8 * p + 8 * n)]
      ++ (if h.isBlock then [(h.start + h.footprint, (if h.layout = 3 then 32 else 16) * tail)] else [])
      ++ (if h.layout = 3 then [(h.start + h.footprint + h.stripe, 16 * tail)] else [])
  else [(h.start, (h.ext 1 - 1) * h.stride1.toNat + h.span (h.ext 0))]

/-- Issue a gang operation (R184, R187, R188, R190): its checks in order, then it is staged in the queue. -/
def State.gangIssue (s : State) (op : PlaneOp) (o1 o2 : HReg) (o3 : SReg) (acc : List (Nat × Handle × Accept)) (eight sameFmt : Bool)
    (pa pb : Nat) : Run (State × Option Word) := do
  let c := s.core
  let ha := c.getH o1
  let hb := c.getH o2
  let grp ← s.groupOf (c.getS o3) [1] true
  need c.ctx.armed (illegal 12 s) s
  orTrap (judge acc) s
  need (!sameFmt || hb.fmt == ha.fmt) (fmtTrap 2 hb 0) s
  need (!eight || grp.members.length == 8) (fmtTrap 1 ha 4) s
  need (hb.ext 0 == ha.ext 0) (fmtTrap 2 hb 4) s
  orTrap (c.padTraps (ha.readExtents pa ++ hb.readExtents pb)) s
  let x : PlaneCmd := { op := op, pc := c.ctx.pc, ha := ha, hb := hb, gang := (c.getS o3).toNat, need := c.pendSeq, order := c.order,
                        slot := none, started := false, old := {} }
  match op.fills with
  | some false =>
    need (c.claimed != 0) (starveTrap 4 c.lastSlot) s
    need (c.fillKindOf c.lastSlot == x.kind) (fmtTrap 1 ha 6) s
  | _ => need (c.claimed < 4) (starveTrap 6 (c.lastSlot + 1)) s
  s.hold [ha, hb]
  if 2 ≤ c.plane.length then .error (.stall s)
  else
    done (s.setCore ({ c.updCtx (fun k => { k with armed := false }) with plane := c.plane ++ [x], order := c.order + 1 }).claimHead)

/-- `MMA` (R190). -/
def execMma (h : Hx) (o1 o2 : HReg) (o3 : SReg) (mode : MmaMode) (acc sp : Bool) (pa pb : BitVec 4) (s : State) : Out :=
  s.issue128 h [(0, o1), (1, o2)] fun s =>
    let na := pa.toNat + 1
    let nb := pb.toNat + 1
    s.gangIssue (.mma mode acc sp pa pb) o1 o2 o3 (mmaAccepts mode sp na nb (s.core.getH o1) (s.core.getH o2)) (mode == .res)
      (mode != .pp && mode != .res) na nb

/-- `MREC` (R193). -/
def execMrec (h : Hx) (o1 o2 : HReg) (o3 : SReg) (ef : EF) (s : State) : Out :=
  s.issue128 h [(0, o1), (1, o2)] fun s =>
    let ha := s.core.getH o1
    let hb := s.core.getH o2
    s.gangIssue (.mrec ef s.core.ctx.prog) o1 o2 o3
      [(1, ha, { tags := some [efTag ef], shape := ha.ext 1 ≤ 64 }), (2, hb, { tags := some [efTag ef], shape := hb.ext 1 ≤ 64 })]
      false false 1 1

/-! ## Operands (R181 to R183) -/

/-- The significand of `n` planes (R181). -/
def planeVal (n : Nat) (ws : List Nat) (k : Nat) : Int :=
  (List.range n).foldl (fun v p => if bitAt (ws.getD p 0) k then
    v + (if n = 1 then (1 : Int) else if p + 1 = n then -((2 ^ p : Nat) : Int) else ((2 ^ p : Nat) : Int)) else v) 0

/-- The `n` plane words of a chunk of a line (R182, R183). -/
def Core.planeWords (c : Core) (veil : List (Nat × Byte)) (h : Handle) (n l ch : Nat) : List Nat :=
  (List.range n).map fun p => ofBytesLE (c.seen veil (h.start + l * h.stride1.toNat + ch * 8 * (h.planes.toNat + 1) + 8 * p) 8)

/-- The significands of a chunk of layout 3 in dense order (R183). -/
def denseChunk (vals : List Int) (map : List Nat) : List Int :=
  (List.range 32).flatMap fun b =>
    let m := getD' 0 map (b / 2) / 16 ^ (b % 2) % 16
    let on := bitsSet 4 m
    (List.range 4).map fun k =>
      if on[0]? == some k then vals.getD (2 * b) 0 else if on[1]? == some k then vals.getD (2 * b + 1) 0 else 0

/-- A line of a hatched operand over `n` planes: significands and one scale byte per block of 4, 0 for an INT format
(R180, R182, R183). -/
def Core.hatchLine (c : Core) (veil : List (Nat × Byte)) (h : Handle) (n l : Nat) : List Int × List Nat :=
  let sp := h.layout = 3
  let per := (List.range h.chunks).map fun ch =>
    let ws := c.planeWords veil h n l ch
    let vals := (List.range 64).map (planeVal n ws)
    let at_ := l * h.chunks + ch
    let sc := if h.isBlock then (c.seen veil (h.start + h.footprint + (if sp then 32 else 16) * at_) (if sp then 32 else 16)).map (·.toNat)
      else List.replicate (if sp then 32 else 16) 0
    (if sp then denseChunk vals ((c.seen veil (h.start + h.footprint + h.stripe + 16 * at_) 16).map (·.toNat)) else vals, sc)
  ((per.flatMap (·.1)).take (h.ext 0), per.flatMap (·.2))

/-- A line of an operand of whole elements in layout 0 or 2: element bits. -/
def Core.plainLine (c : Core) (veil : List (Nat × Byte)) (h : Handle) (l : Nat) : List Nat :=
  elemsOf h.nib (h.ext 0) (c.seen veil (h.start + l * h.stride1.toNat) (h.span (h.ext 0)))

/-! ## Accumulation (R145, R146) -/

/-- A word with the exceptions its formation raised. -/
abbrev Cell := BitVec 72 × SlotFlags

/-- `.pp` over INT formats: each 64-element chunk exactly, saturating (R145). -/
def ppInt (acc : BitVec 72) (a b : List Int) : Cell :=
  ((chunksOf 64 a.length a).zip (chunksOf 64 b.length b)).foldl (fun r p =>
    if accSat r.1 then r
    else
      let y := accOfInt (accToInt r.1 + ((p.1.zip p.2).map fun x => x.1 * x.2).foldl (· + ·) 0)
      (y.1, { r.2 with ovf := r.2.ovf || y.2 })) (acc, {})

/-- `.pp` over block formats: each block of 4 exactly, with rne56 per block (R145). -/
def ppBlock (acc : FV) (a b : List Int × List Nat) : FV × Fl :=
  (List.range (ceilDiv a.1.length 4)).foldl (fun r k =>
    let sa := a.2.getD k 0
    let sb := b.2.getD k 0
    if sa = 0x80 || sb = 0x80 then (.dnan, r.2)
    else
      let t := (((a.1.drop (4 * k)).take 4).zip ((b.1.drop (4 * k)).take 4)).map fun x => x.1 * x.2
      let v := t.foldl (· + ·) 0
      let y := addExact .rne r.1 (.fin (v < 0) v.natAbs (sval 8 sa + sval 8 sb))
      ((rne56 y.1).1, r.2 ||| y.2)) (acc, 0)

/-- `.fl`: rne56 per step (R145). Where the accumulator and the factors are NaNs, the accumulator's stays here and in `.wide`, while `.ieee`
takes a factor's, as the fused multiply-add of R133 does (DESIGN CHOICE, log entry 112). -/
def dotFl (acc : FV) (a b : List FV) : FV × Fl :=
  (a.zip b).foldl (fun r x =>
    let p := mulExact x.1 x.2
    let y := addExact .rne r.1 p.1
    let z := rne56 y.1
    (z.1, r.2 ||| p.2 ||| y.2 ||| z.2)) (acc, 0)

/-- `.ieee`: one fused multiply-add per step in the operands' format (R145). -/
def dotIeee (f : FFmt) (acc : FV) (a b : List FV) : FV × Fl :=
  (a.zip b).foldl (fun r x => let y := f.fma .rne false false x.1 x.2 r.1; (y.1, r.2 ||| y.2)) (acc, 0)

/-- `.wide`: each block of 4 products exactly, rne56 per block; only NV is recorded (R145, R189). -/
def dotWide (acc : FV) (a b : List FV) : FV × Fl :=
  (chunksOf 4 a.length (a.zip b)).foldl (fun r blk =>
    let ps := blk.map fun x => mulExact x.1 x.2
    let bs := (ps.drop 1).foldl (fun q p => let y := addExact .rne q.1 p.1; (y.1, q.2 ||| p.2 ||| y.2)) (ps.headD (.zero false, 0))
    let y := addExact .rne r.1 bs.1
    ((rne56 y.1).1, r.2 ||| ((bs.2 ||| y.2) &&& fNV))) (acc, 0)

/-- The residue modulus of a channel (R307). -/
def modulus (c : Nat) : Nat := [256, 255, 253, 251, 247, 241, 239, 233].getD c 256

/-- `.res`: modulo the channel's modulus (R145). -/
def dotRes (m acc : Nat) (a b : List Nat) : Nat := (a.zip b).foldl (fun r x => (r + x.1 % m * (x.2 % m)) % m) (acc % m)

/-- Rows of an operand that the engine reads: lines below EXT1. -/
def Handle.rows (h : Handle) : List Nat := List.range (min 64 (h.ext 1))

/-- The words of a slot from a function of row and column inside the operands' edges; +0 outside (R120, R190). -/
def tileWords (rows cols : Nat) (f : Nat → Nat → Cell) : List (BitVec 72) × SlotFlags :=
  let cells := (List.range 4096).map fun k => if k / 64 < rows && k % 64 < cols then f (k / 64) (k % 64) else (0#72, {})
  (cells.map (·.1), cells.foldl (fun a x => a.or x.2) {})

/-- A word of a slot as it stands. -/
def Slot.word (x : Slot) (i j : Nat) : BitVec 72 := x.words.getD (64 * i + j) 0

/-- A float word with its exceptions. -/
def floatCell (x : FV × Fl) : Cell := (accOfFV x.1, slotFlags x.2 false)

/-- The initial integer of an integer accumulation: the present word, of a free value where `EPI` keep left a float. -/
def Slot.intWord (x : Slot) (i j : Nat) : BitVec 72 :=
  if x.kind == .integer then x.word i j else (accOfInt (Config.keptWord (x.word i j)).toInt).1

/-- The kind of the words that `MMA` forms when A is read through handle `ha`: A is that of the lowest member, whose format decides with the
member's own B (R120, R180). -/
def PlaneCmd.kindFrom (x : PlaneCmd) (ha : Handle) : SlotKind :=
  match x.op with
  | .mma MmaMode.pp _ _ _ _ => if ha.isBlock || x.hb.isBlock then .float else .integer
  | _ => x.kind

/-- The words that `MMA` forms on a slice (R190): A from `la`, whose command `xa` staged it and in whose format it is read (R120), B from
the core's own. R185 does not compare the formats; where they differ, the fused multiply-add of `.ieee` is B's (DESIGN CHOICE, log entry
111). -/
def mmaWords (la : Core) (xa : PlaneCmd) (c : Core) (x : PlaneCmd) (chan : Nat) : List (BitVec 72) × SlotFlags :=
  let ha := xa.ha
  let hb := x.hb
  let cols := hb.ext 1
  match x.op with
  | .mma mode acc _ pa pb =>
    match mode with
    | .pp =>
      let as := ha.rows.map (la.hatchLine xa.veil ha (pa.toNat + 1))
      let bs := hb.rows.map (c.hatchLine x.veil hb (pb.toNat + 1))
      tileWords (ha.ext 1) cols fun i j =>
        let a := as.getD i ([], [])
        let b := bs.getD j ([], [])
        if x.kindFrom ha == .integer then ppInt (if acc then x.old.intWord i j else 0) a.1 b.1
        else floatCell (ppBlock (if acc then accToFV (x.old.word i j) else .zero false) a b)
    | .res =>
      let as := x.ha.rows.map (c.plainLine x.veil x.ha)
      let bs := hb.rows.map (c.plainLine x.veil hb)
      tileWords (x.ha.ext 1) cols fun i j =>
        (BitVec.ofNat 72 (dotRes (modulus chan) (if acc then field (x.old.word i j).toNat 0 56 else 0) (as.getD i []) (bs.getD j [])), {})
    | m =>
      let f := tagFFmt hb.fmt.toNat
      let as := ha.rows.map fun l => (la.plainLine xa.veil ha l).map (tagFFmt ha.fmt.toNat).decode
      let bs := hb.rows.map fun l => (c.plainLine x.veil hb l).map f.decode
      tileWords (ha.ext 1) cols fun i j =>
        let a := as.getD i []
        let b := bs.getD j []
        let v0 := if acc then accToFV (x.old.word i j) else .zero false
        if m == .wide then floatCell (dotWide v0 a b)
        else if m == .ieee || hb.fmt == 0x01 then
          let s0 := if acc then f.convert .rne v0 else (v0, 0)
          let r := dotIeee f s0.1 a b
          floatCell (r.1, s0.2 ||| r.2)
        else floatCell (dotFl v0 a b)
  | _ => ([], {})

/-- Fields of an operation of a microprogram (R192). -/
structure RecOp where
  opc : Nat
  dst : Bool
  x : Nat
  y : Nat
  cnd : Nat
  deriving DecidableEq, Repr

/-- The operations present in a recurrence register. -/
def recOps (prog : Nat) : List RecOp :=
  ((List.range 4).map fun i => field prog (12 * i) 12).filter (bitAt · 0) |>.map fun o =>
    { opc := field o 1 3, dst := bitAt o 4, x := field o 5 2, y := field o 7 2, cnd := field o 9 3 }

/-- The compare of a select (R192, R193). -/
def recCond : Nat → FCond
  | 0 => .lt | 1 => .le | 2 => .gt | 3 => .ge | 4 => .eq | _ => .ne

/-- One operation on float bits (R193). -/
def recFloat (f : FFmt) (o : RecOp) (x y : Nat) : Nat × Fl :=
  match o.opc with
  | 0 => ieeeArith .add f .rne x y | 1 => ieeeArith .sub f .rne x y | 2 => ieeeArith .mul f .rne x y
  | 3 => ieeeArith .min f .rne x y | 4 => ieeeArith .max f .rne x y
  | 5 =>
    let a := f.decode x
    let b := f.decode y
    (if !a.isNaN && !b.isNaN && fcondHolds (recCond o.cnd) a b then x else y, cmpFlags false a b)
  | 6 => ieeeArith .neg f .rne x y
  | _ => ieeeArith .abs f .rne x y

/-- One operation on integers of width `w`, and whether it saturated (R193). -/
def recInt (w : Nat) (o : RecOp) (x y : Int) : Int × Bool :=
  let r : Int := match o.opc with
    | 0 => x + y | 1 => x - y | 2 => x * y | 3 => min x y | 4 => max x y
    | 5 => if (match recCond o.cnd with | .lt => x < y | .le => x ≤ y | .gt => y < x | .ge => y ≤ x | .eq => x = y | _ => x ≠ y : Bool) then x else y
    | 6 => -x
    | _ => x.natAbs
  let c := satInt r (-(2 ^ (w - 1) : Nat)) ((2 ^ (w - 1) : Nat) - 1)
  (c, c != r)

/-- Run a microprogram on S, a, b; T starts at `zero`. -/
def recStep {α β : Type} (ops : List RecOp) (zero : α) (run : RecOp → α → α → α × β) (a b : α) (s : α × List β) : α × List β :=
  let r := ops.foldl (fun (r : (α × α) × List β) o =>
    let src (k : Nat) : α := match k with | 0 => r.1.1 | 1 => a | 2 => b | _ => r.1.2
    let y := run o (src o.x) (src o.y)
    (if o.dst then (r.1.1, y.1) else (y.1, r.1.2), y.2 :: r.2)) ((s.1, zero), s.2)
  (r.1.1, r.2)

/-- The words that `MREC` forms on a slice (R193). An integer state beyond 56 bits saturates with CLS 3 and leaves OVF as the microprogram
left it: R146 does not say what the word holds (DESIGN CHOICE, log entry 112). -/
def mrecWords (la : Core) (xa : PlaneCmd) (c : Core) (x : PlaneCmd) : List (BitVec 72) × SlotFlags :=
  match x.op with
  | .mrec ef prog =>
    let ha := xa.ha
    let ops := recOps prog.toNat
    let init := field prog.toNat 48 2
    let w := 4 * efNib ef
    let as := ha.rows.map (la.plainLine xa.veil ha)
    let bs := x.hb.rows.map (c.plainLine x.veil x.hb)
    tileWords (ha.ext 1) (x.hb.ext 1) fun i j =>
      let kb := (as.getD i []).zip (bs.getD j [])
      if ef.isInt then
        let lo : Int := -(2 ^ (w - 1) : Nat)
        let hi : Int := (2 ^ (w - 1) : Nat) - 1
        let s0 : Int := match init with | 0 => 0 | 1 => hi | 2 => lo | _ => satInt (accToInt (x.old.intWord i j)) lo hi
        let r := kb.foldl (fun r p => recStep ops 0 (recInt w) (sval w p.1) (sval w p.2) r) (s0, [])
        ((accOfInt r.1).1, { ovf := r.2.any id })
      else
        let f := tagFFmt (efTag ef)
        let s0 := match init with
          | 0 => 0 | 1 => f.encode (.inf false) | 2 => f.encode (.inf true)
          | _ => f.encode (f.convert .rne (accToFV (x.old.word i j))).1
        let r := kb.foldl (fun r p => recStep ops 0 (recFloat f) p.1 p.2 r) (s0, [])
        floatCell (f.decode r.1, r.2.foldl (· ||| ·) 0)
  | _ => ([], {})

/-! ## What a command has to wait for (R121, R201) -/

/-- Bytes that `MHATCH` writes (R119). -/
def Handle.hatchBytes (ha : Handle) : Nat := 80 * ha.lines * ceilDiv (ha.ext 0) 64

/-- Bytes that `MUNHATCH` writes (R198). -/
def Handle.unhatchBytes (ha : Handle) : Nat :=
  (ha.lines * ha.ext 0 * ha.nib + 1) / 2 + if ha.isBlock then ha.lines * ceilDiv (ha.ext 0) 4 else 0

/-- The scratchpad bytes that a plane-engine command reads. -/
def PlaneCmd.reads (x : PlaneCmd) : List (Nat × Nat) :=
  match x.op with
  | .mma _ _ _ pa pb => x.ha.readExtents (pa.toNat + 1) ++ x.hb.readExtents (pb.toNat + 1)
  | .mrec _ _ => x.ha.readExtents 1 ++ x.hb.readExtents 1
  | .hatch | .unhatch => [(x.hb.start, x.hb.bytes)]

/-- The scratchpad bytes that a plane-engine command writes (R119, R198). -/
def PlaneCmd.writes (x : PlaneCmd) : List (Nat × Nat) :=
  match x.op with
  | .hatch => [(x.ha.start, x.hb.hatchBytes)]
  | .unhatch => [(x.ha.start, x.hb.unhatchBytes)]
  | _ => []

/-- The scratchpad bytes that a row-statistics command writes (R122). -/
def StatCmd.writes (x : StatCmd) : List (Nat × Nat) := [(x.h.start, 768)]

/-- The scratchpad bytes that an etcher command writes, row by row (R195, R299). -/
def EpiCmd.writes (x : EpiCmd) : List (Nat × Nat) :=
  if x.keep || !x.h.pad then []
  else (List.range (min 64 (x.h.ext 1))).flatMap fun i =>
    (x.h.start + i * x.h.stride1.toNat, if x.h.layout = 1 then 8 * (x.h.planes.toNat + 1) else x.h.span (min 64 (x.h.ext 0)))
      :: if x.h.isBlock then [(x.h.start + x.h.footprint + x.h.scaleOff i 0, 16)] else []

/-- A command of a core's engines: its order, the ring slot it acts on, the scratchpad bytes that it writes. -/
structure EngineUse where
  order : Nat
  slot : Option (Fin 4)
  writes : List (Nat × Nat)
  deriving DecidableEq, Repr

/-- What queued etcher commands use, from a slot on. -/
def etchUses : Fin 4 → List EpiCmd → List EngineUse
  | _, [] => []
  | t, x :: xs => { order := x.order, slot := some t, writes := x.writes } :: etchUses (if x.keep then t else t + 1) xs

/-- What the commands of a core's plane engine, row-statistics engine and etcher use. -/
def Core.engineUses (c : Core) : List EngineUse :=
  let slots := slotsOf c.ctx.head c.plane
  (c.plane.map fun x => { order := x.order, slot := (slots.find? (·.1 == x.order)).map (·.2.1), writes := x.writes })
    ++ (c.stats.map fun x => { order := x.order, slot := some x.slot, writes := x.writes }) ++ etchUses c.ctx.tail c.etch

/-- Whether a command of order `o`, on a slot, that reads or writes some scratchpad bytes may begin: no earlier command of the core acts on the
same slot (R121) or writes any of those bytes (R201; log entry 91). -/
def Core.mayBegin (c : Core) (o : Nat) (slot : Option (Fin 4)) (touched : List (Nat × Nat)) : Bool :=
  c.engineUses.all fun e => o ≤ e.order ||
    !((slot.isSome && e.slot == slot) || e.writes.any fun z => touched.any fun y => overlap z.1 z.2 y.1 y.2)

/-! ## Start and completion of gang operations (R185, R187, R190, R202) -/

/-- A gang operation at the head of the queue that has not started and may (R185). -/
def Core.readyOp (c : Core) : Option PlaneCmd :=
  match c.plane with
  | x :: _ => if x.op.fills.isSome && !x.started && x.slot.isSome && c.arrivals != 0 && c.landed x.need
        && c.mayBegin x.order x.slot x.reads then some x else none
  | [] => none

/-- What the members of a gang must agree on (R185). -/
def PlaneCmd.sig (x : PlaneCmd) : PlaneOp × Nat := (x.op, x.ha.ext 0)

/-- Give back the slot a command claimed: a fill's becomes free with HEAD stepped back, an update's gets its old words
(R185, R200). -/
def Core.unclaim (c : Core) (x : PlaneCmd) : Core :=
  match x.slot with
  | none => c
  | some n =>
    if x.op.fills == some true then (c.onSlot n fun _ => {}).updCtx fun k => { k with head := k.head - 1 }
    else if x.started then c.onSlot n fun _ => x.old
    else c

/-- Etcher and row-statistics commands that wait on a fill that is no more are cancelled (R200). -/
def Core.orphans (c : Core) (o : Nat) (n : Fin 4) : Core :=
  let etchAt : Fin 4 → List EpiCmd → List EpiCmd := fun t l =>
    (l.foldl (fun (r : Fin 4 × List EpiCmd) x =>
      (if x.keep then r.1 else r.1 + 1, if o < x.order && r.1 == n then r.2 else r.2 ++ [x])) (t, [])).2
  { c with stats := c.stats.filter (fun x => !(o < x.order && x.slot == n)), etch := etchAt c.ctx.tail c.etch }

/-- Cancel the command at the head of the queue. -/
def Core.cancelHead (c : Core) : Core :=
  match c.plane with
  | [] => c
  | x :: rest =>
    let c1 := { c.unclaim x with plane := rest }
    let c2 := if x.op.fills == some true then c1.orphans x.order (x.slot.getD 0) else c1
    c2.claimHead

/-- The gang-mismatch trap of a member (R185): imprecise, at its next boundary. -/
def mismatch (pc : Word) : Pending :=
  { src := 3, cmdpc := pc, trap := { cause := .format, detail := fmtDetail 0 0 6, addr := pc.toNat }, eflt := false }

/-- `MMA_START` (R185): the operation of a core's gang starts on every slice, or is cancelled when the members disagree. -/
def execMmaStart (c : Nat) (s : State) : Out :=
  let live := s.gang c
  match live.head?.bind fun m => (s.at m).readyOp with
  | none => .next s
  | some x0 =>
    if !live.all (fun m => (s.at m).readyOp.isSome) then .next s
    else if live.all fun m => ((s.at m).readyOp.map (·.sig)) == some x0.sig then
      .next (live.foldl (fun s m => s.on m fun k => { k with arrivals := k.arrivals - 1, plane := match k.plane with
        | x :: rest => { x with started := true, old := k.slot (x.slot.getD 0) } :: rest
        | [] => [] }) s)
    else
      .next (live.foldl (fun s m => s.on m fun k =>
        { k.cancelHead with arrivals := k.arrivals - 1, faults := k.faults ++ [mismatch ((k.plane.head?.map (·.pc)).getD 0)] }) s)

/-- The running operation of a core. -/
def Core.running (c : Core) : Option PlaneCmd :=
  match c.plane with
  | x :: _ => if x.started then some x else none
  | [] => none

/-- The operation of a core's gang completes on every slice: the slots become full (R187). A checksum that is made to report
leaves the words unused and requests a rollback (R202, R330). -/
def State.gangComplete (s : State) (c : Nat) (want : PlaneOp → Bool) : State :=
  let live := s.gang c
  match live.head? with
  | none => s
  | some lead =>
    match (s.at lead).running with
    | none => s
    | some x0 =>
      if !want x0.op || !live.all (fun m => (s.at m).running.isSome) then s
      else
        let res := x0.kind == .residue
        match if res then none else live.find? fun m => bitAt (s.at m).sys.inj.toNat 2 with
        | some m => (s.on m fun k => k.updSys (·.reported 2)).rollback m (.core m)
        | none =>
          let la := s.at lead
          live.foldl (fun s m => s.on m fun k =>
            match k.plane with
            | [] => k
            | x :: rest =>
              let n := x.slot.getD 0
              let w := match x.op with
                | .mrec _ _ => mrecWords la x0 k x
                | _ => mmaWords la x0 k x (m % 8)
              ({ k.onSlot n fun y => { y with st := .full, kind := x.kindFrom x0.ha, flags := y.flags.or w.2, words := w.1 } with
                 plane := rest }).claimHead) s

/-- `MMA_COMPLETE` (R190). -/
def execMmaComplete (c : Nat) (s : State) : Out :=
  .next (s.gangComplete c fun op => match op with | .mma _ _ _ _ _ => true | _ => false)

/-- `MREC_COMPLETE` (R193). -/
def execMrecComplete (c : Nat) (s : State) : Out :=
  .next (s.gangComplete c fun op => match op with | .mrec _ _ => true | _ => false)

/-! ## Hatching (R118, R119, R198) -/

/-- The handle that `MHATCH` leaves (R119). -/
def Handle.hatched (hd ha : Handle) : Handle :=
  { hd with fmt := 0x11, layout := 1, planes := 7, block := 2, ext0 := ha.ext0, ext1 := ha.ext1, ext2 := ha.ext2, ext3 := ha.ext3,
            stride1 := .ofNat 32 (64 * ceilDiv (ha.ext 0) 64), tile := 0xFF }

/-- STRIDE1 of an unhatched operand: EXT0 × e (R198). -/
def Handle.lineStep (ha : Handle) : Nat :=
  ha.ext 0 * ha.nib / 2 + if ha.ext 0 * ha.nib % 2 = 1 && Config.strideUp (ha.ext 0) then 1 else 0

/-- The handle that `MUNHATCH` leaves (R198). -/
def Handle.unhatched (hd ha : Handle) : Handle :=
  { hd with fmt := ha.fmt, layout := 0, planes := 0, block := if ha.isBlock then 2 else 0, ext0 := ha.ext0, ext1 := ha.ext1,
            ext2 := ha.ext2, ext3 := ha.ext3, stride1 := .ofNat 32 ha.lineStep, tile := 0xFF }

/-- Issue a hatch command (R117, R119, R198): the destination handle takes its new fields at issue, where the next
instruction finds them. -/
def State.hatchIssue (s : State) (op : PlaneOp) (o1 o2 : HReg) (acc : Accept) (src dst : Nat) (upd : Handle → Handle → Handle) :
    Run (State × Option Word) := do
  let c := s.core
  let hd := c.getH o1
  let ha := c.getH o2
  orTrap (judge [(1, hd, { tags := none, layouts := none }), (2, ha, acc)]) s
  orTrap (c.padTraps [(ha.start, src), (hd.start, dst)]) s
  s.hold [hd, ha]
  if 2 ≤ c.plane.length then .error (.stall s)
  else
    let x : PlaneCmd := { op := op, pc := c.ctx.pc, ha := hd, hb := ha, gang := 0, need := c.pendSeq, order := c.order, slot := none,
                          started := false, old := {} }
    done (s.setCore { c.setH o1 (upd hd ha) with plane := c.plane ++ [x], order := c.order + 1 })

/-- `MHATCH` (R119). -/
def execMhatch (h : Hx) (o1 o2 : HReg) (s : State) : Out :=
  s.issue128 h [(0, o1), (1, o2)] fun s =>
    let ha := s.core.getH o2
    s.hatchIssue .hatch o1 o2 { tags := some [0x10, 0x11] } ha.bytes ha.hatchBytes Handle.hatched

/-- `MUNHATCH` (R198). -/
def execMunhatch (h : Hx) (o1 o2 : HReg) (s : State) : Out :=
  s.issue128 h [(0, o1), (1, o2)] fun s =>
    let ha := s.core.getH o2
    s.hatchIssue .unhatch o1 o2 { tags := some ppTags, layouts := some [1], shape := ha.planesOk 1 } ha.bytes ha.unhatchBytes
      Handle.unhatched

/-- A line of `MHATCH`'s source as significands and scales (R118). -/
def Core.hatchSource (c : Core) (veil : List (Nat × Byte)) (ha : Handle) (l : Nat) : List Int × List Nat :=
  let es := elemsOf 2 (ha.ext 0) (c.seen veil (ha.start + ha.lineOff l) (ha.ext 0))
  if ha.fmt = 0x11 then
    (es.map (sval 8), (c.seen veil (ha.start + ha.footprint + ha.scaleOff l 0) (ceilDiv (ha.ext 0) 4)).map (·.toNat))
  else
    let bs := (chunksOf 4 es.length (es.map mk8Decode)).map (blockConvert .rne 8)
    (bs.flatMap fun b => b.2.1.map (sval 8), bs.map (·.1))

/-- Bit `p` of significands as a 64-bit word. -/
def planeWord (p : Nat) (vs : List Int) : Nat :=
  packFields (vs.map fun v => (1, ofSval 64 v / 2 ^ p % 2))

/-- What `MHATCH` writes, from offset 0 (R119). -/
def Core.hatchOut (c : Core) (veil : List (Nat × Byte)) (ha : Handle) : List Byte :=
  let k := ceilDiv (ha.ext 0) 64
  let ls := (List.range ha.lines).map (c.hatchSource veil ha)
  ls.flatMap (fun l => (List.range k).flatMap fun ch =>
      (List.range 8).flatMap fun p => bytesLE 8 (planeWord p ((l.1.drop (64 * ch)).take 64)))
    ++ ls.flatMap fun l => (List.range (16 * k)).map fun b => BitVec.ofNat 8 (l.2.getD b 0)

/-- What `MUNHATCH` writes, from offset 0 (R198). -/
def Core.unhatchOut (c : Core) (veil : List (Nat × Byte)) (ha : Handle) : List Byte :=
  let w := 4 * ha.nib
  let ls := (List.range ha.lines).map (c.hatchLine veil ha (ha.planes.toNat + 1))
  packElems ha.nib (ls.flatMap fun l => l.1.map (ofSval w))
    ++ if ha.isBlock then ls.flatMap fun l => (l.2.take (ceilDiv (ha.ext 0) 4)).map (BitVec.ofNat 8 ·) else []

/-- The bytes that a hatch command writes, with their addresses (R119, R198). -/
def Core.hatchCells (c : Core) (x : PlaneCmd) : List (Nat × Byte) :=
  cellsAt x.ha.start (if x.op == .hatch then c.hatchOut x.veil x.hb else c.unhatchOut x.veil x.hb)

/-- The hatch command at the head of a core's queue that may run. -/
def Core.readyHatch (c : Core) : Option PlaneCmd :=
  match c.plane with
  | x :: _ => if x.op.fills.isNone && c.landed x.need && c.mayBegin x.order none (x.reads ++ x.writes) then some x else none
  | [] => none

/-- A running hatch command writes the next `n` bytes of its result ahead of the others (R201); its own operands stay as they were. -/
def Core.hatchPart (n : Nat) (c : Core) (x : PlaneCmd) : Core :=
  let bs := ((c.hatchCells x).drop x.done).take n
  let c1 := c.engineWrite x.order bs
  { c1 with plane := match c1.plane with
      | y :: rest => { y with done := y.done + bs.length, veil := veilWith c.pad 0 0 bs y.veil } :: rest
      | [] => [] }

/-- `MHATCH_COMPLETE` (R198): the hatch command at the head of a core's queue writes its bytes. -/
def execMhatchComplete (c : Nat) (s : State) : Out :=
  let k := s.at c
  match k.readyHatch with
  | none => .next s
  | some x =>
    let k1 := k.engineWrite x.order ((k.hatchCells x).drop x.done)
    .next (s.put c ({ k1 with plane := k1.plane.drop 1 }).claimHead)

/-! ## Row statistics (R122, R197, R310) -/

/-- `RSTAT` (R122, R187, R310). -/
def execRstat (h : Hx) (o1 : HReg) (slot : BitVec 2) (s : State) : Out :=
  s.issue128 h [(0, o1)] fun s => do
    let c := s.core
    let hd := c.getH o1
    let n : Fin 4 := Fin.ofNat 4 slot.toNat
    orTrap (judge [(1, hd, { tags := some [0x02] })]) s
    orTrap (c.padTraps [(hd.start, 768)]) s
    need (c.slotLive n) (starveTrap 5 n) s
    need (c.kindOf n != .residue) (fmtTrap 1 hd 0) s
    s.hold [hd]
    if 2 ≤ c.stats.length then .error (.stall s)
    else
      done (s.setCore { c with stats := c.stats ++ [{ pc := c.ctx.pc, h := hd, slot := n, need := c.pendSeq, order := c.order }],
                               order := c.order + 1 })

/-- The value of a slot's word by its kind (R144). -/
def Slot.value (x : Slot) (i j : Nat) : FV :=
  if x.kind == .float then accToFV (x.word i j) else .ofInt (accToInt (x.word i j))

/-- The binary32 value that is no NaN of an index. -/
def nonNaN32 (v : Nat) : FV := (FFmt.mk 24 8).decode (v % 2 * 2 ^ 31 + v / 2 % 0x7F800001)

/-- The three statistics of a row (R122, R197), each before its rounding to binary32; `mixed` stands for a sum in
which infinities of both signs meet. R122 gives no starting value: the sum begins with column 0's value, so that a row of −0 sums to −0, the
sum of squares with +0 (DESIGN CHOICE, log entry 112). -/
def rowStats (mixed : FV) (vs : List FV) : FV × FV × FV :=
  match vs.find? (·.isNaN) with
  | some n => (n.quiet, n.quiet, n.quiet)
  | none =>
    let v0 := vs.headD (.zero false)
    let mx := (vs.drop 1).foldl (fun a v => (minMax true a v).1) v0
    let sum := (vs.drop 1).foldl (fun a v => (rne56 (addExact .rne a v).1).1) v0
    let sq := vs.foldl (fun a v => (rne56 (addExact .rne a (mulExact v v).1).1).1) (.zero false)
    (mx, if sum.isNaN then mixed else sum, sq)

/-- The number of a row-statistics command, by which a free value of it is named. -/
def Core.statName (c : Core) (x : StatCmd) : Nat := c.gen * 2 ^ 32 + x.order

/-- The 768 bytes of a gang's statistics over a slot, and the exceptions of their rounding (R122, R197); `name` names the command. -/
def State.statBytes (s : State) (live : List Nat) (n : Fin 4) (name : Nat) : List Byte × Fl :=
  let f : FFmt := ⟨24, 8⟩
  let rows := (List.range 64).map fun i =>
    rowStats (nonNaN32 (Config.rstatMixed name i)) (live.flatMap fun m => (List.range 64).map fun j => ((s.at m).slot n).value i j)
  let out (g : FV × FV × FV → FV) := rows.map fun r => f.convert .rne (g r)
  let all := out (·.1) ++ out (·.2.1) ++ out (·.2.2)
  (all.flatMap fun v => bytesLE 4 (f.encode v.1), all.foldl (fun a v => a ||| v.2) 0)

/-- Whether a core's `RSTAT` at the head of its queue may run (R121, R197, R201). -/
def Core.readyStat (c : Core) : Option StatCmd :=
  match c.stats with
  | x :: _ =>
    if (c.slot x.slot).st == .full && c.mayBegin x.order (some x.slot) x.writes then some x else none
  | [] => none

/-- The row-statistics command at the head of the queue of a gang's lowest member, with the gang, when it may run on every member and all name
the same slot (R197). -/
def State.readyStats (s : State) (c : Nat) : Option (List Nat × StatCmd) :=
  let live := s.gang c
  (live.head?.bind fun m => (s.at m).stats.head?).bind fun x =>
    if live.all fun m => (s.at m).readyStat.any fun y => y.slot == x.slot then some (live, x) else none

/-- The bytes of a row-statistics command. -/
def State.statOut (s : State) (live : List Nat) (x : StatCmd) : List Byte × Fl :=
  s.statBytes live x.slot ((s.at (live.headD 0)).statName x)

/-- A member's row-statistics command writes the next `n` bytes of its result ahead of the others (R201). -/
def Core.statPart (bs : List Byte) (n : Nat) (c : Core) : Core :=
  match c.stats with
  | [] => c
  | x :: rest =>
    let ws := ((cellsAt x.h.start bs).drop x.done).take n
    { c.engineWrite x.order ws with stats := { x with done := x.done + ws.length } :: rest }

/-- A member as the completion of its row-statistics command leaves it: the bytes not yet written, the flags (R197). -/
def Core.statDone (r : List Byte × Fl) (c : Core) : Core :=
  match c.stats with
  | [] => c
  | x :: rest => { (c.engineWrite x.order ((cellsAt x.h.start r.1).drop x.done)).onSlot x.slot
      (fun y => { y with flags := y.flags.or (slotFlags r.2 false) }) with stats := rest }

/-- A row-statistics command is cancelled on a member; one that names another slot than the lowest member's takes the mismatch trap (R197). -/
def Core.statOff (n : Fin 4) (c : Core) : Core :=
  match c.stats with
  | [] => c
  | x :: rest => { c with stats := rest, faults := if x.slot == n then c.faults else c.faults ++ [{ mismatch x.pc with src := 5 }] }

/-- `RSTAT_COMPLETE` (R197): it runs once for the gang; a member that names another slot takes the mismatch trap and the
command is cancelled on every member. -/
def execRstatComplete (c : Nat) (s : State) : Out :=
  let live := s.gang c
  match live.head?.bind fun m => (s.at m).stats.head? with
  | none => .next s
  | some x0 =>
    if !live.all (fun m => ((s.at m).stats.head?).isSome) then .next s
    else if !live.all (fun m => ((s.at m).stats.head?.map (·.slot)) == some x0.slot) then
      .next (live.foldl (fun s m => s.on m (Core.statOff x0.slot)) s)
    else if !live.all (fun m => (s.at m).readyStat.isSome) then .next s
    else .next (live.foldl (fun t m => t.on m (Core.statDone (s.statOut live x0))) s)

/-! ## `MWAIT` and `MABORT` (R199, R200) -/

/-- `MWAIT` (R199). -/
def execMwait (h : Hx) (s : State) : Out :=
  s.issue128 h [] fun s => do
    let s ← s.drained
    waitFor (s.core.plane.isEmpty && s.core.stats.isEmpty && s.core.etch.isEmpty) .engine s
    done s

/-- Stop the running operation of a member (R200). -/
def Core.stopRunning (c : Core) : Core := if c.running.isSome then c.cancelHead else c

/-- Cancel every command of the queue that has not started, the last first (R200); a hatch command that has written bytes has started. -/
def Core.abortQueue : Nat → Core → Core
  | 0, c => c
  | fuel + 1, c =>
    match c.plane.reverse with
    | [] => c
    | x :: rest =>
      if x.started || x.done != 0 then c
      else
        let n := ((slotsOf c.ctx.head c.plane).getLast?.map (·.2.1)).getD 0
        let c1 := { c.unclaim x with plane := rest.reverse }
        Core.abortQueue fuel (if x.op.fills == some true then c1.orphans x.order n else c1)

/-- `MABORT` (R200). -/
def execMabort (h : Hx) (s : State) : Out :=
  s.issue128 h [] fun s =>
    let i := s.cur.val
    let s := s.upd fun c => { (c.abortQueue c.plane.length).updCtx (fun k => { k with armed := false }) with arrivals := 0 }
    let s := if s.core.running.isSome then (s.gang i).foldl (fun s m => s.on m Core.stopRunning) s else s
    done s

end Sys2Proof.Machine
end

