-- ==== Sys2Proof/Machine/Engine.lean ====
section
/-! DEFINITION. How engines reach global memory: reads at the point of coherence, writes run by run, and stops at faults
(R125, R176, R196, R244, R248, R335, R384). Engine accesses are made in user mode. -/

namespace Sys2Proof.Machine

/-- What came of a stretch of an engine's work: done, stopped at a fault after `n` bytes, held back, or nothing moved but the state has
changed (other devices have been asked for bytes, or the launch is over). -/
inductive Moved where
  | ok (s : State)
  | stop (s : State) (t : Trap) (n : Nat)
  | hold
  | gone (s : State)
  deriving DecidableEq, Repr

/-- How a stretch ends that has no translation. -/
def NoPage.moved (s : State) : NoPage → Moved
  | .trap t => .stop s t 0
  | .away => .gone s

/-- Whether two neighbouring bytes belong to one run (R248): one 4 KiB zone, one kind of write. -/
def sameRun (kind : Nat → Bool) (a : Nat) : Bool := (a + 1) % 4096 != 0 && kind a == kind (a + 1)

/-- Cut bytes with their addresses into runs (R248). -/
def runsOf (kind : Nat → Bool) (cells : List (Nat × Byte)) : List (Nat × List Byte) :=
  cells.foldr (fun c r => match r with
    | (a, bs) :: rest => if a == c.1 + 1 && sameRun kind c.1 then (c.1, c.2 :: bs) :: rest else (c.1, [c.2]) :: r
    | [] => [(c.1, [c.2])]) []

/-- Log space of a run (R248). -/
def runSpace (n : Nat) : Nat := 16 + ceilDiv n 16 * 16

/-- The length so far of the run that a command's last logged write ends at a byte (R248): its logged writes follow one another. -/
def runSoFar (pos pa : Nat) (log : List LogEntry) : Nat :=
  let r := (log.filter (·.pos == pos)).foldl (init := (0, 0)) fun r e =>
    (e.pa + e.bytes.length, if e.pa == r.1 && e.pa % 4096 != 0 then r.2 + e.bytes.length else e.bytes.length)
  if r.1 == pa && pa % 4096 != 0 then r.2 else 0

/-- The log space that `n` more bytes at a byte take (R248): those that continue a run of the command make it longer. -/
def Core.runMore (c : Core) (pos pa n : Nat) : Nat :=
  let k := runSoFar pos pa c.log
  runSpace (k + n) - if k = 0 then 0 else runSpace k

/-- One run of an engine's writes (R125, R335, R248), translated: held at a part, performed in the L1, or logged at the command's place
in program order. -/
def State.engineWrites (s : State) (i pos : Nat) (hint : BitVec 4) (va pa : Nat) (bs : List Byte) : Moved :=
  let ps : List Piece := [(va, pa, bs.length)]
  let k := (s.at i).runMore pos pa bs.length
  if s.partHeld i va bs.length then .hold
  else if s.heldWrite i va bs.length then .ok (State.storeHeld i ps bs s hint)
  else if (s.at i).logFits k then .ok (s.on i fun c => { c with log := c.log ++ logWrites pos k ps bs hint })
  else .stop s (quotaTrap (s.at i) va) 0

/-- One run of an engine's writes: a race stops it at the element of `unit` bytes that meets a part (R339, R352); `n` bytes of the
command come before the run. -/
def State.engineStore (s : State) (i pos n unit : Nat) (hint : BitVec 4) (va : Nat) (bs : List Byte) : Moved :=
  match s.translate i { wr := true } va with
  | (s1, .error t) => t.moved s1
  | (s1, .ok (pa, _)) =>
    match s1.races i [(va, pa, bs.length)] with
    | none => s1.engineWrites i pos hint va pa bs
    | some r =>
      let k := (r.2 - va) - (n + (r.2 - va)) % max 1 unit
      if k = 0 then .stop s1 (raceTrap r) 0 else
      match s1.engineWrites i pos hint va pa (bs.take k) with
      | .ok s2 => .stop s2 (raceTrap r) k
      | m => m

/-- Runs of writes in order; `n` counts the bytes before them. -/
def State.engineStores (i pos unit : Nat) (hint : BitVec 4) : Nat → List (Nat × List Byte) → State → Moved
  | _, [], s => .ok s
  | n, (va, bs) :: rest, s =>
    match s.engineStore i pos n unit hint va bs with
    | .ok s1 => State.engineStores i pos unit hint (n + bs.length) rest s1
    | .stop s1 t k => .stop s1 t (n + k)
    | r => r

/-- An engine's write of bytes with their addresses, from the `done`-th on, in elements of `unit` bytes. -/
def State.engineOut (s : State) (i pos done : Nat) (cells : List (Nat × Byte)) (unit : Nat := 1) (hint : BitVec 4 := 0) : Moved :=
  State.engineStores i pos unit hint done (runsOf (fun a => s.heldWrite i a 1) (cells.drop done)) s

/-- Cut addresses into stretches of contiguous bytes in one 4 KiB zone. -/
def stretchesOf (as : List Nat) : List (Nat × Nat) :=
  as.foldr (fun a r => match r with
    | (b, n) :: rest => if b == a + 1 && (a + 1) % 4096 != 0 then (a, n + 1) :: rest else (a, 1) :: r
    | [] => [(a, 1)]) []

/-- One stretch of an engine's reads, at the point of coherence (R169, R239, R319): it waits for the core's own requests
that those bytes reach, and at a part (R335); `own` says whether it sees the core's logged stores. -/
def State.engineLoad (s : State) (own : Bool) (i va n : Nat) (hint : BitVec 4) : Moved × List Byte :=
  match s.translate i { rd := true } va with
  | (s1, .error t) => (t.moved s1, [])
  | (s1, .ok (pa, _)) =>
    if s1.partHeld i va n || s1.reached i (s1.at i).memq [(pa, n)] then (.hold, [])
    else match s1.enters i pa n hint with
      | .error (.gone s2) => (.gone s2, [])
      | .error (.stall s2) => (.gone s2, [])
      | .error _ => (.hold, [])
      | .ok s2 =>
        let s3 := s2.downgrade none pa n
        let bs := (s3.memFor i).read pa n
        (.ok s3, (List.range n).map fun k => match if own then loggedByte (s3.at i).log (pa + k) else none with
          | some b => b
          | none => bs.getD k 0)

/-- Stretches of reads in order, and what they read; `n` counts the bytes before them. -/
def State.engineLoads (own : Bool) (i : Nat) (hint : BitVec 4) : Nat → List (Nat × Nat) → State → Moved × List Byte
  | _, [], s => (.ok s, [])
  | n, (va, k) :: rest, s =>
    match s.engineLoad own i va k hint with
    | (.ok s1, bs) => let r := State.engineLoads own i hint (n + k) rest s1; (r.1, bs ++ r.2)
    | (.stop s1 t _, _) => (.stop s1 t n, [])
    | (r, _) => (r, [])

/-- The imprecise trap of a command that stopped and can resume (R384, R385). -/
def stopped (src pos : Nat) (pc : Word) (t : Trap) : Pending := { src := src, pos := pos, cmdpc := pc, trap := t, eflt := true }

end Sys2Proof.Machine
end

