-- ==== Sys2Proof/Machine/Etcher.lean ====
section
/-! DEFINITION. The etcher: `EPI` (R123 to R125, R187, R189, R195, R196, R299). -/

namespace Sys2Proof.Machine

/-! ## The program (R123, R124, R299) -/

/-- OPC of an operation word. -/
def opc (w : Word) : Nat := field w.toNat 0 4
/-- SRC of an operation word. -/
def srcOf (w : Word) : Nat := field w.toNat 4 2
/-- OPND of an operation word. -/
def opnd (w : Word) : Nat := field w.toNat 32 32

/-- Whether an operation word holds a reserved code or bit (R123, R124); `first` for word 0. -/
def reservedWord (first : Bool) (w : Word) : Bool :=
  let v := w.toNat
  8 ≤ opc w || srcOf w == 3 || (!first && bitAt v 8) || field v 9 3 != 0 || (opc w == 3 && 10 < field v 12 4) || field v 24 8 != 0

/-- The condition with which a program is refused, or its words up to the terminal one (R124). -/
def checkProgram (padSize : Nat) (h : Handle) : Bool → List Word → Except Nat (List Word)
  | _, [] => .error 1
  | first, w :: ws =>
    if reservedWord first w || opc w == 0 then .error 1
    else if opc w == 6 && field w.toNat 16 8 != h.fmt.toNat then .error 0
    else if srcOf w != 0 && padSize < opnd w + 256 then .error 4
    else if 6 ≤ opc w then .ok [w]
    else match checkProgram padSize h false ws with
      | .ok rest => .ok (w :: rest)
      | .error c => .error c

/-- The two programs over a slot of the residue kind (R299). -/
def checkResidue (padSize : Nat) (ws : List Word) : Except Nat (List Word) :=
  let w := ws.headD 0
  if w == 0x300006 then .ok [w]
  else if opc w != 7 || reservedWord true w then .error 1
  else if srcOf w != 0 && padSize < opnd w + 256 then .error 4
  else .ok [w]

/-- The tags that the etcher writes (R195, R299). -/
def etchTags : List Nat := [0x01, 0x02, 0x03, 0x04, 0x10, 0x11, 0x12, 0x20, 0x21, 0x22, 0x23, 0x24]

/-- What `EPI` accepts of its destination (R195, R299). -/
def etchAccept (residue : Bool) (h : Handle) : Accept :=
  if residue then { space := none, tags := some [0x30], layouts := some [0, 2] }
  else { space := none, tags := some etchTags, layouts := some (if h.pad && ppTags.contains h.fmt.toNat then [0, 1] else [0]) }

/-! ## Results (R124, R195) -/

/-- The operand of a word for each index of its vector, or for every index (R124), in working format `f`. -/
def Core.etchOperand (c : Core) (veil : List (Nat × Byte)) (f : FFmt) (w : Word) : List (FV × Fl) :=
  let v := w.toNat
  let b32 : FFmt := ⟨24, 8⟩
  let raw := if srcOf w = 0 then List.replicate 64 (opnd w) else (chunksOf 4 64 (c.seen veil (opnd w) 256)).map ofBytesLE
  raw.map fun x =>
    let y := b32.decode (if bitAt v 6 then x ^^^ 2 ^ 31 else x)
    let z := if f = b32 then (y, 0) else f.convert .rne y
    if bitAt v 7 then let q := f.div .rne (.fin false 1 0) z.1; (q.1, z.2 ||| q.2) else z

/-- One operation word on a value (R124). The clamp words take FMIN and FMAX of R66 for a NaN: the rule says only IEEE 754 (DESIGN CHOICE, log
entry 112). -/
def etchStep (f : FFmt) (w : Word) (o : FV × Fl) (v : FV × Fl) : FV × Fl :=
  let r : FV × Fl := match opc w with
    | 1 => f.mul .rne v.1 o.1
    | 2 => f.add .rne v.1 o.1
    | 3 => sfuEval f ((SfuFn.ofCode (field w.toNat 12 4)).getD .exp) v.1
    | 4 => minMax false v.1 o.1
    | 5 => minMax true v.1 o.1
    | _ => (v.1, 0)
  (r.1, v.2 ||| o.2 ||| r.2)

/-- The values of a slice after a program, by row, and the flags raised (R124). -/
def Core.etchValues (c : Core) (veil : List (Nat × Byte)) (slot : Slot) (ws : List Word) : List (List FV) × Fl :=
  let f : FFmt := if bitAt (ws.headD 0).toNat 8 then ⟨53, 11⟩ else ⟨24, 8⟩
  let ops := ws.map fun w => (w, c.etchOperand veil f w)
  let rows := (List.range 64).map fun i => (List.range 64).map fun j =>
    ops.foldl (fun v o => etchStep f o.1 (o.2.getD (if srcOf o.1 = 1 then i else j) (.zero false, 0)) v) (f.convert .rne (slot.value i j))
  (rows.map fun r => r.map (·.1), rows.foldl (fun a r => r.foldl (fun a v => a ||| v.2) a) 0)

/-- The bytes that `EPI` writes through its destination with their addresses, elements in ascending row and column, then the
scales, of layout 1 all 16 of a line, and the flags of the conversions, of the elements that are dropped too (R166, R195). The elements of a row
beyond EXT0 form blocks of their own (DESIGN CHOICE, log entry 112). -/
def etchCells (h : Handle) (rows : List (List FV)) : List (Nat × Byte) × Fl :=
  let cols := min 64 (h.ext 0)
  let live := rows.take (h.ext 1)
  if h.isBlock then
    let w := 4 * h.nib
    let blocks (r : List FV) := (chunksOf 4 16 r).map (blockConvert .rne w)
    let flags (rs : List (List (Nat × List Nat × Fl))) : Fl := rs.foldl (fun a r => r.foldl (fun a b => a ||| b.2.2) a) 0
    let rs := live.map fun r => blocks (r.take cols)
    let fl := flags rs ||| flags (live.map fun r => blocks (r.drop cols)) ||| flags ((rows.drop (h.ext 1)).map blocks)
    let sig (r : List (Nat × List Nat × Fl)) := r.flatMap (·.2.1)
    let put (f : Nat → List (Nat × List Nat × Fl) → List (Nat × Byte)) := ((List.range rs.length).zip rs).flatMap fun p => f p.1 p.2
    let elems := put fun i r =>
      if h.layout = 1 then cellsAt (h.start + i * h.stride1.toNat) ((List.range (h.planes.toNat + 1)).flatMap fun p =>
        bytesLE 8 (planeWord p ((sig r).map (sval w))))
      else cellsAt (h.start + i * h.stride1.toNat) (packElems h.nib (sig r))
    let pad := List.replicate (if h.layout = 1 then 16 - (rs.headD []).length else 0) (0#8)
    let scales := put fun i r => cellsAt (h.start + h.footprint + h.scaleOff i 0) ((r.map fun b => BitVec.ofNat 8 b.1) ++ pad)
    (elems ++ scales, fl)
  else
    let tag := h.fmt.toNat
    let rs := rows.map fun r => r.map (tagBitsOf .rne tag)
    let fl := rs.foldl (fun a r => r.foldl (fun a b => a ||| b.2) a) 0
    let out := rs.take (h.ext 1) |>.map fun r => (r.take cols).map (·.1)
    (((List.range out.length).zip out).flatMap fun p =>
      cellsAt (h.start + p.1 * h.stride1.toNat) (if h.layout = 1 then
        (List.range (h.planes.toNat + 1)).flatMap fun q => bytesLE 8 (planeWord q (p.2.map (sval (tagBits tag))))
        else packElems h.nib p.2), fl)

/-- The bytes that the residue program writes (R299). -/
def residueCells (h : Handle) (slot : Slot) : List (Nat × Byte) :=
  (List.range (min 64 (h.ext 1))).flatMap fun i =>
    cellsAt (h.start + i * h.stride1.toNat) ((List.range (min 64 (h.ext 0))).map fun j => (slot.word i j).setWidth 8)

/-! ## Issue (R123, R187, R196) -/

/-- `EPI` (R123, R187, R196): the slot, the record, its program and the destination are checked before any effect. R124 does not say which
operand and format `einfo` names for a program that is refused: the model names the handle (DESIGN CHOICE, log entry 32). -/
def execEpi (h : Hx) (o1 : HReg) (o2 : SReg) (fl : EFlags) (s : State) : Out :=
  s.issue128 h [(0, o1)] fun s => do
    let c := s.core
    let hd := c.getH o1
    let n := c.etchSlot
    if fl.acq && !s.performedAt s.cur fl.scope then .error (.stall s) else
    need (c.claimed != 0) (starveTrap 5 n) s
    let residue := c.kindOf n == SlotKind.residue
    let (s, rec512) ← s.readPlate (c.getS o2).toNat
    let words := (List.range 8).map fun k => BitVec.ofNat 64 (field rec512 (64 * k) 64)
    match (if residue then checkResidue c.padSize words else checkProgram c.padSize hd true words) with
    | .error cond => raise (fmtTrap 1 hd cond) s
    | .ok ws =>
      let keep := opc (ws.getLastD 0) == 7
      if !keep then
        orTrap (judge [(1, hd, etchAccept residue hd)]) s
        let cells := if residue then residueCells hd {} else (etchCells hd (List.replicate 64 (List.replicate 64 (.zero false)))).1
        orTrap (if hd.pad then (cells.find? fun x => c.padSize ≤ x.1).map fun x => accessTrap 4 x.1 true else none) s
        s.hold [hd]
      if 2 ≤ s.core.etch.length then .error (.stall s)
      else
        let s := if !keep && !hd.pad then s.exch else s
        let c := s.core
        done (s.setCore { c with etch := c.etch ++ [{ pc := c.ctx.pc, pos := c.pos, h := hd, words := ws, keep := keep, fl := fl,
                                                      need := c.pendSeq, order := c.order, done := 0, stop := none }],
                                 order := c.order + 1 })

/-! ## The engine (R121, R196, R201) -/

/-- The scratchpad bytes that an etcher command reads: its vectors (R124). -/
def EpiCmd.reads (x : EpiCmd) : List (Nat × Nat) := x.words.filterMap fun w => if srcOf w = 0 then none else some (opnd w, 256)

/-- The etcher command at the head of the queue, if it may run: the slot is full, the commands before it are complete. -/
def Core.readyEtch (c : Core) : Option EpiCmd :=
  match c.etch with
  | x :: _ =>
    if x.stop.isNone && c.landed x.need && (c.slot c.ctx.tail).st == .full
        && c.mayBegin x.order (some c.ctx.tail) (x.reads ++ x.writes) then some x else none
  | [] => none

/-- The bytes an etcher command writes, what it leaves of the slot's words, and its flags. -/
def Core.etchOut (c : Core) (x : EpiCmd) : List (Nat × Byte) × List (List FV) × Fl :=
  let slot := c.slot c.ctx.tail
  if slot.kind == SlotKind.residue then (if x.keep then [] else residueCells x.h slot, [], 0)
  else
    let v := c.etchValues x.veil slot x.words
    if x.keep then ([], v.1, v.2) else
      let w := etchCells x.h v.1
      (w.1, v.1, v.2 ||| w.2)

/-- Complete the command: the slot keeps its values, or is freed with its flags merged into `fpc` (R187, R189). -/
def Core.etchDone (c : Core) (x : EpiCmd) : Core :=
  let t := c.ctx.tail
  let slot := c.slot t
  let out := c.etchOut x
  let c1 := { c with etch := c.etch.drop 1 }
  let flags := slot.flags.or (slotFlags out.2.2 false)
  if x.keep then
    if slot.kind == SlotKind.residue then c1
    else c1.onSlot t fun y => { y with kind := .float, flags := flags, words := out.2.1.flatMap fun r => r.map accOfFV }
  else
    (((c1.onSlot t fun _ => {}).updCtx fun k => { k with tail := t + 1 }).raise
      (if slot.kind == SlotKind.residue then slot.flags.fpc else flags.fpc)).claimHead

/-- The command at the head of the queue writes scratchpad bytes; its own operands stay as they were. -/
def Core.etchWrite (c : Core) (x : EpiCmd) (bs : List (Nat × Byte)) : Core :=
  { c.engineWrite x.order bs with etch := match (c.engineWrite x.order bs).etch with
      | y :: rest => { y with veil := veilWith c.pad 0 0 bs y.veil } :: rest
      | [] => [] }

/-- Run an etcher command's writes from where it stands. -/
def State.etchRun (s : State) (c : Nat) (x : EpiCmd) : Moved :=
  let cells := ((s.at c).etchOut x).1
  if x.h.pad then .ok (s.on c fun k => k.etchWrite x (cells.drop x.done))
  else s.engineOut c x.pos x.done cells (max 1 (x.h.nib / 2))

/-- Record the progress of the command at the head of the queue. -/
def Core.etchAt (n : Nat) (stop : Option Bool) (c : Core) : Core :=
  { c with etch := match c.etch with
    | x :: rest => { x with done := n, stop := stop } :: rest
    | [] => [] }

/-- Whether a command writes local memory that it has not yet written. -/
def EpiCmd.local (x : EpiCmd) : Bool := x.h.pad && !x.keep

/-- The running etcher command of a core writes the next `n` bytes of its local result ahead of the others (R201). -/
def Core.etchPart (n : Nat) (c : Core) (x : EpiCmd) : Core :=
  let bs := ((c.etchOut x).1.drop x.done).take n
  Core.etchAt (x.done + bs.length) x.stop (c.etchWrite x bs)

/-- The engines of core `i` that run a command which writes scratchpad, each as what it does with `n` more bytes. -/
def State.partWriters (s : State) (i n : Nat) : List (Core → Core) :=
  let c := s.at i
  ((c.readyEtch.filter (·.local)).map fun x => (Core.etchPart n · x)).toList ++ (c.readyHatch.map fun x => (Core.hatchPart n · x)).toList
    ++ ((s.readyStats i).map fun r => Core.statPart (s.statOut r.1 r.2).1 n).toList

/-- The plane engine, the etcher or the row-statistics engine of core `i` writes part of its command's result ahead of the rest (R201): which of
them, and how much, is free (log entry 8). -/
def State.partAhead (s : State) (i : Nat) : State :=
  let n := Config.partWay s.tick
  let ws := s.partWriters i n
  match ws[n % max 1 ws.length]? with
  | some f => s.on i f
  | none => s

/-- `EPI_COMPLETE` (R187, R196): all writes are made; with `.rel` the command completes when they are performed. -/
def execEpiComplete (c : Nat) (s : State) : Out :=
  match (s.at c).readyEtch with
  | none => .next s
  | some x =>
    match s.etchRun c x with
    | .ok s1 =>
      let k := s1.at c
      if x.fl.rel && !s1.performedAt c x.fl.scope then .next (s1.on c (Core.etchAt (k.etchOut x).1.length none))
      else .next (s1.on c fun k => k.etchDone (k.etch.headD x))
    | .gone s1 => .next s1
    | _ => .next s

end Sys2Proof.Machine
end

