-- ==== Sys2Proof/Machine/Residue.lean ====
section
/-! DEFINITION. Residue arithmetic: the residue state of a gang, `RFWD`, `RREV`, `RCHK`, `RSET`, and the events of a check
(R296 to R304, R307 to R316). -/

namespace Sys2Proof.Machine

/-! ## The residue state of a gang (R297, R312, R314) -/

/-- The residue state of the gang of core `i`, with the gang's group. -/
def State.resState (s : State) (i : Nat) : Option (GangState × List Nat) :=
  match s.launchOf i with
  | none => none
  | some l => (l.gangOf i).map fun g =>
    ((((l.squadOf i).map (·.gangs)).getD []).find? (·.group == g.1) |>.getD { group := g.1 }, g.2)

/-- Write the residue state of the gang of core `i`. -/
def State.setRes (s : State) (i : Nat) (g : GangState) : State :=
  s.updSquad i fun q => { q with gangs := g :: q.gangs.filter (·.group != g.group) }

/-- The channels of a set, ascending. -/
def chansOf (v : BitVec 8) : List Nat := bitsSet 8 v.toNat

/-- The product of the moduli of channels (R307). -/
def modProd (cs : List Nat) : Nat := cs.foldl (fun p c => p * modulus c) 1

/-- The effective checks of a gang (R314). -/
def GangState.checks (g : GangState) : List Nat :=
  let cs := (chansOf g.chk).filter fun c => !g.mask.getLsbD c
  if (g.mask &&& g.prim) != 0 then cs.drop 1 else cs

/-- The effective primaries of a gang (R314): a masked one is replaced by the check channel of lower number. -/
def GangState.primaries (g : GangState) : List Nat :=
  if (g.mask &&& g.prim) != 0 then
    chansOf ((g.prim &&& ~~~g.mask) ||| BitVec.ofNat 8 (2 ^ (chansOf g.chk).headD 0))
  else chansOf g.prim

/-- The product of the effective primaries. -/
def GangState.mp (g : GangState) : Nat := modProd g.primaries

/-- The dynamic range of a product of moduli (R308). -/
def inRange (mp : Nat) (x : Int) : Bool := -(mp : Int) ≤ 2 * x && 2 * x < (mp : Int)

/-- The inverse of `a` modulo `m`. -/
def inverseMod (a m : Nat) : Nat := ((List.range m).find? fun k => a * k % m == 1).getD 0

/-- The mixed-radix value of residues of channels in ascending order, digit by digit (R301). -/
def radixFrom : List (Nat × Nat) → Nat → Nat → Nat
  | [], _, x => x
  | (c, r) :: rest, p, x =>
    let m := modulus c
    let a := (r + m - x % m) % m * inverseMod (p % m) m % m
    radixFrom rest (p * m) (x + a * p)

/-- The integer in the range of the product of the channels' moduli that their residues stand for (R300, R301, R308). -/
def reconstruct (cs : List Nat) (r : Nat → Nat) : Int :=
  let x : Nat := radixFrom (cs.map fun c => (c, r c)) 1 0
  let p := modProd cs
  if inRange p x then x else (x : Int) - p

/-- The residue of channel `c` of element `i` of an eight-channel operand (R296), reduced (R142). -/
def Core.residue (k : Core) (h : Handle) (i c : Nat) : Nat :=
  (k.pad.get (h.start + c * h.stride2.toNat + i)).toNat % modulus c

/-- The extents of an eight-channel operand of `n` elements. -/
def Handle.channels (h : Handle) (n : Nat) : List (Nat × Nat) := (List.range 8).map fun c => (h.start + c * h.stride2.toNat, n)

/-! ## Conversions (R298, R301) -/

/-- The tags that `RFWD` takes. -/
def rfwdTags : List Nat := [0x20, 0x22, 0x23, 0x24]

/-- An eight-channel or single-channel residue operand. -/
def residueAccept : Accept := { tags := some [0x30], layouts := some [2] }

/-- `RFWD` (R298). -/
def execRfwd (h : Hx) (o1 o2 : HReg) (o3 : SReg) (s : State) : Out :=
  s.issue128 h [(0, o1), (1, o2)] fun s =>
    let c := s.core
    let n := (c.getS o3).toNat
    let hd := c.getH o1
    let ha := c.getH o2
    let m := modulus (s.cur.val % 8)
    s.lane [(1, hd, residueAccept), (2, ha, { tags := some rfwdTags })] [(hd.start, n), (ha.start, bytesOf ha.nib n)] 4 fun c =>
      .ok (lay hd 2 ((c.elems ha ha.nib n).map fun x => ((sval (tagBits ha.fmt.toNat) x % (m : Int)).toNat, 0)))

/-- An element of `RREV` and whether a check channel disagrees (R301). -/
def Core.reversed (k : Core) (g : GangState) (h : Handle) (i : Nat) : Int × Bool :=
  let x := reconstruct g.primaries (k.residue h i)
  (x, g.checks.any fun c => (x % (modulus c : Int)).toNat != k.residue h i c)

/-- `RREV` (R301). -/
def execRrev (h : Hx) (o1 o2 : HReg) (o3 : SReg) (gd : GReg) (s : State) : Out :=
  s.issue128 h [(0, o1), (1, o2)] fun s =>
    let c := s.core
    let n := (c.getS o3).toNat
    let hd := c.getH o1
    let ha := c.getH o2
    match s.resState s.cur with
    | none => raise (accessTrap 6 0) s
    | some (g, _) =>
      s.lane [(1, hd, tagged 0x24), (2, ha, residueAccept)] ((hd.start, 8 * n) :: ha.channels n) 8
        (fun c => .ok (lay hd 16 ((List.range n).map fun i => (ofSval 64 (c.reversed g ha i).1, 0))))
        fun k => k.setG gd ((List.range n).any fun i => (k.reversed g ha i).2)

/-! ## The check (R300, R302, R303, R313) -/

/-- What a check finds of an element (R300, R313). -/
inductive Found where
  | consistent | located (c : Nat) | unlocated | ambiguous
  deriving DecidableEq, Repr

/-- Check the residues of an element (R300). -/
def GangState.check (g : GangState) (r : Nat → Nat) : Found :=
  let live := (List.range 8).filter fun c => !g.mask.getLsbD c
  if inRange g.mp (reconstruct live r) then .consistent
  else if g.mode != .full then .unlocated
  else match live.filter fun c => inRange g.mp (reconstruct (live.filter (· != c)) r) with
    | [c] => .located c
    | _ => .ambiguous

/-- Elements from a number on (R300): the event that stops the check, or the lowest overflowing element. -/
def checkFrom (f : Nat → Found) : Nat → Nat → Option Nat → Except Found (Option Nat)
  | 0, _, o => .ok o
  | fuel + 1, i, o =>
    match f i with
    | .consistent => checkFrom f fuel (i + 1) o
    | .ambiguous => checkFrom f fuel (i + 1) (o.orElse fun _ => some i)
    | e => .error e

/-- Residue mode ends (R303): the supervisor of the checking core takes the trap at its next boundary. -/
def State.resEnd (s : State) (i reason : Nat) (g : GangState) : State :=
  (s.setRes i { g with mode := .off }).on i fun c => { c with faults := c.faults ++
    [{ src := 3, cmdpc := c.ctx.pc, eflt := false,
       trap := { cause := .residueEnd, detail := packFields [(8, g.mask.toNat), (4, reason)] } }] }

/-- A residue-mismatch event that core `i` finds (R303): counts, masking, the end of residue mode, or a rollback. A located event in
degraded mode that masks a second channel is recorded as the masking. -/
def State.resEvent (s : State) (i : Nat) (g : GangState) (e : Found) : Run (State × Option Word) :=
  let p := podOf i
  match e with
  | .located c =>
    let n := g.counts.getD c 0 + 1
    let g1 := { g with counts := g.counts.setIfInBounds c n }
    if n < 3 then
      if g.mode != .full then done (s.resEnd i 3 g1) else .error (.gone ((s.setRes i g1).rollback i (.channel p c)))
    else
      let s1 := s.event 6 4 (8 * p + c) (s.seqOf i) 0
      let g2 := { g with counts := g.counts.setIfInBounds c 0, mask := g.mask ||| BitVec.ofNat 8 (2 ^ c) }
      if g.mask != 0 then done (s1.resEnd i 1 g2)
      else .error (.gone ((s1.setRes i { g2 with mode := .degraded }).rollback i (.channel p c)))
  | _ =>
    let g1 := { g with unlocated := g.unlocated + 1 }
    if 3 ≤ g1.unlocated then done (s.resEnd i 2 g1)
    else .error (.gone ((s.setRes i g1).rollback i .none))

/-- The channel that an injection makes a check report (R302): the lowest. -/
def State.injected (s : State) (i : Nat) (g : GangState) (members : List Nat) : Option Nat :=
  (List.range 8).find? fun c => !g.mask.getLsbD c && members.contains (8 * podOf i + c)
    && bitAt (s.at (8 * podOf i + c)).sys.inj.toNat 4

/-- What a check over `n` elements leads to (R300, R302, R303, R313). -/
def State.resCheck (s : State) (gd : GReg) (h : Handle) (n : Nat) (g : GangState) (members : List Nat) : Run (State × Option Word) :=
  let i := s.cur.val
  match if n = 0 then none else s.injected i g members with
  | some c => (s.on (8 * podOf i + c) fun k => k.updSys (·.reported 4)).resEvent i g (.located c)
  | none =>
    match checkFrom (fun j => g.check (s.core.residue h j)) n 0 none with
    | .error e => s.resEvent i g e
    | .ok none => done (s.upd fun k => k.setG gd true)
    | .ok (some j) =>
      let s := s.upd fun k => k.setG gd false
      if !g.retry then .error (.gone ((s.setRes i { g with retry := true }).rollback i .none))
      else
        let s := s.setRes i { g with ovf := true }
        if g.rot then .error (.after { cause := .overflow, detail := j % 2 ^ 32 } s) else done s

/-- `RCHK` (R300). -/
def execRchk (h : Hx) (o1 : HReg) (o2 : SReg) (gd : GReg) (s : State) : Out :=
  s.issue128 h [(0, o1)] fun s => do
    let n := (s.core.getS o2).toNat
    let ha := s.core.getH o1
    match s.resState s.cur with
    | none => raise (accessTrap 6 0) s
    | some (g, members) =>
      let r ← s.lane [(1, ha, residueAccept)] (ha.channels n) 0 (fun _ => .ok ([], 0)) id false
      r.1.resCheck gd ha n g members

/-! ## `RSET` (R315, R316) -/

/-- `RSET` (R315). -/
def execRset (h : Hd) (b c : SReg) (s : State) : Out :=
  s.issue96 h fun s =>
    let m := s.core.getS b
    let k := s.core.getS c
    let prim := m.setWidth 8
    let chk := (m >>> 8).setWidth 8
    match s.resState s.cur with
    | none => raise (accessTrap 6 0) s
    | some (g, _) => do
      need (field m.toNat 17 47 == 0 && field k.toNat 8 56 == 0) (accessTrap 7 0) s
      need (popcount 8 prim.toNat == 6 && popcount 8 chk.toNat == 2 && (prim &&& chk) == 0#8 && (prim ||| chk) == 0xFF#8)
        (accessTrap 7 0) s
      let mask := g.mask ||| k.setWidth 8
      need (popcount 8 mask.toNat ≤ 1) (accessTrap 7 0) s
      done (s.setRes s.cur { g with prim := prim, chk := chk, rot := bitAt m.toNat 16, mask := mask,
                                    mode := if g.mode == .full && mask != 0 then .degraded else g.mode })

end Sys2Proof.Machine
end

