-- ==== Sys2Proof/Machine/Port.lean ====
section
/-! DEFINITION. The gather/put port: `PUT`, `GET`, messages, completion counters and the hot rows of a die (R103, R229, R230,
R238 to R246, R276, R277, R279, R320). -/

namespace Sys2Proof.Machine

/-! ## Issue (R238, R239) -/

/-- The tags that `PUT` and `GET` take (R239). -/
def portTags : List Nat := [0x01, 0x02, 0x03, 0x04, 0x10, 0x20, 0x22, 0x23, 0x24, 0x30]

/-- The target of a command (R238), and the plate's handle when it is a plate. -/
def State.portTarget (s : State) (get : Bool) (v : Word) : Run (State × Target × Option Handle) :=
  let w := v.toNat
  let bad : Run (State × Target × Option Handle) := raise (accessTrap 6 0) s
  match w / 2 ^ 62 with
  | 0 =>
    if field w 32 30 != 0 then bad else do
      let t ← s.teamTarget (field w 0 32)
      return (s, .cores [(t, s.genOf s.cur)], none)
  | 1 =>
    if get || field w 8 54 != 0 then bad else do
      let g ← s.groupOf (BitVec.ofNat 64 (field w 0 8)) [3] false
      return (s, .cores (g.members.map fun m => ((s.member (s.seqOf s.cur) m).team, s.genOf s.cur)), none)
  | 2 =>
    if field w 53 9 != 0 then bad else do
      let (s, p) ← s.readPlate (field w 0 53)
      return (s, .plate (Handle.ofPlate p), some (Handle.ofPlate p))
  | _ => bad

/-- Bytes of an element. -/
def Handle.esize (h : Handle) : Nat := h.nib / 2

/-- The first local row of a plate command that runs past the scratchpad (R239), as a trap. -/
def Core.rowTrap (c : Core) (h : Handle) (n : Nat) : Option Trap :=
  let k := h.ext 0 * h.esize
  if n = 0 || k = 0 || h.start + (n - 1) * h.stride1.toNat + k ≤ c.padSize then none
  else if c.padSize < h.start + k then some (c.padTrap h.start)
  else some (c.padTrap (h.start + ((c.padSize - k - h.start) / max 1 h.stride1.toNat + 1) * h.stride1.toNat))

/-- A fill of a tile completes (R173): a queued drain starts at once, on the channel of its command. -/
def Core.tileFilled (c : Core) (t : Nat) : Core :=
  let e := c.tile t
  if e.drainQ then
    let ch := ((c.copies.find? fun x => x.kind == .drain && x.tile == t).map (·.ch)).getD e.ch
    c.setTile t { e with st := .draining, drainQ := false, flt := false, done := 0, ch := ch }
  else c.setTile t { e with st := .ready, flt := false }

/-- Declare `n` packets to a receiver (R230); the number of the first of them (R241). -/
def State.declare (s : State) (t n : Nat) : State × Nat :=
  let i := s.cur.val
  let me := s.core.team
  let seq := s.seqOf i
  let first := ((s.core.sent.find? (·.1 == t)).map (·.2)).getD 0
  let s1 := s.upd fun c => { c with sent := (t, first + n) :: c.sent.filter (·.1 != t) }
  match (s.launchOf i).bind (·.coreOf t) with
  | none => (s1, first)
  | some r =>
    let add (l : List Inflow) : List Inflow :=
      if l.any (·.team == me) then l.map fun f => if f.team == me then { f with declared := f.declared + n } else f
      else l ++ [{ team := me, declared := n, landed := 0 }]
    (s1.onMember seq r fun c => { c with inflow := add c.inflow }, first)

/-- Declare `n` packets to each receiver. -/
def State.declareAll (n : Nat) : List (Nat × Nat) → State → State × List (Nat × Nat)
  | [], s => (s, [])
  | (t, _) :: rest, s =>
    let (s1, f) := s.declare t n
    let r := State.declareAll n rest s1
    (r.1, (t, f) :: r.2)

/-- `PUT` or `GET` at issue (R239). -/
def State.portIssue (s : State) (get : Bool) (h : Hx) (o1 : HReg) (o2 : SReg) (o3 : HReg) (o4 : SReg) (fl : EFlags) (cc : BitVec 4) :
    Run (State × Option Word) := do
  let s := s.exch
  let hd := s.core.getH o1
  let hx := s.core.getH o3
  let n := (s.core.getS o4).toNat
  orTrap (judge [(1, hd, { tags := some portTags }), (3, hx, { tags := some [0x23] })]) s
  let (s, tgt, plate) ← s.portTarget get (s.core.getS o2)
  let c := s.core
  match plate with
  | none => do
    need (hd.start % hd.esize == 0) (fmtTrap 1 hd 4) s
    need (c.inPad hd.start (hd.ext 0 * hd.esize)) (c.padTrap hd.start) s
  | some p => do
    orTrap (judge [(2, p, { space := some false, tags := some [hd.fmt.toNat], shape := p.ext0 == hd.ext0 })]) s
    orTrap (c.rowTrap hd n) s
  s.hold (if get then [hx] else [hd, hx])
  let t := hd.tile.toNat
  let tiled := get && t != 0xFF
  let e := (c.tile t).fill (c.tile t).ch
  need (!tiled || e.isSome) (starveTrap 2 t) s
  let s := if tiled then s.upd fun c => c.setTile t (e.getD {}) else s
  let (s, first) := match tgt with
    | .cores l => if get then (s, []) else State.declareAll n l s
    | .plate _ => (s, [])
  if n = 0 && !tiled then done s
  else if n = 0 && (s.core.tile t).st == .filling then done (s.upd fun c => c.tileFilled t)
  else
    done (s.upd fun c => { c with port := c.port ++ [{ c.portCmd (if get then .get else .put) cc with
      hd := hd, hx := hx, tgt := tgt, n := n, fl := fl, hint := h.hint, tile := if tiled then t else 0xFF, first := first }] })

/-- `PUT` (R239). -/
def execPut (h : Hx) (o1 : HReg) (o2 : SReg) (o3 : HReg) (o4 : SReg) (fl : EFlags) (cc : BitVec 4) (s : State) : Out :=
  s.issue128 h [(0, o1), (2, o3)] fun s => s.portIssue false h o1 o2 o3 o4 fl cc

/-- `GET` (R239). -/
def execGet (h : Hx) (o1 : HReg) (o2 : SReg) (o3 : HReg) (o4 : SReg) (fl : EFlags) (cc : BitVec 4) (s : State) : Out :=
  s.issue128 h [(0, o1), (2, o3)] fun s => s.portIssue true h o1 o2 o3 o4 fl cc

/-! ## Progress of a command -/

/-- Change the command at place `k` of a port. -/
def Core.onPort (c : Core) (k : Nat) (f : PortCmd → PortCmd) : Core := { c with port := c.port.modify k f }

/-- Count a completed element (R243, R245). -/
def Core.counted (c : Core) (cc : BitVec 4) (stale : Bool) : Core :=
  c.onCounter cc fun x => { x with done := x.done + 1, stale := x.stale || stale }

/-- The command at place `k` leaves the port (R239, R243). -/
def Core.portOver (k : Nat) (c : Core) : Core :=
  match c.port[k]? with
  | none => c
  | some x =>
    let c1 := { c with port := c.port.eraseIdx k }
    let c2 := if x.n = 0 then c1 else c1.onCounter x.cc fun y => { y with cmds := y.cmds + 1 }
    if x.tile = 0xFF then c2 else c2.tileFilled x.tile

/-- The command at place `k` of core `c` is complete once its elements are (R239, R243, R260): with `.rel.X` once the core's writes are
performed at X. -/
def State.portDone (s : State) (c k : Nat) : State :=
  match (s.at c).port[k]? with
  | none => s
  | some x => if x.i < x.n || (x.fl.rel && !s.performedAt c x.fl.scope) then s else s.on c (Core.portOver k)

/-- The command at place `k` is past its element; `len` bytes have landed in its tile (R177). -/
def Core.nextElement (k len : Nat) (c : Core) : Core :=
  match c.port[k]? with
  | none => c
  | some x =>
    let c1 := c.onPort k fun x => { x with i := x.i + 1, reply := none }
    if x.tile = 0xFF then c1 else
      c1.setTile x.tile { c1.tile x.tile with done := (c1.tile x.tile).done + BitVec.ofNat 32 len }

/-- Whether a command of core `i` may access anything yet (R117, R173, R260, R385). -/
def State.portReady (s : State) (i : Nat) (x : PortCmd) : Bool :=
  let c := s.at i
  x.stop.isNone && c.landed x.need && (!(x.fl.acq && x.i = 0 && x.sent.all (· == 0)) || s.performedAt i x.fl.scope)
    && (x.tile = 0xFF || (c.tile x.tile).st == .filling)

/-- Element `i` of the index list (R239). -/
def Core.portIndex (c : Core) (x : PortCmd) (bound : Nat) : Except Trap Nat :=
  let a := x.hx.start + 4 * x.i
  if !c.inPad a 4 then .error (c.padTrap a)
  else
    let v := ofBytesLE (c.seen x.veil a 4)
    if bound ≤ v then .error (accessTrap 6 0) else .ok v

/-- Whether a target still runs the launch generation of the issue (R245, R279). -/
def State.fresh (s : State) (seq : Word) (r : Option Nat) (gen : Nat) : Option Nat :=
  r.bind fun r => if (s.member seq r).launch == some seq && (s.member seq r).gen == gen then some r else none

/-- A packet lands in a receiver's scratchpad (R230, R240, R242). -/
def Core.packet (p : Packet) (c : Core) : Core :=
  { c.padWrite (cellsAt p.addr p.bytes) with
    inbox := c.inbox ++ [p],
    inflow := c.inflow.map fun f => if f.team == p.team then { f with landed := f.landed + 1 } else f }

/-- Count a packet as landed without a write (R245). -/
def Core.discarded (team : Nat) (c : Core) : Core :=
  { c with inflow := c.inflow.map fun f => if f.team == team then { f with landed := f.landed + 1 } else f }

/-- Whether an earlier command of the same kind still sends to one of a command's receivers (R240, R276). -/
def Core.behind (c : Core) (k : Nat) (x : PortCmd) : Bool :=
  x.kind != .put && (c.port.take k).any fun y => y.kind == x.kind && y.receivers.any x.receivers.contains

/-- The element that a `PUT` has read, or reads now (R239). -/
def Core.putElem (c : Core) (x : PortCmd) (i : Nat) : Except Trap PutElem :=
  match x.read.find? (·.i == i) with
  | some e => .ok e
  | none =>
    let n := x.hd.esize
    (c.portIndex { x with i := i } (x.hd.ext 0)).map fun v => { i := i, v := v, bytes := c.seen x.veil (x.hd.start + v * n) n }

/-- A command after the packet of an element has landed at some of its receivers. -/
def PortCmd.after (x : PortCmd) (e : PutElem) (l : List (Nat × Nat)) (js : List Nat) : PortCmd :=
  let sent := (List.range l.length).map fun j => if js.contains j then e.i + 1 else x.landedAt j
  let low := sent.foldl min x.n
  { x with sent := sent, i := low, read := (e :: x.read.filter (·.i != e.i)).filter (low ≤ ·.i) }

/-- A packet reaches one receiver: it lands, or is discarded as stale (R240, R242, R245); whether it was stale. -/
def State.landAt (s : State) (c : Nat) (lau : Launch) (x : PortCmd) (e : PutElem) (tg : Nat × Nat) : State × Bool :=
  let seq := lau.record.seq
  let me := (s.at c).team
  let first := ((x.first.find? (·.1 == tg.1)).map (·.2)).getD 0
  match s.fresh seq (lau.coreOf tg.1) tg.2 with
  | some r => (s.onMember seq r fun m => (m.linkPassed (c, x.pos)).packet
      { team := me, ord := first + e.i, addr := x.hd.start + e.v * x.hd.esize, bytes := e.bytes }, false)
  | none => ((lau.coreOf tg.1).elim s fun r => s.onMember seq r (Core.discarded me), true)

/-- The next packet of an element `PUT` (R239 to R242, R261): it lands at every receiver where its sub-round is open in one step, so that all
members of a set see the packets of several senders in one order, unless its sub-rounds differ among them (log entry 108). A receiver whose port fails its tag holds it
back everywhere until it has been sent again. -/
def State.putElement (s : State) (c k : Nat) (x : PortCmd) (l : List (Nat × Nat)) : Moved :=
  let me := s.at c
  match s.launchOf c with
  | none => .hold
  | some lau =>
    let js := me.putOpen k x l lau.allowance (((lau.squadOf c).map (·.subround)).getD 0)
    match js.head? with
    | none => .hold
    | some j =>
      match me.putElem x (x.landedAt j) with
      | .error t => .stop s t 0
      | .ok e =>
        let rs := js.map fun j => l.getD j (0, 0)
        let ports := rs.filterMap fun tg => s.fresh lau.record.seq (lau.coreOf tg.1) tg.2
        match ports.findSome? fun r => s.linkFails r (c, x.pos) with
        | some s1 => .ok s1
        | none =>
          let s1 := rs.foldl (fun s tg => let q := s.landAt c lau x e tg; q.1.on c fun m => m.counted x.cc q.2) s
          .ok ((s1.on c fun m => m.onPort k fun y => y.after e l js).portDone c k)

/-- The next row of a `PUT` to a plate (R239): written as the core's stores, whole or not at all. -/
def State.putRow (s : State) (c k : Nat) (x : PortCmd) (p : Handle) : Moved :=
  let me := s.at c
  match me.portIndex x (p.ext 1) with
  | .error t => .stop s t 0
  | .ok v =>
    let row := me.seen x.veil (x.hd.start + x.i * x.hd.stride1.toNat) (x.hd.ext 0 * x.hd.esize)
    match s.engineOut c x.pos 0 (cellsAt (p.start + v * p.stride1.toNat) row) 1 x.hint with
    | .ok s1 => .ok ((s1.on c fun m => (m.counted x.cc false).nextElement k 0).portDone c k)
    | .stop _ t _ => .stop s t 0
    | r => r

/-! ## Hot rows (R103) -/

/-- The index of a row's counter. -/
def hotIndex (start len : Nat) : Nat := Config.rowHash start len % 65536

/-- The counter of a row. -/
def Die.hotCount (x : Die) (start len : Nat) : Nat := ((x.hot.find? (·.1 == hotIndex start len)).map (·.2)).getD 0

/-- Release the pinned rows whose counters have fallen below T ÷ 2; their dirty bytes are written back. -/
def Die.release (x : Die) : Die :=
  let out := x.pinned.filter fun r => 2 * x.hotCount r.1 r.2 < x.threshold
  { x with pinned := x.pinned.filter fun r => !(2 * x.hotCount r.1 r.2 < x.threshold), l2 := out.foldl (fun es r => l2Clean r.1 r.2 es) x.l2 }

/-- A class-3 gather element on a die: its row's counter rises, and at T the row is pinned if there is room. -/
def Die.gathered (start len : Nat) (x : Die) : Die :=
  let n := min 255 (x.hotCount start len + 1)
  let x1 := { x with gathers := x.gathers + 1, hot := (hotIndex start len, n) :: x.hot.filter (·.1 != hotIndex start len) }
  if x.threshold ≤ n && !x.pinned.contains (start, len) && (x.pinned.map (·.2)).foldl (· + ·) 0 + len ≤ x.hotSize then
    { x1 with pinned := (start, len) :: x1.pinned }
  else x1

/-- `HOT_ROW_HALVE` (R103): after 2^20 class-3 gather elements every counter is halved. -/
def execHotRowHalve (die : Nat) (s : State) : Out :=
  let x := s.die die
  if x.gathers < 2 ^ 20 then .next s
  else .next (s.setDie die ({ x with gathers := x.gathers - 2 ^ 20, hot := (x.hot.map fun h => (h.1, h.2 / 2)).filter (·.2 != 0) } : Die).release)

/-! ## `GET` (R239, R240, R244, R245) -/

/-- Serve the next request of a `GET` at place `k`: the bytes it returns. -/
def State.getServe (s : State) (c k : Nat) (x : PortCmd) : Moved :=
  let me := s.at c
  let keep (s : State) (v : Nat) (r : Option (List Byte)) : Moved :=
    .ok (s.on c fun m => m.onPort k fun y => { y with value := BitVec.ofNat 64 v, reply := some r })
  match x.tgt with
  | .cores l =>
    match me.portIndex x (x.hd.ext 0), l.head?, s.launchOf c with
    | .error t, _, _ => .stop s t 0
    | .ok v, some (t, gen), some lau =>
      match s.fresh lau.record.seq (lau.coreOf t) gen with
      | none => keep s v none
      | some r =>
        match s.linkFails r (c, x.pos) with
        | some s1 => .ok s1
        | none => keep (s.on r (·.linkPassed (c, x.pos))) v (some ((s.member lau.record.seq r).pad.read (x.hd.start + v * x.hd.esize) x.hd.esize))
    | _, _, _ => .hold
  | .plate p =>
    match me.portIndex x (p.ext 1) with
    | .error t => .stop s t 0
    | .ok v =>
      let a := p.start + v * p.stride1.toNat
      let n := p.ext 0 * p.esize
      match State.engineLoads false c x.hint 0 (Machine.pieces 4096 a n) s with
      | (.ok s1, bs) =>
        let s2 := if x.hint.toNat % 4 = 3 then
            s1.setDie (dieOf c) ((s1.die (dieOf c)).gathered ((s1.peek (s1.space c).2 a).getD 0) n) else s1
        keep s2 v (some bs)
      | (.stop _ t _, _) => .stop s t 0
      | (r, _) => r

/-- Land the reply of a `GET`. -/
def State.getLand (s : State) (c k : Nat) (x : PortCmd) (r : Option (List Byte)) : State :=
  match s.linkFails c (c + 768, x.pos) with
  | some s1 => s1
  | none =>
    let a := match x.tgt with
      | .cores _ => x.hd.start + x.value.toNat * x.hd.esize
      | .plate _ => x.hd.start + x.i * x.hd.stride1.toNat
    let s1 := s.on c fun m =>
      let m1 := match r with
        | some bs => m.padWrite (cellsAt a bs)
        | none => m
      ((m1.linkPassed (c + 768, x.pos)).counted x.cc r.isNone).nextElement k ((r.map (·.length)).getD 0)
    s1.portDone c k

/-! ## Messages (R276, R277, R279) -/

/-- A message reaches its mailbox, or is discarded; it waits while the mailbox is full. -/
def State.messageLand (s : State) (c k : Nat) (x : PortCmd) : Moved :=
  match x.tgt, s.launchOf c with
  | .cores ((t, gen) :: _), some lau =>
    let seq := lau.record.seq
    let land (s : State) (stale : Bool) : Moved :=
      .ok ((s.on c fun m => (m.counted x.cc stale).nextElement k 0).portDone c k)
    match s.fresh seq (lau.coreOf t) gen with
    | none => land s true
    | some r =>
      if 16 ≤ (s.member seq r).ctx.mailbox.length then .hold
      else
        match s.linkFails r (c, x.pos) with
        | some s1 => .ok s1
        | none => land (s.onMember seq r fun m => (m.linkPassed (c, x.pos)).updCtx fun y => { y with mailbox := y.mailbox ++ [x.value] }) false
  | _, _ => .hold

/-! ## Steps of the port -/

/-- The next step of the command at place `k` of the port of core `c`: a packet, a row, a request, a message. -/
def State.portMove (s : State) (c k : Nat) : Moved :=
  let me := s.at c
  match me.port[k]? with
  | none => .hold
  | some x =>
    if !s.portReady c x || me.behind k x then .hold
    else if x.n ≤ x.i then .ok (s.portDone c k)
    else
      match x.kind, x.tgt with
      | .put, .cores l => s.putElement c k x l
      | .put, .plate p => s.putRow c k x p
      | .get, _ => if x.reply.isSome then .hold else s.getServe c k x
      | .msg, _ => s.messageLand c k x

/-- The state after a move, or the same state where it cannot be made. -/
def State.moved (s : State) : Moved → State
  | .ok s1 => s1
  | .gone s1 => s1
  | _ => s

/-- Whether the command at place `k` of a port is of a kind. -/
def State.portKind (s : State) (c k : Nat) (p : PortKind) : Bool := ((s.at c).port[k]?).any fun x => x.kind == p

/-- `PACKET_LAND` (R230, R240, R245): the next packet of the `PUT` at place `k` of a port lands, or its next row is written. -/
def execPacketLand (c k : Nat) (s : State) : Out := .next (if s.portKind c k .put then s.moved (s.portMove c k) else s)

/-- `GET_REQUEST_SERVE` (R239, R245): the target serves the next request of the `GET` at place `k`. -/
def execGetRequestServe (c k : Nat) (s : State) : Out := .next (if s.portKind c k .get then s.moved (s.portMove c k) else s)

/-- `GET_REPLY_LAND` (R239, R242, R320): the element or row of the served request lands. -/
def execGetReplyLand (c k : Nat) (s : State) : Out :=
  match (s.at c).port[k]? with
  | none => .next s
  | some x => match x.reply with
    | some r => .next (if x.kind == .get && x.stop.isNone then s.getLand c k x r else s)
    | none => .next s

/-- `MESSAGE_ARRIVE` (R276, R277, R279): the message at place `k` of a port reaches its target's mailbox. -/
def execMessageArrive (c k : Nat) (s : State) : Out := .next (if s.portKind c k .msg then s.moved (s.portMove c k) else s)

end Sys2Proof.Machine
end

