-- ==== Sys2Proof/Machine/Place.lean ====
section
/-! DEFINITION. Placement: the table's entries, declaration, arrival, the cut, and what a conversion computes (R331 to R340,
R343 to R356). -/

namespace Sys2Proof.Machine

/-! ## State words (R332, R345) -/

/-- The tags that P(op) is allowed for (R332). -/
def partialTags : List Nat := [0x01, 0x02, 0x03, 0x04, 0x10, 0x20, 0x22, 0x23, 0x24]

/-- Whether the byte of one axis is a state (R332). -/
def stateByteOk (tag b : Nat) : Bool :=
  match b % 4 with
  | 0 => b == 0
  | 1 => b < 16
  | 2 => b < 16 && b / 4 != 3 && partialTags.contains tag
  | _ => false

/-- Whether two axes of a state are P with different operators (R345). -/
def opsDiffer (st : Nat) (axes : List Nat) : Bool :=
  let ps := (axes.filter fun a => stateKind st a == 2).map (stateArg st)
  ps.any fun p => ps.any (· != p)

/-- Whether a state word is accepted for a tensor over a mesh (R332, R345). -/
def stateOk (tag : Nat) (axes : List (Nat × Bool)) (st : Nat) : Bool :=
  let as := List.range axes.length
  st < 2 ^ (8 * axes.length) && as.all (fun a => stateByteOk tag (stateByte st a)) && !opsDiffer st as
    && (List.range 4).all fun d => shardCount axes st d ≤ 65535

/-! ## Entries -/

/-- Entry `e` of the table. -/
def State.placeAt (s : State) (e : Nat) : Option Place := s.places.find? (·.idx == e)

/-- Change entry `e`. -/
def State.onPlace (s : State) (e : Nat) (f : Place → Place) : State :=
  { s with places := s.places.map fun p => if p.idx == e then f p else p }

/-- The launch that declared an entry. -/
def State.placeLaunch (s : State) (e : Place) : Option Launch := s.launches.find? fun l => l.gen == e.gen

/-- The mesh of an entry. -/
def State.placeMesh (s : State) (e : Place) : Option (Launch × Group) :=
  (s.placeLaunch e).bind fun l => (l.group e.group).map fun g => (l, g)

/-- The entry at an index as the running core may use it, and its mesh (R336, R354, R356); `part` asks that the core be a
participant. -/
def State.usePlace (s : State) (v : Word) (part : Bool) : Run (Place × Launch × Group) :=
  match if v.toNat ≤ 511 then s.placeAt v.toNat else none with
  | none => raise (accessTrap 6 0) s
  | some e => match s.placeMesh e with
    | none => raise (accessTrap 6 0) s
    | some (l, g) =>
      if s.core.launch == some l.record.seq && (!part || g.members.contains s.cur.val) then .ok (e, l, g)
      else raise (accessTrap 6 0) s

/-- Extent of an entry's span (R345). -/
def Place.span (e : Place) (g : Group) : Nat × Nat := (e.handle.base.toNat, meshSize g.axes * partSize e.handle)

/-- `PDECL` (R334, R345). -/
def execPdecl (h : Hd) (a b c : SReg) (state : BitVec 53) (s : State) : Out :=
  s.issue96 h fun s => do
    let s := s.exch
    let i := s.cur.val
    let va := (s.core.getS b).toNat
    let gi := (s.core.getS c).toNat
    let g ← s.groupOf (s.core.getS c) [4] true
    let (s, w) ← s.readPlate va
    match plateCheck w with
    | .error t => raise t s
    | .ok hd =>
      let st := state.toNat
      need (stateOk hd.fmt.toNat g.axes st) (accessTrap 7 0) s
      let e := field w 384 9
      let gen := s.genOf i
      let new : Place := { idx := e, plate := va, handle := hd, seq := s.seqOf i, group := gi, state := .ofNat 24 st,
                           version := .ofNat 16 (field w 400 16), gen := gen, declared := [i], changed := [i] }
      let s ← match s.placeAt e with
        | none =>
          let sp := new.span g
          let clash := s.places.any fun p => match s.placeMesh p with
            | some (_, g') => let q := p.span g'; overlap sp.1 sp.2 q.1 q.2
            | none => false
          need (!clash) (accessTrap 7 0) s
          pure ({ s with places := s.places ++ [new] } : State)
        | some p =>
          need (p.gen == gen && p.plate == va && p.group == gi && p.state.toNat == st) (accessTrap 7 0) s
          pure (s.onPlace e fun p => if p.declared.contains i then p
            else { p with declared := p.declared ++ [i], changed := i :: p.changed.erase i })
      done (s.upd fun k => k.setS a (BitVec.ofNat 64 e))

/-! ## Arrival (R336, R354) -/

/-- A placement-race trap at an entry (R380). -/
def placeRace (e : Place) : Trap := { cause := .race, detail := e.idx, addr := e.plate }

/-- The keys of the running core's own part of an entry. -/
def State.ownKeys (s : State) (e : Place) : List (Nat × Nat) :=
  match s.ownPart e s.cur with
  | some p => s.partKeys (s.space s.cur).2 p.1 p.2
  | none => []

/-- What a demand of a state of an entry finds (R336, R354): whether the core arrives. It waits for a conversion at which it has arrived;
there is no arrival when the state stands, and a race when the open cut demands another. -/
def State.demanded (s : State) (e : Place) (st : Nat) : Run Bool :=
  if e.busy && e.arrived.contains s.cur.val then .error (.wait (.placement e.idx false) s)
  else if e.state.toNat = st && !e.busy then .ok false
  else if e.busy && e.pend.toNat != st then raise (placeRace e) s
  else .ok true

/-- Arrive at the cut of an entry (R27, R336, R354): the core's dirty bytes of its part are written back. It waits for the core's own requests
that the part reaches, with `.acq` for its earlier accesses at the scope. -/
def State.arrive (s : State) (e : Place) (st : Nat) (fl : EFlags) (hint : BitVec 4) : Run State :=
  let i := s.cur.val
  let keys := s.ownKeys e
  if s.reached i s.core.memq keys || (fl.acq && !s.performedAt i fl.scope) then .error (.stall s)
  else
    .ok (((s.writeBack i keys).onPlace e.idx fun p => { p with
        busy := true, pend := .ofNat 24 st, arrived := p.arrived ++ [i], changed := i :: p.changed.erase i }).upd
      fun c => { c with arrived := c.arrived ++ [{ entry := e.idx, fl := fl, hint := hint, pc := c.ctx.pc }] })

/-- `PLD` (R336). A plate that cannot be loaded traps before the core arrives (R380). -/
def execPld (h : Hx) (o1 : HReg) (o2 o3 : SReg) (fl : EFlags) (s : State) : Out :=
  s.issue128 h [(0, o1)] fun s => do
    let s ← s.drained
    let s := s.exch
    let (e, l, g) ← s.usePlace (s.core.getS o2) true
    let st := (s.core.getS o3).toNat
    need (stateOk e.handle.fmt.toNat g.axes st) (accessTrap 7 0) s
    let arrives ← s.demanded e st
    let (s, w) ← s.readPlate e.plate
    match plateCheck w with
    | .error t => raise t s
    | .ok hd =>
      let s ← if arrives then s.arrive e st fl h.hint else pure s
      done (s.upd fun c => c.setH o1 (partHandle hd g.axes st (s.coordsOfCore l e.group g s.cur)))

/-- `PCONV` (R354). -/
def execPconv (h : Hx) (o1 o2 : SReg) (fl : EFlags) (s : State) : Out :=
  s.issue128 h [] fun s => do
    let s ← s.drained
    let s := s.exch
    let (e, _, g) ← s.usePlace (s.core.getS o1) true
    let st := (s.core.getS o2).toNat
    need (stateOk e.handle.fmt.toNat g.axes st) (accessTrap 7 0) s
    let arrives ← s.demanded e st
    let s ← if arrives then s.arrive e st fl 0 else pure s
    done s

/-- `PSTATE` (R355). -/
def execPstate (h : Hd) (a b : SReg) (s : State) : Out :=
  s.issue96 h fun s => do
    let s := s.exch
    let v := (s.core.getS b).toNat
    need (v ≤ 511) (accessTrap 6 0) s
    let w := match (s.placesOf s.cur).find? (·.idx == v) with
      | none => 0
      | some e => packFields [(24, e.state.toNat), (16, e.version.toNat), (1, 1), (1, b1 e.busy),
          (1, b1 (e.busy && e.arrived.contains s.cur.val)), (5, 0), (8, e.group)]
    done (s.upd fun c => c.setS a (BitVec.ofNat 64 w))

/-- `PWAIT` (R356). -/
def execPwait (h : Hd) (b : SReg) (s : State) : Out :=
  s.issue96 h fun s => do
    let s ← s.drained
    let s := s.exch
    let (e, _, _) ← s.usePlace (s.core.getS b) false
    waitFor (!(e.busy && e.arrived.contains s.cur.val)) (.placement e.idx false) s
    done s

/-! ## Elements of a part (R166, R182, R183, R346) -/

/-- A position in a tensor. -/
abbrev Pos := Nat × Nat × Nat × Nat

/-- The index along a dimension. -/
def Pos.at (i : Pos) : Nat → Nat
  | 0 => i.1 | 1 => i.2.1 | 2 => i.2.2.1 | _ => i.2.2.2

/-- The positions of a line of a part, without dimension 0. -/
def Handle.linePos (h : Handle) (l : Nat) : Nat × Nat × Nat := (l % h.ext 1, l / h.ext 1 % h.ext 2, l / h.ext 1 / h.ext 2)

/-- The number of a line. -/
def Handle.lineNo (h : Handle) (i : Pos) : Nat := i.2.1 + h.ext 1 * (i.2.2.1 + h.ext 2 * i.2.2.2)

/-- The two lowest set bits of a stipple mask (R183, R250). -/
def keptOf (mask : Nat) : List Nat := (bitsSet 4 mask).take 2

/-- An element of a part laid out by `h` from offset 0 of its bytes: its bits, and whether its stipple map keeps it. -/
def Handle.element (h : Handle) (rd : Nat → Nat) (i : Pos) : Nat × Bool :=
  let l := h.lineNo i
  let x := i.1
  let np := h.planes.toNat + 1
  let plane (chunk k : Nat) : Nat :=
    let v := packFields ((List.range np).map fun p => (1, rd (l * h.stride1.toNat + chunk * 8 * np + 8 * p + k / 8) / 2 ^ (k % 8) % 2))
    if np = 1 then v else ofSval (max np (4 * h.nib)) (sval np v)
  if h.layout = 1 then (plane (x / 64) (x % 64), true)
  else if h.layout = 3 then
    let b := x / 4
    let kept := keptOf (rd (h.footprint + h.stripe + 16 * ceilDiv (h.ext 0) 128 * l + b / 2) / 16 ^ (b % 2) % 16)
    match kept.findIdx? (· == x % 4) with
    | some k => (plane (b / 32) (2 * (b % 32) + k), true)
    | none => (0, false)
  else
    let a := h.lineOff l + x * h.nib / 2
    (if h.nib = 1 then rd a / 16 ^ (x % 2) % 16 else packFields ((List.range (h.nib / 2)).map fun k => (8, rd (a + k))), true)

/-- The scale byte of a block. -/
def Handle.scaleAt (h : Handle) (rd : Nat → Nat) (i : Pos) : Nat := rd (h.footprint + h.scaleOff (h.lineNo i) (i.1 / 4))

/-- The words of the planes of one line: significands by chunk. -/
def Handle.planeBytes (h : Handle) (vs : List Nat) : List Byte :=
  (chunksOf 64 vs.length vs).flatMap fun c => (List.range (h.planes.toNat + 1)).flatMap fun p =>
    bytesLE 8 (packFields (c.map fun v => (1, v / 2 ^ p % 2)))

/-- A list made as long as a multiple of `k` with a filler. -/
def padded (k : Nat) (x : Nat) (l : List Nat) : List Nat := l ++ List.replicate (ceilDiv l.length k * k - l.length) x

/-- The bytes that a part laid out by `h` holds, as runs by offset, from its elements and scales; `fill` stands for what lies beyond
EXT0 in a chunk: plane bits, scales, stipple masks, which are zero (R119, R166, R250). -/
def Handle.partRuns (h : Handle) (fill : Nat) (el : Pos → Nat × Bool) (sc : Pos → Nat) : List (Nat × List Byte) :=
  if h.empty then [] else
  (List.range h.lines).flatMap fun l =>
    let p := h.linePos l
    let at_ (x : Nat) : Pos := (x, p.1, p.2.1, p.2.2)
    let es := (List.range (h.ext 0)).map fun x => el (at_ x)
    let blocks := List.range (ceilDiv (h.ext 0) 4)
    let chunk := if h.layout = 1 then 16 else if h.layout = 3 then 32 else 1
    let stripe := padded chunk fill (blocks.map fun b => sc (at_ (4 * b)))
    let scales := if h.isBlock then (List.range stripe.length).map fun b => (h.footprint + h.scaleOff l b, [BitVec.ofNat 8 (stripe.getD b 0)]) else []
    if h.layout = 1 then (l * h.stride1.toNat, h.planeBytes (padded 64 fill (es.map (·.1)))) :: scales
    else if h.layout = 3 then
      let per := blocks.map fun b => (es.drop (4 * b)).take 4
      let masks := per.map fun q => packFields (q.map fun e => (1, b1 e.2))
      let slots := (per.zip masks).flatMap fun q => let k := keptOf q.2; [0, 1].map fun j => (k[j]?).elim 0 fun x => (q.1.getD x (0, false)).1
      (l * h.stride1.toNat, h.planeBytes (padded 64 fill slots)) :: scales
        ++ [(h.footprint + h.stripe + 16 * ceilDiv (h.ext 0) 128 * l, packElems 1 (padded 32 (fill % 16) masks))]
    else (h.lineOff l, packElems h.nib (es.map (·.1))) :: scales

/-! ## What a conversion computes (R338, R347 to R349) -/

/-- The element format of a tag that admits P(op). -/
def tagEF : Nat → EF
  | 0x02 => .f32 | 0x03 => .f16 | 0x04 => .bf16 | 0x10 => .mk8 | 0x20 => .i8 | 0x22 => .i16 | 0x23 => .i32 | 0x24 => .i64 | _ => .f64

/-- The operator of a P byte. -/
def placeOp (arg : Nat) : RedOp := if arg = 1 then .max else if arg = 2 then .min else .sum

/-- The operator of a state's P axes. -/
def stateOp (st n : Nat) : RedOp := placeOp (((List.range n).find? fun a => stateKind st a == 2).elim 0 (stateArg st))

/-- The digits of a shard index in the extents of its axes (R346). -/
def shardDigits (axes : List (Nat × Bool)) : List Nat → Nat → List (Nat × Nat)
  | [], _ => []
  | a :: as, j => let n := (axes.getD a (1, false)).1; (a, j % n) :: shardDigits axes as (j / n)

/-- A conversion: the plate's handle with base and cursor 0, the mesh's axes, the states before and after, and the bytes of
each member's part. -/
structure Conv where
  h : Handle
  axes : List (Nat × Bool)
  src : Nat
  dst : Nat
  rd : Nat → Nat → Nat

/-- The handle of a member's part in a state, from offset 0. -/
def Conv.part (v : Conv) (st : Nat) (cs : List Nat) : Handle := { partHandle v.h v.axes st cs with base := 0 }

/-- Where a part begins along a dimension. -/
def Conv.origin (v : Conv) (st d : Nat) (cs : List Nat) : Nat := shardPos v.axes st d cs * shardLen v.h v.axes st d

/-- Axes that are P with the same operator before and after (R347). -/
def Conv.kept (v : Conv) (a : Nat) : Bool := stateKind v.src a == 2 && stateByte v.src a == stateByte v.dst a

/-- Axes that become P (R347). -/
def Conv.fresh (v : Conv) (a : Nat) : Bool := stateKind v.dst a == 2 && !v.kept a

/-- The coordinates along an axis that a member's element at a global position is folded over (R347). -/
def Conv.coords (v : Conv) (cs : List Nat) (i : Pos) (a : Nat) : List Nat :=
  let n := (v.axes.getD a (1, false)).1
  match stateKind v.src a with
  | 1 =>
    let d := stateArg v.src a
    let ds := shardDigits v.axes (shardAxes v.axes v.src d) (i.at d / max 1 (shardLen v.h v.axes v.src d))
    [((ds.find? (·.1 == a)).map (·.2)).getD 0]
  | 2 => if v.kept a then [cs.getD a 0] else List.range n
  | _ => [cs.getD a 0]

/-- The product of coordinate lists, axis 0 fastest: ascending member index. -/
def coordProduct : List (List Nat) → List (List Nat)
  | [] => [[]]
  | l :: ls => (coordProduct ls).flatMap fun t => l.map (· :: t)

/-- The local position of a global one in a member's part. -/
def Conv.toLocal (v : Conv) (cs : List Nat) (i : Pos) : Pos :=
  let f (d : Nat) := i.at d - v.origin v.src d cs
  (f 0, f 1, f 2, f 3)

/-- The global position of a local one of a member's part in the new state. -/
def Conv.toGlobal (v : Conv) (cs : List Nat) (i : Pos) : Pos :=
  let f (d : Nat) := i.at d + v.origin v.dst d cs
  (f 0, f 1, f 2, f 3)

/-- The members an element is folded over, in order (R347). -/
def Conv.sources (v : Conv) (cs : List Nat) (i : Pos) : List (List Nat) :=
  coordProduct ((List.range v.axes.length).map (v.coords cs i))

/-- An element of a member's part before the conversion. -/
def Conv.old (v : Conv) (i : Pos) (q : List Nat) : Nat × Bool :=
  (v.part v.src q).element (v.rd (memberIndex v.axes q)) (v.toLocal q i)

/-- An element of a member's part after the conversion, whether the stipple map keeps it, and the flags (R347 to R349). -/
def Conv.value (v : Conv) (cs : List Nat) (l : Pos) : (Nat × Bool) × Fl :=
  let i := v.toGlobal cs l
  let ef := tagEF v.h.fmt.toNat
  let vs := (v.sources cs i).map (v.old i)
  let x0 := vs.headD (0, false)
  let op := stateOp v.src v.axes.length
  let r := (vs.drop 1).foldl (fun a x => let y := redStep op ef .rne a.1.1 x.1; ((y.1, a.1.2 || x.2), a.2 ||| y.2)) (x0, 0)
  if (List.range v.axes.length).all fun a => !v.fresh a || cs.getD a 0 == 0 then r
  else ((redIdentity (stateOp v.dst v.axes.length) ef, r.1.2), 0)

/-- The scale of a block of a member's part after the conversion. -/
def Conv.scale (v : Conv) (cs : List Nat) (l : Pos) : Nat :=
  let i := v.toGlobal cs l
  let q := (v.sources cs i).headD []
  (v.part v.src q).scaleAt (v.rd (memberIndex v.axes q)) (v.toLocal q i)

/-- What a conversion writes into a member's part, by offset (R347): elements and scales; bits that the new state does not use
are left as they stand (R333). -/
def Conv.out (v : Conv) (m : Nat) : List (Nat × List Byte) :=
  let cs := memberCoords v.axes m
  let h := v.part v.dst cs
  let used := h.partRuns (2 ^ 64 - 1) (fun _ => (2 ^ 64 - 1, true)) (fun _ => 255)
  ((h.partRuns 0 (fun l => (v.value cs l).1) (v.scale cs)).zip used).map fun r =>
    (r.1.1, (List.range r.1.2.length).map fun k =>
      let m1 := r.2.2.getD k 0
      (r.1.2.getD k 0 &&& m1) ||| (BitVec.ofNat 8 (v.rd m (r.1.1 + k)) &&& ~~~m1))

/-- The positions of a part. -/
def Handle.positions (h : Handle) : List Pos :=
  if h.empty then [] else (List.range h.lines).flatMap fun l => (List.range (h.ext 0)).map fun x => (x, h.linePos l)

/-- The flags that a conversion raises (R337, R348). -/
def Conv.flags (v : Conv) (members : List Nat) : Fl :=
  members.foldl (fun a m => let cs := memberCoords v.axes m
    (v.part v.dst cs).positions.foldl (fun a l => a ||| (v.value cs l).2) a) 0

/-! ## Cuts and conversions (R337, R340, R350, R351) -/

/-- The device position of coordinates (R343). -/
def coordDev : List (Nat × Bool) → List Nat → Nat
  | (n, true) :: ax, c :: cs => c + n * coordDev ax cs
  | (_, false) :: ax, _ :: cs => coordDev ax cs
  | _, _ => 0

/-- The members of a mesh whose parts lie on this device. -/
def State.localMembers (s : State) (l : Launch) (e : Place) (g : Group) : List Nat :=
  (List.range (meshSize g.axes)).filter fun m => !g.axes.any (·.2) || coordDev g.axes (memberCoords g.axes m) == s.devPos l e.group

/-- The source bytes of a member's part: those that STATE uses, by virtual address (R333, R337). -/
def Place.sources (e : Place) (axes : List (Nat × Bool)) (m : Nat) : List (Nat × Nat) :=
  let h := { partHandle e.handle axes e.state.toNat (memberCoords axes m) with base := 0, cursor := 0 }
  (h.partRuns 0 (fun _ => (0, false)) (fun _ => 0)).map fun r => (e.handle.base.toNat + m * partSize e.handle + r.1, r.2.length)

/-- Whether every source byte of a part is mapped. -/
def State.partMapped (s : State) (root : Nat) (e : Place) (axes : List (Nat × Bool)) (m : Nat) : Bool :=
  (e.sources axes m).all fun r => ((s.partKeys root r.1 r.2).map (·.2)).foldl (· + ·) 0 == r.2

/-- Read a part at the point of coherence, page by page; bytes of a page that is not mapped are none of its sources. -/
def State.readPart (s : State) (root : Nat) (e : Place) (m : Nat) : State × List Byte :=
  (Machine.pieces 8192 (e.handle.base.toNat + m * partSize e.handle) (partSize e.handle)).foldl (fun r p =>
    match r.1.peek root p.1 with
    | some k => let x := r.1.coherentRead k p.2; (x.1, r.2 ++ x.2)
    | none => (r.1, r.2 ++ List.replicate p.2 0)) (s, [])

/-- The first poisoned granule among the source bytes of some parts (R319, R337). -/
def State.partPoison (s : State) (root : Nat) (e : Place) (axes : List (Nat × Bool)) (ms : List Nat) : Option Nat :=
  ms.findSome? fun m => (e.sources axes m).findSome? fun r => (s.partKeys root r.1 r.2).findSome? fun k => s.poisoned k.1 k.2

/-- Read parts in order. -/
def State.readParts (root : Nat) (e : Place) : List Nat → State → State × List (Nat × List Byte)
  | [], s => (s, [])
  | m :: ms, s =>
    let r := s.readPart root e m
    let rest := State.readParts root e ms r.1
    (rest.1, (m, r.2) :: rest.2)

/-- The conversion of an entry over the bytes of the parts read. -/
def Place.conv (e : Place) (g : Group) (parts : List (Nat × List Byte)) : Conv :=
  { h := { e.handle with base := 0, cursor := 0 }, axes := g.axes, src := e.state.toNat, dst := e.pend.toNat,
    rd := fun m k => match parts.find? (·.1 == m) with
      | some p => (p.2.getD k 0).toNat
      | none => 0 }

/-- The conversion is computed: its writes to this device's parts wait to be made; its flags are those of all members (R337, R348,
R366). -/
def State.convert (s : State) (l : Launch) (e : Place) (g : Group) (parts : List (Nat × List Byte)) : State :=
  let v := e.conv g parts
  let mine := s.localMembers l e g
  s.onPlace e.idx fun p => { p with
    closed := true, ready := true, written := [], flags := v.flags (List.range (meshSize g.axes)),
    parts := mine.flatMap fun m => (v.out m).map fun r => (m, e.handle.base.toNat + m * partSize e.handle + r.1, r.2) }

/-- Whether every participant of an entry has arrived, an exited one counting (R337). -/
def State.allArrived (s : State) (l : Launch) (e : Place) (g : Group) : Bool :=
  g.members.all fun i => e.arrived.contains i || s.exited l.record.seq i

/-- A participant's arrival at an entry is over. -/
def Core.unarrived (e : Nat) (c : Core) : Core := { c with arrived := c.arrived.filter (·.entry != e) }

/-- The fabric cut fails (R351): arrivals are dropped and every participant takes the race at its next boundary. -/
def State.cutFails (s : State) (l : Launch) (p : Place) (g : Group) : State :=
  let s1 := s.onPlace p.idx fun q => { q with busy := false, pend := 0, arrived := [], closed := false, ready := false, parts := [],
                                              written := [], flags := 0 }
  g.members.foldl (fun s i => s.onMember l.record.seq i fun c =>
    let pc := ((c.arrived.find? (·.entry == p.idx)).map (·.pc)).getD 0
    let c1 := c.unarrived p.idx
    if c.phase == .exited then c1 else
      { c1 with faults := c1.faults ++ [{ src := 6, cmdpc := pc, trap := placeRace p, eflt := false }] }) s1

/-- The other devices of an entry's mesh (R343). -/
def State.meshDevices (s : State) (l : Launch) (p : Place) : List Nat :=
  (((l.devLists.find? (·.1 == p.group)).map (·.2)).getD []).filter (· != s.devidx.toNat)

/-- Whether the launch of a device of an entry's mesh has ended (R344, R351). -/
def State.meshEnded (s : State) (l : Launch) (p : Place) : Bool :=
  (s.meshDevices l p).any fun d => l.linked.any fun x => x.dev == d && x.ended

/-- A device reports its entry, with the bytes of its own parts at its close, to the mesh's fabric cut (R350). -/
def State.reportCut (s : State) (l : Launch) (p : Place) (parts : List (Nat × List Byte)) : State :=
  (s.meshDevices l p).foldl (fun s d => s.sendTo d 3 (some l.record.seq) (.place
    { dev := s.devidx.toNat, plate := p.plate, group := p.group, state := p.state, pend := p.pend, version := p.version,
      ended := false, parts := parts })) s

/-- `PLACEMENT_CUT_CLOSE` (R337, R350): the sources are read; on one device the conversion is computed at once, across devices the cut
is reported. A poisoned source ends the launch (R319). -/
def execPlacementCutClose (e : Nat) (s : State) : Out :=
  match s.placeAt e with
  | none => .next s
  | some p => match s.placeMesh p with
    | none => .next s
    | some (l, g) =>
      if !p.busy || p.closed || !s.allArrived l p g then .next s
      else if s.meshEnded l p then .next (s.cutFails l p g)
      else
        let mine := s.localMembers l p g
        if !mine.all (s.partMapped l.record.root p g.axes) then .next s
        else match s.partPoison l.record.root p g.axes mine with
        | some a => .next (s.poisonLaunch l.record.seq a)
        | none =>
          let (s1, parts) := State.readParts l.record.root p mine s
          if g.axes.any (·.2) then
            .next ((s1.onPlace e fun q => { q with closed := true, ready := false, parts := parts.map fun x => (x.1, 0, x.2) }).reportCut
              l p parts)
          else .next (s1.convert l p g parts)

/-- `FABRIC_CUT_CLOSE` (R350, R351): the other devices' reports have come, with the bytes they read at their own closes. -/
def execFabricCutClose (e : Nat) (reports : List PlaceReport) (s : State) : Out :=
  match s.placeAt e with
  | none => .next s
  | some p => match s.placeMesh p with
    | none => .next s
    | some (l, g) =>
      let others := s.meshDevices l p
      if !p.closed || p.ready || !others.all (fun d => reports.any (·.dev == d)) then .next s
      else
        let rs := reports.filter fun r => others.contains r.dev
        if rs.any fun r => r.ended || r.plate != p.plate || r.group != p.group || r.state != p.state || r.pend != p.pend
            || r.version != p.version then .next (s.cutFails l p g)
        else .next (s.convert l p g (p.parts.map (fun x => (x.1, x.2.2)) ++ rs.flatMap (·.parts)))

/-- A core of each squad of a launch that takes part in a mesh. -/
def Launch.meshSquads (l : Launch) (g : Group) : List Nat := l.squads.filterMap fun q => q.cores.find? g.members.contains

/-- Write bytes at a virtual address of a launch's space, page by page, at their homes (R337); every squad of the mesh records them (R340). -/
def State.partWrite (s : State) (l : Launch) (g : Group) (va : Nat) (hint : BitVec 4) (bs : List Byte) : State :=
  (Machine.pieces 8192 va bs.length).foldl (fun s p =>
    match s.peek l.record.root p.1 with
    | some k => ((l.meshSquads g).foldl (fun s i => s.noted l.record.seq i true k p.2) s).memberWrite l.record.seq (g.members.headD 0) true k
        ((bs.drop (p.1 - va)).take p.2) hint
    | none => s) s

/-- The HINT with which a member's part is written: that of the `PLD` of a participant that runs there (R27). -/
def State.partHint (s : State) (l : Launch) (e : Place) (g : Group) (m : Nat) : BitVec 4 :=
  ((g.members.filter fun i => memberIndex g.axes (s.coordsOfCore l e.group g i) == m).findSome? fun i =>
    ((s.member l.record.seq i).arrived.find? (·.entry == e.idx)).map (·.hint)).getD 0

/-- Whether a member's part is written at `.sys` (R336, R350, R354): across devices, and for a participant there that asked for it. -/
def State.partAtSys (s : State) (l : Launch) (e : Place) (g : Group) (m : Nat) : Bool :=
  g.axes.any (·.2) || (g.members.filter fun i => memberIndex g.axes (s.coordsOfCore l e.group g i) == m).any fun i =>
    (s.member l.record.seq i).arrived.any fun a => a.entry == e.idx && a.fl.rel && a.fl.scope == .sys

/-- Whether the earlier accesses of the participants that asked for it with `.rel` have been performed at their scopes (R260, R336). -/
def State.arrivalsRelease (s : State) (l : Launch) (e : Place) (g : Group) : Bool :=
  g.members.all fun i => ((s.member l.record.seq i).arrived.filter fun a => a.entry == e.idx && a.fl.rel).all fun a =>
    (s.at i).launch != some l.record.seq || s.performedAt i a.fl.scope

/-- `CONVERSION_PART_WRITTEN` (R337, R350): the next part of this device, in ascending member index; a write that is performed at `.sys`
waits until no other device holds bytes of the part (R368). -/
def execConversionPartWritten (e : Nat) (s : State) : Out :=
  match s.placeAt e with
  | none => .next s
  | some p => match s.placeMesh p with
    | none => .next s
    | some (l, g) =>
      match if p.ready then (s.localMembers l p g).find? (!p.written.contains ·) else none with
      | none => .next s
      | some m =>
        let a := p.handle.base.toNat + m * partSize p.handle
        let keys := if s.partAtSys l p g m then s.partKeys l.record.root a (partSize p.handle) else []
        if keys.any fun k => s.knownElsewhere k.1 k.2 then .next (keys.foldl (fun s k => s.askOthers k.1 k.2) s)
        else
          let hint := s.partHint l p g m
          let s1 := (p.parts.filter (·.1 == m)).foldl (fun s r => s.partWrite l g r.2.1 hint r.2.2) s
          .next (s1.onPlace e fun q => { q with written := q.written ++ [m] })

/-- `CONVERSION_COMPLETE` (R337): the entry takes its new state and version, the flags go to every participant. -/
def execConversionComplete (e : Nat) (s : State) : Out :=
  match s.placeAt e with
  | none => .next s
  | some p => match s.placeMesh p with
    | none => .next s
    | some (l, g) =>
      if !p.ready || !(s.localMembers l p g).all p.written.contains || !s.arrivalsRelease l p g then .next s
      else
        let s1 := s.onPlace e fun q => { q with state := q.pend, version := q.version + 1, pend := 0, busy := false, arrived := [],
                                                closed := false, ready := false, parts := [], written := [], flags := 0 }
        .next (g.members.foldl (fun s i => s.onMember l.record.seq i fun c => (c.unarrived e).raise p.flags) s1)

end Sys2Proof.Machine
end

