-- ==== Sys2Proof/Machine/Copy.lean ====
section
/-! DEFINITION. The copy engine: fills, drains and sends, and commands that stop at a fault (R117, R173 to R176, R237, R240,
R244, R250, R251, R260, R287, R288, R384). -/

namespace Sys2Proof.Machine

/-! ## The bytes of a transfer in order (R175) -/

/-- Insert a pair of addresses by its first. -/
def insertAddr (x : Nat × Nat) : List (Nat × Nat) → List (Nat × Nat)
  | [] => [x]
  | y :: rest => if x.1 ≤ y.1 then x :: y :: rest else y :: insertAddr x rest

/-- Global and local addresses of the element bytes and of the scale stripe, in the order they are copied. Single bytes are sorted; where
elements of `hg` overlap, the bytes at one address go in the order of the elements (DESIGN CHOICE, log entry 125). -/
def CopyCmd.body (x : CopyCmd) : List (Nat × Nat) :=
  (x.hg.elemAddrs.zip x.hl.elemAddrs).foldr insertAddr []
    ++ (List.range x.hg.stripe).map fun k => (x.hg.start + x.hg.footprint + k, x.hl.start + x.hl.footprint + k)

/-- Global and local addresses of the stipple map. -/
def CopyCmd.map (x : CopyCmd) : List (Nat × Nat) :=
  (List.range x.hg.stipple).map fun k =>
    (x.hg.start + x.hg.footprint + x.hg.stripe + k, x.hl.start + x.hl.footprint + x.hl.stripe + k)

/-! ## The metadata cache (R251) -/

/-- Read a stretch of a stipple map within 64 bytes through the metadata cache; a miss waits for the core's own requests that those bytes
reach (R260). -/
def State.metaLoad (s : State) (i va n : Nat) (hint : BitVec 4) : Moved × List Byte :=
  match s.translate i { rd := true } va with
  | (s1, .error t) => (t.moved s1, [])
  | (s1, .ok (pa, _)) =>
    let base := pa / 64 * 64
    let cached := (s1.at i).metas.any (·.1 == base)
    if !cached && s1.reached i (s1.at i).memq [(base, 64)] then (.hold, []) else
    match if cached then .ok s1 else s1.enters i base 64 hint with
    | .error (.gone s2) => (.gone s2, [])
    | .error (.stall s2) => (.gone s2, [])
    | .error _ => (.hold, [])
    | .ok s2 =>
      let s3 := if (s2.at i).metas.any (·.1 == base) then s2 else s2.downgrade none base 64
      let (b, cache) := cacheRead 64 base 64 (s3.at i).metas (s3.memFor i)
      (.ok (s3.on i fun c => { c with metas := cache }), (b.drop (pa % 64)).take n)

/-- Read stretches of a map in order; `n` counts the bytes before them. -/
def State.metaLoads (i : Nat) (hint : BitVec 4) : Nat → List (Nat × Nat) → State → Moved × List Byte
  | _, [], s => (.ok s, [])
  | n, (va, k) :: rest, s =>
    match s.metaLoad i va k hint with
    | (.ok s1, bs) => let r := State.metaLoads i hint (n + k) rest s1; (r.1, bs ++ r.2)
    | (.stop s1 t _, _) => (.stop s1 t n, [])
    | (r, _) => (r, [])

/-- Cut stretches at multiples of 64. -/
def metaCuts (as : List Nat) : List (Nat × Nat) := (stretchesOf as).flatMap fun p => Machine.pieces 64 p.1 p.2

/-! ## Fills and drains -/

/-- Copy the bytes from the `lo`-th to the `hi`-th of a fill into the scratchpad. -/
def State.fillRange (s : State) (c : Nat) (x : CopyCmd) (lo hi : Nat) : Moved :=
  let body := x.body
  let b := (body.take hi).drop lo
  let m := (x.map.take (hi - body.length)).drop (lo - body.length)
  match State.engineLoads true c x.hint lo (stretchesOf (b.map (·.1))) s with
  | (.ok s1, bs) =>
    match State.metaLoads c x.hint (lo + b.length) (metaCuts (m.map (·.1))) s1 with
    | (.ok s2, ms) => .ok (s2.on c fun k => k.padWrite (((b ++ m).map (·.2)).zip (bs ++ ms)))
    | (r, _) => r
  | (r, _) => r

/-- The number of bytes of a transfer. -/
def CopyCmd.size (x : CopyCmd) : Nat := x.body.length + x.map.length

/-- Run a fill from where it stands. -/
def State.fillRun (s : State) (c : Nat) (x : CopyCmd) : Moved := s.fillRange c x x.done x.size

/-- A drain reads some stretches of the global map through the metadata cache (R251): what cannot be read ends the launch (R319), what is
elsewhere is awaited; a fault is left to the writes of the same bytes. -/
def State.touchMap (c : Nat) (x : CopyCmd) : List (Nat × Nat) → State → Moved
  | [], s => .ok s
  | p :: rest, s =>
    match s.metaLoad c p.1 p.2 x.hint with
    | (.ok s1, _) => State.touchMap c x rest s1
    | (.stop _ _ _, _) => State.touchMap c x rest s
    | (r, _) => r

/-- The bytes of a drain with their global addresses, in order. -/
def Core.drainCells (c : Core) (x : CopyCmd) : List (Nat × Byte) :=
  (x.body ++ x.map).map fun p => (p.1, (c.seen x.veil p.2 1).headD 0)

/-- Run a drain from where it stands. -/
def State.drainRun (s : State) (c : Nat) (x : CopyCmd) : Moved :=
  match State.touchMap c x (metaCuts (x.map.map (·.1))) s with
  | .ok s1 => s1.engineOut c x.pos x.done ((s.at c).drainCells x) 1 x.hint
  | r => r

/-- Change the copy command at place `k`. -/
def Core.onCopy (c : Core) (k : Nat) (f : CopyCmd → CopyCmd) : Core := { c with copies := c.copies.modify k f }

/-- Record the progress of a transfer in the command and its tile (R176, R177). -/
def Core.copyAt (k n : Nat) (c : Core) : Core :=
  match c.copies[k]? with
  | none => c
  | some x => (c.onCopy k fun x => { x with done := n }).setTile x.tile { c.tile x.tile with done := BitVec.ofNat 32 n }

/-- Run the transfer at place `k` of core `c`'s copy engine, if it may run (R173). -/
def State.copyMove (s : State) (c k : Nat) : Moved :=
  let me := s.at c
  match me.copies[k]? with
  | none => .hold
  | some x =>
    let st := (me.tile x.tile).st
    if !s.copyReady c x then .hold
    else match x.kind with
      | .fill => if st == .filling then s.fillRun c x else .hold
      | .drain => if st == .draining then s.drainRun c x else .hold
      | .send => .hold

/-- Whether the command at place `k` is of a kind. -/
def State.copyKind (s : State) (c k : Nat) (p : CopyKind) : Bool := ((s.at c).copies[k]?).any fun x => x.kind == p

/-- A core that waits in `TREL` for a drain goes on (R173). -/
def Core.wakeTrel (t : Nat) (c : Core) : Core := if c.wait == some (.emptied t) then { c with wait := some .satisfied } else c

/-- Complete a transfer whose bytes have all moved: its tile steps (R173, R287). -/
def Core.copyDone (k : Nat) (c : Core) : Core :=
  match c.copies[k]? with
  | none => c
  | some x =>
    let c1 := (Core.copyAt k x.size c)
    let c2 := { c1 with copies := c1.copies.eraseIdx k }
    match x.kind with
    | .fill => c2.tileFilled x.tile
    | .drain => (c2.tileEmptied x.tile).wakeTrel x.tile
    | .send => c2

/-- Move a transfer and complete it; with `.rel` once the core's writes are performed (R260). -/
def State.copyStep (s : State) (c k : Nat) : State :=
  match s.copyMove c k with
  | .ok s1 =>
    let m := s1.at c
    let held := (m.copies[k]?).any fun x => x.fl.rel && !s1.performedAt c x.fl.scope
    if held then s1.put c (Core.copyAt k ((m.copies[k]?).elim 0 (·.size)) m) else s1.put c (m.copyDone k)
  | .gone s1 => s1
  | _ => s

/-- `TFILL_COMPLETE` (R173, R175): the fill at place `k` moves its bytes and its tile becomes ready. -/
def execTfillComplete (c k : Nat) (s : State) : Out := .next (if s.copyKind c k .fill then s.copyStep c k else s)

/-- `TDRAIN_COMPLETE` (R173, R175): the drain at place `k` moves its bytes and its tile becomes empty. -/
def execTdrainComplete (c k : Nat) (s : State) : Out := .next (if s.copyKind c k .drain then s.copyStep c k else s)

/-! ## Sends (R237, R240, R288) -/

/-- Whether a timed send may land in its receiver now (R237): the receiver has left the `BAR` that opened the window, it has
reached the slot, its own earlier writes and those of earlier slots or lower senders have landed. -/
def State.timedReady (s : State) (c r : Nat) (l : Nat × Nat × Nat) : Bool :=
  let k := s.at r
  (match k.wait with | some (.bar g p _) => g != l.1 || p != l.2.1 | _ => true) && match k.dueAt l with
    | none => true
    | some d =>
      d ≤ k.sys.slots.toNat && k.pend.all (fun p => d < p.land) &&
        (s.ringIn r).all fun x => !(x.1 < d || (x.1 == d && x.2.1 < c))

/-- The core of a pod that the ring serves next (R394): of those with an untimed `SEND` that can move, the first after the last served. -/
def State.ringTurn (s : State) (pod : Nat) : Option Nat :=
  ((List.range 8).map fun j => ((s.pods.getD pod {}).ringTurn + 1 + j) % 8).find? fun j =>
    let o := 8 * pod + j
    (s.at o).copies.any fun x => x.kind == .send && x.timed.isNone && s.copyReady o x && (!x.fl.rel || s.performedAt o x.fl.scope)

/-- `SEND_LAND` (R237, R240, R288, R394): the bytes of the send at place `k` land in the target and the transfer completes: a timed one
in its slot, another when the ring serves its core. -/
def execSendLand (c k : Nat) (s : State) : Out :=
  match (s.at c).copies[k]? with
  | none => .next s
  | some x =>
    match s.sendMove c k with
    | none => .next s
    | some s1 =>
      match x.timed with
      | some l => .next (if s.timedReady c (8 * podOf c + x.tgt) l then s1 else s)
      | none => .next (if s.ringTurn (podOf c) == some (c % 8) then s1.onPod (podOf c) fun p => { p with ringTurn := c % 8 } else s)

/-! ## Commands stopped at a fault (R176, R196, R244, R352, R384) -/

/-- A fault of a command is raised (R384). -/
def Core.faulted (p : Pending) (c : Core) : Core := { c with faults := c.faults ++ [p] }

/-- The copy command at place `k` stops at a fault: what it moved stays moved. -/
def State.copyStops (s : State) (c k : Nat) : State :=
  match s.copyMove c k, (s.at c).copies[k]? with
  | .stop s1 t n, some x =>
    let s2 := match x.kind with
      | .fill => match s.fillRange c x x.done n with
        | .ok s3 => s3
        | _ => s1
      | _ => s1
    s2.on c fun m =>
      let m1 := (Core.copyAt k n m).onCopy k fun x => { x with stop := some false }
      (m1.setTile x.tile { m1.tile x.tile with flt := true }).faulted (stopped 1 x.pos x.pc t)
  | _, _ => s

/-- The port command at place `k` stops at a fault of its next element. -/
def State.portStops (s : State) (c k : Nat) : State :=
  match s.portMove c k, (s.at c).port[k]? with
  | .stop s1 t _, some x =>
    s1.on c fun m =>
      let m1 := (m.onPort k fun x => { x with stop := some false }).onCounter x.cc fun y => { y with flt := true }
      let m2 := if x.tile = 0xFF then m1 else m1.setTile x.tile { m1.tile x.tile with flt := true }
      m2.faulted (stopped 2 x.pos x.pc t)
  | _, _ => s

/-- The etcher command at the head of its queue stops at a fault. -/
def State.etchStops (s : State) (c : Nat) : State :=
  match (s.at c).readyEtch with
  | none => s
  | some x => match s.etchRun c x with
    | .stop s1 t n => s1.on c fun m => (m.etchAt n (some false)).faulted (stopped 4 x.pos x.pc t)
    | _ => s

/-- `COMMAND_STOPPED_AT_FAULT` (R176, R196, R244): a copy, port or etcher command has reached a faulting byte or element; the
other engines reach no memory that can fault. -/
def execCommandStoppedAtFault (c : Nat) (e : Engine) (k : Nat) (s : State) : Out :=
  .next <| match e with
  | .copy => s.copyStops c k
  | .port => s.portStops c k
  | .etcher => s.etchStops c
  | .plane | .rstat | .placement => s

end Sys2Proof.Machine
end

