-- ==== Sys2Proof/Machine/Cache.lean ====
section
/-! DEFINITION. Steps of a core's own storage: pending writes, the SFU, fills, ownership, write-backs, the home's messages, the
walkers (R10, R12, R87, R88, R90, R92, R98 to R100, R179, R212, R227). -/

namespace Sys2Proof.Machine

/-! ## The pending-write queue and the SFU -/

/-- Whether a due write lands before what a timed window brings (R237). -/
def State.landsNow (s : State) (c : Nat) (p : PendWrite) : Bool :=
  !s.frozenAt c p.land && (s.ringIn c).all fun x => p.land ≤ x.1

/-- `PENDING_WRITE_LAND` (R179): the first pending write lands when its slot has come. -/
def execPendingWriteLand (c : Nat) (s : State) : Out :=
  .next (match (s.at c).dueWrite with
    | some p => if s.landsNow c p then s.on c (·.land p) else s
    | none => s)

/-- Whether a core has a request that the SFU can start. -/
def Core.sfuWaiting (c : Core) : Bool := c.sfu.any fun r => !r.started && !r.withdrawn

/-- `SFU_REQUEST_START` (R163, R227): the next request in rotating order starts. -/
def execSfuRequestStart (pod : Nat) (s : State) : Out :=
  let p := s.pod pod
  match ((List.range 8).map fun k => (p.sfuTurn + 1 + k) % 8).find? fun k => (s.at (8 * pod + k)).sfuWaiting with
  | none => .next s
  | some k =>
    .next ((s.setPod pod { p with sfuTurn := k }).on (8 * pod + k) fun c => { c with sfu := c.sfu.map fun r => { r with started := true } })

/-- Deliver results into the pending write that waits for them. -/
def Core.deliver (r : SfuReq) (c : Core) : Core :=
  let out := sfuBytes r.fn r.ef r.src
  let give (p : PendWrite) : PendWrite :=
    if p.seq == r.seq then { p with bytes := cellsAt r.dst out.1, flags := out.2, ready := true } else p
  { c with sfu := none, pend := c.pend.map give, pendHeld := c.pendHeld.map give }

/-- `SFU_DELIVER` (R214, R227): a started request delivers, unless its dual path is made to report (R329, R330). -/
def execSfuDeliver (c : Nat) (s : State) : Out :=
  match (s.at c).sfu with
  | none => .next s
  | some r =>
    if !r.started then .next s
    else if bitAt (s.at c).sys.inj.toNat 3 then .next ((s.on c fun k => k.updSys (·.reported 3)).rollback c (.sfu (podOf c)))
    else .next (s.on c (·.deliver r))

/-! ## The memory queue -/

/-- Remove the request at place `k` of a memory queue. -/
def Core.dropReq (k : Nat) (c : Core) : Core := { c with memq := c.memq.eraseIdx k }

/-- Whether request `k` of the memory queue of core `c` waits for earlier ones that some pieces reach (R91). -/
def State.reachedBefore (s : State) (c k : Nat) (zs : List (Nat × Nat)) : Bool := s.reached c ((s.at c).memq.take k) zs

/-- Whether a granted store of core `c` has to wait: every way that it could take has a request outstanding (R87). -/
def State.storeWaits (s : State) (c pa : Nat) (bs : List Byte) : Bool :=
  let dry := storeAll (s.l1Env c) pa bs (s.at c).l1
  dry.waits (s.l1Env c) dry.lost

/-- `OWNERSHIP_GRANT` (R12, R87, R88, R367): the home, once no other device holds the bytes, grants the bytes of a store to a held
region, and the store is performed; while every way that it could take has a request outstanding it waits. -/
def execOwnershipGrant (c k : Nat) (s : State) : Out :=
  match (s.at c).memq[k]? with
  | some (.own _ pa bs hint) =>
    let n := bs.length
    if s.reachedBefore c k [(pa, n)] then .next s
    else match s.comes c true pa n with
      | some s1 => .next s1
      | none =>
        let s1 := (s.withdraw (some c) pa n).on c (Core.dropReq k)
        .next (if s1.storeWaits c pa bs then s else s1.onL1q c fun v es => storeL1 (v.hinted hint) pa bs es)
  | _ => .next s

/-- Whether an older write-back of a memory queue shares bytes with an extent. -/
def Core.wbackBefore (c : Core) (k pa n : Nat) : Bool := (c.memq.take k).any (·.wbackIn pa n)

/-- `WRITE_BACK_COMPLETE` (R87, R90): an outstanding write-back is performed at its home. -/
def execWriteBackComplete (c k : Nat) (s : State) : Out :=
  match (s.at c).memq[k]? with
  | some (.wback pa bs) =>
    if (s.at c).wbackBefore k pa bs.length then .next s else .next ((s.on c (Core.dropReq k)).homeWrite (some c) true pa bs)
  | _ => .next s

/-- The first page of an extent that a core's TLB does not translate. -/
def State.missing (s : State) (i va n : Nat) : Option Nat :=
  let sp := s.space i
  ((Machine.pieces 8192 va n).find? fun p => (findTlb sp.1 sp.2 p.1 (s.at i).tlb).isNone).map (·.1)

/-- Install what a fill names of an extent that the TLB translates, up to a fault (R92), and say whether all of it is there; the request leaves its
queue, and its hits are stamped (R87). The mode in which its bytes are read is the core's at that moment, which no rule says (DESIGN CHOICE, log entry 57). -/
def State.installed (s : State) (c k va n : Nat) (excl : Bool) (cls : RClass) : Run (State × Bool) := do
  let (s1, ps, t) := s.translateAll c { rd := true, user := !(s.at c).sys.sup } va n
  let zs := zonesOf ps
  let wait := s1.reachedBefore c k zs || t == some .away
  let s1 := s1.on c (Core.dropReq k)
  if wait then .error (.stall s1) else
  let s2 ← State.fillAll c excl cls false zs (s1.on c (Core.hits zs))
  return (s2, t.isNone)

/-- `L1_FILL` (R10, R88, R90, R92): the fill of a `PREF` is installed up to the first page that the TLB does not translate, which is
then walked (R98); a fault ends it. Pinned bytes that were invalidated, or whose team has returned, come back (R96). -/
def execL1Fill (c k : Nat) (s : State) : Out :=
  match (s.at c).memq[k]? with
  | some (.fill va n excl cls) =>
    match s.missing c va n with
    | none => .next (ran (s.installed c k va n excl cls) [])
    | some a =>
      let sp := s.space c
      if a = va then .next (s.setDie (dieOf c) ((s.die (dieOf c)).request sp.1 sp.2 a c))
      else .next (ran (s.installed c k va (a - va) excl cls) [.fill a (va + n - a) excl cls])
  | some (.repin pa n cls) =>
    let s1 := State.repin c (s.on c (Core.dropReq k)) (pa, n, cls)
    .next (if (s1.at c).stopped then s1.wakeTeam (s1.teamCores c) else s1)
  | _ => .next s
where
  /-- What a fill leaves in the queue: the rest of its extent, itself while it has to wait, nothing after a fault. -/
  ran (r : Run (State × Bool)) (rest : List MemReq) : State :=
    let place (s : State) (q : List MemReq) : State := s.on c fun x => { x with memq := x.memq.take k ++ q ++ x.memq.drop k }
    match r with
    | .ok (s1, whole) => if whole then place s1 rest else s1
    | .error (.stall s1) => place s1 (((s.at c).memq[k]?).toList)
    | .error (.gone s1) => s1
    | .error _ => s

/-- `WALK_COMPLETE` (R98 to R100). -/
def execWalkComplete (die k : Nat) (s : State) : Out := .next (if k < 64 then s.endWalk die k else s)

/-! ## Messages of a home (R90) -/

/-- `INVALIDATE` (R90). -/
def execInvalidate (c pa len : Nat) (s : State) : Out := .next ((s.drainWb (·.wbackIn pa len) c).invalidateAt c pa len)

/-- `DOWNGRADE` (R90). -/
def execDowngrade (c pa len : Nat) (s : State) : Out := .next ((s.drainWb (·.wbackIn pa len) c).onL1 c fun k es => downgradeL1 k pa len es)

end Sys2Proof.Machine
end

