-- ==== Sys2Proof/Machine/Events.lean ====
section
/-! DEFINITION. Events of supersteps, barriers, sync objects and traps: sub-rounds (R241, R242), phases (R275), grants (R281),
slot returns (R375), the completion and the rollback of a superstep (R231, R325), engine faults (R384). -/

namespace Sys2Proof.Machine

/-! ## Sub-rounds (R241, R242) -/

/-- Whether every member of a squad that has not exited waits at `SSTEP`. -/
def State.allArrivedStep (s : State) (seq : Word) (q : Squad) : Bool :=
  q.cores.all fun i => (s.member seq i).phase == .exited || (s.member seq i).atStep

/-- Whether the next sub-round of a squad opens: all have arrived, the open one has closed everywhere, packets remain. -/
def State.canOpen (s : State) (seq : Word) (l : Launch) (q : Squad) : Bool :=
  s.allArrivedStep seq q && q.cores.all (fun i => (s.member seq i).closed == q.subround + 1)
    && q.cores.any fun i => q.subround + 1 < (s.member seq i).rounds l.allowance

/-- `SUBROUND_OPEN` (R241): the next sub-round of the first squad of the launch that can opens. -/
def execSubroundOpen (launch : Nat) (s : State) : Out :=
  let seq := BitVec.ofNat 64 launch
  match s.launch seq with
  | none => .next s
  | some l => match l.squads.find? (s.canOpen seq l) with
    | none => .next s
    | some q => .next (s.updSquadOf seq (q.cores.headD 0) fun x => { x with subround := x.subround + 1 })

/-- Whether every packet declared to a member for the sub-rounds up to `k` has landed. -/
def Core.landedUpTo (q k : Nat) (c : Core) : Bool := c.inflow.all fun f => min f.declared ((k + 1) * q) ≤ f.landed

/-- The launches that have a member at core `c`: the resident one, and those whose image's home it is (R388). -/
def State.launchesAt (s : State) (c : Nat) : List Word :=
  (s.at c).launch.toList ++ (s.images.filter (·.home == c)).map (·.seq)

/-- Whether the open sub-round closes at the member of a launch at core `c`: all its packets have landed. -/
def State.closesAt (s : State) (c : Nat) (seq : Word) : Bool :=
  ((s.launch seq).bind fun l => (l.squadOf c).map fun q => (l, q)).any fun x =>
    let m := s.member seq c
    s.allArrivedStep seq x.2 && m.closed == x.2.subround && m.landedUpTo x.1.allowance x.2.subround

/-- `SUBROUND_CLOSE` (R242): the open sub-round closes at a receiver once all its packets have landed. -/
def execSubroundClose (c : Nat) (s : State) : Out :=
  .next (match (s.launchesAt c).find? (s.closesAt c) with
    | some seq => s.onMember seq c Core.closeRound
    | none => s)

/-! ## Barriers, sync objects, circular buffers -/

/-- `PHASE_CLOSE` (R232, R275): a full phase closes. -/
def execPhaseClose (launch group : Nat) (s : State) : Out :=
  let seq := BitVec.ofNat 64 launch
  match s.launch seq with
  | none => .next s
  | some l => match l.barSet group, l.group group with
    | some b, some g =>
      if !b.cur.isEmpty && s.phaseFull seq g b then .next (s.updBar seq group BarSet.closed) else .next s
    | _, _ => .next s

/-- `ACQ_GRANT` (R281): the home grants what the head of an object's queue allows. -/
def execAcqGrant (pa : Nat) (s : State) : Out := .next (State.grant pa (s.syncs.length + 1) s)

/-- `SLOT_RETURN` (R294, R375): the indices that a home on another device reserved go to the waiting `CBACQ`s in order. -/
def execSlotReturn (cb : Nat) (idx : List Nat) (s : State) : Out :=
  .next (if s.isRemote cb then idx.foldl (State.slotGiven cb) s else s)

/-! ## The end and the rollback of a superstep -/

/-- `SSTEP_COMPLETE` (R231): the superstep of the first squad of the launch that is ready completes. -/
def execSstepComplete (launch : Nat) (s : State) : Out :=
  let seq := BitVec.ofNat 64 launch
  match (s.launch seq).bind fun l => l.squads.find? fun q => !(s.live seq q).isEmpty && s.squadReady seq q with
  | none => .next s
  | some q => .next (s.stepOrAsk seq q)

/-- Whether a core is part of a unit (R318, R327). -/
def inUnit (u : FaultUnit) (i : Nat) : Bool :=
  match u with
  | .core c => i == c
  | .laneGroup p _ | .sfu p | .channel p _ => podOf i == p
  | .none => true

/-- The core that a member runs on, or, while it is away, the one it was saved from. -/
def State.placeOf (s : State) (seq : Word) (i : Nat) : Nat := ((s.images.find? fun m => m.seq == seq && m.home == i).map (·.place)).getD i

/-- The first member of a launch that has not exited and is part of a unit, with its squad. -/
def State.memberIn (s : State) (seq : Word) (u : FaultUnit) : Option (Squad × Nat) :=
  (s.launch seq).bind fun l => l.squads.findSome? fun q => ((s.live seq q).find? fun i => inUnit u (s.placeOf seq i)).map fun i => (q, i)

/-- `ROLLBACK` (R318, R325, R327): a rollback of a launch that has a core in the unit it is charged to; of a team that is away, the saved
images are rolled back. -/
def execRollback (launch : Nat) (u : FaultUnit) (s : State) : Out :=
  let seq := BitVec.ofNat 64 launch
  .next (match s.memberIn seq u with
    | some (q, i) => s.rollbackOf seq q i (BitVec.ofNat 64 (s.member seq i).team) u
    | none => s)

/-! ## Engine faults (R383, R384) -/

/-- The fault delivered first: lowest SRC, then the order in which they were raised (R383). -/
def firstFault : List Pending → Option Pending
  | [] => none
  | p :: rest =>
    match firstFault rest with
    | none => some p
    | some r => if r.src < p.src then some r else some p

/-- Whether a fault can be delivered to a core now (R384): in user mode, and not in `ACQ` or `CBACQ`; a `TREL` whose drain is
over completes first. -/
def Core.takesFault (c : Core) : Bool :=
  !c.sys.sup && (c.phase == .running || c.phase == .starting) && c.launch.isSome && !c.faults.isEmpty &&
    match c.wait with
    | some (.acq _) | some (.cbacq _) | some .satisfied => false
    | _ => true

/-- How a fault enters the handler from a core's wait (R275, R381, R384). -/
def Core.faultEntry (c : Core) (p : Pending) : Entry :=
  let e : Entry := { epc := c.ctx.pc, owed := c.sys.owed, impr := true, src := p.src, cmdpc := p.cmdpc, eflt := p.eflt }
  match c.wait, c.resume with
  | some (.bar g _ d), _ => { e with epc := c.ctx.pc + 8, owed := d, wkind := 1, wgrp := g }
  | some (.sstep n d), _ => { e with epc := n, owed := d + c.sys.owed, wkind := 2 }
  | none, some (.bar g _ _) => { e with wkind := 1, wgrp := g }
  | none, some (.sstep _ _) => { e with wkind := 2 }
  | _, _ => e

/-- The fault of a stopped command has been delivered (R385). -/
def markStop (p : Pending) (pos : Nat) (x : Option Bool) : Option Bool := if p.eflt && p.pos == pos && x == some false then some true else x

/-- A core whose fault is being delivered. -/
def Core.delivering (p : Pending) (c : Core) : Core :=
  { c with faults := c.faults.erase p,
           copies := c.copies.map fun x => { x with stop := markStop p x.pos x.stop },
           port := c.port.map fun x => { x with stop := markStop p x.pos x.stop },
           etch := c.etch.map fun x => { x with stop := markStop p x.pos x.stop } }

/-- Mark where a follower's leader trapped (R157). -/
def Core.leaderTrapped (pc : Word) (c : Core) : Core :=
  match c.replay.getLast? with
  | some r =>
    if r.pc == pc then { c with replay := c.replay.dropLast ++ [{ r with trapped := true }] }
    else { c with replay := c.replay ++ [{ pc := pc, instr := .nop 0, len := 8, next := pc, trapped := true }] }
  | none => { c with replay := [{ pc := pc, instr := .nop 0, len := 8, next := pc, trapped := true }] }

/-- The attached followers of core `i` detach where it traps, at `pc` (R157). -/
def State.tellTrap (s : State) (i : Nat) (pc : Word) : State := (s.attachedOf i).foldl (fun s k => s.on k (Core.leaderTrapped pc)) s

/-- Deliver the first fault of core `c` (R383, R384). -/
def State.deliverFault (s : State) (c : Nat) : State :=
  match firstFault (s.at c).faults with
  | none => s
  | some p =>
    if h : c < 768 then
      let me := s.at c
      let s1 := (s.tellTrap c me.ctx.pc).on c (Core.delivering p)
      ({ s1 with cur := ⟨c, h⟩ } : State).takeTrap p.trap (me.faultEntry p)
    else s

/-- `ENGINE_FAULT_DELIVERY` (R383, R384): in a wait; elsewhere the core's next turn delivers it, after a precise trap of the instruction
there. -/
def execEngineFaultDelivery (c : Nat) (s : State) : Out :=
  .next (
    if !(s.at c).takesFault then s
    else if (s.at c).wait.isSome || (s.at c).resume.isSome then s.deliverFault c
    else { s with agenda := .issue c :: s.agenda })

end Sys2Proof.Machine
end

