-- ==== Sys2Proof/Machine/Fabric.lean ====
section
/-! DEFINITION. The face toward the fabric and the hosts: link messages (R320, R321, R344, R353, R360 to R363, R367, R368), combining in
switches (R364, R365), snoops and writes of hosts (R369, R370, R405, R406), link training (R397). -/

namespace Sys2Proof.Machine

/-! ## What a home does for others -/

/-- The first byte of an extent that lies in a part of a BUSY entry (R353). -/
def State.refusedByte (s : State) (pa n : Nat) : Option Nat := (s.races 768 [(pa, pa, n)]).map (·.2)

/-- Do something for another device: its own copies are left out of account, and stay recorded. -/
def State.butFor (s : State) (src : Nat) (f : State → State) : State :=
  let s1 := f { s with remotes := s.remotes.filter (·.dev != src) }
  { s1 with remotes := s.remotes.filter (·.dev == src) ++ s1.remotes }

/-- An atomic performed at its home as one indivisible step (R113), or refused (R319, R353, R365). -/
def State.serveAtomic (s : State) (pa n : Nat) (f : Nat → Option Nat) : State × Served :=
  match s.poisoned pa n with
  | some g => (s.event 7 6 0 0 (physOf g), .poison g)
  | none =>
    match s.refusedByte pa n with
    | some b => let r := s.coherentRead pa n; (r.1, .race b (BitVec.ofNat 64 (ofBytesLE r.2)))
    | none =>
      let s1 := s.withdraw none pa n
      let old := ofBytesLE (s1.mem.read pa n)
      (match f old with
        | some v => (s1.homeWrite none false pa (bytesLE n v)).kept none pa (bytesLE n v)
        | none => s1, .done (BitVec.ofNat 64 old))

/-- The bytes of an atomic request. -/
def reqBytes (r : AtomicReq) : Nat := if r.dbl then 8 else 4

/-- An `AMO` request at its home. -/
def State.homeAtomic (s : State) (r : AtomicReq) : State × Served :=
  let n := reqBytes r
  s.serveAtomic r.pa n fun old => some (amoNew r.op n old (r.v.toNat % 2 ^ (8 * n))).1

/-- The home records what it has given another device (R367): the extent by itself while the directory has room for it, else its whole
zones. What the device holds in E or M stays recorded so. -/
def State.record (s : State) (dev pa n : Nat) (excl : Bool) : State :=
  let rest := s.remotes.filter fun r => !(r.dev == dev && pa ≤ r.start && r.start + r.len ≤ pa + n && (excl || !r.excl))
  if (rest.filter (·.dev == dev)).length < Config.directoryRoom then
    { s with remotes := rest ++ [{ dev := dev, start := pa, len := n, excl := excl }] }
  else
    let z := pa / 4096 * 4096
    let m := ceilDiv (pa + n - z) 4096 * 4096
    let hit (r : Remote) : Bool := r.dev == dev && r.meets z m
    { s with remotes := s.remotes.filter (!hit ·) ++
        [{ dev := dev, start := z, len := m, excl := excl || s.remotes.any fun r => hit r && r.excl }] }

/-- A miss, or a request for ownership, of another device (R319, R367): the bytes are sent and the copy is recorded. -/
def State.serveRead (s : State) (src pa n : Nat) (excl : Bool) : State :=
  if (s.poisoned pa n).isSome then s.sendTo src 1 none (.data pa [])
  else
    let s1 := s.butFor src fun s => if excl then s.withdraw none pa n else s.downgrade none pa n
    (s1.record src pa n excl).sendTo src 1 none (.data pa (s1.mem.read pa n))

/-- The home refuses a write of a core of device `src` and says what stands there (R353). -/
def State.refuse (s : State) (src byte pa n team : Nat) (seq : Word) (commit : Bool) : State :=
  let r := s.coherentRead pa n
  r.1.sendTo src 1 none (.refused team seq byte pa commit r.2)

/-- A write-back or a committed write of another device (R353, R367, R372): one that reaches a part of a BUSY entry is refused; else it is
performed, no other device holding the bytes any more, and that is answered (R259, R368). -/
def State.serveWrite (s : State) (src pa : Nat) (bs : List Byte) (team : Nat) (seq : Word) (commit : Bool) : State :=
  match s.refusedByte pa bs.length with
  | some b => s.refuse src b pa bs.length team seq commit
  | none => (State.queuesWritten s (s.butFor src fun s => s.coherentWrite none false pa bs)).sendTo src 1 none (.written pa bs.length team seq)

/-- A step of an agent on another device on a circular buffer of this one (R293, R324, R328). -/
def State.ringStep (s : State) (pa : Nat) (f : Ring → Ring) : State :=
  let s1 := (s.exposeAll pa).withdraw none pa 128
  let r := f (Ring.of (ofBytesLE (s1.mem.read pa 128)))
  let s2 := s1.setBytes none false pa (bytesLE 64 r.bits)
  State.serveCb pa (s2.cbs.length + 1) (s2.cbChanged pa) []

/-- A commit or a release of stages by an agent on another device. -/
def State.cbStep (s : State) (a : Aside) : State := s.ringStep a.pa fun r => Ring.apply a.pa r a

/-- An agent on another device gives up a hold (R281, R282). -/
def State.released (s : State) (pa : Nat) (excl : Bool) : State :=
  State.grant pa (s.syncs.length + 1) (s.syncStep none false pa (syncReleased · excl))

/-! ## What comes back to this device -/

/-- The core that a team index of a launch names. -/
def State.memberOf (s : State) (seq : Word) (team : Nat) : Option Nat := (s.launch seq).bind (·.coreOf team)

/-- The answer to an atomic on another device's bytes comes to the core that waits for it. -/
def State.answerFar (s : State) (seq : Word) (team : Nat) (v : Served) : State :=
  match s.memberOf seq team with
  | none => s
  | some i => s.onMember seq i fun c => if c.farAtom == some none then { c with farAtom := some (some v) } else c

/-- A grant of another device's home (R281): one that no request of this device waits for is given back. -/
def State.grantCame (s : State) (src pa team : Nat) (seq : Word) (excl : Bool) : State :=
  match s.syncs.find? fun r => r.pa == pa && r.dev == s.devidx.toNat && r.seq == seq && r.team == team && r.excl == excl && !r.granted with
  | none => s.sendTo src 0 (some seq) (.release pa excl)
  | some r =>
    ({ s with syncs := s.syncs.map fun x => if x == r then { x with granted := true } else x } : State).syncStep (some (seq, r.core)) false pa
      (syncHeld · excl team)

/-- The bytes of a miss have come (R319, R367): those of granules that the device holds already stand as they are. None have: the granule is
poisoned for who asked. What may be older than a withdrawal of the home is dropped, to be asked for again (R91, R360). -/
def State.dataCame (s : State) (src pa : Nat) (bs : List Byte) : State :=
  let n := bs.length
  match (s.misses.filter fun m => m.start == pa && (n = 0 || m.len == n)).getLast? with
  | none => s
  | some m =>
    let s1 := { s with misses := s.misses.erase m }
    if m.void then s1
    else if n = 0 then { s1 with poison := if s1.poison.contains pa then s1.poison else pa :: s1.poison }
    else
      { s1 with mem := s1.mem.writeAll ((cellsAt pa bs).filter fun b => !s.holds false b.1 1),
                holding := { dev := src, start := pa, len := n, excl := m.excl } ::
                  s1.holding.filter fun r => !(pa ≤ r.start && r.start + r.len ≤ pa + n && (m.excl || !r.excl)) }

/-- A write of a core has been performed, or refused, at its home. -/
def State.writeEnded (s : State) (pa n team : Nat) (seq : Word) : State :=
  { s with farWrites := s.farWrites.erase { pa := pa, len := n, team := team, seq := seq } }

/-- A home has refused a write of a core (R353): the bytes there stand. A committed write ends its launch; after a write-back the core takes
the race. -/
def State.refusalCame (s : State) (team : Nat) (seq : Word) (byte pa : Nat) (commit : Bool) (bs : List Byte) : State :=
  let s1 := (s.putBack (pa, bs)).writeEnded pa bs.length team seq
  if commit then s1.endLaunch seq 13 (BitVec.ofNat 64 byte)
  else match s1.memberOf seq team with
    | none => s1
    | some i => s1.onMember seq i (Core.refused byte)

/-- The reply to Invalidate or Downgrade (R90, R353, R367, R368): dirty bytes are written, or refused as a write-back is, and the record
follows. -/
def State.replyCame (s : State) (src pa n : Nat) (kept : Bool) (dirty : List Dirty) : State :=
  let s1 := dirty.foldl (fun s d => match s.refusedByte d.pa d.bytes.length with
    | some b => s.refuse src b d.pa d.bytes.length d.team d.seq false
    | none => State.queuesWritten s (s.butFor src fun s => s.coherentWrite none false d.pa d.bytes)) s
  let own (r : Remote) : Bool := r.dev == src && r.meets pa n
  let inside (r : Remote) : Bool := pa ≤ r.start && r.start + r.len ≤ pa + n
  { s1 with remotes := (s1.remotes.filter fun r => !(own r && inside r && !kept)).map fun r =>
      if own r then { r with asked := false, excl := r.excl && !(kept && inside r) } else r }

/-! ## Coherence messages of another device's home (R90, R367, R368) -/

/-- What is left of an extent held outside some bytes, and those of it inside with a given state; none where they are gone. -/
def Remote.cut (pa n : Nat) (inside : Option Bool) (r : Remote) : List Remote :=
  let part (a b : Nat) (x : Bool) : List Remote := if a < b then [{ r with start := a, len := b - a, excl := x }] else []
  if !r.meets pa n then [r]
  else
    part r.start (max r.start pa) r.excl ++ part (min (r.start + r.len) (pa + n)) (r.start + r.len) r.excl ++
      match inside with
      | none => []
      | some x => part (max r.start pa) (min (r.start + r.len) (pa + n)) x

/-- The messages of a flow that have not been acknowledged. -/
def State.outTo (s : State) (dst cls : Nat) : List OutMsg := (s.outFlow dst cls).unacked ++ (s.outFlow dst cls).held

/-- The bytes of a write-back. -/
def OutMsg.dirty (m : OutMsg) : Option Dirty :=
  match m.body with
  | .write pa bs team seq _ => some { pa := pa, bytes := bs, team := team, seq := seq }
  | _ => none

/-- Invalidate, or with `kept` Downgrade, from the home of the bytes: they leave the L1s and the L2, or stay in S; the dirty ones go home with
the reply. Answers that the home may have sent before are void (R360). -/
def State.giveBack (s : State) (src pa n : Nat) (kept : Bool) : State :=
  let s1 := if kept then s.downgrade none pa n else (s.withdraw none pa n).l2Drops pa n
  let dirty := ((s1.outTo src 0).drop (s.outTo src 0).length).filterMap OutMsg.dirty
  let hit (m : Miss) : Bool := overlap m.start m.len pa n && (m.excl || !kept)
  ({ s1 with sends := s.sends, farWrites := s.farWrites, holding := s1.holding.flatMap (·.cut pa n (if kept then some false else none)),
             misses := s1.misses.map fun m => if hit m then { m with void := true } else m } : State).sendTo src 1 none (.reply pa n kept dirty)

/-! ## Linked launches (R344, R351) -/

/-- What another device has told of a step. -/
def Linked.told (n tries : Nat) (x : Linked) : LinkedStep → Linked
  | .ready => { x with ready := n + 1, tries := tries }
  | .rolled => { x with step := n, rolls := if x.step = n then x.rolls + 1 else 1 }
  | .applied => { x with applied := max x.applied (n + 1) }
  | .ended => { x with ended := true }

/-- Record what device `src` has told of a linked launch: with the launch, or, before it starts, on the side. -/
def State.hear (s : State) (src : Nat) (seq : Word) (n tries : Nat) (what : LinkedStep) : State :=
  if (s.launch seq).any (·.status == .running) then
    s.updLaunch seq fun l => { l with linked := l.linked.map fun x => if x.dev == src then x.told n tries what else x }
  else
    let mine (x : Word × Linked) : Bool := x.1 == seq && x.2.dev == src
    let old := ((s.early.find? mine).map (·.2)).getD { dev := src }
    { s with early := (seq, old.told n tries what) :: s.early.filter (!mine ·) }

/-- Another device has rolled back a superstep: so does this one, and is ready for it anew, with that rollback known (R344). -/
def State.rollWith (s : State) (seq : Word) (n : Nat) : State :=
  match (s.launch seq).bind fun l => l.squads.find? fun q => q.steps == n && !q.applied with
  | none => s
  | some q => s.rollSquad seq q

/-- The launch of a device of some meshes has ended: cuts that have closed here fail (R344, R351). -/
def State.cutsEnd (s : State) (seq : Word) : State :=
  match s.launch seq with
  | none => s
  | some l => s.places.foldl (fun s p => match l.group p.group with
    | some g => if p.gen == l.gen && p.closed && !p.ready && s.meshEnded l p then s.cutFails l p g else s
    | none => s) s

/-- What follows from a step of a linked launch on another device. -/
def State.linkedCame (s : State) (src : Nat) (seq : Word) (n tries : Nat) (what : LinkedStep) : State :=
  let s1 := s.hear src seq n tries what
  match what with
  | .rolled => s1.rollWith seq n
  | .ended => s1.cutsEnd seq
  | _ => s1

/-! ## Link messages (R320, R321, R360) -/

/-- The class in which a payload travels (R360); acknowledgements are of no flow. -/
def payloadClass : Payload → Option Nat
  | .write _ _ _ _ _ | .atomic _ | .cas _ _ _ _ _ _ _ | .read _ _ _ | .cbAcquire _ _ _ _ | .cbInit _ _ _ _ _ | .cbCommit _ _ | .cbRelease _ _
  | .cbAsk _ | .cbReport _ _ _ _ _ | .acquire _ _ _ _ _ | .release _ _ | .linked _ _ _ _ | .slots _ _ => some 0
  | .granted _ _ _ _ | .data _ _ | .found _ _ _ | .result _ _ | .written _ _ _ _ | .refused _ _ _ _ _ _ | .reply _ _ _ _ => some 1
  | .invalidate _ _ | .downgrade _ _ => some 2
  | .place _ => some 3
  | .ack _ _ | .nack _ _ _ => none

/-- What a request needs at its home before it can be performed. -/
inductive Needs where
  /-- no other device holds the bytes in E or M -/
  | shared
  /-- no other device holds the bytes -/
  | others
  /-- no device holds the bytes, who asks among them: a step at the point of coherence -/
  | all
  deriving DecidableEq, Repr

/-- The bytes of its home that a request concerns, and what it needs. -/
def payloadNeeds : Payload → Option (Nat × Nat × Needs)
  | .write pa bs _ _ _ => some (pa, bs.length, .others)
  | .atomic r => some (r.pa, reqBytes r, .all)
  | .cas _ _ pa dbl _ _ _ => some (pa, if dbl then 8 else 4, .all)
  | .read pa n excl => some (pa, n, if excl then .others else .shared)
  | .cbAcquire pa _ _ _ | .cbInit pa _ _ _ _ | .cbCommit pa _ | .cbRelease pa _ => some (pa, 128, .all)
  | .cbAsk pa => some (pa, 128, .shared)
  | .acquire pa _ _ _ _ | .release pa _ => some (pa, 8, .all)
  | _ => none

/-- What a message of device `src` waits for (R90, R113, R291, R367, R368): it stays in the receive buffer until the devices that hold the bytes
have replied. -/
def State.waitsFor (s : State) (src : Nat) (p : Payload) : Option State :=
  let others : State := { s with remotes := s.remotes.filter (·.dev != src) }
  match payloadNeeds p with
  | none => none
  | some (pa, n, .shared) => if others.heldElsewhere pa n then some (s.butFor src fun s => s.askDown pa n) else none
  | some (pa, n, .others) => if others.knownElsewhere pa n then some (s.butFor src fun s => s.askOthers pa n) else none
  | some (pa, n, .all) => if s.knownElsewhere pa n then some (s.askOthers pa n) else none

/-- The number that the next message of a flow carries (R360). -/
def State.flowNext (s : State) (src cls : Nat) : Nat := ((s.flows.find? fun f => f.1 == src && f.2.1 == cls).map (·.2.2)).getD 0

/-- A message of a flow has been delivered. -/
def State.flowStep (s : State) (src cls : Nat) : State :=
  { s with flows := (src, cls, (s.flowNext src cls + 1) % 2 ^ 32) :: s.flows.filter fun f => !(f.1 == src && f.2.1 == cls) }

/-- What a delivered message of device `src` does. A request whose bytes lie in another device's HBM does nothing here. A placement report
waits for its cut, whose close takes it (R350). -/
def State.payload (s : State) (src : Nat) (p : Payload) : State :=
  if (payloadNeeds p).any fun n => s.isRemote n.1 then s
  else match p with
    | .write pa bs team seq commit => s.serveWrite src pa bs team seq commit
    | .atomic r =>
      let x := s.homeAtomic r
      x.1.sendTo src 1 none (.result r x.2)
    | .cas team seq pa dbl _ e v =>
      let n := if dbl then 8 else 4
      let x := s.serveAtomic pa n fun old => if old = e.toNat % 2 ^ (8 * n) then some (v.toNat % 2 ^ (8 * n)) else none
      x.1.sendTo src 1 none (.found team seq x.2)
    | .read pa n excl => s.serveRead src pa n excl
    | .cbAcquire pa core team seq =>
      let s1 : State := { s.exposeAll pa with cbs := s.cbs ++ [{ pa := pa, dev := src, core := core, team := team, seq := seq }] }
      State.serveCb pa (s1.cbs.length + 1) s1 []
    | .cbInit pa size count team seq => (s.ringStep pa (Ring.fresh size count)).sendTo src 1 none (.found team seq (.done 0))
    | .cbCommit pa idx => s.cbStep (.commit pa idx)
    | .cbRelease pa n => s.cbStep (.tail pa n)
    | .cbAsk pa =>
      let r := s.reportOf pa
      ({ s with askers := if s.askers.contains (pa, src) then s.askers else s.askers ++ [(pa, src)] } : State).sendTo src 0 none
        (.cbReport pa r.resv r.head r.tail r.count)
    | .cbReport pa resv head tail count =>
      { s with reporting := s.reporting ++ [{ pa := pa, resv := resv, head := head, tail := tail, count := count }] }
    | .acquire pa core team seq excl =>
      s.enqueue { pa := pa, dev := src, core := core, team := team, seq := seq, excl := excl, granted := false }
    | .release pa excl => s.released pa excl
    | .linked seq n tries what => s.linkedCame src seq n tries what
    | .slots pa idx => if s.isRemote pa then idx.foldl (State.slotGiven pa) s else s
    | .granted pa team seq excl => s.grantCame src pa team seq excl
    | .data pa bs => s.dataCame src pa bs
    | .found team seq v => s.answerFar seq team v
    | .result r v => s.answerFar r.seq r.team v
    | .written pa n team seq => s.writeEnded pa n team seq
    | .refused team seq byte pa commit bs => s.refusalCame team seq byte pa commit bs
    | .reply pa n kept dirty => s.replyCame src pa n kept dirty
    | .invalidate pa n => s.giveBack src pa n false
    | .downgrade pa n => s.giveBack src pa n true
    | .place _ | .ack _ _ | .nack _ _ _ => s

/-- A message on a link: its source, destination, class and number. -/
abbrev MsgName := Nat × Nat × Nat × Nat

/-- A message has passed a link: its failures are forgotten. -/
def Port.passed (m : MsgName) (p : Port) : Port := { p with failing := p.failing.filter (·.1 != m) }

/-- A send of a message has failed on a link (R320): at the eighth in a row the link goes out of service. -/
def Port.failed (m : MsgName) (p : Port) : Port :=
  let n := ((p.failing.find? (·.1 == m)).map (·.2)).getD 0 + 1
  if 8 ≤ n then { p with st := .outOfService, failing := [] } else { p with failing := (m, n) :: p.failing.filter (·.1 != m) }

/-- A send has failed: it is reported, and so is a link that goes out of service (R318, R320, R405). -/
def State.linkFailed (s : State) (port : Nat) (m : MsgName) : State :=
  let s1 := (s.onPort port (Port.failed m)).event 3 5 port 0 0
  if (s1.linkPort port).st == .outOfService then s1.event 5 5 port 0 0 else s1

/-- One more retransmission (R363). -/
def Port.retried (p : Port) : Port := { p with retry := if p.retry = BitVec.allOnes 16 then p.retry else p.retry + 1 }

/-- One more congestion mark (R363). -/
def Port.marked (p : Port) : Port := { p with cmark := if p.cmark = BitVec.allOnes 16 then p.cmark else p.cmark + 1 }

/-- A message of a flow has been acknowledged: one that was held back may leave (R360). -/
def State.acked (s : State) (dst cls num : Nat) : State :=
  let f := s.outFlow dst cls
  s.setFlow (OutFlow.release (s.routed f) (f.held.length + 1) { f with unacked := f.unacked.filter (·.num != num) })

/-- A reply with a congestion mark (R361 to R363): the port counts it, and the flow that it answers takes its next entropy. -/
def State.marked (s : State) (port src : Nat) (p : Payload) : State :=
  let f := s.outFlow src (match p with | .reply _ _ _ _ => 2 | _ => 0)
  (s.onPort port Port.marked).setFlow { f with entropy := 5 * f.entropy + 1 }

/-- An acknowledgement or a negative one leaves by a port (R320, R360). -/
def State.control (s : State) (port dst : Nat) (p : Payload) : State := { s with controls := s.controls ++ [(port, dst, p)] }

/-- Deliver a message of a flow whose tag has verified (R321, R360): once, in the order of its flow. It is acknowledged when it has been
delivered, and so is a duplicate of one that has; a number beyond the next waits for those before it. -/
def State.deliverMsg (s : State) (port : Nat) (m : LinkMsg) : State :=
  let cls := m.cls.toNat
  let ahead := (m.seq.toNat + 2 ^ 32 - s.flowNext m.src cls) % 2 ^ 32
  let ack (s : State) : State := s.control port m.src (.ack m.cls m.seq)
  if payloadClass m.payload != some cls then s
  else if ahead != 0 then (if 2 ^ 31 ≤ ahead then ack s else s)
  else match s.waitsFor m.src m.payload with
    | some s1 => s1
    | none => ack (((if m.mark && m.cls = 1 then s.marked port m.src m.payload else s).flowStep m.src cls).payload m.src m.payload)

/-- `LINK_MESSAGE_RECEIVE` (R320, R321, R360, R363): a message is discarded, and negatively acknowledged, where its tag fails; acknowledgements
are of no flow. -/
def execLinkMessageReceive (port : Nat) (m : LinkMsg) (tagOk : Bool) (s : State) : Out :=
  let me := s.devidx.toNat
  .next <|
    if (s.linkPort port).st != .up then s
    else if !tagOk then (s.control port m.src (.nack me m.cls m.seq)).linkFailed port (m.src, me, m.cls.toNat, m.seq.toNat)
    else match m.payload with
      | .ack cls num => (s.onPort port (Port.passed (me, m.src, cls.toNat, num.toNat))).acked m.src cls.toNat num.toNat
      | .nack dst cls num => (s.onPort port Port.retried).linkFailed port (me, dst, cls.toNat, num.toNat)
      | _ => (s.onPort port (Port.passed (m.src, me, m.cls.toNat, m.seq.toNat))).deliverMsg port m

/-! ## Lost paths (R363) -/

/-- The devices to which messages wait and no path is left. -/
def State.lostTo (s : State) : List Nat :=
  ((s.sends.filter fun f => !f.unacked.isEmpty && (s.portsTo f.dst).isEmpty).map (·.dst)).dedup

/-- No path is left to a device (R5, R363): launches with a message to it that is not acknowledged end, and what was asked of it or recorded
of it is forgotten. -/
def State.linkLost (s : State) (dst : Nat) : State :=
  let ms := (s.sends.filter (·.dst == dst)).flatMap fun f => f.unacked ++ f.held
  let port := (ms.findSome? (·.port)).getD 0
  let s1 := ((ms.filterMap (·.seq)).dedup).foldl (fun s q => s.endLaunch q 14 (BitVec.ofNat 64 port)) s
  { s1 with
    sends := s1.sends.map fun f => if f.dst == dst then { f with next := ((f.unacked.head?).map (·.num)).getD f.next, unacked := [], held := [] } else f,
    misses := s1.misses.filter fun m => m.start / 2 ^ 41 != dst, farWrites := s1.farWrites.filter fun w => w.pa / 2 ^ 41 != dst,
    remotes := s1.remotes.filter (·.dev != dst), holding := s1.holding.filter (·.dev != dst) }

/-- Messages not acknowledged leave the links that are out of service (R363): by another path, or, with none left, their launches end. -/
def State.settleLinks (s : State) : State :=
  if s.sends.isEmpty then s
  else
    let s1 := s.lostTo.foldl State.linkLost s
    let on (m : OutMsg) : Bool := m.port.any fun p => (s1.linkPort p).st == .up
    { s1 with sends := s1.sends.map fun f => { f with unacked := f.unacked.map fun m => if on m then m else s1.routed f m } }

/-! ## Combining (R364, R365) -/

/-- The size of a request in bits. -/
def reqBits (r : AtomicReq) : Nat := 8 * reqBytes r

/-- Whether two requests may combine (R364): `AMO.add.sys`; those to memory beyond a host port never do (R370). -/
def combines (a b : AtomicReq) : Bool := a.sys && b.sys && a.op == .add && b.op == .add && a.pa == b.pa && a.dbl == b.dbl && a.pa / 2 ^ 52 == 0

/-- The order of a wait buffer: source device, then source team index, then issue order. -/
def reqBefore (a b : AtomicReq) : Bool :=
  a.dev < b.dev || (a.dev == b.dev && (a.team < b.team || (a.team == b.team && a.ord < b.ord)))

/-- Insert a constituent in order: a run that was combined before stands as one, by its first (R364). -/
def insertReq (r : AtomicReq) : List AtomicReq → List AtomicReq
  | [] => [r]
  | x :: rest => if reqBefore r x then r :: x :: rest else x :: insertReq r rest

/-- The sum of operands, modulo the size. -/
def sumReqs (bits : Nat) (rs : List AtomicReq) : Nat := (rs.map (·.v.toNat)).foldl (fun a v => (a + v) % 2 ^ bits) 0

/-- A run with one more constituent. -/
def Combined.add (r : AtomicReq) (c : Combined) : Combined :=
  let ps := insertReq r c.parts
  { c with parts := ps, fwd := { ps.headD r with v := BitVec.ofNat 64 (sumReqs (reqBits r) ps) } }

/-- The wait-buffer entries in use at a switch port: the constituents of its combined runs. -/
def State.waitBuffer (s : State) (sw port : Nat) : Nat :=
  (s.switch.map fun c => if c.sw != sw || c.port != port || c.parts.length < 2 then 0 else c.parts.length).foldl (· + ·) 0

/-- A request goes on from the switch that forwards it. -/
def State.passesOn (s : State) (r : AtomicReq) : State :=
  match s.switch.findIdx? fun c => !c.onward && c.reply.isNone && c.fwd == r with
  | some k => { s with switch := s.switch.modify k fun c => { c with onward := true } }
  | none => s

/-- `SWITCH_REQUEST_ARRIVAL` (R364): a request, or the run that another switch forwards, is forwarded, or combined with one that it meets in the
input queue of the port. -/
def execSwitchRequestArrival (r : SwitchArrival) (s : State) : Out :=
  let sw := r.sw
  let port := r.port
  let s1 := s.passesOn r.req
  let alone : Out := .next { s1 with switch := s1.switch ++ [{ sw := sw, port := port, fwd := r.req, parts := [r.req] }] }
  match s1.switch.findIdx? fun c => c.sw == sw && c.port == port && !c.onward && c.reply.isNone && combines c.fwd r.req with
  | some k =>
    if s1.waitBuffer sw port + (if ((s1.switch[k]?).map (·.parts.length)).getD 0 < 2 then 2 else 1) ≤ 512 then
      .next { s1 with switch := s1.switch.modify k (Combined.add r.req) }
    else alone
  | none => alone

/-- `HOME_ATOMIC` (R113, R365): a request that a last switch forwards is performed at its home here, or refused with all its constituents. It waits
until no other device holds the bytes. -/
def execHomeAtomic (k : Nat) (s : State) : Out :=
  match s.switch[k]? with
  | none => .next s
  | some c =>
    if c.reply.isSome || c.onward || s.isRemote c.fwd.pa then .next s
    else if s.knownElsewhere c.fwd.pa (reqBytes c.fwd) then .next (s.askOthers c.fwd.pa (reqBytes c.fwd))
    else
      let x := s.homeAtomic c.fwd
      .next { x.1 with switch := x.1.switch.modify k fun c => { c with reply := some x.2 } }

/-- The values that the constituents of a run receive (R364). -/
def splitReply (bits v : Nat) : List AtomicReq → List (AtomicReq × Word)
  | [] => []
  | r :: rest => (r, BitVec.ofNat 64 v) :: splitReply bits ((v + r.v.toNat) % 2 ^ bits) rest

/-- What the constituents of a run receive: each its value, or the refusal of the run (R364, R365). -/
def Combined.split (c : Combined) : Served → List (AtomicReq × Served)
  | .done v => (splitReply (reqBits c.fwd) v.toNat c.parts).map fun x => (x.1, .done x.2)
  | r => c.parts.map fun x => (x, r)

/-- A constituent's reply: to the switch that forwarded it, to a core of this device, or to another device, marked when the queue it leaves is
long (R362). -/
def State.replyTo (s : State) (x : AtomicReq × Served) : State :=
  match s.switch.findIdx? fun c => c.onward && c.reply.isNone && c.fwd == x.1 with
  | some k => { s with switch := s.switch.modify k fun c => { c with reply := some x.2 } }
  | none =>
    if x.1.dev == s.devidx.toNat then s.answerFar x.1.seq x.1.team x.2
    else { s with replies := s.replies ++ [(x.1, x.2, decide (48 < Config.queueDepth s.tick (Config.ports + x.1.dev)))] }

/-- `REPLY_SPLIT` (R364). -/
def execReplySplit (k : Nat) (s : State) : Out :=
  match s.switch[k]? with
  | none => .next s
  | some c => match c.reply with
    | none => .next s
    | some v => .next ((c.split v).foldl State.replyTo { s with switch := s.switch.eraseIdx k })

/-! ## Hosts (R353, R369, R370, R406) -/

/-- `CXL_SNOOP` (R370): a 64-byte granule leaves the L2 and the L1s, dirty bytes written back with the reply. -/
def execCxlSnoop (addr : Nat) (s : State) : Out :=
  .next ((s.withdraw none (addr / 64 * 64) 64).l2Drops (addr / 64 * 64) 64)

/-- The number under which the host behind a port stands among those that keep copies (R369). -/
def hostNumber (port : Nat) : Nat := 2048 + port

/-- Whether bytes lie in the window of HBM that is exposed to the hosts (R369). -/
def State.inWindow (s : State) (a n : Nat) : Bool :=
  a / 2 ^ 52 == 0 && !s.isRemote a && s.hdm.1 ≤ a % 2 ^ 41 && a % 2 ^ 41 + n ≤ s.hdm.1 + s.hdm.2

/-- Whether a host may access bytes (R359, R369): its own memory and that behind its port, and the window of HBM through a port that is up
and enumerated with CXL.mem. -/
def State.hostReaches (s : State) (port a n : Nat) : Bool :=
  a / 2 ^ 52 == 1 || a / 2 ^ 52 == 2 || (s.inWindow a n && (s.hostPorts.getD port { up := false }).up && (s.hostPorts.getD port {}).mem)

/-- The port that a host's access comes by: the one that an address beyond a port names (R359), one of the two for the window of HBM
(log entry 119). -/
def State.hostPortOf (s : State) (a : Nat) : Nat := if a / 2 ^ 52 = 0 then Config.windowPort s.tick % 2 else a % 2 ^ 52 / 2 ^ 51

/-- A host's write is refused (R353, R405, R406): the protocol's error response, a data error on CXL.mem and Completer Abort on CXL.io, and the
event, with the first refused byte. -/
def State.refuseHost (s : State) (port a byte : Nat) : State :=
  ({ s with hostErrors := s.hostErrors ++ [(port, if a / 2 ^ 52 = 2 then .completerAbort else .dataError)] } : State).event 8 8 port 0
    (byte % 2 ^ 52)

/-- `HOST_WRITE` (R353, R370, R405, R406): serialised at the home like any other write, once no device and no other host holds the bytes; one
that meets a part of a BUSY entry is refused whole and reported. -/
def execHostWrite (addr : Nat) (bytes : List Byte) (s : State) : Out :=
  let n := bytes.length
  let port := s.hostPortOf addr
  .next <|
    if !s.hostReaches port addr n then s
    else match s.refusedByte addr n, s.waitsFor (hostNumber port) (.write addr bytes 0 0 false) with
      | some b, _ => s.refuseHost port addr b
      | none, some s1 => s1
      | none, none => State.queuesWritten s (s.butFor (hostNumber port) fun s => s.coherentWrite none false addr bytes)

/-- The host behind a port reads bytes of the window of HBM over CXL.mem and keeps a copy, exclusive with `excl` (R369): once no device and no
other host holds them in a way that forbids it. A poisoned granule is reported and given to no one (R319). -/
def State.hostRead (s : State) (port a n : Nat) (excl : Bool) : State :=
  let g := a / 64 * 64
  let k := ceilDiv (a + n - g) 64 * 64
  if n = 0 || !s.inWindow a n || !s.hostReaches port a n then s
  else match s.poisoned g k, s.waitsFor (hostNumber port) (.read g k excl) with
    | some p, _ => s.event 7 6 0 0 (physOf p)
    | none, some s1 => s1
    | none, none =>
      (s.butFor (hostNumber port) fun s => if excl then s.withdraw none g k else s.downgrade none g k).record (hostNumber port) g k excl

/-- The host behind a port gives back its copy of some bytes, asked by a back-invalidation snoop or not, with what it has made dirty while it held
them exclusively (R369); bytes that reach a part of a BUSY entry are refused (R353, R406). -/
def State.hostReply (s : State) (port a n : Nat) (dirty : List (Nat × List Byte)) : State :=
  let mine (r : Remote) : Bool := r.dev == hostNumber port
  let owns (d : Nat × List Byte) : Bool := s.remotes.any fun r => mine r && r.excl && r.start ≤ d.1 && d.1 + d.2.length ≤ r.start + r.len
  let s1 := (dirty.filter owns).foldl (fun s d => match s.refusedByte d.1 d.2.length with
    | some b => s.refuseHost port d.1 b
    | none => State.queuesWritten s (s.butFor (hostNumber port) fun s => s.coherentWrite none false d.1 d.2)) s
  { s1 with remotes := s1.remotes.flatMap fun r => if mine r then r.cut a n none else [r] }

/-- The link of a host port trains, and is enumerated with the protocols that it offers (R359, R369): with a partner that needs what the device
does not support the port is down. A host that is not reached any more keeps no copies. -/
def State.trainHost (s : State) (port : Nat) (needs : List HostFeature) (mem cache : Bool) : State :=
  { s with hostPorts := s.hostPorts.setIfInBounds port { up := needs.isEmpty, mem := mem, cache := cache },
           remotes := if needs.isEmpty && mem then s.remotes else s.remotes.filter (·.dev != hostNumber port) }

/-! ## Link training (R397) -/

/-- A port's status word (R363). -/
def Port.word (p : Port) : Nat :=
  packFields [(2, match p.st with | .down => 0 | .training => 1 | .up => 2 | .outOfService => 3), (4, p.lanes), (10, 0), (16, p.retry.toNat),
    (16, p.cmark.toNat)]

/-- The device indices that the ports report as reachable (R397). -/
def State.reachable (s : State) : List Nat :=
  (List.range 2048).filter fun d => s.ports.toList.any fun p => p.st == .up && (p.partner == some d || p.reach.contains d)

/-- `LINK_TRAINING` (R363, R397): a port that is down begins to train; one in training comes up and PRESENT is built anew. Before the device has
its index, and with a partner of the same index, it stays in training. -/
def execLinkTraining (port lanes partner : Nat) (reach : List Nat) (s : State) : Out :=
  let p := s.linkPort port
  if p.st == .down then .next (s.onPort port fun p => { p with st := .training })
  else if p.st != .training || !s.idok || partner == s.devidx.toNat then .next s
  else
    let s1 := s.onPort port fun p => { p with st := .up, lanes := min 8 lanes, partner := some partner, reach := reach, failing := [] }
    .next { s1 with present := s1.reachable }

end Sys2Proof.Machine
end

