-- ==== Sys2Proof/Machine/Launch.lean ====
section
/-! DEFINITION. What the launch unit reads and checks before a launch starts (R150 to R153, R159, R160, R257, R343, R391, R392,
R414), and what it loads into the cores (R52, R71, R150, R152, R162). -/

namespace Sys2Proof.Machine

/-! ## Reading the launch's address space -/

/-- A check that fails gives the status and the DETAIL of the completion record (R402). -/
abbrev Check (α : Type) := Except (Nat × Word) α

/-- A failing check unless a condition holds. -/
def check (c : Bool) (status : Nat) : Check Unit := if c then .ok () else .error (status, 0)

/-- Bytes of an address space, page by page, at the point of coherence; a page that is not mapped fails the check that needs
them (log entry 21). -/
def State.readPages (root bad : Nat) : List (Nat × Nat) → State → Check (State × List Byte)
  | [], s => .ok (s, [])
  | (va, n) :: rest, s =>
    match s.peek root va with
    | none => .error (bad, 0)
    | some k =>
      match s.poisoned k n with
      | some g => .error (12, BitVec.ofNat 64 (physOf g))
      | none => do
        let (s1, bs) := s.coherentRead k n
        let r ← State.readPages root bad rest s1
        return (r.1, bs ++ r.2)

/-- The bytes of a table at a virtual address. -/
def State.table (s : State) (root va n bad : Nat) : Check (State × List Byte) :=
  if 2 ^ 53 < va + n then .error (bad, 0) else State.readPages root bad (Machine.pieces 8192 va n) s

/-! ## Cores, grid, chains (R152, R153, R414) -/

/-- The cores that 96 core masks name, in ascending die, pod and `id.core`. -/
def maskCores (ms : List Nat) : List Nat := (List.range Config.pods).flatMap fun p => (bitsSet 8 (ms.getD p 0)).map (8 * p + ·)

/-- The nonzero entries of a list, each with its place. -/
def withPlace (l : List Nat) : List (Nat × Nat) := ((List.range l.length).zip l).filter fun x => x.2 != 0

/-- The product of numbers. -/
def product (l : List Nat) : Nat := l.foldl (· * ·) 1

/-- Whether extents and grid counts fit a number of cores (R152). -/
def gridOk (e g : List Nat) (n : Nat) : Bool := e.all (1 ≤ ·) && g.all (1 ≤ ·) && product g == n

/-- Whether CHAIN bits join only cores of the launch (R153). -/
def chainOk (cores : List Nat) (links : List (Nat × Nat)) : Bool :=
  links.all fun x => (bitsSet 7 x.2).all fun i => cores.contains (8 * x.1 + i) && cores.contains (8 * x.1 + i + 1)

/-- The CHAIN bytes of a record's CSET, by pod (R153, R400): bit 7 of each is zero, and the bits join cores of the launch only. -/
def chainsOf (cores : List Nat) (bs : List Byte) : Check (List (Nat × Nat)) := do
  let ls := withPlace (bs.map (·.toNat))
  check (ls.all fun x => x.2 < 128) 3
  check (chainOk cores ls) 3
  return ls

/-- The lowest retired core among some (R414). -/
def State.retiredIn (s : State) (cores : List Nat) : Option Nat := cores.find? fun i => (s.at i).retired

/-- Origins and extents of a team index (R152). -/
def gridAt (e g : List Nat) (n : Nat) : List (Nat × Nat) :=
  let at' (l : List Nat) (d : Nat) := l.getD d 1
  (List.range 4).map fun d =>
    let p := ceilDiv (at' e d) (max 1 (at' g d))
    let q := n / max 1 (product (g.take d))
    let c := if d = 3 then q else q % max 1 (at' g d)
    (c * p, min p (at' e d - c * p))

/-! ## The group table and its device lists (R159, R160, R343) -/

/-- The axis fields of an entry (R159): extent − 1 and whether it ranges over devices. -/
def axisField (w j : Nat) : Nat × Bool := (field w (16 + 16 * j) 12, bitAt w (28 + 16 * j))

/-- An entry of the group table. -/
def groupEntry (w : Nat) : Group :=
  { kind := field w 0 4, axes := (List.range (field w 4 2)).map fun j => ((axisField w j).1 + 1, (axisField w j).2),
    members := bitsSet 768 (field w 64 768) }

/-- Whether the axis fields from a place on are zero. -/
def axesZero (w k : Nat) : Bool := (List.range 3).all fun j => j < k || axisField w j == (0, false)

/-- Whether a mesh's members and axes fit the launch (R160). -/
def meshOk (cores : List Nat) (g : Group) : Bool :=
  let pods := (g.members.map podOf).dedup
  let podAxes := g.axes.filter (!·.2)
  1 ≤ g.axes.length && product ((g.axes.filter (·.2)).map (·.1)) ≤ 2048
    && (podAxes.isEmpty || (pods.length == product (podAxes.map (·.1)) && cores.all fun c => !pods.contains (podOf c) || g.members.contains c))

/-- Whether a nonempty entry passes on its own (R160). -/
def groupOk (cores : List Nat) (g : Group) : Bool :=
  !g.members.isEmpty && g.members.all cores.contains &&
    match g.kind with
    | 1 => g.axes.isEmpty && g.onePod && g.members.length ≤ 8
    | 2 | 3 => g.axes.isEmpty
    | 4 => meshOk cores g
    | _ => false

/-- Whether a table passes as a whole: one gang and four entries for a core at most (R160). -/
def tableOk (cores : List Nat) (t : List (Nat × Group)) : Bool :=
  t.all (fun x => groupOk cores x.2) && cores.all fun c =>
    let mine := t.filter fun x => x.2.members.contains c
    mine.length ≤ 4 && (mine.filter fun x => x.2.kind == 1).length ≤ 1

/-- Read an entry: empty ones have every field zero, meshes no axis field beyond NAXES (R159, R160). -/
def entryOf (w : Nat) : Option (Option Group) :=
  let g := groupEntry w
  if g.kind = 0 then (if g.axes.isEmpty && axesZero w 0 && g.members.isEmpty then some none else none)
  else if g.kind = 4 && !axesZero w g.axes.length then none
  else some (some g)

/-- Read a table of 256 entries: the nonempty ones with their indices. -/
def tableOf (ws : List Nat) : Check (List (Nat × Group)) :=
  ((List.range ws.length).zip ws).foldlM (init := []) fun acc x =>
    match entryOf x.2 with
    | none => .error (4, 0)
    | some none => .ok acc
    | some (some g) => .ok (acc ++ [(x.1, g)])

/-- Read the group table of a record (R150, R159). -/
def State.readGroups (s : State) (r : Rec) : Check (State × List (Nat × Group)) :=
  if r.gtab = 0 then .ok (s, []) else do
    let (s, bs) ← s.table r.root r.gtab 32768 4
    let t ← tableOf ((chunksOf 128 256 bs).map ofBytesLE)
    return (s, t)

/-- Read the device lists of the meshes that have a device axis (R343, R400). -/
def State.readDevices (r : Rec) : List (Nat × Group) → State → Check (State × List (Nat × List Nat))
  | [], s => .ok (s, [])
  | (i, g) :: rest, s =>
    if !g.axes.any (·.2) then State.readDevices r rest s else do
      check (r.devl != 0) 4
      let (s, a) ← s.table r.root (r.devl + 8 * i) 8 4
      let va := ofBytesLE a
      check (va != 0) 4
      let n := product ((g.axes.filter (·.2)).map (·.1))
      let (s, bs) ← s.table r.root va (2 * n) 4
      let l := (chunksOf 2 n bs).map ofBytesLE
      check (l.dedup.length == n && l.all (· < 2048) && l.contains s.devidx.toNat) 4
      let (s, more) ← State.readDevices r rest s
      return (s, (i, l) :: more)

/-! ## Regions and producers (R257, R391) -/

/-- Whether region entries pass (R257): each, an empty one too, in range and with an aligned object that meets no region; no two nonempty
regions overlap. -/
def regionsOk (rs : List Region) : Bool :=
  let full := rs.filter (·.len != 0)
  rs.all (fun r => r.base + r.len ≤ 2 ^ 53 && r.obj % 8 == 0 && full.all fun q => !(r.obj < q.base + q.len && q.base < r.obj + 8))
    && (List.range full.length).all fun i => (full.drop (i + 1)).all fun q =>
      let r := full.getD i { base := 0, len := 0, obj := 0 }
      !(r.base < q.base + q.len && q.base < r.base + r.len)

/-- Read the region table (R257). -/
def State.readRegions (s : State) (r : Rec) : Check (State × List Region) :=
  if r.rtab = 0 then .ok (s, []) else do
    let (s, bs) ← s.table r.root r.rtab (32 * r.nreg) 5
    let rs := ((chunksOf 32 r.nreg bs).map fun b =>
      let w := ofBytesLE b
      { base := field w 0 53, len := field w 64 32, obj := field w 128 53 : Region })
    check (regionsOk rs) 5
    return (s, rs.filter (·.len != 0))

/-- Read the producers (R391): launches accepted on the device before this one. -/
def State.readProducers (s : State) (r : Rec) (order : Nat) : Check (State × List Word) := do
  let (s, bs) ← s.table r.root r.deps (8 * r.ndep) 7
  let ps := (chunksOf 8 r.ndep bs).map wordLE
  check (ps.all fun p => s.launches.any fun l => l.record.seq == p && l.record.kind == 1 && l.order < order) 7
  return (s, ps)

/-! ## Stages (R392) -/

/-- A stage entry, with whether its fields lie in their ranges and its reserved fields are zero. -/
def stageOf (w : Nat) : Stage × Bool :=
  let st : Stage := { entry := field w 0 53, inq := field w 64 53, outq := field w 128 53, high := field w 192 8,
                      maxPods := field w 200 6, cores := BitVec.ofNat 8 (field w 208 8), start := BitVec.ofNat 48 (field w 256 48) }
  (st, field w 53 11 == 0 && field w 117 11 == 0 && field w 181 11 == 0 && field w 206 2 == 0 && field w 216 40 == 0
    && field w 304 208 == 0 && st.entry % 32 == 0 && st.inq % 128 == 0 && st.outq % 128 == 0 && 1 ≤ st.maxPods && st.maxPods ≤ 48
    && st.cores != 0 && popcount 48 st.start.toNat ≤ st.maxPods)

/-- Whether no number but 0 stands twice in a list. -/
def distinctOrZero (l : List Nat) : Bool := (l.filter (· != 0)).dedup.length == (l.filter (· != 0)).length

/-- Whether the stages go together (R392). -/
def stagesOk (l : List (Stage × Bool)) : Bool :=
  l.all (·.2) && distinctOrZero (l.map (·.1.inq)) && distinctOrZero (l.map (·.1.outq))
    && l.all (fun x => x.1.inq == 0 || x.1.inq != x.1.outq)
    && (List.range 48).all fun p => (l.filter fun x => x.1.start.getLsbD p).length ≤ 1

/-- The sum of MAXPODS over the stages before one (R392). -/
def stageBase (ss : List Stage) (s : Nat) : Nat := ((ss.take s).map (·.maxPods)).foldl (· + ·) 0

/-- The cores of an instance in a pod. -/
def Stage.coresIn (st : Stage) (pod : Nat) : List Nat := (bitsSet 8 st.cores.toNat).map (8 * pod + ·)

/-- The instances that a pipeline starts with: stage, number, pod (R371, R392). -/
def firstInstances (die : Nat) (ss : List Stage) : List (Nat × Nat × Nat) :=
  ((List.range ss.length).zip ss).flatMap fun x =>
    let ps := bitsSet 48 x.2.start.toNat
    ((List.range ps.length).zip ps).map fun y => (x.1, y.1, 48 * die + y.2)

/-! ## The checks in their order (R150) -/

/-- What the launch unit has read of a record. -/
structure Plan where
  masks : List (Nat × Nat) := []
  links : List (Nat × Nat) := []
  cores : List Nat := []
  stages : List Stage := []
  groups : List (Nat × Group) := []
  devLists : List (Nat × List Nat) := []
  regions : List Region := []
  producers : List Word := []
  deriving DecidableEq, Repr

/-- The cores of an ordinary launch, its grid and its chains (R152, R153, R400). -/
def State.planCores (s : State) (r : Rec) : Check (State × Plan) := do
  let (s, bs) ← s.table r.root r.cset 192 2
  let ms := (bs.take 96).map (·.toNat)
  let cores := maskCores ms
  check (gridOk r.e r.g cores.length) 2
  let ls ← chainsOf cores (bs.drop 96)
  return (s, { masks := withPlace ms, links := ls, cores := cores })

/-- The chains of a pipeline launch whose START pods hold some cores (R153, R400): none when its CSET is 0 (log entry 121). -/
def State.stageChains (s : State) (r : Rec) (cores : List Nat) : Check (State × List (Nat × Nat)) := do
  if r.cset = 0 then return (s, [])
  let (s, bs) ← s.table r.root r.cset 192 3
  let ls ← chainsOf cores (bs.drop 96)
  return (s, ls)

/-- The stages of a pipeline, the cores it starts with and their chains (R153, R392). -/
def State.planStages (s : State) (r : Rec) : Check (State × Plan) := do
  let (s, bs) ← s.table r.root r.pipe (64 * r.nstage) 6
  let ss := (chunksOf 64 r.nstage bs).map fun b => stageOf (ofBytesLE b)
  check (stagesOk ss) 6
  let stages := ss.map (·.1)
  let cores := (firstInstances r.die stages).flatMap fun x => ((stages[x.1]?).map (·.coresIn x.2.2)).getD []
  let (s, ls) ← s.stageChains r cores
  return (s, { stages := stages, links := ls, cores := (List.range Config.cores).filter cores.contains })

/-- Whether a launch has been started before, so that its next start is laid out by the first one (R328). -/
def Launch.restarts (l : Launch) : Bool := l.rerun && l.gen != 0

/-- The checks of R150 on a waiting launch, in their order. -/
def State.planLaunch (s : State) (l : Launch) : Check (State × Plan) := do
  let r := l.record
  check (r.spad % 16 == 0 && r.spad ≤ 288) 1
  let (s, p) ← if r.nstage = 0 then s.planCores r else s.planStages r
  match s.retiredIn p.cores with
  | some c => if l.restarts then pure () else .error (22, BitVec.ofNat 64 c)
  | none => pure ()
  let (s, gs) ← s.readGroups r
  check (tableOk p.cores gs) 4
  let (s, ds) ← State.readDevices r gs s
  let (s, rs) ← s.readRegions r
  let (s, ps) ← s.readProducers r l.order
  return (s, { p with groups := gs, devLists := ds, regions := rs, producers := ps })

end Sys2Proof.Machine
end

