-- ==== Sys2Proof/Machine/Start.lean ====
section
/-! DEFINITION. How a launch's cores start (R52, R71, R72, R149, R150, R152, R153, R162) and how a launch is laid out again after a
retirement (R328). -/

namespace Sys2Proof.Machine

/-! ## The layout of a re-run (R328) -/

/-- Grid counts no greater than given ones, whose product is at most `a`. -/
def grids (g : List Nat) (a : Nat) : List (List Nat) :=
  let upTo (d n : Nat) := (List.range (min (g.getD d 1) n)).map (· + 1)
  (upTo 0 a).flatMap fun x => (upTo 1 (a / x)).flatMap fun y => (upTo 2 (a / (x * y))).filterMap fun z =>
    let w := min (g.getD 3 1) (a / (x * y * z))
    if w = 0 then none else some [x, y, z, w]

/-- Whether a list of numbers comes later in the order of its elements. -/
def laterList : List Nat → List Nat → Bool
  | x :: xs, y :: ys => y < x || (x == y && laterList xs ys)
  | _, _ => false

/-- The grid of a re-run: largest product, then largest first count, and so on. -/
def regrid (g : List Nat) (a : Nat) : Option (List Nat) :=
  (grids g a).foldl (fun best x => match best with
    | none => some x
    | some y => if product y < product x || (product y == product x && laterList x y) then some x else best) none

/-- The cores of the first start. -/
def Launch.firstCores (l : Launch) : List Nat := l.coreMask.flatMap fun m => (bitsSet 8 m.2).map (8 * m.1 + ·)

/-- Whether a re-run leaves out whole pods. -/
def wholePods (t : List (Nat × Group)) : Bool :=
  t.any fun x => x.2.kind == 1 || (x.2.kind == 4 && x.2.axes.any (!·.2))

/-- The cores that remain for a re-run, in ascending order. -/
def State.remaining (s : State) (l : Launch) : List Nat :=
  let cs := l.firstCores
  let out (c : Nat) : Bool := (s.at c).retired || (wholePods l.table && cs.any fun d => podOf d == podOf c && (s.at d).retired)
  cs.filter (!out ·)

/-- The team index that a status 15 names: of the first core that has been retired (R402). -/
def State.lostTeam (s : State) (l : Launch) : Word := BitVec.ofNat 64 ((l.firstCores.findIdx? fun c => (s.at c).retired).getD 0)

/-- The CHAIN bits whose two cores are both among some (R328). -/
def keptLinks (cores : List Nat) (links : List (Nat × Nat)) : List (Nat × Nat) :=
  (links.map fun x => (x.1, ((bitsSet 7 x.2).filter fun i =>
    cores.contains (8 * x.1 + i) && cores.contains (8 * x.1 + i + 1)).foldl (fun v i => v + 2 ^ i) 0)).filter (·.2 != 0)

/-- The plan of a re-run of an ordinary launch, with its grid (R328). -/
def State.replan (s : State) (l : Launch) (p : Plan) : Check (Plan × List Nat) := do
  let old := l.firstCores
  let rest := s.remaining l
  match regrid l.record.g rest.length with
  | none => .error (15, s.lostTeam l)
  | some g =>
    let cores := rest.take (product g)
    let place (c : Nat) : Option Nat := (old.findIdx? (· == c)).bind fun n => cores[n]?
    let groups := l.table.map fun x => (x.1, { x.2 with members := x.2.members.filterMap place })
    if tableOk cores groups then .ok ({ p with cores := cores, groups := groups, links := keptLinks cores l.links }, g)
    else .error (15, s.lostTeam l)

/-- The cores of an instance of a stage in a pod. -/
def stageCores (ss : List Stage) (stage pod : Nat) : List Nat := ((ss[stage]?).map (·.coresIn pod)).getD []

/-- The instances that a pipeline starts with (R328, R371, R392, R414): the START pods of a stage that hold no retired core which it names. -/
def State.instances (s : State) (die : Nat) (ss : List Stage) : List (Nat × Nat × Nat) :=
  ((List.range ss.length).zip ss).flatMap fun x =>
    let ps := (bitsSet 48 x.2.start.toNat).filter fun p => (x.2.coresIn (48 * die + p)).all fun c => !(s.at c).retired
    ((List.range ps.length).zip ps).map fun y => (x.1, y.1, 48 * die + y.2)

/-- The plan of a re-run of a pipeline (R328): an instance takes over the team indices that its number had in its stage, and the group table
is rebuilt by team index (log entry 114). -/
def State.replanStages (s : State) (l : Launch) (p : Plan) : Check Plan :=
  let old := firstInstances l.record.die p.stages
  let now := s.instances l.record.die p.stages
  let cores := now.flatMap fun x => stageCores p.stages x.1 x.2.2
  let place (c : Nat) : Option Nat :=
    (old.find? fun x => (stageCores p.stages x.1 x.2.2).contains c).bind fun x =>
      (now.find? fun y => y.1 == x.1 && y.2.1 == x.2.1).map fun y => 8 * y.2.2 + c % 8
  let groups := l.table.map fun x => (x.1, { x.2 with members := x.2.members.filterMap place })
  let lost := old.findSome? fun x => ((stageCores p.stages x.1 x.2.2).find? fun c => (s.at c).retired).map fun c =>
    8 * (stageBase p.stages x.1 + x.2.1) + c % 8
  if cores.isEmpty || !tableOk cores groups then .error (15, BitVec.ofNat 64 (lost.getD 0))
  else .ok { p with cores := (List.range Config.cores).filter cores.contains, groups := groups, links := keptLinks cores l.links }

/-! ## The unified array and the die's context (R102, R149, R162) -/

/-- Vacate whole every entry that occupies a granule of the new scratchpad (R162). -/
def vacateL1 (spad : Nat) (es : List L1Entry) : List L1Entry × Wbs :=
  let inside (e : L1Entry) : Bool := e.grans.any (· < spad * 64)
  (es.filter (!inside ·), (es.filter inside).flatMap (·.dirty))

/-- The context of a launch (R149). -/
def Rec.context (r : Rec) : BitVec 12 × Nat × Word := (r.asid, r.root, r.ctx)

/-- Prepare the array of core `i` for a launch (R162): what is vacated is written back, the other entries stay as they are. -/
def State.prepareArray (r : Rec) (s : State) (i : Nat) : State :=
  let s := s.drainWb (fun _ => true) i
  s.onL1 i fun _ es => if (s.at i).lastCtx == some r.context then vacateL1 r.spad es else emptyL1 es

/-- A die takes up a context word: when it changes, its L1s and its L2 are written back and emptied, and the pinned rows of its L2
are released (R102, R149). What the L2 holds dirty is memory's already (log entry 17). -/
def State.enterDie (ctx : Word) (s : State) (d : Nat) : State :=
  if (s.die d).ctx == some ctx then s
  else
    let busy := (List.range 384).map (384 * d + ·) |>.filter fun i => !(s.at i).l1.isEmpty || !(s.at i).memq.isEmpty
    let s := busy.foldl (fun s i => (s.drainWb (fun _ => true) i).onL1 i fun _ es => emptyL1 es) s
    s.setDie d { s.die d with ctx := some ctx, l2 := [], pinned := [] }

/-! ## Starting cores (R52, R71, R72, R150, R154, R379, R400) -/

/-- The indices of the entries that a core belongs to, as `id.grp` names them (R160). -/
def grpNames (groups : List (Nat × Group)) (i : Nat) : Vector Word 4 :=
  let mine := (groups.filter fun x => x.2.members.contains i).map (·.1)
  Vector.ofFn fun k : Fin 4 => match mine[k.val]? with | some n => BitVec.ofNat 64 n | none => 0xFFFFFFFFFFFFFFFF

/-- A context at a kernel's entry. -/
def Ctx.entry (pc : Nat) (args : List Word) (attached : Bool) : Ctx :=
  { Ctx.reset with pc := BitVec.ofNat 64 pc, attached := attached,
                   regs := (List.range 16).foldl (fun v k => v.setIfInBounds (16 + k) (args.getD k 0)) (Vector.replicate 288 0) }

/-- A core as the launch unit starts it: its caches are those it had. -/
def Core.launched (c : Core) (r : Rec) (gen team chainPos : Nat) (x : Ctx) (d : Ident) : Core :=
  { c.freed with
    phase := .starting, launch := some r.seq, gen := gen, team := team, ctx := x, proof := x, proofPhase := .running,
    sys := { wthr := r.thr, pmax := r.pmax, lmax := r.lmax, tvec := r.tvec }, ident := d, chainPos := chainPos,
    padKiB := r.spad, lastCtx := some r.context, carried := c.l1.flatMap (·.dirty) }

/-- Start a core of a launch: its team index, its place in the grid, its kernel. -/
def State.startCore (l : Launch) (args : List Word) (g : List Nat) (entry : Nat) (s : State) (x : Nat × Nat × Nat) : State :=
  let i := x.1
  let s := State.prepareArray l.record s i
  let at' := gridAt l.record.e g x.2.2
  let word (f : Nat × Nat → Nat) : Vector Word 4 := Vector.ofFn fun k : Fin 4 => BitVec.ofNat 64 (f (at'.getD k.val (0, 0)))
  let k := chainLinks (l.chainOf (podOf i)) (i % 8)
  s.on i fun c => c.launched l.record l.gen x.2.1 k (Ctx.entry entry args (k != 0))
    { org := word (·.1), ext := word (·.2), grp := grpNames l.groups i }

/-- A squad over some cores, with the barrier sets and gangs that begin among them. -/
def squadOver (groups : List (Nat × Group)) (stage inst : Nat) (cores : List Nat) : Squad :=
  let mine := groups.filter fun x => cores.contains (x.2.members.headD 768)
  let bars : List BarSet := (mine.filter (·.2.kind == 2)).map fun x => { group := x.1, phase := false, closes := 0, cur := [], next := [] }
  { stage := stage, inst := inst, cores := cores, bars := bars, barsProof := bars,
    gangs := (mine.filter (·.2.kind == 1)).map fun x => { group := x.1 } }

/-- A launch ends because of a granule that cannot be read (R319), or of a check that fails. -/
def State.refuseLaunch (s : State) (seq : Word) (e : Nat × Word) : State :=
  let s := if e.1 = 12 then s.event 7 6 0 seq e.2.toNat else s
  s.endLaunch seq e.1 e.2

/-- The arguments of a launch (R52, R400); pages that are not mapped give zeros (log entry 21), a granule that cannot be read ends the
launch (R319). -/
def State.readArgs (s : State) (r : Rec) : Check (State × List Word) :=
  match s.table r.root r.args 128 18 with
  | .ok (s, bs) => .ok (s, (chunksOf 8 16 bs).map wordLE)
  | .error e => if e.1 = 12 then .error e else .ok (s, [])

/-- Each element with its place. -/
def enumerate {α : Type} (l : List α) : List (Nat × α) := (List.range l.length).zip l

/-- Start an instance of a stage in a pod (R371, R374, R392). -/
def State.startInstance (seq : Word) (stage inst pod : Nat) (s : State) : State :=
  match s.launch seq with
  | none => s
  | some l => match l.stages[stage]? with
    | none => s
    | some st =>
      let cores := st.coresIn pod
      let base := 8 * (stageBase l.stages stage + inst)
      let l := { l with chain := (keptLinks cores l.links).filter (·.1 == pod) ++ l.chain.filter (·.1 != pod) }
      match s.readArgs l.record with
      | .error e => s.refuseLaunch seq e
      | .ok (s, args) =>
      let s := State.enterDie l.record.ctx s (dieOf (8 * pod))
      let s := (enumerate cores).foldl (fun s x =>
        State.startCore l args [cores.length, 1, 1, 1] st.entry s (x.2, base + x.2 % 8, x.1)) s
      s.updLaunch seq fun x => { x with squads := l.squads ++ [squadOver l.groups stage inst cores], chain := l.chain,
                                        carried := x.carried ++ cores.flatMap fun c => (s.at c).carried,
                                        finished := l.finished.filter (!cores.contains ·),
                                        team := cores.foldl (fun t c => t.set (base + c % 8) c) l.team }

/-- The home of each queue of a launch that starts is asked for a report, and answers at once (R372). -/
def State.askReports (s : State) (l : Launch) : State :=
  ((l.stages.flatMap fun st => [st.inq, st.outq]).filterMap fun q => if q = 0 then none else s.peek l.record.root q).foldl (fun s pa =>
    if s.isRemote pa then s.sendTo (pa / 2 ^ 41) 0 l.record.seq (.cbAsk pa) else { s with reporting := s.reporting ++ [s.reportOf pa] }) s

/-- What the other devices of a launch's meshes have told of it when it starts (R343, R344; log entry 81). -/
def State.linkedOf (s : State) (l : Launch) (p : Plan) : List Linked :=
  if !p.stages.isEmpty then []
  else (((p.devLists.flatMap (·.2)).dedup).filter (· != s.devidx.toNat)).map fun d =>
    match l.linked.find? (·.dev == d) with
    | some x => x
    | none => ((s.early.find? fun x => x.1 == l.record.seq && x.2.dev == d).map (·.2)).getD { dev := d }

/-- Forget the reports of a launch's queues that no other running launch names (R372). -/
def State.dropReports (s : State) (l : Launch) : State :=
  let queues (l : Launch) : List Nat := (l.stages.flatMap fun st => [st.inq, st.outq]).filterMap fun q =>
    if q = 0 then none else s.peek l.record.root q
  let others := (s.launches.filter fun x => x.record.seq != l.record.seq && x.status == .running).flatMap queues
  { s with reports := s.reports.filter fun r => !(queues l).contains r.pa || others.contains r.pa }

/-- Start a launch whose record has passed its checks (R150). -/
def State.startLaunch (s : State) (l : Launch) (p : Plan) (g : List Nat) : State :=
  let first := !l.restarts
  let total := 8 * stageBase p.stages p.stages.length
  let l1 : Launch :=
    { l with status := .running, gen := s.gens + 1, coreMask := if first then p.masks else l.coreMask,
             links := if first then p.links else l.links, chain := p.links,
             table := if first then p.groups else l.table, groups := p.groups, regions := p.regions,
             producers := p.producers, devLists := p.devLists, stages := p.stages,
             team := if p.stages.isEmpty then p.cores else List.replicate total 768,
             squads := if p.stages.isEmpty then [squadOver p.groups 0 0 p.cores] else [],
             finished := [], linked := s.linkedOf l p, carried := [],
             triggered := false, exposed := false, shown := [], journal := [], journaled := l.record.jrnl != 0 }
  let s := ({ s with gens := s.gens + 1, early := s.early.filter (·.1 != l.record.seq) } : State).updLaunch l.record.seq fun _ => l1
  let s := s.clearCounts ((p.cores.map podOf).dedup)
  if p.stages.isEmpty then
    match s.readArgs l.record with
    | .error e => s.refuseLaunch l.record.seq e
    | .ok (s, args) =>
    let s := ((p.cores.map dieOf).dedup).foldl (State.enterDie l.record.ctx) s
    let s := (enumerate p.cores).foldl (fun s x => State.startCore l1 args g l.record.entry s (x.2, x.1, x.1)) s
    s.updLaunch l.record.seq fun l => { l with carried := p.cores.flatMap fun c => (s.at c).carried }
  else
    let s1 := (s.dropReports l1).askReports l1
    (s1.instances l.record.die p.stages).foldl (fun s x => State.startInstance l.record.seq x.1 x.2.1 x.2.2 s) s1

end Sys2Proof.Machine
end

