-- ==== Sys2Proof/Machine/Sched.lean ====
section
/-! DEFINITION. The launch unit (R149, R158, R286, R371 to R374, R386 to R394): which work starts or returns, swaps, pre-emption,
parking and the pods of a pipeline. -/

namespace Sys2Proof.Machine

/-! ## Pods and classes (R149, R390) -/

/-- Whether no launch holds a core of a pod. -/
def State.podFree (s : State) (p : Nat) : Bool := (List.range 8).all fun k => (s.at (8 * p + k)).launch.isNone

/-- Whether a die can run a context word: no team of another one is resident (R149). -/
def State.dieRuns (s : State) (ctx : Word) (d : Nat) : Bool :=
  s.launches.all fun l => l.status != .running || l.record.ctx == ctx ||
    l.squads.all fun q => q.cores.all fun i => dieOf i != d || (s.at i).launch != some l.record.seq

/-- Whether pods are free for a launch or a returning team (R149, R390). -/
def State.fits (s : State) (ctx : Word) (pods : List Nat) : Bool :=
  pods.all s.podFree && (pods.map (· / 48)).dedup.all (s.dieRuns ctx)

/-- Whether a launch waits to be started. -/
def Launch.waits (l : Launch) : Bool := l.record.kind == 1 && l.status == .waiting && !l.held

/-- The pods that a waiting launch asks for: those of its CSET, of a re-run's remaining cores, or of its stages' START. -/
def State.podsWanted (s : State) (l : Launch) : List Nat :=
  if l.record.nstage = 0 then
    if !l.coreMask.isEmpty then ((s.remaining l).map podOf).dedup
    else match s.table l.record.root l.record.cset 96 2 with
      | .ok (_, bs) => (withPlace (bs.map (·.toNat))).map (·.1)
      | .error _ => []
  else match s.planStages l.record with
    | .ok (_, p) => ((s.instances l.record.die p.stages).map (·.2.2)).dedup
    | .error _ => []

/-- Whether a launch that wants some pods concerns a die. -/
def onDie (pods : List Nat) (d : Nat) : Bool := pods.any (· / 48 == d)

/-! ## Teams that are away (R286, R386) -/

/-- The images of a member's team: its squad's on its die. -/
def State.teamOf (s : State) (m : Image) : List Image :=
  s.images.filter fun x => x.seq == m.seq && x.squad == m.squad && dieOf x.place == dieOf m.place

/-- The wait that a core is in: the one of its instruction, or a `BAR` or `SSTEP` that goes on after a trap (R275, R382). -/
def Core.waitNow (c : Core) : Option Wait := if c.wait.isSome then c.wait else c.resume

/-- Whether a wait is one of those of R148. -/
def Wait.counts : Wait → Bool
  | .emptied _ | .satisfied | .commands => false
  | _ => true

/-- Whether the event of a wait of core `c`, member `i` of a launch, has occurred (R286). Those of a transfer, a tile, an engine and a `JOIN` come
from the team itself: it tests them when it is back (log entry 115). -/
def State.waitOver (s : State) (seq : Word) (c : Core) (i : Nat) : Bool :=
  match c.waitNow with
  | none | some .satisfied => true
  | some .msg => !c.ctx.mailbox.isEmpty
  | some (.bar g t _) => ((s.launch seq).bind (·.barSet g)).all fun b => t ≤ b.closes
  | some (.sstep _ _) => false
  | some (.acq pa) => s.syncs.any fun r => r.pa == pa && r.core == i && r.seq == seq && r.granted
  | some (.cbacq _) => (c.cbIdx[c.cbPos]?).isSome
  | some (.cbwait pa n) =>
    let r := Ring.of (ofBytesLE ((s.memOf seq i).read pa 128))
    n ≤ r.head - r.tail || (s.isRemote pa && !s.holds false pa 128)
  | some (.placement e part) => s.places.all fun p => p.idx != e || !p.busy || !p.arrived.contains i ||
      (part && !(((s.launch seq).bind fun l => l.group p.group).any fun g =>
        !p.written.contains (memberIndex g.axes (((s.launch seq).map fun l => s.coordsOfCore l p.group g i).getD []))))
  | some .dep => ((s.launch seq).map (·.producers)).all fun ps => ps.all fun p => s.producer p != some false
  | some (.counter cc n) => n ≤ (c.counter cc).done.toNat
  | some .xfer | some .tile | some .engine | some .join | some .commands | some (.emptied _) | some .other => true

/-- Whether a member that is away would act if it were back: it runs, its own wait is over, or its engines or a fault have work for it. -/
def State.wouldAct (s : State) (x : Image) : Bool :=
  x.core.phase != .exited && (s.waitOver x.seq x.core x.home || !x.core.enginesIdle || !x.core.faults.isEmpty)

/-- Whether a wait of an image is for launches before its own (R391). -/
def Image.waitsDep (x : Image) : Bool := x.core.waitNow == some .dep

/-- Whether an away team asks to return: its launch is not pre-empted, it is not parked, and the event of the wait that had it
swapped has occurred, or may have to come from the team itself, which stands still while it is away (R286; log entry 115). -/
def State.wantsBack (s : State) (m : Image) : Bool :=
  match s.launch m.seq with
  | none => false
  | some l => !l.held && match m.why with
    | .parked _ => false
    | .preempt => true
    | .swap e => match s.images.find? fun x => x.seq == m.seq && x.home == e with
      | some x => s.waitOver m.seq x.core e || (!x.waitsDep && (s.teamOf m).any s.wouldAct)
      | none => true

/-! ## Stages that gain a pod (R372, R374) -/

/-- The last report of a queue. -/
def State.lastReport (s : State) (root q : Nat) : Option Report := (s.peek root q).bind fun pa => s.reports.find? (·.pa == pa)

/-- Whether an instance of a stage is parked, the oldest first. -/
def State.parkedOf (s : State) (l : Launch) (stage : Nat) : Option Image :=
  let ms := s.images.filter fun m => m.seq == l.record.seq && ((l.squads[m.squad]?).map (·.stage)) == some stage
  (ms.foldl (fun (best : Option (Nat × Image)) m => match m.why, best with
    | .parked o, some (b, _) => if o < b then some (o, m) else best
    | .parked o, none => some (o, m)
    | _, _ => best) none).map (·.2)

/-- How many instances of a stage have been started. -/
def Launch.startedOf (l : Launch) (stage : Nat) : Nat := (l.squads.filter (·.stage == stage)).length

/-- The conditions of R374 for a stage, but for the free pod. -/
def State.asksPod (s : State) (l : Launch) (stage : Nat) : Bool :=
  match l.stages[stage]? with
  | none => false
  | some st =>
    let above := st.inq != 0 && (s.lastReport l.record.root st.inq).any fun r => st.high < r.head - r.tail
    let half := st.outq != 0 && (s.lastReport l.record.root st.outq).any fun r => r.resv - r.tail ≤ r.count / 2
    l.status == .running && !l.held && ((s.parkedOf l stage).isSome || l.startedOf stage < st.maxPods)
      && (above || (st.inq == 0 && (half || st.outq == 0)) || (s.runningOf l stage).isEmpty)

/-- The lowest free pod of the launch's die that has no retired core the stage names (R374, R414). -/
def State.podFor (s : State) (l : Launch) (stage : Nat) : Option Nat :=
  match l.stages[stage]? with
  | none => none
  | some st => ((List.range 48).map (48 * l.record.die + ·)).find? fun p =>
      s.fits l.record.ctx [p] && (st.coresIn p).all fun c => !(s.at c).retired

/-- The pod to which a team that is away returns (R390, R400): its own; an instance of a pipeline whose own pod is taken returns to the
lowest free pod of its die (log entry 33). -/
def State.podBack (s : State) (l : Launch) (m : Image) : Nat :=
  let own := podOf m.place
  if l.stages.isEmpty || s.fits l.record.ctx [own] then own else (((l.squads[m.squad]?).bind fun q => s.podFor l q.stage)).getD own

/-- Whether a stage gains a pod now. -/
def State.gains (s : State) (l : Launch) (stage : Nat) : Bool := s.asksPod l stage && (s.podFor l stage).isSome

/-! ## Waiting work (R390) -/

/-- Whether work of a class above `prio` waits on a die. -/
def State.higher (s : State) (d prio : Nat) : Bool :=
  s.launches.any (fun l => prio < l.record.prio && ((l.waits && onDie (s.podsWanted l) d)
      || (l.record.die == d && (List.range l.stages.length).any fun x => (s.parkedOf l x).isSome && s.gains l x)))
    || s.images.any fun m => dieOf m.place == d && (((s.launch m.seq).map (·.record.prio)).getD 0) > prio && s.wantsBack m

/-- Whether a team of a class waits to return to a die. -/
def State.returning (s : State) (d prio : Nat) : Bool :=
  s.images.any fun m => dieOf m.place == d && (((s.launch m.seq).map (·.record.prio)).getD 0) == prio && s.wantsBack m

/-- Whether an earlier launch of the same class waits on a die. -/
def State.earlier (s : State) (d : Nat) (l : Launch) : Bool :=
  s.launches.any fun x => x.waits && x.record.prio == l.record.prio && x.order < l.order && onDie (s.podsWanted x) d

/-! ## Swap requests (R286, R386) -/

/-- Ask a team to stop: waiting cores stop at once (R286). -/
def State.askStop (s : State) (cs : List Nat) (why : Away) : State :=
  cs.foldl (fun s i => s.on i fun k =>
    if k.phase == .exited then k else { k with stopReq := some (k.stopReq.getD why), stopped := k.stopped || (k.waitNow.isSome && !k.ctx.attached) }) s

/-- Whether a die has queued work that some pods can take (R286, R373). -/
def State.queuedFor (s : State) (seq : Word) (d : Nat) (pods : List Nat) : Bool :=
  let takes (want : List Nat) : Bool := want.any pods.contains && want.all fun p => pods.contains p || s.podFree p
  let takesBack (m : Image) : Bool := (s.launch m.seq).any fun l =>
    if l.stages.isEmpty then takes (((s.teamOf m).map fun x => podOf x.place).dedup) else pods.any (· / 48 == l.record.die)
  s.launches.any (fun l => l.record.seq != seq && l.waits && takes (s.podsWanted l))
    || s.images.any (fun m => m.seq != seq && s.wantsBack m && takesBack m)
    || s.launches.any fun l => l.record.die == d && (List.range l.stages.length).any fun x => (s.parkedOf l x).isSome && s.asksPod l x

/-- `WAIT_THRESHOLD` (R156, R286): a wait of R148 of core `c` has lasted THR cycles and the die has work for the team's pods. -/
def execWaitThreshold (c : Nat) (s : State) : Out :=
  let k := s.at c
  let team := s.teamCores c
  match k.launch with
  | none => .next s
  | some seq =>
    if k.waitNow.any (·.counts) && k.phase == .running && !k.ctx.attached && k.sys.wthr != 0 && k.sys.wthr.toNat ≤ k.waited && k.stopReq.isNone
        && s.queuedFor seq (dieOf c) ((team.map podOf).dedup)
    then .next (s.askStop team (.swap c)) else .next s

/-- Stop the running cores of a team at their next boundary (R158, R286, R386). -/
def State.deadline (s : State) (c : Nat) (p : Away → Bool) : State :=
  if ((s.at c).stopReq).any p then
    (s.teamCores c).foldl (fun s i => s.on i fun k => if k.phase == .exited || k.ctx.attached then k else { k with stopped := true }) s
  else s

/-- `SWAP_DEADLINE` (R286). -/
def execSwapDeadline (c : Nat) (s : State) : Out := .next (s.deadline c fun w => match w with | .swap _ => true | _ => false)

/-- `PREEMPT_DEADLINE` (R386). -/
def execPreemptDeadline (c : Nat) (s : State) : Out := .next (s.deadline c (· == .preempt))

/-- Whether a core stands at a boundary at which a request stops it (R158, R286): an attached follower once it has replayed what its leader
issued. -/
def State.atHalt (s : State) (i : Nat) : Bool :=
  let k := s.at i
  k.stopReq.isSome &&
    (if k.ctx.attached then (s.at (s.leaderOf i)).stopped && (k.replay.isEmpty || (k.replay.length == 1 && k.wait.isSome))
     else k.stopped || k.wait.isSome)

/-- Whether a core has come to a stop; a fault that is due is delivered first (R383). -/
def State.atStop (s : State) (i : Nat) : Bool :=
  (s.at i).phase == .exited || (s.atHalt i && !(s.at i).takesFault)

/-- A core that stands at a boundary for a request takes the fault that is due, and stops again at its handler's first instruction (R383). -/
def State.faultAtStop (s : State) (i : Nat) : State :=
  (s.deliverFault i).on i fun c => if c.launch.isSome then { c with stopped := true } else c

/-- Whether a core's memory queue holds nothing that must reach a home before its L1 is emptied. -/
def Core.queueClear (c : Core) : Bool := c.memq.all fun q => match q with | .own _ _ _ _ | .wback _ _ => false | _ => true

/-- Save the team of core `c` if every core of it has stopped (R286, R386). -/
def State.trySave (s : State) (c : Nat) : State :=
  let team := s.teamCores c
  match (s.at c).stopReq with
  | some w => if team.all fun i => s.atStop i && (s.at i).queueClear then s.saveTeam team w else s
  | none => s

/-! ## Returns and gains (R286, R374, R390) -/

/-- The pods to which the team of an image returns. -/
def State.podsBack (s : State) (l : Launch) (m : Image) : List Nat :=
  if l.stages.isEmpty then ((s.teamOf m).map fun x => podOf x.place).dedup else [s.podBack l m]

/-- The launch of an image whose team can return now (R286, R390). -/
def State.canReturn (s : State) (m : Image) : Option Launch :=
  (s.launch m.seq).filter fun l =>
    s.wantsBack m && s.fits l.record.ctx (s.podsBack l m) && !s.higher (dieOf m.place) l.record.prio

/-- The team of an image returns, to its pods or to another pod of its pipeline's die. -/
def State.returnTeam (s : State) (l : Launch) (m : Image) : State :=
  let team := s.teamOf m
  let s1 := if l.stages.isEmpty then s else s.moveInstance m.seq (team.map (·.home)) (s.podBack l m)
  (State.enterDie l.record.ctx s1 (dieOf m.place)).restoreTeam (s1.images.filter fun x => team.any fun y => x.seq == y.seq && x.team == y.team)

/-- `TEAM_RETURN` (R286, R390): a team whose image stands at home `c` returns: the first that can, where teams of several launches do. -/
def execTeamReturn (c : Nat) (s : State) : Out :=
  .next (match s.images.findSome? fun m => if m.home = c then (s.canReturn m).map fun l => (l, m) else none with
    | some (l, m) => s.returnTeam l m
    | none => s)

/-- Give a stage a pod: the oldest parked instance resumes there, or a new one starts (R374). -/
def State.givePod (s : State) (seq : Word) (stage pod : Nat) : State :=
  match s.launch seq with
  | none => s
  | some l => match s.parkedOf l stage with
    | some m =>
      let cores := ((l.squads[m.squad]?).map (·.cores)).getD []
      let s1 := (s.moveInstance seq cores pod).updLaunch seq fun l =>
        { l with squads := l.squads.modify m.squad fun q => { q with parked := false } }
      let team := s1.images.filter fun x => x.seq == seq && x.squad == m.squad
      (State.enterDie l.record.ctx s1 (pod / 48)).restoreTeam team
    | none => State.startInstance seq stage (l.startedOf stage) pod s

/-- The pod that a stage of a launch gains now, if it gains one (R374, R390). -/
def State.gainFor (s : State) (seq : Word) (stage : Nat) : Option Nat :=
  (s.launch seq).bind fun l =>
    if !s.asksPod l stage || s.higher l.record.die l.record.prio then none else s.podFor l stage

/-- A stage gains one pod, if it can. -/
def State.gainOne (s : State) (x : Word × Nat) : State :=
  match s.gainFor x.1 x.2 with
  | some p => s.givePod x.1 x.2 p
  | none => s

/-- The stages of the pipelines that run, in declaration order. -/
def State.allStages (s : State) : List (Word × Nat) :=
  s.launches.flatMap fun l => (List.range l.stages.length).map fun x => (l.record.seq, x)

/-- Serve the stages in declaration order, one pod for each, again and again until none gains a pod (R374, R393); `fuel` rounds at most. -/
def State.gainPods : Nat → State → State
  | 0, s => s
  | fuel + 1, s =>
    if s.allStages.any fun x => (s.gainFor x.1 x.2).isSome then State.gainPods fuel (s.allStages.foldl State.gainOne s) else s

/-- `OCCUPANCY_REPORT` (R372, R374). -/
def execOccupancyReport (cb resv head tail count : Nat) (s : State) : Out :=
  let r : Report := { pa := cb, resv := resv, head := head, tail := tail, count := count }
  .next (State.gainPods 48 { s with reports := r :: s.reports.filter (·.pa != cb), reporting := s.reporting.erase r })

/-- `LAUNCH_START` (R150, R328, R390): a launch whose checks fail ends at once; one whose turn it is and whose pods are free
starts. -/
def execLaunchStart (seq : Word) (s : State) : Out :=
  match s.launch seq with
  | none => .next s
  | some l =>
    if !l.waits then .next s
    else
      match s.planLaunch l with
      | .error e => .next (s.refuseLaunch seq e)
      | .ok (s1, p) =>
        match if !l.restarts then .ok (p, l.record.g) else if p.stages.isEmpty then s1.replan l p
          else (s1.replanStages l p).map fun p => (p, l.record.g) with
        | .error e => .next (s.refuseLaunch seq e)
        | .ok (p, g) =>
          let pods := (if p.stages.isEmpty then p.cores.map podOf else (s1.instances l.record.die p.stages).map (·.2.2)).dedup
          let dies := (pods.map (· / 48)).dedup
          if s1.fits l.record.ctx pods && dies.all fun d => !s1.higher d l.record.prio && !s1.returning d l.record.prio && !s1.earlier d l
          then .next (s1.startLaunch l p g) else .next s

/-! ## After every move -/

/-- The cores whose team may now be saved: one for every team that has been asked to stop. -/
def stopAsked : Nat → List Core → List Nat
  | _, [] => []
  | i, c :: cs => if c.stopReq.isSome && c.phase != .exited then i :: stopAsked (i + 1) cs else stopAsked (i + 1) cs

/-- The number of cores that no launch holds. -/
def State.idleCores (s : State) : Nat := (s.cores.toList.filter fun c => c.launch.isNone).length

/-- The digest of a firmware image: of its bytes and version (R408, R409). -/
def firmwareDigest (f : Firmware) : BitVec 384 := Config.sha384 (f.code ++ bytesLE 8 f.version.toNat)

/-- Whether the boot ROM accepts a firmware image (R408): the image's public key hashes to the root's value, or a key that does certifies it; and
the signature over the image's digest verifies. -/
def firmwareAccepted (f : Firmware) : Bool :=
  (Config.sha384 f.key == Config.rootKeyHash || f.signer.any fun k =>
      Config.sha384 k.1 == Config.rootKeyHash && Config.p384Verify k.1 (Config.sha384 f.key) k.2)
    && Config.p384Verify f.key (firmwareDigest f) f.signature

/-- What firmware owes after a cold reset is written (R407). -/
def State.writeOwed (s : State) : State :=
  { s.unwritten.foldl (fun s w => s.coherentWrite none false w.1 w.2) s with unwritten := [] }

/-- A bring-up: the boot ROM reads a firmware image and the device runs it, or reports that there is none (R397, R408); firmware that runs
writes what it owes (R407). -/
def State.bringUp (s : State) : State :=
  let f := Config.firmware s.tick
  let ok := firmwareAccepted f
  let s1 := { s with image := f, fw := if ok then 1 else 2 }
  if s.unwritten.isEmpty then s1 else if ok then s1.writeOwed else s1

/-- The boot ROM has checked the firmware. -/
def State.booted (s : State) : State := if s.fw = 0 then s.bringUp else s

/-- Whether a queued `CBACQ` on an object of this device can be served. -/
def State.servable (s : State) (q : CbReq) : Bool :=
  let r := Ring.of (ofBytesLE ((s.view (if q.dev == s.devidx.toNat then some (q.seq, q.core) else none)).read q.pa 128))
  !s.isRemote q.pa && !s.knownElsewhere q.pa 128 && r.valid && r.resv - r.tail < r.count

/-- The queues of circular buffers go on (R293, R375). -/
def State.serveWaiting (s : State) : State :=
  ((s.cbs.filter s.servable).map (·.pa)).dedup.foldl (fun s pa => State.serveCb pa (s.cbs.length + 1) s []) s

/-- What follows a move (R286, R363, R374, R375, R388): the firmware is checked, messages leave lost links, queued `CBACQ`s are served, teams
that have stopped are saved, the images in memory of teams that are away follow what has changed in them, and pods that became free are given
to stages. -/
def State.settle (before after : State) : State :=
  let s0 := after.booted.settleLinks.serveWaiting
  let s1 := (stopAsked 0 s0.cores.toList).foldl State.trySave s0
  let s := State.relayImages before s1
  if before.idleCores < s.idleCores then State.gainPods 48 s else s

end Sys2Proof.Machine
end

