-- ==== Sys2Proof/Machine/HostPort.lean ====
section
/-! DEFINITION. The device's face toward system software: work queues (R396 to R399), launch and host-command records (R400, R401),
completion records (R402, R403), event-ring registers (R405), reset (R407), attestation, power and heat (R408 to R411). -/

namespace Sys2Proof.Machine

/-! ## Work queues (R396) -/

/-- A work queue's block. -/
def State.queue (s : State) (q : Nat) : Queue := (s.queues.find? (·.idx == q)).getD { idx := q }

/-- Change a work queue's block; there are 2,048. -/
def State.onQueue (s : State) (q : Nat) (f : Queue → Queue) : State :=
  if q < Config.queues then { s with queues := f (s.queue q) :: s.queues.filter (·.idx != q) } else s

/-! ## Records (R400) -/

/-- Whether a field is zero. -/
def zeroField (v : Nat) : Bool := v == 0

/-- The fields of a record that can refuse it, in their order: first bit, width, what the field must satisfy (R400). Those that no line lists
must be zero. -/
def recordFields : List (Nat × Nat × (Nat → Bool)) :=
  let at' (off lo n : Nat) (ok : Nat → Bool) : Nat × Nat × (Nat → Bool) := (8 * off + lo, n, ok)
  let high (off : Nat) := at' off 53 11 zeroField
  [at' 0 0 8 fun v => 1 ≤ v && v ≤ 7, at' 0 10 6 zeroField, at' 0 25 7 zeroField, at' 0 32 9 (· ≤ 256), at' 0 41 7 zeroField,
   at' 0 48 5 (· ≤ 16), at' 0 54 10 zeroField, at' 0x10 0 5 zeroField, high 0x10, at' 0x18 0 13 zeroField, at' 0x20 0 3 zeroField, high 0x20,
   high 0x28, high 0x30, high 0x38, high 0x58, at' 0x60 48 16 zeroField, high 0x70, at' 0x78 32 32 zeroField, at' 0x80 0 3 zeroField,
   at' 0x80 53 8 zeroField, at' 0x80 61 3 (· ≤ 4), at' 0x88 0 6 zeroField, high 0x88, high 0x90, at' 0x98 1 4 (· ≤ 8), at' 0x98 5 8 (· != 1),
   at' 0x98 13 51 zeroField, at' 0xB0 0 6 zeroField, high 0xB0] ++ (List.range 9).map fun k => at' (0xB8 + 8 * k) 0 64 zeroField

/-- The byte offset of the first field that refuses a record (R400, R402). -/
def recordBad (ws : List Nat) : Option Nat :=
  (recordFields.find? fun f => !f.2.2 (field (ws.getD (f.1 / 64) 0) (f.1 % 64) f.2.1)).map (·.1 / 8)

/-- A record of 32 words (R400). -/
def recordOf (ws : List Nat) : Rec :=
  let w (off : Nat) : Nat := ws.getD (off / 8) 0
  { kind := field (w 0) 0 8, prio := field (w 0) 8 2, spad := field (w 0) 16 9, nreg := field (w 0) 32 9,
    nstage := field (w 0) 48 5, die := field (w 0) 53 1, seq := BitVec.ofNat 64 (w 8), entry := field (w 0x10) 0 53,
    root := field (w 0x18) 13 39 * 8192, asid := BitVec.ofNat 12 (field (w 0x18) 52 12), cset := field (w 0x20) 0 53,
    args := field (w 0x28) 0 53, gtab := field (w 0x30) 0 53, rtab := field (w 0x38) 0 53,
    e := [field (w 0x40) 0 32, field (w 0x40) 32 32, field (w 0x48) 0 32, field (w 0x48) 32 32],
    g := (List.range 4).map fun k => field (w 0x50) (16 * k) 16, save := field (w 0x58) 0 53, stride := field (w 0x60) 0 32,
    pmax := BitVec.ofNat 16 (field (w 0x60) 32 16), lmax := BitVec.ofNat 32 (field (w 0x68) 0 32),
    thr := BitVec.ofNat 32 (field (w 0x68) 32 32), jrnl := field (w 0x70) 0 53, jlen := field (w 0x78) 0 32,
    deps := field (w 0x80) 0 53, ndep := field (w 0x80) 61 3, pipe := field (w 0x88) 0 53, devl := field (w 0x90) 0 53,
    ctx := BitVec.ofNat 64 (w 0x98), arg0 := BitVec.ofNat 64 (w 0xA0), arg1 := BitVec.ofNat 64 (w 0xA8),
    tvec := BitVec.ofNat 64 (field (w 0xB0) 6 47 * 64) }

/-! ## Acceptance (R398, R399) -/

/-- Whether a queue accepts a record now (R398). -/
def Queue.accepts (k : Queue) : Bool := k.en && k.cidx != k.pidx && (k.cidx - k.chead).toNat < 2 ^ k.clog.toNat

/-- Whether a record's sequence number is refused (R398, R399). -/
def State.seqRefused (s : State) (k : Queue) (seq : Word) : Bool :=
  field seq.toNat 53 11 != k.idx || (k.last.any fun p => field seq.toNat 0 53 ≤ p)
    || s.launches.any fun l => l.record.seq == seq && match l.status with | .ended _ _ => false | _ => true

/-- The offset of the mirror of CIDX in host memory (R398). -/
def Queue.mirror (k : Queue) : Nat := k.cbase + 32 * 2 ^ k.clog.toNat

/-- Take a record into the device: a launch or a command, or the answer to a bad one (R398 to R400). A launch whose fields fail counts as
accepted and ended in error, for launches that name it as their producer (R150, R391). -/
def State.takeRecord (s : State) (k : Queue) (ws : List Nat) : State :=
  let r := recordOf ws
  let bad (off : Nat) : State :=
    { s with dones := s.dones ++ [{ queue := k.idx, seq := r.seq, ord := s.accepted, status := 18, detail := BitVec.ofNat 64 off,
                                    ovf := false, degr := false, rerun := false, cycles := 0 }] }
  if s.seqRefused k r.seq then bad 8
  else
    let keep (st : LStatus) (s : State) : State :=
      { s with launches := s.launches.filter (·.record.seq != r.seq) ++ [{ record := r, queue := k.idx, order := s.accepted, status := st }] }
    let s1 : State := (match recordBad ws with
      | some off => if r.kind = 1 then keep (.ended 18 (BitVec.ofNat 64 off)) (bad off) else bad off
      | none => keep .waiting s)
    s1.onQueue k.idx fun x => { x with last := some (field r.seq.toNat 0 53) }

/-- `LAUNCH_RECORD_ACCEPT` (R3, R398): the record is read and checked, the mirror written, and CIDX advances. -/
def execLaunchRecordAccept (q : Nat) (s : State) : Out :=
  let k := s.queue q
  if !k.accepts then .next s
  else
    let (s, bs) := s.coherentRead (hostKey (k.rbase + 256 * (k.cidx.toNat % 2 ^ k.rlog.toNat))) 256
    let s := s.takeRecord k ((chunksOf 8 32 bs).map ofBytesLE)
    let s := s.coherentWrite none false (hostKey k.mirror) (bytesLE 8 (k.cidx + 1).toNat)
    .next (({ s with accepted := s.accepted + 1 } : State).onQueue q fun x => { x with cidx := x.cidx + 1 })

/-! ## Completion records (R402, R403) -/

/-- The order in which the records of a queue are answered: ascending sequence number, then acceptance (R3, R403). -/
def answersBefore (a b : Word × Nat) : Bool := a.1.toNat < b.1.toNat || (a.1 == b.1 && a.2 ≤ b.2)

/-- The answer of a queue that is written next: of the lowest sequence number accepted, once it has one. -/
def State.nextDone (s : State) (q : Nat) : Option Done :=
  let ds := s.dones.filter (·.queue == q)
  let open' := s.launches.filter fun l => l.queue == q && match l.status with | .ended _ _ => false | _ => true
  ds.find? fun d => ds.all (fun e => answersBefore (d.seq, d.ord) (e.seq, e.ord)) && open'.all fun l => answersBefore (d.seq, d.ord) (l.record.seq, l.order)

/-- The 32 bytes of a completion record (R402). -/
def Done.bytes (d : Done) (phase : Nat) : List Byte :=
  bytesLE 32 (packFields [(64, d.seq.toNat), (1, phase), (7, 0), (8, d.status), (1, b1 d.ovf), (1, b1 d.degr), (1, b1 d.rerun), (45, 0),
    (64, d.detail.toNat), (64, d.cycles.toNat)])

/-- Where the next answer of a queue goes, and its bytes (R402, R403). -/
def State.doneCell (s : State) (d : Done) : Nat × List Byte :=
  let k := s.queue d.queue
  (hostKey (k.cbase + 32 * (k.ctail.toNat % 2 ^ k.clog.toNat)), d.bytes (1 - k.ctail.toNat / 2 ^ k.clog.toNat % 2))

/-- Write an answer into the completion ring of its queue and advance CTAIL. -/
def State.writeDone (s : State) (d : Done) : State :=
  let w := s.doneCell d
  let s := s.coherentWrite none false w.1 w.2
  ({ s with dones := s.dones.erase d } : State).onQueue d.queue fun x => { x with ctail := x.ctail + 1 }

/-- `COMPLETION_RECORD_WRITE` (R403). -/
def execCompletionRecordWrite (q : Nat) (s : State) : Out :=
  let k := s.queue q
  match s.nextDone q with
  | some d => if (k.ctail - k.chead).toNat < 2 ^ k.clog.toNat then .next (s.writeDone d) else .next s
  | none => .next s

/-! ## Queue registers (R396, R398, R399) -/

/-- A doorbell: PIDX, or an overrun (R399). -/
def State.doorbell (s : State) (q : Nat) (pidx : BitVec 32) : State :=
  let k := s.queue q
  let s1 := s.onQueue q fun x => { x with pidx := pidx }
  if k.en && 2 ^ k.rlog.toNat < (pidx - k.cidx).toNat then (s1.onQueue q fun x => { x with en := false }).event 9 7 q 0 0 else s1

/-- `QUEUE_DOORBELL` (R398, R399). -/
def execQueueDoorbell (q : Nat) (pidx : BitVec 32) (s : State) : Out := .next (if q < Config.queues then s.doorbell q pidx else s)

/-- `QUEUE_CHEAD_WRITE` (R398). -/
def execQueueCheadWrite (q : Nat) (chead : BitVec 32) (s : State) : Out := .next (s.onQueue q fun x => { x with chead := chead })

/-- Set EN (R397, R399): ignored until the device has its index; from 0 to 1 it clears the last sequence number. -/
def State.enable (s : State) (q : Nat) : State :=
  if !s.idok then s
  else
    let s1 := s.onQueue q fun x => if x.en then x else { x with en := true, last := none }
    s1.doorbell q (s1.queue q).pidx

/-- `QUEUE_ENABLE` (R399). -/
def execQueueEnable (q : Nat) (s : State) : Out := .next (if q < Config.queues then s.enable q else s)

/-- Clear EN (R399). -/
def State.disable (s : State) (q : Nat) : State := s.onQueue q fun x => { x with en := false }

/-- `QUEUE_DISABLE` (R399). -/
def execQueueDisable (q : Nat) (s : State) : Out := .next (s.disable q)

/-- Whether every record accepted from a queue has been answered (R399). -/
def State.answered (s : State) (q : Nat) : Bool :=
  !s.dones.any (·.queue == q) && s.launches.all fun l => l.queue != q || match l.status with | .ended _ _ => true | _ => false

/-- Write back and empty the L1s (R96). -/
def State.emptyAll (s : State) : State :=
  (List.range Config.cores).foldl (fun s i => if (s.at i).l1.isEmpty && (s.at i).memq.isEmpty then s
    else (s.drainWb (fun _ => true) i).onL1 i fun _ es => emptyL1 es) s

/-- The bytes of the device's own HBM follow its index (R358): what it holds of the HBM that had the new one is dropped. -/
def State.rekeyed (s : State) (idx : Nat) : State :=
  let old := s.devidx.toNat
  let lies (d a : Nat) : Bool := a / 2 ^ 41 == d
  let name (a : Nat) : Nat := idx * 2 ^ 41 + a % 2 ^ 41
  let gone (a : Nat) : Bool := lies old a || lies idx a
  if idx == old then s
  else
    { s with mem := Mem.writeAll (s.mem.filter fun b => !gone b.1) ((s.mem.filter fun b => lies old b.1).map fun b => (name b.1, b.2)),
             poison := (s.poison.filter (!gone ·)) ++ (s.poison.filter (lies old)).map name,
             dies := s.dies.map fun (d : Die) => { d with l2 := [], hot := [], pinned := [] },
             remotes := [], holding := s.holding.filter (!gone ·.start), misses := s.misses.filter (!gone ·.start),
             farWrites := s.farWrites.filter (!gone ·.pa) }

/-- Write DEVIDX (R397): only while no queue is enabled and no launch is resident. -/
def State.setIndex (s : State) (idx : BitVec 11) : State :=
  if s.queues.any (·.en) || s.cores.toList.any (·.launch.isSome) then s
  else { s.emptyAll.rekeyed idx.toNat with devidx := idx, idok := true }

/-- `DEVIDX_WRITE` (R397). -/
def execDevidxWrite (idx : BitVec 11) (s : State) : Out := .next (s.setIndex idx)

/-- `EHEAD_WRITE` (R405). -/
def execEheadWrite (ehead : BitVec 32) (s : State) : Out := .next { s with events := { s.events with ehead := ehead } }

/-! ## Host commands (R401, R410) -/

/-- The target of a command: a launch accepted and not yet ended. -/
def State.target (s : State) (seq : Word) : Option Launch :=
  (s.launch seq).bind fun l => if l.record.kind != 1 then none else match l.status with | .ended _ _ => none | _ => some l

/-- A command is answered. -/
def State.answer (s : State) (seq : Word) (status : Nat) : State := s.endLaunch seq status 0

/-- Whether a command is the first of its queue that waits: the commands of a queue are carried out in the order of acceptance (R401). -/
def State.firstCommand (s : State) (l : Launch) : Bool :=
  s.launches.all fun x => !(x.queue == l.queue && x.record.kind != 1 && x.status == .waiting && x.order < l.order)

/-- The waiting command of a kind with a sequence number, once it is its turn. -/
def State.command (s : State) (seq : Word) (kind : Nat) : Option Launch :=
  (s.launch seq).bind fun l => if l.record.kind == kind && l.status == .waiting && s.firstCommand l then some l else none

/-- Pre-empt a launch (R386, R401): resident teams are asked to stop; it is kept from starting or returning. -/
def State.preempt (s : State) (seq : Word) : State :=
  let s1 := s.updLaunch seq fun l => { l with held := true }
  s1.askStop (s1.coresOf seq) .preempt

/-- Whether a launch has a team on a die; a pipeline's teams that are away belong to its record's die (R392). -/
def Launch.onDie (l : Launch) (d : Nat) : Bool :=
  l.status == .running && if l.stages.isEmpty then l.squads.any fun q => q.cores.any fun i => dieOf i == d else l.record.die == d

/-- `PRE_EMPT` (R386, R401). -/
def execPreEmpt (seq : Word) (s : State) : Out :=
  match s.command seq 2 with
  | none => .next s
  | some k =>
    if k.record.arg0 = BitVec.allOnes 64 then
      let ls := s.launches.filter (·.onDie (field k.record.arg1.toNat 0 1))
      .next ((ls.foldl (fun s l => s.preempt l.record.seq) s).answer seq 0)
    else match s.target k.record.arg0 with
      | none => .next (s.answer seq 19)
      | some l => .next ((s.preempt l.record.seq).answer seq 0)

/-- `RESUME` (R401). -/
def execResume (seq : Word) (s : State) : Out :=
  match s.command seq 3 with
  | none => .next s
  | some k => match s.target k.record.arg0 with
    | none => .next (s.answer seq 19)
    | some l => .next ((s.updLaunch l.record.seq fun x => { x with held := false }).answer seq 0)

/-- `END` (R401, R404). -/
def execEndLaunch (seq : Word) (s : State) : Out :=
  match s.command seq 4 with
  | none => .next s
  | some k => match s.target k.record.arg0 with
    | none => .next (s.answer seq 19)
    | some l => .next ((s.endLaunch l.record.seq 17 0).answer seq 0)

/-- `INVALIDATE_TLB` (R100, R401): translations of an address space, or of one address in it, leave every TLB and walker. -/
def execInvalidateTlb (seq : Word) (s : State) : Out :=
  match s.command seq 5 with
  | none => .next s
  | some k =>
    let asid := k.record.arg0.setWidth 12
    let one := k.record.arg0.getLsbD 63
    let va := k.record.arg1.toNat
    let hit (e : TlbEntry) : Bool := e.asid == asid && (!one || e.vpn == va / 2 ^ e.bits)
    let walk (w : Walk) : Bool := w.asid == asid && (!one || w.va / 8192 == va / 8192)
    let s1 := { s with cores := s.cores.map fun (c : Core) => { c with tlb := c.tlb.filter (!hit ·) },
                       dies := s.dies.map fun (d : Die) => { d with walks := d.walks.filter (!walk ·) } }
    .next (s1.answer seq 0)

/-- A port returned to training (R363, R401). -/
def Port.returned (p : Port) : Port := { p with st := .training, lanes := 0, retry := 0, cmark := 0, failing := [] }

/-- `RETURN_LINK` (R363, R401). -/
def execReturnLink (seq : Word) (s : State) : Out :=
  match s.command seq 6 with
  | none => .next s
  | some k => .next ((s.onPort (field k.record.arg0.toNat 0 4) Port.returned).answer seq 0)

/-- `POWER_MODE` (R401, R410). -/
def execPowerMode (seq : Word) (s : State) : Out :=
  match s.command seq 7 with
  | none => .next s
  | some k => .next (({ s with power := k.record.arg0.setWidth 2 } : State).answer seq 0)

/-! ## Reset (R397, R399, R407) -/

/-- A core after a reset: it is in service and holds nothing. -/
def Core.afterReset (c : Core) : Core := { Core.reset with gen := c.gen }

/-- What both kinds of reset do (R407): cores and links at their reset values, units in service, no placement entry. -/
def State.resetUnits (s : State) : State :=
  { s with cores := s.cores.map Core.afterReset, pods := Vector.replicate 96 {}, dies := Vector.replicate 2 {},
           ports := Vector.replicate 16 {}, hostPorts := Vector.replicate 2 {}, places := [], syncs := [], cbs := [], reports := [],
           reporting := [], askers := [], credits := [], images := [], switch := [], replies := [], flows := [], remotes := [],
           holding := [], misses := [], farWrites := [], hostErrors := [], controls := [], sends := [], early := [], throttled := false }

/-- Interrupt a launch that has no answer: it is re-run, or answered with status 20 (R407). One that has not started has changed nothing: it is
eligible if it has a journal (R328). -/
def State.interruptOne (s : State) (l : Launch) : State :=
  if l.record.kind != 1 then s
  else match l.status with
    | .running => s.rerun l.record.seq 20 0
    | .waiting => if l.rerun || l.record.jrnl != 0 then s.updLaunch l.record.seq fun x => { x with rerun := true } else s.endLaunch l.record.seq 20 0
    | .ended _ _ => s

/-- Interrupt every launch that has no answer (R407). Commands not yet carried out wait on. -/
def State.interrupt (s : State) : State := s.launches.foldl State.interruptOne s

/-- A warm reset (R399, R407): memory is kept, what the L1s of idle cores hold dirty included. -/
def State.warmReset (s : State) : State :=
  let s1 := s.interrupt.emptyAll.resetUnits
  { s1 with queues := s1.queues.map fun q => { q with en := false } }

/-- `WRST` (R397, R407). -/
def execWrst (s : State) : Out := .next s.warmReset

/-- `FUNCTION_LEVEL_RESET` (R407). -/
def execFunctionLevelReset (s : State) : Out := .next s.warmReset

/-- What remains of memory when HBM is lost: far memory and host memory (R358, R359, R407). -/
def keepOutside (m : Mem) : Mem := m.filter fun c => 2 ^ 52 ≤ c.1

/-- Insert in the order of a queue's answers. -/
def insertDone (d : Done) : List Done → List Done
  | [] => [d]
  | x :: rest => if answersBefore (x.seq, x.ord) (d.seq, d.ord) then x :: insertDone d rest else d :: x :: rest

/-- One more answer that firmware owes: its place in host memory and its bytes. -/
def State.owe (s : State) (d : Done) : State :=
  ({ s with unwritten := s.unwritten ++ [s.doneCell d] } : State).onQueue d.queue fun x => { x with ctail := x.ctail + 1 }

/-- Every accepted record that its queue's completion ring does not answer yet is owed an answer with one status, in order (R407, R411). -/
def State.oweAll (s : State) (status : Nat) : State :=
  let s1 := s.launches.foldl (fun s l => s.endLaunch l.record.seq status 0) s
  let ds : List Done := s1.dones.map fun d => { d with status := status, detail := 0, ovf := false, degr := false, rerun := false, cycles := 0 }
  (ds.foldl (fun r d => insertDone d r) []).foldl State.owe s1

/-- What a loss of HBM leaves (R397, R399, R407): host memory and far memory, and what firmware owes. -/
def State.lost (s : State) : State :=
  let s1 := s.resetUnits
  { s1 with mem := keepOutside s1.mem, poison := s1.poison.filter (2 ^ 52 ≤ ·), launches := [], dones := [], queues := [], events := {},
            idok := false, devidx := 0, present := [], power := 0, report := [], hdm := (0, Config.hbm), fw := 0 }

/-- A cold reset (R397, R399, R407, R408): HBM is lost, and the bring-up follows, in which firmware answers every record accepted and not
answered with status 20. -/
def State.coldReset (s : State) : State := ((s.oweAll 20).lost).bringUp

/-- `COLD_RESET` (R407, R408). -/
def execColdReset (s : State) : Out := .next s.coldReset

/-! ## Plain register writes (R396, R397, R405) -/

/-- A write of the second word of a queue's block: CBASE, CLOG, then EN. -/
def State.writeCbase (s : State) (q : Nat) (v : Nat) : State :=
  let k := s.queue q
  let s1 := if k.en || !s.answered q then s
    else s.onQueue q fun x => { x with cbase := field v 5 47 * 32, clog := BitVec.ofNat 4 (field v 52 4) }
  if bitAt v 56 then (if k.en then s1 else s1.enable q) else s1.disable q

/-- A write of the event ring's second word: EBASE and ELOG while it is disabled, then EN. -/
def EventRing.write (v : Nat) (e : EventRing) : EventRing :=
  let e1 := if e.en then e else { e with base := field v 5 47 * 32, log := BitVec.ofNat 4 (field v 52 4) }
  { e1 with en := bitAt v 56 }

/-- `HOST_REGISTER_WRITE` (R396): a write of a word of BAR0 at an offset. -/
def execHostRegisterWrite (off : Nat) (v : Word) (s : State) : Out :=
  let w := v.toNat
  .next <|
    if off = 0x8 then (if bitAt w 0 then s.warmReset else s)
    else if off = 0x10 then s.setIndex (v.setWidth 11)
    else if off = 0x3008 then { s with events := s.events.write w }
    else if off = 0x3010 then { s with events := { s.events with ehead := BitVec.ofNat 32 (field w 32 32) } }
    else if off < 0x100000 || 0x100000 + 32 * Config.queues ≤ off then s
    else
      let q := (off - 0x100000) / 32
      match off % 32 with
      | 0 => if (s.queue q).en then s
        else s.onQueue q fun x => { x with rbase := field w 8 44 * 256, rlog := BitVec.ofNat 4 (field w 52 4) }
      | 8 => s.writeCbase q w
      | 16 => (s.onQueue q fun x => { x with chead := BitVec.ofNat 32 (field w 32 32) }).doorbell q (BitVec.ofNat 32 (field w 0 32))
      | _ => s

/-! ## Plain register reads (R363, R396, R397, R405) -/

/-- A word of a queue's block (R396). -/
def Queue.word (k : Queue) (off : Nat) : Nat :=
  match off with
  | 0 => packFields [(8, 0), (44, k.rbase / 256), (4, k.rlog.toNat)]
  | 8 => packFields [(5, 0), (47, k.cbase / 32), (4, k.clog.toNat), (1, b1 k.en)]
  | 16 => packFields [(32, k.pidx.toNat), (32, k.chead.toNat)]
  | 24 => packFields [(32, k.cidx.toNat), (32, k.ctail.toNat)]
  | _ => 0

/-- A word of the event ring's block (R405). -/
def EventRing.word (e : EventRing) (off : Nat) : Nat :=
  match off with
  | 8 => packFields [(5, 0), (47, e.base / 32), (4, e.log.toNat), (1, b1 e.en)]
  | 16 => packFields [(32, 0), (32, e.ehead.toNat)]
  | 24 => e.etail.toNat
  | 32 => e.elost.toNat
  | _ => 0

/-- The word that a host reads at an offset of BAR0, a multiple of 8 (R363, R396, R397, R405). Reading changes nothing. -/
def State.barWord (s : State) (off : Nat) : Word :=
  BitVec.ofNat 64 <|
    if off = 0 then packFields [(2, s.fw), (1, b1 s.idok)]
    else if off = 0x10 then s.devidx.toNat
    else if 0x100 ≤ off ∧ off < 0x200 then packFields ((List.range 64).map fun k => (1, b1 (s.present.contains (8 * (off - 0x100) + k))))
    else if 0x2000 ≤ off ∧ off < 0x2080 then (s.linkPort ((off - 0x2000) / 8)).word
    else if 0x3000 ≤ off ∧ off < 0x3028 then s.events.word (off - 0x3000)
    else if 0x100000 ≤ off ∧ off < 0x100000 + 32 * Config.queues then (s.queue ((off - 0x100000) / 32)).word (off % 32)
    else 0

/-! ## Attestation and heat (R409, R411) -/

/-- What an attestation report says (R409): the digest and version of the firmware image, the configuration of the host ports and of the window
of HBM exposed to the host, and the nonce (log entry 10). -/
def State.attested (s : State) (nonce : BitVec 384) : List Byte :=
  bytesLE 48 (firmwareDigest s.image).toNat ++ bytesLE 8 s.image.version.toNat
    ++ s.hostPorts.toList.flatMap (fun (p : HostPort) => bytesLE 1 (packFields [(1, b1 p.up), (1, b1 p.mem), (1, b1 p.cache)]))
    ++ bytesLE 8 s.hdm.1 ++ bytesLE 8 s.hdm.2 ++ bytesLE 48 nonce.toNat

/-- `ATTESTATION_REQUEST` (R408, R409): the report, signed with the identity key, and the certificate stand in the mailbox words. -/
def execAttestationRequest (nonce : BitVec 384) (s : State) : Out :=
  let m := s.attested nonce
  .next { s with report := m ++ Config.p384Sign Config.identityKey (Config.sha384 m) ++ Config.identityPublic ++ Config.identityCertificate }

/-- `THERMAL_THROTTLE` (R411): cycles are left idle as under a power cap. -/
def execThermalThrottle (s : State) : Out := .next { s with throttled := true }

/-- `THERMAL_TRIP` (R407, R411): every record not answered is owed an answer with status 21, as after a cold reset, and the device halts. -/
def execThermalTrip (s : State) : Out := .next { (s.oweAll 21).lost with fw := 3 }

end Sys2Proof.Machine
end

