-- ==== Sys2Proof/Machine/Dispatch.lean ====
section
/-! DEFINITION. The dispatch of every row of the opcode table to its meaning. -/

namespace Sys2Proof.Machine

def exec (i : Instr) (s : State) : Host.Outcome State Fault Refusal :=
  match i with
  | .nop dly => Sys2Proof.Machine.execNop dly s
  | .add h a b c => Sys2Proof.Machine.execAdd h a b c s
  | .sub h a b c => Sys2Proof.Machine.execSub h a b c s
  | .and h a b c => Sys2Proof.Machine.execAnd h a b c s
  | .or h a b c => Sys2Proof.Machine.execOr h a b c s
  | .xor h a b c => Sys2Proof.Machine.execXor h a b c s
  | .andn h a b c => Sys2Proof.Machine.execAndn h a b c s
  | .shl h a b c => Sys2Proof.Machine.execShl h a b c s
  | .shr h a b c => Sys2Proof.Machine.execShr h a b c s
  | .sar h a b c => Sys2Proof.Machine.execSar h a b c s
  | .rot h a b c => Sys2Proof.Machine.execRot h a b c s
  | .min h a b c => Sys2Proof.Machine.execMin h a b c s
  | .max h a b c => Sys2Proof.Machine.execMax h a b c s
  | .minu h a b c => Sys2Proof.Machine.execMinu h a b c s
  | .maxu h a b c => Sys2Proof.Machine.execMaxu h a b c s
  | .addImm h a b imm => Sys2Proof.Machine.execAddImm h a b imm s
  | .subImm h a b imm => Sys2Proof.Machine.execSubImm h a b imm s
  | .andImm h a b imm => Sys2Proof.Machine.execAndImm h a b imm s
  | .orImm h a b imm => Sys2Proof.Machine.execOrImm h a b imm s
  | .xorImm h a b imm => Sys2Proof.Machine.execXorImm h a b imm s
  | .andnImm h a b imm => Sys2Proof.Machine.execAndnImm h a b imm s
  | .shlImm h a b n => Sys2Proof.Machine.execShlImm h a b n s
  | .shrImm h a b n => Sys2Proof.Machine.execShrImm h a b n s
  | .sarImm h a b n => Sys2Proof.Machine.execSarImm h a b n s
  | .rotImm h a b n => Sys2Proof.Machine.execRotImm h a b n s
  | .minImm h a b imm => Sys2Proof.Machine.execMinImm h a b imm s
  | .maxImm h a b imm => Sys2Proof.Machine.execMaxImm h a b imm s
  | .minuImm h a b imm => Sys2Proof.Machine.execMinuImm h a b imm s
  | .maxuImm h a b imm => Sys2Proof.Machine.execMaxuImm h a b imm s
  | .mul h a b c => Sys2Proof.Machine.execMul h a b c s
  | .mulh h a b c => Sys2Proof.Machine.execMulh h a b c s
  | .mulhu h a b c => Sys2Proof.Machine.execMulhu h a b c s
  | .div h a b c => Sys2Proof.Machine.execDiv h a b c s
  | .divu h a b c => Sys2Proof.Machine.execDivu h a b c s
  | .rem h a b c => Sys2Proof.Machine.execRem h a b c s
  | .remu h a b c => Sys2Proof.Machine.execRemu h a b c s
  | .clz h a b => Sys2Proof.Machine.execClz h a b s
  | .ctz h a b => Sys2Proof.Machine.execCtz h a b s
  | .popc h a b => Sys2Proof.Machine.execPopc h a b s
  | .brev h a b => Sys2Proof.Machine.execBrev h a b s
  | .bswap h a b => Sys2Proof.Machine.execBswap h a b s
  | .mix h a b c => Sys2Proof.Machine.execMix h a b c s
  | .bfx h a b sx lsb widthM1 => Sys2Proof.Machine.execBfx h a b sx lsb widthM1 s
  | .bfi h a b lsb widthM1 => Sys2Proof.Machine.execBfi h a b lsb widthM1 s
  | .cmp h gd b c cond w => Sys2Proof.Machine.execCmp h gd b c cond w s
  | .cmpi h gd b imm cond w => Sys2Proof.Machine.execCmpi h gd b imm cond w s
  | .sel h a b c gs inv => Sys2Proof.Machine.execSel h a b c gs inv s
  | .glog h op => Sys2Proof.Machine.execGlog h op s
  | .movi h a imm => Sys2Proof.Machine.execMovi h a imm s
  | .movw h a imm => Sys2Proof.Machine.execMovw h a imm s
  | .fadd h a b c f rm => Sys2Proof.Machine.execFadd h a b c f rm s
  | .fsub h a b c f rm => Sys2Proof.Machine.execFsub h a b c f rm s
  | .fmul h a b c f rm => Sys2Proof.Machine.execFmul h a b c f rm s
  | .fdiv h a b c f rm => Sys2Proof.Machine.execFdiv h a b c f rm s
  | .fsqrt h a b f rm => Sys2Proof.Machine.execFsqrt h a b f rm s
  | .fmin h a b c f rm => Sys2Proof.Machine.execFmin h a b c f rm s
  | .fmax h a b c f rm => Sys2Proof.Machine.execFmax h a b c f rm s
  | .ffma h a b c k f rm => Sys2Proof.Machine.execFfma h a b c k f rm s
  | .fcmp h gd b c cond f sig => Sys2Proof.Machine.execFcmp h gd b c cond f sig s
  | .fcvt h a b dst src rm => Sys2Proof.Machine.execFcvt h a b dst src rm s
  | .fclass h a b f => Sys2Proof.Machine.execFclass h a b f s
  | .idr h a r => Sys2Proof.Machine.execIdr h a r s
  | .srr h a r => Sys2Proof.Machine.execSrr h a r s
  | .srw h r b => Sys2Proof.Machine.execSrw h r b s
  | .br h imm => Sys2Proof.Machine.execBr h imm s
  | .brl h imm => Sys2Proof.Machine.execBrl h imm s
  | .call h a imm => Sys2Proof.Machine.execCall h a imm s
  | .calll h a imm => Sys2Proof.Machine.execCalll h a imm s
  | .ret h b => Sys2Proof.Machine.execRet h b s
  | .jmpr h a b imm => Sys2Proof.Machine.execJmpr h a b imm s
  | .loop h b imm => Sys2Proof.Machine.execLoop h b imm s
  | .endl h => Sys2Proof.Machine.execEndl h s
  | .brk h code => Sys2Proof.Machine.execBrk h code s
  | .trap h code => Sys2Proof.Machine.execTrap h code s
  | .syscall h code => Sys2Proof.Machine.execSyscall h code s
  | .eret h => Sys2Proof.Machine.execEret h s
  | .exit h => Sys2Proof.Machine.execExit h s
  | .detach h => Sys2Proof.Machine.execDetach h s
  | .join h => Sys2Proof.Machine.execJoin h s
  | .yield h => Sys2Proof.Machine.execYield h s
  | .ld h a b imm size sx => Sys2Proof.Machine.execLd h a b imm size sx s
  | .ldx h a b c imm size sx => Sys2Proof.Machine.execLdx h a b c imm size sx s
  | .st h a b imm size => Sys2Proof.Machine.execSt h a b imm size s
  | .rflush h b imm c m => Sys2Proof.Machine.execRflush h b imm c m s
  | .rdrop h b imm c => Sys2Proof.Machine.execRdrop h b imm c s
  | .rpin h gd b imm c x cls => Sys2Proof.Machine.execRpin h gd b imm c x cls s
  | .runpin h b imm c => Sys2Proof.Machine.execRunpin h b imm c s
  | .pref h b imm c x cls => Sys2Proof.Machine.execPref h b imm c x cls s
  | .fence h scope => Sys2Proof.Machine.execFence h scope s
  | .ifence h b scope => Sys2Proof.Machine.execIfence h b scope s
  | .pfence h => Sys2Proof.Machine.execPfence h s
  | .amo h a b c op dbl scope => Sys2Proof.Machine.execAmo h a b c op dbl scope s
  | .cas h a b c dbl scope => Sys2Proof.Machine.execCas h a b c dbl scope s
  | .acq h b x scope => Sys2Proof.Machine.execAcq h b x scope s
  | .rel h b scope => Sys2Proof.Machine.execRel h b scope s
  | .bar h b => Sys2Proof.Machine.execBar h b s
  | .sstep h => Sys2Proof.Machine.execSstep h s
  | .msgsend h b c cc => Sys2Proof.Machine.execMsgsend h b c cc s
  | .msgwait h a => Sys2Proof.Machine.execMsgwait h a s
  | .trig h => Sys2Proof.Machine.execTrig h s
  | .waitdep h => Sys2Proof.Machine.execWaitdep h s
  | .xwait h b ch => Sys2Proof.Machine.execXwait h b ch s
  | .ccwait h b cc => Sys2Proof.Machine.execCcwait h b cc s
  | .twait h t => Sys2Proof.Machine.execTwait h t s
  | .trel h t => Sys2Proof.Machine.execTrel h t s
  | .tstate h a t => Sys2Proof.Machine.execTstate h a t s
  | .hget h a b f => Sys2Proof.Machine.execHget h a b f s
  | .hset h a b f => Sys2Proof.Machine.execHset h a b f s
  | .hmov h a b => Sys2Proof.Machine.execHmov h a b s
  | .claim h a b => Sys2Proof.Machine.execClaim h a b s
  | .vrelease h => Sys2Proof.Machine.execVrelease h s
  | .cbwait h b c => Sys2Proof.Machine.execCbwait h b c s
  | .cbrel h b c => Sys2Proof.Machine.execCbrel h b c s
  | .hld h a b imm => Sys2Proof.Machine.execHld h a b imm s
  | .hst h a b imm => Sys2Proof.Machine.execHst h a b imm s
  | .hview h a b c dim ext => Sys2Proof.Machine.execHview h a b c dim ext s
  | .send h a b c ch fl dst => Sys2Proof.Machine.execSend h a b c ch fl dst s
  | .cbinit h b c count => Sys2Proof.Machine.execCbinit h b c count s
  | .cbacq h a b => Sys2Proof.Machine.execCbacq h a b s
  | .cbcommit h b => Sys2Proof.Machine.execCbcommit h b s
  | .mprog h prog => Sys2Proof.Machine.execMprog h prog s
  | .rset h b c => Sys2Proof.Machine.execRset h b c s
  | .pdecl h a b c state => Sys2Proof.Machine.execPdecl h a b c state s
  | .pwait h b => Sys2Proof.Machine.execPwait h b s
  | .pstate h a b => Sys2Proof.Machine.execPstate h a b s
  | .xstat h a ch => Sys2Proof.Machine.execXstat h a ch s
  | .ccrd h a cc => Sys2Proof.Machine.execCcrd h a cc s
  | .varith h o1 o2 o3 o4 op ef rm => Sys2Proof.Machine.execVarith h o1 o2 o3 o4 op ef rm s
  | .vfma h o1 o2 o3 o4 o5 k ef rm => Sys2Proof.Machine.execVfma h o1 o2 o3 o4 o5 k ef rm s
  | .vcmp h o1 o2 o3 o4 cond ef sig => Sys2Proof.Machine.execVcmp h o1 o2 o3 o4 cond ef sig s
  | .vsel h o1 o2 o3 o4 o5 ef => Sys2Proof.Machine.execVsel h o1 o2 o3 o4 o5 ef s
  | .vlogic h o1 o2 o3 o4 op ef => Sys2Proof.Machine.execVlogic h o1 o2 o3 o4 op ef s
  | .vshift h o1 o2 o3 o4 op ef count => Sys2Proof.Machine.execVshift h o1 o2 o3 o4 op ef count s
  | .vcvt h o1 o2 o3 tag rm => Sys2Proof.Machine.execVcvt h o1 o2 o3 tag rm s
  | .vreq h o1 o2 o3 bsf4 => Sys2Proof.Machine.execVreq h o1 o2 o3 bsf4 s
  | .vsfu h o1 o2 o3 fn ef => Sys2Proof.Machine.execVsfu h o1 o2 o3 fn ef s
  | .vred h o1 o2 o3 op ef rm => Sys2Proof.Machine.execVred h o1 o2 o3 op ef rm s
  | .vscan h o1 o2 o3 op ef ex rm => Sys2Proof.Machine.execVscan h o1 o2 o3 op ef ex rm s
  | .vperm h o1 o2 o3 o4 scat ef => Sys2Proof.Machine.execVperm h o1 o2 o3 o4 scat ef s
  | .vbcast h o1 o2 o3 ef => Sys2Proof.Machine.execVbcast h o1 o2 o3 ef s
  | .vmov h o1 o2 o3 => Sys2Proof.Machine.execVmov h o1 o2 o3 s
  | .vfill h o1 o2 o3 size => Sys2Proof.Machine.execVfill h o1 o2 o3 size s
  | .vclass h o1 o2 o3 ef => Sys2Proof.Machine.execVclass h o1 o2 o3 ef s
  | .vmix h o1 o2 o3 o4 => Sys2Proof.Machine.execVmix h o1 o2 o3 o4 s
  | .mgang h o1 => Sys2Proof.Machine.execMgang h o1 s
  | .mma h o1 o2 o3 mode acc sp pa pb => Sys2Proof.Machine.execMma h o1 o2 o3 mode acc sp pa pb s
  | .mrec h o1 o2 o3 ef => Sys2Proof.Machine.execMrec h o1 o2 o3 ef s
  | .mhatch h o1 o2 => Sys2Proof.Machine.execMhatch h o1 o2 s
  | .munhatch h o1 o2 => Sys2Proof.Machine.execMunhatch h o1 o2 s
  | .epi h o1 o2 fl => Sys2Proof.Machine.execEpi h o1 o2 fl s
  | .rstat h o1 slot => Sys2Proof.Machine.execRstat h o1 slot s
  | .mwait h => Sys2Proof.Machine.execMwait h s
  | .mabort h => Sys2Proof.Machine.execMabort h s
  | .rfwd h o1 o2 o3 => Sys2Proof.Machine.execRfwd h o1 o2 o3 s
  | .rrev h o1 o2 o3 gd => Sys2Proof.Machine.execRrev h o1 o2 o3 gd s
  | .rchk h o1 o2 gd => Sys2Proof.Machine.execRchk h o1 o2 gd s
  | .put h o1 o2 o3 o4 fl cc => Sys2Proof.Machine.execPut h o1 o2 o3 o4 fl cc s
  | .get h o1 o2 o3 o4 fl cc => Sys2Proof.Machine.execGet h o1 o2 o3 o4 fl cc s
  | .pld h o1 o2 o3 fl => Sys2Proof.Machine.execPld h o1 o2 o3 fl s
  | .pconv h o1 o2 fl => Sys2Proof.Machine.execPconv h o1 o2 fl s
  | .tfill h o1 o2 fl t ch => Sys2Proof.Machine.execTfill h o1 o2 fl t ch s
  | .tdrain h o1 o2 fl t ch => Sys2Proof.Machine.execTdrain h o1 o2 fl t ch s
  | .pendingWriteLand c => Sys2Proof.Machine.execPendingWriteLand c s
  | .l1Fill c k => Sys2Proof.Machine.execL1Fill c k s
  | .ownershipGrant c k => Sys2Proof.Machine.execOwnershipGrant c k s
  | .invalidate c pa len => Sys2Proof.Machine.execInvalidate c pa len s
  | .downgrade c pa len => Sys2Proof.Machine.execDowngrade c pa len s
  | .walkComplete die k => Sys2Proof.Machine.execWalkComplete die k s
  | .hotRowHalve die => Sys2Proof.Machine.execHotRowHalve die s
  | .mmaStart c => Sys2Proof.Machine.execMmaStart c s
  | .mmaComplete c => Sys2Proof.Machine.execMmaComplete c s
  | .mrecComplete c => Sys2Proof.Machine.execMrecComplete c s
  | .mhatchComplete c => Sys2Proof.Machine.execMhatchComplete c s
  | .rstatComplete c => Sys2Proof.Machine.execRstatComplete c s
  | .epiComplete c => Sys2Proof.Machine.execEpiComplete c s
  | .sfuRequestStart pod => Sys2Proof.Machine.execSfuRequestStart pod s
  | .sfuDeliver c => Sys2Proof.Machine.execSfuDeliver c s
  | .tfillComplete c k => Sys2Proof.Machine.execTfillComplete c k s
  | .tdrainComplete c k => Sys2Proof.Machine.execTdrainComplete c k s
  | .sendLand c k => Sys2Proof.Machine.execSendLand c k s
  | .packetLand c k => Sys2Proof.Machine.execPacketLand c k s
  | .getRequestServe c k => Sys2Proof.Machine.execGetRequestServe c k s
  | .getReplyLand c k => Sys2Proof.Machine.execGetReplyLand c k s
  | .subroundOpen launch => Sys2Proof.Machine.execSubroundOpen launch s
  | .subroundClose c => Sys2Proof.Machine.execSubroundClose c s
  | .messageArrive c k => Sys2Proof.Machine.execMessageArrive c k s
  | .phaseClose launch group => Sys2Proof.Machine.execPhaseClose launch group s
  | .acqGrant pa => Sys2Proof.Machine.execAcqGrant pa s
  | .slotReturn cb idx => Sys2Proof.Machine.execSlotReturn cb idx s
  | .homeAtomic k => Sys2Proof.Machine.execHomeAtomic k s
  | .sstepComplete launch => Sys2Proof.Machine.execSstepComplete launch s
  | .occupancyReport cb resv head tail count => Sys2Proof.Machine.execOccupancyReport cb resv head tail count s
  | .placementCutClose e => Sys2Proof.Machine.execPlacementCutClose e s
  | .conversionPartWritten e => Sys2Proof.Machine.execConversionPartWritten e s
  | .conversionComplete e => Sys2Proof.Machine.execConversionComplete e s
  | .fabricCutClose e reports => Sys2Proof.Machine.execFabricCutClose e reports s
  | .rollback launch u => Sys2Proof.Machine.execRollback launch u s
  | .linkMessageReceive port m tagOk => Sys2Proof.Machine.execLinkMessageReceive port m tagOk s
  | .switchRequestArrival r => Sys2Proof.Machine.execSwitchRequestArrival r s
  | .replySplit k => Sys2Proof.Machine.execReplySplit k s
  | .cxlSnoop addr => Sys2Proof.Machine.execCxlSnoop addr s
  | .hostWrite addr bytes => Sys2Proof.Machine.execHostWrite addr bytes s
  | .engineFaultDelivery c => Sys2Proof.Machine.execEngineFaultDelivery c s
  | .waitThreshold c => Sys2Proof.Machine.execWaitThreshold c s
  | .swapDeadline c => Sys2Proof.Machine.execSwapDeadline c s
  | .teamReturn c => Sys2Proof.Machine.execTeamReturn c s
  | .preemptDeadline c => Sys2Proof.Machine.execPreemptDeadline c s
  | .launchRecordAccept q => Sys2Proof.Machine.execLaunchRecordAccept q s
  | .launchStart seq => Sys2Proof.Machine.execLaunchStart seq s
  | .completionRecordWrite q => Sys2Proof.Machine.execCompletionRecordWrite q s
  | .queueDoorbell q pidx => Sys2Proof.Machine.execQueueDoorbell q pidx s
  | .queueCheadWrite q chead => Sys2Proof.Machine.execQueueCheadWrite q chead s
  | .queueEnable q => Sys2Proof.Machine.execQueueEnable q s
  | .queueDisable q => Sys2Proof.Machine.execQueueDisable q s
  | .devidxWrite idx => Sys2Proof.Machine.execDevidxWrite idx s
  | .eheadWrite ehead => Sys2Proof.Machine.execEheadWrite ehead s
  | .hostRegisterWrite off v => Sys2Proof.Machine.execHostRegisterWrite off v s
  | .preEmpt seq => Sys2Proof.Machine.execPreEmpt seq s
  | .resume seq => Sys2Proof.Machine.execResume seq s
  | .endLaunch seq => Sys2Proof.Machine.execEndLaunch seq s
  | .invalidateTlb seq => Sys2Proof.Machine.execInvalidateTlb seq s
  | .returnLink seq => Sys2Proof.Machine.execReturnLink seq s
  | .powerMode seq => Sys2Proof.Machine.execPowerMode seq s
  | .wrst => Sys2Proof.Machine.execWrst s
  | .functionLevelReset => Sys2Proof.Machine.execFunctionLevelReset s
  | .coldReset => Sys2Proof.Machine.execColdReset s
  | .attestationRequest nonce => Sys2Proof.Machine.execAttestationRequest nonce s
  | .linkTraining port lanes partner reach => Sys2Proof.Machine.execLinkTraining port lanes partner reach s
  | .thermalThrottle => Sys2Proof.Machine.execThermalThrottle s
  | .thermalTrip => Sys2Proof.Machine.execThermalTrip s
  | .commandStoppedAtFault c e k => Sys2Proof.Machine.execCommandStoppedAtFault c e k s
  | .writeBackComplete c k => Sys2Proof.Machine.execWriteBackComplete c k s

end Sys2Proof.Machine
end

