-- ==== Sys2Proof/Machine/Turn.lean ====
section
/-! DEFINITION. One turn of a core: fetching (R18, R73, R98, R262), what is due before an instruction issues (R19, R179, R237, R330,
R383), fetch chains (R153 to R157); the moves that can come next; how an instruction is placed for the next step. -/

namespace Sys2Proof.Machine

/-! ## Fetching -/

/-- What a fetch gives: an instruction and its length, or a precise trap, or the launch is over. -/
inductive Fetched where
  | ok (s : State) (i : Instr) (n : Nat)
  | trap (s : State) (t : Trap)
  | gone (s : State)
  deriving DecidableEq, Repr

/-- The bytes of a granule as core `i` fetches them (R262): cached ones, or those at the point of coherence, no L1 being asked. -/
def State.granule (s : State) (i g : Nat) : Run (State × List Byte) :=
  let c := s.at i
  let new := s.mem.read g 16
  match c.icache.find? (·.1 == g) with
  | some e => if e.2 == new || Config.staleFetch s.tick g then .ok (s, e.2) else enter s new
  | none => enter s new
where
  /-- The bytes enter the core. -/
  enter (s : State) (new : List Byte) : Run (State × List Byte) := do
    let s ← s.enters i g 16
    return (s.on i fun c => { c with icache := (g, new) :: c.icache.filter (·.1 != g) }, new)

/-- The bytes from a physical address up to the end of the next granule. -/
def State.fetchBytes (s : State) (i pa : Nat) (two : Bool) : Run (State × List Byte) := do
  let (s, a) ← s.granule i (granuleOf pa)
  if two then
    let (s, b) ← s.granule i (granuleOf pa + 16)
    return (s, (a ++ b).drop (pa % 16))
  else return (s, a.drop (pa % 16))

/-- The illegal-instruction trap of a fetch at a core's program counter (R29, R380). -/
def Core.illegalHere (c : Core) (d : Nat) : Trap := { cause := .illegal, detail := d, addr := c.ctx.pc.toNat }

/-- Decode what was fetched (R17, R18, R29). -/
def fetched (c : Core) (s : State) (bs : List Byte) : Fetched :=
  match decodeWord (ofBytesLE (bs.take 16)) with
  | .ok (i, n) => .ok s i n
  | .error d => .trap s (c.illegalHere d)

/-- Fetch and decode at the program counter of core `i`. -/
def State.fetch (s : State) (i : Nat) : Fetched :=
  let c := s.at i
  let pc := c.ctx.pc.toNat
  if pc % 4 != 0 then .trap s (c.illegalHere 1)
  else match s.translate i { ex := true, user := !c.sys.sup } pc with
    | (s1, .error (.trap t)) => .trap s1 t
    | (s1, .error .away) => .gone s1
    | (s1, .ok (pa, _)) => match s1.fetchBytes i pa false with
      | .error (.gone s2) | .error (.stall s2) => .gone s2
      | .error _ => .gone s1
      | .ok (s2, bs) =>
        let n := lenBytes ((bs.headD 0).toNat)
        if n = 0 then .trap s2 (c.illegalHere 2)
        else if 32 < pc % 32 + n then .trap s2 (c.illegalHere 1)
        else if n ≤ bs.length then fetched c s2 bs
        else match s2.fetchBytes i pa true with
          | .error (.gone s3) | .error (.stall s3) => .gone s3
          | .error _ => .gone s2
          | .ok (s3, bs) => fetched c s3 bs

/-! ## Chains (R153 to R157) -/

/-- Whether an instruction waits on a core in the sense of R148, so that a chain completes it together (R156): one that can wait,
its guard true (R21). -/
def Core.waitsAt (c : Core) : Instr → Bool
  | .bar h _ | .sstep h | .msgwait h _ | .xwait h _ _ | .ccwait h _ _ | .twait h _ | .waitdep h | .join h | .pwait h _
  | .cbwait h _ _ | .cbacq h _ _ | .acq h _ _ _ => c.guard h
  | .mwait h | .pld h _ _ _ _ | .pconv h _ _ _ => c.guardX h
  | _ => false

/-- Whether an instruction is an `SSTEP` whose guard is true: its completion retires it on every core (R247). -/
def Core.stepsAt (c : Core) : Instr → Bool
  | .sstep h => c.guard h
  | _ => false

/-- The running core is core `i`. -/
def State.as (s : State) (i : Nat) : State := if h : i < 768 then { s with cur := ⟨i, h⟩ } else s

/-- Give an instruction to followers to be replayed. -/
def State.push (s : State) (fs : List Nat) (r : Replay) : State := fs.foldl (fun s k => s.on k fun c => { c with replay := c.replay ++ [r] }) s

/-- Whether a step completed an instruction of core `i`. -/
def completed (s s' : State) (i : Nat) : Bool := (s'.at i).retires != (s.at i).retires

/-- Whether core `i` was taken to its handler, or lost its launch. -/
def trapped (s s' : State) (i : Nat) : Bool := ((s'.at i).sys.sup && !(s.at i).sys.sup) || ((s.at i).launch.isSome && (s'.at i).launch.isNone)

/-- Whether an attached follower's own condition lets the waiting instruction at its replay head complete (R156): it completes it, or traps
at it (R157). -/
def State.followerReady (s : State) (i : Instr) (k : Nat) : Bool :=
  let c := s.at k
  c.replay.length == 1 && match exec i (s.as k) with
    | .next s' => completed s s' k || trapped s s' k
    | _ => false

/-- Instructions of `n` bytes that a tile (R174) or a placed part (R335) can hold. -/
def holdable (n : Nat) : Instr → Bool
  | .ld _ _ _ _ _ _ | .ldx _ _ _ _ _ _ _ | .st _ _ _ _ _ | .amo _ _ _ _ _ _ _ | .cas _ _ _ _ _ _ | .send _ _ _ _ _ _ _ => true
  | _ => n == 16

/-- Instructions that make a tile or a part hold later ones. -/
def startsHold : Instr → Bool
  | .tfill _ _ _ _ _ _ | .tdrain _ _ _ _ _ _ | .get _ _ _ _ _ _ _ | .pld _ _ _ _ _ | .pconv _ _ _ _ => true
  | _ => false

/-- Whether a core has a tile on its way or stands at a cut. -/
def Core.holding (c : Core) : Bool :=
  !c.arrived.isEmpty || c.ctx.tiles.any (fun e => e.st == .filling || e.st == .draining || e.pend) || c.replay.any fun r => startsHold r.instr

/-- Whether an instruction may be held at a leader or at one of its attached followers, so that the chain completes it together (R156). -/
def State.mayHold (s : State) (i : Nat) (ins : Instr) (n : Nat) : Bool :=
  holdable n ins && (i :: s.attachedOf i).any fun k => (s.at k).holding

/-- Whether an instruction is a `JOIN`, whose condition always holds for an attached follower (R156). -/
def isJoin : Instr → Bool
  | .join _ => true
  | _ => false

/-- Whether an instruction is an `EXIT`: a leader that has executed one has no next program counter, so that a follower whose own guard turns it
off detaches there (R155, R157; DEDUCED, log entry 127). -/
def isExit : Instr → Bool
  | .exit _ => true
  | _ => false

/-- Hold a core at a waiting instruction whose own condition is met (R156). -/
def State.holdAt (s : State) (i : Nat) : State :=
  s.on i fun c => { c with wait := some (c.wait.getD .other), waited := c.waited + 1 + Config.stallCycles s.tick }

/-- A leader, or a core without followers, issues an instruction that it has fetched. One that waits is handed to the attached followers at
once, and completes when it can on all of them (R156). -/
def State.lead (s : State) (i : Nat) (ins : Instr) (n : Nat) : Out :=
  let fs := s.attachedOf i
  let me := s.at i
  let pc := me.ctx.pc
  let rep (next : Word) : Replay := { pc := pc, instr := ins, len := n, next := next, trapped := false }
  if fs.isEmpty then exec ins (s.as i)
  else
    let waits := me.handed || me.waitsAt ins || s.mayHold i ins n
    let s1 := if waits && !me.handed then (s.push fs (rep (pc + BitVec.ofNat 64 n))).on i fun c => { c with handed := true } else s
    match exec ins (s1.as i) with
    | .next s2 =>
      if trapped s1 s2 i then .next (fs.foldl (fun s k => s.on k (Core.leaderTrapped pc)) s2)
      else if !completed s1 s2 i then .next s2
      else if !waits then .next (s2.push fs (rep (s2.at i).ctx.pc))
      else if me.stepsAt ins || isJoin ins || (me.handed && fs.all (s1.followerReady ins)) then .next s2
      else .next (s1.holdAt i)
    | r => r

/-- Whether a leader has issued as far ahead of an attached follower as R154 lets it: two cycles for each link. -/
def State.farAhead (s : State) (i : Nat) : Bool := (s.attachedOf i).any fun k => 2 * (s.at k).chainPos ≤ (s.at k).replay.length

/-- A follower leaves its leader's stream (R155, R157). -/
def Core.detached (c : Core) : Core := { c with ctx := { c.ctx with attached := false }, replay := [] }

/-- An attached follower replays what its leader issued (R154 to R157). -/
def State.follow (s : State) (k : Nat) : Out :=
  match (s.at k).replay with
  | [] => .next s
  | r :: rest =>
    if r.trapped then .next (s.on k Core.detached)
    else
      match exec r.instr (s.as k) with
      | .next s1 =>
        let c := s1.at k
        if !completed s s1 k || !c.ctx.attached || trapped s s1 k then .next s1
        else
          let l := s.at (s.leaderOf k)
          if (s.at k).stepsAt r.instr then .next s1
          else if rest.isEmpty && l.handed && l.ctx.pc == r.pc then .next (s.holdAt k)
          else if rest.isEmpty && isExit r.instr && l.phase == .exited && c.phase != .exited then .next (s1.on k Core.detached)
          else if c.ctx.pc == r.next then .next (s1.on k fun c => { c with replay := rest })
          else .next (s1.on k Core.detached)
      | o => o

/-! ## What is due before an instruction issues -/

/-- Everything that lands in core `i` up to a slot lands, in the order of the slots, pending writes first (R179, R237): the core stands still
where it must freeze, or where bytes are missing. -/
def State.landTo (i slot : Nat) : Nat → State → Slots
  | 0, s => .frozen s
  | fuel + 1, s =>
    let ring := firstRing (s.ringIn i)
    match (firstPend (s.at i).pend).filter fun p => p.land ≤ slot && ring.all fun x => p.land ≤ x.1 with
    | some p =>
      if s.frozenAt i p.land then .frozen s
      else if p.ready then State.landTo i slot fuel (s.on i (·.land p)) else .starved s
    | none => match ring.filter (·.1 ≤ slot) with
      | some (_, o, k) => match s.sendMove o k with
        | some s1 => State.landTo i slot fuel s1
        | none => .frozen s
      | none => if s.frozenAt i slot then .frozen s else .ok s

/-- A left wait goes on after `ERET` (R275, R382): the `BAR`, whose window opens when it ends, or the `SSTEP`, which completes before the core
issues anything. -/
def State.resumeWait (s : State) (i : Nat) (w : Wait) : State :=
  match w with
  | .bar g t _ =>
    match (s.launchOf i).bind fun l => (l.barSet g).bind fun b => (l.group g).map fun x => (b, x) with
    | none => s.on i fun c => { c with resume := none }
    | some (b, grp) =>
      if t ≤ b.closes && !s.inbound i g t then
        let s1 := s.on i (Core.waitEnds (Config.stallCycles s.tick))
        (s1.as i).openWindow g t grp (s1.at i).sys.slots
      else s.on i fun c => { c with waited := c.waited + 1 + Config.stallCycles s.tick }
  | .sstep _ _ => (s.on i fun c => { c with waited := c.waited + 1 + Config.stallCycles s.tick }).tryStep (s.seqOf i) i
  | _ => s.on i fun c => { c with resume := none }

/-- An injected report of the checker stage (R317, R330): the replay matches, or, sticky, mismatches too. -/
def State.checked (s : State) (i : Nat) : State :=
  let s1 := s.event 1 1 i (s.seqOf i) 0
  if bitAt (s.at i).sys.inj.toNat 8 then s1.rollback i (.core i) else s1.on i fun c => { c with sys := c.sys.reported 0 }

/-- Issue at core `i`: its leader's stream, or its own. -/
def State.issueAt (s : State) (i : Nat) : Out :=
  let c := s.at i
  if c.ctx.attached then s.follow i
  else if c.wait.isNone && s.farAhead i then .next s
  else match s.fetch i with
    | .gone s1 => .next s1
    | .trap s1 t => .next (((s1.tellTrap i c.ctx.pc).as i).takeTrap t { epc := c.ctx.pc })
    | .ok s1 ins n => s1.lead i ins n

/-- A core issues: the delay slots still owed pass first. -/
def State.issueTurn (s : State) (i : Nat) : Out := (if (s.at i).wait.isNone then s.on i Core.honour else s).issueAt i

/-- The slot that core `i` reaches before it goes on: past the delay slots that it still owes, unless it waits (R19). -/
def Core.nextSlot (c : Core) : Nat := c.sys.slots.toNat + if c.wait.isNone && c.resume.isNone then c.sys.owed else 0

/-- Everything lands in core `i` up to a slot. -/
def State.landUpTo (s : State) (i slot : Nat) : Slots :=
  State.landTo i slot ((s.at i).pend.length + (s.ringIn i).length + 1) s

/-- A fault is due at a core that issues: the precise trap of the instruction there comes before it (R383); else the fault is delivered, the
delay slots owed and the writes due in them being left for after its handler (R179, R381). -/
def State.faultTurn (s : State) (i : Nat) : Out :=
  match s.landUpTo i (s.at i).nextSlot with
  | .ok s1 => match s1.issueTurn i with
    | .next s2 => if trapped s1 s2 i then .next s2 else .next (s.deliverFault i)
    | r => r
  | _ => .next (s.deliverFault i)

/-- What a core does once everything due has landed. -/
def State.goOn (s : State) (i : Nat) : Out :=
  let c := s.at i
  match c.resume with
  | some w => if c.takesFault then .next (s.deliverFault i) else .next (s.resumeWait i w)
  | none =>
    if c.takesFault && c.wait.isSome then .next (s.deliverFault i)
    else if c.wait.isNone && bitAt c.sys.inj.toNat 0 then .next (s.checked i)
    else if c.takesFault then s.faultTurn i
    else s.issueTurn i

/-- One turn of core `i`. -/
def State.turn (s : State) (i : Nat) : Out :=
  let c := s.at i
  if s.atHalt i && c.takesFault then .next (s.faultAtStop i)
  else if c.launch.isNone || c.stopped || !(c.phase == .running || c.phase == .starting) then .next s
  else
    match (s.on i fun c => { c with phase := .running }).landUpTo i (if c.takesFault then c.sys.slots.toNat else c.nextSlot) with
    | .ok s1 => s1.goOn i
    | .frozen s1 | .starved s1 => .next s1

/-! ## Moves -/

/-- A move for each place of a queue. -/
def movesOf (n : Nat) (f : Nat → Instr) : List Move := (List.range n).map fun k => Move.event (f k)

/-- Events as moves, where they can matter. -/
def eventsIf (b : Bool) (l : List Instr) : List Move := if b then l.map Move.event else []

/-- The moves of a core and its engines. -/
def coreMoves (i : Nat) (c : Core) : List Move :=
  let m := c.memq.length
  let x := c.copies.length
  let p := c.port.length
  List.flatten
    [if c.launch.isSome then [Move.issue i] else [],
     eventsIf c.launch.isSome [.pendingWriteLand i, .engineFaultDelivery i, .waitThreshold i, .subroundClose i],
     eventsIf c.stopReq.isSome [.swapDeadline i, .preemptDeadline i],
     eventsIf c.sfu.isSome [.sfuRequestStart (podOf i), .sfuDeliver i],
     movesOf m (Instr.ownershipGrant i), movesOf m (Instr.l1Fill i), movesOf m (Instr.writeBackComplete i),
     movesOf x (Instr.tfillComplete i), movesOf x (Instr.tdrainComplete i), movesOf x (Instr.sendLand i),
     movesOf x (Instr.commandStoppedAtFault i .copy),
     movesOf p (Instr.packetLand i), movesOf p (Instr.getRequestServe i), movesOf p (Instr.getReplyLand i),
     movesOf p (Instr.messageArrive i), movesOf p (Instr.commandStoppedAtFault i .port),
     eventsIf (!c.plane.isEmpty) [.mmaStart i, .mmaComplete i, .mrecComplete i, .mhatchComplete i],
     if c.plane.isEmpty && c.etch.isEmpty && c.stats.isEmpty then [] else [.partWrite i],
     eventsIf (!c.stats.isEmpty) [.rstatComplete i],
     eventsIf (!c.etch.isEmpty) [.epiComplete i, .commandStoppedAtFault i .etcher 0]]

/-- The moves of the cores from number `i` on. -/
def allCoreMoves : Nat → List Core → List Move
  | _, [] => []
  | i, c :: cs => coreMoves i c ++ allCoreMoves (i + 1) cs

/-- The report that arrives next (R372): reports arrive in the order in which they were sent. -/
def State.reportMoves (s : State) : List Move :=
  (s.reporting.head?.map fun r => Move.event (.occupancyReport r.pa r.resv r.head r.tail r.count)).toList

/-- The event that carries out a host command (R401). -/
def commandMove (r : Rec) : Option Move :=
  match r.kind with
  | 2 => some (.event (.preEmpt r.seq)) | 3 => some (.event (.resume r.seq)) | 4 => some (.event (.endLaunch r.seq))
  | 5 => some (.event (.invalidateTlb r.seq)) | 6 => some (.event (.returnLink r.seq)) | 7 => some (.event (.powerMode r.seq))
  | _ => none

/-- The moves of a launch or of a host command; the commands of a queue are carried out in order (R401). -/
def State.launchMoves (s : State) (l : Launch) : List Move :=
  let n := l.record.seq.toNat
  match l.status with
  | .ended _ _ => []
  | .waiting => if l.record.kind = 1 then [.event (.launchStart l.record.seq)] else if s.firstCommand l then (commandMove l.record).toList else []
  | _ => [.event (.subroundOpen n), .event (.sstepComplete n)] ++ l.groups.map fun g => .event (.phaseClose n g.1)

/-- The moves that the device itself can make next; none once it has halted (R397, R411). -/
def State.moves (s : State) : List Move :=
  if s.fw = 3 then [] else List.flatten
    [allCoreMoves 0 s.cores.toList, s.launches.flatMap s.launchMoves, s.reportMoves,
     s.images.flatMap fun m => eventsIf true [.teamReturn m.home, .subroundClose m.home],
     s.syncs.map fun r => Move.event (.acqGrant r.pa),
     s.places.flatMap fun e => eventsIf true [.placementCutClose e.idx, .conversionPartWritten e.idx, .conversionComplete e.idx],
     movesOf s.switch.length Instr.homeAtomic, movesOf s.switch.length Instr.replySplit,
     (List.range Config.dies).flatMap fun d => movesOf (min 64 (s.die d).walks.length) (Instr.walkComplete d),
     (List.range Config.dies).flatMap fun d => eventsIf (2 ^ 20 ≤ (s.die d).gathers) [.hotRowHalve d],
     s.queues.flatMap fun q => eventsIf true [.launchRecordAccept q.idx, .completionRecordWrite q.idx]]

/-- Which of `n` moves comes next at a step (R163): at every third step the next in turn, so that no move is left for ever; else which of them
is free (log entry 4). -/
def pick (tick n : Nat) : Nat := (if tick % 3 = 1 then tick / 3 else Config.schedule tick n) % max 1 n

/-- The move that comes next: the head of the agenda; at every third step the turn of the next core in order, if it runs (R163); else one that
the device can make. -/
def State.nextMove (s : State) : Option (Move × State) :=
  let i := s.tick / 3 % Config.cores
  match s.agenda with
  | m :: rest => some (m, { s with agenda := rest })
  | [] =>
    if s.tick % 3 = 0 && (s.at i).launch.isSome then some (.issue i, s)
    else
      let ms := s.moves
      (ms[pick s.tick ms.length]?).map fun m => (m, s)

/-- Make a move. -/
def State.make (s : State) : Move → Out
  | .issue i => s.turn i
  | .event i => exec i s
  | .partWrite i => .next (s.partAhead i)
  | .decay g => .next { s with poison := if s.poison.contains (granuleOf g) then s.poison else granuleOf g :: s.poison }
  | .hostLink p needs mem cache => .next (s.trainHost p needs mem cache)
  | .hdm base len => .next { s with hdm := (base, len) }
  | .hostRead p a n x => .next (s.hostRead p a n x)
  | .hostReply p a n dirty => .next (s.hostReply p a n dirty)

/-! ## Placing an instruction -/

/-- A launch of core 0 alone. -/
def probeLaunch : Launch :=
  { record := { kind := 1, seq := 0, e := [1, 1, 1, 1], g := [1, 1, 1, 1] }, queue := 0, order := 0, status := .running,
    coreMask := [(0, 1)], team := [0], squads := [{ stage := 0, inst := 0, cores := [0] }] }

/-- A translation of the page at 0 to physical address 0, everything permitted. -/
def probePage : TlbEntry :=
  { asid := 0, root := 0, bits := 13, vpn := 0, ppn := 0, mt := 0, rd := true, wr := true, ex := true, us := true, dt := true, pte := 0 }

/-- Core 0 as a launch runs it, at address 0. -/
def Core.probed (c : Core) : Core :=
  { c with phase := .running, launch := some 0, gen := 0, team := 0, ctx := { c.ctx with pc := 0, attached := false }, wait := none,
           resume := none, stopped := false, stalled := false, handed := false, window := none, pend := [], faults := [], tlb := [probePage], icache := [] }

end Sys2Proof.Machine
end

