-- ==== Sys2Proof/Machine/Step.lean ====
section
/-! DEFINITION. One step of the device, and an instruction placed for the next step. -/

namespace Sys2Proof.Machine

/-- One step: the next move is made, then what follows a move; a device that has tripped and has nothing pending is halted. -/
def step (s : State) : Host.Outcome State Fault Refusal :=
  match s.nextMove with
  | none => if s.fw = 3 then .fault .deviceHalted else .next { s.booted with tick := s.tick + 1 }
  | some (m, s1) =>
    match s1.make m with
    | .next t => .next { State.settle s1 t with tick := s.tick + 1 }
    | r => r

/-- `s` with an instruction of `nbits` bits `w` at the program counter of core 0, whose turn is next (log entry 3). -/
def State.withFetchWord (s : State) (nbits w : Nat) : State :=
  let s1 : State := { s with launches := probeLaunch :: s.launches.filter (·.record.seq != 0), mem := s.mem.write 0 (bytesLE 16 (w % 2 ^ nbits)),
                             poison := s.poison.filter (16 ≤ ·), agenda := .issue 0 :: s.agenda }
  s1.on 0 Core.probed

end Sys2Proof.Machine
end

