-- ==== Sys2Proof/Safety.lean ====
section
/-! DEFINITION. The terms in which the statements speak: what an instruction leaves alone, what completing one means, canonical
storage, safe steps and safe runs. -/

namespace Sys2Proof.Machine

/-! ## Completing an instruction -/

/-- A core but for what every completed instruction moves: its program counter and its counts of slots, cycles, waits and
retirements. -/
def Core.settled (c : Core) : Core :=
  { c with ctx := { c.ctx with pc := 0 }, sys := { c.sys with slots := 0, cyc := 0 }, wait := none, waited := 0, stalled := false,
           handed := false, retires := 0, pos := 0 }

/-- The device but for its cores and its memory. -/
def State.rest (s : State) : State := { s with cores := Vector.replicate 768 Core.reset, mem := [] }

/-- From `s` the running core completes an instruction in `t` (R19): the core becomes `c` but for the counts of `Core.settled`,
its program counter `npc`, its slots advance by one and the delay slots, nothing waits; no other core, no byte of memory
and nothing else of the device changes. -/
structure Completes (s t : State) (c : Core) (npc : Word) (dly : Nat) : Prop where
  core : t.core.settled = c.settled
  pc : t.core.ctx.pc = npc
  slots : t.core.sys.slots = s.core.sys.slots + 1 + BitVec.ofNat 64 dly
  going : t.core.wait = none ∧ t.core.stalled = false
  others : ∀ i, i ≠ s.cur.val → t.at i = s.at i
  mem : ∀ a, t.mem.get a = s.mem.get a
  device : t.rest = s.rest

/-- The registers of a core but for the program counter and the counts of slots and cycles: its context (scalars, guards,
handles, loops, tiles, counters and the rest) and its system registers. -/
def Core.registers (c : Core) : Ctx × Sys := ({ c.ctx with pc := 0 }, { c.sys with slots := 0, cyc := 0 })

/-- From `s` the running core completes an instruction in `t` (R19), whatever else it does: program counter, slots, no wait. -/
structure Retires (s t : State) (npc : Word) (dly : Nat) : Prop where
  pc : t.core.ctx.pc = npc
  slots : t.core.sys.slots = s.core.sys.slots + 1 + BitVec.ofNat 64 dly
  going : t.core.wait = none ∧ t.core.stalled = false

/-- From `s` the running core completes an instruction in `t` as `Completes` says, but for memory, which takes the bytes that `w`
gives; every other byte stays. -/
structure Stores (s t : State) (c : Core) (npc : Word) (dly : Nat) (w : Nat → Option Byte) : Prop where
  retires : Retires s t npc dly
  core : t.core.settled = c.settled
  others : ∀ i, i ≠ s.cur.val → t.at i = s.at i
  mem : ∀ a, t.mem.get a = (w a).getD (s.mem.get a)
  device : t.rest = s.rest

/-- An instruction executed in a state answers a next state with a property. -/
def Yields (s : State) (i : Instr) (p : State → Prop) : Prop := ∃ t, exec i s = .next t ∧ p t

/-- The address of the instruction `n` bytes after the program counter of the running core. -/
def State.after (s : State) (n : Nat) : Word := s.core.ctx.pc + BitVec.ofNat 64 n

/-- The running core does not issue: it waits for `w`, or goes on waiting, and nothing else changes but its count of waiting. -/
def Waits (s t : State) (w : Wait) : Prop :=
  t.core.wait = some w ∧ t.core.ctx = s.core.ctx ∧ t.core.sys = s.core.sys ∧ s.core.waited < t.core.waited ∧ t.mem = s.mem

/-- The running core has taken a precise trap with a handler (R379 to R381): `epc`, `ecause`, `einfo`, `eaddr` and `estat` as the
rules say, supervisor mode, the program counter at the handler; every scalar, guard and handle, the memory and every other core
as before. -/
structure Enters (s t : State) (x : Trap) (epc : Word) (owed : Nat) : Prop where
  epc : t.core.sys.epc = epc
  cause : t.core.sys.ecause = BitVec.ofNat 64 x.cause.num
  info : t.core.sys.einfo = BitVec.ofNat 64 (x.detail % 2 ^ 32)
  addr : t.core.sys.eaddr = BitVec.ofNat 64 (x.addr % 2 ^ 53 + if x.inPad then 2 ^ 53 else 0)
  mode : t.core.sys.sup = true
  saved : t.core.sys.estat.getLsbD 0 = s.core.sys.sup ∧ (t.core.sys.estat >>> 1).setWidth 4 = BitVec.ofNat 4 owed
  pc : t.core.ctx.pc = s.core.sys.tvec + BitVec.ofNat 64 (64 * x.cause.num)
  regs : t.core.ctx.regs = s.core.ctx.regs ∧ t.core.ctx.guards = s.core.ctx.guards ∧ t.core.ctx.handles = s.core.ctx.handles
  others : ∀ i, i ≠ s.cur.val → t.at i = s.at i
  mem : ∀ a, t.mem.get a = s.mem.get a
  device : t.rest = s.rest

/-- The running core takes traps: user mode, and a vector base (R381). -/
def State.handles (s : State) : Bool := !s.core.sys.sup && s.core.sys.tvec != 0

/-! ## Storage -/

/-- Byte storage in canonical form: memory, the scratchpad of every core, and those in saved images. -/
def State.canonical (s : State) : Bool :=
  s.mem.wf && (s.cores.toList.all fun c => c.pad.wf) && s.images.all fun m => m.core.pad.wf

/-- While no device index is assigned, no work queue is enabled (R397). -/
def State.queuesGuarded (s : State) : Bool := s.idok || s.queues.all fun q => !q.en

/-! ## Safe runs -/

/-- A state from which the next step goes on. -/
def Safe (s : State) : Prop := ∃ t, step s = .next t

/-- A run of `n` steps that neither faults nor is refused. -/
def SafeRun (n : Nat) (s : State) : Prop := ∃ t, core.run n s = Host.Outcome.next t

end Sys2Proof.Machine
end

