-- ==== Sys2Proof/Certificates/Slice0/Obligations.lean ====
section
/-! DEFINITION. The statements about the model, each formalising rules of spec/; OBLIGATIONS.json lists them. -/

namespace Sys2Proof.Claims

open Machine

/-! ## Integer results, written from R54 to R59 -/

/-- The operations of OP 0x01 and 0x02 (R54) on `a` and `b`. -/
def addResult (a b : Word) : Word := BitVec.ofNat 64 ((a.toNat + b.toNat) % 2 ^ 64)
def subResult (a b : Word) : Word := BitVec.ofInt 64 (a.toNat - b.toNat)
def shlResult (a b : Word) : Word := BitVec.ofNat 64 (a.toNat * 2 ^ (b.toNat % 64))
def shrResult (a b : Word) : Word := BitVec.ofNat 64 (a.toNat / 2 ^ (b.toNat % 64))
def sarResult (a b : Word) : Word := BitVec.ofInt 64 (a.toInt / 2 ^ (b.toNat % 64))
def rotResult (a b : Word) : Word :=
  BitVec.ofNat 64 (a.toNat * 2 ^ (b.toNat % 64)) ||| BitVec.ofNat 64 (a.toNat / 2 ^ (64 - b.toNat % 64))
def minResult (a b : Word) : Word := if a.toInt < b.toInt then a else b
def maxResult (a b : Word) : Word := if b.toInt < a.toInt then a else b
def minuResult (a b : Word) : Word := if a < b then a else b
def maxuResult (a b : Word) : Word := if b < a then a else b

/-- The result that R54 gives, with the header and the destination: register forms, then immediate forms, whose `b` is the
sign-extended immediate, or the count itself. -/
def aluOf (c : Core) : Instr → Option (Hd × SReg × Word)
  | .add h d x y => some (h, d, addResult (c.getS x) (c.getS y))
  | .sub h d x y => some (h, d, subResult (c.getS x) (c.getS y))
  | .and h d x y => some (h, d, c.getS x &&& c.getS y)
  | .or h d x y => some (h, d, c.getS x ||| c.getS y)
  | .xor h d x y => some (h, d, c.getS x ^^^ c.getS y)
  | .andn h d x y => some (h, d, c.getS x &&& ~~~c.getS y)
  | .shl h d x y => some (h, d, shlResult (c.getS x) (c.getS y))
  | .shr h d x y => some (h, d, shrResult (c.getS x) (c.getS y))
  | .sar h d x y => some (h, d, sarResult (c.getS x) (c.getS y))
  | .rot h d x y => some (h, d, rotResult (c.getS x) (c.getS y))
  | .min h d x y => some (h, d, minResult (c.getS x) (c.getS y))
  | .max h d x y => some (h, d, maxResult (c.getS x) (c.getS y))
  | .minu h d x y => some (h, d, minuResult (c.getS x) (c.getS y))
  | .maxu h d x y => some (h, d, maxuResult (c.getS x) (c.getS y))
  | .addImm h d x i => some (h, d, addResult (c.getS x) (i.signExtend 64))
  | .subImm h d x i => some (h, d, subResult (c.getS x) (i.signExtend 64))
  | .andImm h d x i => some (h, d, c.getS x &&& i.signExtend 64)
  | .orImm h d x i => some (h, d, c.getS x ||| i.signExtend 64)
  | .xorImm h d x i => some (h, d, c.getS x ^^^ i.signExtend 64)
  | .andnImm h d x i => some (h, d, c.getS x &&& ~~~i.signExtend 64)
  | .shlImm h d x n => some (h, d, shlResult (c.getS x) (n.setWidth 64))
  | .shrImm h d x n => some (h, d, shrResult (c.getS x) (n.setWidth 64))
  | .sarImm h d x n => some (h, d, sarResult (c.getS x) (n.setWidth 64))
  | .rotImm h d x n => some (h, d, rotResult (c.getS x) (n.setWidth 64))
  | .minImm h d x i => some (h, d, minResult (c.getS x) (i.signExtend 64))
  | .maxImm h d x i => some (h, d, maxResult (c.getS x) (i.signExtend 64))
  | .minuImm h d x i => some (h, d, minuResult (c.getS x) (i.signExtend 64))
  | .maxuImm h d x i => some (h, d, maxuResult (c.getS x) (i.signExtend 64))
  | _ => none

/-- The least 64-bit integer. -/
def intMin : Word := 0x8000000000000000

/-- The result that R55 gives, with the header and the destination. -/
def mulOf (c : Core) : Instr → Option (Hd × SReg × Word)
  | .mul h d x y => some (h, d, BitVec.ofNat 64 ((c.getS x).toNat * (c.getS y).toNat))
  | .mulh h d x y => some (h, d, BitVec.ofInt 64 ((c.getS x).toInt * (c.getS y).toInt / 2 ^ 64))
  | .mulhu h d x y => some (h, d, BitVec.ofNat 64 ((c.getS x).toNat * (c.getS y).toNat / 2 ^ 64))
  | .div h d x y => some (h, d, if c.getS y = 0 then -1 else if c.getS x = intMin ∧ c.getS y = -1 then intMin
      else BitVec.ofInt 64 ((c.getS x).toInt.tdiv (c.getS y).toInt))
  | .divu h d x y => some (h, d, if c.getS y = 0 then -1 else BitVec.ofNat 64 ((c.getS x).toNat / (c.getS y).toNat))
  | .rem h d x y => some (h, d, if c.getS y = 0 then c.getS x else if c.getS x = intMin ∧ c.getS y = -1 then 0
      else BitVec.ofInt 64 ((c.getS x).toInt - (c.getS y).toInt * (c.getS x).toInt.tdiv (c.getS y).toInt))
  | .remu h d x y => some (h, d, if c.getS y = 0 then c.getS x else BitVec.ofNat 64 ((c.getS x).toNat % (c.getS y).toNat))
  | _ => none

/-- One round of R57. -/
def mixStep (key x k : Word) (turn : Nat) : Word :=
  let u := (x ^^^ (x >>> 31)) * k
  u ^^^ (u >>> 29) ^^^ key.rotateLeft turn

/-- The four rounds of R57 on a key and a counter. -/
def mixWord (key v : Word) : Word :=
  let x1 := mixStep key (v ^^^ key) 0x9E3779B97F4A7C15 17
  let x2 := mixStep key x1 0xBF58476D1CE4E5B9 34
  let x3 := mixStep key x2 0x94D049BB133111EB 51
  mixStep key x3 0xC2B2AE3D27D4EB4F 4

/-- The result that R56 and R57 give, with the header and the destination. -/
def bitOf (c : Core) : Instr → Option (Hd × SReg × Word)
  | .clz h d x => some (h, d, BitVec.ofNat 64 ((List.range 64).takeWhile fun i => !(c.getS x).getLsbD (63 - i)).length)
  | .ctz h d x => some (h, d, BitVec.ofNat 64 ((List.range 64).takeWhile fun i => !(c.getS x).getLsbD i).length)
  | .popc h d x => some (h, d, BitVec.ofNat 64 ((List.range 64).filter fun i => (c.getS x).getLsbD i).length)
  | .brev h d x => some (h, d, BitVec.ofNat 64 (packFields ((List.range 64).map fun i => (1, b1 ((c.getS x).getLsbD (63 - i))))))
  | .bswap h d x => some (h, d, BitVec.ofNat 64 (packFields ((List.range 8).map fun i => (8, field (c.getS x).toNat (8 * (7 - i)) 8))))
  | .mix h d x y => some (h, d, mixWord (c.getS x) (c.getS y))
  | _ => none

/-- The result that R58, R59 and R61 give, with the header, the length in bytes and the destination: a field of bits from `lsb`
up to `lsb` + `m` (the width is `m` + 1), an immediate, or one of two registers. -/
def moveOf (c : Core) : Instr → Option (Hd × Nat × SReg × Word)
  | .bfx h d x sx lsb m => some (h, 8, d,
      if sx then ((c.getS x).extractLsb' lsb.toNat (m.toNat + 1)).signExtend 64
      else ((c.getS x).extractLsb' lsb.toNat (m.toNat + 1)).setWidth 64)
  | .bfi h d x lsb m => some (h, 8, d, BitVec.ofNat 64 (packFields ((List.range 64).map fun i =>
      (1, b1 (if lsb.toNat ≤ i ∧ i ≤ lsb.toNat + m.toNat then (c.getS x).getLsbD (i - lsb.toNat) else (c.getS d).getLsbD i)))))
  | .movi h d i => some (h, 8, d, i.signExtend 64)
  | .movw h d i => some (h, 12, d, i.signExtend 64)
  | .sel h d x y g inv => some (h, 8, d, if c.getG g = inv then c.getS y else c.getS x)
  | _ => none

end Sys2Proof.Claims

open Sys2Proof Sys2Proof.Machine Sys2Proof.Claims

/-- R54, R22: the ALU operations of OP 0x01 and 0x02 write their result to s[A] (nothing where A is `s0`), raise nothing, and
leave everything else as it was. -/
def Sys2Proof.Claims.AluResults : Prop :=
  ∀ (s : State) (i : Instr) (h : Hd) (d : SReg) (v : Word), aluOf s.core i = some (h, d, v) → s.core.guard h = true →
    Yields s i fun t => Completes s t (s.core.setS d v) (s.after 8) h.dly.toNat

/-- R55: multiply, divide and remainder, their corners included. -/
def Sys2Proof.Claims.MulDivResults : Prop :=
  ∀ (s : State) (i : Instr) (h : Hd) (d : SReg) (v : Word), mulOf s.core i = some (h, d, v) → s.core.guard h = true →
    Yields s i fun t => Completes s t (s.core.setS d v) (s.after 8) h.dly.toNat

/-- R56, R57: the bit operations and `MIX`. -/
def Sys2Proof.Claims.BitResults : Prop :=
  ∀ (s : State) (i : Instr) (h : Hd) (d : SReg) (v : Word), bitOf s.core i = some (h, d, v) → s.core.guard h = true →
    Yields s i fun t => Completes s t (s.core.setS d v) (s.after 8) h.dly.toNat

/-- R58, R59, R61: bit fields, immediates and `SEL`, for every well-formed instruction. -/
def Obligations.MoveResults : Prop :=
  ∀ (s : State) (i : Instr) (h : Hd) (n : Nat) (d : SReg) (v : Word), moveOf s.core i = some (h, n, d, v) →
    WellFormed i = true → s.core.guard h = true →
    Yields s i fun t => Completes s t (s.core.setS d v) (s.after n) h.dly.toNat

namespace Sys2Proof.Claims

open Machine

/-! ## Guards, floats, system registers, control flow: R60 to R77 -/

/-- The condition of R34 on two integers, read as signed and as unsigned numbers. -/
def condHolds (k : ICond) (a b : Word) : Prop :=
  match k with
  | .eq => a = b
  | .ne => a ≠ b
  | .lt => a.toInt < b.toInt
  | .ge => ¬ a.toInt < b.toInt
  | .le => ¬ b.toInt < a.toInt
  | .gt => b.toInt < a.toInt
  | .ltu => a < b
  | .geu => ¬ a < b
  | .leu => ¬ b < a
  | .gtu => b < a

/-- What R60 writes to the guard whose old value is `old`. -/
def guardWritten (w : GWrite) (old : Bool) (k : Prop) : Prop :=
  match w with
  | .write => k
  | .and => old = true ∧ k
  | .or => old = true ∨ k

/-- The guard that `CMP`, `CMPI` and the guard-writing forms of `GLOG` write, and when it becomes true (R60, R62). -/
def guardOf (c : Core) : Instr → Option (Hd × GReg × Prop)
  | .cmp h d x y k w => some (h, d, guardWritten w (c.getG d) (condHolds k (c.getS x) (c.getS y)))
  | .cmpi h d x i k w => some (h, d, guardWritten w (c.getG d) (condHolds k (c.getS x) (i.signExtend 64)))
  | .glog h (.and d a b) => some (h, d, c.getG a = true ∧ c.getG b = true)
  | .glog h (.or d a b) => some (h, d, c.getG a = true ∨ c.getG b = true)
  | .glog h (.xor d a b) => some (h, d, c.getG a ≠ c.getG b)
  | .glog h (.andn d a b) => some (h, d, c.getG a = true ∧ c.getG b = false)
  | .glog h (.not d a) => some (h, d, c.getG a = false)
  | .glog h (.mov d a) => some (h, d, c.getG a = true)
  | .glog h (.set d) => some (h, d, True)
  | .glog h (.clr d) => some (h, d, False)
  | _ => none

/-- The result of a scalar floating-point instruction with the flags it raises (R66, R67, R69, R70): the header, the
destination, the value, the flags. -/
def floatOf (c : Core) : Instr → Option (Hd × SReg × Word × Fl)
  | .fadd h d x y f r => let v := (sfmtOf f).add (c.mode r) (fval f (c.getS x)) (fval f (c.getS y)); some (h, d, fword f v.1, v.2)
  | .fsub h d x y f r => let v := (sfmtOf f).sub (c.mode r) (fval f (c.getS x)) (fval f (c.getS y)); some (h, d, fword f v.1, v.2)
  | .fmul h d x y f r => let v := (sfmtOf f).mul (c.mode r) (fval f (c.getS x)) (fval f (c.getS y)); some (h, d, fword f v.1, v.2)
  | .fdiv h d x y f r => let v := (sfmtOf f).div (c.mode r) (fval f (c.getS x)) (fval f (c.getS y)); some (h, d, fword f v.1, v.2)
  | .fsqrt h d x f r => let v := (sfmtOf f).sqrt (c.mode r) (fval f (c.getS x)); some (h, d, fword f v.1, v.2)
  | .fmin h d x y f _ => let v := minMax false (fval f (c.getS x)) (fval f (c.getS y)); some (h, d, fword f v.1, v.2)
  | .fmax h d x y f _ => let v := minMax true (fval f (c.getS x)) (fval f (c.getS y)); some (h, d, fword f v.1, v.2)
  | .ffma h d x y k f r =>
    let v := (sfmtOf f).fma (c.mode r) (k = .fnma ∨ k = .fnms) (k = .fms ∨ k = .fnma)
      (fval f (c.getS x)) (fval f (c.getS y)) (fval f (c.getS d))
    some (h, d, fword f v.1, v.2)
  | .fcvt h d x k j r => let v := cvtDest k (c.mode r) (cvtSource j (c.getS x)); some (h, d, v.1, v.2)
  | .fclass h d x f => some (h, d, BitVec.ofNat 64 ((sfmtOf f).classOf (fval f (c.getS x))), 0)
  | _ => none

/-- The exact value of a finite number: ± m × 2^e. -/
def ratOf (n : Bool) (m : Nat) (e : Int) : ℚ := (if n then -1 else 1) * (m : ℚ) * (2 : ℚ) ^ e

/-- The place of a value that is no NaN in the order of the reals with the two infinities. -/
def placeOf : FV → ℤ ×ₗ ℚ
  | .inf n => toLex (if n then -1 else 1, 0)
  | .fin n m e => toLex (0, ratOf n m e)
  | .nan _ _ _ => toLex (0, 0)

/-- What a system register reads (R64, R72, R94, R95, R285, R329, R379). -/
def sysOf (c : Core) (r : SysReg) : Word :=
  match r with
  | .fpc => c.ctx.fpc
  | .cyc => c.sys.cyc
  | .slots => c.sys.slots
  | .depth => BitVec.ofNat 64 c.ctx.depth
  | .lc => if c.ctx.depth = 0 then 0 else (c.ctx.loops[c.ctx.depth]).count
  | .wthr => c.sys.wthr.setWidth 64
  | .pquota => (BitVec.ofNat 16 c.pused ++ c.sys.pmax).setWidth 64
  | .lquota => BitVec.ofNat 32 (ceilDiv c.logUsed 1024) ++ c.sys.lmax
  | .inj => c.sys.inj.setWidth 64
  | .tvec => c.sys.tvec
  | .epc => c.sys.epc
  | .ecause => c.sys.ecause
  | .einfo => c.sys.einfo
  | .eaddr => c.sys.eaddr
  | .estat => c.sys.estat

/-- The bits of a system register that a write changes (R64, R94, R95, R285, R329, R379). -/
def writable : SysReg → Word
  | .fpc => 0x3FF7
  | .lc | .einfo => 0xFFFFFFFFFFFFFFFF
  | .wthr | .lquota => 0xFFFFFFFF
  | .pquota => 0xFFFF
  | .inj => 0x17F
  | .tvec => 0x1FFFFFFFFFFFC0
  | .epc => 0x1FFFFFFFFFFFFF
  | .ecause => 0xFFF
  | .eaddr => 0x3FFFFFFFFFFFFF
  | .estat => 0xFF01FF
  | .cyc | .slots | .depth => 0

/-- What a system register reads once `v` has been written: the writable bits of `v`; a read-only field stays, and every
other bit is reserved and zero. `lc` ignores a write at depth 0 (R72), and RMD keeps its code when `v` holds none of the codes 1
to 5 (R64). -/
def sysWritten (c : Core) (r : SysReg) (v : Word) : Word :=
  match r with
  | .lc => if c.ctx.depth = 0 then 0 else v
  | .fpc => (v &&& 0x3FF0) ||| (if 1 ≤ (v.setWidth 3).toNat ∧ (v.setWidth 3).toNat ≤ 5 then v &&& 7 else c.ctx.fpc &&& 7)
  | .pquota | .lquota => (v &&& writable r) ||| (sysOf c r &&& ~~~writable r)
  | _ => v &&& writable r

/-- The state once everything that the running core has pending has landed (R179): what a wait begins with. -/
def landed (s u : State) : Prop := s.drained = .ok u

/-- The state from which a system register is accessed: for `fpc` everything earlier has completed (R72, R179, R213); any other
register waits for nothing. -/
def accessReady (s u : State) (r : SysReg) : Prop := if r = .fpc then landed s u else u = s

/-- Where a taken transfer goes, and the link it writes (R73). -/
def transferOf (c : Core) : Instr → Option (Hd × Core × Word)
  | .br h i => some (h, c, c.ctx.pc + 4 * i.signExtend 64)
  | .brl h i => some (h, c, c.ctx.pc + 4 * i.signExtend 64)
  | .call h d i => some (h, c.setS d (c.ctx.pc + 8), c.ctx.pc + 4 * i.signExtend 64)
  | .calll h d i => some (h, c.setS d (c.ctx.pc + 12), c.ctx.pc + 4 * i.signExtend 64)
  | .ret h x => some (h, c, c.getS x)
  | .jmpr h d x i => some (h, c.setS d (c.ctx.pc + 8), c.getS x + i.signExtend 64)
  | _ => none

/-- A core's loop of a depth. -/
def loopAt (c : Core) (d : Fin 8) : Loop := c.ctx.loops[d]

end Sys2Proof.Claims

open Sys2Proof Sys2Proof.Machine Sys2Proof.Claims

/-- R60, R62, R22: compares and guard logic write their guard (nothing where it is `g0`) and leave the rest. -/
def Sys2Proof.Claims.GuardResults : Prop :=
  ∀ (s : State) (i : Instr) (h : Hd) (d : GReg) (k : Prop), guardOf s.core i = some (h, d, k) → s.core.guard h = true →
    ∃ v : Bool, (v = true ↔ k) ∧ Yields s i fun t => Completes s t (s.core.setG d v) (s.after 8) h.dly.toNat

/-- R62: `GLOG.gtos` writes the guards to a scalar, bit 0 always 1, and `GLOG.stog` writes them from one, `g0` still true. -/
def Sys2Proof.Claims.GuardWords : Prop :=
  ∀ (s : State) (h : Hd) (x : SReg), s.core.guard h = true →
    (Yields s (.glog h (.gtos x)) fun t => ∃ v : Word, Completes s t (s.core.setS x v) (s.after 8) h.dly.toNat ∧
      ∀ n : Nat, v.getLsbD n = (decide (n < 16) && s.core.getG (BitVec.ofNat 4 n))) ∧
    Yields s (.glog h (.stog x)) fun t => ∃ c : Core, Completes s t c (s.after 8) h.dly.toNat ∧
      c = { s.core with ctx := { s.core.ctx with guards := c.ctx.guards } } ∧
      ∀ g : GReg, c.getG g = (g == 0 || (s.core.getS x).getLsbD g.toNat)

/-- R64, R65: with no trap enabled for a raised flag, a floating-point instruction sets the flags it raises in `fpc`, writes
its result and leaves the rest. -/
def Sys2Proof.Claims.FloatResults : Prop :=
  ∀ (s : State) (i : Instr) (h : Hd) (d : SReg) (v : Word) (f : Fl), floatOf s.core i = some (h, d, v, f) →
    s.core.guard h = true → s.core.traps f = false →
    Yields s i fun t => Completes s t ((s.core.raise f).setS d v) (s.after 8) h.dly.toNat

/-- The header of a scalar floating-point instruction with the flags it raises, `FCMP` among them (R66 to R70). -/
def Sys2Proof.Claims.raisedBy (c : Core) : Instr → Option (Hd × Fl)
  | .fcmp h _ x y _ f sig =>
    let a := fval f (c.getS x)
    let b := fval f (c.getS y)
    some (h, if (if sig then a.isNaN || b.isNaN else a.isSNaN || b.isSNaN) then 1 else 0)
  | i => (floatOf c i).map fun r => (r.1, r.2.2.2)

/-- R65: a raised flag whose enable bit is 1: every raised flag is set, no destination is written, and a floating-point trap is
taken at the instruction's own address, its information the raised flags. -/
def Sys2Proof.Claims.FloatTraps : Prop :=
  ∀ (s : State) (i : Instr) (h : Hd) (f : Fl), raisedBy s.core i = some (h, f) →
    s.core.guard h = true → s.core.traps f = true → s.handles = true →
    Yields s i fun t => Enters s t { cause := .float, detail := f.toNat } (s.core.ctx.pc &&& 0x1FFFFFFFFFFFFF) 0 ∧
      t.core.ctx.fpc = s.core.ctx.fpc ||| (f.setWidth 64 <<< 4)

/-- R68: `FCMP` writes its guard with the condition of its operands, NaN and zeros as the rule says, and raises NV for a
signalling NaN, or for any NaN with `.sig`. -/
def Obligations.FloatCompares : Prop :=
  ∀ (s : State) (h : Hd) (g : GReg) (x y : SReg) (k : FCond) (f : SFmt) (sig : Bool), s.core.guard h = true →
    let a := fval f (s.core.getS x)
    let b := fval f (s.core.getS y)
    let nan := a.isNaN || b.isNaN
    let fl : Fl := if (if sig then nan else a.isSNaN || b.isSNaN) then 1 else 0
    s.core.traps fl = false →
    ∃ v : Bool, (Yields s (.fcmp h g x y k f sig) fun t => Completes s t ((s.core.raise fl).setG g v) (s.after 8) h.dly.toNat) ∧
      (nan = true → (v = true ↔ k = .ne ∨ k = .un)) ∧
      (nan = false → (k = .un → v = false) ∧ (k = .ord → v = true) ∧
        (k = .eq → (v = true ↔ placeOf a = placeOf b)) ∧ (k = .ne → (v = true ↔ placeOf a ≠ placeOf b)) ∧
        (k = .lt → (v = true ↔ placeOf a < placeOf b)) ∧ (k = .ge → (v = true ↔ placeOf b ≤ placeOf a)) ∧
        (k = .le → (v = true ↔ placeOf a ≤ placeOf b)) ∧ (k = .gt → (v = true ↔ placeOf b < placeOf a)))

/-- R132: rounding a finite value to the nearest gives, short of an overflow, a value of the format that no value of the format
is nearer than; rounding down and up give the greatest value not above and the least not below, and rounding towards zero the value
of greatest magnitude not above in magnitude. -/
def Obligations.RoundingIsCorrect : Prop :=
  ∀ (k : SFmt) (n : Bool) (m : Nat) (e : Int) (r : Rnd) (p : Bool) (w : Nat) (q : Int),
    ((sfmtOf k).round r (.fin n m e)).1 = .fin p w q →
    ∀ (b : Nat) (y : Bool) (u : Nat) (z : Int), (sfmtOf k).decode b = .fin y u z →
      ((r = .rne ∨ r = .rna) → |ratOf p w q - ratOf n m e| ≤ |ratOf y u z - ratOf n m e|) ∧
      (r = .rdn → ratOf p w q ≤ ratOf n m e ∧ (ratOf y u z ≤ ratOf n m e → ratOf y u z ≤ ratOf p w q)) ∧
      (r = .rup → ratOf n m e ≤ ratOf p w q ∧ (ratOf n m e ≤ ratOf y u z → ratOf p w q ≤ ratOf y u z)) ∧
      (r = .rtz → |ratOf p w q| ≤ |ratOf n m e| ∧ (|ratOf y u z| ≤ |ratOf n m e| → |ratOf y u z| ≤ |ratOf p w q|))

/-- R71, R72: `IDR` reads the core's identity; `SRR` reads every system register that its mode may read, `fpc` once everything
earlier has completed. -/
def Sys2Proof.Claims.SystemReads : Prop :=
  (∀ (s : State) (h : Hd) (d : SReg) (r : IdReg), s.core.guard h = true →
    Yields s (.idr h d r) fun t => ∃ v : Word, Completes s t (s.core.setS d v) (s.after 8) h.dly.toNat ∧
      (r = .core → v.toNat = s.cur.val % 8) ∧ (r = .pod → v.toNat = s.cur.val / 8 % 48) ∧ (r = .die → v.toNat = s.cur.val / 384) ∧
      (r = .dev → v.toNat = s.devidx.toNat) ∧ (r = .chan → v.toNat = s.cur.val % 8) ∧
      (r = .lanes → v = BitVec.ofNat 64 (8 * ((if s.core.reserve then 1 else 0) + s.core.shared.length))) ∧
      (r = .org0 → v = s.core.ident.org[0]) ∧ (r = .org1 → v = s.core.ident.org[1]) ∧ (r = .org2 → v = s.core.ident.org[2]) ∧
      (r = .org3 → v = s.core.ident.org[3]) ∧ (r = .ext0 → v = s.core.ident.ext[0]) ∧ (r = .ext1 → v = s.core.ident.ext[1]) ∧
      (r = .ext2 → v = s.core.ident.ext[2]) ∧ (r = .ext3 → v = s.core.ident.ext[3]) ∧ (r = .grp0 → v = s.core.ident.grp[0]) ∧
      (r = .grp1 → v = s.core.ident.grp[1]) ∧ (r = .grp2 → v = s.core.ident.grp[2]) ∧ (r = .grp3 → v = s.core.ident.grp[3])) ∧
  ∀ (s u : State) (h : Hd) (d : SReg) (r : SysReg), s.core.guard h = true → (isSup r = true → s.core.sys.sup = true) →
    accessReady s u r →
    Yields s (.srr h d r) fun t => Completes u t (u.core.setS d (sysOf u.core r)) (s.after 8) h.dly.toNat

/-- R72, R7, R64: `SRW` of a register that its mode may write changes that register's writable bits and nothing else. -/
def Sys2Proof.Claims.SystemWrites : Prop :=
  ∀ (s u : State) (h : Hd) (x : SReg) (r : SysReg), s.core.guard h = true → (isSup r = true → s.core.sys.sup = true) →
    isRO r = false → accessReady s u r →
    Yields s (.srw h r x) fun t => ∃ k : Core, Completes u t k (s.after 8) h.dly.toNat ∧
      sysOf k r = sysWritten u.core r (u.core.getS x) ∧ (∀ o : SysReg, o ≠ r → sysOf k o = sysOf u.core o) ∧
      k.ctx.regs = u.core.ctx.regs ∧ k.ctx.guards = u.core.ctx.guards ∧ k.ctx.handles = u.core.ctx.handles ∧
      k.sys.supFrame = u.core.sys.supFrame ∧ k.pad = u.core.pad ∧ k.l1 = u.core.l1

/-- R72, R77: in user mode, `SRR` and `SRW` of a supervisor register and `ERET` raise an access violation, and so does a write
of a read-only register in either mode. -/
def Sys2Proof.Claims.PrivilegedAccess : Prop :=
  ∀ (s : State) (h : Hd) (x : SReg) (r : SysReg), s.core.guard h = true → s.handles = true →
    let stops (i : Instr) := Yields s i fun t =>
      Enters s t { cause := .access, detail := 8 } (s.core.ctx.pc &&& 0x1FFFFFFFFFFFFF) 0
    (isSup r = true → stops (.srr h x r) ∧ stops (.srw h r x)) ∧ (isRO r = true → stops (.srw h r x)) ∧ stops (.eret h)

/-- R73: the branches and calls go where the rule says and write the link that it says, the sources read before the link is
written; no other register changes. -/
def Obligations.Transfers : Prop :=
  ∀ (s : State) (i : Instr) (h : Hd) (c : Core) (p : Word), transferOf s.core i = some (h, c, p) → s.core.guard h = true →
    Yields s i fun t => Completes s t c p h.dly.toNat

/-- R74: `LOOP` with a count of 0 goes past its `ENDL`; else it enters the next depth. `ENDL` leaves the depth after the last
pass, or goes back to the body's start. -/
def Sys2Proof.Claims.LoopSteps : Prop :=
  (∀ (s : State) (h : Hd) (x : SReg) (i : BitVec 21), s.core.guard h = true → s.core.sys.sup = false →
    let stop := s.core.ctx.pc + 4 * i.signExtend 64
    (s.core.getS x = 0 → Yields s (.loop h x i) fun t => Completes s t s.core (stop + 8) h.dly.toNat) ∧
    (s.core.getS x ≠ 0 → s.core.ctx.depth ≠ 7 → Yields s (.loop h x i) fun t => ∃ c : Core,
      Completes s t c (s.after 8) h.dly.toNat ∧ c.ctx.depth = s.core.ctx.depth + 1 ∧
      loopAt c c.ctx.depth = { count := s.core.getS x, start := s.after 8, stop := stop } ∧
      (∀ d, d ≠ c.ctx.depth → loopAt c d = loopAt s.core d) ∧
      c = { s.core with ctx := { s.core.ctx with depth := c.ctx.depth, loops := c.ctx.loops } })) ∧
  ∀ (s : State) (h : Hd), s.core.guard h = true → s.core.sys.sup = false → s.core.ctx.depth ≠ 0 →
    let d := s.core.ctx.depth
    let l := loopAt s.core d
    s.core.ctx.pc = l.stop →
    Yields s (.endl h) fun t => ∃ c : Core,
      Completes s t c (if l.count.toNat ≤ 1 then s.after 8 else l.start) h.dly.toNat ∧
      c.ctx.depth = (if l.count.toNat ≤ 1 then d - 1 else d) ∧
      loopAt c d = { l with count := if l.count.toNat ≤ 1 then 0 else l.count - 1 } ∧
      (∀ j, j ≠ d → loopAt c j = loopAt s.core j) ∧
      c = { s.core with ctx := { s.core.ctx with depth := c.ctx.depth, loops := c.ctx.loops } }

/-- R75, R378: `LOOP` with a nonzero count at depth 7, `ENDL` at depth 0 or away from the registered end. -/
def Sys2Proof.Claims.LoopTraps : Prop :=
  ∀ (s : State) (h : Hd) (x : SReg) (i : BitVec 21), s.core.guard h = true → s.handles = true →
    let stops (i : Instr) (d : Nat) := Yields s i fun t =>
      Enters s t { cause := .illegal, detail := d, addr := s.core.ctx.pc.toNat } (s.core.ctx.pc &&& 0x1FFFFFFFFFFFFF) 0
    (s.core.getS x ≠ 0 → s.core.ctx.depth = 7 → stops (.loop h x i) 9) ∧
    (s.core.ctx.depth = 0 ∨ s.core.ctx.pc ≠ (loopAt s.core s.core.ctx.depth).stop → stops (.endl h) 10)

/-- The launch of the running core has ended with a status and the DETAIL of a trap (R381, R402): its `einfo`, its cause, the core's team
index; its completion record waits to be written, and the core is free. -/
def Sys2Proof.Claims.EndsLaunch (s t : State) (seq : Word) (status : Nat) (x : Trap) : Prop :=
  let d : Word := BitVec.ofNat 64 (x.detail % 2 ^ 32 + x.cause.num * 2 ^ 32 + s.core.team % 2 ^ 24 * 2 ^ 40)
  (∃ l ∈ t.launches, l.record.seq = seq ∧ l.status = .ended status d) ∧
  (∃ y ∈ t.dones, y.seq = seq ∧ y.status = status ∧ y.detail = d) ∧ t.core.launch = none ∧ t.core.phase = .idle

/-- R378, R381: in supervisor mode `LOOP` and `ENDL` are illegal instructions, detail 13, and a trap there ends the launch. -/
def Sys2Proof.Claims.LoopsInHandlers : Prop :=
  ∀ (s : State) (h : Hd) (x : SReg) (i : BitVec 21) (seq : Word) (l : Launch), s.core.guard h = true → s.core.sys.sup = true →
    s.core.launch = some seq → s.launch seq = some l → (∀ st d, l.status ≠ .ended st d) →
    (Yields s (.loop h x i) fun t => EndsLaunch s t seq 10 { cause := .illegal, detail := 13 }) ∧
    Yields s (.endl h) fun t => EndsLaunch s t seq 10 { cause := .illegal, detail := 13 }

/-- R378, R381: a trap that is taken in supervisor mode, or with no vector base, ends the launch with an error: status 10, or 9. -/
def Sys2Proof.Claims.TrapsUnhandled : Prop :=
  ∀ (s : State) (h : Hd) (n : BitVec 20) (seq : Word) (l : Launch), s.core.guard h = true →
    s.core.sys.sup = true ∨ s.core.sys.tvec = 0 → s.core.launch = some seq → s.launch seq = some l → (∀ st d, l.status ≠ .ended st d) →
    let status := if s.core.sys.sup then 10 else 9
    (Yields s (.brk h n) fun t => EndsLaunch s t seq status { cause := .breakpoint, detail := n.toNat }) ∧
    (Yields s (.trap h n) fun t => EndsLaunch s t seq status { cause := .syscall, detail := n.toNat + 2 ^ 20 }) ∧
    Yields s (.syscall h n) fun t => EndsLaunch s t seq status { cause := .syscall, detail := n.toNat }

/-- R76, R381: `BRK`, `TRAP` and `SYSCALL` enter the handler; `epc` is the `BRK` itself or the instruction after, which waits for
the delay slots owed; `einfo` holds the code, bit 20 set for `TRAP`. -/
def Sys2Proof.Claims.TrapInstructions : Prop :=
  ∀ (s : State) (h : Hd) (n : BitVec 20), s.core.guard h = true → s.handles = true →
    (Yields s (.brk h n) fun t =>
      Enters s t { cause := .breakpoint, detail := n.toNat } (s.core.ctx.pc &&& 0x1FFFFFFFFFFFFF) 0) ∧
    (Yields s (.trap h n) fun t =>
      Enters s t { cause := .syscall, detail := n.toNat + 2 ^ 20 } (s.after 8 &&& 0x1FFFFFFFFFFFFF) h.dly.toNat) ∧
    Yields s (.syscall h n) fun t =>
      Enters s t { cause := .syscall, detail := n.toNat } (s.after 8 &&& 0x1FFFFFFFFFFFFF) h.dly.toNat

/-- R77, R382: `ERET` in supervisor mode, without KILL, restores the program counter from `epc`, the mode and the delay slots
owed from `estat`, and changes no scalar, guard, handle or scratchpad byte. -/
def Sys2Proof.Claims.ReturnFromTrap : Prop :=
  ∀ (s : State) (h : Hd), s.core.guard h = true → s.core.sys.sup = true → s.core.sys.estat.getLsbD 7 = false →
    Yields s (.eret h) fun t => ∃ c : Core, Completes s t c s.core.sys.epc h.dly.toNat ∧
      c.sys.sup = s.core.sys.estat.getLsbD 0 ∧ c.sys.owed = (s.core.sys.estat.extractLsb' 1 4).toNat ∧
      c.ctx.regs = s.core.ctx.regs ∧ c.ctx.guards = s.core.ctx.guards ∧ c.ctx.handles = s.core.ctx.handles ∧ c.pad = s.core.pad ∧
      c.sys.supFrame = s.core.sys.supFrame ∧ c.sys.tvec = s.core.sys.tvec

namespace Sys2Proof.Claims

open Machine

/-! ## Loads, stores, extents, fences, atomics: R92 to R115 -/

/-- The translations of an access of the running core all stand in its TLB: it needs no walk, and its pieces are `ps`. -/
def Standing (s : State) (nd : Need) (va n : Nat) (ps : List Piece) : Prop := s.translateAll s.cur.val nd va n = (s, ps, none)

/-- Bytes have their home on the device, and no other device holds any of them (R358, R367). -/
def Ours (s : State) (pa n : Nat) : Prop := s.isRemote pa = false ∧ s.knownElsewhere pa n = false

/-- The bytes of an access lie in no other core's L1, in no write-back on its way and in no poisoned granule, no other device has
to do with them, and no report is injected into the running core's fills: the home serves them at once. -/
def Quiet (s : State) (ps : List Piece) : Prop :=
  s.core.sys.inj.getLsbD 5 = false ∧
  ∀ z ∈ zonesOf ps, Ours s z.1 z.2 ∧ s.poisoned z.1 z.2 = none ∧ wbackers z.1 z.2 0 s.cores.toList = [] ∧
    ∀ i ∈ s.sharers z.1 z.2, i = s.cur.val

/-- A state but for what the dies hold: the entries of an L2 decide no byte (R101; the model's reading, log entry 17). -/
def butDies (s t : State) : State := { s with dies := t.dies }

/-- A launch but for what its squads remember of atomics and of stores in supervisor mode (R324, R326, R404). -/
def unkept (l : Launch) : Launch :=
  let clear (q : Squad) : Squad := { q with atomBytes := [], aside := [] }
  { l with squads := l.squads.map clear }

/-- A physical place lies in the journal of a launch, where the homes copy the granules that it is about to change (R328). -/
def inJournal (s : State) (a : Nat) : Prop :=
  ∃ l ∈ s.launches, l.journaled = true ∧ ∃ k ∈ s.partKeys l.record.root l.record.jrnl (1024 * l.record.jlen), k.1 ≤ a ∧ a < k.1 + k.2

/-- The physical places of the bytes of pieces, in the order of the access. -/
def cellsOf (ps : List Piece) : List Nat := ps.flatMap fun p => (List.range p.2.2).map (p.2.1 + ·)

/-- The number that bytes form, the first least significant. -/
def numberOf : List Byte → Nat
  | [] => 0
  | b :: bs => b.toNat + 2 ^ 8 * numberOf bs

/-- Whether a register holds loaded bytes, extended with zeros or with the sign (R104). -/
def Extended (sx : Bool) (bs : List Byte) (v : Word) : Prop :=
  if sx then v.toInt = (if numberOf bs < 2 ^ (8 * bs.length - 1) then (numberOf bs : Int) else (numberOf bs : Int) - 2 ^ (8 * bs.length))
  else v.toNat = numberOf bs

/-- Bytes of a size code (R31). -/
def widthOf : Size → Nat
  | .b => 1
  | .h => 2
  | .w => 4
  | .d => 8

/-- What a load names (R104, R105): header, length, destination, address, bytes, sign extension. -/
def loadOf (c : Core) : Instr → Option (Hd × Nat × SReg × Nat × Nat × Bool)
  | .ld h d x i z sx => some (h, 8, d, (c.getS x + i.signExtend 64).toNat, widthOf z, sx)
  | .ldx h d x y i z sx => some (h, 12, d, (c.getS x + c.getS y * BitVec.ofNat 64 (widthOf z) + i.signExtend 64).toNat, widthOf z, sx)
  | _ => none

/-- Nothing that the running core has queued, and no part that it gave to a cut, holds an access back (R91, R335). -/
def Unheld (s : State) (va n : Nat) (ps : List Piece) : Prop :=
  s.partHeld s.cur va n = false ∧ s.reached s.cur s.core.memq (zonesOf ps) = false

/-- The address of a store (R106). -/
def storeAt (c : Core) (x : SReg) (i : BitVec 21) : Nat := (c.getS x + i.signExtend 64).toNat

/-- The byte that a store of `v` at `va` puts at a physical place, if it puts one there; a place named twice takes the later. -/
def storedByte (ps : List Piece) (va : Nat) (v : Word) (a : Nat) : Option Byte :=
  (ps.reverse.find? fun p => decide (p.2.1 ≤ a ∧ a < p.2.1 + p.2.2)).map fun p =>
    BitVec.ofNat 8 (v.toNat / 2 ^ (8 * (p.1 + (a - p.2.1) - va)))

/-- A store of the running core passes the checks that come before any byte is stored (R92, R335, R339). -/
def Storable (s : State) (va n : Nat) (ps : List Piece) : Prop :=
  Standing s s.core.writes va n ps ∧ s.races s.cur ps = none ∧ s.partHeld s.cur va n = false

/-- What the extent instructions name (R108): header, start, length. -/
def extentOf (c : Core) : Instr → Option (Hd × Nat × Nat)
  | .rflush h x i y _ | .rdrop h x i y | .rpin h _ x i y _ _ | .runpin h x i y =>
    some (h, (c.getS x + i.signExtend 64).toNat, (c.getS y).toNat)
  | _ => none

/-- The dirty bytes of an L1 entry. -/
def dirtyAt (e : L1Entry) (a : Nat) : Prop := e.start + e.dstart ≤ a ∧ a < e.start + e.dstart + e.dlen

/-- What an extent instruction leaves of the L1 entries inside its extent (R14, R108, R109). -/
def extentLeft (i : Instr) (z : Nat × Nat) (t : State) : Prop :=
  match i with
  | .rflush _ _ _ _ m =>
    (∀ e ∈ t.core.l1, ∀ a, z.1 ≤ a → a < z.1 + z.2 → ¬ dirtyAt e a) ∧
    (m = .s → ∀ e ∈ t.core.l1, e.meets z.1 z.2 = true → e.st = .s) ∧
    (m = .i → ∀ e ∈ t.core.l1, e.meets z.1 z.2 = true → e.pin = true)
  | .rdrop _ _ _ _ => ∀ e ∈ t.core.l1, e.meets z.1 z.2 = true → e.pin = true
  | .runpin _ _ _ _ => ∀ e ∈ t.core.l1, e.meets z.1 z.2 = true → e.pin = false
  | _ => True

/-- Every store and write-back of a core has been performed with respect to a scope (R110, R253, R260, R368): to its own engines at once; at
`.sys` every device that was asked has replied, and every write to another device's bytes has been performed at its home. -/
def Performed (s : State) (i : Nat) (sc : Scope) : Prop :=
  sc = .core ∨ ((∀ q ∈ (s.at i).memq, (∃ a n e k, q = .fill a n e k) ∨ ∃ a n k, q = .repin a n k) ∧
    (sc = .sys → (∀ r ∈ s.remotes, r.asked = false) ∧
      ∀ w ∈ s.farWrites, ¬ ((s.at i).launch = some w.seq ∧ w.team = (s.at i).team)))

/-- The operation of an atomic on the old value and the operand, `n` bytes each (R113): the new value. `.fadd` adds binary64
numbers to nearest. -/
def atomicValue (op : AmoOp) (n old v : Nat) : Nat :=
  let z (x : Nat) : Int := if x % 2 ^ (8 * n) < 2 ^ (8 * n - 1) then ((x % 2 ^ (8 * n) : Nat) : Int) else ((x % 2 ^ (8 * n) : Nat) : Int) - (2 ^ (8 * n) : Nat)
  match op with
  | .add => (old + v) % 2 ^ (8 * n)
  | .and => old &&& v
  | .or => old ||| v
  | .xor => old ^^^ v
  | .min => if z v < z old then v else old
  | .max => if z old < z v then v else old
  | .minu => Nat.min old v
  | .maxu => Nat.max old v
  | .swap => v
  | .fadd => (sfmtOf .f64).encode ((sfmtOf .f64).add .rne ((sfmtOf .f64).decode old) ((sfmtOf .f64).decode v)).1

/-- What an atomic names (R113, R114): header, destination, address, bytes, scope, the value that it stores for an old one (none
where `CAS` fails), and the flags that it raises. -/
def atomicOf (c : Core) : Instr → Option (Hd × SReg × Nat × Nat × Scope × (Nat → Option Nat) × (Nat → Fl))
  | .amo h d x y op dbl sc =>
    let n := if dbl then 8 else 4
    let v := (c.getS y).toNat % 2 ^ (8 * n)
    some (h, d, (c.getS x).toNat, n, sc, fun old => some (atomicValue op n old v), fun old => (amoNew op n old v).2)
  | .cas h d x y dbl sc =>
    let n := if dbl then 8 else 4
    some (h, d, (c.getS x).toNat, n, sc,
      fun old => if old = (c.getS d).toNat % 2 ^ (8 * n) then some ((c.getS y).toNat % 2 ^ (8 * n)) else none, fun _ => 0)
  | _ => none

end Sys2Proof.Claims

open Sys2Proof Sys2Proof.Machine Sys2Proof.Claims

/-- R104, R105, R92: a load that nothing holds back writes its bytes, extended as asked, to its destination: each byte the newest
that the core has logged in the superstep, else its L1's, else the home's as its squad sees it (R324). It changes no other
register and no byte of memory. For an access within one zone whose bytes the home can serve at once, no way that it needs having a
request outstanding (R87). -/
def Sys2Proof.Claims.LoadResults : Prop :=
  ∀ (s : State) (i : Instr) (h : Hd) (len : Nat) (d : SReg) (va n : Nat) (sx : Bool) (p : Piece) (z : Nat × Nat),
    loadOf s.core i = some (h, len, d, va, n, sx) → s.core.guard h = true →
    Standing s.exch s.core.reads va n [p] → zonesOf [p] = [z] → Unheld s.exch va n [p] → Quiet s.exch [p] →
    (s.exch.upd (Core.touch [z])).fillWaits s.cur false 0 false z.1 z.2 = false →
    Yields s i fun t => ∃ (c : Core) (v : Word), Completes (butDies s t) t c (s.after len) h.dly.toNat ∧
      Extended sx ((cellsOf [p]).map fun a => (loggedByte s.core.log a).getD (viewByte s.core.l1 (s.memFor s.cur) a)) v ∧
      c = { s.core.setS d v with l1 := c.l1, l1Count := c.l1Count, memq := c.memq, exchanging := true }

/-- R92, R98, R104: any load whose pieces translate and whose fills the homes serve, its launch standing, completes: the walks and
fills done, its destination holds the bytes, and no other register of the core has changed. -/
def Sys2Proof.Claims.LoadsComplete : Prop :=
  ∀ (s w f : State) (i : Instr) (h : Hd) (len : Nat) (d : SReg) (va n : Nat) (sx : Bool) (ps : List Piece),
    loadOf s.core i = some (h, len, d, va, n, sx) → s.core.guard h = true → s.exch.partHeld s.cur va n = false →
    s.exch.translateAll s.cur s.core.reads va n = (w, ps, none) →
    w.reached s.cur w.core.memq (zonesOf ps) = false →
    State.fillAll s.cur false 0 false (zonesOf ps) (w.upd (Core.touch (zonesOf ps))) = .ok f →
    (s.core.launch.isSome = true → f.core.launch = s.core.launch → f.core.ctx = s.core.ctx) ∧
    Yields s i fun t => ∃ v : Word, Completes f t (f.core.setS d v) (s.after len) h.dly.toNat ∧
      Extended sx ((zonesOf ps).flatMap fun z => (List.range z.2).map fun k =>
        (loggedByte w.core.log (z.1 + k)).getD (viewByte w.core.l1 (f.memFor s.cur) (z.1 + k))) v

/-- R106, R11, R95: a user-mode store that is performed in no held region enters the commit log whole, and changes neither memory
nor any register: a later load of the core finds its bytes. -/
def Sys2Proof.Claims.LoggedStores : Prop :=
  ∀ (s : State) (h : Hd) (x y : SReg) (i : BitVec 21) (z : Size) (ps : List Piece),
    let va := storeAt s.core y i
    s.core.guard h = true → s.core.sys.sup = false → Storable s.exch va (widthOf z) ps →
    s.exch.heldWrite s.cur va (widthOf z) = false → s.core.logFits 16 = true →
    Yields s (.st h x y i z) fun t => ∃ l : List LogEntry,
      Completes s t { s.core with exchanging := true, log := l } (s.after 8) h.dly.toNat ∧
      (∀ a, loggedByte l a = (storedByte ps va (s.core.getS x) a).or (loggedByte s.core.log a)) ∧
      (ps ≠ [] → (l.map (·.space)).sum = (s.core.log.map (·.space)).sum + 16)

/-- R106, R87, R88, R107: a store to bytes of a region that the core holds is performed in its L1 and leaves the log and memory alone;
where the L1 does not own them it occupies the memory queue until the home grants ownership, and only stamps change in the L1. -/
def Sys2Proof.Claims.HeldStores : Prop :=
  ∀ (s : State) (h : Hd) (x y : SReg) (i : BitVec 21) (z : Size) (ps : List Piece),
    let va := storeAt s.core y i
    s.core.guard h = true → s.core.sys.sup = false → Storable s.exch va (widthOf z) ps →
    s.exch.heldWrite s.cur va (widthOf z) = true →
    Yields s (.st h x y i z) fun t => ∃ c : Core, Completes s t c (s.after 8) h.dly.toNat ∧
      c = { s.core with exchanging := true, l1 := c.l1, l1Count := c.l1Count, memq := c.memq } ∧
      ∀ (p : Piece) (q : Nat × Nat), ps = [p] → zonesOf ps = [q] → ownedL1 q.1 q.2 s.core.l1 = false →
        c.l1.map (fun e => { e with stamp := 0 }) = s.core.l1.map (fun e => { e with stamp := 0 }) ∧
        ∃ bs : List Byte, c.memq = s.core.memq ++ [.own va p.2.1 bs 0] ∧ bs.length = p.2.2 ∧
          ∀ k < bs.length, some (bs.getD k 0) = storedByte ps va (s.core.getS x) (p.2.1 + k)

/-- R378, R106: in supervisor mode a store is performed at once, and changes no register and no other byte of memory; its squad
remembers it, for no rollback undoes it. For bytes of the device that no L1, no other device and no request of the core holds and no
write-back carries. -/
def Sys2Proof.Claims.SupervisorStores : Prop :=
  ∀ (s : State) (h : Hd) (x y : SReg) (i : BitVec 21) (z : Size) (ps : List Piece),
    let va := storeAt s.core y i
    s.core.guard h = true → s.canonical = true → s.core.sys.sup = true → Storable s.exch va (widthOf z) ps →
    (∀ p ∈ ps, Ours s p.2.1 p.2.2 ∧ wbackers p.2.1 p.2.2 0 s.cores.toList = [] ∧ s.sharers p.2.1 p.2.2 = []) →
    s.exch.reached s.cur s.core.memq (zonesOf ps) = false →
    Yields s (.st h x y i z) fun t =>
      Stores { butDies s t with launches := t.launches } t { s.core with exchanging := true } (s.after 8) h.dly.toNat
        (storedByte ps va (s.core.getS x)) ∧
      t.launches.map unkept = s.launches.map unkept

/-- R97, R380: an access at an address with a bit above 52 set raises an access violation, detail 2, before it is translated: the loads
and stores, the atomics, an extent of 1 to 4,096 bytes (that of `PREF` is clamped, R108), an aligned plate of `HLD` or `HST`, a sync object, a circular buffer. (Of those
that wait for the core's pending writes, with none pending.) -/
def Obligations.AddressBits : Prop :=
  ∀ (s : State) (h : Hd), s.core.guard h = true → s.handles = true →
    let stops (j : Instr) (va : Nat) := Yields s j fun t =>
      Enters s t { cause := .access, detail := 2, addr := va } (s.core.ctx.pc &&& 0x1FFFFFFFFFFFFF) 0
    (∀ (i : Instr) (n : Nat) (d : SReg) (va w : Nat) (sx : Bool), loadOf s.core i = some (h, n, d, va, w, sx) → 2 ^ 53 ≤ va →
      s.exch.partHeld s.cur va w = false → stops i va) ∧
    (∀ (x y : SReg) (i : BitVec 21) (z : Size), 2 ^ 53 ≤ storeAt s.core y i → stops (.st h x y i z) (storeAt s.core y i)) ∧
    (∀ (i : Instr) (va n : Nat), extentOf s.core i = some (h, va, n) → 2 ^ 53 ≤ va → 0 < n → n ≤ 4096 → stops i va) ∧
    (∀ (a : HReg) (x : SReg) (i : BitVec 53),
      let va := (s.core.getS x + i.signExtend 64).toNat
      2 ^ 53 ≤ va → va % 64 = 0 → stops (.hld h a x i) va ∧ stops (.hst h a x i) va) ∧
    ∀ (x y : SReg),
      let va := (s.core.getS y).toNat
      2 ^ 53 ≤ va →
      (∀ (op : AmoOp) (dbl : Bool) (sc : Scope), stops (.amo h x y x op dbl sc) va ∧ stops (.cas h x y x dbl sc) va) ∧
      (∀ sc : Scope, stops (.rel h y sc) va) ∧ (∀ k : BitVec 8, stops (.cbinit h y x k) va) ∧ stops (.cbrel h y x) va ∧
      (s.core.pend = [] → (∀ (ex : Bool) (sc : Scope), stops (.acq h y ex sc) va) ∧ stops (.cbacq h x y) va ∧
        stops (.cbcommit h y) va ∧ stops (.cbwait h y x) va)

/-- R97, R108: an extent of length 0 has no effect, `RPIN` writing 1 to its guard; one above 4,096 raises an access violation, detail 10, whose `eaddr` is 0 (R379; the model's reading,
log entry 79), but for `PREF`, which is clamped to 4,096 and to the addresses there are, queues its fill and waits for nothing. -/
def Sys2Proof.Claims.ExtentLengths : Prop :=
  (∀ (s : State) (i : Instr) (h : Hd) (va n : Nat), extentOf s.core i = some (h, va, n) → s.core.guard h = true →
    (n = 0 → Yields s i fun t => ∃ c : Core, Completes s t c (s.after 8) h.dly.toNat ∧
      c = { s.core with ctx := c.ctx, exchanging := true } ∧
      c.ctx = (match i with | .rpin _ g _ _ _ _ _ => s.core.setG g true | _ => s.core).ctx) ∧
    (4096 < n → s.handles = true → Yields s i fun t =>
      Enters s t { cause := .access, detail := 10 } (s.core.ctx.pc &&& 0x1FFFFFFFFFFFFF) 0)) ∧
  ∀ (s : State) (h : Hd) (x y : SReg) (i : BitVec 21) (ex : Bool) (k : RClass), s.core.guard h = true →
    let n := Nat.min (Nat.min (s.core.getS y).toNat 4096) (2 ^ 53 - storeAt s.core x i)
    Yields s (.pref h x i y ex k) fun t => Completes s t (if n = 0 then { s.core with exchanging := true } else
      { s.core with exchanging := true, l1Count := s.core.l1Count + 1, memq := s.core.memq ++ [.fill (storeAt s.core x i) n ex k] })
      (s.after 8) h.dly.toNat

/-- R14, R108, R109: the extent instructions complete on an extent that translates, change no register but `RPIN`'s guard, and
leave no dirty byte (`RFLUSH`), no unpinned entry (`RDROP`, `RFLUSH.i`) or no pin (`RUNPIN`) inside it. For an extent within one
zone that no outstanding request of the core reaches; no way that `RPIN` needs has a request outstanding (R87). -/
def Sys2Proof.Claims.ExtentResults : Prop :=
  ∀ (s : State) (i : Instr) (h : Hd) (va n : Nat) (p : Piece) (z : Nat × Nat), extentOf s.core i = some (h, va, n) →
    s.core.guard h = true → 0 < n → n ≤ 4096 → Standing s.exch s.core.reads va n [p] → zonesOf [p] = [z] →
    s.exch.reached s.cur s.core.memq [z] = false → Quiet s.exch [p] →
    (∀ e ∈ s.core.l1, e.dstart + e.dlen ≤ e.data.length) →
    (∀ g x j y ex k, i = .rpin h g x j y ex k → (s.exch.upd (Core.touch [z])).pinWaits s.cur ex k z = false) →
    Yields s i fun t => Retires s t (s.after 8) h.dly.toNat ∧ extentLeft i z t ∧
      match i with
      | .rpin _ g _ _ _ x k => ∃ b : Bool, t.core.registers = (s.core.setG g b).registers ∧
          (b = true ↔ s.core.pinFits x k [z] = true) ∧ (b = false → t.core.l1 = s.core.l1)
      | _ => t.core.registers = s.core.registers

/-- R110, R111, R112, R260, R368: `FENCE.core` completes at once, a `FENCE` of a wider scope once every store and write-back of the core
has been performed and, at `.sys`, every device that was asked has replied, homes on other devices among them; it changes nothing.
`IFENCE` discards the instruction caches of its targets, `PFENCE` the core's plate and metadata caches, and nothing else. -/
def Obligations.Fences : Prop :=
  ∀ (s : State) (h : Hd) (sc : Scope) (x : SReg), s.core.guard h = true →
    (Performed s s.cur sc → Yields s (.fence h sc) fun t => Completes s t s.core (s.after 8) h.dly.toNat) ∧
    (x = 0 → Yields s (.ifence h x sc) fun t =>
      Completes s t { s.core with exchanging := true, icache := [] } (s.after 8) h.dly.toNat) ∧
    (∀ g : Group, x ≠ 0 → s.exch.groupOf (s.core.getS x) [1, 2, 3, 4] false = .ok g →
      Yields s (.ifence h x sc) fun t => Retires s t (s.after 8) h.dly.toNat ∧ t.core.registers = s.core.registers ∧
        (∀ k ∈ g.members, k < 768 → inScope sc s.cur k = true → (t.at k).icache = []) ∧ ∀ a, t.mem.get a = s.mem.get a) ∧
    Yields s (.pfence h) fun t => Completes s t { s.core with plates := [], metas := [] } (s.after 8) h.dly.toNat

/-- R113, R114, R324: an atomic at the point of coherence of its scope writes the old value, as its squad sees it, to its destination,
sign-extended, and the squad sees the new value where it stores one. Memory takes the operation on its own value (the two differ only by
what the squad holds aside; the model's reading, log entry 106); no other byte of memory and no other register changes but `fpc`, whose
flags `.fadd` raises without a trap. For scopes from the die up, bytes of the device that no L1 and no other device holds and no write-back
carries, no recorded result; journals apart (R328). -/
def Sys2Proof.Claims.AtomicResults : Prop :=
  ∀ (s : State) (i : Instr) (h : Hd) (d : SReg) (va n : Nat) (sc : Scope) (f : Nat → Option Nat) (fl : Nat → Fl) (p : Piece),
    atomicOf s.core i = some (h, d, va, n, sc, f, fl) → s.core.guard h = true → s.canonical = true → sc ≠ .core → sc ≠ .pod → va < 2 ^ 53 → va % n = 0 →
    Standing s.exch { rd := true, wr := true, user := !s.core.sys.sup } va n [p] → s.exch.races s.cur [p] = none →
    s.exch.partHeld s.cur va n = false → s.exch.reached s.cur s.core.memq [(p.2.1, n)] = false →
    s.core.atoms[s.core.atomPos]? = none → s.poisoned p.2.1 n = none → Ours s p.2.1 n →
    s.core.sys.inj.getLsbD 5 = false → wbackers p.2.1 n 0 s.cores.toList = [] → s.sharers p.2.1 n = [] →
    let bytes := (List.range n).map fun k => (s.memFor s.cur).get (p.2.1 + k)
    let old := numberOf bytes
    let here := numberOf ((List.range n).map fun k => s.mem.get (p.2.1 + k))
    let inside (a : Nat) : Prop := p.2.1 ≤ a ∧ a < p.2.1 + n
    let byteOf (w a : Nat) : Byte := BitVec.ofNat 8 (w / 2 ^ (8 * (a - p.2.1)))
    Yields s i fun t => Retires s t (s.after 8) h.dly.toNat ∧
      ∃ v : Word, Extended true bytes v ∧
        t.core.registers = ((s.core.raise (fl old)).setS d v).registers ∧
        ∀ a, ¬ inJournal s a →
          (∀ w, f old = some w → inside a → (t.memFor s.cur).get a = byteOf w a) ∧
          (∀ w x, f old = some w → f here = some x → inside a → t.mem.get a = byteOf x a) ∧
          (f old = none ∨ f here = none ∨ ¬ inside a → t.mem.get a = s.mem.get a)

/-- R113 to R115, R365: an atomic of any scope that nothing holds back completes with the old value that its step at the point of
coherence found, on another device's bytes with the one that their home answers, as its squad sees it (R324; the copy of the bytes here
takes the operation, log entry 106); one with a recorded result of a re-executed
superstep takes it and performs nothing. -/
def Sys2Proof.Claims.AtomicsComplete : Prop :=
  ∀ (s : State) (i : Instr) (h : Hd) (d : SReg) (va n : Nat) (sc : Scope) (f : Nat → Option Nat) (fl : Nat → Fl) (ps : List Piece)
    (w : State),
    atomicOf s.core i = some (h, d, va, n, sc, f, fl) → s.core.guard h = true → va < 2 ^ 53 → va % n = 0 →
    s.exch.translateAll s.cur { rd := true, wr := true, user := !s.core.sys.sup } va n = (w, ps, none) →
    let pa := (ps.headD (0, 0, 0)).2.1
    let scope : Scope := if s.core.sys.sup then .sys else sc
    w.races s.cur ps = none → w.partHeld s.cur va n = false → w.reached s.cur w.core.memq [(pa, n)] = false →
    (∀ v : Word, w.core.atoms[w.core.atomPos]? = none → w.isRemote pa = true → scope ≠ .core → scope ≠ .pod →
      w.core.farAtom = some (some (.done v)) → w.canonical = true →
      let there := v.toNat % 2 ^ (8 * n)
      let seen := (List.range n).map fun k => (({ w with mem := w.mem.write pa (bytesLE n there) } : State).memFor s.cur).get (pa + k)
      Yields s i fun t => ∃ r : Word, Retires w t (s.after 8) h.dly.toNat ∧ Extended true seen r ∧
        t.core.registers = ((w.core.raise (fl (numberOf seen))).setS d r).registers ∧
        ∀ a, t.mem.get a = if pa ≤ a ∧ a < pa + n then BitVec.ofNat 8 ((f there).getD there / 2 ^ (8 * (a - pa))) else w.mem.get a) ∧
    (∀ (u : State) (old : Nat), w.core.atoms[w.core.atomPos]? = none → w.isRemote pa = false ∨ scope = .core ∨ scope = .pod →
      w.atomicStep s.cur scope pa n f = .ok (u, old) →
      Yields s i fun t => ∃ v : Word, Retires u t (s.after 8) h.dly.toNat ∧
        v = (BitVec.ofNat (8 * n) old).signExtend 64 ∧ t.core.registers = ((u.core.raise (fl old)).setS d v).registers ∧
        t.mem = u.mem) ∧
    (∀ x : AtomRec, w.core.atoms[w.core.atomPos]? = some x → w.recorded { x with old := 0 } = .ok (some x.old) →
      (match i with
        | .amo _ _ _ y op dbl c => x.va = va ∧ x.v1 = s.core.getS y ∧ x.v2 = 0 ∧
            x.op = packFields [(1, 0), (4, op.code), (1, b1 dbl), (3, c.code)]
        | .cas _ _ _ y dbl c => x.va = va ∧ x.v1 = s.core.getS d ∧ x.v2 = s.core.getS y ∧
            x.op = packFields [(1, 1), (4, 0), (1, b1 dbl), (3, c.code)]
        | _ => False) →
      Yields s i fun t => ∃ v : Word, Retires w t (s.after 8) h.dly.toNat ∧ v = (x.old.setWidth (8 * n)).signExtend 64 ∧
        t.core.registers = ((w.core.raise (fl (x.old.toNat % 2 ^ (8 * n)))).setS d v).registers ∧ t.mem = w.mem)

namespace Sys2Proof.Claims

open Machine

/-! ## Handles, tiles, lanes, waits: R170 to R177, R206, R207, R243 to R246, R276 to R289 -/

/-- A field of a handle as `HGET` reads it (R37, R172). -/
def fieldOf (k : Handle) : HField → Nat
  | .base => k.base.toNat
  | .space => if k.pad then 1 else 0
  | .fmt => k.fmt.toNat
  | .cursor => k.cursor.toNat
  | .layout => k.layout.toNat
  | .planes => k.planes.toNat
  | .tile => k.tile.toNat
  | .block => k.block.toNat
  | .ext0 => k.ext0.toNat
  | .ext1 => k.ext1.toNat
  | .ext2 => k.ext2.toNat
  | .ext3 => k.ext3.toNat
  | .stride1 => k.stride1.toNat
  | .stride2 => k.stride2.toNat

/-- The values that `HSET` takes for a field (R172): those that fit it, LAYOUT up to 3, TILE up to 31 or 255, BLOCK 0 or 2. -/
def Settable (v : Nat) : HField → Prop
  | .base => v < 2 ^ 53
  | .space => v ≤ 1
  | .fmt => False
  | .cursor | .stride1 | .stride2 => v < 2 ^ 32
  | .layout => v ≤ 3
  | .planes => v < 16
  | .tile => v ≤ 31 ∨ v = 255
  | .block => v = 0 ∨ v = 2
  | .ext0 | .ext1 | .ext2 | .ext3 => v < 2 ^ 16

/-- The selector of the extent of a dimension. -/
def extField (d : BitVec 2) : HField :=
  match d.toNat with
  | 0 => .ext0
  | 1 => .ext1
  | 2 => .ext2
  | _ => .ext3

/-- What one index of a dimension is worth in bytes (R171): the element, STRIDE1, STRIDE2, STRIDE2 × EXT2. -/
def stepOf (k : Handle) (d : BitVec 2) : Nat :=
  match d.toNat with
  | 0 => ((fmtNibbles k.fmt.toNat).getD 0) / 2
  | 1 => k.stride1.toNat
  | 2 => k.stride2.toNat
  | _ => k.stride2.toNat * k.ext2.toNat

/-- The byte that a store of bytes at `va` puts at a physical place, if it puts one there. -/
def storedFrom (ps : List Piece) (va : Nat) (bs : List Byte) (a : Nat) : Option Byte :=
  (ps.reverse.find? fun p => decide (p.2.1 ≤ a ∧ a < p.2.1 + p.2.2)).map fun p => bs.getD (p.1 + (a - p.2.1) - va) 0

/-- A core in its exchange phase (R235). -/
def exchanging (c : Core) : Core := { c with exchanging := true }

/-- A core as a completed 128-bit instruction leaves it: the cursors of its PINC operands moved by their increments, in ascending
operand order (R28), and stopped when it bears YLD and a request is pending (R26). -/
def issued (h : Hx) (ops : List (Nat × HReg)) (c : Core) : Core :=
  Core.atYield h.yld (Core.bumps (postsOf h ops) [h.inc1, h.inc2, h.inc3] c)

/-- An entry of a core's tile table. -/
def tileAt (c : Core) (t : BitVec 5) : Tile := c.ctx.tiles[t.toNat]'t.isLt

/-- A core with an entry of its tile table replaced. -/
def setTileAt (c : Core) (t : BitVec 5) (e : Tile) : Core :=
  { c with ctx := { c.ctx with tiles := c.ctx.tiles.set t.toNat e t.isLt } }

/-- A completion counter of a core. -/
def counterAt (c : Core) (k : BitVec 4) : Counter := c.ctx.counters[k.toNat]'k.isLt

/-- The code of a tile's state (R177). -/
def stateCode : TileState → Nat
  | .empty => 0
  | .filling => 1
  | .ready => 2
  | .draining => 3

/-- What an instruction that reads the core's engines writes (R177, R243, R246, R289): header, length, destination, value. -/
def statusOf (c : Core) : Instr → Option (Hd × Nat × SReg × Nat)
  | .tstate h d t =>
    let e := tileAt c t
    some (h, 8, d, stateCode e.st + (if e.pend then 2 ^ 2 else 0) + (if e.flt then 2 ^ 3 else 0) + e.ch.toNat * 2 ^ 8 + e.done.toNat * 2 ^ 16)
  | .ccrd h d k =>
    let e := counterAt c k
    some (h, 12, d, e.done.toNat + e.cmds.toNat * 2 ^ 32 + (if e.stale then 2 ^ 48 else 0) + (if e.flt then 2 ^ 49 else 0))
  | _ => none

/-- A waiting instruction of the scalar pipeline, and whether the core may pass it (R177, R246, R279, R289). -/
def passOf (c : Core) : Instr → Option (Hd × Prop × Wait × Core)
  | .twait h t => some (h, (tileAt c t).st = .ready ∨ ((tileAt c t).st = .empty ∧ (tileAt c t).pend = false), .tile, c)
  | .ccwait h x k => some (h, (c.getS x).toNat ≤ (counterAt c k).done.toNat, .counter k (c.getS x).toNat, exchanging c)
  | .xwait h x k => some (h, ∀ y ∈ c.copies, y.ch = k → (c.getS x).toNat < y.id.toNat, .xfer, c)
  | _ => none

/-- A lane group is free for a core or already its own (R205, R208). -/
def Claimable (s : State) (g : Nat) : Prop :=
  g ∈ s.core.shared ∨
    (g ∉ (s.pod (podOf s.cur)).retiredGroups ∧ g ∉ (s.pod (podOf s.cur)).reserveOf.toList ∧
      ∀ k < 8, g ∉ (s.at (8 * podOf s.cur + k)).shared)

end Sys2Proof.Claims

open Sys2Proof Sys2Proof.Machine Sys2Proof.Claims

/-- R172, R37: `HGET` reads a field, zero-extended; `HSET` writes a value that its field takes and leaves the others; `HMOV` copies
a handle whole. -/
def Sys2Proof.Claims.HandleFields : Prop :=
  ∀ (s : State) (h : Hd) (d : SReg) (a b : HReg) (x : SReg) (f : HField), s.core.guard h = true →
    (Yields s (.hget h d a f) fun t => ∃ v : Word, v.toNat = fieldOf (s.core.getH a) f ∧
      Completes s t (s.core.setS d v) (s.after 8) h.dly.toNat) ∧
    (Settable (s.core.getS x).toNat f → Yields s (.hset h a x f) fun t => ∃ k : Handle,
      Completes s t (s.core.setH a k) (s.after 8) h.dly.toNat ∧ fieldOf k f = (s.core.getS x).toNat ∧
      ∀ g : HField, g ≠ f → fieldOf k g = fieldOf (s.core.getH a) g) ∧
    Yields s (.hmov h a b) fun t => Completes s t (s.core.setH a (s.core.getH b)) (s.after 8) h.dly.toNat

/-- R172, R37: `HSET` of FMT is an illegal instruction, detail 5; a value that its field does not take raises a format trap,
condition 3 for TILE and 1 for the others; the handle is unchanged. (That the trap names operand 1 is the model's reading,
log entry 32.) -/
def Sys2Proof.Claims.HandleRefusals : Prop :=
  ∀ (s : State) (h : Hd) (a : HReg) (x : SReg) (f : HField), s.core.guard h = true → s.handles = true →
    ¬ Settable (s.core.getS x).toNat f →
    Yields s (.hset h a x f) fun t => Enters s t
      (if f = .fmt then { cause := .illegal, detail := 5, addr := s.core.ctx.pc.toNat }
        else fmtTrap 1 (s.core.getH a) (if f = .tile then 3 else 1)) (s.core.ctx.pc &&& 0x1FFFFFFFFFFFFF) 0

/-- R171: `HVIEW` narrows a dimension of a handle of an assigned format: the extent is replaced, BASE moves by the index times the
step of the dimension modulo 2^53, every other field is copied. -/
def Sys2Proof.Claims.HandleViews : Prop :=
  ∀ (s : State) (h : Hd) (a b : HReg) (x : SReg) (d : BitVec 2) (ext : BitVec 16), s.core.guard h = true →
    let k := s.core.getH b
    (fmtNibbles k.fmt.toNat).isSome = true → (s.core.getS x).toNat + ext.toNat ≤ fieldOf k (extField d) →
    (d = 0 → k.layout = 0 ∧ k.fmt ≠ 0x11 ∧ k.fmt ≠ 0x12 ∧ k.fmt ≠ 0x21) →
    Yields s (.hview h a b x d ext) fun t => ∃ w : Handle, Completes s t (s.core.setH a w) (s.after 12) h.dly.toNat ∧
      fieldOf w .base = (k.base.toNat + (s.core.getS x).toNat * stepOf k d) % 2 ^ 53 ∧ fieldOf w (extField d) = ext.toNat ∧
      ∀ g : HField, g ≠ .base → g ≠ extField d → fieldOf w g = fieldOf k g

/-- R168 to R170: `HLD` of an aligned plate that passes its checks loads the handle, CURSOR 0 and TILE 255, from the plate cache or
the home, and changes no other register and no byte of memory; what `HST` stores reads back as the
handle. (That `HST` needs 16 bytes of log space for its 32 is the model's reading, log entry 50.) -/
def Sys2Proof.Claims.PlateTransfers : Prop :=
  (∀ (s : State) (h : Hd) (a : HReg) (x : SReg) (i : BitVec 53) (p : Piece) (k : Handle),
    let va := (s.core.getS x + i.signExtend 64).toNat
    s.core.guard h = true → va % 64 = 0 → Standing s.exch s.core.reads va 64 [p] → s.core.sys.inj.getLsbD 5 = false →
    s.poisoned p.2.1 64 = none → Ours s p.2.1 64 →
    plateCheck (numberOf (match s.core.plates.find? (·.1 == p.2.1) with
      | some e => e.2
      | none => (List.range 64).map fun j => (s.memFor s.cur).get (p.2.1 + j))) = .ok k →
    Yields s (.hld h a x i) fun t => ∃ c : Core, Completes (butDies s t) t c (s.after 12) h.dly.toNat ∧
      c = { s.core.setH a k with plates := c.plates, exchanging := true } ∧ k.cursor = 0 ∧ k.tile = 255) ∧
  (∀ (s : State) (h : Hd) (a : HReg) (x : SReg) (i : BitVec 53) (ps qs : List Piece),
    let va := (s.core.getS x + i.signExtend 64).toNat
    s.core.guard h = true → s.core.sys.sup = false → va % 64 = 0 → Standing s.exch s.core.writes va 64 qs →
    Storable s.exch va 32 ps → s.exch.heldWrite s.cur va 32 = false → s.core.logFits 16 = true →
    Yields s (.hst h a x i) fun t => ∃ l : List LogEntry,
      Completes s t { s.core with exchanging := true, log := l } (s.after 12) h.dly.toNat ∧
      ∀ j, loggedByte l j = (storedFrom ps va (bytesLE 32 (s.core.getH a).toPlate) j).or (loggedByte s.core.log j)) ∧
  ∀ k : Handle, Handle.ofPlate k.toPlate = { k with cursor := 0, tile := 255 }

/-- R177, R243, R246: `TSTATE` and `CCRD` write what they read of the tile table and the counters, field by field; `XSTAT` (R287,
R289) writes the newest identifier below which every transfer of the channel has completed. -/
def Sys2Proof.Claims.StatusReads : Prop :=
  (∀ (s : State) (i : Instr) (h : Hd) (n : Nat) (d : SReg) (v : Nat), statusOf s.core i = some (h, n, d, v) → s.core.guard h = true →
    Yields s i fun t => ∃ w : Word, w.toNat = v ∧ Completes s t (s.core.setS d w) (s.after n) h.dly.toNat) ∧
  ∀ (s : State) (h : Hd) (d : SReg) (k : BitVec 3), s.core.guard h = true →
    (∀ x ∈ s.core.copies, x.ch = k → 0 < x.id.toNat ∧ x.id.toNat < (s.core.ctx.nextId[k.toNat]'k.isLt).toNat) →
    Yields s (.xstat h d k) fun t => ∃ v : Word, Completes s t (s.core.setS d v) (s.after 12) h.dly.toNat ∧
      (0 < (s.core.ctx.nextId[k.toNat]'k.isLt).toNat →
        v.toNat < (s.core.ctx.nextId[k.toNat]'k.isLt).toNat ∧ (∀ x ∈ s.core.copies, x.ch = k → v.toNat < x.id.toNat) ∧
        ∀ w < (s.core.ctx.nextId[k.toNat]'k.isLt).toNat, (∀ x ∈ s.core.copies, x.ch = k → w < x.id.toNat) → w ≤ v.toNat)

/-- R177, R246, R289, R148: `TWAIT`, `CCWAIT` and `XWAIT` complete, changing no register, once what they name has come about; until
then the core waits. -/
def Sys2Proof.Claims.WaitsForEngines : Prop :=
  ∀ (s u : State) (i : Instr) (h : Hd) (d : Core) (k : Prop) (w : Wait), landed s u → s.core.guard h = true →
    passOf u.core i = some (h, k, w, d) →
    (∀ (x : SReg) (ch : BitVec 3), i = .xwait h x ch →
      (u.core.getS x).toNat < (u.core.ctx.nextId[ch.toNat]'ch.isLt).toNat ∧ ∀ y ∈ u.core.copies, y.ch = ch → 0 < y.id.toNat) →
    (k → Yields s i fun t => Completes u t d (s.after 8) h.dly.toNat) ∧
    (¬ k → Yields s i fun t => Waits u t w)

/-- R173: `TREL` leaves an empty tile empty, empties a ready one, a pending fill starting at once, and waits on a filling tile and on
a draining one. -/
def Sys2Proof.Claims.TileReleases : Prop :=
  ∀ (s : State) (h : Hd) (n : BitVec 5), s.core.guard h = true → s.core.wait ≠ some .satisfied →
    let e := tileAt s.core n
    (e.st = .empty → Yields s (.trel h n) fun t => Completes s t s.core (s.after 8) h.dly.toNat) ∧
    (e.st = .ready → Yields s (.trel h n) fun t => ∃ k : Tile,
      Completes s t (setTileAt s.core n k) (s.after 8) h.dly.toNat ∧ k.flt = false ∧ k.pend = false ∧
      k.st = if e.pend then .filling else .empty) ∧
    (e.st = .filling ∨ e.st = .draining → Yields s (.trel h n) fun t => ∃ w : Wait, Waits s t w)

/-- R175, R28, R173: `TFILL` and `TDRAIN` of two handles that fit each other, the local one inside the scratchpad, on tiles that hold
nothing back: the command is queued with its handles as they stand, its channel's next identifier is taken, the tile steps as the
table says, and the post-increments move the cursors. -/
def Sys2Proof.Claims.TransfersIssue : Prop :=
  ∀ (s : State) (h : Hx) (a b : HReg) (fl : EFlags) (n : BitVec 5) (k : BitVec 3), s.core.guardX h = true →
    let hl := s.core.getH a
    let hg := s.core.getH b
    let e := tileAt s.core n
    transferTrap hl hg = none → s.core.inPad hl.start hl.bytes = true → s.exch.hold [hl, hg] = .ok () →
    let queued (kind : CopyKind) (e' : Tile) (t : State) := ∃ x : CopyCmd,
      x.kind = kind ∧ x.hl = hl ∧ x.hg = hg ∧ x.tile = n.toNat ∧ x.ch = k ∧ x.fl = fl ∧ x.hint = h.hint ∧ x.done = 0 ∧ x.stop = none ∧
      x.id = s.core.ctx.nextId[k.toNat]'k.isLt ∧
      Completes s t (issued h [(0, a), (1, b)] (setTileAt
        { s.core with exchanging := true, copies := s.core.copies ++ [x],
                      ctx := { s.core.ctx with nextId := s.core.ctx.nextId.set k.toNat (x.id + 1) k.isLt } } n e'))
        (s.after 16) h.dly.toNat
    (e.pend = false → e.st = .empty → Yields s (.tfill h a b fl n k)
      (queued .fill { e with st := .filling, flt := false, ch := k, done := 0 })) ∧
    (e.pend = false → e.st = .ready ∨ e.st = .draining → Yields s (.tfill h a b fl n k) (queued .fill { e with pend := true })) ∧
    (e.st = .ready → Yields s (.tdrain h a b fl n k)
      (queued .drain { e with st := .draining, flt := false, ch := k, done := 0 })) ∧
    (e.st = .filling → e.drainQ = false → Yields s (.tdrain h a b fl n k) (queued .drain { e with drainQ := true }))

/-- R173, R175, R380: `TFILL` on a filling tile or one with a fill pending raises a tile-starve trap, detail 2, and `TDRAIN` on an
empty or a draining tile, or a filling one with a drain queued, detail 3. -/
def Sys2Proof.Claims.TileStarvation : Prop :=
  ∀ (s : State) (h : Hx) (a b : HReg) (fl : EFlags) (n : BitVec 5) (k : BitVec 3), s.core.guardX h = true → s.handles = true →
    let hl := s.core.getH a
    let e := tileAt s.core n
    transferTrap hl (s.core.getH b) = none → s.core.inPad hl.start hl.bytes = true → s.exch.hold [hl, s.core.getH b] = .ok () →
    let starves (i : Instr) (d : Nat) := Yields s i fun t =>
      Enters s t { cause := .starve, detail := d + n.toNat * 2 ^ 8 } (s.core.ctx.pc &&& 0x1FFFFFFFFFFFFF) 0
    (e.pend = true ∨ e.st = .filling → starves (.tfill h a b fl n k) 2) ∧
    (e.st = .empty ∨ e.st = .draining ∨ (e.st = .filling ∧ e.drainQ = true) → starves (.tdrain h a b fl n k) 3)

/-- R205 to R207: `CLAIM` grants at once: for a nonzero request the core's reserve and, lowest group number first, as many of the
groups that are its own or free as it wants; it writes the number of lanes. `VRELEASE` returns every group. -/
def Obligations.LaneGrants : Prop :=
  ∀ (s : State) (h : Hd) (d x : SReg), s.core.guard h = true →
    let want := Nat.min 72 ((s.core.getS x).toNat / 8 * 8 + if (s.core.getS x).toNat % 8 = 0 then 0 else 8)
    (Yields s (.claim h d x) fun t => ∃ (c : Core) (v : Word), Completes s t (c.setS d v) (s.after 8) h.dly.toNat ∧
      c = { s.core with reserve := decide (want ≠ 0), shared := c.shared, ctx := { s.core.ctx with want := want } } ∧
      v.toNat = (if want = 0 then 0 else 8) + 8 * c.shared.length ∧ (want = 0 → c.shared = []) ∧
      (want ≠ 0 → 8 + 8 * c.shared.length ≤ want ∧ c.shared.Pairwise (· < ·) ∧
        (∀ g ∈ c.shared, g < 16 ∧ Claimable s g) ∧
        ∀ g < 16, Claimable s g → g ∉ c.shared → 8 + 8 * c.shared.length = want ∧ ∀ j ∈ c.shared, j < g)) ∧
    Yields s (.vrelease h) fun t =>
      Completes s t { s.core with reserve := false, shared := [], ctx := { s.core.ctx with want := 0 } } (s.after 8) h.dly.toNat

/-- R277 to R279: `MSGSEND` to a team index of the launch, with room for its command, queues the message and goes on; `MSGWAIT` takes
the oldest message of the mailbox, or waits for one. -/
def Sys2Proof.Claims.Messages : Prop :=
  (∀ (s : State) (h : Hd) (x y : SReg) (k : BitVec 4) (l : Launch) (r : Nat), s.core.guard h = true →
    s.launchOf s.cur = some l → l.coreOf (s.core.getS x).toNat = some r → (s.core.port.filter fun c => c.kind == .msg).length < 4 →
    Yields s (.msgsend h x y k) fun t => ∃ q : PortCmd, Completes s t
      { s.core with exchanging := true, port := s.core.port ++ [q] } (s.after 8) h.dly.toNat ∧
      q.kind = .msg ∧ q.cc = k ∧ q.value = s.core.getS y ∧ q.tgt = .cores [((s.core.getS x).toNat, l.gen)] ∧ q.n = 1 ∧ q.i = 0) ∧
  ∀ (s u : State) (h : Hd) (d : SReg), landed s u → s.core.guard h = true →
    (∀ (v : Word) (rest : List Word), u.core.ctx.mailbox = v :: rest → Yields s (.msgwait h d) fun t =>
      Completes u t ({ u.core with exchanging := true, ctx := { u.core.ctx with mailbox := rest } }.setS d v) (s.after 8) h.dly.toNat) ∧
    (u.core.ctx.mailbox = [] → Yields s (.msgwait h d) fun t => Waits u t .msg)

/-- R283, R284, R391: `TRIG` marks the core as having triggered and goes on; `WAITDEP` completes once every producer of the launch has
triggered or has ended with success, and waits until then while none has failed. -/
def Obligations.Dependence : Prop :=
  (∀ (s : State) (h : Hd), s.core.guard h = true →
    Yields s (.trig h) fun t => Completes s t { s.core with exchanging := true, trig := true } (s.after 8) h.dly.toNat) ∧
  ∀ (s u : State) (h : Hd) (ps : List Word), landed s u → s.core.guard h = true →
    ((u.launchOf u.cur).map (·.producers)).getD [] = ps →
    let met (p : Word) : Prop := ∀ l, u.launch p = some l → (∃ d, l.status = .ended 0 d) ∨
      ((∀ st d, l.status ≠ .ended st d) ∧ l.triggered = true)
    let failed (p : Word) : Prop := ∃ l st d, u.launch p = some l ∧ l.status = .ended st d ∧ st ≠ 0
    ((∀ p ∈ ps, met p) → Yields s (.waitdep h) fun t => Retires u t (s.after 8) h.dly.toNat ∧
      t.core.registers = u.core.registers ∧ t.cores.toList.map (·.ctx.regs) = u.cores.toList.map (·.ctx.regs) ∧ t.mem = u.mem) ∧
    ((∀ p ∈ ps, ¬ failed p) → (∃ p ∈ ps, ¬ met p) → Yields s (.waitdep h) fun t => Waits u t .dep)

/-- R288, R287, R237: `SEND` of bytes that lie in both scratchpads to a core of the pod in the launch writes the transfer's
identifier, takes the channel's next one and queues the command; of no bytes it queues nothing. -/
def Sys2Proof.Claims.SendsIssue : Prop :=
  ∀ (s : State) (h : Hd) (d x : SReg) (a : HReg) (k : BitVec 3) (fl : EFlags) (dst : BitVec 19), s.core.guard h = true →
    let hl := s.core.getH a
    let tgt := (s.core.getS x).toNat
    let id := s.core.ctx.nextId[k.toNat]'k.isLt
    let took : Core := { s.core with exchanging := true, ctx := { s.core.ctx with nextId := s.core.ctx.nextId.set k.toNat (id + 1) k.isLt } }
    judge [(3, hl, { tags := none, layouts := none })] = none → tgt < 8 → s.core.launch ≠ none →
    (s.at (8 * podOf s.cur + tgt)).launch = s.core.launch → s.core.inPad hl.start hl.bytes = true →
    s.core.inPad dst.toNat hl.bytes = true → (s.exch.landing tgt hl.bytes ≠ none → hl.bytes ≤ 2048) → s.exch.hold [hl] = .ok () →
    (hl.bytes = 0 → Yields s (.send h d x a k fl dst) fun t => Completes s t (took.setS d id) (s.after 12) h.dly.toNat) ∧
    (hl.bytes ≠ 0 → Yields s (.send h d x a k fl dst) fun t => ∃ q : CopyCmd,
      Completes s t ({ took with copies := s.core.copies ++ [q] }.setS d id) (s.after 12) h.dly.toNat ∧
      q.kind = .send ∧ q.hl = hl ∧ q.tgt = tgt ∧ q.dst = dst.toNat ∧ q.id = id ∧ q.ch = k ∧ q.fl = fl ∧ q.done = 0 ∧
      q.timed = s.exch.landing tgt hl.bytes)

namespace Sys2Proof.Claims

open Machine

/-! ## Barriers, supersteps, exit, sync objects, circular buffers: R78 to R81, R231, R232, R247, R258, R259, R274, R280 to R294 -/

/-- The header and the length in bytes of an instruction of the 64- and 96-bit formats. -/
def hdOf : Instr → Option (Hd × Nat)
  | .add h _ _ _ | .sub h _ _ _ | .and h _ _ _ | .or h _ _ _ | .xor h _ _ _ | .andn h _ _ _ | .shl h _ _ _ | .shr h _ _ _
  | .sar h _ _ _ | .rot h _ _ _ | .min h _ _ _ | .max h _ _ _ | .minu h _ _ _ | .maxu h _ _ _ | .addImm h _ _ _
  | .subImm h _ _ _ | .andImm h _ _ _ | .orImm h _ _ _ | .xorImm h _ _ _ | .andnImm h _ _ _ | .shlImm h _ _ _ | .shrImm h _ _ _
  | .sarImm h _ _ _ | .rotImm h _ _ _ | .minImm h _ _ _ | .maxImm h _ _ _ | .minuImm h _ _ _ | .maxuImm h _ _ _ | .mul h _ _ _
  | .mulh h _ _ _ | .mulhu h _ _ _ | .div h _ _ _ | .divu h _ _ _ | .rem h _ _ _ | .remu h _ _ _ | .clz h _ _ | .ctz h _ _
  | .popc h _ _ | .brev h _ _ | .bswap h _ _ | .mix h _ _ _ | .bfx h _ _ _ _ _ | .bfi h _ _ _ _ | .cmp h _ _ _ _ _
  | .cmpi h _ _ _ _ _ | .sel h _ _ _ _ _ | .glog h _ | .movi h _ _ | .fadd h _ _ _ _ _ | .fsub h _ _ _ _ _ | .fmul h _ _ _ _ _
  | .fdiv h _ _ _ _ _ | .fsqrt h _ _ _ _ | .fmin h _ _ _ _ _ | .fmax h _ _ _ _ _ | .ffma h _ _ _ _ _ _ | .fcmp h _ _ _ _ _ _
  | .fcvt h _ _ _ _ _ | .fclass h _ _ _ | .idr h _ _ | .srr h _ _ | .srw h _ _ | .br h _ | .call h _ _ | .ret h _
  | .jmpr h _ _ _ | .loop h _ _ | .endl h | .brk h _ | .trap h _ | .syscall h _ | .eret h | .exit h | .detach h | .join h
  | .yield h | .ld h _ _ _ _ _ | .st h _ _ _ _ | .rflush h _ _ _ _ | .rdrop h _ _ _ | .rpin h _ _ _ _ _ _ | .runpin h _ _ _
  | .pref h _ _ _ _ _ | .fence h _ | .ifence h _ _ | .pfence h | .amo h _ _ _ _ _ _ | .cas h _ _ _ _ _ | .acq h _ _ _
  | .rel h _ _ | .bar h _ | .sstep h | .msgsend h _ _ _ | .msgwait h _ | .trig h | .waitdep h | .xwait h _ _ | .ccwait h _ _
  | .twait h _ | .trel h _ | .tstate h _ _ | .hget h _ _ _ | .hset h _ _ _ | .hmov h _ _ | .claim h _ _ | .vrelease h
  | .cbwait h _ _ | .cbrel h _ _ => some (h, 8)
  | .movw h _ _ | .brl h _ | .calll h _ _ | .ldx h _ _ _ _ _ _ | .hld h _ _ _ | .hst h _ _ _ | .hview h _ _ _ _ _
  | .send h _ _ _ _ _ _ | .cbinit h _ _ _ | .cbacq h _ _ | .cbcommit h _ | .mprog h _ | .rset h _ _ | .pdecl h _ _ _ _
  | .pwait h _ | .pstate h _ _ | .xstat h _ _ | .ccrd h _ _ => some (h, 12)
  | _ => none

/-- The header of an instruction of the 128-bit format. -/
def hxOf : Instr → Option Hx
  | .varith h _ _ _ _ _ _ _ | .vfma h _ _ _ _ _ _ _ _ | .vcmp h _ _ _ _ _ _ _ | .vsel h _ _ _ _ _ _ | .vlogic h _ _ _ _ _ _
  | .vshift h _ _ _ _ _ _ _ | .vcvt h _ _ _ _ _ | .vreq h _ _ _ _ | .vsfu h _ _ _ _ _ | .vred h _ _ _ _ _ _
  | .vscan h _ _ _ _ _ _ _ | .vperm h _ _ _ _ _ _ | .vbcast h _ _ _ _ | .vmov h _ _ _ | .vfill h _ _ _ _ | .vclass h _ _ _ _
  | .vmix h _ _ _ _ | .mgang h _ | .mma h _ _ _ _ _ _ _ _ | .mrec h _ _ _ _ | .mhatch h _ _ | .munhatch h _ _ | .epi h _ _ _
  | .rstat h _ _ | .mwait h | .mabort h | .rfwd h _ _ _ | .rrev h _ _ _ _ | .rchk h _ _ _ | .put h _ _ _ _ _ _
  | .get h _ _ _ _ _ _ | .pld h _ _ _ _ | .pconv h _ _ _ | .tfill h _ _ _ _ _ | .tdrain h _ _ _ _ _ => some h
  | _ => none

/-- The word of a sync object after a grant with nothing left in its queue (R280, R281). -/
def heldWord (w : Nat) (excl : Bool) (team : Nat) : Nat :=
  if excl then 2 ^ 24 + team % 2 ^ 32 * 2 ^ 32 else (w + 1) % 2 ^ 24

/-- The running core may pass the checks of a sync object's or buffer's address (R281, R291), its translation standing. -/
def Object (s : State) (va align n : Nat) (p : Piece) : Prop :=
  va < 2 ^ 53 ∧ va % align = 0 ∧ Standing s { rd := true, wr := true, user := !s.core.sys.sup } va n [p]

/-- The home of `n` bytes is the device, no other device, no L1 and no write-back on its way holds one of them, none is poisoned; no
report is injected. -/
def AtHome (s : State) (pa n : Nat) : Prop :=
  Ours s pa n ∧ s.sharers pa n = [] ∧ wbackers pa n 0 s.cores.toList = [] ∧ s.poisoned pa n = none ∧ s.core.sys.inj.getLsbD 5 = false

/-- The number that memory holds in `n` bytes at a physical place. -/
def memNumber (s : State) (pa n : Nat) : Nat := numberOf ((List.range n).map fun k => s.mem.get (pa + k))

/-- No squad holds an effect aside on an object that shares bytes with `n` bytes at a physical place (R324). -/
def Apart (s : State) (pa n : Nat) : Prop :=
  ∀ l ∈ s.launches, ∀ q ∈ l.squads, ∀ a ∈ q.aside, a.pa + 128 ≤ pa ∨ pa + n ≤ a.pa

/-- The number that the running core's squad sees in `n` bytes at a physical place (R324). -/
def seenNumber (s : State) (pa n : Nat) : Nat := numberOf ((List.range n).map fun k => (s.memFor s.cur).get (pa + k))

/-- Memory with a number of `n` bytes at a physical place, every other byte as it was, journals apart. -/
def memWith (s t : State) (pa n v : Nat) : Prop :=
  ∀ a, ¬ inJournal s a → t.mem.get a = if pa ≤ a ∧ a < pa + n then BitVec.ofNat 8 (v / 2 ^ (8 * (a - pa))) else s.mem.get a

/-- The barrier set of a group as a core's launch has it. -/
def setOf (s : State) (g : Nat) : Option BarSet := (s.launchOf s.cur).bind (·.barSet g)

/-- The writes that the superstep of a squad commits, in the order of R259: by team index, then in program order. -/
def commitOrder (s : State) (seq : Word) (q : Squad) : List LogEntry :=
  (s.byTeam seq q).flatMap fun i => sortLog (s.member seq i).log

/-- The byte that the last of some writes puts at a physical place, if one does. -/
def lastWritten (w : List LogEntry) (a : Nat) : Option Byte :=
  (w.reverse.find? fun e => decide (e.pa ≤ a ∧ a < e.pa + e.bytes.length)).map fun e => e.bytes.getD (a - e.pa) 0

end Sys2Proof.Claims

open Sys2Proof Sys2Proof.Machine Sys2Proof.Claims

/-- R21, R26, R30: an instruction whose guard is false has no effect but its slot and its delay slots, whatever it is; `NOP` has no other
effect. (That `YIELD` and an instruction with YLD are yield points also when guarded off, and stop the core for a pending request, is the
model's reading, log entry 49.) -/
def Obligations.GuardedOff : Prop :=
  (∀ (s : State) (dly : BitVec 4), Yields s (.nop dly) fun t => Completes s t s.core (s.after 8) dly.toNat) ∧
  (∀ (s : State) (i : Instr) (h : Hd) (n : Nat), hdOf i = some (h, n) → s.core.guard h = false →
    Yields s i fun t => Completes s t (Core.atYield (i = .yield h) s.core) (s.after n) h.dly.toNat) ∧
  ∀ (s : State) (i : Instr) (h : Hx), hxOf i = some h → s.core.guardX h = false →
    Yields s i fun t => Completes s t (Core.atYield h.yld s.core) (s.after 16) h.dly.toNat

/-- R79 to R81, R158: `YIELD` changes no register and stops the core when a request is pending, an attached follower excepted, which stops
at its leader's boundary (R158; log entry 96); `DETACH` takes the core out of its leader's stream; `JOIN` completes at once for an attached
follower, for a core in no chain and for a member whose leader has exited, and a detached member waits for its leader, or traps when the
leader waits at another `JOIN`. A leader waits until every detached member waits at its `JOIN`, and then slaves them again. -/
def Obligations.ChainInstructions : Prop :=
  ∀ (s : State) (h : Hd), s.core.guard h = true →
    (Yields s (.yield h) fun t => ∃ b : Bool, Completes s t { s.core with stopped := b } (s.after 8) h.dly.toNat ∧
      (b = true ↔ s.core.stopped = true ∨ (s.core.stopReq ≠ none ∧ s.core.ctx.attached = false))) ∧
    (Yields s (.detach h) fun t =>
      Completes s t { s.core with replay := [], ctx := { s.core.ctx with attached := false } } (s.after 8) h.dly.toNat) ∧
    ∀ u : State, landed s u →
      (u.core.ctx.attached = true ∨ (u.core.chainPos = 0 ∧ u.followersOf u.cur = []) ∨
        (u.core.chainPos ≠ 0 ∧ (u.at (u.leaderOf u.cur)).phase = .exited) →
        Yields s (.join h) fun t => Completes u t u.core (s.after 8) h.dly.toNat) ∧
      (u.core.ctx.attached = false → u.core.chainPos ≠ 0 → (u.at (u.leaderOf u.cur)).phase = .running →
        let astray : Prop := (u.at (u.leaderOf u.cur)).wait = some .join ∧ (u.at (u.leaderOf u.cur)).ctx.pc ≠ u.core.ctx.pc
        (¬ astray → Yields s (.join h) fun t => Waits u t .join) ∧
        (astray → u.handles = true → Yields s (.join h) fun t => Enters u t
          { cause := .illegal, detail := 11, addr := u.core.ctx.pc.toNat } (u.core.ctx.pc &&& 0x1FFFFFFFFFFFFF) 0)) ∧
      (u.core.ctx.attached = false → u.core.chainPos = 0 →
        let out (k : Nat) : Prop := k ∈ u.followersOf u.cur ∧ (u.at k).ctx.attached = false ∧ (u.at k).phase = .running
        let met (k : Nat) : Prop := (u.at k).wait = some .join ∧ (u.at k).ctx.pc = u.core.ctx.pc
        ((∀ k, out k → met k) → Yields s (.join h) fun t => Retires u t (s.after 8) h.dly.toNat ∧
          t.core.registers = u.core.registers ∧ t.mem = u.mem ∧ (∀ k, k ≠ u.cur.val → ¬ out k → t.at k = u.at k) ∧
          ∀ k, out k → (t.at k).wait = none ∧ (t.at k).ctx.attached = true ∧ (t.at k).ctx.pc = u.core.ctx.pc + 8 ∧
            (t.at k).ctx.regs = (u.at k).ctx.regs ∧ (t.at k).ctx.guards = (u.at k).ctx.guards) ∧
        ((∃ k, out k ∧ ¬ met k) → Yields s (.join h) fun t => Waits u t .join))

/-- R232, R274: `BAR` of a member counts its arrival in the current phase, or in the next when it stands in the current one, closes
its timed window and waits; it completes once that phase has closed; a third arrival is refused. -/
def Obligations.Barriers : Prop :=
  ∀ (s : State) (h : Hd) (x : SReg) (grp : Group) (b : BarSet) (seq : Word), s.core.guard h = true → s.core.pend = [] →
    s.exch.groupOf (s.core.getS x) [2] true = .ok grp → setOf s (s.core.getS x).toNat = some b → s.core.launch = some seq →
    b.group = (s.core.getS x).toNat →
    (s.core.wait = none → ¬ (s.cur.val ∈ b.cur ∧ s.cur.val ∈ b.next) → Yields s (.bar h x) fun t =>
      t.core.ctx = s.core.ctx ∧ t.core.sys = s.core.sys ∧ t.mem = s.mem ∧ t.core.window = none ∧
      (∃ n, t.core.wait = some (.bar b.group n h.dly.toNat) ∧ n = b.closes + (if s.cur.val ∈ b.cur then 2 else 1)) ∧
      ∃ d : BarSet, setOf t b.group = some d ∧ d.phase = b.phase ∧ d.closes = b.closes ∧
        (s.cur.val ∈ b.cur → d.cur = b.cur ∧ d.next = s.cur.val :: b.next) ∧
        (s.cur.val ∉ b.cur → d.cur = s.cur.val :: b.cur ∧ d.next = b.next)) ∧
    (∀ n d, s.core.wait = some (.bar b.group n d) → n ≤ b.closes → s.exch.inbound s.cur b.group n = false → Yields s (.bar h x) fun t =>
      ∃ c : Core, Completes s t c (s.after 8) h.dly.toNat ∧ c = { s.core with exchanging := true, window := c.window }) ∧
    (∀ n d, s.core.wait = some (.bar b.group n d) → b.closes < n → Yields s (.bar h x) fun t => Waits s t (.bar b.group n d)) ∧
    (s.core.wait = none → s.cur.val ∈ b.cur → s.cur.val ∈ b.next → s.handles = true → Yields s (.bar h x) fun t =>
      Enters s t { cause := .access, detail := 7 } (s.core.ctx.pc &&& 0x1FFFFFFFFFFFFF) 0)

/-- R231, R247, R249, R259, R322, R344, R368: `SSTEP` waits until every member of its squad has arrived with everything complete, while
another device holds bytes that the squad's logs write, and until every write has been performed at its home; when the last one arrives,
the superstep completes: the program goes on after
it, every completion counter is zero, no scalar, guard, handle or tile has changed, the commit log is empty and the proof records
the context. For a squad of a launch without stages, its linked launches ended. -/
def Obligations.Supersteps : Prop :=
  ∀ (s : State) (h : Hd) (l : Launch) (q : Squad) (seq : Word), s.core.guard h = true → s.core.pend = [] → s.core.performed = true →
    s.core.wait = none → s.core.phase = .running → s.core.launch = some seq → s.launchOf s.cur = some l → l.record.seq = seq → l.stages = [] →
    l.squadOf s.cur = some q → s.cur.val ∈ q.cores → (∀ x ∈ s.launches, x.record.seq = seq → x = l) → q.applied = false →
    let u := s.exch.arriveStep (s.after 8) h.dly.toNat
    let ended : Prop := ∀ d ∈ l.linked, d.ended = true
    (u.squadReady seq q = false ∨ u.commitWaits seq q = true ∨ (ended ∧ (u.commitLogs seq q).squadPending seq q = true) →
      Yields s (.sstep h) fun t =>
        t.core.ctx = s.core.ctx ∧ t.core.sys = s.core.sys ∧ t.core.wait = some (.sstep (s.after 8) h.dly.toNat)) ∧
    (u.squadReady seq q = true → u.commitWaits seq q = false → ended → (u.commitLogs seq q).squadPending seq q = false →
      Yields s (.sstep h) fun t => Retires s t (s.after 8) h.dly.toNat ∧
      t.core.ctx = { s.core.ctx with pc := s.after 8, counters := Vector.replicate 16 {} } ∧
      t.core.proof = t.core.ctx ∧ t.core.log = [] ∧ t.core.padUndo = [] ∧ t.core.exchanging = false)

/-- R231, R259: applying the logs of a squad leaves at every byte of memory what the last of its writes put there, in team-index
order and then in program order, and every other byte as it was. For members whose L1s hold nothing, of a launch that is not journalled
(a journal takes copies, R328). -/
def Obligations.CommitOrder : Prop :=
  ∀ (s : State) (seq : Word) (q : Squad), s.canonical = true → (∀ i : Nat, (s.at i).l1 = [] ∧ (s.at i).memq = []) → q.cores.Nodup →
    (∀ l, s.launch seq = some l → l.journaled = false) →
    ∀ a, (s.applyLogs seq q).mem.get a = (lastWritten (commitOrder s seq q) a).getD (s.mem.get a)

/-- R78: `EXIT` of a core that holds nothing and whose commands are complete ends its part: while another member of its squad runs on
without being ready, the core has exited, its log kept, its pins and lanes given up; when every other member has exited, the
launch of one squad, no other device holding bytes that it commits and every write performed at its home (R259), has ended with success
and its core is free. -/
def Obligations.Exits : Prop :=
  ∀ (s : State) (h : Hd) (l : Launch) (q : Squad) (seq : Word), s.core.guard h = true → s.core.pend = [] → s.core.enginesIdle = true →
    s.core.faults = [] → s.atCut seq s.cur = false → s.inbound s.cur 256 0 = false → s.core.performed = true →
    s.core.ctx.holds = [] → s.core.launch = some seq → s.launchOf s.cur = some l → l.record.seq = seq → l.squadOf s.cur = some q →
    s.farPending s.cur = false → s.cur.val ∈ q.cores → (∀ x ∈ s.launches, x.record.seq = seq → x = l) →
    (∀ k ∈ q.cores, k ≠ s.cur.val → (s.member seq k).phase = .running → (s.member seq k).wait = none →
      (s.member seq k).resume = none → Yields s (.exit h) fun t => t.core.phase = .exited ∧ t.core.launch = some seq ∧ t.core.log = s.core.log ∧
        t.core.ctx.pc = s.after 8 ∧ t.core.sys.slots = s.core.sys.slots + 1 + BitVec.ofNat 64 h.dly.toNat ∧
        t.core.ctx.regs = s.core.ctx.regs ∧ t.core.shared = [] ∧ t.core.reserve = false ∧ t.core.ctx.handles = Vector.replicate 32 {} ∧
        (∀ e ∈ t.core.l1, e.pin = false) ∧ t.mem = s.mem) ∧
    (l.squads = [q] → l.status = .running → s.commitWaits seq q = false → (s.commitLogs seq q).squadPending seq q = false → (∀ k ∈ q.cores, k ≠ s.cur.val → (s.member seq k).phase = .exited) →
      Yields s (.exit h) fun t => (∃ m ∈ t.launches, m.record.seq = seq ∧ m.status = .ended 0 0) ∧ t.core.launch = none ∧
        t.core.phase = .idle ∧ ∃ d ∈ t.dones, d.seq = seq ∧ d.status = 0)

/-- R280, R281: `ACQ` of an object that nobody queues for and whose word lets the hold be granted completes at once: the word gains
the hold and the core records it; no other register and no other byte of memory changes. -/
def Sys2Proof.Claims.Acquires : Prop :=
  ∀ (s : State) (h : Hd) (x : SReg) (ex : Bool) (sc : Scope) (p : Piece), s.core.guard h = true → s.canonical = true → s.core.pend = [] → s.core.wait = none →
    let va := (s.core.getS x).toNat
    let w := memNumber s p.2.1 8
    Object s.exch va 8 8 p → AtHome s p.2.1 8 → (∀ k ∈ s.core.ctx.holds, k.pa ≠ p.2.1) → (∀ r ∈ s.syncs, r.pa ≠ p.2.1) →
    Apart s p.2.1 8 → w < 2 ^ 24 → (ex = true → w = 0) →
    Yields s (.acq h x ex sc) fun t => Retires s t (s.after 8) h.dly.toNat ∧
      t.core.registers = (s.core.updCtx fun k => { k with holds := k.holds ++ [{ va := va, pa := p.2.1, excl := ex }] }).registers ∧
      memWith s t p.2.1 8 (heldWord w ex s.core.team) ∧ t.syncs = s.syncs

/-- R280 to R282, R148: an object held exclusively makes `ACQ` wait, its request queued and QW set; an invalid word, or an object that
the core holds already, is an access violation, detail 7, with no effect. -/
def Sys2Proof.Claims.AcquireWaits : Prop :=
  ∀ (s : State) (h : Hd) (x : SReg) (ex : Bool) (sc : Scope) (p : Piece), s.core.guard h = true → s.canonical = true → s.core.pend = [] → s.core.wait = none →
    let va := (s.core.getS x).toNat
    let w := memNumber s p.2.1 8
    Object s.exch va 8 8 p → AtHome s p.2.1 8 → Apart s p.2.1 8 →
    ((∀ k ∈ s.core.ctx.holds, k.pa ≠ p.2.1) → (∀ r ∈ s.syncs, r.pa ≠ p.2.1) → w / 2 ^ 24 % 2 = 1 → w % 2 ^ 24 = 0 → w / 2 ^ 26 % 2 ^ 6 = 0 →
      Yields s (.acq h x ex sc) fun t => t.core.wait = some (.acq p.2.1) ∧ t.core.ctx = s.core.ctx ∧ t.core.sys = s.core.sys ∧
        (∃ r, t.syncs = s.syncs ++ [r] ∧ r.pa = p.2.1 ∧ r.core = s.cur.val ∧ r.excl = ex ∧ r.granted = false) ∧
        memWith s t p.2.1 8 (w % 2 ^ 25 + 2 ^ 25 + w / 2 ^ 26 * 2 ^ 26)) ∧
    (s.handles = true → ((∃ k ∈ s.core.ctx.holds, k.pa = p.2.1) ∨ w / 2 ^ 26 % 2 ^ 6 ≠ 0 ∨ (w / 2 ^ 24 % 2 = 1 ∧ w % 2 ^ 24 ≠ 0)) →
      Yields s (.acq h x ex sc) fun t =>
        Enters (butDies s t) t { cause := .access, detail := 7, addr := va } (s.core.ctx.pc &&& 0x1FFFFFFFFFFFFF) 0)

/-- R258, R280, R282, R324: `REL` of an object that the core holds, what its scope asks performed, gives the hold up: the core no longer
records it, and the word as its squad sees it loses the hold at once; the release is held aside until the superstep completes, so
memory stays. For an object to which no region is bound. -/
def Sys2Proof.Claims.Releases : Prop :=
  ∀ (s : State) (h : Hd) (x : SReg) (sc : Scope) (p : Piece) (k : Hold), s.core.guard h = true → s.canonical = true →
    (s.squadOf s.cur).isSome = true →
    let va := (s.core.getS x).toNat
    let w := seenNumber s p.2.1 8
    Object s.exch va 8 8 p → AtHome s p.2.1 8 → s.core.ctx.holds.find? (·.pa == p.2.1) = some k → (∀ r ∈ s.syncs, r.pa ≠ p.2.1) →
    Performed s s.cur sc → w / 2 ^ 26 % 2 ^ 6 = 0 → (k.excl = true → w / 2 ^ 24 % 2 = 1 ∧ w % 2 ^ 24 = 0) →
    (k.excl = false → w / 2 ^ 24 % 2 = 0 ∧ w % 2 ^ 24 ≠ 0) → s.exch.regionKeys s.cur k.va = [] →
    Yields s (.rel h x sc) fun t => Retires s t (s.after 8) h.dly.toNat ∧
      t.core.registers = (s.core.updCtx fun c => { c with holds := c.holds.erase k }).registers ∧
      t.mem = s.mem ∧ seenNumber t p.2.1 8 = (if k.excl then w % 2 ^ 24 + w / 2 ^ 25 % 2 * 2 ^ 25 else w - 1) ∧
      t.asidesOf (s.seqOf s.cur) s.cur = s.asidesOf (s.seqOf s.cur) s.cur ++ [.rel p.2.1 k.excl]

namespace Sys2Proof.Claims

open Machine

/-! ## The lanes: R205, R210 to R225, R298, R301 -/

/-- What an instruction of the lanes does: its handle operands, what each must satisfy, the extents it touches, its L, the bytes
that it writes with the flags it raises, and the register it writes. -/
structure LaneWork where
  ops : List (Nat × HReg)
  chk : List (Nat × Handle × Accept)
  exts : List (Nat × Nat)
  l : Nat
  cells : List (Nat × Byte) := []
  flags : Fl := 0
  upd : Core → Core := id

/-- The signed number of `w` bits that an element stands for. -/
def signed (w x : Nat) : Int := (BitVec.ofNat w x).toInt

/-- A number kept within `w` signed bits. -/
def clamped (w : Nat) (v : Int) : Int := max (-(2 : Int) ^ (w - 1)) (min v (2 ^ (w - 1) - 1))

/-- The bits of a number modulo 2^`w`. -/
def wrapped (w : Nat) (v : Int) : Nat := (v % 2 ^ w).toNat

/-- An integer operation of `VARITH` on elements of `w` bits (R215). -/
def intElem (op : VOp) (w x y : Nat) : Nat :=
  match op with
  | .add => (x + y) % 2 ^ w
  | .sub => wrapped w (x - y)
  | .mul => x * y % 2 ^ w
  | .min => if signed w x ≤ signed w y then x else y
  | .max => if signed w y ≤ signed w x then x else y
  | .abs => wrapped w |signed w x|
  | .neg => wrapped w (-x)
  | .adds => wrapped w (clamped w (signed w x + signed w y))
  | .subs => wrapped w (clamped w (signed w x - signed w y))
  | .div | .sqrt => 0

/-- A floating-point operation of `VARITH` in an IEEE format (R215, R66). -/
def floatElem (op : VOp) (f : FFmt) (r : Rnd) (x y : Nat) : Nat × Fl :=
  let put (v : FV × Fl) : Nat × Fl := (f.encode v.1, v.2)
  match op with
  | .add => put (f.add r (f.decode x) (f.decode y))
  | .sub => put (f.sub r (f.decode x) (f.decode y))
  | .mul => put (f.mul r (f.decode x) (f.decode y))
  | .div => put (f.div r (f.decode x) (f.decode y))
  | .sqrt => put (f.sqrt r (f.decode x))
  | .min => put (minMax false (f.decode x) (f.decode y))
  | .max => put (minMax true (f.decode x) (f.decode y))
  | .abs => (x % 2 ^ (f.width - 1), 0)
  | .neg => ((x + 2 ^ (f.width - 1)) % 2 ^ f.width, 0)
  | .adds | .subs => (0, 0)

/-- An element of `VARITH` (R215); MK8 by the model's reading of R138. -/
def arithElem (op : VOp) (e : EF) (r : Rnd) (x y : Nat) : Nat × Fl :=
  if e.isInt then (intElem op (8 * efBytes e) x y, 0)
  else if e = .mk8 then mk8Arith op r x y
  else floatElem op (tagFFmt (efTag e)) r x y

/-- The condition of an integer compare on elements (R34, R217). -/
def intCond (k : ICond) (w x y : Nat) : Bool :=
  match k with
  | .eq => x == y
  | .ne => x != y
  | .lt => signed w x < signed w y
  | .ge => signed w y ≤ signed w x
  | .le => signed w x ≤ signed w y
  | .gt => signed w y < signed w x
  | .ltu => x < y
  | .geu => y ≤ x
  | .leu => x ≤ y
  | .gtu => y < x

/-- An element of `VCMP` (R217): integers, else values with R68's flags. -/
def cmpElem (cond : Nat) (e : EF) (sig : Bool) (x y : Nat) : Nat × Fl :=
  if e.isInt then (match ICond.ofCode cond with
    | some k => if intCond k (8 * efBytes e) x y then 1 else 0
    | none => 0, 0)
  else (match FCond.ofCode cond with
    | some k => if fcondHolds k (tagValue (efTag e) x) (tagValue (efTag e) y) then 1 else 0
    | none => 0, cmpFlags sig (tagValue (efTag e) x) (tagValue (efTag e) y))

/-- An element of `VLOGIC` and of `VSHIFT` (R218), `w` bits. -/
def logicElem (op : LogicOp) (w : Nat) (x y : Nat) : Nat :=
  match op with
  | .and => x &&& y
  | .or => x ||| y
  | .xor => x ^^^ y
  | .andn => (BitVec.ofNat w x &&& ~~~BitVec.ofNat w y).toNat
  | .not => (~~~BitVec.ofNat w x).toNat

/-- An element of `VSHIFT` (R218), `w` bits. -/
def shiftElem (op : ShiftOp) (w x n : Nat) : Nat :=
  let v := BitVec.ofNat w x
  match op with
  | .shl => (v <<< (n % w)).toNat
  | .shr => (v >>> (n % w)).toNat
  | .sar => (v.sshiftRight (n % w)).toNat
  | .rot => (v.rotateLeft (n % w)).toNat

/-- One step of a reduction (R225). -/
def foldElem (op : RedOp) (e : EF) (r : Rnd) (a x : Nat) : Nat × Fl :=
  match op with
  | .sum => arithElem .add e r a x
  | .min => arithElem .min e r a x
  | .max => arithElem .max e r a x
  | .and => (a &&& x, 0)
  | .or => (a ||| x, 0)
  | .xor => (a ^^^ x, 0)
  | .sumsq =>
    let f := tagFFmt (efTag e)
    let y := f.fma r false false (f.decode x) (f.decode x) (f.decode a)
    (f.encode y.1, y.2)

/-- The accumulators of a reduction after each element, with the flags of each step (R225). -/
def foldsOf (op : RedOp) (e : EF) (r : Rnd) : List Nat → List (Nat × Fl)
  | [] => []
  | x :: xs => List.scanl (fun a y => foldElem op e r a.1 y) (redStart op e r x) xs

/-- The flags of some steps together. -/
def flagsOf (rs : List (Nat × Fl)) : Fl := rs.foldl (fun a r => a ||| r.2) 0

/-- Work that writes one element for each pair of source elements. -/
def pairsWork (c : Core) (unary : Bool) (o1 o2 o3 : HReg) (n td ta l : Nat) (f : Nat → Nat → Nat × Fl) : LaneWork :=
  let d := c.getH o1
  let a := c.getH o2
  let b := c.getH o3
  let nd := (fmtNibbles td).getD 2
  let na := (fmtNibbles ta).getD 2
  let rs := if unary then (c.elems a na n).map fun x => f x x else List.zipWith f (c.elems a na n) (c.elems b na n)
  { ops := [(0, o1), (1, o2)] ++ if unary then [] else [(2, o3)]
    chk := [(1, d, tagged td), (2, a, tagged ta)] ++ if unary then [] else [(3, b, tagged ta)]
    exts := [(d.start, bytesOf nd n), (a.start, bytesOf na n)] ++ if unary then [] else [(b.start, bytesOf na n)]
    l := l, cells := cellsAt d.start (packElems nd (rs.map (·.1))), flags := flagsOf rs }

/-- Work of a conversion of `n` elements into a tag (R220, R221). -/
def convertWork (c : Core) (o1 o2 : HReg) (n tag : Nat) (srcs : List Nat) (out : List Nat → List Nat → List Nat × List Nat × Fl) :
    LaneWork :=
  let d := c.getH o1
  let a := c.getH o2
  let src := a.fmt.toNat
  let ns := (fmtNibbles src).getD 2
  let r := out (c.elems a ns n) (if src = 0x11 ∨ src = 0x12 then c.scales a ns n else [])
  let blk : Bool := tag = 0x11 ∨ tag = 0x12
  { ops := [(0, o1), (1, o2)], chk := [(1, d, retagged), (2, a, { tags := some srcs })]
    exts := [(d.start, tagBytes tag n), (a.start, tagBytes src n)], l := 4
    cells := cellsAt d.start (packElems ((fmtNibbles tag).getD 2) r.1 ++ r.2.1.map (BitVec.ofNat 8 ·)), flags := r.2.2
    upd := fun k => k.setH o1 { k.getH o1 with fmt := .ofNat 8 tag, layout := 0, planes := 0, block := if blk then 2 else 0 } }

/-- Work over two handles of equal or different tags that writes some bytes at the first. -/
def unaryWork (c : Core) (o1 o2 : HReg) (kd ka : Accept) (nd na l : Nat) (bs : List Byte) (fl : Fl) : LaneWork :=
  { ops := [(0, o1), (1, o2)], chk := [(1, c.getH o1, kd), (2, c.getH o2, ka)]
    exts := [((c.getH o1).start, nd), ((c.getH o2).start, na)], l := l, cells := cellsAt (c.getH o1).start bs, flags := fl }

/-- What the instructions of the lanes do (R215 to R225, R298, R301), `s` giving the residue state and the channel. -/
def laneOf (s : State) (c : Core) : Instr → Option (Hx × LaneWork)
  | .varith h o1 o2 o3 o4 op e rm => some (h, pairsWork c (op = .abs ∨ op = .neg ∨ op = .sqrt) o1 o2 o3 (c.getS o4).toNat (efTag e)
      (efTag e) (match op with | .div | .sqrt => 8 | .mul => 4 | _ => if e.isInt then 2 else 4) (arithElem op e (c.mode rm)))
  | .vfma h o1 o2 o3 o4 o5 k e rm =>
    let n := (c.getS o5).toNat
    let t := sfTag e
    let nib := (fmtNibbles t).getD 2
    let f := sfmtOf e
    let rs := (List.range (min n (c.elems (c.getH o2) nib n).length)).map fun i =>
      let x (o : HReg) := f.decode ((c.elems (c.getH o) nib n).getD i 0)
      let y := f.fma (c.mode rm) (k = .fnma ∨ k = .fnms) (k = .fms ∨ k = .fnma) (x o2) (x o3) (x o4)
      (f.encode y.1, y.2)
    some (h, { ops := [(0, o1), (1, o2), (2, o3), (3, o4)]
               chk := [(1, c.getH o1, tagged t), (2, c.getH o2, tagged t), (3, c.getH o3, tagged t), (4, c.getH o4, tagged t)]
               exts := [o1, o2, o3, o4].map fun o => ((c.getH o).start, bytesOf nib n)
               l := 5, cells := cellsAt (c.getH o1).start (packElems nib (rs.map (·.1))), flags := flagsOf rs })
  | .vcmp h o1 o2 o3 o4 cond e sig =>
    some (h, pairsWork c false o1 o2 o3 (c.getS o4).toNat 0x20 (efTag e) (if e.isInt then 2 else 4) (cmpElem cond.toNat e sig))
  | .vsel h o1 o2 o3 o4 o5 e =>
    let n := (c.getS o5).toNat
    let k := efBytes e
    let t := efTag e
    let m := c.getH o2
    let bs := (List.range n).flatMap fun i => c.pad.read ((if c.pad.get (m.start + i) = 0 then c.getH o4 else c.getH o3).start + i * k) k
    some (h, { ops := [(0, o1), (1, o2), (2, o3), (3, o4)]
               chk := [(1, c.getH o1, tagged t), (2, m, tagged 0x20), (3, c.getH o3, tagged t), (4, c.getH o4, tagged t)]
               exts := [((c.getH o1).start, n * k), (m.start, n), ((c.getH o3).start, n * k), ((c.getH o4).start, n * k)]
               l := 2, cells := cellsAt (c.getH o1).start bs })
  | .vlogic h o1 o2 o3 o4 op e => some (h, pairsWork c (op = .not) o1 o2 o3 (c.getS o4).toNat (efTag e) (efTag e) 2 fun x y =>
      (logicElem op (8 * efBytes e) x y, 0))
  | .vshift h o1 o2 o3 o4 op e k => some (h, pairsWork c k.isSome o1 o2 o3 (c.getS o4).toNat (efTag e) (efTag e) 2 fun x y =>
      (shiftElem op (8 * efBytes e) x (match k with | some n => n.toNat | none => y), 0))
  | .vclass h o1 o2 o3 e =>
    some (h, pairsWork c true o1 o2 o2 (c.getS o3).toNat 0x22 (sfTag e) 2 fun x _ => ((sfmtOf e).classOf ((sfmtOf e).decode x), 0))
  | .vmix h o1 o2 o3 o4 =>
    some (h, pairsWork c true o1 o2 o2 (c.getS o4).toNat 0x24 0x24 4 fun x _ => ((mixWord (c.getS o3) (BitVec.ofNat 64 x)).toNat, 0))
  | .vcvt h o1 o2 o3 tag rm =>
    let src := (c.getH o2).fmt
    some (h, convertWork c o1 o2 (c.getS o3).toNat tag.toNat cvtTags fun es sc =>
      if src = tag then (es, sc, 0) else convertTo (c.mode rm) tag.toNat (valuesOf src.toNat es sc))
  | .vreq h o1 o2 o3 b =>
    let src := (c.getH o2).fmt
    some (h, convertWork c o1 o2 (c.getS o3).toNat (if b then 0x12 else 0x11) blockTags fun es sc =>
      let r := convertTo .rne (if b then 0x12 else 0x11) (valuesOf src.toNat es sc)
      (r.1, r.2.1, r.2.2 &&& 0x14))
  | .vmov h o1 o2 o3 =>
    let n := (c.getS o3).toNat
    some (h, unaryWork c o1 o2 untagged untagged n n 2 ((List.range n).map fun i => c.pad.get ((c.getH o2).start + i)) 0)
  | .vfill h o1 o2 o3 z =>
    let n := (c.getS o3).toNat
    let k := widthOf z
    some (h, { ops := [(0, o1)], chk := [(1, c.getH o1, untagged)], exts := [((c.getH o1).start, n * k)], l := 2
               cells := (List.range (n * k)).map fun i =>
                 ((c.getH o1).start + i, (c.getS o2).extractLsb' (8 * (i % k)) 8) })
  | .vbcast h o1 o2 o3 e =>
    let n := (c.getS o3).toNat
    let k := efBytes e
    some (h, unaryWork c o1 o2 (tagged (efTag e)) (tagged (efTag e)) (n * k) (if n = 0 then 0 else k) 2
      ((List.range (n * k)).map fun i => c.pad.get ((c.getH o2).start + i % k)) 0)
  | .vperm h o1 o2 o3 o4 scat e =>
    let n := (c.getS o4).toNat
    let k := efBytes e
    let d := c.getH o1
    let a := c.getH o2
    let x := c.getH o3
    let at' (i : Nat) := numberOf ((List.range 4).map fun j => c.pad.get (x.start + 4 * i + j))
    if (List.range n).all fun i => at' i < (if scat then d else a).ext0.toNat then
      some (h, { ops := [(0, o1), (1, o2), (2, o3)]
                 chk := [(1, d, tagged (efTag e)), (2, a, tagged (efTag e)), (3, x, tagged 0x23)]
                 exts := (x.start, 4 * n) :: if scat then [(d.start, d.ext0.toNat * k), (a.start, n * k)]
                   else (d.start, n * k) :: (List.range n).map fun i => (a.start + at' i * k, k)
                 l := 2
                 cells := (List.range n).flatMap fun i => (List.range k).map fun j =>
                   if scat then (d.start + at' i * k + j, c.pad.get (a.start + i * k + j))
                   else (d.start + i * k + j, c.pad.get (a.start + at' i * k + j)) })
    else none
  | .vred h o1 o2 o3 op e rm =>
    let n := (c.getS o3).toNat
    let k := efBytes e
    let rs := foldsOf op e (c.mode rm) (c.elems (c.getH o2) (2 * k) n)
    some (h, unaryWork c o1 o2 (tagged (efTag e)) (tagged (efTag e)) k (n * k) 8
      (packElems (2 * k) [(rs.getLastD (redIdentity op e, 0)).1]) (flagsOf rs))
  | .vscan h o1 o2 o3 op e ex rm =>
    let n := (c.getS o3).toNat
    let k := efBytes e
    let q := match op with | .sum => RedOp.sum | .min => .min | .max => .max
    let xs := c.elems (c.getH o2) (2 * k) n
    let rs := if ex ∧ n ≠ 0 then (redIdentity q e, 0) :: foldsOf q e (c.mode rm) xs.dropLast else foldsOf q e (c.mode rm) xs
    some (h, unaryWork c o1 o2 (tagged (efTag e)) (tagged (efTag e)) (n * k) (n * k) 8 (packElems (2 * k) (rs.map (·.1))) (flagsOf rs))
  | .rfwd h o1 o2 o3 =>
    let n := (c.getS o3).toNat
    let a := c.getH o2
    let w := 4 * a.nib
    some (h, unaryWork c o1 o2 { tags := some [0x30], layouts := some [2] } { tags := some [0x20, 0x22, 0x23, 0x24] } n (bytesOf a.nib n) 4
      ((c.elems a a.nib n).map fun x => BitVec.ofInt 8 (signed w x % (modulus (s.cur.val % 8) : Int))) 0)
  | .rrev h o1 o2 o3 gd =>
    let n := (c.getS o3).toNat
    let d := c.getH o1
    let a := c.getH o2
    (s.resState s.cur).map fun g =>
      let value (i : Nat) : Int := reconstruct g.1.primaries (c.residue a i)
      (h, { ops := [(0, o1), (1, o2)], chk := [(1, d, tagged 0x24), (2, a, { tags := some [0x30], layouts := some [2] })]
            exts := (d.start, 8 * n) :: (List.range 8).map fun k => (a.start + k * a.stride2.toNat, n)
            l := 8, cells := cellsAt d.start ((List.range n).flatMap fun i => bytesLE 8 (wrapped 64 (value i)))
            upd := fun k => k.setG gd ((List.range n).any fun i =>
              g.1.checks.any fun j => value i % (modulus j : Int) != (c.residue a i j : Int)) })
  | _ => none

/-- The state as lane work finds it: with one more write to come the core has room for it (R179). -/
def roomFor (s u : State) (w : LaneWork) : Prop := if w.exts.any (fun e => e.2 ≠ 0) then s.roomed = .ok u else u = s

/-- The state from which an instruction of the lanes works: a core that holds no lane takes eight (R205). -/
def laned (s : State) : State := if s.core.lanes = 0 then s.claim s.cur 8 else s

/-- The core with its work pending: its writes land `l` slots on (R179, R211). -/
def pended (w : LaneWork) (c : Core) : Core := w.upd (if w.cells = [] then c else c.pendWrite w.l w.cells w.flags true)

end Sys2Proof.Claims

open Sys2Proof Sys2Proof.Machine Sys2Proof.Claims

/-- R205, R210 to R225, R298, R301, R65: an instruction of the lanes whose operands pass their checks, lie in the scratchpad and are
not held by a tile completes: what it writes, read from the scratchpad as it stands, lands after its L slots; `VCVT` and `VREQ` retag
their destination, `RREV` writes its guard, and no other register changes. An operand that fails its checks raises a format trap,
and a raised flag that is enabled a floating-point trap, with nothing
written and the writes before it set aside. (Flags of an exclusive scan: the model's reading, log entry 84. The destination tag of `VCVT` and
`VREQ`, what is not checked there, and the bounds of `VPERM`: log entries 85, 123 and 126. The check of the formats before the tile: log
entry 64.) -/
def Sys2Proof.Claims.LaneResults : Prop :=
  ∀ (s u : State) (i : Instr) (h : Hx) (w : LaneWork), roomFor s u w → laneOf s u.core i = some (h, w) →
    s.core.guardX h = true →
    (∀ x, judge w.chk = some x → s.handles = true → Yields s i fun t =>
      Enters s t x (s.core.ctx.pc &&& 0x1FFFFFFFFFFFFF) 0) ∧
    (judge w.chk = none → (∀ e ∈ w.exts, s.core.inPad e.1 e.2 = true) → s.hold (w.chk.map (·.2.1)) = .ok () →
      (laned u).laneReports s.cur = false →
      (u.core.traps w.flags = false → Yields s i fun t =>
        Completes (laned u) t (issued h w.ops (pended w (laned u).core)) (s.after 16) h.dly.toNat) ∧
      (u.core.traps w.flags = true → s.handles = true → Yields s i fun t =>
        Enters (laned u) t { cause := .float, detail := w.flags.toNat } (s.core.ctx.pc &&& 0x1FFFFFFFFFFFFF) 0 ∧
        t.core.pend = [] ∧ t.core.pendHeld.map (·.seq) = u.core.pend.map (·.seq) ∧ t.core.pad = u.core.pad))

/-- R226, R227: `VSFU` of at most 512 bytes stages its sources and its destination's place, takes an entry of the pending-write
queue whose data are missing, and changes no register; of no elements it does nothing but count. -/
def Sys2Proof.Claims.SfuRequests : Prop :=
  ∀ (s u : State) (h : Hx) (o1 o2 : HReg) (o3 : SReg) (fn : SfuFn) (e : SFmt), s.core.guardX h = true →
    let n := (s.core.getS o3).toNat
    let d := s.core.getH o1
    let a := s.core.getH o2
    let k := (fmtNibbles (sfTag e)).getD 2 / 2
    judge [(1, d, tagged (sfTag e)), (2, a, tagged (sfTag e))] = none → n * k ≤ 512 → s.core.inPad d.start (n * k) = true →
    s.core.inPad a.start (n * k) = true → s.hold [d, a] = .ok () → s.core.sfu = none →
    (n = 0 → Yields s (.vsfu h o1 o2 o3 fn e) fun t => Completes s t (issued h [(0, o1), (1, o2)] s.core) (s.after 16) h.dly.toNat) ∧
    (n ≠ 0 → s.roomed = .ok u → u.core.traps (sfuBytes fn e (u.core.pad.read a.start (n * k))).2 = false →
      Yields s (.vsfu h o1 o2 o3 fn e) fun t => ∃ r : SfuReq,
        Completes u t (issued h [(0, o1), (1, o2)] { u.core.pendWrite 8 [] 0 false with sfu := some r }) (s.after 16) h.dly.toNat ∧
        r.fn = fn ∧ r.ef = e ∧ r.src = u.core.pad.read a.start (n * k) ∧ r.dst = d.start ∧ r.seq = u.core.pendSeq ∧
        r.started = false ∧ r.withdrawn = false)

/-- R300, R301, R307, R308: the number that the conversion out of residues forms is the one in the dynamic range of the product of
the channels' moduli with those residues. -/
def Obligations.ReconstructionIsCorrect : Prop :=
  ∀ (cs : List Nat) (r : Nat → Nat), cs.Pairwise (· < ·) → (∀ k ∈ cs, k < 8) → (∀ k ∈ cs, r k < modulus k) →
    let x := reconstruct cs r
    let p : Nat := (cs.map modulus).prod
    0 ≤ 2 * x + p ∧ 2 * x < p ∧ ∀ k ∈ cs, x % (modulus k : Int) = r k

/-- R300, R315, R316: `RCHK` of elements all of which lie in range writes 1 to its guard. `RSET` with six primaries and two checks
that cover the channels, and at most one masked channel, sets them for its gang, ORs the mask and leaves mode full once a channel is
masked; other values raise an access violation, detail 7, and a core of no gang one of detail 6. -/
def Obligations.ResidueSettings : Prop :=
  (∀ (s : State) (h : Hx) (o1 : HReg) (o2 : SReg) (gd : GReg) (g : GangState) (ms : List Nat), s.core.guardX h = true →
    let n := (s.core.getS o2).toNat
    let a := s.core.getH o1
    let live := (List.range 8).filter fun k => !g.mask.getLsbD k
    s.resState s.cur = some (g, ms) → judge [(1, a, { tags := some [0x30], layouts := some [2] })] = none →
    (∀ k < 8, s.core.inPad (a.start + k * a.stride2.toNat) n = true) → s.hold [a] = .ok () → s.laneReports s.cur = false →
    (∀ k ∈ ms, (s.at k).sys.inj.getLsbD 4 = false) →
    (∀ i < n, ∀ x : Int, x = reconstruct live (s.core.residue a i) →
      0 ≤ 2 * x + (g.primaries.map modulus).prod ∧ 2 * x < (g.primaries.map modulus).prod) →
    Yields s (.rchk h o1 o2 gd) fun t =>
      Completes (laned s) t (issued h [(0, o1)] ((laned s).core.setG gd true)) (s.after 16) h.dly.toNat) ∧
  ∀ (s : State) (h : Hd) (x y : SReg), s.core.guard h = true →
    let m := s.core.getS x
    let k := s.core.getS y
    let bits (v : BitVec 8) : Nat := ((List.range 8).filter fun i => v.getLsbD i).length
    let prim := m.extractLsb' 0 8
    let chk := m.extractLsb' 8 8
    (s.resState s.cur = none → s.handles = true → Yields s (.rset h x y) fun t =>
      Enters s t { cause := .access, detail := 6 } (s.core.ctx.pc &&& 0x1FFFFFFFFFFFFF) 0) ∧
    ∀ (g : GangState) (ms : List Nat), s.resState s.cur = some (g, ms) →
      let mask := g.mask ||| k.extractLsb' 0 8
      let good : Prop := m.toNat / 2 ^ 17 = 0 ∧ k.toNat / 2 ^ 8 = 0 ∧ bits prim = 6 ∧ bits chk = 2 ∧ prim &&& chk = 0 ∧ bits mask ≤ 1
      (¬ good → s.handles = true → Yields s (.rset h x y) fun t =>
        Enters s t { cause := .access, detail := 7 } (s.core.ctx.pc &&& 0x1FFFFFFFFFFFFF) 0) ∧
      (good → (s.squadOf s.cur).isSome = true → Yields s (.rset h x y) fun t => Retires s t (s.after 12) h.dly.toNat ∧
        t.core.registers = s.core.registers ∧ t.mem = s.mem ∧
        (t.resState s.cur).map (·.1) = some { g with prim := prim, chk := chk, rot := m.getLsbD 16, mask := mask,
                                                      mode := if g.mode = .full ∧ mask ≠ 0 then .degraded else g.mode })

namespace Sys2Proof.Claims

open Machine

/-! ## The plane engine, the etcher: R117 to R125, R184 to R201 -/

/-- A gang operation: what it does, its operands and group, what R190 and R193 ask of its operands, whether it needs eight members or
operands of one format, the planes that it reads of each. -/
structure GangWork where
  op : PlaneOp
  o1 : HReg
  o2 : HReg
  o3 : SReg
  acc : List (Nat × Handle × Accept)
  eight : Bool
  same : Bool
  pa : Nat
  pb : Nat

/-- What `MMA` and `MREC` stage (R190, R193). -/
def gangOf (c : Core) : Instr → Option (Hx × GangWork)
  | .mma h o1 o2 o3 mode acc sp pa pb =>
    some (h, { op := .mma mode acc sp pa pb, o1 := o1, o2 := o2, o3 := o3
               acc := mmaAccepts mode sp (pa.toNat + 1) (pb.toNat + 1) (c.getH o1) (c.getH o2), eight := mode = .res
               same := mode = .ieee ∨ mode = .fl ∨ mode = .wide, pa := pa.toNat + 1, pb := pb.toNat + 1 })
  | .mrec h o1 o2 o3 e =>
    some (h, { op := .mrec e c.ctx.prog, o1 := o1, o2 := o2, o3 := o3
               acc := [(1, c.getH o1, { tags := some [efTag e], shape := (c.getH o1).ext1.toNat ≤ 64 }),
                       (2, c.getH o2, { tags := some [efTag e], shape := (c.getH o2).ext1.toNat ≤ 64 })]
               eight := false, same := false, pa := 1, pb := 1 })
  | _ => none

/-- The operands of a gang operation pass the checks of R190 and R193 in a group. -/
def GangWork.fits (w : GangWork) (s : State) (grp : Group) : Prop :=
  let a := s.core.getH w.o1
  let b := s.core.getH w.o2
  s.groupOf (s.core.getS w.o3) [1] true = .ok grp ∧ judge w.acc = none ∧ (w.same = true → b.fmt = a.fmt) ∧
  (w.eight = true → grp.members.length = 8) ∧ b.ext0 = a.ext0 ∧
  ∀ e ∈ a.readExtents w.pa ++ b.readExtents w.pb, s.core.inPad e.1 e.2 = true

/-- What a hatch command stages (R119, R198): header, destination, source, operation, what is asked of the source, the bytes read
and written, and the handle that the destination register then holds. -/
def hatchOf (c : Core) : Instr → Option (Hx × HReg × HReg × PlaneOp × Accept × Nat × Nat × Handle)
  | .mhatch h o1 o2 =>
    let d := c.getH o1
    let a := c.getH o2
    let k := (a.ext0.toNat + 63) / 64
    let lines := a.ext1.toNat * a.ext2.toNat * a.ext3.toNat
    some (h, o1, o2, .hatch, { tags := some [0x10, 0x11] }, a.bytes, 80 * lines * k,
      { d with fmt := 0x11, layout := 1, planes := 7, block := 2, tile := 0xFF, ext0 := a.ext0, ext1 := a.ext1, ext2 := a.ext2,
               ext3 := a.ext3, stride1 := .ofNat 32 (64 * k) })
  | .munhatch h o1 o2 =>
    let d := c.getH o1
    let a := c.getH o2
    some (h, o1, o2, .unhatch, { tags := some [0x21, 0x20, 0x22, 0x12, 0x11], layouts := some [1], shape := a.planesOk 1 }, a.bytes,
      a.unhatchBytes,
      { d with fmt := a.fmt, layout := 0, planes := 0, block := if a.fmt = 0x11 ∨ a.fmt = 0x12 then 2 else 0, tile := 0xFF,
               ext0 := a.ext0, ext1 := a.ext1, ext2 := a.ext2, ext3 := a.ext3, stride1 := .ofNat 32 a.lineStep })
  | _ => none

/-- The eight operation words of a record of 512 bits (R123). -/
def programOf (w : Nat) : List Word := (List.range 8).map fun k => BitVec.ofNat 64 (w / 2 ^ (64 * k))

/-- The bytes of an etcher's destination that it will write. -/
def etchPlaces (residue : Bool) (h : Handle) : List (Nat × Byte) :=
  if residue then residueCells h {} else (etchCells h (List.replicate 64 (List.replicate 64 (.zero false)))).1

end Sys2Proof.Claims

open Sys2Proof Sys2Proof.Machine Sys2Proof.Claims

/-- R192, R184, R199, R200: `MPROG` writes the program register. `MGANG` of an unarmed core arms it and counts its arrival, and of an
armed one changes nothing. `MWAIT` completes once the core has no command of the plane engine, the row statistics or the etcher left,
and waits until then. `MABORT` disarms the core and leaves no command of its plane engine but a hatch that has begun; once its operation
runs, it runs on no member of the gang any more. -/
def Obligations.PlaneSettings : Prop :=
  (∀ (s : State) (h : Hd) (p : BitVec 53), s.core.guard h = true →
    Yields s (.mprog h p) fun t => Completes s t { s.core with ctx := { s.core.ctx with prog := p } } (s.after 12) h.dly.toNat) ∧
  (∀ (s : State) (h : Hx) (x : SReg) (g : Group), s.core.guardX h = true → s.groupOf (s.core.getS x) [1] true = .ok g →
    Yields s (.mgang h x) fun t => Completes s t (issued h [] (if s.core.ctx.armed then s.core else
      { s.core with arrivals := s.core.arrivals + 1, ctx := { s.core.ctx with armed := true } })) (s.after 16) h.dly.toNat) ∧
  (∀ (s u : State) (h : Hx), landed s u → s.core.guardX h = true →
    let idle : Prop := u.core.plane = [] ∧ u.core.stats = [] ∧ u.core.etch = []
    (idle → Yields s (.mwait h) fun t => Completes u t (issued h [] u.core) (s.after 16) h.dly.toNat) ∧
    (¬ idle → Yields s (.mwait h) fun t => Waits u t .engine)) ∧
  ∀ (s : State) (h : Hx), s.core.guardX h = true → s.cur.val ∈ s.gang s.cur ∨ (∀ x ∈ s.core.plane, x.started = false) →
    (∀ m : Nat, ∀ x ∈ (s.at m).plane.tail, x.started = false ∧ x.done = 0) →
    Yields s (.mabort h) fun t => Retires s t (s.after 16) h.dly.toNat ∧ t.mem = s.mem ∧ t.core.ctx.armed = false ∧
      t.core.arrivals = 0 ∧ t.core.plane = (s.core.plane.filter fun x => !x.started && x.done != 0) ∧ t.core.ctx.regs = s.core.ctx.regs ∧ t.core.ctx.guards = s.core.ctx.guards ∧
      t.core.ctx.handles = s.core.ctx.handles ∧
      (s.core.running.isSome = true → ∀ m ∈ s.gang s.cur, m < 768 → (t.at m).running = none)

/-- R184, R187, R188, R190, R193: `MMA` and `MREC` of an armed core, their operands passing the checks, stage a command with the
handles as they stand and disarm the core; at the head of the queue a command that fills takes slot HEAD when it is free. One that
fills needs fewer than four slots claimed, one that accumulates a slot whose kind fits. A core that is not armed traps, detail 12. -/
def Obligations.GangOperations : Prop :=
  ∀ (s : State) (i : Instr) (h : Hx) (w : GangWork) (grp : Group), gangOf s.core i = some (h, w) → s.core.guardX h = true →
    (s.groupOf (s.core.getS w.o3) [1] true = .ok grp → s.core.ctx.armed = false → s.handles = true → Yields s i fun t =>
      Enters s t { cause := .illegal, detail := 12, addr := s.core.ctx.pc.toNat } (s.core.ctx.pc &&& 0x1FFFFFFFFFFFFF) 0) ∧
    (w.fits s grp → s.core.ctx.armed = true → s.hold [s.core.getH w.o1, s.core.getH w.o2] = .ok () → s.core.plane.length < 2 →
      (w.op.fills = some true → s.core.claimed < 4) →
      (w.op.fills = some false → s.core.claimed ≠ 0 ∧ ∀ x : PlaneCmd, x.op = w.op → x.ha = s.core.getH w.o1 → x.hb = s.core.getH w.o2 →
        s.core.fillKindOf s.core.lastSlot = x.kind) →
      Yields s i fun t => ∃ x : PlaneCmd,
        let queued : Core := { s.core with plane := s.core.plane ++ [x], order := s.core.order + 1,
                                           ctx := { s.core.ctx with armed := false } }
        Completes s t (issued h [(0, w.o1), (1, w.o2)] queued.claimHead) (s.after 16) h.dly.toNat ∧
        x.op = w.op ∧ x.ha = s.core.getH w.o1 ∧ x.hb = s.core.getH w.o2 ∧ x.gang = (s.core.getS w.o3).toNat ∧ x.started = false ∧
        x.slot = none ∧ x.pc = s.core.ctx.pc ∧
        (s.core.plane = [] → w.op.fills = some true → (s.core.slot s.core.ctx.head).st = .free →
          t.core.ctx.head = s.core.ctx.head + 1 ∧ (t.core.slot s.core.ctx.head).st = .filling ∧
          (t.core.slot s.core.ctx.head).kind = x.kind))

/-- R117 to R119, R198: `MHATCH` and `MUNHATCH` of operands that pass their checks and lie in the scratchpad stage a command with both
handles as they stand; the destination register takes the fields that the rules give, at issue (the model's reading, log entry 86), and no other
register changes. -/
def Sys2Proof.Claims.HatchCommands : Prop :=
  ∀ (s : State) (i : Instr) (h : Hx) (o1 o2 : HReg) (op : PlaneOp) (acc : Accept) (src dst : Nat) (new : Handle),
    hatchOf s.core i = some (h, o1, o2, op, acc, src, dst, new) → s.core.guardX h = true →
    let d := s.core.getH o1
    let a := s.core.getH o2
    judge [(1, d, { tags := none, layouts := none }), (2, a, acc)] = none → s.core.inPad a.start src = true →
    s.core.inPad d.start dst = true → s.hold [d, a] = .ok () → s.core.plane.length < 2 →
    Yields s i fun t => ∃ x : PlaneCmd,
      Completes s t (issued h [(0, o1), (1, o2)] { s.core.setH o1 new with plane := s.core.plane ++ [x], order := s.core.order + 1 })
        (s.after 16) h.dly.toNat ∧
      x.op = op ∧ x.ha = d ∧ x.hb = a ∧ x.started = false ∧ x.order = s.core.order ∧ x.need = s.core.pendSeq

/-- R122, R123, R187, R196, R197: `RSTAT` of a claimed slot that is not of the residue kind, with an FP32 destination of 768 bytes in the
scratchpad, stages its command. `EPI` of a claimed slot, its record holding a program that R124 or R299 accepts, stages the program, and
its destination unless it keeps the slot; a program that they refuse is a format trap
with no effect (that it names operand 1 and that handle's FMT is the model's choice, log entry 32). -/
def Sys2Proof.Claims.EtcherCommands : Prop :=
  (∀ (s : State) (h : Hx) (o1 : HReg) (k : BitVec 2), s.core.guardX h = true →
    let d := s.core.getH o1
    let n : Fin 4 := Fin.ofNat 4 k.toNat
    judge [(1, d, { tags := some [0x02] })] = none → s.core.inPad d.start 768 = true → s.core.slotLive n = true →
    s.core.kindOf n ≠ .residue → s.hold [d] = .ok () → s.core.stats.length < 2 →
    Yields s (.rstat h o1 k) fun t => ∃ x : StatCmd,
      Completes s t (issued h [(0, o1)] { s.core with stats := s.core.stats ++ [x], order := s.core.order + 1 }) (s.after 16) h.dly.toNat ∧
      x.h = d ∧ x.slot = n ∧ x.order = s.core.order ∧ x.need = s.core.pendSeq) ∧
  ∀ (s u : State) (h : Hx) (o1 : HReg) (x : SReg) (fl : EFlags) (w : Nat), s.core.guardX h = true →
    let d := s.core.getH o1
    let residue : Bool := s.core.kindOf s.core.etchSlot = .residue
    let program := if residue then checkResidue s.core.padSize (programOf w) else checkProgram s.core.padSize d true (programOf w)
    (fl.acq = true → Performed s s.cur fl.scope) → s.core.claimed ≠ 0 → s.readPlate (s.core.getS x).toNat = .ok (u, w) →
    (∀ n, program = .error n → u.handles = true → Yields s (.epi h o1 x fl) fun t =>
      Enters u t (fmtTrap 1 d n) (s.core.ctx.pc &&& 0x1FFFFFFFFFFFFF) 0) ∧
    ∀ ws, program = .ok ws →
      let keep : Bool := opc (ws.getLastD 0) = 7
      (keep = false → judge [(1, d, etchAccept residue d)] = none ∧ u.hold [d] = .ok () ∧
        (d.pad = true → ∀ p ∈ etchPlaces residue d, p.1 < s.core.padSize)) →
      u.core.etch.length < 2 →
      Yields s (.epi h o1 x fl) fun t => ∃ q : EpiCmd,
        Completes u t (issued h [(0, o1)] { u.core with etch := u.core.etch ++ [q], order := u.core.order + 1,
                                                        exchanging := u.core.exchanging || !(keep || d.pad) }) (s.after 16) h.dly.toNat ∧
        q.h = d ∧ q.words = ws ∧ q.keep = keep ∧ q.fl = fl ∧ q.done = 0 ∧ q.order = u.core.order ∧ q.need = u.core.pendSeq

namespace Sys2Proof.Claims

open Machine

/-! ## Circular buffers, the port, placement: R238, R239, R290 to R293, R331 to R336, R354 to R356 -/

/-- The running core's circular-buffer object at an address, as its squad sees it: it stands at its home, its address and its
fields are good (R290, R291). -/
def RingHere (s : State) (va : Nat) (p : Piece) (r : Ring) : Prop :=
  Object s.exch va 128 128 p ∧ AtHome s p.2.1 128 ∧ r.valid = true ∧
  r = Ring.of (seenNumber s p.2.1 128)

/-- An instruction completes with the registers of a core and the memory of the state before. -/
def Leaves (s t : State) (c : Core) (npc : Word) (dly : Nat) : Prop :=
  Retires s t npc dly ∧ t.core.registers = c.registers ∧ t.mem = s.mem

/-- The entry at an index of the placement table, its launch and mesh, which the running core may name (R336, R354, R356). -/
def Placed (s : State) (v : Word) (e : Place) (l : Launch) (g : Group) : Prop :=
  v.toNat ≤ 511 ∧ s.placeAt v.toNat = some e ∧ s.placeMesh e = some (l, g) ∧ s.core.launch = some l.record.seq ∧ g.axes.length ≤ 3

/-- What a placement instruction that demands a state names (R336, R354): header, entry, state, flags. -/
def demandOf (c : Core) : Instr → Option (Hx × Word × Nat × EFlags)
  | .pld h _ x y fl => some (h, c.getS x, (c.getS y).toNat, fl)
  | .pconv h x y fl => some (h, c.getS x, (c.getS y).toNat, fl)
  | _ => none

/-- The core once a demanding instruction has its effect: `PLD` loads the handle of the own part from the plate (R336); `w` is the
plate's bits. -/
def demanded (s : State) (w : Nat) (e : Place) (l : Launch) (g : Group) (i : Instr) (c d : Core) : Prop :=
  match i with
  | .pld h o1 _ y _ => ∃ k, plateCheck w = .ok k ∧
      d = issued h [(0, o1)] (c.setH o1 (partHandle k g.axes (s.core.getS y).toNat (s.coordsOfCore l e.group g s.cur)))
  | .pconv h _ _ _ => d = issued h [] c
  | _ => False

end Sys2Proof.Claims

open Sys2Proof Sys2Proof.Machine Sys2Proof.Claims

/-- R290 to R293, R375: `CBINIT` writes a fresh object with its sizes and the next epoch in bytes 0 to 63 (that the others stay
is the model's reading, log entry 51). `CBWAIT` completes once the count asked for is
committed, and waits until then. `CBREL` and `CBCOMMIT` hold their advances aside and leave memory alone. `CBACQ` of a buffer with room
reserves the next index, gives it, and records the reservation; of a full one it queues a request and waits. -/
def Obligations.CircularBuffers : Prop :=
  ∀ (s : State) (h : Hd) (x y : SReg) (p : Piece) (r : Ring), s.core.guard h = true → s.canonical = true → s.core.pend = [] →
    s.core.wait = none → s.core.launch ≠ none → (s.squadOf s.cur).isSome = true →
    let va := (s.core.getS x).toNat
    let pa := p.2.1
    let n := (s.core.getS y).toNat
    (∀ k : BitVec 8, Object s.exch va 128 128 p → AtHome s pa 128 → Apart s pa 128 → (∀ q ∈ s.cbs, q.pa ≠ pa) → 16 ≤ n → n ≤ 2 ^ 24 → n % 16 = 0 → k ≠ 0 →
      Yields s (.cbinit h x y k) fun t => Retires s t (s.after 12) h.dly.toNat ∧ t.core.registers = s.core.registers ∧
        memWith s t pa 64 (n + k.toNat * 2 ^ 32 + (memNumber s (pa + 5) 2 + 1) % 2 ^ 16 * 2 ^ 40)) ∧
    (RingHere s va p r →
      (n ≤ r.count → n ≤ r.head - r.tail → Yields s (.cbwait h x y) fun t => Leaves s t s.core (s.after 8) h.dly.toNat) ∧
      (n ≤ r.count → r.head - r.tail < n → Yields s (.cbwait h x y) fun t => Waits s t (.cbwait pa n)) ∧
      ((∀ q ∈ s.cbs, q.pa ≠ pa) → n ≤ r.head - r.tail → s.core.enginesRead = false → Yields s (.cbrel h x y) fun t =>
        Leaves s t s.core (s.after 8) h.dly.toNat ∧
        t.asidesOf (s.seqOf s.cur) s.cur = s.asidesOf (s.seqOf s.cur) s.cur ++ (if n = 0 then [] else [.tail pa n])) ∧
      (∀ e : Resv, s.core.ctx.resv.find? (fun e => e.pa == pa) = some e → e.epoch.toNat = r.epoch → s.core.enginesIdle = true →
        Performed s s.cur .sys → s.core.l1 = [] →
        (∀ z ∈ s.partKeys (s.space s.cur).2 (va + 128 + e.idx % max 1 r.count * r.size) r.size, s.knownElsewhere z.1 z.2 = false) →
        Yields s (.cbcommit h x) fun t =>
        Leaves s t (s.core.updCtx fun k => { k with resv := k.resv.erase e }) (s.after 12) h.dly.toNat ∧
        t.asidesOf (s.seqOf s.cur) s.cur = s.asidesOf (s.seqOf s.cur) s.cur ++ [.commit pa e.idx]) ∧
      ((∀ q ∈ s.cbs, q.pa ≠ pa) → s.core.ctx.resv.length < 8 → s.core.cbIdx.length = s.core.cbPos →
        (r.resv - r.tail < r.count → Yields s (.cbacq h y x) fun t => Retires s t (s.after 12) h.dly.toNat ∧
          t.core.registers = ((s.core.updCtx fun k => { k with resv := k.resv ++ [Resv.mk va pa r.resv (BitVec.ofNat 16 r.epoch) r.size
            r.count] }).setS y (BitVec.ofNat 64 r.resv)).registers ∧
          memWith s t (pa + 8) 8 (r.resv + 1)) ∧
        (r.resv - r.tail = r.count → Yields s (.cbacq h y x) fun t => t.core.wait = some (.cbacq pa) ∧ t.core.ctx = s.core.ctx ∧
          t.mem = s.mem ∧ ∃ q, t.cbs = s.cbs ++ [q] ∧ q.pa = pa ∧ q.core = s.cur.val)))

/-- R238 to R240, R28: `PUT` and `GET` whose operands pass their checks queue a command with its handles, target, count and counter;
of no elements, and into no tile, they queue nothing. A `GET` through a handle with a tile steps the tile to filling (that its channel field
stays is the model's reading, log entry 66). -/
def Obligations.PortCommands : Prop :=
  ∀ (s u : State) (h : Hx) (o1 : HReg) (o2 : SReg) (o3 : HReg) (o4 : SReg) (fl : EFlags) (k : BitVec 4) (get : Bool) (tgt : Target)
    (plate : Option Handle), s.core.guardX h = true →
    let i : Instr := if get then .get h o1 o2 o3 o4 fl k else .put h o1 o2 o3 o4 fl k
    let d := s.core.getH o1
    let x := s.core.getH o3
    let n := (s.core.getS o4).toNat
    judge [(1, d, { tags := some portTags }), (3, x, { tags := some [0x23] })] = none →
    s.exch.portTarget get (s.core.getS o2) = .ok (u, tgt, plate) →
    (match plate with
      | none => d.start % d.esize = 0 ∧ s.core.inPad d.start (d.ext0.toNat * d.esize) = true
      | some p => judge [(2, p, { space := some false, tags := some [d.fmt.toNat], shape := p.ext0 == d.ext0 })] = none ∧
          u.core.rowTrap d n = none) →
    u.hold (if get then [x] else [d, x]) = .ok () →
    let queued (c : Core) (tile : Nat) (t : State) := Retires s t (s.after 16) h.dly.toNat ∧ t.mem = u.mem ∧
      t.core.registers = (issued h [(0, o1), (2, o3)] c).registers ∧
      if n = 0 ∧ tile = 0xFF then t.core.port = u.core.port else ∃ q : PortCmd, t.core.port = u.core.port ++ [q] ∧
        q.kind = (if get then .get else .put) ∧ q.hd = d ∧ q.hx = x ∧ q.tgt = tgt ∧ q.n = n ∧ q.i = 0 ∧ q.cc = k ∧ q.fl = fl ∧
        q.hint = h.hint ∧ q.tile = tile
    (get = false ∨ d.tile = 0xFF → Yields s i (queued u.core 0xFF)) ∧
    (∀ m : BitVec 5, get = true → d.tile.toNat = m.toNat → n ≠ 0 → (tileAt u.core m).pend = false → (tileAt u.core m).st = .empty →
      Yields s i (queued (setTileAt u.core m { tileAt u.core m with st := .filling, flt := false, done := 0 }) m.toNat))

/-- R334, R345: `PDECL` of a plate that passes its checks, over a mesh of the core, in a state word that is accepted, writes the entry's
index; an index that no entry has gets the entry, overlapping no other, and one whose entry agrees gains the core. -/
def Sys2Proof.Claims.Declarations : Prop :=
  ∀ (s u : State) (h : Hd) (a b c : SReg) (st : BitVec 53) (g : Group) (w : Nat) (k : Handle), s.core.guard h = true →
    s.exch.groupOf (s.core.getS c) [4] true = .ok g → s.exch.readPlate (s.core.getS b).toNat = .ok (u, w) → plateCheck w = .ok k →
    stateOk k.fmt.toNat g.axes st.toNat = true → g.axes.length ≤ 3 →
    let e := w / 2 ^ 384 % 2 ^ 9
    let done (t : State) := Retires s t (s.after 12) h.dly.toNat ∧ t.mem = u.mem ∧
      t.core.registers = (u.core.setS a (BitVec.ofNat 64 e)).registers
    (s.placeAt e = none →
      (∀ q ∈ s.places, ∀ l g', s.placeMesh q = some (l, g') →
        let x := k.base.toNat + meshSize g.axes * partSize k
        let y := q.handle.base.toNat + meshSize g'.axes * partSize q.handle
        x ≤ q.handle.base.toNat ∨ y ≤ k.base.toNat) →
      Yields s (.pdecl h a b c st) fun t => done t ∧ ∃ q : Place, t.places = s.places ++ [q] ∧ q.idx = e ∧
        q.plate = (s.core.getS b).toNat ∧ q.handle = k ∧ q.group = (s.core.getS c).toNat ∧ q.state.toNat = st.toNat ∧
        q.version.toNat = w / 2 ^ 400 % 2 ^ 16 ∧ q.gen = s.genOf s.cur ∧ q.declared = [s.cur.val] ∧ q.busy = false) ∧
    (∀ q, s.placeAt e = some q → q.gen = s.genOf s.cur → q.plate = (s.core.getS b).toNat → q.group = (s.core.getS c).toNat →
      q.state.toNat = st.toNat → Yields s (.pdecl h a b c st) fun t => done t ∧
        ∃ q', t.placeAt e = some q' ∧ (∀ m, m ∈ q'.declared ↔ m ∈ q.declared ∨ m = s.cur.val) ∧
          { q' with declared := q.declared, changed := q.changed } = q)

/-- R336, R339, R354 to R356: `PLD` and `PCONV` of a state that stands, no cut being open, complete without arriving; of another state
they arrive at the entry's cut, and of a state that is not the open cut's they race; a core waits for a cut at which it has arrived.
`PSTATE` reads an entry, and `PWAIT` completes once the core has arrived at no open cut of it. -/
def Sys2Proof.Claims.Placement : Prop :=
  (∀ (s u : State) (i : Instr) (h : Hx) (v : Word) (st : Nat) (fl : EFlags) (e : Place) (l : Launch) (g : Group) (w : Nat),
    demandOf s.core i = some (h, v, st, fl) → s.core.guardX h = true → s.core.pend = [] → Placed s v e l g → s.cur.val ∈ g.members →
    stateOk e.handle.fmt.toNat g.axes st = true →
    (match i with | .pld _ _ _ _ _ => s.exch.readPlate e.plate = .ok (u, w) | _ => u = s.exch) →
    (∀ d, demanded s w e l g i u.core d →
      (e.state.toNat = st → e.busy = false → Yields s i fun t => Completes u t d (s.after 16) h.dly.toNat) ∧
      (s.cur.val ∉ e.arrived → e.state.toNat ≠ st ∨ e.busy = true → (e.busy = true → e.pend.toNat = st) →
        (fl.acq = true → Performed u s.cur fl.scope) → s.core.l1 = [] → s.core.memq = [] → Yields s i fun t => Leaves u t d (s.after 16) h.dly.toNat ∧
          (∃ q, t.placeAt v.toNat = some q ∧ q.busy = true ∧ q.pend.toNat = st ∧ q.arrived = e.arrived ++ [s.cur.val] ∧
            q.state = e.state) ∧
          ∃ q, t.core.arrived = s.core.arrived ++ [q] ∧ q.entry = v.toNat ∧ q.fl = fl)) ∧
    (e.busy = true → e.pend.toNat ≠ st → s.cur.val ∉ e.arrived → s.handles = true →
      Yields s i fun t => Enters s t { cause := .race, detail := e.idx, addr := e.plate } (s.core.ctx.pc &&& 0x1FFFFFFFFFFFFF) 0) ∧
    (e.busy = true → s.cur.val ∈ e.arrived → Yields s i fun t => Waits s t (.placement e.idx false))) ∧
  (∀ (s : State) (h : Hd) (a b : SReg), s.core.guard h = true →
    let v := (s.core.getS b).toNat
    (v ≤ 511 → Yields s (.pstate h a b) fun t => ∃ w : Word,
      Completes s t ({ s.core with exchanging := true }.setS a w) (s.after 12) h.dly.toNat ∧
      match (s.placesOf s.cur).find? fun e => e.idx == v with
      | none => w = 0
      | some e => e.group < 256 → w.toNat = e.state.toNat + e.version.toNat * 2 ^ 24 + 2 ^ 40 + (if e.busy then 2 ^ 41 else 0) +
          (if e.busy = true ∧ s.cur.val ∈ e.arrived then 2 ^ 42 else 0) + e.group * 2 ^ 48) ∧
    (511 < v → s.handles = true → Yields s (.pstate h a b) fun t =>
      Enters s.exch t { cause := .access, detail := 6 } (s.core.ctx.pc &&& 0x1FFFFFFFFFFFFF) 0)) ∧
  ∀ (s : State) (h : Hd) (b : SReg) (e : Place) (l : Launch) (g : Group), s.core.guard h = true → s.core.pend = [] →
    Placed s (s.core.getS b) e l g →
    (¬ (e.busy = true ∧ s.cur.val ∈ e.arrived) → Yields s (.pwait h b) fun t =>
      Completes s t { s.core with exchanging := true } (s.after 12) h.dly.toNat) ∧
    (e.busy = true → s.cur.val ∈ e.arrived → Yields s (.pwait h b) fun t => Waits s t (.placement e.idx false))

namespace Sys2Proof.Claims

open Machine

/-! ## Events of a core's storage and engines: R10 to R14, R87 to R103, R175 to R202, R227, R384 -/

/-- No other core changes. -/
def Only (s t : State) (c : Nat) : Prop := ∀ i, i ≠ c → t.at i = s.at i

/-- Storage `t` is `m` with bytes put at the addresses they carry, the last one of an address standing. -/
def laid (bs : List (Nat × Byte)) (m t : Mem) : Prop := ∀ x, t.get x = ((bs.reverse.find? fun b => b.1 == x).map (·.2)).getD (m.get x)

/-- Bytes with their addresses, from an address up. -/
def rowAt (a : Nat) (bs : List Byte) : List (Nat × Byte) := (List.range bs.length).map fun k => (a + k, bs.getD k 0)

/-- An extent has its home on the device; no other device, no L1 and no write-back on its way holds a byte of it. -/
def Alone (s : State) (pa n : Nat) : Prop := Ours s pa n ∧ s.sharers pa n = [] ∧ wbackers pa n 0 s.cores.toList = []

/-- The launch of a core is not journalled, or not any more: its writes leave no copies (R328). -/
def Unjournalled (s : State) (c : Nat) : Prop := ∀ l, s.launchOf c = some l → l.journaled = false

/-- The byte that an entry is about to write back to a physical place, else what memory holds there. -/
def flushed (s : State) (e : L1Entry) (a : Nat) : Byte :=
  if e.start + e.dstart ≤ a ∧ a < e.start + e.dstart + e.dlen then e.data.getD (a - e.start) 0 else s.mem.get a

/-- Whether every entry of a core's L1 that holds a byte of an extent satisfies a condition. -/
def entriesMeeting (c : Core) (pa n : Nat) (p : L1Entry → Prop) : Prop := ∀ e ∈ c.l1, e.start < pa + n → pa < e.start + e.data.length → p e

/-- A core after a fault of a command, raised with its source, place in program order and address. -/
def raised (c d : Core) (src pos : Nat) (pc : Word) (x : Trap) : Prop :=
  ∃ p : Pending, d.faults = c.faults ++ [p] ∧ p.src = src ∧ p.pos = pos ∧ p.cmdpc = pc ∧ p.trap = x ∧ p.eflt = true

/-- The dot product of two lines. -/
def dot (a b : List Int) : Int := ((a.zip b).map fun x => x.1 * x.2).sum

/-- What its products can add up to at most, whatever their order. -/
def dotBound (a b : List Int) : Int := ((a.zip b).map fun x => |x.1 * x.2|).sum

/-- The two's complement number that bit `k` of `n` plane words spells (R181). -/
def planeNumber (ws : List Nat) (n k : Nat) : Int :=
  (BitVec.ofNat n (((List.range n).map fun p => if (ws.getD p 0).testBit k then 2 ^ p else 0).sum)).toInt

end Sys2Proof.Claims

open Sys2Proof Sys2Proof.Machine Sys2Proof.Claims

/-- R10, R12, R87, R88, R90, R98, R103, R179: a pending write lands when its slot has come, and not before; a granted store, a fill and a
write-back take place; an Invalidate and a Downgrade leave no entry, or none but in S, over their extent, memory with its dirty bytes;
a walk that ends serves the cores that wait for it, and one that needs a table entry of another device goes on; halving halves every counter and releases the rows that have fallen below T ÷ 2. -/
def Obligations.StorageEvents : Prop :=
  (∀ (s : State) (c : Nat), c < 768 → s.canonical = true →
    (∀ p rest, (s.at c).pend = p :: rest → (∀ q ∈ rest, p.land ≤ q.land) → p.ready = true → p.land ≤ (s.at c).sys.slots.toNat →
      s.landsNow c p = true → Yields s (.pendingWriteLand c) fun t => Only s t c ∧ t.mem = s.mem ∧ (t.at c).pend = rest ∧ laid p.bytes (s.at c).pad (t.at c).pad ∧
        (t.at c).ctx = { (s.at c).ctx with fpc := (s.at c).ctx.fpc ||| (p.flags.setWidth 64 <<< 4) } ∧ (t.at c).sys = (s.at c).sys) ∧
    ((∀ q ∈ (s.at c).pend, (s.at c).sys.slots.toNat < q.land) → exec (.pendingWriteLand c) s = .next s) ∧
    (∀ k va pa bs hint, (s.at c).memq[k]? = some (.own va pa bs hint) → s.reachedBefore c k [(pa, bs.length)] = false → bs ≠ [] → (s.at c).l1 = [] →
      granCount pa bs.length ≤ l1Grans (s.at c).padKiB → Alone s pa bs.length → Yields s (.ownershipGrant c k) fun t => Only s t c ∧
        t.mem = s.mem ∧ (t.at c).memq = (s.at c).memq.eraseIdx k ∧ ∃ e : L1Entry, (t.at c).l1 = [e] ∧ e.start = pa ∧ e.data = bs ∧ e.st = .m ∧
        e.dstart = 0 ∧ e.dlen = bs.length ∧ e.cls = hint.setWidth 2 ∧ e.pin = false) ∧
    (∀ k pa bs, (s.at c).memq[k]? = some (.wback pa bs) → (s.at c).wbackBefore k pa bs.length = false → Unjournalled s c →
      Yields s (.writeBackComplete c k) fun t => Only s t c ∧ (t.at c).memq = (s.at c).memq.eraseIdx k ∧ (t.at c).l1 = (s.at c).l1 ∧
        laid (rowAt pa bs) s.mem t.mem) ∧
    (∀ k va n excl cls pa, (s.at c).memq[k]? = some (.fill va n excl cls) → s.missing c va n = none → (s.at c).l1 = [] → n ≠ 0 →
      pa % 4096 + n ≤ 4096 → s.translateAll c { rd := true, user := !(s.at c).sys.sup } va n = (s, [(va, pa, n)], none) →
      s.reachedBefore c k [(pa, n)] = false → granCount pa n ≤ l1Grans (s.at c).padKiB → Alone s pa n → s.poisoned pa n = none →
      (s.at c).sys.inj.getLsbD 5 = false → Yields s (.l1Fill c k) fun t => Only s t c ∧ t.mem = s.mem ∧
        (t.at c).memq = (s.at c).memq.eraseIdx k ∧ ∃ e : L1Entry, (t.at c).l1 = [e] ∧ e.start = pa ∧
        e.data = (List.range n).map (fun j => (s.memFor c).get (pa + j)) ∧ e.st = (if excl then .e else .s) ∧ e.dlen = 0 ∧ e.cls = cls ∧ e.pin = false) ∧
    (∀ pa n, 0 < n →
      (Yields s (.invalidate c pa n) fun t => (Unjournalled s c → Only s t c) ∧ entriesMeeting (t.at c) pa n fun _ => False) ∧
      (Yields s (.downgrade c pa n) fun t => (Unjournalled s c → Only s t c) ∧ entriesMeeting (t.at c) pa n fun e => e.st = .s) ∧
      ∀ e, (s.at c).l1 = [e] → (s.at c).memq = [] → Unjournalled s c → e.dstart + e.dlen ≤ e.data.length → (e.st = .s → e.dlen = 0) →
        (Yields s (.invalidate c pa n) fun t => ∀ a, pa ≤ a → a < pa + n → t.mem.get a = flushed s e a) ∧
        Yields s (.downgrade c pa n) fun t => ∀ a, pa ≤ a → a < pa + n → t.mem.get a = flushed s e a)) ∧
  ∀ (s : State) (d : Nat), d < 2 →
    (∀ k w, k < 64 → (s.die d).walks[k]? = some w →
      let walked := s.walk (w.cores.headD 0) w.asid w.root w.va {} 4 w.root
      Yields s (.walkComplete d k) fun t => (walked.2 = .error .away → (t.die d).walks = (s.die d).walks) ∧
        (walked.2 ≠ .error .away → (t.die d).walks = (s.die d).walks.eraseIdx k) ∧
        ∀ i ∈ w.cores, i < 768 → (s.space i).2 = w.root →
          (∀ e, walked.2 = .ok e → { e with asid := (s.space i).1 } ∈ (t.at i).tlb) ∧
          (∀ x, walked.2 = .error (.fault x) → ∀ a n ex k, .fill a n ex k ∈ (t.at i).memq →
            a + n ≤ w.va / 8192 * 8192 ∨ w.va / 8192 * 8192 + 8192 ≤ a)) ∧
    (2 ^ 20 ≤ (s.die d).gathers → ((s.die d).hot.map (·.1)).Nodup → Yields s (.hotRowHalve d) fun t =>
      (t.die d).gathers = (s.die d).gathers - 2 ^ 20 ∧ (∀ a n, (t.die d).hotCount a n = (s.die d).hotCount a n / 2) ∧
      ∀ r, r ∈ (t.die d).pinned ↔ r ∈ (s.die d).pinned ∧ (s.die d).threshold ≤ 2 * ((s.die d).hotCount r.1 r.2 / 2))

/-- R71, R72, R87, R88, R90, R92, R95, R98, R103, R106, R179, R378: where the reads and writes of the special registers, the stores and the
events of a core's storage complete, on the state and the operands alone. `IDR` and, with nothing pending, `SRR` and `SRW` always do
in their mode; a store that translates and that neither a part nor an earlier request holds back does, and changes no register; a
pending write lands in its slot; a request of the memory queue is served once nothing earlier reaches it, the home has the bytes and a
way is free of requests, a `PREF` whose page has no translation taking a walker; an Invalidate and a Downgrade, a walk that ends, and the
halving always do. -/
def Obligations.NormalCompletion : Prop :=
  (∀ (s : State) (h : Hd) (d : SReg) (r : IdReg), s.core.guard h = true →
    ∃ t, exec (.idr h d r) s = .next t ∧ Completes s t (s.core.setS d (s.idValue s.cur r)) (s.after 8) h.dly.toNat) ∧
  (∀ (s : State) (h : Hd) (d : SReg) (r : SysReg), s.core.guard h = true → (isSup r = true → s.core.sys.sup = true) → s.core.pend = [] →
    (∃ t, exec (.srr h d r) s = .next t ∧ Completes s t (s.core.setS d (sysOf s.core r)) (s.after 8) h.dly.toNat) ∧
    (isRO r = false → ∃ t, exec (.srw h r d) s = .next t ∧ Retires s t (s.after 8) h.dly.toNat ∧
      sysOf t.core r = sysWritten s.core r (s.core.getS d) ∧ t.core.ctx.regs = s.core.ctx.regs ∧ t.core.ctx.guards = s.core.ctx.guards)) ∧
  (∀ (s : State) (h : Hd) (x y : SReg) (i : BitVec 21) (z : Size) (ps : List Piece),
    s.core.guard h = true → Storable s.exch (storeAt s.core y i) (widthOf z) ps →
    (s.core.sys.sup = false → s.exch.heldWrite s.cur (storeAt s.core y i) (widthOf z) = false → s.core.logFits 16 = true) →
    (s.core.sys.sup = true → s.exch.reached s.cur s.core.memq (zonesOf ps) = false ∧ ∀ p ∈ ps, s.knownElsewhere p.2.1 p.2.2 = false) →
    ∃ t, exec (.st h x y i z) s = .next t ∧ Retires s t (s.after 8) h.dly.toNat ∧ t.core.registers = s.core.registers) ∧
  (∀ (s : State) (c : Nat), c < 768 →
    (∀ p, (s.at c).dueWrite = some p → s.landsNow c p = true → ∃ t, exec (.pendingWriteLand c) s = .next t ∧ Only s t c ∧ t.mem = s.mem ∧
      (t.at c).pend = (s.at c).pend.erase p ∧ (t.at c).ctx.regs = (s.at c).ctx.regs) ∧
    (∀ k va pa bs hint, (s.at c).memq[k]? = some (.own va pa bs hint) → s.reachedBefore c k [(pa, bs.length)] = false → Ours s pa bs.length →
      wbackers pa bs.length 0 s.cores.toList = [] → (∀ i ∈ s.sharers pa bs.length, i = c) →
      (s.on c (Core.dropReq k)).storeWaits c pa bs = false → ∃ t, exec (.ownershipGrant c k) s = .next t ∧
        Only s t c ∧ t.mem = s.mem ∧ (t.at c).ctx = (s.at c).ctx ∧ ∃ ws : List (Nat × List Byte),
          (t.at c).memq = (s.at c).memq.eraseIdx k ++ ws.map fun w => .wback w.1 w.2) ∧
    (∀ k pa bs, (s.at c).memq[k]? = some (.wback pa bs) → (s.at c).wbackBefore k pa bs.length = false → Unjournalled s c →
      ∃ t, exec (.writeBackComplete c k) s = .next t ∧ Only s t c ∧ (t.at c).memq = (s.at c).memq.eraseIdx k ∧
        (t.at c).l1 = (s.at c).l1 ∧ (t.at c).ctx = (s.at c).ctx) ∧
    (∀ k va n excl cls, (s.at c).memq[k]? = some (.fill va n excl cls) →
      (∀ pa, s.missing c va n = none → n ≠ 0 → pa % 4096 + n ≤ 4096 →
        s.translateAll c { rd := true, user := !(s.at c).sys.sup } va n = (s, [(va, pa, n)], none) → s.reachedBefore c k [(pa, n)] = false →
        Ours s pa n → wbackers pa n 0 s.cores.toList = [] → (∀ i ∈ s.sharers pa n, i = c) → s.poisoned pa n = none →
        (s.at c).sys.inj.getLsbD 5 = false → ((s.on c (Core.dropReq k)).on c (Core.hits [(pa, n)])).fillWaits c excl cls false pa n = false →
        ∃ t, exec (.l1Fill c k) s = .next t ∧ Only s t c ∧ t.mem = s.mem ∧
          (t.at c).ctx = (s.at c).ctx ∧ ∃ ws : List (Nat × List Byte), (t.at c).memq = (s.at c).memq.eraseIdx k ++ ws.map fun w => .wback w.1 w.2) ∧
      (s.missing c va n = some va → (s.die (dieOf c)).walks.length < 64 → ∃ t, exec (.l1Fill c k) s = .next t ∧ t.cores = s.cores ∧
        t.mem = s.mem ∧ ∃ w ∈ (t.die (dieOf c)).walks, c ∈ w.cores ∧ w.root = (s.space c).2 ∧ w.va / 8192 = va / 8192)) ∧
    ∀ pa n, 0 < n →
      (∃ t, exec (.invalidate c pa n) s = .next t ∧ entriesMeeting (t.at c) pa n fun _ => False) ∧
      ∃ t, exec (.downgrade c pa n) s = .next t ∧ entriesMeeting (t.at c) pa n fun e => e.st = .s) ∧
  ∀ (s : State) (d : Nat), d < 2 →
    (∀ k w, k < 64 → (s.die d).walks[k]? = some w → (s.walk (w.cores.headD 0) w.asid w.root w.va {} 4 w.root).2 ≠ .error .away →
      ∃ t, exec (.walkComplete d k) s = .next t ∧ (t.die d).walks = (s.die d).walks.eraseIdx k) ∧
    (2 ^ 20 ≤ (s.die d).gathers → ∃ t, exec (.hotRowHalve d) s = .next t ∧ t.cores = s.cores ∧ t.mem = s.mem ∧
      (t.die d).gathers = (s.die d).gathers - 2 ^ 20)

/-- R181, R190 and R145 for integer operands: a plane's bits spell a two's complement number, and the word of an integer accumulation is
the exact dot product added to what stood there, with no OVF, whenever it cannot leave 56 bits. -/
def Obligations.ProductsAreExact : Prop :=
  (∀ (n : Nat) (ws : List Nat) (k : Nat), 2 ≤ n → planeVal n ws k = planeNumber ws n k) ∧
  ∀ (w : BitVec 72) (a b : List Int), a.length = b.length → accSat w = false → |accToInt w| + dotBound a b < 2 ^ 55 →
    accToInt (ppInt w a b).1 = accToInt w + dot a b ∧ (ppInt w a b).2 = {}

/-- R185, R187, R190, R193, R197, R198, R227: a gang operation whose members agree starts on every slice, one arrival of each used up, and
on a gang that disagrees it is cancelled with the format trap on every member; when it completes, each slot is full with the words and flags of its slice (the kind of operation follows the format of the lowest member's A: the
model's choice, log entry 111). A hatch command, the row statistics and an etcher's program write their bytes, leave the queue and the slot as the
rules say. The SFU starts the next request in rotating order, and delivers into the pending write that waits for it. -/
def Obligations.EngineEvents : Prop :=
  (∀ (s : State) (c : Nat), (s.gang c).Nodup → (∀ m ∈ s.gang c, m < 768) → (s.gang c) ≠ [] →
    let gang := s.gang c
    ((∀ m ∈ gang, (s.at m).readyOp.isSome = true) →
      (∀ g, (∀ m ∈ gang, (s.at m).readyOp.map (·.sig) = some g) → Yields s (.mmaStart c) fun t => t.mem = s.mem ∧
        ∀ m ∈ gang, ∀ x rest, (s.at m).plane = x :: rest → (t.at m).arrivals = (s.at m).arrivals - 1 ∧ (t.at m).ctx = (s.at m).ctx ∧
          ∃ y : PlaneCmd, (t.at m).plane = y :: rest ∧ y.started = true ∧ y.op = x.op ∧ y.ha = x.ha ∧ y.hb = x.hb ∧ y.slot = x.slot) ∧
      ((∃ m ∈ gang, ∃ k ∈ gang, (s.at m).readyOp.map (·.sig) ≠ (s.at k).readyOp.map (·.sig)) → Yields s (.mmaStart c) fun t =>
        ∀ m ∈ gang, ∀ x rest, (s.at m).plane = x :: rest → (t.at m).arrivals = (s.at m).arrivals - 1 ∧ (t.at m).plane.length = rest.length ∧
          ∃ p : Pending, (t.at m).faults = (s.at m).faults ++ [p] ∧ p.src = 3 ∧ p.cmdpc = x.pc ∧ p.trap.cause = .format ∧ p.eflt = false)) ∧
    (∀ i : Instr, ∀ x0, (s.gang c).head?.bind (fun m => (s.at m).running) = some x0 →
      (i = .mmaComplete c ∧ (∃ md acc sp pa pb, x0.op = .mma md acc sp pa pb)) ∨ (i = .mrecComplete c ∧ ∃ ef p, x0.op = .mrec ef p) →
      (∀ m ∈ gang, ∃ x n, (s.at m).plane = [x] ∧ x.started = true ∧ x.op = x0.op ∧ x.slot = some n) →
      (∀ m ∈ gang, (s.at m).sys.inj.getLsbD 2 = false) → Yields s i fun t => t.mem = s.mem ∧
        ∀ m ∈ gang, ∀ x n, (s.at m).plane = [x] → x.slot = some n →
          let w := match x.op with
            | .mrec _ _ => mrecWords (s.at (gang.headD 0)) x0 (s.at m) x
            | _ => mmaWords (s.at (gang.headD 0)) x0 (s.at m) x (m % 8)
          (t.at m).plane = [] ∧ ((t.at m).slot n).st = .full ∧ ((t.at m).slot n).kind = x.kindFrom x0.ha ∧ ((t.at m).slot n).words = w.1 ∧
          ((t.at m).slot n).flags = ((s.at m).slot n).flags.or w.2 ∧ ∀ k, k ≠ n → (t.at m).slot k = (s.at m).slot k) ∧
    (s.canonical = true → ∀ n x0, (s.at (gang.headD 0)).readyStat = some x0 →
      (∀ m ∈ gang, ∃ x, (s.at m).readyStat = some x ∧ x.slot = n ∧ x.done = 0) →
      let out := s.statBytes gang n ((s.at (gang.headD 0)).statName x0)
      Yields s (.rstatComplete c) fun t => t.mem = s.mem ∧ ∀ m ∈ gang, ∀ x rest, (s.at m).stats = x :: rest → (t.at m).stats = rest ∧
        laid (rowAt x.h.start out.1) (s.at m).pad (t.at m).pad ∧
        ((t.at m).slot n).flags = ((s.at m).slot n).flags.or (slotFlags out.2 false) ∧
        ((t.at m).slot n).words = ((s.at m).slot n).words)) ∧
  (∀ (s : State) (c : Nat), c < 768 → s.canonical = true →
    (∀ x, (s.at c).plane = [x] → x.done = 0 → (s.at c).readyHatch = some x →
      let out := if x.op = .hatch then (s.at c).hatchOut x.veil x.hb else (s.at c).unhatchOut x.veil x.hb
      Yields s (.mhatchComplete c) fun t => Only s t c ∧ t.mem = s.mem ∧ (t.at c).plane = [] ∧ (t.at c).ctx = (s.at c).ctx ∧
        laid (rowAt x.ha.start out) (s.at c).pad (t.at c).pad) ∧
    (∀ x, (s.at c).readyEtch = some x → x.done = 0 →
      let tail := (s.at c).ctx.tail
      let out := (s.at c).etchOut x
      let res : Bool := ((s.at c).slot tail).kind = .residue
      (x.keep = false → x.h.pad = true → (x.fl.rel = true → Performed s c x.fl.scope) → (s.at c).plane = [] → Yields s (.epiComplete c) fun t =>
        Only s t c ∧ t.mem = s.mem ∧ (t.at c).etch.length + 1 = (s.at c).etch.length ∧ laid out.1 (s.at c).pad (t.at c).pad ∧
        (t.at c).slot tail = {} ∧ (t.at c).ctx.tail = tail + 1 ∧ (t.at c).ctx.head = (s.at c).ctx.head) ∧
      (x.keep = true → x.h.pad = true → res = false → (x.fl.rel = true → Performed s c x.fl.scope) → Yields s (.epiComplete c) fun t =>
        t.mem = s.mem ∧ (t.at c).pad = (s.at c).pad ∧ (t.at c).ctx.tail = tail ∧ ((t.at c).slot tail).st = .full ∧
        ((t.at c).slot tail).kind = .float ∧ ((t.at c).slot tail).words = out.2.1.flatMap fun r => r.map accOfFV)) ∧
    (∀ r, (s.at c).sfu = some r → r.started = true → (s.at c).sys.inj.getLsbD 3 = false → Yields s (.sfuDeliver c) fun t => Only s t c ∧
      t.mem = s.mem ∧ (t.at c).sfu = none ∧ (t.at c).ctx = (s.at c).ctx ∧ (t.at c).pend = (s.at c).pend.map fun p => if p.seq = r.seq then
        { p with bytes := cellsAt r.dst (sfuBytes r.fn r.ef r.src).1, flags := (sfuBytes r.fn r.ef r.src).2, ready := true } else p)) ∧
  ∀ (s : State) (p k : Nat), p < 96 → k < 8 → (s.pod p).sfuTurn < 8 → (s.at (8 * p + k)).sfuWaiting = true →
    (∀ j < 8, (s.at (8 * p + j)).sfuWaiting = true → (k + 7 - (s.pod p).sfuTurn) % 8 ≤ (j + 7 - (s.pod p).sfuTurn) % 8) →
    Yields s (.sfuRequestStart p) fun t => Only s t (8 * p + k) ∧ (t.pod p).sfuTurn = k ∧
      ∀ r, (s.at (8 * p + k)).sfu = some r → (t.at (8 * p + k)).sfu = some { r with started := true }

/-- R173, R175 to R177, R237, R248, R384: a fill whose reads go through puts every byte in its place and its tile is ready, or drains at
once; a drain whose writes go through leaves its tile empty, or filling, and a `TREL` that waits for it goes on; a send lands in its
target. An engine's run of writes takes its space in the log. A command that reaches a fault keeps what it moved, stops, and its imprecise fault is raised (that the event changes nothing where it names an
engine with no such command is the model's choice, log entry 95). -/
def Obligations.TransferEvents : Prop :=
  (∀ (s u : State) (c k : Nat) (x : CopyCmd) (bs : List Byte), c < 768 → u.canonical = true → (s.at c).copies[k]? = some x → s.copyReady c x = true →
    (s.at c).ctx.tiles = (u.at c).ctx.tiles → (s.at c).copies = (u.at c).copies → (x.fl.rel = true → Performed u c x.fl.scope) → x.tile < 32 →
    (x.kind = .fill → ((s.at c).tile x.tile).st = .filling → x.done = 0 → x.hg.stipple = 0 →
      State.engineLoads true c x.hint 0 (stretchesOf (x.body.map (·.1))) s = (.ok u, bs) → Yields s (.tfillComplete c k) fun t => Only u t c ∧
        t.mem = u.mem ∧ (t.at c).copies = (s.at c).copies.eraseIdx k ∧ laid ((x.body.map (·.2)).zip bs) (u.at c).pad (t.at c).pad ∧
        ((t.at c).tile x.tile).st = (if ((s.at c).tile x.tile).drainQ then .draining else .ready)) ∧
    (x.kind = .drain → ((s.at c).tile x.tile).st = .draining → s.drainRun c x = .ok u → Yields s (.tdrainComplete c k) fun t => Only u t c ∧
      t.mem = u.mem ∧ (t.at c).copies = (s.at c).copies.eraseIdx k ∧ (t.at c).pad = (u.at c).pad ∧
      ((t.at c).tile x.tile).st = (if ((s.at c).tile x.tile).pend then .filling else .empty) ∧
      ((u.at c).wait = some (.emptied x.tile) → (t.at c).wait = some .satisfied))) ∧
  (∀ (s : State) (c k : Nat) (x : CopyCmd) (seq : Word), c < 768 → s.canonical = true → (s.at c).copies[k]? = some x → x.kind = .send → x.tgt < 8 →
    s.copyReady c x = true → x.timed = none → (x.fl.rel = true → Performed s c x.fl.scope) → (s.at c).launch = some seq →
    let r := 8 * (c / 8) + x.tgt
    (s.at r).launch = some seq → (s.at r).sys.inj.getLsbD 6 = false → s.ringTurn (c / 8) = some (c % 8) → Yields s (.sendLand c k) fun t => t.mem = s.mem ∧
      (t.at c).copies = (s.at c).copies.eraseIdx k ∧ (∀ i, i ≠ c → i ≠ r → t.at i = s.at i) ∧
      laid (rowAt x.dst ((s.at c).seen x.veil x.hl.start x.hl.bytes)) (s.at r).pad (t.at r).pad) ∧
  (∀ (s : State) (i pos n unit va pa left : Nat) (hint : BitVec 4) (bs : List Byte), i < 768 → s.translate i { wr := true } va = (s, .ok (pa, left)) →
    s.races i [(va, pa, bs.length)] = none → s.partHeld i va bs.length = false → s.heldWrite i va bs.length = false →
    (∀ e ∈ (s.at i).log, e.pos ≠ pos) →
    ((s.at i).log.map (·.space)).sum + 16 + (bs.length + 15) / 16 * 16 ≤ (s.at i).sys.lmax.toNat * 1024 →
    ∃ t, s.engineStore i pos n unit hint va bs = .ok t ∧ t.mem = s.mem ∧ (t.at i).log = (s.at i).log ++
      [{ pos := pos, pa := pa, bytes := bs, space := 16 + (bs.length + 15) / 16 * 16, hint := hint }]) ∧
  ∀ (s u : State) (c k n : Nat) (tr : Trap), c < 768 →
    (∀ x, (s.at c).copies[k]? = some x → x.kind = .drain → x.tile < 32 → (u.at c).copies = (s.at c).copies → s.copyMove c k = .stop u tr n →
      Yields s (.commandStoppedAtFault c .copy k) fun t => raised (u.at c) (t.at c) 1 x.pos x.pc tr ∧ ((t.at c).tile x.tile).flt = true ∧
        (t.at c).copies = (s.at c).copies.set k { x with done := n, stop := some false }) ∧
    (∀ x, (s.at c).port[k]? = some x → (u.at c).port = (s.at c).port → x.tile = 0xFF → s.portMove c k = .stop u tr n →
      Yields s (.commandStoppedAtFault c .port k) fun t => raised (u.at c) (t.at c) 2 x.pos x.pc tr ∧ (counterAt (t.at c) x.cc).flt = true ∧
        (t.at c).port = (s.at c).port.set k { x with stop := some false }) ∧
    (∀ x rest, (s.at c).readyEtch = some x → (u.at c).etch = x :: rest → s.etchRun c x = .stop u tr n →
      Yields s (.commandStoppedAtFault c .etcher k) fun t => raised (u.at c) (t.at c) 4 x.pos x.pc tr ∧
        (t.at c).etch = { x with done := n, stop := some false } :: rest) ∧
    ∀ e : Engine, e = .plane ∨ e = .rstat ∨ e = .placement → exec (.commandStoppedAtFault c e k) s = .next s

namespace Sys2Proof.Claims

open Machine

/-! ## Events of the exchange, supersteps, homes and placement: R113, R231 to R245, R275 to R281, R318 to R325, R337, R350, R351, R364 -/

/-- A core counts one more completed element (R243). -/
def countedOnce (c d : Core) (k : BitVec 4) (stale : Bool) : Prop :=
  (counterAt d k).done = (counterAt c k).done + 1 ∧ (counterAt d k).stale = ((counterAt c k).stale || stale)

/-- Whether a packet writes an address. -/
def covers (p : Packet) (a : Nat) : Prop := p.addr ≤ a ∧ a < p.addr + p.bytes.length

/-- Packets of more than one sender write an address. -/
def contested (ps : List Packet) (a : Nat) : Prop := ∃ p ∈ ps, ∃ q ∈ ps, p.team ≠ q.team ∧ covers p a ∧ covers q a

/-- A packet comes last, by sender and then by issue order, among those that write an address (R242). -/
def lastOf (ps : List Packet) (p : Packet) (a : Nat) : Prop :=
  p ∈ ps ∧ covers p a ∧ ∀ q ∈ ps, covers q a → q = p ∨ q.team < p.team ∨ (q.team = p.team ∧ q.ord < p.ord)

/-- The running launch of a number, with its squads. -/
def Squads (s : State) (n : Nat) (l : Launch) (qs : List Squad) : Prop :=
  s.launch (BitVec.ofNat 64 n) = some l ∧ l.squads = qs ∧ l.record.seq = BitVec.ofNat 64 n

/-- A command of a port at its next element: it may go on, its port is no obstacle, its index is `v`. -/
def PortStep (s : State) (c k : Nat) (x : PortCmd) (v : Nat) : Prop :=
  c < 768 ∧ (s.at c).port[k]? = some x ∧ s.portReady c x = true ∧ (s.at c).behind k x = false ∧ x.i < x.n ∧ x.tile = 0xFF ∧
  (x.kind ≠ .msg → (s.at c).portIndex x x.hd.ext0.toNat = .ok v)

/-- A target of a port command still runs the launch generation of its issue, at core `r`, and takes the message (R245, R320). -/
def Reaches (s : State) (c : Nat) (x : PortCmd) (l : Launch) (r : Nat) : Prop :=
  ∃ t gen, x.tgt = .cores [(t, gen)] ∧ s.launchOf c = some l ∧ s.fresh l.record.seq (l.coreOf t) gen = some r ∧ r < 768 ∧
  (s.at r).launch = some l.record.seq ∧ (s.at r).sys.inj.getLsbD 6 = false

/-- A sum of operands, modulo their size (R364). -/
def totalOf (bits : Nat) (ps : List AtomicReq) : Nat := (ps.map (·.v.toNat)).sum % 2 ^ bits

/-- The device is still but for some entries of its placement table. -/
def EntryBecomes (s t : State) (e : Nat) (p : Place) : Prop := t.placeAt e = some p ∧ ∀ k, k ≠ e → t.placeAt k = s.placeAt k

end Sys2Proof.Claims

open Sys2Proof Sys2Proof.Machine Sys2Proof.Claims

/-- R239 to R243, R245, R276, R277: a packet of a `PUT` lands in its receiver and is counted; the target of a `GET` is read and its reply
lands; a message reaches its mailbox, and waits while that is full; a target that runs the launch no more is counted as stale.
A sub-round opens; it closes at a receiver, where bytes that several senders wrote take the last one's value; a full phase closes. -/
def Obligations.ExchangeEvents : Prop :=
  (∀ (s : State) (c k v r : Nat) (x : PortCmd) (l : Launch), s.canonical = true → PortStep s c k x v → Reaches s c x l r →
    let a := x.hd.start + v * x.hd.esize
    (x.kind = .put → x.reply = none → x.read = [] → x.sent.getD 0 0 = x.i → x.i + 1 < x.n → (∀ y ∈ (s.at c).port.take k, y.kind ≠ .put) →
      (∀ t f, (t, f) ∈ x.first → f + x.i < l.allowance) → (x.first = [] → x.i < l.allowance) →
      Yields s (.packetLand c k) fun t => t.mem = s.mem ∧ (∀ i, i ≠ c → i ≠ r → t.at i = s.at i) ∧
        countedOnce (s.at c) (t.at c) x.cc false ∧ laid (rowAt a ((s.at c).seen x.veil a x.hd.esize)) (s.at r).pad (t.at r).pad ∧
        (∀ f ∈ (s.at r).inflow, f.team = (s.at c).team → { f with landed := f.landed + 1 } ∈ (t.at r).inflow) ∧
        ∃ y : PortCmd, (t.at c).port[k]? = some y ∧ y.i = x.i + 1) ∧
    (x.kind = .get → x.reply = none → Yields s (.getRequestServe c k) fun t => t.mem = s.mem ∧ (∀ i, i ≠ c → i ≠ r → t.at i = s.at i) ∧
      (t.at r).ctx = (s.at r).ctx ∧ (t.at r).pad = (s.at r).pad ∧ (t.at c).pad = (s.at c).pad ∧
      ∃ y : PortCmd, (t.at c).port[k]? = some y ∧ y.value = BitVec.ofNat 64 v ∧
        y.reply = some (some ((List.range x.hd.esize).map fun j => (s.at r).pad.get (a + j)))) ∧
    (x.kind = .msg → x.n = 1 → x.i = 0 → (x.fl.rel = true → Performed s c x.fl.scope) →
      ((s.at r).ctx.mailbox.length < 16 → Yields s (.messageArrive c k) fun t => t.mem = s.mem ∧
        (t.at r).ctx.mailbox = (s.at r).ctx.mailbox ++ [x.value] ∧ countedOnce (s.at c) (t.at c) x.cc false ∧
        (t.at c).port = (s.at c).port.eraseIdx k) ∧
      (16 ≤ (s.at r).ctx.mailbox.length → exec (.messageArrive c k) s = .next s))) ∧
  (∀ (s : State) (c k tm gen : Nat) (x : PortCmd) (l : Launch), PortStep s c k x 0 → x.kind = .msg → x.n = 1 →
    x.tgt = .cores [(tm, gen)] → s.launchOf c = some l → s.fresh l.record.seq (l.coreOf tm) gen = none →
    Yields s (.messageArrive c k) fun t => Only s t c ∧ (t.at c).ctx.mailbox = (s.at c).ctx.mailbox ∧ countedOnce (s.at c) (t.at c) x.cc true) ∧
  (∀ (s : State) (c k : Nat) (x : PortCmd) (bs : List Byte), c < 768 → s.canonical = true → (s.at c).port[k]? = some x → x.kind = .get →
    x.stop = none → x.reply = some (some bs) → x.i + 1 < x.n → x.tile = 0xFF → (s.at c).sys.inj.getLsbD 6 = false →
    Yields s (.getReplyLand c k) fun t => Only s t c ∧ t.mem = s.mem ∧ countedOnce (s.at c) (t.at c) x.cc false ∧
      laid (rowAt (match x.tgt with
        | .cores _ => x.hd.start + x.value.toNat * x.hd.esize
        | .plate _ => x.hd.start + x.i * x.hd.stride1.toNat) bs) (s.at c).pad (t.at c).pad ∧
      ∃ y : PortCmd, (t.at c).port[k]? = some y ∧ y.i = x.i + 1 ∧ y.reply = none) ∧
  (∀ (s : State) (n : Nat) (l : Launch) (q : Squad), Squads s n l [q] → q.cores ≠ [] → s.canOpen (BitVec.ofNat 64 n) l q = true →
    Yields s (.subroundOpen n) fun t => t.cores = s.cores ∧ t.mem = s.mem ∧
      t.launch (BitVec.ofNat 64 n) = some { l with squads := [{ q with subround := q.subround + 1 }] }) ∧
  (∀ (s : State) (c : Nat) (seq : Word) (l : Launch) (q : Squad), c < 768 → s.canonical = true → (s.at c).launch = some seq →
    s.launch seq = some l → l.squadOf c = some q → s.allArrivedStep seq q = true → (s.at c).closed = q.subround →
    (∀ f ∈ (s.at c).inflow, min f.declared ((q.subround + 1) * l.allowance) ≤ f.landed) → Yields s (.subroundClose c) fun t =>
      Only s t c ∧ t.mem = s.mem ∧ (t.at c).closed = (s.at c).closed + 1 ∧ (t.at c).inbox = [] ∧
      ∀ a, (¬ contested (s.at c).inbox a → (t.at c).pad.get a = (s.at c).pad.get a) ∧
        (contested (s.at c).inbox a → ∀ p, lastOf (s.at c).inbox p a → (t.at c).pad.get a = p.bytes.getD (a - p.addr) 0)) ∧
  ∀ (s : State) (n g : Nat) (l : Launch) (b : BarSet) (grp : Group), s.launch (BitVec.ofNat 64 n) = some l → l.barSet g = some b →
    b.group = g → l.group g = some grp → b.cur ≠ [] → (∀ m ∈ grp.members, m ∈ b.cur ∨ (s.member (BitVec.ofNat 64 n) m).phase = .exited) →
    Yields s (.phaseClose n g) fun t => t.cores = s.cores ∧ t.mem = s.mem ∧ (t.launch (BitVec.ofNat 64 n)).bind (·.barSet g) =
      some { b with phase := !b.phase, closes := b.closes + 1, cur := b.next, next := [] }

/-- R113, R231, R281, R318, R325, R364, R365, R372, R375, R384: the home grants the head of a queue; returned indices go to the request
that waits; an atomic is performed as one step. A superstep whose members are ready completes on each of them once every write has been
performed; a rollback brings them back to their proof, and memory to what the undo record holds, while no write of the superstep is being
committed (log entry 122). A report replaces the last one of its queue. A fault
is delivered, with its command's address. (That a delivery is a turn of the core, and in which order, log entries 3 and 43; what a refused
atomic answers, log entry 41; dirty bytes that an L1 carried into the launch, log entry 117: the model's choices and readings.) -/
def Obligations.SuperstepEvents : Prop :=
  (∀ (s : State) (pa : Nat) (r : SyncReq), s.canonical = true → s.syncs = [r] → r.pa = pa → r.granted = false → r.dev = s.devidx.toNat →
    Apart s pa 8 → Alone s pa 8 → (∀ l, s.launch r.seq = some l → l.journaled = false) → let w := memNumber s pa 8
    w % 2 ^ 25 < 2 ^ 24 → (r.excl = true → w % 2 ^ 24 = 0) → Yields s (.acqGrant pa) fun t => t.cores = s.cores ∧
      memWith s t pa 8 (heldWord w r.excl r.team) ∧ t.syncs = [{ r with granted := true }]) ∧
  (∀ (s : State) (pa i : Nat) (r : CbReq), s.isRemote pa = true → s.cbs = [r] → r.pa = pa → r.core < 768 →
    (s.at r.core).launch = some r.seq → Yields s (.slotReturn pa [i]) fun t => t.cbs = [] ∧ Only s t r.core ∧
      (t.at r.core).cbIdx = (s.at r.core).cbIdx ++ [(pa, i)] ∧ (t.at r.core).ctx = (s.at r.core).ctx) ∧
  (∀ (s : State) (k : Nat) (c : Combined), s.canonical = true → s.switch[k]? = some c → c.reply = none →
    let n := if c.fwd.dbl then 8 else 4
    let old := memNumber s c.fwd.pa n
    c.onward = false → Alone s c.fwd.pa n →
      (s.poisoned c.fwd.pa n = none → s.refusedByte c.fwd.pa n = none → Yields s (.homeAtomic k) fun t =>
        t.cores = s.cores ∧ memWith s t c.fwd.pa n (atomicValue c.fwd.op n old (c.fwd.v.toNat % 2 ^ (8 * n))) ∧
        t.switch[k]? = some { c with reply := some (.done (BitVec.ofNat 64 old)) }) ∧
      (∀ b, s.poisoned c.fwd.pa n = none → s.refusedByte c.fwd.pa n = some b → Yields s (.homeAtomic k) fun t => t.cores = s.cores ∧
        t.mem = s.mem ∧ t.switch[k]? = some { c with reply := some (.race b (BitVec.ofNat 64 old)) })) ∧
  (∀ (s : State) (n : Nat) (l : Launch) (q : Squad), Squads s n l [q] → l.stages = [] → q.cores.Nodup → (∀ i ∈ q.cores, i < 768) →
    s.live (BitVec.ofNat 64 n) q ≠ [] → s.squadReady (BitVec.ofNat 64 n) q = true → s.commitWaits (BitVec.ofNat 64 n) q = false →
    (∀ d ∈ l.linked, d.ended = true) → (s.commitLogs (BitVec.ofNat 64 n) q).squadPending (BitVec.ofNat 64 n) q = false →
    Yields s (.sstepComplete n) fun t =>
      ∀ i ∈ q.cores, ∀ next dly, (s.at i).launch = some (BitVec.ofNat 64 n) → (s.at i).phase = .running →
        (s.at i).wait = some (.sstep next dly) →
        (t.at i).ctx = { (s.at i).ctx with pc := next, counters := Vector.replicate 16 {} } ∧ (t.at i).proof = (t.at i).ctx ∧
        (t.at i).log = [] ∧ (t.at i).padUndo = [] ∧ (t.at i).wait = none ∧ (t.at i).faultCount = 0) ∧
  (∀ (s : State) (n : Nat) (l : Launch) (q : Squad), Squads s n l [q] → s.live (BitVec.ofNat 64 n) q ≠ [] → s.events.en = false →
    l.closing q = false → q.cores.Nodup → (∀ j ∈ q.cores, j < 768) → Yields s (.rollback n .none) fun t =>
      (∀ j ∈ q.cores, (s.at j).launch = some (BitVec.ofNat 64 n) → (t.at j).ctx = (s.at j).proof ∧ (t.at j).sys.sup = false ∧
        (t.at j).log = [] ∧ (t.at j).pend = [] ∧ (t.at j).faults = [] ∧ (t.at j).wait = none ∧
        (∀ e ∈ (t.at j).l1, e.st = .m → ∀ w ∈ e.dirty, w ∈ (s.at j).carried) ∧
        ((s.at j).padUndo = [] → (t.at j).pad = (s.at j).pad)) ∧
      (q.atomBytes = [] → s.canonical = true → s.syncs = [] → (∀ j : Nat, (s.member (BitVec.ofNat 64 n) j).carried = []) →
        (q.memUndo = [] → t.mem = s.mem) ∧ ∀ g bs, q.memUndo = [(g, bs)] → laid (rowAt g bs) s.mem t.mem)) ∧
  (∀ (s : State) (cb resv head tail count : Nat), (∀ l ∈ s.launches, l.stages = []) → Yields s (.occupancyReport cb resv head tail count) fun t =>
    t.cores = s.cores ∧ t.mem = s.mem ∧ t.launches = s.launches ∧ t.reports.find? (·.pa == cb) = some (Report.mk cb resv head tail count) ∧
    ∀ pa, pa ≠ cb → t.reports.find? (·.pa == pa) = s.reports.find? (·.pa == pa)) ∧
  ∀ (s : State) (c : Nat) (p : Pending) (rest : List Pending), c < 768 → (s.at c).faults = p :: rest → (∀ q ∈ rest, p.src ≤ q.src) →
    (s.at c).launch.isSome = true → (s.at c).sys.sup = false → (s.at c).sys.tvec ≠ 0 → (s.at c).phase = .running → (s.at c).resume = none →
    ((s.at c).wait = none → exec (.engineFaultDelivery c) s = .next { s with agenda := .issue c :: s.agenda }) ∧
    ∀ w : Wait, (s.at c).wait = some w → (∀ a, w ≠ .acq a ∧ w ≠ .cbacq a) → w ≠ .satisfied → (∀ a b d, w ≠ .bar a b d) →
      (∀ a d, w ≠ .sstep a d) → s.attachedOf c = [] → p.src < 8 → Yields s (.engineFaultDelivery c) fun t => Only s t c ∧ t.mem = s.mem ∧
      (t.at c).sys.sup = true ∧ (t.at c).sys.epc = (s.at c).ctx.pc &&& 0x1FFFFFFFFFFFFF ∧ (t.at c).faults = rest ∧
      (t.at c).sys.ecause.toNat = p.trap.cause.num + 2 ^ 8 + p.src * 2 ^ 9 ∧
      (t.at c).sys.einfo.toNat = p.trap.detail % 2 ^ 32 + p.cmdpc.toNat % 2 ^ 32 * 2 ^ 32 ∧
      (t.at c).ctx.pc = (s.at c).sys.tvec + BitVec.ofNat 64 (64 * p.trap.cause.num) ∧ (t.at c).ctx.regs = (s.at c).ctx.regs

/-- R336, R337, R350, R351: a cut closes when every participant has arrived and every source byte is mapped, and reads the parts; a part is
written; when all are, and what `.rel` asked for has been performed, the entry has its new state and a version more, nobody has arrived, and every participant's `fpc` takes the flags. Reports of other devices that
agree let the conversion run; one that does not fails the cut, and every participant takes the race. -/
def Obligations.PlacementEvents : Prop :=
  ∀ (s : State) (e : Nat) (p : Place) (l : Launch) (g : Group), s.placeAt e = some p → p.idx = e → s.placeMesh p = some (l, g) →
    (∀ i ∈ g.members, i < 768 ∧ (s.at i).launch = some l.record.seq) → g.members.Nodup →
    (∀ u parts, p.busy = true → p.closed = false → (∀ a ∈ g.axes, a.2 = false) →
      (∀ i ∈ g.members, i ∈ p.arrived ∨ (s.at i).phase = .exited) →
      s.meshEnded l p = false → s.partPoison l.record.root p g.axes (s.localMembers l p g) = none →
      (∀ m ∈ s.localMembers l p g, s.partMapped l.record.root p g.axes m = true) →
      State.readParts l.record.root p (s.localMembers l p g) s = (u, parts) → u.places = s.places →
      Yields s (.placementCutClose e) fun t => t.cores = u.cores ∧ t.mem = u.mem ∧ ∃ q : Place, EntryBecomes s t e q ∧ q.closed = true ∧
        q.ready = true ∧ q.busy = true ∧ q.state = p.state ∧ q.pend = p.pend ∧ q.arrived = p.arrived) ∧
    (∀ m va key bs, p.ready = true → (s.localMembers l p g).find? (fun m => !p.written.contains m) = some m →
      p.parts.filter (·.1 == m) = [(m, va, bs)] → va % 8192 + bs.length ≤ 8192 → s.peek l.record.root va = some key → Alone s key bs.length →
      (∀ x, s.launch l.record.seq = some x → x.journaled = false) →
      (s.partAtSys l p g m = true → ∀ k ∈ s.partKeys l.record.root (p.handle.base.toNat + m * partSize p.handle) (partSize p.handle),
        s.knownElsewhere k.1 k.2 = false) →
      s.canonical = true → bs ≠ [] → Yields s (.conversionPartWritten e) fun t => t.cores = s.cores ∧ laid (rowAt key bs) s.mem t.mem ∧
        EntryBecomes s t e { p with written := p.written ++ [m] }) ∧
    (p.ready = true → (∀ m ∈ s.localMembers l p g, m ∈ p.written) →
      (∀ i ∈ g.members, ∀ a ∈ (s.at i).arrived, a.entry = e → a.fl.rel = true → Performed s i a.fl.scope) →
      Yields s (.conversionComplete e) fun t => t.mem = s.mem ∧
      (∃ q : Place, EntryBecomes s t e q ∧ q.state = p.pend ∧ q.version = p.version + 1 ∧ q.busy = false ∧ q.arrived = [] ∧ q.closed = false) ∧
      ∀ i ∈ g.members, (t.at i).ctx = { (s.at i).ctx with fpc := (s.at i).ctx.fpc ||| (p.flags.setWidth 64 <<< 4) } ∧
        ∀ a ∈ (t.at i).arrived, a.entry ≠ e) ∧
    ∀ rs : List PlaceReport, p.closed = true → p.ready = false →
      let others := (((l.devLists.find? (·.1 == p.group)).map (·.2)).getD []).filter (· != s.devidx.toNat)
      (∀ d ∈ others, ∃ r ∈ rs, r.dev = d) →
      let agrees (r : PlaceReport) : Prop := r.ended = false ∧ r.plate = p.plate ∧ r.group = p.group ∧ r.state = p.state ∧ r.pend = p.pend ∧
        r.version = p.version
      ((∀ r ∈ rs, r.dev ∈ others → agrees r) → Yields s (.fabricCutClose e rs) fun t => t.cores = s.cores ∧ t.mem = s.mem ∧
        ∃ q : Place, EntryBecomes s t e q ∧ q.ready = true ∧ q.state = p.state ∧ q.busy = p.busy) ∧
      ((∃ r ∈ rs, r.dev ∈ others ∧ ¬ agrees r) → Yields s (.fabricCutClose e rs) fun t => t.mem = s.mem ∧
        (∃ q : Place, EntryBecomes s t e q ∧ q.busy = false ∧ q.arrived = [] ∧ q.state = p.state ∧ q.version = p.version) ∧
        ∀ i ∈ g.members, (s.at i).phase ≠ .exited → ∃ x : Pending, (t.at i).faults = (s.at i).faults ++ [x] ∧ x.src = 6 ∧
          x.trap = { cause := .race, detail := p.idx, addr := p.plate })

namespace Sys2Proof.Claims

open Machine

/-! ## The fabric, scheduling, hosts and resets: R100, R286, R320, R321, R353, R360, R364, R370, R386 to R411 -/

/-- A command has been answered with a status (R401, R403): its record waits to be written. -/
def Answered (t : State) (seq : Word) (status : Nat) : Prop :=
  (∃ l ∈ t.launches, l.record.seq = seq ∧ l.status = .ended status 0) ∧ ∃ d ∈ t.dones, d.seq = seq ∧ d.status = status ∧ d.detail = 0

/-- A command of a kind waits to be carried out, its sequence number its own, the first of its queue that does (R401). -/
def Commanded (s : State) (seq : Word) (kind : Nat) (k : Launch) : Prop :=
  s.launch seq = some k ∧ k.record.seq = seq ∧ k.record.kind = kind ∧ k.status = .waiting ∧ k.squads = [] ∧ s.coresOf seq = [] ∧
  (∀ m ∈ s.images, m.seq ≠ seq) ∧ (∀ r ∈ s.syncs, r.seq ≠ seq) ∧ (∀ l ∈ s.launches, l.record.seq = seq → l = k) ∧
  ∀ l ∈ s.launches, l.queue = k.queue → l.record.kind ≠ 1 → l.status = .waiting → k.order ≤ l.order

/-- A launch that a command names, accepted and not ended (R401). -/
def Named (s : State) (k l : Launch) : Prop :=
  s.launch k.record.arg0 = some l ∧ l.record.seq = k.record.arg0 ∧ l.record.kind = 1 ∧ (∀ st d, l.status ≠ .ended st d) ∧
  k.record.arg0 ≠ k.record.seq

/-- The sequence numbers of the cores' launches are no longer on the device, nor is anything cached. -/
def Vacant (s : State) : Prop := ∀ i : Nat, (s.at i).launch = none ∧ (s.at i).l1 = [] ∧ (s.at i).memq = []

/-- The number that a completion record of R402 holds, with its phase bit. -/
def recordNumber (d : Done) (phase : Nat) : Nat :=
  d.seq.toNat + phase * 2 ^ 64 + d.status * 2 ^ 72 + (if d.ovf then 2 ^ 80 else 0) + (if d.degr then 2 ^ 81 else 0) +
  (if d.rerun then 2 ^ 82 else 0) + d.detail.toNat * 2 ^ 128 + d.cycles.toNat * 2 ^ 192

/-- What a reset leaves on the device (R363, R407): every core idle and in service, every link down, no entry, no report. -/
def Restarted (t : State) : Prop :=
  (∀ i < 768, (t.at i).phase = .idle ∧ (t.at i).launch = none ∧ (t.at i).retired = false ∧ (t.at i).l1 = [] ∧ (t.at i).ctx = Ctx.reset) ∧
  (∀ p < 16, (t.linkPort p).st = .down) ∧ t.places = [] ∧ t.syncs = [] ∧ t.cbs = [] ∧ t.reports = [] ∧ (∀ q ∈ t.queues, q.en = false)

end Sys2Proof.Claims

open Sys2Proof Sys2Proof.Machine Sys2Proof.Claims

/-- R320, R321, R353, R360, R363 to R365, R369, R370, R397, R406: a message whose tag verifies is delivered once, in the order of its flow, and
acknowledged (one beyond the next of its flow stays undelivered: the model's reading, log entry 46); one whose tag fails is discarded,
negatively acknowledged and counted, and at the eighth failure in a row of one message the link goes out of service. An acknowledgement
takes a message off its flow. A switch forwards a request or adds it to a run, and splits the run's reply, or its refusal, which every
constituent receives (the model's reading, log entry 41). A snoop removes a granule from the L1s and the L2s. A host's write is performed at
the home, or refused whole at a BUSY part with the protocol's error response (which port and which response, log entry 119; what a host
reaches, log entries 22 and 39). A port trains, and comes up (its state while it trains, log entry 22). -/
def Obligations.FabricEvents : Prop :=
  (∀ (s : State) (p : Nat) (m : LinkMsg), p < 16 → (s.linkPort p).st = .up →
    let name : MsgName := (m.src, s.devidx.toNat, m.cls.toNat, m.seq.toNat)
    let n := (((s.linkPort p).failing.find? (·.1 == name)).map (·.2)).getD 0
    (∀ pa bs team seq commit, m.payload = .write pa bs team seq commit → m.cls = 0 → m.seq.toNat = s.flowNext m.src 0 →
      s.refusedByte pa bs.length = none → Alone s pa bs.length → s.canonical = true → Yields s (.linkMessageReceive p m true) fun t =>
        t.cores = s.cores ∧ laid (rowAt pa bs) s.mem t.mem ∧ t.flowNext m.src 0 = (s.flowNext m.src 0 + 1) % 2 ^ 32 ∧
        (p, m.src, Payload.ack m.cls m.seq) ∈ t.controls ∧ ∀ x ∈ (t.linkPort p).failing, x.1 ≠ name) ∧
    ((∀ c k, m.payload ≠ .ack c k) → (∀ d c k, m.payload ≠ .nack d c k) → m.seq.toNat ≠ s.flowNext m.src m.cls.toNat →
      Yields s (.linkMessageReceive p m true) fun t => t.cores = s.cores ∧ t.mem = s.mem ∧ t.flows = s.flows) ∧
    (∀ c k, m.payload = .ack c k → (s.outFlow m.src c.toNat).held = [] → Yields s (.linkMessageReceive p m true) fun t =>
      t.cores = s.cores ∧ t.mem = s.mem ∧ (t.outFlow m.src c.toNat).unacked = (s.outFlow m.src c.toNat).unacked.filter (·.num != k.toNat)) ∧
    (s.events.en = false → Yields s (.linkMessageReceive p m false) fun t => t.cores = s.cores ∧ t.mem = s.mem ∧ t.flows = s.flows ∧
      (p, m.src, Payload.nack s.devidx.toNat m.cls m.seq) ∈ t.controls ∧
      (n + 1 < 8 → (t.linkPort p).st = .up ∧ (t.linkPort p).failing.find? (·.1 == name) = some (name, n + 1)) ∧
      (8 ≤ n + 1 → (t.linkPort p).st = .outOfService))) ∧
  (∀ (s : State) (sw p : Nat) (r : AtomicReq),
    ((∀ c ∈ s.switch, c.fwd ≠ r) → (∀ c ∈ s.switch, c.sw = sw → c.port = p → c.reply = none → combines c.fwd r = false) →
      Yields s (.switchRequestArrival ⟨sw, p, r⟩) fun t => t.switch = s.switch ++ [{ sw := sw, port := p, fwd := r, parts := [r] }]) ∧
    (∀ c, s.switch = [c] → c.fwd = r → c.reply = none → c.onward = false → Yields s (.switchRequestArrival ⟨sw, p, r⟩) fun t =>
      t.switch = [{ c with onward := true }, { sw := sw, port := p, fwd := r, parts := [r] }]) ∧
    ∀ c, s.switch = [c] → c.sw = sw → c.port = p → c.fwd ≠ r → c.reply = none → c.onward = false → combines c.fwd r = true →
      c.parts.length < 512 → c.parts.length ≠ 0 → Yields s (.switchRequestArrival ⟨sw, p, r⟩) fun t => ∃ d : Combined, t.switch = [d] ∧
        (∀ x, x ∈ d.parts ↔ x = r ∨ x ∈ c.parts) ∧ d.parts.length = c.parts.length + 1 ∧ d.reply = none ∧
        ((∀ x ∈ c.parts, combines x r = true) → d.fwd.pa = r.pa ∧ d.fwd.op = .add ∧ d.fwd.v = BitVec.ofNat 64 (totalOf (reqBits r) (r :: c.parts)))) ∧
  (∀ (s : State) (k : Nat) (c : Combined) (v : Served), s.switch[k]? = some c → c.reply = some v → (∀ d ∈ s.switch, d.onward = false) →
    (∀ x ∈ c.parts, x.dev ≠ s.devidx.toNat) → Yields s (.replySplit k) fun t => t.switch = s.switch.eraseIdx k ∧
      ∃ rs : List (AtomicReq × Served × Bool), t.replies = s.replies ++ rs ∧ rs.map (·.1) = c.parts ∧ match v with
        | .done w => w.toNat < 2 ^ reqBits c.fwd → ∀ (j : Nat) (x : AtomicReq × Served × Bool), rs[j]? = some x →
            x.2.1 = .done (BitVec.ofNat 64 ((w.toNat + ((c.parts.take j).map (·.v.toNat)).sum) % 2 ^ reqBits c.fwd))
        | w => ∀ x ∈ rs, x.2.1 = w) ∧
  (∀ (s : State) (a : Nat), Yields s (.cxlSnoop a) fun t => (∀ i < 768, entriesMeeting (t.at i) (a / 64 * 64) 64 fun _ => False) ∧
    ∀ d < 2, ∀ e ∈ (t.die d).l2, e.len ≠ 0 → e.start + e.len ≤ a / 64 * 64 ∨ a / 64 * 64 + 64 ≤ e.start) ∧
  (∀ (s : State) (a : Nat) (bs : List Byte),
    let port := s.hostPortOf a
    (s.hostReaches port a bs.length = true → s.refusedByte a bs.length = none → Alone s a bs.length → s.canonical = true →
      Yields s (.hostWrite a bs) fun t => t.cores = s.cores ∧ laid (rowAt a bs) s.mem t.mem) ∧
    (s.hostReaches port a bs.length = true → s.refusedByte a bs.length ≠ none → s.events.en = false → Yields s (.hostWrite a bs) fun t =>
      t = { s with hostErrors := s.hostErrors ++ [(port, if a / 2 ^ 52 = 2 then .completerAbort else .dataError)] }) ∧
    (s.hostReaches port a bs.length = false → exec (.hostWrite a bs) s = .next s)) ∧
  ∀ (s : State) (p lanes partner : Nat) (reach : List Nat), p < 16 →
    ((s.linkPort p).st = .down → Yields s (.linkTraining p lanes partner reach) fun t => t.mem = s.mem ∧ t.cores = s.cores ∧
      t.linkPort p = { s.linkPort p with st := .training } ∧ t.present = s.present) ∧
    ((s.linkPort p).st = .training → s.idok = true → partner ≠ s.devidx.toNat → partner < 2048 →
      Yields s (.linkTraining p lanes partner reach) fun t => (t.linkPort p).st = .up ∧ (t.linkPort p).lanes = min 8 lanes ∧
        (t.linkPort p).partner = some partner ∧ partner ∈ t.present ∧ (∀ d, d ∈ t.present → d < 2048) ∧ t.mem = s.mem ∧ t.cores = s.cores) ∧
    ((s.linkPort p).st ≠ .down → (s.linkPort p).st ≠ .training ∨ s.idok = false ∨ partner = s.devidx.toNat →
      exec (.linkTraining p lanes partner reach) s = .next s)

/-- R286, R319, R386 to R388, R390, R398, R400, R402, R403: a wait of THR cycles with work for the team's pods asks the team to stop; at the deadline of a swap or a
pre-emption its running cores stop; a team whose wait is over returns with its context. A record is accepted in order; a launch whose
checks pass and whose pods are free starts, each core at its kernel; one whose checks fail ends with their status. An answer is written when the
completion ring has room. (DETAIL of a refused record, also of a refused sequence number, is the byte offset that log entry 24 reads; when an
away team asks to return, log entry 115; an image's sections, log entry 116.) -/
def Obligations.SchedulingEvents : Prop :=
  (∀ (s : State) (c : Nat) (seq : Word), c < 768 → (s.at c).launch = some seq → (∀ i ∈ s.teamCores c, i < 768) → (s.teamCores c).Nodup →
    ((∃ w, (s.at c).waitNow = some w ∧ w.counts = true) → (s.at c).phase = .running → (s.at c).ctx.attached = false → (s.at c).sys.wthr ≠ 0 →
      (s.at c).sys.wthr.toNat ≤ (s.at c).waited → (s.at c).stopReq = none →
      s.queuedFor seq (dieOf c) ((s.teamCores c).map podOf).dedup = true → Yields s (.waitThreshold c) fun t => t.mem = s.mem ∧
        ∀ i ∈ s.teamCores c, (s.at i).phase ≠ .exited → (t.at i).stopReq = some ((s.at i).stopReq.getD (.swap c)) ∧ (t.at i).ctx = (s.at i).ctx ∧
          (t.at i).stopped = ((s.at i).stopped || ((s.at i).waitNow.isSome && !(s.at i).ctx.attached))) ∧
    (∀ i : Instr, (i = .swapDeadline c ∧ ∃ e, (s.at c).stopReq = some (.swap e)) ∨ (i = .preemptDeadline c ∧ (s.at c).stopReq = some .preempt) →
      Yields s i fun t => t.mem = s.mem ∧ ∀ j ∈ s.teamCores c, (s.at j).phase ≠ .exited → (s.at j).ctx.attached = false →
        (t.at j).stopped = true ∧ (t.at j).ctx = (s.at j).ctx)) ∧
  (∀ (s : State) (c : Nat) (m : Image) (l : Launch), c < 768 → s.images.find? (·.home == c) = some m → s.launch m.seq = some l →
    l.stages = [] → s.teamOf m = [m] → (∀ x ∈ s.images, x.seq = m.seq → x.team = m.team → x = m) → s.wantsBack m = true →
    s.fits l.record.ctx [podOf m.place] = true → s.higher (dieOf m.place) l.record.prio = false → m.pins = [] → m.core.launch = some m.seq →
    (State.enterDie l.record.ctx s (dieOf m.place)).imagePoison m = none →
    Yields s (.teamReturn c) fun t => (t.at c).ctx = m.core.ctx ∧ (t.at c).launch = some m.seq ∧
      (t.at c).wait = m.core.wait ∧ (t.at c).phase = (if m.core.phase = .exited then .exited else .running) ∧
      (∀ x, x ∈ t.images ↔ x ∈ s.images ∧ ¬ (x.seq = m.seq ∧ x.home = m.home)) ∧
      ((s.die (dieOf m.place)).ctx = some l.record.ctx → (s.at c).l1 = [] → (s.at c).memq = [] → m.core.l1 = [] → m.core.memq = [] →
        (s.padKeys l m.core = none → (t.at c).pad = m.core.pad) ∧
        ∀ ks, s.padKeys l m.core = some ks → (∀ k ∈ ks, Alone s k.1 k.2) →
          (t.at c).pad = Mem.ofBytes 0 (ks.flatMap fun k => s.mem.read k.1 k.2))) ∧
  (∀ (s : State) (q : Nat), q < 2048 → (s.queue q).accepts = true → s.canonical = true →
    let k := s.queue q
    let a := hostKey (k.rbase + 256 * (k.cidx.toNat % 2 ^ k.rlog.toNat))
    let ws := (List.range 32).map fun j => memNumber s (a + 8 * j) 8
    let r := recordOf ws
    Alone s a 256 → Alone s (hostKey k.mirror) 8 → Yields s (.launchRecordAccept q) fun t => (t.queue q).cidx = k.cidx + 1 ∧
      t.accepted = s.accepted + 1 ∧ t.cores = s.cores ∧ memWith s t (hostKey k.mirror) 8 (k.cidx + 1).toNat ∧
      (s.seqRefused k r.seq = false → recordBad ws = none → (t.queue q).last = some (r.seq.toNat % 2 ^ 53) ∧
        (∃ l ∈ t.launches, l.record = r ∧ l.queue = k.idx ∧ l.order = s.accepted ∧ l.status = .waiting) ∧ t.dones = s.dones) ∧
      (∀ off, s.seqRefused k r.seq = false → recordBad ws = some off → (t.queue q).last = some (r.seq.toNat % 2 ^ 53) ∧
        ∃ d, t.dones = s.dones ++ [d] ∧ d.seq = r.seq ∧ d.status = 18 ∧ d.detail = BitVec.ofNat 64 off) ∧
      (s.seqRefused k r.seq = true → t.launches = s.launches ∧ ∃ d, t.dones = s.dones ++ [d] ∧ d.seq = r.seq ∧ d.status = 18 ∧ d.detail = 8)) ∧
  (∀ (s u : State) (seq : Word) (l : Launch) (p : Plan), s.launch seq = some l → l.record.seq = seq → l.waits = true →
    (∀ x ∈ s.launches, x.record.seq = seq → x = l) →
    (∀ st d, s.planLaunch l = .error (st, d) → st ≠ 12 → Yields s (.launchStart seq) fun t =>
      (∃ x ∈ t.launches, x.record.seq = seq ∧ x.status = .ended st d) ∧ ∃ x ∈ t.dones, x.seq = seq ∧ x.status = st ∧ x.detail = d) ∧
    (s.planLaunch l = .ok (u, p) → u.launches = s.launches → l.rerun = false → p.stages = [] → p.cores.Nodup → (∀ i ∈ p.cores, i < 768) →
      u.fits l.record.ctx (p.cores.map podOf).dedup = true →
      (∀ d ∈ ((p.cores.map podOf).dedup.map (· / 48)).dedup, u.higher d l.record.prio = false ∧ u.returning d l.record.prio = false ∧
        u.earlier d l = false) →
      (∀ k g, l.record.args % 8192 + 128 ≤ 8192 → l.record.args + 128 ≤ 2 ^ 53 → u.peek l.record.root l.record.args = some k →
        u.poisoned k 128 = some g → u.events.en = false → Yields s (.launchStart seq) fun t =>
          ∃ x ∈ t.dones, x.seq = seq ∧ x.status = 12 ∧ x.detail = BitVec.ofNat 64 (g % 2 ^ 52)) ∧
      (u.poison = [] → Yields s (.launchStart seq) fun t => (∃ x, t.launch seq = some x ∧ x.status = .running ∧ x.team = p.cores ∧ x.groups = p.groups ∧
          x.regions = p.regions) ∧
        ∀ n i, p.cores[n]? = some i → (t.at i).phase = .starting ∧ (t.at i).launch = some seq ∧ (t.at i).team = n ∧
          (t.at i).ctx.pc = BitVec.ofNat 64 l.record.entry ∧ (t.at i).ctx.guards = 0 ∧ (t.at i).ctx.fpc = 1 ∧
          (t.at i).ctx.handles = Vector.replicate 32 {} ∧ (t.at i).ctx.tiles = Vector.replicate 32 {} ∧ (t.at i).sys.sup = false ∧
          (t.at i).sys.tvec = l.record.tvec ∧ (t.at i).sys.wthr = l.record.thr ∧ (t.at i).pad = [] ∧ (t.at i).padKiB = l.record.spad))) ∧
  ∀ (s : State) (q : Nat) (d : Done), q < 2048 → s.nextDone q = some d → d.queue = q → s.canonical = true → d.status < 256 →
    let k := s.queue q
    let a := hostKey (k.cbase + 32 * (k.ctail.toNat % 2 ^ k.clog.toNat))
    (k.ctail - k.chead).toNat < 2 ^ k.clog.toNat → Alone s a 32 → Yields s (.completionRecordWrite q) fun t => t.cores = s.cores ∧
      memWith s t a 32 (recordNumber d (1 - k.ctail.toNat / 2 ^ k.clog.toNat % 2)) ∧ (t.queue q).ctail = k.ctail + 1 ∧ t.dones = s.dones.erase d

/-- R100, R396 to R399, R401, R405, R410: host registers take their values, a doorbell that claims more records than the ring holds
disables its queue, a queue is enabled only once the device has its index, which is written only while nothing is enabled or
resident. A command is answered: with status 19 where it names no launch that has not ended, else with 0 once it has its effect. -/
def Obligations.HostEvents : Prop :=
  (∀ (s : State) (q : Nat), q < 2048 →
    (∀ v : BitVec 32,
      (Yields s (.queueDoorbell q v) fun t => (t.queue q).pidx = v ∧ (∀ i, (t.at i).ctx = (s.at i).ctx) ∧
        ((s.queue q).en = true → 2 ^ (s.queue q).rlog.toNat < (v - (s.queue q).cidx).toNat → (t.queue q).en = false) ∧
        ((v - (s.queue q).cidx).toNat ≤ 2 ^ (s.queue q).rlog.toNat → (t.queue q).en = (s.queue q).en ∧ t.cores = s.cores ∧ t.mem = s.mem)) ∧
      (Yields s (.queueCheadWrite q v) fun t => t.queue q = { s.queue q with chead := v } ∧ t.cores = s.cores ∧ t.mem = s.mem) ∧
      Yields s (.eheadWrite v) fun t => t.events = { s.events with ehead := v } ∧ t.cores = s.cores ∧ t.mem = s.mem) ∧
    (s.idok = true → ((s.queue q).pidx - (s.queue q).cidx).toNat ≤ 2 ^ (s.queue q).rlog.toNat → Yields s (.queueEnable q) fun t =>
      (t.queue q).en = true ∧ (t.queue q).last = (if (s.queue q).en then (s.queue q).last else none) ∧ t.mem = s.mem) ∧
    (s.idok = false → exec (.queueEnable q) s = .next s) ∧
    (Yields s (.queueDisable q) fun t => t.queue q = { s.queue q with en := false } ∧ t.cores = s.cores ∧ t.mem = s.mem) ∧
    (∀ v : Word, (s.queue q).en = false → Yields s (.hostRegisterWrite (0x100000 + 32 * q) v) fun t => t.cores = s.cores ∧ t.mem = s.mem ∧
      (t.queue q).rbase = v.toNat / 2 ^ 8 % 2 ^ 44 * 256 ∧ (t.queue q).rlog.toNat = v.toNat / 2 ^ 52 % 2 ^ 4) ∧
    ∀ v : Word, (s.queue q).en = true → exec (.hostRegisterWrite (0x100000 + 32 * q) v) s = .next s) ∧
  (∀ (s : State) (d : BitVec 11),
    ((∀ q ∈ s.queues, q.en = false) → (∀ i < 768, (s.at i).launch = none) → Yields s (.devidxWrite d) fun t =>
      t.devidx = d ∧ t.idok = true ∧ (∀ i < 768, (t.at i).ctx = (s.at i).ctx) ∧
      (Vacant s → s.canonical = true → t.cores = s.cores ∧ (∀ a < 2 ^ 41, t.mem.get (d.toNat * 2 ^ 41 + a) = s.mem.get (s.devidx.toNat * 2 ^ 41 + a)) ∧
        ∀ a, a / 2 ^ 41 ≠ d.toNat → a / 2 ^ 41 ≠ s.devidx.toNat → t.mem.get a = s.mem.get a)) ∧
    ((∃ q ∈ s.queues, q.en = true) ∨ (∃ i < 768, (s.at i).launch ≠ none) → exec (.devidxWrite d) s = .next s)) ∧
  (∀ (s : State) (seq : Word) (k : Launch), s.canonical = true →
    (∀ i kind, (i = .preEmpt seq ∧ kind = 2 ∧ k.record.arg0 ≠ BitVec.allOnes 64) ∨ (i = .resume seq ∧ kind = 3) ∨ (i = .endLaunch seq ∧ kind = 4) →
      Commanded s seq kind k → s.target k.record.arg0 = none → Yields s i fun t => Answered t seq 19 ∧ t.cores = s.cores ∧ t.mem = s.mem) ∧
    (∀ l, Commanded s seq 2 k → k.record.arg0 ≠ BitVec.allOnes 64 → Named s k l → Yields s (.preEmpt seq) fun t => Answered t seq 0 ∧ t.mem = s.mem ∧
      (∃ x, t.launch l.record.seq = some x ∧ x.held = true) ∧
      ∀ i ∈ s.coresOf l.record.seq, (s.at i).phase ≠ .exited → (s.at i).stopReq = none → (t.at i).stopReq = some .preempt) ∧
    (Commanded s seq 2 k → k.record.arg0 = BitVec.allOnes 64 → Yields s (.preEmpt seq) fun t => Answered t seq 0 ∧ t.mem = s.mem ∧
      ∀ l ∈ s.launches, l.onDie (k.record.arg1.toNat % 2) = true → ∃ x ∈ t.launches, x.record.seq = l.record.seq ∧ x.held = true) ∧
    (∀ l, Commanded s seq 3 k → Named s k l → Yields s (.resume seq) fun t => Answered t seq 0 ∧ t.mem = s.mem ∧
      t.launch l.record.seq = some { l with held := false }) ∧
    (∀ l, Commanded s seq 4 k → Named s k l → Yields s (.endLaunch seq) fun t => Answered t seq 0 ∧ Answered t l.record.seq 17 ∧
      ∀ i ∈ s.coresOf l.record.seq, (t.at i).launch = none ∧ (t.at i).phase = .idle) ∧
    (Commanded s seq 5 k → Yields s (.invalidateTlb seq) fun t => Answered t seq 0 ∧ t.mem = s.mem ∧
      (k.record.arg0.getLsbD 63 = false → (∀ i < 768, ∀ e ∈ (t.at i).tlb, e.asid ≠ k.record.arg0.setWidth 12) ∧
        ∀ d < 2, ∀ w ∈ (t.die d).walks, w.asid ≠ k.record.arg0.setWidth 12) ∧
      (k.record.arg0.getLsbD 63 = true → ∀ i < 768, ∀ e, e ∈ (t.at i).tlb ↔
        e ∈ (s.at i).tlb ∧ ¬ (e.asid = k.record.arg0.setWidth 12 ∧ e.vpn = k.record.arg1.toNat / 2 ^ e.bits))) ∧
    (Commanded s seq 6 k → Yields s (.returnLink seq) fun t => Answered t seq 0 ∧ t.mem = s.mem ∧
      t.linkPort (k.record.arg0.toNat % 16) =
        { s.linkPort (k.record.arg0.toNat % 16) with st := .training, lanes := 0, retry := 0, cmark := 0, failing := [] }) ∧
    (Commanded s seq 7 k → Yields s (.powerMode seq) fun t => Answered t seq 0 ∧ t.mem = s.mem ∧ t.power.toNat = k.record.arg0.toNat % 4))

/-- R397, R399, R407 to R411: a warm reset of a device without running launches keeps memory and leaves every core idle
and in service, every link down, every queue disabled, whether a host writes the reset word or a port resets the function; a launch that had not
started is re-run where it has a journal, else answered with status 20; a cold reset loses
HBM and the index, and the firmware runs or is refused; answers that firmware owes are written once one runs;
attestation answers the nonce, and says which firmware runs, under the identity key; heat throttles the device, and a trip halts
it, after which it makes no step of its own. (The model's choices: memory that nothing has written reads 0, log entry 1; what a context holds
after reset, log entry 2; which firmware image is found and what its check computes, log entries 9 and 10; the window of HBM open to the host,
log entry 39; the fault of the step of a halted device, log entry 99; the answers owed after a trip, log entry 37.) -/
def Obligations.ResetEvents : Prop :=
  (∀ (s : State) (i : Instr), i = .wrst ∨ i = .functionLevelReset ∨ (∃ v, i = .hostRegisterWrite 0x8 v ∧ v.getLsbD 0 = true) → Vacant s →
    ((∀ l ∈ s.launches, l.record.kind = 1 → ∃ st d, l.status = .ended st d) → Yields s i fun t => Restarted t ∧ t.mem = s.mem ∧
      t.devidx = s.devidx ∧ t.idok = s.idok ∧ t.launches = s.launches ∧
      t.queues.map (fun q => (q.idx, q.cidx, q.ctail)) = s.queues.map fun q => (q.idx, q.cidx, q.ctail)) ∧
    ∀ l, s.launches = [l] → l.record.kind = 1 → l.status = .waiting → Yields s i fun t => Restarted t ∧
      (l.rerun = true ∨ l.record.jrnl ≠ 0 → t.launches = [{ l with rerun := true }]) ∧
      (l.rerun = false → l.record.jrnl = 0 → Answered t l.record.seq 20)) ∧
  (∀ (s : State) (i : Instr), i = .coldReset ∨ i = .thermalTrip → s.canonical = true → Yields s i fun t => Restarted t ∧ t.launches = [] ∧
    t.dones = [] ∧ t.queues = [] ∧ t.idok = false ∧ t.devidx = 0 ∧ t.present = [] ∧ t.hdm = (0, 768 * 2 ^ 30) ∧ (∀ a < 2 ^ 52, t.mem.get a = 0) ∧
    (i = .coldReset → t.fw = (if firmwareAccepted t.image then 1 else 2)) ∧ (i = .thermalTrip → t.fw = 3) ∧
    (s.launches = [] → s.dones = [] → s.unwritten = [] → ∀ a, 2 ^ 52 ≤ a → t.mem.get a = s.mem.get a) ∧
    (∀ a bs, i = .coldReset → s.launches = [] → s.dones = [] → s.unwritten = [(hostKey a, bs)] → bs ≠ [] →
      (t.fw = 1 → t.unwritten = [] ∧ laid (rowAt (hostKey a) bs) (keepOutside s.mem) t.mem) ∧
      (t.fw = 2 → t.unwritten = s.unwritten ∧ t.mem = keepOutside s.mem)) ∧
    ∀ l, i = .thermalTrip → s.launches = [l] → (∀ st d, l.status ≠ .ended st d) → s.dones = [] → s.unwritten = [] →
      let k := s.queue l.queue
      ∃ bs : List Byte, t.unwritten = [(hostKey (k.cbase + 32 * (k.ctail.toNat % 2 ^ k.clog.toNat)), bs)] ∧ bs.length = 32 ∧
        ofBytesLE bs = l.record.seq.toNat + (1 - k.ctail.toNat / 2 ^ k.clog.toNat % 2) * 2 ^ 64 + 21 * 2 ^ 72) ∧
  (∀ (s : State) (v : BitVec 384), Yields s (.attestationRequest v) fun t => ∃ said : List Byte, said.length = 122 ∧
    t = { s with report := said ++ Config.p384Sign Config.identityKey (Config.sha384 said) ++ Config.identityPublic ++
      Config.identityCertificate } ∧
    ofBytesLE (said.take 48) = (Config.sha384 (s.image.code ++ bytesLE 8 s.image.version.toNat)).toNat ∧
    ofBytesLE ((said.drop 48).take 8) = s.image.version.toNat ∧ ofBytesLE (said.drop 74) = v.toNat) ∧
  (∀ s : State, Yields s .thermalThrottle fun t => t = { s with throttled := true }) ∧
  ∀ (s t : State), exec .thermalTrip s = .next t → t.agenda = [] → step t = .fault .deviceHalted

namespace Sys2Proof.Claims

open Machine

/-! ## Encodings, steps, reset: R16 to R40, R73, R397, R407 -/

/-- Words that the spec's encoding tables spell, lowest byte first, with the instructions they stand for: `NOP`, `ADD s3, s1, s2`,
`ADD s3, s1, −1` under `!g2`, `ENDL`,
`EXIT`, `HLD h1, [s2 − 4]` with DLY 2. -/
def spelled : List (List Byte × Instr) :=
  let bare : Hd := { dly := 0, g := 0, gn := false }
  [([0x01, 0x00, 0x00, 0x00, 0x00, 0x00, 0x00, 0x00], .nop 0),
   ([0x05, 0x00, 0x18, 0x02, 0x01, 0x00, 0x00, 0x00], .add bare 3 1 2),
   ([0x09, 0x80, 0x1C, 0x02, 0x00, 0xF8, 0xFF, 0xFF], .addImm { bare with g := 2, gn := true } 3 1 0x1FFFFF),
   ([0x65, 0x00, 0x00, 0x00, 0x00, 0x00, 0x00, 0x00], .endl bare),
   ([0x79, 0x00, 0x00, 0x00, 0x00, 0x00, 0x00, 0x00], .exit bare),
   ([0x12, 0x0A, 0x08, 0x04, 0x00, 0xE0, 0xFF, 0xFF, 0xFF, 0xFF, 0xFF, 0xFF], .hld { bare with dly := 2 } 1 2 0x1FFFFFFFFFFFFC)]

/-- Whether the whole effect of an instruction is on the scalars, guards and handles of its core (R54 to R63, R69, R71, R171, R172, R177). -/
def registerOnly : Instr → Bool
  | .add _ _ _ _ | .sub _ _ _ _ | .and _ _ _ _ | .or _ _ _ _ | .xor _ _ _ _ | .andn _ _ _ _ | .shl _ _ _ _ | .shr _ _ _ _ | .sar _ _ _ _
  | .rot _ _ _ _ | .min _ _ _ _ | .max _ _ _ _ | .minu _ _ _ _ | .maxu _ _ _ _ | .addImm _ _ _ _ | .subImm _ _ _ _ | .andImm _ _ _ _
  | .orImm _ _ _ _ | .xorImm _ _ _ _ | .andnImm _ _ _ _ | .shlImm _ _ _ _ | .shrImm _ _ _ _ | .sarImm _ _ _ _ | .rotImm _ _ _ _
  | .minImm _ _ _ _ | .maxImm _ _ _ _ | .minuImm _ _ _ _ | .maxuImm _ _ _ _ | .mul _ _ _ _ | .mulh _ _ _ _ | .mulhu _ _ _ _
  | .div _ _ _ _ | .divu _ _ _ _ | .rem _ _ _ _ | .remu _ _ _ _ | .clz _ _ _ | .ctz _ _ _ | .popc _ _ _ | .brev _ _ _ | .bswap _ _ _
  | .mix _ _ _ _ | .bfx _ _ _ _ _ _ | .bfi _ _ _ _ _ | .cmp _ _ _ _ _ _ | .cmpi _ _ _ _ _ _ | .sel _ _ _ _ _ _ | .glog _ _
  | .movi _ _ _ | .movw _ _ _ | .fclass _ _ _ _ | .idr _ _ _ | .hget _ _ _ _ | .hmov _ _ _ | .tstate _ _ _ => true
  | _ => false

/-- Core `i` is about to fetch from a physical address: its own stream, nothing due before the instruction. -/
structure AboutToFetch (s : State) (i pa : Nat) : Prop where
  core : i < 768
  runs : (s.at i).launch.isSome = true ∧ (s.at i).phase = .running ∧ (s.at i).stopped = false ∧ (s.at i).ctx.attached = false ∧
    s.attachedOf i = []
  due : (s.at i).pend = [] ∧ s.dueSend i = none ∧ s.frozenAt i (s.at i).sys.slots.toNat = false ∧ (s.at i).resume = none ∧ (s.at i).faults = [] ∧ (s.at i).sys.owed = 0 ∧ (s.at i).sys.inj = 0
  mapped : ∃ left, s.translate i { ex := true, user := !(s.at i).sys.sup } (s.at i).ctx.pc.toNat = (s, .ok (pa, left))
  place : pa % 32 = (s.at i).ctx.pc.toNat % 32 ∧ pa % 4 = 0
  clean : Ours s (pa / 32 * 32) 32 ∧ s.poisoned (pa / 32 * 32) 32 = none ∧ ∀ x ∈ (s.at i).icache, x.2 = s.mem.read x.1 16

/-- A core but for what its instruction cache holds. -/
def uncached (c : Core) : Core := { c with icache := [] }

end Sys2Proof.Claims

open Sys2Proof Sys2Proof.Machine Sys2Proof.Claims

/-- R16, R17, R19 to R21, R36: words written out from the encoding tables decode to the instructions they stand for. -/
def Obligations.WordsDecode : Prop := ∀ x ∈ spelled, decode x.1 = .ok (x.2, [])

/-- R16 to R40: decoding the bytes of a well-formed instruction, whatever follows them, gives it back with what follows. -/
def Obligations.EncodedInstructionsDecode : Prop :=
  ∀ (i : Instr) (rest : List Byte), WellFormed i = true → i.isWord = true → decode (encode i ++ rest) = .ok (i, rest)

/-- R16 to R29: a decoded instruction is well formed and no other bytes stand for it: encoding it gives the bytes it was read from. -/
def Obligations.DecodedInstructionsEncode : Prop :=
  ∀ (bs rest : List Byte) (i : Instr), decode bs = .ok (i, rest) → WellFormed i = true ∧ encode i ++ rest = bs

/-- R18, R73: when the bytes at the program counter of the core whose turn it is decode to an instruction that lies in one 32-byte
window, the step executes exactly that instruction on that core, its instruction cache apart; what follows a move and the count of
steps (log entry 3) is all that a step adds; what the L2 of a die holds decides no byte (log entry 17). -/
def Obligations.StepRunsDecoded : Prop :=
  ∀ (s : State) (rest : List Move) (i pa n : Nat) (ins : Instr), s.agenda = .issue i :: rest →
    let v : State := { s with agenda := rest }
    AboutToFetch v i pa → decode ((List.range n).map fun k => v.mem.get (pa + k)) = .ok (ins, []) → pa % 32 + n ≤ 32 →
    ∃ u : State, u.mem = v.mem ∧ u.rest = { v.rest with cur := u.cur, dies := u.dies } ∧ u.cur.val = i ∧ (∀ j, j ≠ i → u.at j = v.at j) ∧
      uncached (u.at i) = uncached (v.at i) ∧ step s = (match exec ins u with
        | .next t => .next { State.settle v t with tick := s.tick + 1 }
        | r => r)

/-- R19, R21, R380: an instruction whose whole effect is on the scalars, guards and handles of its core completes in every state, whatever its
guard: it neither waits nor traps, it takes one slot and its delay slots, and of the machine nothing but those registers, the program counter
and the counts of the core changes (how many cycles more than its slots it takes is free, log entry 5). -/
def Obligations.RegisterInstructionsComplete : Prop :=
  ∀ (s : State) (i : Instr) (h : Hd) (n : Nat), WellFormed i = true → registerOnly i = true → hdOf i = some (h, n) → Yields s i fun t =>
    Retires s t (s.after n) h.dly.toNat ∧ Only s t s.cur ∧ (∀ a, t.mem.get a = s.mem.get a) ∧ t.rest = s.rest ∧
    t.core = { s.core with ctx := { s.core.ctx with pc := s.after n, regs := t.core.ctx.regs, guards := t.core.ctx.guards, handles := t.core.ctx.handles },
                           sys := { s.core.sys with slots := t.core.sys.slots, cyc := t.core.sys.cyc },
                           wait := none, waited := 0, stalled := false, handed := false, retires := s.core.retires + 1, pos := s.core.pos + 1 } ∧
    ∃ k, t.core.sys.cyc = s.core.sys.cyc + BitVec.ofNat 64 (1 + h.dly.toNat + k)

/-- R363, R396, R397, R399, R405, R407, R148, R165, R173: after reset every word of BAR0 reads zero, no index is assigned, no queue is enabled, every link is down, no placement
entry is valid, every core is in service, idle and in user mode; its handles and tiles hold their reset values. -/
def Obligations.ResetState : Prop :=
  let s := State.reset
  (∀ off, s.barWord off = 0) ∧ s.idok = false ∧ s.devidx = 0 ∧ s.queues = [] ∧ s.places = [] ∧ s.launches = [] ∧ (∀ p < 16, (s.linkPort p).st = .down) ∧
  ∀ i < 768, (s.at i).phase = .idle ∧ (s.at i).retired = false ∧ (s.at i).launch = none ∧ (s.at i).sys.sup = false ∧
    (∀ k : Fin 32, (s.at i).ctx.handles[k] = {} ∧ (s.at i).ctx.tiles[k] = {})

/-- Reset leaves byte storage in canonical form (the model's own, log entry 1) and no queue enabled without an index (R397). -/
def Obligations.ResetKeepsInvariants : Prop := State.reset.canonical = true ∧ State.reset.queuesGuarded = true

/-- Every step keeps byte storage in canonical form, the model's own invariant (log entry 1): equal contents are equal data. -/
def Obligations.CanonicalKept : Prop := ∀ s t : State, s.canonical = true → step s = .next t → t.canonical = true

/-- R397: every step keeps that no queue is enabled while the device has no index. -/
def Obligations.QueuesGuardedKept : Prop := ∀ s t : State, s.queuesGuarded = true → step s = .next t → t.queuesGuarded = true

open Sys2Proof Sys2Proof.Machine Sys2Proof.Claims

/-- R54 to R59: the integer instructions write the results that the rules give, and complete. -/
def Obligations.IntegerResults : Prop := AluResults ∧ MulDivResults ∧ BitResults

/-- R34, R60 to R63: the compares and selects, and the guard words: what they write, and that nothing else changes. -/
def Obligations.GuardsWritten : Prop := GuardResults ∧ GuardWords

/-- R64, R66, R67, R69: the floating-point instructions write their results and flags, or trap where an enabled flag is raised. -/
def Obligations.FloatArithmetic : Prop := FloatResults ∧ FloatTraps

/-- R53, R74, R75, R378: `LOOP` and `ENDL`: their effect at every depth and their traps, in supervisor mode too. -/
def Obligations.Loops : Prop := LoopSteps ∧ LoopTraps ∧ LoopsInHandlers

/-- R92, R97, R104, R105: loads write the newest bytes, extended as asked; where nothing holds them back they complete. -/
def Obligations.Loads : Prop := LoadResults ∧ LoadsComplete

/-- R11, R88, R95, R106, R378: the kinds of store: logged, performed in the L1, and a supervisor's, performed at once. -/
def Obligations.Stores : Prop := LoggedStores ∧ HeldStores ∧ SupervisorStores

/-- R10, R14, R108, R109: the extent instructions complete, trap on the lengths that R108 refuses, and leave the entries as it says. -/
def Obligations.Extents : Prop := ExtentLengths ∧ ExtentResults

/-- R113, R114: atomics write the old value and memory's new one, indivisibly, and complete. -/
def Obligations.Atomics : Prop := AtomicResults ∧ AtomicsComplete

/-- R165, R172: the fields of a handle are read and written; a value outside its range is refused, with the operand number that log
entry 32 gives. -/
def Obligations.HandleAccess : Prop := HandleFields ∧ HandleRefusals

/-- R173 to R178: transfers and the states of their tile; a tile in another state starves; `TREL` empties one. -/
def Obligations.TileTransfers : Prop := TransfersIssue ∧ TileStarvation ∧ TileReleases

/-- R148, R258, R280 to R282: `ACQ` and `REL`. -/
def Obligations.SyncObjects : Prop := Acquires ∧ AcquireWaits ∧ Releases

/-- R148, R177, R246, R278, R288: the instructions that read the state of an engine, and those that wait for one. -/
def Obligations.WaitsAndStatus : Prop := StatusReads ∧ WaitsForEngines

/-- R70 to R72, R378: the special registers: what is read, what is written, and in which mode. -/
def Obligations.SystemRegisters : Prop := SystemReads ∧ SystemWrites ∧ PrivilegedAccess

/-- R331 to R336, R339, R345, R354 to R356: the placement table's instructions. -/
def Obligations.PlacementTable : Prop := Declarations ∧ Placement

/-- R237, R276 to R279, R288: `MSGSEND`, `MSGWAIT` and `SEND` at issue. -/
def Obligations.MessagesAndSends : Prop := Messages ∧ SendsIssue

/-- R169 to R171: views of a handle, and handles loaded from and stored to plates. -/
def Obligations.HandlesAndPlates : Prop := HandleViews ∧ PlateTransfers

/-- R117 to R125, R187, R195 to R198: the commands of the hatcher, the row statistics and the etcher at issue. -/
def Obligations.HatchingAndEtching : Prop := HatchCommands ∧ EtcherCommands

/-- R76, R77, R378 to R382: the instructions that trap, with a handler, without one and in supervisor mode, and the return from a trap. -/
def Obligations.TrapsAndReturn : Prop := TrapInstructions ∧ TrapsUnhandled ∧ ReturnFromTrap

/-- R205 to R227: the instructions of the lanes: their writes, flags and registers; `VSFU` and its request. -/
def Obligations.LanesAndSfu : Prop := LaneResults ∧ SfuRequests
end

