-- ==== Sys2Proof/Laws/Access.lean ====
section
/-! SUPPORT. What translation answers where the TLB holds the page (R97 to R100), and where the address has a bit above 52 set. -/

namespace Sys2Proof.Machine

/-- A translation that stands in the TLB and permits the access serves it, and changes nothing. -/
theorem State.translate_hit {s : State} {i va : Nat} {n : Need} {e : TlbEntry} (hv : va < 2 ^ 53)
    (hf : findTlb (s.space i).1 (s.space i).2 va (s.at i).tlb = some e) (hr : e.refuses n = none) (hd : n.wr = true → e.dt = true)
    (hu : s.unreachable (e.key va) = none) :
    s.translate i n va = (s, .ok (e.key va, 2 ^ e.bits - va % 2 ^ e.bits)) := by
  have hd' : (!n.wr || e.dt) = true := by cases hw : n.wr <;> simp_all
  have hv' : ¬ 2 ^ 53 ≤ va := by omega
  unfold State.translate
  rw [if_neg hv']
  simp only [hf, Option.isNone_some, Bool.false_eq_true, if_false]
  rw [if_pos (by simp [hr, hd']), State.served, hr]
  generalize e.key va = k at *
  generalize s.unreachable k = u at *
  subst hu
  rfl

/-- An access inside such a page is one piece. -/
theorem State.translateAll_hit {s : State} {i va len : Nat} {n : Need} {e : TlbEntry} (hv : va < 2 ^ 53)
    (hf : findTlb (s.space i).1 (s.space i).2 va (s.at i).tlb = some e) (hr : e.refuses n = none) (hd : n.wr = true → e.dt = true)
    (hu : s.unreachable (e.key va) = none) (hn : 0 < len) (hl : len ≤ 2 ^ e.bits - va % 2 ^ e.bits) :
    s.translateAll i n va len = (s, [(va, e.key va, len)], none) := by
  have h := State.translate_hit hv hf hr hd hu
  simp only [State.translateAll, State.translateFrom, Nat.ne_of_gt hn, if_false, h, Nat.min_eq_left hl, Nat.sub_self]
  cases len / 8192 <;> simp

/-- An address with a bit above 52 set is refused before it is translated (R97). -/
theorem State.translate_high {s : State} {i va : Nat} {n : Need} (hv : 2 ^ 53 ≤ va) :
    s.translate i n va = (s, .error (.trap (accessTrap 2 va))) := by
  simp only [State.translate, if_pos hv]

/-- An extent that starts at such an address is refused whole. -/
theorem State.translateAll_high {s : State} {i va len : Nat} {n : Need} (hv : 2 ^ 53 ≤ va) (hn : 0 < len) :
    s.translateAll i n va len = (s, [], some (.trap (accessTrap 2 va))) := by
  simp only [State.translateAll, State.translateFrom, Nat.ne_of_gt hn, if_false, State.translate_high hv]

/-- An extent of no bytes needs no translation. -/
theorem State.translateAll_none (s : State) (i va : Nat) (n : Need) : s.translateAll i n va 0 = (s, [], none) := by
  simp [State.translateAll, State.translateFrom]

end Sys2Proof.Machine
end

