-- ==== Sys2Proof/Laws/State.lean ====
section
/-! SUPPORT. What each update of the state leaves alone: one lemma per field per update, so that no proof unfolds a record update. -/

namespace Sys2Proof.Machine

/-! ## Reading back -/

@[simp] theorem State.setCore_core (s : State) (c : Core) : (s.setCore c).core = c := by simp [State.setCore, State.core]
@[simp] theorem State.upd_core (s : State) (f : Core → Core) : (s.upd f).core = f s.core := by simp [State.upd]
theorem State.at_eq (s : State) {i : Nat} (h : i < 768) : s.at i = s.cores[i] := by simp [State.at, h]
@[simp] theorem State.at_cur (s : State) : s.at s.cur = s.core := by simp [State.at, State.core]
theorem State.put_at (s : State) {i : Nat} (h : i < 768) (c : Core) : (s.put i c).at i = c := by simp [State.put, State.at, h]
theorem State.put_at_ne (s : State) {i j : Nat} (h : i ≠ j) (c : Core) : (s.put i c).at j = s.at j := by
  unfold State.at State.put
  split
  · simp [h]
  · rfl
theorem State.on_at (s : State) {i : Nat} (h : i < 768) (f : Core → Core) : (s.on i f).at i = f (s.at i) := by simp [State.on, State.put_at, h]
theorem State.on_at_ne (s : State) {i j : Nat} (h : i ≠ j) (f : Core → Core) : (s.on i f).at j = s.at j := by simp [State.on, State.put_at_ne, h]
theorem State.setCore_at_ne (s : State) {j : Nat} (h : s.cur.val ≠ j) (c : Core) : (s.setCore c).at j = s.at j := by
  unfold State.at State.setCore
  split
  · simp [h]
  · rfl
theorem State.upd_at_ne (s : State) {j : Nat} (h : s.cur.val ≠ j) (f : Core → Core) : (s.upd f).at j = s.at j := by
  simp [State.upd, State.setCore_at_ne, h]
@[simp] theorem State.setCore_setCore (s : State) (c d : Core) : (s.setCore c).setCore d = s.setCore d := by simp [State.setCore]
@[simp] theorem State.upd_upd (s : State) (f g : Core → Core) : (s.upd f).upd g = s.upd (fun c => g (f c)) := by
  simp [State.upd]

/-! ## `setCore` -/

@[simp] theorem State.setCore_cur (s : State) (c : Core) : (s.setCore c).cur = s.cur := rfl
@[simp] theorem State.setCore_pods (s : State) (c : Core) : (s.setCore c).pods = s.pods := rfl
@[simp] theorem State.setCore_dies (s : State) (c : Core) : (s.setCore c).dies = s.dies := rfl
@[simp] theorem State.setCore_mem (s : State) (c : Core) : (s.setCore c).mem = s.mem := rfl
@[simp] theorem State.setCore_poison (s : State) (c : Core) : (s.setCore c).poison = s.poison := rfl
@[simp] theorem State.setCore_launches (s : State) (c : Core) : (s.setCore c).launches = s.launches := rfl
@[simp] theorem State.setCore_images (s : State) (c : Core) : (s.setCore c).images = s.images := rfl
@[simp] theorem State.setCore_syncs (s : State) (c : Core) : (s.setCore c).syncs = s.syncs := rfl
@[simp] theorem State.setCore_cbs (s : State) (c : Core) : (s.setCore c).cbs = s.cbs := rfl
@[simp] theorem State.setCore_reports (s : State) (c : Core) : (s.setCore c).reports = s.reports := rfl
@[simp] theorem State.setCore_reporting (s : State) (c : Core) : (s.setCore c).reporting = s.reporting := rfl
@[simp] theorem State.setCore_askers (s : State) (c : Core) : (s.setCore c).askers = s.askers := rfl
@[simp] theorem State.setCore_credits (s : State) (c : Core) : (s.setCore c).credits = s.credits := rfl
@[simp] theorem State.setCore_places (s : State) (c : Core) : (s.setCore c).places = s.places := rfl
@[simp] theorem State.setCore_queues (s : State) (c : Core) : (s.setCore c).queues = s.queues := rfl
@[simp] theorem State.setCore_dones (s : State) (c : Core) : (s.setCore c).dones = s.dones := rfl
@[simp] theorem State.setCore_events (s : State) (c : Core) : (s.setCore c).events = s.events := rfl
@[simp] theorem State.setCore_ports (s : State) (c : Core) : (s.setCore c).ports = s.ports := rfl
@[simp] theorem State.setCore_hostPorts (s : State) (c : Core) : (s.setCore c).hostPorts = s.hostPorts := rfl
@[simp] theorem State.setCore_hdm (s : State) (c : Core) : (s.setCore c).hdm = s.hdm := rfl
@[simp] theorem State.setCore_switch (s : State) (c : Core) : (s.setCore c).switch = s.switch := rfl
@[simp] theorem State.setCore_replies (s : State) (c : Core) : (s.setCore c).replies = s.replies := rfl
@[simp] theorem State.setCore_flows (s : State) (c : Core) : (s.setCore c).flows = s.flows := rfl
@[simp] theorem State.setCore_remotes (s : State) (c : Core) : (s.setCore c).remotes = s.remotes := rfl
@[simp] theorem State.setCore_holding (s : State) (c : Core) : (s.setCore c).holding = s.holding := rfl
@[simp] theorem State.setCore_misses (s : State) (c : Core) : (s.setCore c).misses = s.misses := rfl
@[simp] theorem State.setCore_farWrites (s : State) (c : Core) : (s.setCore c).farWrites = s.farWrites := rfl
@[simp] theorem State.setCore_hostErrors (s : State) (c : Core) : (s.setCore c).hostErrors = s.hostErrors := rfl
@[simp] theorem State.setCore_controls (s : State) (c : Core) : (s.setCore c).controls = s.controls := rfl
@[simp] theorem State.setCore_image (s : State) (c : Core) : (s.setCore c).image = s.image := rfl
@[simp] theorem State.setCore_unwritten (s : State) (c : Core) : (s.setCore c).unwritten = s.unwritten := rfl
@[simp] theorem State.setCore_sends (s : State) (c : Core) : (s.setCore c).sends = s.sends := rfl
@[simp] theorem State.setCore_early (s : State) (c : Core) : (s.setCore c).early = s.early := rfl
@[simp] theorem State.setCore_fw (s : State) (c : Core) : (s.setCore c).fw = s.fw := rfl
@[simp] theorem State.setCore_idok (s : State) (c : Core) : (s.setCore c).idok = s.idok := rfl
@[simp] theorem State.setCore_devidx (s : State) (c : Core) : (s.setCore c).devidx = s.devidx := rfl
@[simp] theorem State.setCore_present (s : State) (c : Core) : (s.setCore c).present = s.present := rfl
@[simp] theorem State.setCore_power (s : State) (c : Core) : (s.setCore c).power = s.power := rfl
@[simp] theorem State.setCore_throttled (s : State) (c : Core) : (s.setCore c).throttled = s.throttled := rfl
@[simp] theorem State.setCore_report (s : State) (c : Core) : (s.setCore c).report = s.report := rfl
@[simp] theorem State.setCore_gens (s : State) (c : Core) : (s.setCore c).gens = s.gens := rfl
@[simp] theorem State.setCore_accepted (s : State) (c : Core) : (s.setCore c).accepted = s.accepted := rfl
@[simp] theorem State.setCore_agenda (s : State) (c : Core) : (s.setCore c).agenda = s.agenda := rfl
@[simp] theorem State.setCore_tick (s : State) (c : Core) : (s.setCore c).tick = s.tick := rfl

/-! ## `upd` -/

@[simp] theorem State.upd_cur (s : State) (f : Core → Core) : (s.upd f).cur = s.cur := rfl
@[simp] theorem State.upd_pods (s : State) (f : Core → Core) : (s.upd f).pods = s.pods := rfl
@[simp] theorem State.upd_dies (s : State) (f : Core → Core) : (s.upd f).dies = s.dies := rfl
@[simp] theorem State.upd_mem (s : State) (f : Core → Core) : (s.upd f).mem = s.mem := rfl
@[simp] theorem State.upd_poison (s : State) (f : Core → Core) : (s.upd f).poison = s.poison := rfl
@[simp] theorem State.upd_launches (s : State) (f : Core → Core) : (s.upd f).launches = s.launches := rfl
@[simp] theorem State.upd_images (s : State) (f : Core → Core) : (s.upd f).images = s.images := rfl
@[simp] theorem State.upd_syncs (s : State) (f : Core → Core) : (s.upd f).syncs = s.syncs := rfl
@[simp] theorem State.upd_cbs (s : State) (f : Core → Core) : (s.upd f).cbs = s.cbs := rfl
@[simp] theorem State.upd_reports (s : State) (f : Core → Core) : (s.upd f).reports = s.reports := rfl
@[simp] theorem State.upd_reporting (s : State) (f : Core → Core) : (s.upd f).reporting = s.reporting := rfl
@[simp] theorem State.upd_askers (s : State) (f : Core → Core) : (s.upd f).askers = s.askers := rfl
@[simp] theorem State.upd_credits (s : State) (f : Core → Core) : (s.upd f).credits = s.credits := rfl
@[simp] theorem State.upd_places (s : State) (f : Core → Core) : (s.upd f).places = s.places := rfl
@[simp] theorem State.upd_queues (s : State) (f : Core → Core) : (s.upd f).queues = s.queues := rfl
@[simp] theorem State.upd_dones (s : State) (f : Core → Core) : (s.upd f).dones = s.dones := rfl
@[simp] theorem State.upd_events (s : State) (f : Core → Core) : (s.upd f).events = s.events := rfl
@[simp] theorem State.upd_ports (s : State) (f : Core → Core) : (s.upd f).ports = s.ports := rfl
@[simp] theorem State.upd_hostPorts (s : State) (f : Core → Core) : (s.upd f).hostPorts = s.hostPorts := rfl
@[simp] theorem State.upd_hdm (s : State) (f : Core → Core) : (s.upd f).hdm = s.hdm := rfl
@[simp] theorem State.upd_switch (s : State) (f : Core → Core) : (s.upd f).switch = s.switch := rfl
@[simp] theorem State.upd_replies (s : State) (f : Core → Core) : (s.upd f).replies = s.replies := rfl
@[simp] theorem State.upd_flows (s : State) (f : Core → Core) : (s.upd f).flows = s.flows := rfl
@[simp] theorem State.upd_remotes (s : State) (f : Core → Core) : (s.upd f).remotes = s.remotes := rfl
@[simp] theorem State.upd_holding (s : State) (f : Core → Core) : (s.upd f).holding = s.holding := rfl
@[simp] theorem State.upd_misses (s : State) (f : Core → Core) : (s.upd f).misses = s.misses := rfl
@[simp] theorem State.upd_farWrites (s : State) (f : Core → Core) : (s.upd f).farWrites = s.farWrites := rfl
@[simp] theorem State.upd_hostErrors (s : State) (f : Core → Core) : (s.upd f).hostErrors = s.hostErrors := rfl
@[simp] theorem State.upd_controls (s : State) (f : Core → Core) : (s.upd f).controls = s.controls := rfl
@[simp] theorem State.upd_image (s : State) (f : Core → Core) : (s.upd f).image = s.image := rfl
@[simp] theorem State.upd_unwritten (s : State) (f : Core → Core) : (s.upd f).unwritten = s.unwritten := rfl
@[simp] theorem State.upd_sends (s : State) (f : Core → Core) : (s.upd f).sends = s.sends := rfl
@[simp] theorem State.upd_early (s : State) (f : Core → Core) : (s.upd f).early = s.early := rfl
@[simp] theorem State.upd_fw (s : State) (f : Core → Core) : (s.upd f).fw = s.fw := rfl
@[simp] theorem State.upd_idok (s : State) (f : Core → Core) : (s.upd f).idok = s.idok := rfl
@[simp] theorem State.upd_devidx (s : State) (f : Core → Core) : (s.upd f).devidx = s.devidx := rfl
@[simp] theorem State.upd_present (s : State) (f : Core → Core) : (s.upd f).present = s.present := rfl
@[simp] theorem State.upd_power (s : State) (f : Core → Core) : (s.upd f).power = s.power := rfl
@[simp] theorem State.upd_throttled (s : State) (f : Core → Core) : (s.upd f).throttled = s.throttled := rfl
@[simp] theorem State.upd_report (s : State) (f : Core → Core) : (s.upd f).report = s.report := rfl
@[simp] theorem State.upd_gens (s : State) (f : Core → Core) : (s.upd f).gens = s.gens := rfl
@[simp] theorem State.upd_accepted (s : State) (f : Core → Core) : (s.upd f).accepted = s.accepted := rfl
@[simp] theorem State.upd_agenda (s : State) (f : Core → Core) : (s.upd f).agenda = s.agenda := rfl
@[simp] theorem State.upd_tick (s : State) (f : Core → Core) : (s.upd f).tick = s.tick := rfl

/-! ## `put` -/

@[simp] theorem State.put_cur (s : State) (i : Nat) (c : Core) : (s.put i c).cur = s.cur := rfl
@[simp] theorem State.put_pods (s : State) (i : Nat) (c : Core) : (s.put i c).pods = s.pods := rfl
@[simp] theorem State.put_dies (s : State) (i : Nat) (c : Core) : (s.put i c).dies = s.dies := rfl
@[simp] theorem State.put_mem (s : State) (i : Nat) (c : Core) : (s.put i c).mem = s.mem := rfl
@[simp] theorem State.put_poison (s : State) (i : Nat) (c : Core) : (s.put i c).poison = s.poison := rfl
@[simp] theorem State.put_launches (s : State) (i : Nat) (c : Core) : (s.put i c).launches = s.launches := rfl
@[simp] theorem State.put_images (s : State) (i : Nat) (c : Core) : (s.put i c).images = s.images := rfl
@[simp] theorem State.put_syncs (s : State) (i : Nat) (c : Core) : (s.put i c).syncs = s.syncs := rfl
@[simp] theorem State.put_cbs (s : State) (i : Nat) (c : Core) : (s.put i c).cbs = s.cbs := rfl
@[simp] theorem State.put_reports (s : State) (i : Nat) (c : Core) : (s.put i c).reports = s.reports := rfl
@[simp] theorem State.put_reporting (s : State) (i : Nat) (c : Core) : (s.put i c).reporting = s.reporting := rfl
@[simp] theorem State.put_askers (s : State) (i : Nat) (c : Core) : (s.put i c).askers = s.askers := rfl
@[simp] theorem State.put_credits (s : State) (i : Nat) (c : Core) : (s.put i c).credits = s.credits := rfl
@[simp] theorem State.put_places (s : State) (i : Nat) (c : Core) : (s.put i c).places = s.places := rfl
@[simp] theorem State.put_queues (s : State) (i : Nat) (c : Core) : (s.put i c).queues = s.queues := rfl
@[simp] theorem State.put_dones (s : State) (i : Nat) (c : Core) : (s.put i c).dones = s.dones := rfl
@[simp] theorem State.put_events (s : State) (i : Nat) (c : Core) : (s.put i c).events = s.events := rfl
@[simp] theorem State.put_ports (s : State) (i : Nat) (c : Core) : (s.put i c).ports = s.ports := rfl
@[simp] theorem State.put_hostPorts (s : State) (i : Nat) (c : Core) : (s.put i c).hostPorts = s.hostPorts := rfl
@[simp] theorem State.put_hdm (s : State) (i : Nat) (c : Core) : (s.put i c).hdm = s.hdm := rfl
@[simp] theorem State.put_switch (s : State) (i : Nat) (c : Core) : (s.put i c).switch = s.switch := rfl
@[simp] theorem State.put_replies (s : State) (i : Nat) (c : Core) : (s.put i c).replies = s.replies := rfl
@[simp] theorem State.put_flows (s : State) (i : Nat) (c : Core) : (s.put i c).flows = s.flows := rfl
@[simp] theorem State.put_remotes (s : State) (i : Nat) (c : Core) : (s.put i c).remotes = s.remotes := rfl
@[simp] theorem State.put_holding (s : State) (i : Nat) (c : Core) : (s.put i c).holding = s.holding := rfl
@[simp] theorem State.put_misses (s : State) (i : Nat) (c : Core) : (s.put i c).misses = s.misses := rfl
@[simp] theorem State.put_farWrites (s : State) (i : Nat) (c : Core) : (s.put i c).farWrites = s.farWrites := rfl
@[simp] theorem State.put_hostErrors (s : State) (i : Nat) (c : Core) : (s.put i c).hostErrors = s.hostErrors := rfl
@[simp] theorem State.put_controls (s : State) (i : Nat) (c : Core) : (s.put i c).controls = s.controls := rfl
@[simp] theorem State.put_image (s : State) (i : Nat) (c : Core) : (s.put i c).image = s.image := rfl
@[simp] theorem State.put_unwritten (s : State) (i : Nat) (c : Core) : (s.put i c).unwritten = s.unwritten := rfl
@[simp] theorem State.put_sends (s : State) (i : Nat) (c : Core) : (s.put i c).sends = s.sends := rfl
@[simp] theorem State.put_early (s : State) (i : Nat) (c : Core) : (s.put i c).early = s.early := rfl
@[simp] theorem State.put_fw (s : State) (i : Nat) (c : Core) : (s.put i c).fw = s.fw := rfl
@[simp] theorem State.put_idok (s : State) (i : Nat) (c : Core) : (s.put i c).idok = s.idok := rfl
@[simp] theorem State.put_devidx (s : State) (i : Nat) (c : Core) : (s.put i c).devidx = s.devidx := rfl
@[simp] theorem State.put_present (s : State) (i : Nat) (c : Core) : (s.put i c).present = s.present := rfl
@[simp] theorem State.put_power (s : State) (i : Nat) (c : Core) : (s.put i c).power = s.power := rfl
@[simp] theorem State.put_throttled (s : State) (i : Nat) (c : Core) : (s.put i c).throttled = s.throttled := rfl
@[simp] theorem State.put_report (s : State) (i : Nat) (c : Core) : (s.put i c).report = s.report := rfl
@[simp] theorem State.put_gens (s : State) (i : Nat) (c : Core) : (s.put i c).gens = s.gens := rfl
@[simp] theorem State.put_accepted (s : State) (i : Nat) (c : Core) : (s.put i c).accepted = s.accepted := rfl
@[simp] theorem State.put_agenda (s : State) (i : Nat) (c : Core) : (s.put i c).agenda = s.agenda := rfl
@[simp] theorem State.put_tick (s : State) (i : Nat) (c : Core) : (s.put i c).tick = s.tick := rfl

/-! ## `on` -/

@[simp] theorem State.on_cur (s : State) (i : Nat) (f : Core → Core) : (s.on i f).cur = s.cur := rfl
@[simp] theorem State.on_pods (s : State) (i : Nat) (f : Core → Core) : (s.on i f).pods = s.pods := rfl
@[simp] theorem State.on_dies (s : State) (i : Nat) (f : Core → Core) : (s.on i f).dies = s.dies := rfl
@[simp] theorem State.on_mem (s : State) (i : Nat) (f : Core → Core) : (s.on i f).mem = s.mem := rfl
@[simp] theorem State.on_poison (s : State) (i : Nat) (f : Core → Core) : (s.on i f).poison = s.poison := rfl
@[simp] theorem State.on_launches (s : State) (i : Nat) (f : Core → Core) : (s.on i f).launches = s.launches := rfl
@[simp] theorem State.on_images (s : State) (i : Nat) (f : Core → Core) : (s.on i f).images = s.images := rfl
@[simp] theorem State.on_syncs (s : State) (i : Nat) (f : Core → Core) : (s.on i f).syncs = s.syncs := rfl
@[simp] theorem State.on_cbs (s : State) (i : Nat) (f : Core → Core) : (s.on i f).cbs = s.cbs := rfl
@[simp] theorem State.on_reports (s : State) (i : Nat) (f : Core → Core) : (s.on i f).reports = s.reports := rfl
@[simp] theorem State.on_reporting (s : State) (i : Nat) (f : Core → Core) : (s.on i f).reporting = s.reporting := rfl
@[simp] theorem State.on_askers (s : State) (i : Nat) (f : Core → Core) : (s.on i f).askers = s.askers := rfl
@[simp] theorem State.on_credits (s : State) (i : Nat) (f : Core → Core) : (s.on i f).credits = s.credits := rfl
@[simp] theorem State.on_places (s : State) (i : Nat) (f : Core → Core) : (s.on i f).places = s.places := rfl
@[simp] theorem State.on_queues (s : State) (i : Nat) (f : Core → Core) : (s.on i f).queues = s.queues := rfl
@[simp] theorem State.on_dones (s : State) (i : Nat) (f : Core → Core) : (s.on i f).dones = s.dones := rfl
@[simp] theorem State.on_events (s : State) (i : Nat) (f : Core → Core) : (s.on i f).events = s.events := rfl
@[simp] theorem State.on_ports (s : State) (i : Nat) (f : Core → Core) : (s.on i f).ports = s.ports := rfl
@[simp] theorem State.on_hostPorts (s : State) (i : Nat) (f : Core → Core) : (s.on i f).hostPorts = s.hostPorts := rfl
@[simp] theorem State.on_hdm (s : State) (i : Nat) (f : Core → Core) : (s.on i f).hdm = s.hdm := rfl
@[simp] theorem State.on_switch (s : State) (i : Nat) (f : Core → Core) : (s.on i f).switch = s.switch := rfl
@[simp] theorem State.on_replies (s : State) (i : Nat) (f : Core → Core) : (s.on i f).replies = s.replies := rfl
@[simp] theorem State.on_flows (s : State) (i : Nat) (f : Core → Core) : (s.on i f).flows = s.flows := rfl
@[simp] theorem State.on_remotes (s : State) (i : Nat) (f : Core → Core) : (s.on i f).remotes = s.remotes := rfl
@[simp] theorem State.on_holding (s : State) (i : Nat) (f : Core → Core) : (s.on i f).holding = s.holding := rfl
@[simp] theorem State.on_misses (s : State) (i : Nat) (f : Core → Core) : (s.on i f).misses = s.misses := rfl
@[simp] theorem State.on_farWrites (s : State) (i : Nat) (f : Core → Core) : (s.on i f).farWrites = s.farWrites := rfl
@[simp] theorem State.on_hostErrors (s : State) (i : Nat) (f : Core → Core) : (s.on i f).hostErrors = s.hostErrors := rfl
@[simp] theorem State.on_controls (s : State) (i : Nat) (f : Core → Core) : (s.on i f).controls = s.controls := rfl
@[simp] theorem State.on_image (s : State) (i : Nat) (f : Core → Core) : (s.on i f).image = s.image := rfl
@[simp] theorem State.on_unwritten (s : State) (i : Nat) (f : Core → Core) : (s.on i f).unwritten = s.unwritten := rfl
@[simp] theorem State.on_sends (s : State) (i : Nat) (f : Core → Core) : (s.on i f).sends = s.sends := rfl
@[simp] theorem State.on_early (s : State) (i : Nat) (f : Core → Core) : (s.on i f).early = s.early := rfl
@[simp] theorem State.on_fw (s : State) (i : Nat) (f : Core → Core) : (s.on i f).fw = s.fw := rfl
@[simp] theorem State.on_idok (s : State) (i : Nat) (f : Core → Core) : (s.on i f).idok = s.idok := rfl
@[simp] theorem State.on_devidx (s : State) (i : Nat) (f : Core → Core) : (s.on i f).devidx = s.devidx := rfl
@[simp] theorem State.on_present (s : State) (i : Nat) (f : Core → Core) : (s.on i f).present = s.present := rfl
@[simp] theorem State.on_power (s : State) (i : Nat) (f : Core → Core) : (s.on i f).power = s.power := rfl
@[simp] theorem State.on_throttled (s : State) (i : Nat) (f : Core → Core) : (s.on i f).throttled = s.throttled := rfl
@[simp] theorem State.on_report (s : State) (i : Nat) (f : Core → Core) : (s.on i f).report = s.report := rfl
@[simp] theorem State.on_gens (s : State) (i : Nat) (f : Core → Core) : (s.on i f).gens = s.gens := rfl
@[simp] theorem State.on_accepted (s : State) (i : Nat) (f : Core → Core) : (s.on i f).accepted = s.accepted := rfl
@[simp] theorem State.on_agenda (s : State) (i : Nat) (f : Core → Core) : (s.on i f).agenda = s.agenda := rfl
@[simp] theorem State.on_tick (s : State) (i : Nat) (f : Core → Core) : (s.on i f).tick = s.tick := rfl

/-! ## `updLaunch` -/

@[simp] theorem State.updLaunch_cores (s : State) (q : Word) (f : Launch → Launch) : (s.updLaunch q f).cores = s.cores := rfl
@[simp] theorem State.updLaunch_cur (s : State) (q : Word) (f : Launch → Launch) : (s.updLaunch q f).cur = s.cur := rfl
@[simp] theorem State.updLaunch_pods (s : State) (q : Word) (f : Launch → Launch) : (s.updLaunch q f).pods = s.pods := rfl
@[simp] theorem State.updLaunch_dies (s : State) (q : Word) (f : Launch → Launch) : (s.updLaunch q f).dies = s.dies := rfl
@[simp] theorem State.updLaunch_mem (s : State) (q : Word) (f : Launch → Launch) : (s.updLaunch q f).mem = s.mem := rfl
@[simp] theorem State.updLaunch_poison (s : State) (q : Word) (f : Launch → Launch) : (s.updLaunch q f).poison = s.poison := rfl
@[simp] theorem State.updLaunch_images (s : State) (q : Word) (f : Launch → Launch) : (s.updLaunch q f).images = s.images := rfl
@[simp] theorem State.updLaunch_syncs (s : State) (q : Word) (f : Launch → Launch) : (s.updLaunch q f).syncs = s.syncs := rfl
@[simp] theorem State.updLaunch_cbs (s : State) (q : Word) (f : Launch → Launch) : (s.updLaunch q f).cbs = s.cbs := rfl
@[simp] theorem State.updLaunch_reports (s : State) (q : Word) (f : Launch → Launch) : (s.updLaunch q f).reports = s.reports := rfl
@[simp] theorem State.updLaunch_reporting (s : State) (q : Word) (f : Launch → Launch) : (s.updLaunch q f).reporting = s.reporting := rfl
@[simp] theorem State.updLaunch_askers (s : State) (q : Word) (f : Launch → Launch) : (s.updLaunch q f).askers = s.askers := rfl
@[simp] theorem State.updLaunch_credits (s : State) (q : Word) (f : Launch → Launch) : (s.updLaunch q f).credits = s.credits := rfl
@[simp] theorem State.updLaunch_places (s : State) (q : Word) (f : Launch → Launch) : (s.updLaunch q f).places = s.places := rfl
@[simp] theorem State.updLaunch_queues (s : State) (q : Word) (f : Launch → Launch) : (s.updLaunch q f).queues = s.queues := rfl
@[simp] theorem State.updLaunch_dones (s : State) (q : Word) (f : Launch → Launch) : (s.updLaunch q f).dones = s.dones := rfl
@[simp] theorem State.updLaunch_events (s : State) (q : Word) (f : Launch → Launch) : (s.updLaunch q f).events = s.events := rfl
@[simp] theorem State.updLaunch_ports (s : State) (q : Word) (f : Launch → Launch) : (s.updLaunch q f).ports = s.ports := rfl
@[simp] theorem State.updLaunch_hostPorts (s : State) (q : Word) (f : Launch → Launch) : (s.updLaunch q f).hostPorts = s.hostPorts := rfl
@[simp] theorem State.updLaunch_hdm (s : State) (q : Word) (f : Launch → Launch) : (s.updLaunch q f).hdm = s.hdm := rfl
@[simp] theorem State.updLaunch_switch (s : State) (q : Word) (f : Launch → Launch) : (s.updLaunch q f).switch = s.switch := rfl
@[simp] theorem State.updLaunch_replies (s : State) (q : Word) (f : Launch → Launch) : (s.updLaunch q f).replies = s.replies := rfl
@[simp] theorem State.updLaunch_flows (s : State) (q : Word) (f : Launch → Launch) : (s.updLaunch q f).flows = s.flows := rfl
@[simp] theorem State.updLaunch_remotes (s : State) (q : Word) (f : Launch → Launch) : (s.updLaunch q f).remotes = s.remotes := rfl
@[simp] theorem State.updLaunch_holding (s : State) (q : Word) (f : Launch → Launch) : (s.updLaunch q f).holding = s.holding := rfl
@[simp] theorem State.updLaunch_misses (s : State) (q : Word) (f : Launch → Launch) : (s.updLaunch q f).misses = s.misses := rfl
@[simp] theorem State.updLaunch_farWrites (s : State) (q : Word) (f : Launch → Launch) : (s.updLaunch q f).farWrites = s.farWrites := rfl
@[simp] theorem State.updLaunch_hostErrors (s : State) (q : Word) (f : Launch → Launch) : (s.updLaunch q f).hostErrors = s.hostErrors := rfl
@[simp] theorem State.updLaunch_controls (s : State) (q : Word) (f : Launch → Launch) : (s.updLaunch q f).controls = s.controls := rfl
@[simp] theorem State.updLaunch_image (s : State) (q : Word) (f : Launch → Launch) : (s.updLaunch q f).image = s.image := rfl
@[simp] theorem State.updLaunch_unwritten (s : State) (q : Word) (f : Launch → Launch) : (s.updLaunch q f).unwritten = s.unwritten := rfl
@[simp] theorem State.updLaunch_sends (s : State) (q : Word) (f : Launch → Launch) : (s.updLaunch q f).sends = s.sends := rfl
@[simp] theorem State.updLaunch_early (s : State) (q : Word) (f : Launch → Launch) : (s.updLaunch q f).early = s.early := rfl
@[simp] theorem State.updLaunch_fw (s : State) (q : Word) (f : Launch → Launch) : (s.updLaunch q f).fw = s.fw := rfl
@[simp] theorem State.updLaunch_idok (s : State) (q : Word) (f : Launch → Launch) : (s.updLaunch q f).idok = s.idok := rfl
@[simp] theorem State.updLaunch_devidx (s : State) (q : Word) (f : Launch → Launch) : (s.updLaunch q f).devidx = s.devidx := rfl
@[simp] theorem State.updLaunch_present (s : State) (q : Word) (f : Launch → Launch) : (s.updLaunch q f).present = s.present := rfl
@[simp] theorem State.updLaunch_power (s : State) (q : Word) (f : Launch → Launch) : (s.updLaunch q f).power = s.power := rfl
@[simp] theorem State.updLaunch_throttled (s : State) (q : Word) (f : Launch → Launch) : (s.updLaunch q f).throttled = s.throttled := rfl
@[simp] theorem State.updLaunch_report (s : State) (q : Word) (f : Launch → Launch) : (s.updLaunch q f).report = s.report := rfl
@[simp] theorem State.updLaunch_gens (s : State) (q : Word) (f : Launch → Launch) : (s.updLaunch q f).gens = s.gens := rfl
@[simp] theorem State.updLaunch_accepted (s : State) (q : Word) (f : Launch → Launch) : (s.updLaunch q f).accepted = s.accepted := rfl
@[simp] theorem State.updLaunch_agenda (s : State) (q : Word) (f : Launch → Launch) : (s.updLaunch q f).agenda = s.agenda := rfl
@[simp] theorem State.updLaunch_tick (s : State) (q : Word) (f : Launch → Launch) : (s.updLaunch q f).tick = s.tick := rfl
@[simp] theorem State.updLaunch_core (s : State) (q : Word) (f : Launch → Launch) : (s.updLaunch q f).core = s.core := rfl
@[simp] theorem State.updLaunch_at (s : State) (q : Word) (f : Launch → Launch) (i : Nat) : (s.updLaunch q f).at i = s.at i := rfl

/-! ## `Core.updCtx` -/

@[simp] theorem Core.updCtx_phase (c : Core) (f : Ctx → Ctx) : (c.updCtx f).phase = c.phase := rfl
@[simp] theorem Core.updCtx_retired (c : Core) (f : Ctx → Ctx) : (c.updCtx f).retired = c.retired := rfl
@[simp] theorem Core.updCtx_launch (c : Core) (f : Ctx → Ctx) : (c.updCtx f).launch = c.launch := rfl
@[simp] theorem Core.updCtx_gen (c : Core) (f : Ctx → Ctx) : (c.updCtx f).gen = c.gen := rfl
@[simp] theorem Core.updCtx_team (c : Core) (f : Ctx → Ctx) : (c.updCtx f).team = c.team := rfl
@[simp] theorem Core.updCtx_proof (c : Core) (f : Ctx → Ctx) : (c.updCtx f).proof = c.proof := rfl
@[simp] theorem Core.updCtx_proofPhase (c : Core) (f : Ctx → Ctx) : (c.updCtx f).proofPhase = c.proofPhase := rfl
@[simp] theorem Core.updCtx_proofTrig (c : Core) (f : Ctx → Ctx) : (c.updCtx f).proofTrig = c.proofTrig := rfl
@[simp] theorem Core.updCtx_sys (c : Core) (f : Ctx → Ctx) : (c.updCtx f).sys = c.sys := rfl
@[simp] theorem Core.updCtx_ident (c : Core) (f : Ctx → Ctx) : (c.updCtx f).ident = c.ident := rfl
@[simp] theorem Core.updCtx_wait (c : Core) (f : Ctx → Ctx) : (c.updCtx f).wait = c.wait := rfl
@[simp] theorem Core.updCtx_resume (c : Core) (f : Ctx → Ctx) : (c.updCtx f).resume = c.resume := rfl
@[simp] theorem Core.updCtx_waited (c : Core) (f : Ctx → Ctx) : (c.updCtx f).waited = c.waited := rfl
@[simp] theorem Core.updCtx_retires (c : Core) (f : Ctx → Ctx) : (c.updCtx f).retires = c.retires := rfl
@[simp] theorem Core.updCtx_pos (c : Core) (f : Ctx → Ctx) : (c.updCtx f).pos = c.pos := rfl
@[simp] theorem Core.updCtx_stopReq (c : Core) (f : Ctx → Ctx) : (c.updCtx f).stopReq = c.stopReq := rfl
@[simp] theorem Core.updCtx_stopped (c : Core) (f : Ctx → Ctx) : (c.updCtx f).stopped = c.stopped := rfl
@[simp] theorem Core.updCtx_exchanging (c : Core) (f : Ctx → Ctx) : (c.updCtx f).exchanging = c.exchanging := rfl
@[simp] theorem Core.updCtx_chainPos (c : Core) (f : Ctx → Ctx) : (c.updCtx f).chainPos = c.chainPos := rfl
@[simp] theorem Core.updCtx_replay (c : Core) (f : Ctx → Ctx) : (c.updCtx f).replay = c.replay := rfl
@[simp] theorem Core.updCtx_handed (c : Core) (f : Ctx → Ctx) : (c.updCtx f).handed = c.handed := rfl
@[simp] theorem Core.updCtx_stalled (c : Core) (f : Ctx → Ctx) : (c.updCtx f).stalled = c.stalled := rfl
@[simp] theorem Core.updCtx_padKiB (c : Core) (f : Ctx → Ctx) : (c.updCtx f).padKiB = c.padKiB := rfl
@[simp] theorem Core.updCtx_pad (c : Core) (f : Ctx → Ctx) : (c.updCtx f).pad = c.pad := rfl
@[simp] theorem Core.updCtx_padUndo (c : Core) (f : Ctx → Ctx) : (c.updCtx f).padUndo = c.padUndo := rfl
@[simp] theorem Core.updCtx_pend (c : Core) (f : Ctx → Ctx) : (c.updCtx f).pend = c.pend := rfl
@[simp] theorem Core.updCtx_pendHeld (c : Core) (f : Ctx → Ctx) : (c.updCtx f).pendHeld = c.pendHeld := rfl
@[simp] theorem Core.updCtx_pendSeq (c : Core) (f : Ctx → Ctx) : (c.updCtx f).pendSeq = c.pendSeq := rfl
@[simp] theorem Core.updCtx_sfu (c : Core) (f : Ctx → Ctx) : (c.updCtx f).sfu = c.sfu := rfl
@[simp] theorem Core.updCtx_reserve (c : Core) (f : Ctx → Ctx) : (c.updCtx f).reserve = c.reserve := rfl
@[simp] theorem Core.updCtx_shared (c : Core) (f : Ctx → Ctx) : (c.updCtx f).shared = c.shared := rfl
@[simp] theorem Core.updCtx_l1 (c : Core) (f : Ctx → Ctx) : (c.updCtx f).l1 = c.l1 := rfl
@[simp] theorem Core.updCtx_l1Count (c : Core) (f : Ctx → Ctx) : (c.updCtx f).l1Count = c.l1Count := rfl
@[simp] theorem Core.updCtx_tlb (c : Core) (f : Ctx → Ctx) : (c.updCtx f).tlb = c.tlb := rfl
@[simp] theorem Core.updCtx_memq (c : Core) (f : Ctx → Ctx) : (c.updCtx f).memq = c.memq := rfl
@[simp] theorem Core.updCtx_log (c : Core) (f : Ctx → Ctx) : (c.updCtx f).log = c.log := rfl
@[simp] theorem Core.updCtx_atoms (c : Core) (f : Ctx → Ctx) : (c.updCtx f).atoms = c.atoms := rfl
@[simp] theorem Core.updCtx_atomPos (c : Core) (f : Ctx → Ctx) : (c.updCtx f).atomPos = c.atomPos := rfl
@[simp] theorem Core.updCtx_farAtom (c : Core) (f : Ctx → Ctx) : (c.updCtx f).farAtom = c.farAtom := rfl
@[simp] theorem Core.updCtx_cbIdx (c : Core) (f : Ctx → Ctx) : (c.updCtx f).cbIdx = c.cbIdx := rfl
@[simp] theorem Core.updCtx_cbPos (c : Core) (f : Ctx → Ctx) : (c.updCtx f).cbPos = c.cbPos := rfl
@[simp] theorem Core.updCtx_icache (c : Core) (f : Ctx → Ctx) : (c.updCtx f).icache = c.icache := rfl
@[simp] theorem Core.updCtx_plates (c : Core) (f : Ctx → Ctx) : (c.updCtx f).plates = c.plates := rfl
@[simp] theorem Core.updCtx_metas (c : Core) (f : Ctx → Ctx) : (c.updCtx f).metas = c.metas := rfl
@[simp] theorem Core.updCtx_copies (c : Core) (f : Ctx → Ctx) : (c.updCtx f).copies = c.copies := rfl
@[simp] theorem Core.updCtx_port (c : Core) (f : Ctx → Ctx) : (c.updCtx f).port = c.port := rfl
@[simp] theorem Core.updCtx_plane (c : Core) (f : Ctx → Ctx) : (c.updCtx f).plane = c.plane := rfl
@[simp] theorem Core.updCtx_stats (c : Core) (f : Ctx → Ctx) : (c.updCtx f).stats = c.stats := rfl
@[simp] theorem Core.updCtx_etch (c : Core) (f : Ctx → Ctx) : (c.updCtx f).etch = c.etch := rfl
@[simp] theorem Core.updCtx_order (c : Core) (f : Ctx → Ctx) : (c.updCtx f).order = c.order := rfl
@[simp] theorem Core.updCtx_arrivals (c : Core) (f : Ctx → Ctx) : (c.updCtx f).arrivals = c.arrivals := rfl
@[simp] theorem Core.updCtx_arrived (c : Core) (f : Ctx → Ctx) : (c.updCtx f).arrived = c.arrived := rfl
@[simp] theorem Core.updCtx_faults (c : Core) (f : Ctx → Ctx) : (c.updCtx f).faults = c.faults := rfl
@[simp] theorem Core.updCtx_window (c : Core) (f : Ctx → Ctx) : (c.updCtx f).window = c.window := rfl
@[simp] theorem Core.updCtx_sent (c : Core) (f : Ctx → Ctx) : (c.updCtx f).sent = c.sent := rfl
@[simp] theorem Core.updCtx_inflow (c : Core) (f : Ctx → Ctx) : (c.updCtx f).inflow = c.inflow := rfl
@[simp] theorem Core.updCtx_inbox (c : Core) (f : Ctx → Ctx) : (c.updCtx f).inbox = c.inbox := rfl
@[simp] theorem Core.updCtx_closed (c : Core) (f : Ctx → Ctx) : (c.updCtx f).closed = c.closed := rfl
@[simp] theorem Core.updCtx_trig (c : Core) (f : Ctx → Ctx) : (c.updCtx f).trig = c.trig := rfl
@[simp] theorem Core.updCtx_faultCount (c : Core) (f : Ctx → Ctx) : (c.updCtx f).faultCount = c.faultCount := rfl
@[simp] theorem Core.updCtx_linkFails (c : Core) (f : Ctx → Ctx) : (c.updCtx f).linkFails = c.linkFails := rfl
@[simp] theorem Core.updCtx_linkOut (c : Core) (f : Ctx → Ctx) : (c.updCtx f).linkOut = c.linkOut := rfl
@[simp] theorem Core.updCtx_lastCtx (c : Core) (f : Ctx → Ctx) : (c.updCtx f).lastCtx = c.lastCtx := rfl
@[simp] theorem Core.updCtx_carried (c : Core) (f : Ctx → Ctx) : (c.updCtx f).carried = c.carried := rfl

/-! ## `Core.updSys` -/

@[simp] theorem Core.updSys_phase (c : Core) (f : Sys → Sys) : (c.updSys f).phase = c.phase := rfl
@[simp] theorem Core.updSys_retired (c : Core) (f : Sys → Sys) : (c.updSys f).retired = c.retired := rfl
@[simp] theorem Core.updSys_launch (c : Core) (f : Sys → Sys) : (c.updSys f).launch = c.launch := rfl
@[simp] theorem Core.updSys_gen (c : Core) (f : Sys → Sys) : (c.updSys f).gen = c.gen := rfl
@[simp] theorem Core.updSys_team (c : Core) (f : Sys → Sys) : (c.updSys f).team = c.team := rfl
@[simp] theorem Core.updSys_ctx (c : Core) (f : Sys → Sys) : (c.updSys f).ctx = c.ctx := rfl
@[simp] theorem Core.updSys_proof (c : Core) (f : Sys → Sys) : (c.updSys f).proof = c.proof := rfl
@[simp] theorem Core.updSys_proofPhase (c : Core) (f : Sys → Sys) : (c.updSys f).proofPhase = c.proofPhase := rfl
@[simp] theorem Core.updSys_proofTrig (c : Core) (f : Sys → Sys) : (c.updSys f).proofTrig = c.proofTrig := rfl
@[simp] theorem Core.updSys_ident (c : Core) (f : Sys → Sys) : (c.updSys f).ident = c.ident := rfl
@[simp] theorem Core.updSys_wait (c : Core) (f : Sys → Sys) : (c.updSys f).wait = c.wait := rfl
@[simp] theorem Core.updSys_resume (c : Core) (f : Sys → Sys) : (c.updSys f).resume = c.resume := rfl
@[simp] theorem Core.updSys_waited (c : Core) (f : Sys → Sys) : (c.updSys f).waited = c.waited := rfl
@[simp] theorem Core.updSys_retires (c : Core) (f : Sys → Sys) : (c.updSys f).retires = c.retires := rfl
@[simp] theorem Core.updSys_pos (c : Core) (f : Sys → Sys) : (c.updSys f).pos = c.pos := rfl
@[simp] theorem Core.updSys_stopReq (c : Core) (f : Sys → Sys) : (c.updSys f).stopReq = c.stopReq := rfl
@[simp] theorem Core.updSys_stopped (c : Core) (f : Sys → Sys) : (c.updSys f).stopped = c.stopped := rfl
@[simp] theorem Core.updSys_exchanging (c : Core) (f : Sys → Sys) : (c.updSys f).exchanging = c.exchanging := rfl
@[simp] theorem Core.updSys_chainPos (c : Core) (f : Sys → Sys) : (c.updSys f).chainPos = c.chainPos := rfl
@[simp] theorem Core.updSys_replay (c : Core) (f : Sys → Sys) : (c.updSys f).replay = c.replay := rfl
@[simp] theorem Core.updSys_handed (c : Core) (f : Sys → Sys) : (c.updSys f).handed = c.handed := rfl
@[simp] theorem Core.updSys_stalled (c : Core) (f : Sys → Sys) : (c.updSys f).stalled = c.stalled := rfl
@[simp] theorem Core.updSys_padKiB (c : Core) (f : Sys → Sys) : (c.updSys f).padKiB = c.padKiB := rfl
@[simp] theorem Core.updSys_pad (c : Core) (f : Sys → Sys) : (c.updSys f).pad = c.pad := rfl
@[simp] theorem Core.updSys_padUndo (c : Core) (f : Sys → Sys) : (c.updSys f).padUndo = c.padUndo := rfl
@[simp] theorem Core.updSys_pend (c : Core) (f : Sys → Sys) : (c.updSys f).pend = c.pend := rfl
@[simp] theorem Core.updSys_pendHeld (c : Core) (f : Sys → Sys) : (c.updSys f).pendHeld = c.pendHeld := rfl
@[simp] theorem Core.updSys_pendSeq (c : Core) (f : Sys → Sys) : (c.updSys f).pendSeq = c.pendSeq := rfl
@[simp] theorem Core.updSys_sfu (c : Core) (f : Sys → Sys) : (c.updSys f).sfu = c.sfu := rfl
@[simp] theorem Core.updSys_reserve (c : Core) (f : Sys → Sys) : (c.updSys f).reserve = c.reserve := rfl
@[simp] theorem Core.updSys_shared (c : Core) (f : Sys → Sys) : (c.updSys f).shared = c.shared := rfl
@[simp] theorem Core.updSys_l1 (c : Core) (f : Sys → Sys) : (c.updSys f).l1 = c.l1 := rfl
@[simp] theorem Core.updSys_l1Count (c : Core) (f : Sys → Sys) : (c.updSys f).l1Count = c.l1Count := rfl
@[simp] theorem Core.updSys_tlb (c : Core) (f : Sys → Sys) : (c.updSys f).tlb = c.tlb := rfl
@[simp] theorem Core.updSys_memq (c : Core) (f : Sys → Sys) : (c.updSys f).memq = c.memq := rfl
@[simp] theorem Core.updSys_log (c : Core) (f : Sys → Sys) : (c.updSys f).log = c.log := rfl
@[simp] theorem Core.updSys_atoms (c : Core) (f : Sys → Sys) : (c.updSys f).atoms = c.atoms := rfl
@[simp] theorem Core.updSys_atomPos (c : Core) (f : Sys → Sys) : (c.updSys f).atomPos = c.atomPos := rfl
@[simp] theorem Core.updSys_farAtom (c : Core) (f : Sys → Sys) : (c.updSys f).farAtom = c.farAtom := rfl
@[simp] theorem Core.updSys_cbIdx (c : Core) (f : Sys → Sys) : (c.updSys f).cbIdx = c.cbIdx := rfl
@[simp] theorem Core.updSys_cbPos (c : Core) (f : Sys → Sys) : (c.updSys f).cbPos = c.cbPos := rfl
@[simp] theorem Core.updSys_icache (c : Core) (f : Sys → Sys) : (c.updSys f).icache = c.icache := rfl
@[simp] theorem Core.updSys_plates (c : Core) (f : Sys → Sys) : (c.updSys f).plates = c.plates := rfl
@[simp] theorem Core.updSys_metas (c : Core) (f : Sys → Sys) : (c.updSys f).metas = c.metas := rfl
@[simp] theorem Core.updSys_copies (c : Core) (f : Sys → Sys) : (c.updSys f).copies = c.copies := rfl
@[simp] theorem Core.updSys_port (c : Core) (f : Sys → Sys) : (c.updSys f).port = c.port := rfl
@[simp] theorem Core.updSys_plane (c : Core) (f : Sys → Sys) : (c.updSys f).plane = c.plane := rfl
@[simp] theorem Core.updSys_stats (c : Core) (f : Sys → Sys) : (c.updSys f).stats = c.stats := rfl
@[simp] theorem Core.updSys_etch (c : Core) (f : Sys → Sys) : (c.updSys f).etch = c.etch := rfl
@[simp] theorem Core.updSys_order (c : Core) (f : Sys → Sys) : (c.updSys f).order = c.order := rfl
@[simp] theorem Core.updSys_arrivals (c : Core) (f : Sys → Sys) : (c.updSys f).arrivals = c.arrivals := rfl
@[simp] theorem Core.updSys_arrived (c : Core) (f : Sys → Sys) : (c.updSys f).arrived = c.arrived := rfl
@[simp] theorem Core.updSys_faults (c : Core) (f : Sys → Sys) : (c.updSys f).faults = c.faults := rfl
@[simp] theorem Core.updSys_window (c : Core) (f : Sys → Sys) : (c.updSys f).window = c.window := rfl
@[simp] theorem Core.updSys_sent (c : Core) (f : Sys → Sys) : (c.updSys f).sent = c.sent := rfl
@[simp] theorem Core.updSys_inflow (c : Core) (f : Sys → Sys) : (c.updSys f).inflow = c.inflow := rfl
@[simp] theorem Core.updSys_inbox (c : Core) (f : Sys → Sys) : (c.updSys f).inbox = c.inbox := rfl
@[simp] theorem Core.updSys_closed (c : Core) (f : Sys → Sys) : (c.updSys f).closed = c.closed := rfl
@[simp] theorem Core.updSys_trig (c : Core) (f : Sys → Sys) : (c.updSys f).trig = c.trig := rfl
@[simp] theorem Core.updSys_faultCount (c : Core) (f : Sys → Sys) : (c.updSys f).faultCount = c.faultCount := rfl
@[simp] theorem Core.updSys_linkFails (c : Core) (f : Sys → Sys) : (c.updSys f).linkFails = c.linkFails := rfl
@[simp] theorem Core.updSys_linkOut (c : Core) (f : Sys → Sys) : (c.updSys f).linkOut = c.linkOut := rfl
@[simp] theorem Core.updSys_lastCtx (c : Core) (f : Sys → Sys) : (c.updSys f).lastCtx = c.lastCtx := rfl
@[simp] theorem Core.updSys_carried (c : Core) (f : Sys → Sys) : (c.updSys f).carried = c.carried := rfl

/-! ## `Core.setS` -/

@[simp] theorem Core.setS_phase (c : Core) (n : SReg) (v : Word) : (c.setS n v).phase = c.phase := by unfold Core.setS; split <;> [rfl; (split <;> rfl)]
@[simp] theorem Core.setS_retired (c : Core) (n : SReg) (v : Word) : (c.setS n v).retired = c.retired := by unfold Core.setS; split <;> [rfl; (split <;> rfl)]
@[simp] theorem Core.setS_launch (c : Core) (n : SReg) (v : Word) : (c.setS n v).launch = c.launch := by unfold Core.setS; split <;> [rfl; (split <;> rfl)]
@[simp] theorem Core.setS_gen (c : Core) (n : SReg) (v : Word) : (c.setS n v).gen = c.gen := by unfold Core.setS; split <;> [rfl; (split <;> rfl)]
@[simp] theorem Core.setS_team (c : Core) (n : SReg) (v : Word) : (c.setS n v).team = c.team := by unfold Core.setS; split <;> [rfl; (split <;> rfl)]
@[simp] theorem Core.setS_proof (c : Core) (n : SReg) (v : Word) : (c.setS n v).proof = c.proof := by unfold Core.setS; split <;> [rfl; (split <;> rfl)]
@[simp] theorem Core.setS_proofPhase (c : Core) (n : SReg) (v : Word) : (c.setS n v).proofPhase = c.proofPhase := by unfold Core.setS; split <;> [rfl; (split <;> rfl)]
@[simp] theorem Core.setS_proofTrig (c : Core) (n : SReg) (v : Word) : (c.setS n v).proofTrig = c.proofTrig := by unfold Core.setS; split <;> [rfl; (split <;> rfl)]
@[simp] theorem Core.setS_ident (c : Core) (n : SReg) (v : Word) : (c.setS n v).ident = c.ident := by unfold Core.setS; split <;> [rfl; (split <;> rfl)]
@[simp] theorem Core.setS_wait (c : Core) (n : SReg) (v : Word) : (c.setS n v).wait = c.wait := by unfold Core.setS; split <;> [rfl; (split <;> rfl)]
@[simp] theorem Core.setS_resume (c : Core) (n : SReg) (v : Word) : (c.setS n v).resume = c.resume := by unfold Core.setS; split <;> [rfl; (split <;> rfl)]
@[simp] theorem Core.setS_waited (c : Core) (n : SReg) (v : Word) : (c.setS n v).waited = c.waited := by unfold Core.setS; split <;> [rfl; (split <;> rfl)]
@[simp] theorem Core.setS_retires (c : Core) (n : SReg) (v : Word) : (c.setS n v).retires = c.retires := by unfold Core.setS; split <;> [rfl; (split <;> rfl)]
@[simp] theorem Core.setS_pos (c : Core) (n : SReg) (v : Word) : (c.setS n v).pos = c.pos := by unfold Core.setS; split <;> [rfl; (split <;> rfl)]
@[simp] theorem Core.setS_stopReq (c : Core) (n : SReg) (v : Word) : (c.setS n v).stopReq = c.stopReq := by unfold Core.setS; split <;> [rfl; (split <;> rfl)]
@[simp] theorem Core.setS_stopped (c : Core) (n : SReg) (v : Word) : (c.setS n v).stopped = c.stopped := by unfold Core.setS; split <;> [rfl; (split <;> rfl)]
@[simp] theorem Core.setS_exchanging (c : Core) (n : SReg) (v : Word) : (c.setS n v).exchanging = c.exchanging := by unfold Core.setS; split <;> [rfl; (split <;> rfl)]
@[simp] theorem Core.setS_chainPos (c : Core) (n : SReg) (v : Word) : (c.setS n v).chainPos = c.chainPos := by unfold Core.setS; split <;> [rfl; (split <;> rfl)]
@[simp] theorem Core.setS_replay (c : Core) (n : SReg) (v : Word) : (c.setS n v).replay = c.replay := by unfold Core.setS; split <;> [rfl; (split <;> rfl)]
@[simp] theorem Core.setS_handed (c : Core) (n : SReg) (v : Word) : (c.setS n v).handed = c.handed := by unfold Core.setS; split <;> [rfl; (split <;> rfl)]
@[simp] theorem Core.setS_stalled (c : Core) (n : SReg) (v : Word) : (c.setS n v).stalled = c.stalled := by unfold Core.setS; split <;> [rfl; (split <;> rfl)]
@[simp] theorem Core.setS_padKiB (c : Core) (n : SReg) (v : Word) : (c.setS n v).padKiB = c.padKiB := by unfold Core.setS; split <;> [rfl; (split <;> rfl)]
@[simp] theorem Core.setS_pad (c : Core) (n : SReg) (v : Word) : (c.setS n v).pad = c.pad := by unfold Core.setS; split <;> [rfl; (split <;> rfl)]
@[simp] theorem Core.setS_padUndo (c : Core) (n : SReg) (v : Word) : (c.setS n v).padUndo = c.padUndo := by unfold Core.setS; split <;> [rfl; (split <;> rfl)]
@[simp] theorem Core.setS_pend (c : Core) (n : SReg) (v : Word) : (c.setS n v).pend = c.pend := by unfold Core.setS; split <;> [rfl; (split <;> rfl)]
@[simp] theorem Core.setS_pendHeld (c : Core) (n : SReg) (v : Word) : (c.setS n v).pendHeld = c.pendHeld := by unfold Core.setS; split <;> [rfl; (split <;> rfl)]
@[simp] theorem Core.setS_pendSeq (c : Core) (n : SReg) (v : Word) : (c.setS n v).pendSeq = c.pendSeq := by unfold Core.setS; split <;> [rfl; (split <;> rfl)]
@[simp] theorem Core.setS_sfu (c : Core) (n : SReg) (v : Word) : (c.setS n v).sfu = c.sfu := by unfold Core.setS; split <;> [rfl; (split <;> rfl)]
@[simp] theorem Core.setS_reserve (c : Core) (n : SReg) (v : Word) : (c.setS n v).reserve = c.reserve := by unfold Core.setS; split <;> [rfl; (split <;> rfl)]
@[simp] theorem Core.setS_shared (c : Core) (n : SReg) (v : Word) : (c.setS n v).shared = c.shared := by unfold Core.setS; split <;> [rfl; (split <;> rfl)]
@[simp] theorem Core.setS_l1 (c : Core) (n : SReg) (v : Word) : (c.setS n v).l1 = c.l1 := by unfold Core.setS; split <;> [rfl; (split <;> rfl)]
@[simp] theorem Core.setS_l1Count (c : Core) (n : SReg) (v : Word) : (c.setS n v).l1Count = c.l1Count := by unfold Core.setS; split <;> [rfl; (split <;> rfl)]
@[simp] theorem Core.setS_tlb (c : Core) (n : SReg) (v : Word) : (c.setS n v).tlb = c.tlb := by unfold Core.setS; split <;> [rfl; (split <;> rfl)]
@[simp] theorem Core.setS_memq (c : Core) (n : SReg) (v : Word) : (c.setS n v).memq = c.memq := by unfold Core.setS; split <;> [rfl; (split <;> rfl)]
@[simp] theorem Core.setS_log (c : Core) (n : SReg) (v : Word) : (c.setS n v).log = c.log := by unfold Core.setS; split <;> [rfl; (split <;> rfl)]
@[simp] theorem Core.setS_atoms (c : Core) (n : SReg) (v : Word) : (c.setS n v).atoms = c.atoms := by unfold Core.setS; split <;> [rfl; (split <;> rfl)]
@[simp] theorem Core.setS_atomPos (c : Core) (n : SReg) (v : Word) : (c.setS n v).atomPos = c.atomPos := by unfold Core.setS; split <;> [rfl; (split <;> rfl)]
@[simp] theorem Core.setS_farAtom (c : Core) (n : SReg) (v : Word) : (c.setS n v).farAtom = c.farAtom := by unfold Core.setS; split <;> [rfl; (split <;> rfl)]
@[simp] theorem Core.setS_cbIdx (c : Core) (n : SReg) (v : Word) : (c.setS n v).cbIdx = c.cbIdx := by unfold Core.setS; split <;> [rfl; (split <;> rfl)]
@[simp] theorem Core.setS_cbPos (c : Core) (n : SReg) (v : Word) : (c.setS n v).cbPos = c.cbPos := by unfold Core.setS; split <;> [rfl; (split <;> rfl)]
@[simp] theorem Core.setS_icache (c : Core) (n : SReg) (v : Word) : (c.setS n v).icache = c.icache := by unfold Core.setS; split <;> [rfl; (split <;> rfl)]
@[simp] theorem Core.setS_plates (c : Core) (n : SReg) (v : Word) : (c.setS n v).plates = c.plates := by unfold Core.setS; split <;> [rfl; (split <;> rfl)]
@[simp] theorem Core.setS_metas (c : Core) (n : SReg) (v : Word) : (c.setS n v).metas = c.metas := by unfold Core.setS; split <;> [rfl; (split <;> rfl)]
@[simp] theorem Core.setS_copies (c : Core) (n : SReg) (v : Word) : (c.setS n v).copies = c.copies := by unfold Core.setS; split <;> [rfl; (split <;> rfl)]
@[simp] theorem Core.setS_port (c : Core) (n : SReg) (v : Word) : (c.setS n v).port = c.port := by unfold Core.setS; split <;> [rfl; (split <;> rfl)]
@[simp] theorem Core.setS_plane (c : Core) (n : SReg) (v : Word) : (c.setS n v).plane = c.plane := by unfold Core.setS; split <;> [rfl; (split <;> rfl)]
@[simp] theorem Core.setS_stats (c : Core) (n : SReg) (v : Word) : (c.setS n v).stats = c.stats := by unfold Core.setS; split <;> [rfl; (split <;> rfl)]
@[simp] theorem Core.setS_etch (c : Core) (n : SReg) (v : Word) : (c.setS n v).etch = c.etch := by unfold Core.setS; split <;> [rfl; (split <;> rfl)]
@[simp] theorem Core.setS_order (c : Core) (n : SReg) (v : Word) : (c.setS n v).order = c.order := by unfold Core.setS; split <;> [rfl; (split <;> rfl)]
@[simp] theorem Core.setS_arrivals (c : Core) (n : SReg) (v : Word) : (c.setS n v).arrivals = c.arrivals := by unfold Core.setS; split <;> [rfl; (split <;> rfl)]
@[simp] theorem Core.setS_arrived (c : Core) (n : SReg) (v : Word) : (c.setS n v).arrived = c.arrived := by unfold Core.setS; split <;> [rfl; (split <;> rfl)]
@[simp] theorem Core.setS_faults (c : Core) (n : SReg) (v : Word) : (c.setS n v).faults = c.faults := by unfold Core.setS; split <;> [rfl; (split <;> rfl)]
@[simp] theorem Core.setS_window (c : Core) (n : SReg) (v : Word) : (c.setS n v).window = c.window := by unfold Core.setS; split <;> [rfl; (split <;> rfl)]
@[simp] theorem Core.setS_sent (c : Core) (n : SReg) (v : Word) : (c.setS n v).sent = c.sent := by unfold Core.setS; split <;> [rfl; (split <;> rfl)]
@[simp] theorem Core.setS_inflow (c : Core) (n : SReg) (v : Word) : (c.setS n v).inflow = c.inflow := by unfold Core.setS; split <;> [rfl; (split <;> rfl)]
@[simp] theorem Core.setS_inbox (c : Core) (n : SReg) (v : Word) : (c.setS n v).inbox = c.inbox := by unfold Core.setS; split <;> [rfl; (split <;> rfl)]
@[simp] theorem Core.setS_closed (c : Core) (n : SReg) (v : Word) : (c.setS n v).closed = c.closed := by unfold Core.setS; split <;> [rfl; (split <;> rfl)]
@[simp] theorem Core.setS_trig (c : Core) (n : SReg) (v : Word) : (c.setS n v).trig = c.trig := by unfold Core.setS; split <;> [rfl; (split <;> rfl)]
@[simp] theorem Core.setS_faultCount (c : Core) (n : SReg) (v : Word) : (c.setS n v).faultCount = c.faultCount := by unfold Core.setS; split <;> [rfl; (split <;> rfl)]
@[simp] theorem Core.setS_linkFails (c : Core) (n : SReg) (v : Word) : (c.setS n v).linkFails = c.linkFails := by unfold Core.setS; split <;> [rfl; (split <;> rfl)]
@[simp] theorem Core.setS_linkOut (c : Core) (n : SReg) (v : Word) : (c.setS n v).linkOut = c.linkOut := by unfold Core.setS; split <;> [rfl; (split <;> rfl)]
@[simp] theorem Core.setS_lastCtx (c : Core) (n : SReg) (v : Word) : (c.setS n v).lastCtx = c.lastCtx := by unfold Core.setS; split <;> [rfl; (split <;> rfl)]
@[simp] theorem Core.setS_carried (c : Core) (n : SReg) (v : Word) : (c.setS n v).carried = c.carried := by unfold Core.setS; split <;> [rfl; (split <;> rfl)]

/-! ## `Core.setG` -/

@[simp] theorem Core.setG_phase (c : Core) (n : GReg) (v : Bool) : (c.setG n v).phase = c.phase := by unfold Core.setG; split <;> rfl
@[simp] theorem Core.setG_retired (c : Core) (n : GReg) (v : Bool) : (c.setG n v).retired = c.retired := by unfold Core.setG; split <;> rfl
@[simp] theorem Core.setG_launch (c : Core) (n : GReg) (v : Bool) : (c.setG n v).launch = c.launch := by unfold Core.setG; split <;> rfl
@[simp] theorem Core.setG_gen (c : Core) (n : GReg) (v : Bool) : (c.setG n v).gen = c.gen := by unfold Core.setG; split <;> rfl
@[simp] theorem Core.setG_team (c : Core) (n : GReg) (v : Bool) : (c.setG n v).team = c.team := by unfold Core.setG; split <;> rfl
@[simp] theorem Core.setG_proof (c : Core) (n : GReg) (v : Bool) : (c.setG n v).proof = c.proof := by unfold Core.setG; split <;> rfl
@[simp] theorem Core.setG_proofPhase (c : Core) (n : GReg) (v : Bool) : (c.setG n v).proofPhase = c.proofPhase := by unfold Core.setG; split <;> rfl
@[simp] theorem Core.setG_proofTrig (c : Core) (n : GReg) (v : Bool) : (c.setG n v).proofTrig = c.proofTrig := by unfold Core.setG; split <;> rfl
@[simp] theorem Core.setG_sys (c : Core) (n : GReg) (v : Bool) : (c.setG n v).sys = c.sys := by unfold Core.setG; split <;> rfl
@[simp] theorem Core.setG_ident (c : Core) (n : GReg) (v : Bool) : (c.setG n v).ident = c.ident := by unfold Core.setG; split <;> rfl
@[simp] theorem Core.setG_wait (c : Core) (n : GReg) (v : Bool) : (c.setG n v).wait = c.wait := by unfold Core.setG; split <;> rfl
@[simp] theorem Core.setG_resume (c : Core) (n : GReg) (v : Bool) : (c.setG n v).resume = c.resume := by unfold Core.setG; split <;> rfl
@[simp] theorem Core.setG_waited (c : Core) (n : GReg) (v : Bool) : (c.setG n v).waited = c.waited := by unfold Core.setG; split <;> rfl
@[simp] theorem Core.setG_retires (c : Core) (n : GReg) (v : Bool) : (c.setG n v).retires = c.retires := by unfold Core.setG; split <;> rfl
@[simp] theorem Core.setG_pos (c : Core) (n : GReg) (v : Bool) : (c.setG n v).pos = c.pos := by unfold Core.setG; split <;> rfl
@[simp] theorem Core.setG_stopReq (c : Core) (n : GReg) (v : Bool) : (c.setG n v).stopReq = c.stopReq := by unfold Core.setG; split <;> rfl
@[simp] theorem Core.setG_stopped (c : Core) (n : GReg) (v : Bool) : (c.setG n v).stopped = c.stopped := by unfold Core.setG; split <;> rfl
@[simp] theorem Core.setG_exchanging (c : Core) (n : GReg) (v : Bool) : (c.setG n v).exchanging = c.exchanging := by unfold Core.setG; split <;> rfl
@[simp] theorem Core.setG_chainPos (c : Core) (n : GReg) (v : Bool) : (c.setG n v).chainPos = c.chainPos := by unfold Core.setG; split <;> rfl
@[simp] theorem Core.setG_replay (c : Core) (n : GReg) (v : Bool) : (c.setG n v).replay = c.replay := by unfold Core.setG; split <;> rfl
@[simp] theorem Core.setG_handed (c : Core) (n : GReg) (v : Bool) : (c.setG n v).handed = c.handed := by unfold Core.setG; split <;> rfl
@[simp] theorem Core.setG_stalled (c : Core) (n : GReg) (v : Bool) : (c.setG n v).stalled = c.stalled := by unfold Core.setG; split <;> rfl
@[simp] theorem Core.setG_padKiB (c : Core) (n : GReg) (v : Bool) : (c.setG n v).padKiB = c.padKiB := by unfold Core.setG; split <;> rfl
@[simp] theorem Core.setG_pad (c : Core) (n : GReg) (v : Bool) : (c.setG n v).pad = c.pad := by unfold Core.setG; split <;> rfl
@[simp] theorem Core.setG_padUndo (c : Core) (n : GReg) (v : Bool) : (c.setG n v).padUndo = c.padUndo := by unfold Core.setG; split <;> rfl
@[simp] theorem Core.setG_pend (c : Core) (n : GReg) (v : Bool) : (c.setG n v).pend = c.pend := by unfold Core.setG; split <;> rfl
@[simp] theorem Core.setG_pendHeld (c : Core) (n : GReg) (v : Bool) : (c.setG n v).pendHeld = c.pendHeld := by unfold Core.setG; split <;> rfl
@[simp] theorem Core.setG_pendSeq (c : Core) (n : GReg) (v : Bool) : (c.setG n v).pendSeq = c.pendSeq := by unfold Core.setG; split <;> rfl
@[simp] theorem Core.setG_sfu (c : Core) (n : GReg) (v : Bool) : (c.setG n v).sfu = c.sfu := by unfold Core.setG; split <;> rfl
@[simp] theorem Core.setG_reserve (c : Core) (n : GReg) (v : Bool) : (c.setG n v).reserve = c.reserve := by unfold Core.setG; split <;> rfl
@[simp] theorem Core.setG_shared (c : Core) (n : GReg) (v : Bool) : (c.setG n v).shared = c.shared := by unfold Core.setG; split <;> rfl
@[simp] theorem Core.setG_l1 (c : Core) (n : GReg) (v : Bool) : (c.setG n v).l1 = c.l1 := by unfold Core.setG; split <;> rfl
@[simp] theorem Core.setG_l1Count (c : Core) (n : GReg) (v : Bool) : (c.setG n v).l1Count = c.l1Count := by unfold Core.setG; split <;> rfl
@[simp] theorem Core.setG_tlb (c : Core) (n : GReg) (v : Bool) : (c.setG n v).tlb = c.tlb := by unfold Core.setG; split <;> rfl
@[simp] theorem Core.setG_memq (c : Core) (n : GReg) (v : Bool) : (c.setG n v).memq = c.memq := by unfold Core.setG; split <;> rfl
@[simp] theorem Core.setG_log (c : Core) (n : GReg) (v : Bool) : (c.setG n v).log = c.log := by unfold Core.setG; split <;> rfl
@[simp] theorem Core.setG_atoms (c : Core) (n : GReg) (v : Bool) : (c.setG n v).atoms = c.atoms := by unfold Core.setG; split <;> rfl
@[simp] theorem Core.setG_atomPos (c : Core) (n : GReg) (v : Bool) : (c.setG n v).atomPos = c.atomPos := by unfold Core.setG; split <;> rfl
@[simp] theorem Core.setG_farAtom (c : Core) (n : GReg) (v : Bool) : (c.setG n v).farAtom = c.farAtom := by unfold Core.setG; split <;> rfl
@[simp] theorem Core.setG_cbIdx (c : Core) (n : GReg) (v : Bool) : (c.setG n v).cbIdx = c.cbIdx := by unfold Core.setG; split <;> rfl
@[simp] theorem Core.setG_cbPos (c : Core) (n : GReg) (v : Bool) : (c.setG n v).cbPos = c.cbPos := by unfold Core.setG; split <;> rfl
@[simp] theorem Core.setG_icache (c : Core) (n : GReg) (v : Bool) : (c.setG n v).icache = c.icache := by unfold Core.setG; split <;> rfl
@[simp] theorem Core.setG_plates (c : Core) (n : GReg) (v : Bool) : (c.setG n v).plates = c.plates := by unfold Core.setG; split <;> rfl
@[simp] theorem Core.setG_metas (c : Core) (n : GReg) (v : Bool) : (c.setG n v).metas = c.metas := by unfold Core.setG; split <;> rfl
@[simp] theorem Core.setG_copies (c : Core) (n : GReg) (v : Bool) : (c.setG n v).copies = c.copies := by unfold Core.setG; split <;> rfl
@[simp] theorem Core.setG_port (c : Core) (n : GReg) (v : Bool) : (c.setG n v).port = c.port := by unfold Core.setG; split <;> rfl
@[simp] theorem Core.setG_plane (c : Core) (n : GReg) (v : Bool) : (c.setG n v).plane = c.plane := by unfold Core.setG; split <;> rfl
@[simp] theorem Core.setG_stats (c : Core) (n : GReg) (v : Bool) : (c.setG n v).stats = c.stats := by unfold Core.setG; split <;> rfl
@[simp] theorem Core.setG_etch (c : Core) (n : GReg) (v : Bool) : (c.setG n v).etch = c.etch := by unfold Core.setG; split <;> rfl
@[simp] theorem Core.setG_order (c : Core) (n : GReg) (v : Bool) : (c.setG n v).order = c.order := by unfold Core.setG; split <;> rfl
@[simp] theorem Core.setG_arrivals (c : Core) (n : GReg) (v : Bool) : (c.setG n v).arrivals = c.arrivals := by unfold Core.setG; split <;> rfl
@[simp] theorem Core.setG_arrived (c : Core) (n : GReg) (v : Bool) : (c.setG n v).arrived = c.arrived := by unfold Core.setG; split <;> rfl
@[simp] theorem Core.setG_faults (c : Core) (n : GReg) (v : Bool) : (c.setG n v).faults = c.faults := by unfold Core.setG; split <;> rfl
@[simp] theorem Core.setG_window (c : Core) (n : GReg) (v : Bool) : (c.setG n v).window = c.window := by unfold Core.setG; split <;> rfl
@[simp] theorem Core.setG_sent (c : Core) (n : GReg) (v : Bool) : (c.setG n v).sent = c.sent := by unfold Core.setG; split <;> rfl
@[simp] theorem Core.setG_inflow (c : Core) (n : GReg) (v : Bool) : (c.setG n v).inflow = c.inflow := by unfold Core.setG; split <;> rfl
@[simp] theorem Core.setG_inbox (c : Core) (n : GReg) (v : Bool) : (c.setG n v).inbox = c.inbox := by unfold Core.setG; split <;> rfl
@[simp] theorem Core.setG_closed (c : Core) (n : GReg) (v : Bool) : (c.setG n v).closed = c.closed := by unfold Core.setG; split <;> rfl
@[simp] theorem Core.setG_trig (c : Core) (n : GReg) (v : Bool) : (c.setG n v).trig = c.trig := by unfold Core.setG; split <;> rfl
@[simp] theorem Core.setG_faultCount (c : Core) (n : GReg) (v : Bool) : (c.setG n v).faultCount = c.faultCount := by unfold Core.setG; split <;> rfl
@[simp] theorem Core.setG_linkFails (c : Core) (n : GReg) (v : Bool) : (c.setG n v).linkFails = c.linkFails := by unfold Core.setG; split <;> rfl
@[simp] theorem Core.setG_linkOut (c : Core) (n : GReg) (v : Bool) : (c.setG n v).linkOut = c.linkOut := by unfold Core.setG; split <;> rfl
@[simp] theorem Core.setG_lastCtx (c : Core) (n : GReg) (v : Bool) : (c.setG n v).lastCtx = c.lastCtx := by unfold Core.setG; split <;> rfl
@[simp] theorem Core.setG_carried (c : Core) (n : GReg) (v : Bool) : (c.setG n v).carried = c.carried := by unfold Core.setG; split <;> rfl

/-! ## `Core.setH` -/

@[simp] theorem Core.setH_phase (c : Core) (n : HReg) (h : Handle) : (c.setH n h).phase = c.phase := rfl
@[simp] theorem Core.setH_retired (c : Core) (n : HReg) (h : Handle) : (c.setH n h).retired = c.retired := rfl
@[simp] theorem Core.setH_launch (c : Core) (n : HReg) (h : Handle) : (c.setH n h).launch = c.launch := rfl
@[simp] theorem Core.setH_gen (c : Core) (n : HReg) (h : Handle) : (c.setH n h).gen = c.gen := rfl
@[simp] theorem Core.setH_team (c : Core) (n : HReg) (h : Handle) : (c.setH n h).team = c.team := rfl
@[simp] theorem Core.setH_proof (c : Core) (n : HReg) (h : Handle) : (c.setH n h).proof = c.proof := rfl
@[simp] theorem Core.setH_proofPhase (c : Core) (n : HReg) (h : Handle) : (c.setH n h).proofPhase = c.proofPhase := rfl
@[simp] theorem Core.setH_proofTrig (c : Core) (n : HReg) (h : Handle) : (c.setH n h).proofTrig = c.proofTrig := rfl
@[simp] theorem Core.setH_sys (c : Core) (n : HReg) (h : Handle) : (c.setH n h).sys = c.sys := rfl
@[simp] theorem Core.setH_ident (c : Core) (n : HReg) (h : Handle) : (c.setH n h).ident = c.ident := rfl
@[simp] theorem Core.setH_wait (c : Core) (n : HReg) (h : Handle) : (c.setH n h).wait = c.wait := rfl
@[simp] theorem Core.setH_resume (c : Core) (n : HReg) (h : Handle) : (c.setH n h).resume = c.resume := rfl
@[simp] theorem Core.setH_waited (c : Core) (n : HReg) (h : Handle) : (c.setH n h).waited = c.waited := rfl
@[simp] theorem Core.setH_retires (c : Core) (n : HReg) (h : Handle) : (c.setH n h).retires = c.retires := rfl
@[simp] theorem Core.setH_pos (c : Core) (n : HReg) (h : Handle) : (c.setH n h).pos = c.pos := rfl
@[simp] theorem Core.setH_stopReq (c : Core) (n : HReg) (h : Handle) : (c.setH n h).stopReq = c.stopReq := rfl
@[simp] theorem Core.setH_stopped (c : Core) (n : HReg) (h : Handle) : (c.setH n h).stopped = c.stopped := rfl
@[simp] theorem Core.setH_exchanging (c : Core) (n : HReg) (h : Handle) : (c.setH n h).exchanging = c.exchanging := rfl
@[simp] theorem Core.setH_chainPos (c : Core) (n : HReg) (h : Handle) : (c.setH n h).chainPos = c.chainPos := rfl
@[simp] theorem Core.setH_replay (c : Core) (n : HReg) (h : Handle) : (c.setH n h).replay = c.replay := rfl
@[simp] theorem Core.setH_handed (c : Core) (n : HReg) (h : Handle) : (c.setH n h).handed = c.handed := rfl
@[simp] theorem Core.setH_stalled (c : Core) (n : HReg) (h : Handle) : (c.setH n h).stalled = c.stalled := rfl
@[simp] theorem Core.setH_padKiB (c : Core) (n : HReg) (h : Handle) : (c.setH n h).padKiB = c.padKiB := rfl
@[simp] theorem Core.setH_pad (c : Core) (n : HReg) (h : Handle) : (c.setH n h).pad = c.pad := rfl
@[simp] theorem Core.setH_padUndo (c : Core) (n : HReg) (h : Handle) : (c.setH n h).padUndo = c.padUndo := rfl
@[simp] theorem Core.setH_pend (c : Core) (n : HReg) (h : Handle) : (c.setH n h).pend = c.pend := rfl
@[simp] theorem Core.setH_pendHeld (c : Core) (n : HReg) (h : Handle) : (c.setH n h).pendHeld = c.pendHeld := rfl
@[simp] theorem Core.setH_pendSeq (c : Core) (n : HReg) (h : Handle) : (c.setH n h).pendSeq = c.pendSeq := rfl
@[simp] theorem Core.setH_sfu (c : Core) (n : HReg) (h : Handle) : (c.setH n h).sfu = c.sfu := rfl
@[simp] theorem Core.setH_reserve (c : Core) (n : HReg) (h : Handle) : (c.setH n h).reserve = c.reserve := rfl
@[simp] theorem Core.setH_shared (c : Core) (n : HReg) (h : Handle) : (c.setH n h).shared = c.shared := rfl
@[simp] theorem Core.setH_l1 (c : Core) (n : HReg) (h : Handle) : (c.setH n h).l1 = c.l1 := rfl
@[simp] theorem Core.setH_l1Count (c : Core) (n : HReg) (h : Handle) : (c.setH n h).l1Count = c.l1Count := rfl
@[simp] theorem Core.setH_tlb (c : Core) (n : HReg) (h : Handle) : (c.setH n h).tlb = c.tlb := rfl
@[simp] theorem Core.setH_memq (c : Core) (n : HReg) (h : Handle) : (c.setH n h).memq = c.memq := rfl
@[simp] theorem Core.setH_log (c : Core) (n : HReg) (h : Handle) : (c.setH n h).log = c.log := rfl
@[simp] theorem Core.setH_atoms (c : Core) (n : HReg) (h : Handle) : (c.setH n h).atoms = c.atoms := rfl
@[simp] theorem Core.setH_atomPos (c : Core) (n : HReg) (h : Handle) : (c.setH n h).atomPos = c.atomPos := rfl
@[simp] theorem Core.setH_farAtom (c : Core) (n : HReg) (h : Handle) : (c.setH n h).farAtom = c.farAtom := rfl
@[simp] theorem Core.setH_cbIdx (c : Core) (n : HReg) (h : Handle) : (c.setH n h).cbIdx = c.cbIdx := rfl
@[simp] theorem Core.setH_cbPos (c : Core) (n : HReg) (h : Handle) : (c.setH n h).cbPos = c.cbPos := rfl
@[simp] theorem Core.setH_icache (c : Core) (n : HReg) (h : Handle) : (c.setH n h).icache = c.icache := rfl
@[simp] theorem Core.setH_plates (c : Core) (n : HReg) (h : Handle) : (c.setH n h).plates = c.plates := rfl
@[simp] theorem Core.setH_metas (c : Core) (n : HReg) (h : Handle) : (c.setH n h).metas = c.metas := rfl
@[simp] theorem Core.setH_copies (c : Core) (n : HReg) (h : Handle) : (c.setH n h).copies = c.copies := rfl
@[simp] theorem Core.setH_port (c : Core) (n : HReg) (h : Handle) : (c.setH n h).port = c.port := rfl
@[simp] theorem Core.setH_plane (c : Core) (n : HReg) (h : Handle) : (c.setH n h).plane = c.plane := rfl
@[simp] theorem Core.setH_stats (c : Core) (n : HReg) (h : Handle) : (c.setH n h).stats = c.stats := rfl
@[simp] theorem Core.setH_etch (c : Core) (n : HReg) (h : Handle) : (c.setH n h).etch = c.etch := rfl
@[simp] theorem Core.setH_order (c : Core) (n : HReg) (h : Handle) : (c.setH n h).order = c.order := rfl
@[simp] theorem Core.setH_arrivals (c : Core) (n : HReg) (h : Handle) : (c.setH n h).arrivals = c.arrivals := rfl
@[simp] theorem Core.setH_arrived (c : Core) (n : HReg) (h : Handle) : (c.setH n h).arrived = c.arrived := rfl
@[simp] theorem Core.setH_faults (c : Core) (n : HReg) (h : Handle) : (c.setH n h).faults = c.faults := rfl
@[simp] theorem Core.setH_window (c : Core) (n : HReg) (h : Handle) : (c.setH n h).window = c.window := rfl
@[simp] theorem Core.setH_sent (c : Core) (n : HReg) (h : Handle) : (c.setH n h).sent = c.sent := rfl
@[simp] theorem Core.setH_inflow (c : Core) (n : HReg) (h : Handle) : (c.setH n h).inflow = c.inflow := rfl
@[simp] theorem Core.setH_inbox (c : Core) (n : HReg) (h : Handle) : (c.setH n h).inbox = c.inbox := rfl
@[simp] theorem Core.setH_closed (c : Core) (n : HReg) (h : Handle) : (c.setH n h).closed = c.closed := rfl
@[simp] theorem Core.setH_trig (c : Core) (n : HReg) (h : Handle) : (c.setH n h).trig = c.trig := rfl
@[simp] theorem Core.setH_faultCount (c : Core) (n : HReg) (h : Handle) : (c.setH n h).faultCount = c.faultCount := rfl
@[simp] theorem Core.setH_linkFails (c : Core) (n : HReg) (h : Handle) : (c.setH n h).linkFails = c.linkFails := rfl
@[simp] theorem Core.setH_linkOut (c : Core) (n : HReg) (h : Handle) : (c.setH n h).linkOut = c.linkOut := rfl
@[simp] theorem Core.setH_lastCtx (c : Core) (n : HReg) (h : Handle) : (c.setH n h).lastCtx = c.lastCtx := rfl
@[simp] theorem Core.setH_carried (c : Core) (n : HReg) (h : Handle) : (c.setH n h).carried = c.carried := rfl

/-! ## `Core.retire` -/

@[simp] theorem Core.retire_phase (c : Core) (d : Nat) (n : Word) (k : Nat) : (Core.retire d n k c).phase = c.phase := rfl
@[simp] theorem Core.retire_retired (c : Core) (d : Nat) (n : Word) (k : Nat) : (Core.retire d n k c).retired = c.retired := rfl
@[simp] theorem Core.retire_launch (c : Core) (d : Nat) (n : Word) (k : Nat) : (Core.retire d n k c).launch = c.launch := rfl
@[simp] theorem Core.retire_gen (c : Core) (d : Nat) (n : Word) (k : Nat) : (Core.retire d n k c).gen = c.gen := rfl
@[simp] theorem Core.retire_team (c : Core) (d : Nat) (n : Word) (k : Nat) : (Core.retire d n k c).team = c.team := rfl
@[simp] theorem Core.retire_proof (c : Core) (d : Nat) (n : Word) (k : Nat) : (Core.retire d n k c).proof = c.proof := rfl
@[simp] theorem Core.retire_proofPhase (c : Core) (d : Nat) (n : Word) (k : Nat) : (Core.retire d n k c).proofPhase = c.proofPhase := rfl
@[simp] theorem Core.retire_proofTrig (c : Core) (d : Nat) (n : Word) (k : Nat) : (Core.retire d n k c).proofTrig = c.proofTrig := rfl
@[simp] theorem Core.retire_ident (c : Core) (d : Nat) (n : Word) (k : Nat) : (Core.retire d n k c).ident = c.ident := rfl
@[simp] theorem Core.retire_resume (c : Core) (d : Nat) (n : Word) (k : Nat) : (Core.retire d n k c).resume = c.resume := rfl
@[simp] theorem Core.retire_stopReq (c : Core) (d : Nat) (n : Word) (k : Nat) : (Core.retire d n k c).stopReq = c.stopReq := rfl
@[simp] theorem Core.retire_stopped (c : Core) (d : Nat) (n : Word) (k : Nat) : (Core.retire d n k c).stopped = c.stopped := rfl
@[simp] theorem Core.retire_exchanging (c : Core) (d : Nat) (n : Word) (k : Nat) : (Core.retire d n k c).exchanging = c.exchanging := rfl
@[simp] theorem Core.retire_chainPos (c : Core) (d : Nat) (n : Word) (k : Nat) : (Core.retire d n k c).chainPos = c.chainPos := rfl
@[simp] theorem Core.retire_replay (c : Core) (d : Nat) (n : Word) (k : Nat) : (Core.retire d n k c).replay = c.replay := rfl
@[simp] theorem Core.retire_padKiB (c : Core) (d : Nat) (n : Word) (k : Nat) : (Core.retire d n k c).padKiB = c.padKiB := rfl
@[simp] theorem Core.retire_pad (c : Core) (d : Nat) (n : Word) (k : Nat) : (Core.retire d n k c).pad = c.pad := rfl
@[simp] theorem Core.retire_padUndo (c : Core) (d : Nat) (n : Word) (k : Nat) : (Core.retire d n k c).padUndo = c.padUndo := rfl
@[simp] theorem Core.retire_pend (c : Core) (d : Nat) (n : Word) (k : Nat) : (Core.retire d n k c).pend = c.pend := rfl
@[simp] theorem Core.retire_pendHeld (c : Core) (d : Nat) (n : Word) (k : Nat) : (Core.retire d n k c).pendHeld = c.pendHeld := rfl
@[simp] theorem Core.retire_pendSeq (c : Core) (d : Nat) (n : Word) (k : Nat) : (Core.retire d n k c).pendSeq = c.pendSeq := rfl
@[simp] theorem Core.retire_sfu (c : Core) (d : Nat) (n : Word) (k : Nat) : (Core.retire d n k c).sfu = c.sfu := rfl
@[simp] theorem Core.retire_reserve (c : Core) (d : Nat) (n : Word) (k : Nat) : (Core.retire d n k c).reserve = c.reserve := rfl
@[simp] theorem Core.retire_shared (c : Core) (d : Nat) (n : Word) (k : Nat) : (Core.retire d n k c).shared = c.shared := rfl
@[simp] theorem Core.retire_l1 (c : Core) (d : Nat) (n : Word) (k : Nat) : (Core.retire d n k c).l1 = c.l1 := rfl
@[simp] theorem Core.retire_l1Count (c : Core) (d : Nat) (n : Word) (k : Nat) : (Core.retire d n k c).l1Count = c.l1Count := rfl
@[simp] theorem Core.retire_tlb (c : Core) (d : Nat) (n : Word) (k : Nat) : (Core.retire d n k c).tlb = c.tlb := rfl
@[simp] theorem Core.retire_memq (c : Core) (d : Nat) (n : Word) (k : Nat) : (Core.retire d n k c).memq = c.memq := rfl
@[simp] theorem Core.retire_log (c : Core) (d : Nat) (n : Word) (k : Nat) : (Core.retire d n k c).log = c.log := rfl
@[simp] theorem Core.retire_atoms (c : Core) (d : Nat) (n : Word) (k : Nat) : (Core.retire d n k c).atoms = c.atoms := rfl
@[simp] theorem Core.retire_atomPos (c : Core) (d : Nat) (n : Word) (k : Nat) : (Core.retire d n k c).atomPos = c.atomPos := rfl
@[simp] theorem Core.retire_farAtom (c : Core) (d : Nat) (n : Word) (k : Nat) : (Core.retire d n k c).farAtom = c.farAtom := rfl
@[simp] theorem Core.retire_cbIdx (c : Core) (d : Nat) (n : Word) (k : Nat) : (Core.retire d n k c).cbIdx = c.cbIdx := rfl
@[simp] theorem Core.retire_cbPos (c : Core) (d : Nat) (n : Word) (k : Nat) : (Core.retire d n k c).cbPos = c.cbPos := rfl
@[simp] theorem Core.retire_icache (c : Core) (d : Nat) (n : Word) (k : Nat) : (Core.retire d n k c).icache = c.icache := rfl
@[simp] theorem Core.retire_plates (c : Core) (d : Nat) (n : Word) (k : Nat) : (Core.retire d n k c).plates = c.plates := rfl
@[simp] theorem Core.retire_metas (c : Core) (d : Nat) (n : Word) (k : Nat) : (Core.retire d n k c).metas = c.metas := rfl
@[simp] theorem Core.retire_copies (c : Core) (d : Nat) (n : Word) (k : Nat) : (Core.retire d n k c).copies = c.copies := rfl
@[simp] theorem Core.retire_port (c : Core) (d : Nat) (n : Word) (k : Nat) : (Core.retire d n k c).port = c.port := rfl
@[simp] theorem Core.retire_plane (c : Core) (d : Nat) (n : Word) (k : Nat) : (Core.retire d n k c).plane = c.plane := rfl
@[simp] theorem Core.retire_stats (c : Core) (d : Nat) (n : Word) (k : Nat) : (Core.retire d n k c).stats = c.stats := rfl
@[simp] theorem Core.retire_etch (c : Core) (d : Nat) (n : Word) (k : Nat) : (Core.retire d n k c).etch = c.etch := rfl
@[simp] theorem Core.retire_order (c : Core) (d : Nat) (n : Word) (k : Nat) : (Core.retire d n k c).order = c.order := rfl
@[simp] theorem Core.retire_arrivals (c : Core) (d : Nat) (n : Word) (k : Nat) : (Core.retire d n k c).arrivals = c.arrivals := rfl
@[simp] theorem Core.retire_arrived (c : Core) (d : Nat) (n : Word) (k : Nat) : (Core.retire d n k c).arrived = c.arrived := rfl
@[simp] theorem Core.retire_faults (c : Core) (d : Nat) (n : Word) (k : Nat) : (Core.retire d n k c).faults = c.faults := rfl
@[simp] theorem Core.retire_window (c : Core) (d : Nat) (n : Word) (k : Nat) : (Core.retire d n k c).window = c.window := rfl
@[simp] theorem Core.retire_sent (c : Core) (d : Nat) (n : Word) (k : Nat) : (Core.retire d n k c).sent = c.sent := rfl
@[simp] theorem Core.retire_inflow (c : Core) (d : Nat) (n : Word) (k : Nat) : (Core.retire d n k c).inflow = c.inflow := rfl
@[simp] theorem Core.retire_inbox (c : Core) (d : Nat) (n : Word) (k : Nat) : (Core.retire d n k c).inbox = c.inbox := rfl
@[simp] theorem Core.retire_closed (c : Core) (d : Nat) (n : Word) (k : Nat) : (Core.retire d n k c).closed = c.closed := rfl
@[simp] theorem Core.retire_trig (c : Core) (d : Nat) (n : Word) (k : Nat) : (Core.retire d n k c).trig = c.trig := rfl
@[simp] theorem Core.retire_faultCount (c : Core) (d : Nat) (n : Word) (k : Nat) : (Core.retire d n k c).faultCount = c.faultCount := rfl
@[simp] theorem Core.retire_linkFails (c : Core) (d : Nat) (n : Word) (k : Nat) : (Core.retire d n k c).linkFails = c.linkFails := rfl
@[simp] theorem Core.retire_linkOut (c : Core) (d : Nat) (n : Word) (k : Nat) : (Core.retire d n k c).linkOut = c.linkOut := rfl
@[simp] theorem Core.retire_lastCtx (c : Core) (d : Nat) (n : Word) (k : Nat) : (Core.retire d n k c).lastCtx = c.lastCtx := rfl
@[simp] theorem Core.retire_carried (c : Core) (d : Nat) (n : Word) (k : Nat) : (Core.retire d n k c).carried = c.carried := rfl

/-! ## Contexts and system registers under the register writes -/

@[simp] theorem Core.setG_ctx_regs (c : Core) (n : GReg) (v : Bool) : (c.setG n v).ctx.regs = c.ctx.regs := by unfold Core.setG; split <;> rfl
@[simp] theorem Core.setH_ctx_regs (c : Core) (n : HReg) (h : Handle) : (c.setH n h).ctx.regs = c.ctx.regs := rfl
@[simp] theorem Core.retire_ctx_regs (c : Core) (d : Nat) (n : Word) (k : Nat) : (Core.retire d n k c).ctx.regs = c.ctx.regs := rfl
@[simp] theorem Core.setS_ctx_guards (c : Core) (n : SReg) (v : Word) : (c.setS n v).ctx.guards = c.ctx.guards := by unfold Core.setS; split <;> [rfl; (split <;> rfl)]
@[simp] theorem Core.setH_ctx_guards (c : Core) (n : HReg) (h : Handle) : (c.setH n h).ctx.guards = c.ctx.guards := rfl
@[simp] theorem Core.retire_ctx_guards (c : Core) (d : Nat) (n : Word) (k : Nat) : (Core.retire d n k c).ctx.guards = c.ctx.guards := rfl
@[simp] theorem Core.setS_ctx_pc (c : Core) (n : SReg) (v : Word) : (c.setS n v).ctx.pc = c.ctx.pc := by unfold Core.setS; split <;> [rfl; (split <;> rfl)]
@[simp] theorem Core.setG_ctx_pc (c : Core) (n : GReg) (v : Bool) : (c.setG n v).ctx.pc = c.ctx.pc := by unfold Core.setG; split <;> rfl
@[simp] theorem Core.setH_ctx_pc (c : Core) (n : HReg) (h : Handle) : (c.setH n h).ctx.pc = c.ctx.pc := rfl
@[simp] theorem Core.setS_ctx_depth (c : Core) (n : SReg) (v : Word) : (c.setS n v).ctx.depth = c.ctx.depth := by unfold Core.setS; split <;> [rfl; (split <;> rfl)]
@[simp] theorem Core.setG_ctx_depth (c : Core) (n : GReg) (v : Bool) : (c.setG n v).ctx.depth = c.ctx.depth := by unfold Core.setG; split <;> rfl
@[simp] theorem Core.setH_ctx_depth (c : Core) (n : HReg) (h : Handle) : (c.setH n h).ctx.depth = c.ctx.depth := rfl
@[simp] theorem Core.retire_ctx_depth (c : Core) (d : Nat) (n : Word) (k : Nat) : (Core.retire d n k c).ctx.depth = c.ctx.depth := rfl
@[simp] theorem Core.setS_ctx_loops (c : Core) (n : SReg) (v : Word) : (c.setS n v).ctx.loops = c.ctx.loops := by unfold Core.setS; split <;> [rfl; (split <;> rfl)]
@[simp] theorem Core.setG_ctx_loops (c : Core) (n : GReg) (v : Bool) : (c.setG n v).ctx.loops = c.ctx.loops := by unfold Core.setG; split <;> rfl
@[simp] theorem Core.setH_ctx_loops (c : Core) (n : HReg) (h : Handle) : (c.setH n h).ctx.loops = c.ctx.loops := rfl
@[simp] theorem Core.retire_ctx_loops (c : Core) (d : Nat) (n : Word) (k : Nat) : (Core.retire d n k c).ctx.loops = c.ctx.loops := rfl
@[simp] theorem Core.setS_ctx_handles (c : Core) (n : SReg) (v : Word) : (c.setS n v).ctx.handles = c.ctx.handles := by unfold Core.setS; split <;> [rfl; (split <;> rfl)]
@[simp] theorem Core.setG_ctx_handles (c : Core) (n : GReg) (v : Bool) : (c.setG n v).ctx.handles = c.ctx.handles := by unfold Core.setG; split <;> rfl
@[simp] theorem Core.retire_ctx_handles (c : Core) (d : Nat) (n : Word) (k : Nat) : (Core.retire d n k c).ctx.handles = c.ctx.handles := rfl
@[simp] theorem Core.setS_ctx_fpc (c : Core) (n : SReg) (v : Word) : (c.setS n v).ctx.fpc = c.ctx.fpc := by unfold Core.setS; split <;> [rfl; (split <;> rfl)]
@[simp] theorem Core.setG_ctx_fpc (c : Core) (n : GReg) (v : Bool) : (c.setG n v).ctx.fpc = c.ctx.fpc := by unfold Core.setG; split <;> rfl
@[simp] theorem Core.setH_ctx_fpc (c : Core) (n : HReg) (h : Handle) : (c.setH n h).ctx.fpc = c.ctx.fpc := rfl
@[simp] theorem Core.retire_ctx_fpc (c : Core) (d : Nat) (n : Word) (k : Nat) : (Core.retire d n k c).ctx.fpc = c.ctx.fpc := rfl
@[simp] theorem Core.setS_ctx_tiles (c : Core) (n : SReg) (v : Word) : (c.setS n v).ctx.tiles = c.ctx.tiles := by unfold Core.setS; split <;> [rfl; (split <;> rfl)]
@[simp] theorem Core.setG_ctx_tiles (c : Core) (n : GReg) (v : Bool) : (c.setG n v).ctx.tiles = c.ctx.tiles := by unfold Core.setG; split <;> rfl
@[simp] theorem Core.setH_ctx_tiles (c : Core) (n : HReg) (h : Handle) : (c.setH n h).ctx.tiles = c.ctx.tiles := rfl
@[simp] theorem Core.retire_ctx_tiles (c : Core) (d : Nat) (n : Word) (k : Nat) : (Core.retire d n k c).ctx.tiles = c.ctx.tiles := rfl
@[simp] theorem Core.setS_ctx_ring (c : Core) (n : SReg) (v : Word) : (c.setS n v).ctx.ring = c.ctx.ring := by unfold Core.setS; split <;> [rfl; (split <;> rfl)]
@[simp] theorem Core.setG_ctx_ring (c : Core) (n : GReg) (v : Bool) : (c.setG n v).ctx.ring = c.ctx.ring := by unfold Core.setG; split <;> rfl
@[simp] theorem Core.setH_ctx_ring (c : Core) (n : HReg) (h : Handle) : (c.setH n h).ctx.ring = c.ctx.ring := rfl
@[simp] theorem Core.retire_ctx_ring (c : Core) (d : Nat) (n : Word) (k : Nat) : (Core.retire d n k c).ctx.ring = c.ctx.ring := rfl
@[simp] theorem Core.setS_ctx_head (c : Core) (n : SReg) (v : Word) : (c.setS n v).ctx.head = c.ctx.head := by unfold Core.setS; split <;> [rfl; (split <;> rfl)]
@[simp] theorem Core.setG_ctx_head (c : Core) (n : GReg) (v : Bool) : (c.setG n v).ctx.head = c.ctx.head := by unfold Core.setG; split <;> rfl
@[simp] theorem Core.setH_ctx_head (c : Core) (n : HReg) (h : Handle) : (c.setH n h).ctx.head = c.ctx.head := rfl
@[simp] theorem Core.retire_ctx_head (c : Core) (d : Nat) (n : Word) (k : Nat) : (Core.retire d n k c).ctx.head = c.ctx.head := rfl
@[simp] theorem Core.setS_ctx_tail (c : Core) (n : SReg) (v : Word) : (c.setS n v).ctx.tail = c.ctx.tail := by unfold Core.setS; split <;> [rfl; (split <;> rfl)]
@[simp] theorem Core.setG_ctx_tail (c : Core) (n : GReg) (v : Bool) : (c.setG n v).ctx.tail = c.ctx.tail := by unfold Core.setG; split <;> rfl
@[simp] theorem Core.setH_ctx_tail (c : Core) (n : HReg) (h : Handle) : (c.setH n h).ctx.tail = c.ctx.tail := rfl
@[simp] theorem Core.retire_ctx_tail (c : Core) (d : Nat) (n : Word) (k : Nat) : (Core.retire d n k c).ctx.tail = c.ctx.tail := rfl
@[simp] theorem Core.setS_ctx_armed (c : Core) (n : SReg) (v : Word) : (c.setS n v).ctx.armed = c.ctx.armed := by unfold Core.setS; split <;> [rfl; (split <;> rfl)]
@[simp] theorem Core.setG_ctx_armed (c : Core) (n : GReg) (v : Bool) : (c.setG n v).ctx.armed = c.ctx.armed := by unfold Core.setG; split <;> rfl
@[simp] theorem Core.setH_ctx_armed (c : Core) (n : HReg) (h : Handle) : (c.setH n h).ctx.armed = c.ctx.armed := rfl
@[simp] theorem Core.retire_ctx_armed (c : Core) (d : Nat) (n : Word) (k : Nat) : (Core.retire d n k c).ctx.armed = c.ctx.armed := rfl
@[simp] theorem Core.setS_ctx_prog (c : Core) (n : SReg) (v : Word) : (c.setS n v).ctx.prog = c.ctx.prog := by unfold Core.setS; split <;> [rfl; (split <;> rfl)]
@[simp] theorem Core.setG_ctx_prog (c : Core) (n : GReg) (v : Bool) : (c.setG n v).ctx.prog = c.ctx.prog := by unfold Core.setG; split <;> rfl
@[simp] theorem Core.setH_ctx_prog (c : Core) (n : HReg) (h : Handle) : (c.setH n h).ctx.prog = c.ctx.prog := rfl
@[simp] theorem Core.retire_ctx_prog (c : Core) (d : Nat) (n : Word) (k : Nat) : (Core.retire d n k c).ctx.prog = c.ctx.prog := rfl
@[simp] theorem Core.setS_ctx_counters (c : Core) (n : SReg) (v : Word) : (c.setS n v).ctx.counters = c.ctx.counters := by unfold Core.setS; split <;> [rfl; (split <;> rfl)]
@[simp] theorem Core.setG_ctx_counters (c : Core) (n : GReg) (v : Bool) : (c.setG n v).ctx.counters = c.ctx.counters := by unfold Core.setG; split <;> rfl
@[simp] theorem Core.setH_ctx_counters (c : Core) (n : HReg) (h : Handle) : (c.setH n h).ctx.counters = c.ctx.counters := rfl
@[simp] theorem Core.retire_ctx_counters (c : Core) (d : Nat) (n : Word) (k : Nat) : (Core.retire d n k c).ctx.counters = c.ctx.counters := rfl
@[simp] theorem Core.setS_ctx_want (c : Core) (n : SReg) (v : Word) : (c.setS n v).ctx.want = c.ctx.want := by unfold Core.setS; split <;> [rfl; (split <;> rfl)]
@[simp] theorem Core.setG_ctx_want (c : Core) (n : GReg) (v : Bool) : (c.setG n v).ctx.want = c.ctx.want := by unfold Core.setG; split <;> rfl
@[simp] theorem Core.setH_ctx_want (c : Core) (n : HReg) (h : Handle) : (c.setH n h).ctx.want = c.ctx.want := rfl
@[simp] theorem Core.retire_ctx_want (c : Core) (d : Nat) (n : Word) (k : Nat) : (Core.retire d n k c).ctx.want = c.ctx.want := rfl
@[simp] theorem Core.setS_ctx_mailbox (c : Core) (n : SReg) (v : Word) : (c.setS n v).ctx.mailbox = c.ctx.mailbox := by unfold Core.setS; split <;> [rfl; (split <;> rfl)]
@[simp] theorem Core.setG_ctx_mailbox (c : Core) (n : GReg) (v : Bool) : (c.setG n v).ctx.mailbox = c.ctx.mailbox := by unfold Core.setG; split <;> rfl
@[simp] theorem Core.setH_ctx_mailbox (c : Core) (n : HReg) (h : Handle) : (c.setH n h).ctx.mailbox = c.ctx.mailbox := rfl
@[simp] theorem Core.retire_ctx_mailbox (c : Core) (d : Nat) (n : Word) (k : Nat) : (Core.retire d n k c).ctx.mailbox = c.ctx.mailbox := rfl
@[simp] theorem Core.setS_ctx_resv (c : Core) (n : SReg) (v : Word) : (c.setS n v).ctx.resv = c.ctx.resv := by unfold Core.setS; split <;> [rfl; (split <;> rfl)]
@[simp] theorem Core.setG_ctx_resv (c : Core) (n : GReg) (v : Bool) : (c.setG n v).ctx.resv = c.ctx.resv := by unfold Core.setG; split <;> rfl
@[simp] theorem Core.setH_ctx_resv (c : Core) (n : HReg) (h : Handle) : (c.setH n h).ctx.resv = c.ctx.resv := rfl
@[simp] theorem Core.retire_ctx_resv (c : Core) (d : Nat) (n : Word) (k : Nat) : (Core.retire d n k c).ctx.resv = c.ctx.resv := rfl
@[simp] theorem Core.setS_ctx_nextId (c : Core) (n : SReg) (v : Word) : (c.setS n v).ctx.nextId = c.ctx.nextId := by unfold Core.setS; split <;> [rfl; (split <;> rfl)]
@[simp] theorem Core.setG_ctx_nextId (c : Core) (n : GReg) (v : Bool) : (c.setG n v).ctx.nextId = c.ctx.nextId := by unfold Core.setG; split <;> rfl
@[simp] theorem Core.setH_ctx_nextId (c : Core) (n : HReg) (h : Handle) : (c.setH n h).ctx.nextId = c.ctx.nextId := rfl
@[simp] theorem Core.retire_ctx_nextId (c : Core) (d : Nat) (n : Word) (k : Nat) : (Core.retire d n k c).ctx.nextId = c.ctx.nextId := rfl
@[simp] theorem Core.setS_ctx_holds (c : Core) (n : SReg) (v : Word) : (c.setS n v).ctx.holds = c.ctx.holds := by unfold Core.setS; split <;> [rfl; (split <;> rfl)]
@[simp] theorem Core.setG_ctx_holds (c : Core) (n : GReg) (v : Bool) : (c.setG n v).ctx.holds = c.ctx.holds := by unfold Core.setG; split <;> rfl
@[simp] theorem Core.setH_ctx_holds (c : Core) (n : HReg) (h : Handle) : (c.setH n h).ctx.holds = c.ctx.holds := rfl
@[simp] theorem Core.retire_ctx_holds (c : Core) (d : Nat) (n : Word) (k : Nat) : (Core.retire d n k c).ctx.holds = c.ctx.holds := rfl
@[simp] theorem Core.setS_ctx_attached (c : Core) (n : SReg) (v : Word) : (c.setS n v).ctx.attached = c.ctx.attached := by unfold Core.setS; split <;> [rfl; (split <;> rfl)]
@[simp] theorem Core.setG_ctx_attached (c : Core) (n : GReg) (v : Bool) : (c.setG n v).ctx.attached = c.ctx.attached := by unfold Core.setG; split <;> rfl
@[simp] theorem Core.setH_ctx_attached (c : Core) (n : HReg) (h : Handle) : (c.setH n h).ctx.attached = c.ctx.attached := rfl
@[simp] theorem Core.retire_ctx_attached (c : Core) (d : Nat) (n : Word) (k : Nat) : (Core.retire d n k c).ctx.attached = c.ctx.attached := rfl
@[simp] theorem Core.retire_ctx_pc (c : Core) (d : Nat) (n : Word) (k : Nat) : (Core.retire d n k c).ctx.pc = n := rfl
@[simp] theorem Core.setS_sys_sup (c : Core) (n : SReg) (v : Word) : (c.setS n v).sys.sup = c.sys.sup := by unfold Core.setS; split <;> [rfl; (split <;> rfl)]
@[simp] theorem Core.retire_sys_sup (c : Core) (d : Nat) (n : Word) (k : Nat) : (Core.retire d n k c).sys.sup = c.sys.sup := rfl
@[simp] theorem Core.retire_sys_supFrame (c : Core) (d : Nat) (n : Word) (k : Nat) : (Core.retire d n k c).sys.supFrame = c.sys.supFrame := rfl
@[simp] theorem Core.setS_sys_cyc (c : Core) (n : SReg) (v : Word) : (c.setS n v).sys.cyc = c.sys.cyc := by unfold Core.setS; split <;> [rfl; (split <;> rfl)]
@[simp] theorem Core.setS_sys_slots (c : Core) (n : SReg) (v : Word) : (c.setS n v).sys.slots = c.sys.slots := by unfold Core.setS; split <;> [rfl; (split <;> rfl)]
@[simp] theorem Core.setS_sys_owed (c : Core) (n : SReg) (v : Word) : (c.setS n v).sys.owed = c.sys.owed := by unfold Core.setS; split <;> [rfl; (split <;> rfl)]
@[simp] theorem Core.retire_sys_owed (c : Core) (d : Nat) (n : Word) (k : Nat) : (Core.retire d n k c).sys.owed = c.sys.owed := rfl
@[simp] theorem Core.setS_sys_wthr (c : Core) (n : SReg) (v : Word) : (c.setS n v).sys.wthr = c.sys.wthr := by unfold Core.setS; split <;> [rfl; (split <;> rfl)]
@[simp] theorem Core.retire_sys_wthr (c : Core) (d : Nat) (n : Word) (k : Nat) : (Core.retire d n k c).sys.wthr = c.sys.wthr := rfl
@[simp] theorem Core.setS_sys_pmax (c : Core) (n : SReg) (v : Word) : (c.setS n v).sys.pmax = c.sys.pmax := by unfold Core.setS; split <;> [rfl; (split <;> rfl)]
@[simp] theorem Core.retire_sys_pmax (c : Core) (d : Nat) (n : Word) (k : Nat) : (Core.retire d n k c).sys.pmax = c.sys.pmax := rfl
@[simp] theorem Core.setS_sys_lmax (c : Core) (n : SReg) (v : Word) : (c.setS n v).sys.lmax = c.sys.lmax := by unfold Core.setS; split <;> [rfl; (split <;> rfl)]
@[simp] theorem Core.retire_sys_lmax (c : Core) (d : Nat) (n : Word) (k : Nat) : (Core.retire d n k c).sys.lmax = c.sys.lmax := rfl
@[simp] theorem Core.setS_sys_inj (c : Core) (n : SReg) (v : Word) : (c.setS n v).sys.inj = c.sys.inj := by unfold Core.setS; split <;> [rfl; (split <;> rfl)]
@[simp] theorem Core.retire_sys_inj (c : Core) (d : Nat) (n : Word) (k : Nat) : (Core.retire d n k c).sys.inj = c.sys.inj := rfl
@[simp] theorem Core.setS_sys_laneHit (c : Core) (n : SReg) (v : Word) : (c.setS n v).sys.laneHit = c.sys.laneHit := by unfold Core.setS; split <;> [rfl; (split <;> rfl)]
@[simp] theorem Core.retire_sys_laneHit (c : Core) (d : Nat) (n : Word) (k : Nat) : (Core.retire d n k c).sys.laneHit = c.sys.laneHit := rfl
@[simp] theorem Core.setS_sys_tvec (c : Core) (n : SReg) (v : Word) : (c.setS n v).sys.tvec = c.sys.tvec := by unfold Core.setS; split <;> [rfl; (split <;> rfl)]
@[simp] theorem Core.retire_sys_tvec (c : Core) (d : Nat) (n : Word) (k : Nat) : (Core.retire d n k c).sys.tvec = c.sys.tvec := rfl
@[simp] theorem Core.setS_sys_epc (c : Core) (n : SReg) (v : Word) : (c.setS n v).sys.epc = c.sys.epc := by unfold Core.setS; split <;> [rfl; (split <;> rfl)]
@[simp] theorem Core.retire_sys_epc (c : Core) (d : Nat) (n : Word) (k : Nat) : (Core.retire d n k c).sys.epc = c.sys.epc := rfl
@[simp] theorem Core.setS_sys_ecause (c : Core) (n : SReg) (v : Word) : (c.setS n v).sys.ecause = c.sys.ecause := by unfold Core.setS; split <;> [rfl; (split <;> rfl)]
@[simp] theorem Core.retire_sys_ecause (c : Core) (d : Nat) (n : Word) (k : Nat) : (Core.retire d n k c).sys.ecause = c.sys.ecause := rfl
@[simp] theorem Core.setS_sys_einfo (c : Core) (n : SReg) (v : Word) : (c.setS n v).sys.einfo = c.sys.einfo := by unfold Core.setS; split <;> [rfl; (split <;> rfl)]
@[simp] theorem Core.retire_sys_einfo (c : Core) (d : Nat) (n : Word) (k : Nat) : (Core.retire d n k c).sys.einfo = c.sys.einfo := rfl
@[simp] theorem Core.setS_sys_eaddr (c : Core) (n : SReg) (v : Word) : (c.setS n v).sys.eaddr = c.sys.eaddr := by unfold Core.setS; split <;> [rfl; (split <;> rfl)]
@[simp] theorem Core.retire_sys_eaddr (c : Core) (d : Nat) (n : Word) (k : Nat) : (Core.retire d n k c).sys.eaddr = c.sys.eaddr := rfl
@[simp] theorem Core.setS_sys_estat (c : Core) (n : SReg) (v : Word) : (c.setS n v).sys.estat = c.sys.estat := by unfold Core.setS; split <;> [rfl; (split <;> rfl)]
@[simp] theorem Core.retire_sys_estat (c : Core) (d : Nat) (n : Word) (k : Nat) : (Core.retire d n k c).sys.estat = c.sys.estat := rfl
@[simp] theorem Core.setS_sys_left (c : Core) (n : SReg) (v : Word) : (c.setS n v).sys.left = c.sys.left := by unfold Core.setS; split <;> [rfl; (split <;> rfl)]
@[simp] theorem Core.retire_sys_left (c : Core) (d : Nat) (n : Word) (k : Nat) : (Core.retire d n k c).sys.left = c.sys.left := rfl
@[simp] theorem Core.retire_sys_slots (c : Core) (d : Nat) (n : Word) (k : Nat) :
    (Core.retire d n k c).sys.slots = c.sys.slots + 1 + BitVec.ofNat 64 d := rfl

/-! ## Registers read back (R21, R22, R51) -/

@[simp] theorem Core.getS_zero (c : Core) : c.getS 0#6 = 0 := by simp [Core.getS]
@[simp] theorem Core.setS_zero (c : Core) (v : Word) : c.setS 0#6 v = c := by simp [Core.setS]
@[simp] theorem Core.getG_zero (c : Core) : c.getG 0#4 = true := by simp [Core.getG]
@[simp] theorem Core.setG_zero (c : Core) (v : Bool) : c.setG 0#4 v = c := by simp [Core.setG]
@[simp] theorem Core.getH_setH (c : Core) (n : HReg) (h : Handle) : (c.setH n h).getH n = h := by simp [Core.getH, Core.setH]
theorem Core.getH_setH_ne (c : Core) {n m : HReg} (e : n ≠ m) (h : Handle) : (c.setH n h).getH m = c.getH m := by
  have : n.toNat ≠ m.toNat := fun k => e (BitVec.eq_of_toNat_eq k)
  simp [Core.getH, Core.setH, this]
@[simp] theorem Core.setS_getG (c : Core) (n : SReg) (v : Word) (g : GReg) : (c.setS n v).getG g = c.getG g := by simp [Core.getG]
@[simp] theorem Core.setS_getH (c : Core) (n : SReg) (v : Word) (h : HReg) : (c.setS n v).getH h = c.getH h := by simp [Core.getH]
@[simp] theorem Core.setG_getS (c : Core) (n : GReg) (v : Bool) (r : SReg) : (c.setG n v).getS r = c.getS r := by simp [Core.getS]
@[simp] theorem Core.setG_getH (c : Core) (n : GReg) (v : Bool) (h : HReg) : (c.setG n v).getH h = c.getH h := by simp [Core.getH]
@[simp] theorem Core.setH_getS (c : Core) (n : HReg) (h : Handle) (r : SReg) : (c.setH n h).getS r = c.getS r := by simp [Core.getS]
@[simp] theorem Core.setH_getG (c : Core) (n : HReg) (h : Handle) (g : GReg) : (c.setH n h).getG g = c.getG g := by simp [Core.getG]
@[simp] theorem Core.retire_getS (c : Core) (d : Nat) (n : Word) (k : Nat) (r : SReg) : (Core.retire d n k c).getS r = c.getS r := by simp [Core.getS]
@[simp] theorem Core.retire_getG (c : Core) (d : Nat) (n : Word) (k : Nat) (g : GReg) : (Core.retire d n k c).getG g = c.getG g := by simp [Core.getG]
@[simp] theorem Core.retire_getH (c : Core) (d : Nat) (n : Word) (k : Nat) (h : HReg) : (Core.retire d n k c).getH h = c.getH h := by simp [Core.getH]

/-- Different names of the running frame resolve to different registers (R51). -/
theorem scalarIndex_inj (d : Nat) {a b : Nat} (ha : a < 64) (hb : b < 64) (h : scalarIndex d a = scalarIndex d b) : a = b := by
  unfold scalarIndex at h
  split_ifs at h <;> omega

/-- A name resolves inside the register file (R51). -/
theorem scalarIndex_lt (d : Fin 8) (n : SReg) : scalarIndex d n.toNat < 288 := by
  have := n.isLt
  have := d.isLt
  unfold scalarIndex
  split_ifs <;> omega

/-- A scalar read back after it is written (R51). -/
theorem Core.getS_setS (c : Core) {n : SReg} (h : n ≠ 0) (v : Word) : (c.setS n v).getS n = v := by
  unfold Core.getS Core.setS
  simp only [h, if_false]
  split
  · rename_i hs
    have hn := n.isLt
    simp only [hs, if_true]
    have : n.toNat - 32 < 32 := by omega
    simp [Vector.getD, this]
  · rename_i hs
    simp only [hs, if_false]
    simp [Vector.getD, scalarIndex_lt]

/-- A scalar that is not written keeps its value (R51). -/
theorem Core.getS_setS_ne (c : Core) {n m : SReg} (e : m ≠ n) (v : Word) : (c.setS n v).getS m = c.getS m := by
  have en : n.toNat ≠ m.toNat := fun k => e (BitVec.eq_of_toNat_eq k).symm
  have hn := n.isLt
  have hm := m.isLt
  by_cases hz : n = 0
  · simp [hz]
  · unfold Core.getS Core.setS
    simp only [hz, if_false]
    split
    · rfl
    · split
      · rename_i h1
        split
        · rename_i h2
          have : n.toNat - 32 ≠ m.toNat - 32 := by
            simp only [Bool.and_eq_true, decide_eq_true_eq] at h1 h2
            omega
          simp [Vector.getD, this]
        · rfl
      · split
        · rfl
        · have : scalarIndex c.ctx.depth n.toNat ≠ scalarIndex c.ctx.depth m.toNat := fun k => en (scalarIndex_inj _ hn hm k)
          simp [Vector.getD, this]

end Sys2Proof.Machine
end

