-- ==== Sys2Proof/Laws/Issue.lean ====
section
/-! SUPPORT. What the shared operations of issuing can do (R19, R21, R28): a false guard, a completed body, a body that does not
complete. -/

namespace Sys2Proof.Machine

/-- Completing an instruction, in one equation on the running core. -/
theorem State.finish_eq (s : State) (y : Bool) (d : Nat) (n : Word) :
    s.finish y d n = s.upd fun c => Core.atYield y (Core.retire d n (Config.stallCycles s.tick) c) := by
  simp [State.finish, State.retire]

@[simp] theorem State.finish_core (s : State) (y : Bool) (d : Nat) (n : Word) :
    (s.finish y d n).core = Core.atYield y (Core.retire d n (Config.stallCycles s.tick) s.core) := by simp [State.finish_eq]

@[simp] theorem Core.atYield_false (c : Core) : Core.atYield false c = c := by simp [Core.atYield]

/-- An instruction whose guard is false leaves only its slots (R21). -/
theorem State.issue_off (s : State) (y : Bool) (d n : Nat) (b : Body) :
    s.issue false y d n b = .next (s.finish y d (s.core.ctx.pc + BitVec.ofNat 64 n)) := rfl

/-- An instruction whose body completes (R19). -/
theorem State.issue_ok {s t : State} {y : Bool} {d n : Nat} {b : Body} {p : Option Word} (h : b s = .ok (t, p)) :
    s.issue true y d n b = .next (t.finish y d (p.getD (s.core.ctx.pc + BitVec.ofNat 64 n))) := by
  simp [State.issue, h]

/-- An instruction whose body does not complete. -/
theorem State.issue_halt {s : State} {y : Bool} {d n : Nat} {b : Body} {e : Halt} (h : b s = .error e) :
    s.issue true y d n b = .next (State.halted d s.core.ctx.pc (s.core.ctx.pc + BitVec.ofNat 64 n) e) := by
  simp [State.issue, h]

/-- Issuing answers a next state, whatever the body answers. -/
theorem State.issue_next (s : State) (g y : Bool) (d n : Nat) (b : Body) : ∃ t, s.issue g y d n b = .next t := by
  unfold State.issue
  split
  · exact ⟨_, rfl⟩
  · split <;> exact ⟨_, rfl⟩

theorem State.issue64_next (s : State) (h : Hd) (b : Body) : ∃ t, s.issue64 h b = .next t := s.issue_next ..
theorem State.issue96_next (s : State) (h : Hd) (b : Body) : ∃ t, s.issue96 h b = .next t := s.issue_next ..
theorem State.issue128_next (s : State) (h : Hx) (o : List (Nat × HReg)) (b : Body) : ∃ t, s.issue128 h o b = .next t := s.issue_next ..

/-- A 64-bit instruction that changes only the running core completes with that change. -/
theorem State.pure64_on {s : State} {h : Hd} (g : s.core.guard h = true) (f : Core → Core) :
    s.pure64 h f = .next ((s.upd f).finish false h.dly.toNat (s.core.ctx.pc + 8#64)) := by
  simp [State.pure64, State.issue64, g, State.issue, done]

end Sys2Proof.Machine
end

