-- ==== Sys2Proof/Laws/Completes.lean ====
section
/-! SUPPORT. When a completed issue is what `Completes` says. -/

namespace Sys2Proof.Machine

@[simp] theorem Core.retire_settled (c : Core) (d : Nat) (n : Word) (k : Nat) : (Core.retire d n k c).settled = c.settled := rfl

/-- Completing an instruction after a change `f` of the running core that does not touch the slot counter. -/
theorem completes_upd (s : State) (f : Core → Core) (d : Nat) (n : Word) (h : (f s.core).sys.slots = s.core.sys.slots) :
    Completes s ((s.upd f).finish false d n) (f s.core) n d where
  core := by simp
  pc := by simp
  slots := by simp [h]
  going := by simp [Core.retire]
  others i hi := by
    rw [State.finish_eq, State.upd_upd]
    exact State.upd_at_ne _ (Ne.symm hi) _
  mem a := by simp [State.finish_eq]
  device := by simp [State.finish_eq, State.rest]

/-- Completing an instruction that changes nothing. -/
theorem completes_finish (s : State) (d : Nat) (n : Word) : Completes s (s.finish false d n) s.core n d := by
  have h : s.upd id = s := by simp [State.upd, State.setCore, State.core]
  have := completes_upd s id d n rfl
  rwa [h] at this

end Sys2Proof.Machine
end

