-- ==== Sys2Proof/Laws/Encoding.lean ====
section
/-! SUPPORT. The laws of packing fields into words and words into bytes (R6, R9, R17), and what every encoded word is. -/

namespace Sys2Proof

/-- The total of field widths. -/
def fieldsWidth : List (Nat × Nat) → Nat
  | [] => 0
  | (n, _) :: rest => n + fieldsWidth rest

/-- Packed fields fit their widths. -/
theorem packFields_lt (l : List (Nat × Nat)) : packFields l < 2 ^ fieldsWidth l := by
  induction l with
  | nil => simp [packFields, fieldsWidth]
  | cons f l ih =>
    obtain ⟨n, v⟩ := f
    have h1 : v % 2 ^ n < 2 ^ n := Nat.mod_lt _ (Nat.two_pow_pos n)
    have h2 : 2 ^ n * (packFields l + 1) ≤ 2 ^ n * 2 ^ fieldsWidth l := Nat.mul_le_mul_left _ ih
    rw [packFields, fieldsWidth, Nat.pow_add]
    rw [Nat.mul_add, Nat.mul_one] at h2
    omega

/-- The lowest field of packed fields. -/
theorem packFields_low (n v : Nat) (l : List (Nat × Nat)) : packFields ((n, v) :: l) % 2 ^ n = v % 2 ^ n := by
  rw [packFields, Nat.add_mul_mod_self_left, Nat.mod_mod]

/-- A field of packed fields that starts at the next field or above is a field of the rest. -/
theorem field_packFields_skip (n v k w : Nat) (l : List (Nat × Nat)) :
    field (packFields ((n, v) :: l)) (n + k) w = field (packFields l) k w := by
  have h : v % 2 ^ n < 2 ^ n := Nat.mod_lt _ (Nat.two_pow_pos n)
  rw [field, packFields, Nat.pow_add, ← Nat.div_div_eq_div_mul, Nat.add_mul_div_left _ _ (Nat.two_pow_pos n), Nat.div_eq_of_lt h,
    Nat.zero_add, field]

/-- The field at the front of packed fields. -/
theorem field_packFields_zero (n v : Nat) (l : List (Nat × Nat)) : field (packFields ((n, v) :: l)) 0 n = v % 2 ^ n := by
  rw [field, Nat.pow_zero, Nat.div_one, packFields_low]

/-- Cutting packed fields gives them back, each modulo its width. -/
theorem cutFields_packFields (l : List (Nat × Nat)) :
    cutFields (l.map (·.1)) (packFields l) = l.map fun f => f.2 % 2 ^ f.1 := by
  induction l with
  | nil => rfl
  | cons f l ih =>
    obtain ⟨n, v⟩ := f
    have h : v % 2 ^ n < 2 ^ n := Nat.mod_lt _ (Nat.two_pow_pos n)
    simp only [List.map_cons, cutFields, packFields_low, List.cons.injEq, true_and]
    rw [packFields, Nat.add_mul_div_left _ _ (Nat.two_pow_pos n), Nat.div_eq_of_lt h, Nat.zero_add, ih]

@[simp] theorem bytesLE_length (n v : Nat) : (bytesLE n v).length = n := by
  induction n generalizing v with
  | zero => rfl
  | succ n ih => simp [bytesLE, ih]

/-- The bytes of a number that fits them give it back. -/
theorem ofBytesLE_bytesLE (n v : Nat) (h : v < 2 ^ (8 * n)) : ofBytesLE (bytesLE n v) = v := by
  induction n generalizing v with
  | zero => simp at h; simp [bytesLE, ofBytesLE, h]
  | succ n ih =>
    have h8 : (2 : Nat) ^ (8 * (n + 1)) = 256 * 2 ^ (8 * n) := by rw [Nat.mul_succ, Nat.pow_add]; omega
    have : v / 256 < 2 ^ (8 * n) := by rw [h8] at h; exact Nat.div_lt_of_lt_mul h
    rw [bytesLE, ofBytesLE, ih _ this, BitVec.toNat_ofNat]
    omega

/-- Bytes are the bytes of the number that they form. -/
theorem bytesLE_ofBytesLE (bs : List Byte) : bytesLE bs.length (ofBytesLE bs) = bs := by
  induction bs with
  | nil => rfl
  | cons b bs ih =>
    have hb : b.toNat < 256 := b.isLt
    have h1 : (b.toNat + 256 * ofBytesLE bs) / 256 = ofBytesLE bs := by omega
    have h2 : BitVec.ofNat 8 (b.toNat + 256 * ofBytesLE bs) = b := by
      apply BitVec.eq_of_toNat_eq; rw [BitVec.toNat_ofNat]; omega
    simp only [List.length_cons, bytesLE, ofBytesLE, h1, h2, ih]

/-- The bytes of one number after those of another. -/
theorem ofBytesLE_append (bs cs : List Byte) : ofBytesLE (bs ++ cs) = ofBytesLE bs + 2 ^ (8 * bs.length) * ofBytesLE cs := by
  induction bs with
  | nil => simp [ofBytesLE]
  | cons b bs ih =>
    have h8 : (2 : Nat) ^ (8 * (bs.length + 1)) = 256 * 2 ^ (8 * bs.length) := by rw [Nat.mul_succ, Nat.pow_add]; omega
    rw [List.cons_append, ofBytesLE, ofBytesLE, ih, List.length_cons, h8, Nat.mul_add, Nat.mul_assoc, Nat.add_assoc]

/-- A word and its length agree: LEN selects the length, and the word fits it (R17). -/
def Fits (p : Option (Nat × Nat)) : Prop := ∀ w n, p = some (w, n) → lenBytes w = n ∧ w < 2 ^ (8 * n)

theorem fits_none : Fits none := fun _ _ h => nomatch h

theorem Hd.enc64_fits (h : Hd) (op sub a b c imm : Nat) : Fits (h.enc64 op sub a b c imm) := by
  intro w n e
  simp only [Hd.enc64, Option.some.injEq, Prod.mk.injEq] at e
  obtain ⟨rfl, rfl⟩ := e
  exact ⟨by simp only [lenBytes, Raw.toWord, show (4 : Nat) = 2 ^ 2 from rfl, packFields_low]; rfl, lt_of_lt_of_eq (packFields_lt _) (by simp [fieldsWidth])⟩

theorem Hd.enc96_fits (h : Hd) (op sub a b c imm : Nat) : Fits (h.enc96 op sub a b c imm) := by
  intro w n e
  simp only [Hd.enc96, Option.some.injEq, Prod.mk.injEq] at e
  obtain ⟨rfl, rfl⟩ := e
  exact ⟨by simp only [lenBytes, Raw.toWord, show (4 : Nat) = 2 ^ 2 from rfl, packFields_low]; rfl, lt_of_lt_of_eq (packFields_lt _) (by simp [fieldsWidth])⟩

theorem Hx.enc_fits (h : Hx) (op sub a b c d e aux : Nat) : Fits (h.enc op sub a b c d e aux) := by
  intro w n q
  simp only [Hx.enc, Option.some.injEq, Prod.mk.injEq] at q
  obtain ⟨rfl, rfl⟩ := q
  exact ⟨by simp only [lenBytes, RawX.toWord, show (4 : Nat) = 2 ^ 2 from rfl, packFields_low]; rfl, lt_of_lt_of_eq (packFields_lt _) (by simp [fieldsWidth])⟩

theorem GlogOp.enc_fits (h : Hd) (k : GlogOp) : Fits (k.enc h) := by cases k <;> exact h.enc64_fits _ _ _ _ _ _

end Sys2Proof
end

