-- ==== Sys2Proof/Laws/Memory.lean ====
section
/-! SUPPORT. The laws of byte storage: every operation keeps the canonical form; a read after a write gives what was written
there, and what stood there elsewhere; canonical storages with equal bytes are equal. -/

namespace Sys2Proof.Machine

/-- A storage whose addresses start higher is one whose addresses start lower. -/
theorem Mem.wfFrom_le {lo hi : Nat} {m : Mem} (h : m.wfFrom hi = true) (hl : lo ≤ hi) : m.wfFrom lo = true := by
  cases m with
  | nil => rfl
  | cons c m => simp only [Mem.wfFrom, Bool.and_eq_true, decide_eq_true_eq] at h ⊢; exact ⟨⟨by omega, h.1.2⟩, h.2⟩

/-- Below the first address every byte is unlisted. -/
theorem Mem.get_below {lo x : Nat} {m : Mem} (h : m.wfFrom lo = true) (hx : x < lo) : m.get x = Mem.unlisted := by
  cases m with
  | nil => rfl
  | cons c m =>
    simp only [Mem.wfFrom, Bool.and_eq_true, decide_eq_true_eq] at h
    simp [Mem.get, show x < c.1 by omega]

/-- `Mem.set` keeps the canonical form. -/
theorem Mem.wfFrom_set {lo x : Nat} {m : Mem} (v : Byte) (h : m.wfFrom lo = true) (hx : lo ≤ x) : (m.set x v).wfFrom lo = true := by
  induction m generalizing lo with
  | nil => unfold Mem.set; split <;> simp_all [Mem.wfFrom]
  | cons c m ih =>
    obtain ⟨a, b⟩ := c
    simp only [Mem.wfFrom, Bool.and_eq_true, decide_eq_true_eq, bne_iff_ne] at h
    obtain ⟨⟨h1, h2⟩, h3⟩ := h
    unfold Mem.set
    split
    · split
      · simp [Mem.wfFrom, h1, h2, h3]
      · rename_i hv; simp [Mem.wfFrom, hx, hv, h2, h3]; omega
    · split
      · subst x
        split
        · exact Mem.wfFrom_le h3 (by omega)
        · rename_i hv; simp [Mem.wfFrom, h1, hv, h3]
      · simp [Mem.wfFrom, h1, h2, ih h3 (by omega)]

theorem Mem.wf_set {m : Mem} (x : Nat) (v : Byte) (h : m.wf = true) : (m.set x v).wf = true := Mem.wfFrom_set v h (Nat.zero_le x)

/-- A byte after a store: the stored one at its place, the old one elsewhere. -/
theorem Mem.get_set {m : Mem} {lo : Nat} (x y : Nat) (v : Byte) (h : m.wfFrom lo = true) :
    (m.set x v).get y = if y = x then v else m.get y := by
  induction m generalizing lo with
  | nil => unfold Mem.set; split <;> simp [Mem.get] <;> grind [Mem.unlisted]
  | cons c m ih =>
    obtain ⟨a, b⟩ := c
    simp only [Mem.wfFrom, Bool.and_eq_true, decide_eq_true_eq, bne_iff_ne] at h
    have low : ∀ z, z ≤ a → Mem.get m z = Mem.unlisted := fun z hz => Mem.get_below h.2 (by omega)
    have := ih h.2
    unfold Mem.set
    grind [Mem.get]

theorem Mem.wf_write {m : Mem} (a : Nat) (bs : List Byte) (h : m.wf = true) : (m.write a bs).wf = true := by
  induction bs generalizing m a with
  | nil => exact h
  | cons b bs ih => exact ih _ (Mem.wf_set a b h)

/-- A byte after a run of stores. -/
theorem Mem.get_write {m : Mem} (a : Nat) (bs : List Byte) (x : Nat) (h : m.wf = true) :
    (m.write a bs).get x = if a ≤ x ∧ x < a + bs.length then bs.getD (x - a) 0 else m.get x := by
  induction bs generalizing m a with
  | nil => simp [Mem.write]
  | cons b bs ih =>
    rw [Mem.write, ih _ (Mem.wf_set a b h), Mem.get_set a x b h]
    rcases Nat.lt_trichotomy x a with hx | rfl | hx
    · simp [show ¬ a + 1 ≤ x by omega, show ¬ a ≤ x by omega, show x ≠ a by omega]
    · simp
    · have : x - a = x - (a + 1) + 1 := by omega
      simp only [List.length_cons, this, List.getD_cons_succ, show x ≠ a by omega, if_false]
      congr 1
      simp only [eq_iff_iff]; omega

/-- A write leaves every other byte alone. -/
theorem Mem.get_write_ne {m : Mem} (a : Nat) (bs : List Byte) (x : Nat) (h : m.wf = true) (hx : x < a ∨ a + bs.length ≤ x) :
    (m.write a bs).get x = m.get x := by
  rw [Mem.get_write a bs x h, if_neg (by omega)]

theorem Mem.wf_writeAll {m : Mem} (ws : List (Nat × Byte)) (h : m.wf = true) : (m.writeAll ws).wf = true := by
  induction ws generalizing m with
  | nil => exact h
  | cons w ws ih => exact ih (Mem.wf_set w.1 w.2 h)

/-- A byte after stores at the addresses they carry: the last store there decides. -/
theorem Mem.get_writeAll {m : Mem} (ws : List (Nat × Byte)) (x : Nat) (h : m.wf = true) :
    (m.writeAll ws).get x = ((ws.reverse.find? fun w => w.1 == x).map (·.2)).getD (m.get x) := by
  induction ws generalizing m with
  | nil => rfl
  | cons w ws ih =>
    rw [Mem.writeAll, ih (Mem.wf_set w.1 w.2 h), Mem.get_set _ _ _ h, List.reverse_cons, List.find?_append]
    cases hf : ws.reverse.find? (fun w => w.1 == x) with
    | some u => simp
    | none =>
      by_cases hw : w.1 = x
      · simp [hw]
      · simp [hw, Ne.symm hw]

/-- What is read after a write of the same bytes. -/
theorem Mem.read_eq (m : Mem) (a n : Nat) : m.read a n = (List.range n).map fun i => m.get (a + i) := by
  induction n generalizing a with
  | zero => rfl
  | succ n ih =>
    rw [Mem.read, ih, List.range_succ_eq_map, List.map_cons, List.map_map]
    simp only [Nat.add_zero, List.cons.injEq, true_and]
    exact List.map_congr_left fun i _ => by simp; congr 1; omega

@[simp] theorem Mem.read_length (m : Mem) (a n : Nat) : (m.read a n).length = n := by simp [Mem.read_eq]

theorem Mem.read_write {m : Mem} (a : Nat) (bs : List Byte) (h : m.wf = true) : (m.write a bs).read a bs.length = bs := by
  rw [Mem.read_eq]
  apply List.ext_getElem
  · simp
  · intro i h1 h2
    simp [Mem.get_write a bs _ h, h2]

/-- Leaving cells out keeps the canonical form. -/
theorem Mem.wfFrom_filter {lo : Nat} {m : Mem} (p : Nat × Byte → Bool) (h : m.wfFrom lo = true) : Mem.wfFrom lo (m.filter p) = true := by
  induction m generalizing lo with
  | nil => rfl
  | cons c m ih =>
    simp only [Mem.wfFrom, Bool.and_eq_true, decide_eq_true_eq] at h
    have := ih h.2
    rw [List.filter_cons]
    split
    · simp [Mem.wfFrom, h.1, this]
    · exact Mem.wfFrom_le this (by omega)

theorem Mem.wf_filter {m : Mem} (p : Nat × Byte → Bool) (h : m.wf = true) : Mem.wf (m.filter p) = true := Mem.wfFrom_filter p h

/-- Storage made of some bytes is in canonical form. -/
theorem Mem.wfFrom_ofBytes (lo a : Nat) (bs : List Byte) (h : lo ≤ a) : (Mem.ofBytes a bs).wfFrom lo = true := by
  induction bs generalizing lo a with
  | nil => rfl
  | cons b bs ih =>
    unfold Mem.ofBytes
    split
    · exact ih lo (a + 1) (by omega)
    · simp [Mem.wfFrom, h, ih (a + 1) (a + 1) (Nat.le_refl _), *]

theorem Mem.wf_ofBytes (a : Nat) (bs : List Byte) : (Mem.ofBytes a bs).wf = true := Mem.wfFrom_ofBytes 0 a bs (Nat.zero_le a)

/-- What a reset that loses HBM keeps is canonical. -/
theorem keepOutside_wf {m : Mem} (h : m.wf = true) : Mem.wf (keepOutside m) = true := Mem.wf_filter _ h

/-- Reset memory is canonical. -/
theorem State.reset_mem_wf : State.reset.mem.wf = true := rfl

/-- Canonical storages in which every byte reads the same are the same. -/
theorem Mem.wfFrom_ext {lo : Nat} {m n : Mem} (hm : m.wfFrom lo = true) (hn : n.wfFrom lo = true) (h : ∀ x, m.get x = n.get x) :
    m = n := by
  induction m generalizing lo n with
  | nil =>
    cases n with
    | nil => rfl
    | cons c n =>
      have := h c.1
      simp [Mem.wfFrom, Mem.get] at this hn
      exact absurd this.symm hn.1.2
  | cons c m ih =>
    obtain ⟨a, b⟩ := c
    cases n with
    | nil =>
      have := h a
      simp [Mem.wfFrom, Mem.get] at this hm
      exact absurd this hm.1.2
    | cons d n =>
      obtain ⟨e, f⟩ := d
      simp only [Mem.wfFrom, Bool.and_eq_true, decide_eq_true_eq, bne_iff_ne] at hm hn
      have ha := h a
      have he := h e
      have hae : a = e := by
        rcases Nat.lt_trichotomy a e with hlt | heq | hlt
        · simp [Mem.get, hlt] at ha; exact absurd ha hm.1.2
        · exact heq
        · simp [Mem.get, hlt] at he; exact absurd he.symm hn.1.2
      subst hae
      have hbf : b = f := by simpa [Mem.get] using ha
      subst hbf
      congr 1
      refine ih hm.2 hn.2 fun x => ?_
      by_cases hx : x ≤ a
      · rw [Mem.get_below hm.2 (by omega), Mem.get_below hn.2 (by omega)]
      · have := h x
        simpa [Mem.get, show ¬ x < a by omega, show x ≠ a by omega] using this

theorem Mem.wf_ext {m n : Mem} (hm : m.wf = true) (hn : n.wf = true) (h : ∀ x, m.get x = n.get x) : m = n := Mem.wfFrom_ext hm hn h

end Sys2Proof.Machine
end

