-- ==== Sys2Proof/Laws/PerInstr.lean ====
section
/-! SUPPORT. Statements made per instruction: one lemma for every constructor of `Instr`. -/

/-- The family `Lays`: the word of an instruction fits the length that its LEN field selects (R17); a step that is no instruction
word has none. -/
def Sys2Proof.Laws.Lays.Statement (i : Sys2Proof.Instr) : Prop := Sys2Proof.Fits (Sys2Proof.encodeWord i)

namespace Sys2Proof.Laws.Lays

open Sys2Proof

theorem nop (dly : BitVec 4) : Statement (.nop dly) := Hd.enc64_fits _ _ _ _ _ _ _
theorem add (h : Hd) (a b c : SReg) : Statement (.add h a b c) := Hd.enc64_fits _ _ _ _ _ _ _
theorem sub (h : Hd) (a b c : SReg) : Statement (.sub h a b c) := Hd.enc64_fits _ _ _ _ _ _ _
theorem and (h : Hd) (a b c : SReg) : Statement (.and h a b c) := Hd.enc64_fits _ _ _ _ _ _ _
theorem or (h : Hd) (a b c : SReg) : Statement (.or h a b c) := Hd.enc64_fits _ _ _ _ _ _ _
theorem xor (h : Hd) (a b c : SReg) : Statement (.xor h a b c) := Hd.enc64_fits _ _ _ _ _ _ _
theorem andn (h : Hd) (a b c : SReg) : Statement (.andn h a b c) := Hd.enc64_fits _ _ _ _ _ _ _
theorem shl (h : Hd) (a b c : SReg) : Statement (.shl h a b c) := Hd.enc64_fits _ _ _ _ _ _ _
theorem shr (h : Hd) (a b c : SReg) : Statement (.shr h a b c) := Hd.enc64_fits _ _ _ _ _ _ _
theorem sar (h : Hd) (a b c : SReg) : Statement (.sar h a b c) := Hd.enc64_fits _ _ _ _ _ _ _
theorem rot (h : Hd) (a b c : SReg) : Statement (.rot h a b c) := Hd.enc64_fits _ _ _ _ _ _ _
theorem min (h : Hd) (a b c : SReg) : Statement (.min h a b c) := Hd.enc64_fits _ _ _ _ _ _ _
theorem max (h : Hd) (a b c : SReg) : Statement (.max h a b c) := Hd.enc64_fits _ _ _ _ _ _ _
theorem minu (h : Hd) (a b c : SReg) : Statement (.minu h a b c) := Hd.enc64_fits _ _ _ _ _ _ _
theorem maxu (h : Hd) (a b c : SReg) : Statement (.maxu h a b c) := Hd.enc64_fits _ _ _ _ _ _ _
theorem addImm (h : Hd) (a b : SReg) (imm : BitVec 21) : Statement (.addImm h a b imm) := Hd.enc64_fits _ _ _ _ _ _ _
theorem subImm (h : Hd) (a b : SReg) (imm : BitVec 21) : Statement (.subImm h a b imm) := Hd.enc64_fits _ _ _ _ _ _ _
theorem andImm (h : Hd) (a b : SReg) (imm : BitVec 21) : Statement (.andImm h a b imm) := Hd.enc64_fits _ _ _ _ _ _ _
theorem orImm (h : Hd) (a b : SReg) (imm : BitVec 21) : Statement (.orImm h a b imm) := Hd.enc64_fits _ _ _ _ _ _ _
theorem xorImm (h : Hd) (a b : SReg) (imm : BitVec 21) : Statement (.xorImm h a b imm) := Hd.enc64_fits _ _ _ _ _ _ _
theorem andnImm (h : Hd) (a b : SReg) (imm : BitVec 21) : Statement (.andnImm h a b imm) := Hd.enc64_fits _ _ _ _ _ _ _
theorem shlImm (h : Hd) (a b : SReg) (n : BitVec 6) : Statement (.shlImm h a b n) := Hd.enc64_fits _ _ _ _ _ _ _
theorem shrImm (h : Hd) (a b : SReg) (n : BitVec 6) : Statement (.shrImm h a b n) := Hd.enc64_fits _ _ _ _ _ _ _
theorem sarImm (h : Hd) (a b : SReg) (n : BitVec 6) : Statement (.sarImm h a b n) := Hd.enc64_fits _ _ _ _ _ _ _
theorem rotImm (h : Hd) (a b : SReg) (n : BitVec 6) : Statement (.rotImm h a b n) := Hd.enc64_fits _ _ _ _ _ _ _
theorem minImm (h : Hd) (a b : SReg) (imm : BitVec 21) : Statement (.minImm h a b imm) := Hd.enc64_fits _ _ _ _ _ _ _
theorem maxImm (h : Hd) (a b : SReg) (imm : BitVec 21) : Statement (.maxImm h a b imm) := Hd.enc64_fits _ _ _ _ _ _ _
theorem minuImm (h : Hd) (a b : SReg) (imm : BitVec 21) : Statement (.minuImm h a b imm) := Hd.enc64_fits _ _ _ _ _ _ _
theorem maxuImm (h : Hd) (a b : SReg) (imm : BitVec 21) : Statement (.maxuImm h a b imm) := Hd.enc64_fits _ _ _ _ _ _ _
theorem mul (h : Hd) (a b c : SReg) : Statement (.mul h a b c) := Hd.enc64_fits _ _ _ _ _ _ _
theorem mulh (h : Hd) (a b c : SReg) : Statement (.mulh h a b c) := Hd.enc64_fits _ _ _ _ _ _ _
theorem mulhu (h : Hd) (a b c : SReg) : Statement (.mulhu h a b c) := Hd.enc64_fits _ _ _ _ _ _ _
theorem div (h : Hd) (a b c : SReg) : Statement (.div h a b c) := Hd.enc64_fits _ _ _ _ _ _ _
theorem divu (h : Hd) (a b c : SReg) : Statement (.divu h a b c) := Hd.enc64_fits _ _ _ _ _ _ _
theorem rem (h : Hd) (a b c : SReg) : Statement (.rem h a b c) := Hd.enc64_fits _ _ _ _ _ _ _
theorem remu (h : Hd) (a b c : SReg) : Statement (.remu h a b c) := Hd.enc64_fits _ _ _ _ _ _ _
theorem clz (h : Hd) (a b : SReg) : Statement (.clz h a b) := Hd.enc64_fits _ _ _ _ _ _ _
theorem ctz (h : Hd) (a b : SReg) : Statement (.ctz h a b) := Hd.enc64_fits _ _ _ _ _ _ _
theorem popc (h : Hd) (a b : SReg) : Statement (.popc h a b) := Hd.enc64_fits _ _ _ _ _ _ _
theorem brev (h : Hd) (a b : SReg) : Statement (.brev h a b) := Hd.enc64_fits _ _ _ _ _ _ _
theorem bswap (h : Hd) (a b : SReg) : Statement (.bswap h a b) := Hd.enc64_fits _ _ _ _ _ _ _
theorem mix (h : Hd) (a b c : SReg) : Statement (.mix h a b c) := Hd.enc64_fits _ _ _ _ _ _ _
theorem bfx (h : Hd) (a b : SReg) (sx : Bool) (lsb widthM1 : BitVec 6) : Statement (.bfx h a b sx lsb widthM1) := Hd.enc64_fits _ _ _ _ _ _ _
theorem bfi (h : Hd) (a b : SReg) (lsb widthM1 : BitVec 6) : Statement (.bfi h a b lsb widthM1) := Hd.enc64_fits _ _ _ _ _ _ _
theorem cmp (h : Hd) (gd : GReg) (b c : SReg) (cond : ICond) (w : GWrite) : Statement (.cmp h gd b c cond w) := Hd.enc64_fits _ _ _ _ _ _ _
theorem cmpi (h : Hd) (gd : GReg) (b : SReg) (imm : BitVec 21) (cond : ICond) (w : GWrite) : Statement (.cmpi h gd b imm cond w) := Hd.enc64_fits _ _ _ _ _ _ _
theorem sel (h : Hd) (a b c : SReg) (gs : GReg) (inv : Bool) : Statement (.sel h a b c gs inv) := Hd.enc64_fits _ _ _ _ _ _ _
theorem glog (h : Hd) (op : GlogOp) : Statement (.glog h op) := GlogOp.enc_fits _ _
theorem movi (h : Hd) (a : SReg) (imm : BitVec 21) : Statement (.movi h a imm) := Hd.enc64_fits _ _ _ _ _ _ _
theorem movw (h : Hd) (a : SReg) (imm : BitVec 53) : Statement (.movw h a imm) := Hd.enc96_fits _ _ _ _ _ _ _
theorem fadd (h : Hd) (a b c : SReg) (f : SFmt) (rm : RM) : Statement (.fadd h a b c f rm) := Hd.enc64_fits _ _ _ _ _ _ _
theorem fsub (h : Hd) (a b c : SReg) (f : SFmt) (rm : RM) : Statement (.fsub h a b c f rm) := Hd.enc64_fits _ _ _ _ _ _ _
theorem fmul (h : Hd) (a b c : SReg) (f : SFmt) (rm : RM) : Statement (.fmul h a b c f rm) := Hd.enc64_fits _ _ _ _ _ _ _
theorem fdiv (h : Hd) (a b c : SReg) (f : SFmt) (rm : RM) : Statement (.fdiv h a b c f rm) := Hd.enc64_fits _ _ _ _ _ _ _
theorem fsqrt (h : Hd) (a b : SReg) (f : SFmt) (rm : RM) : Statement (.fsqrt h a b f rm) := Hd.enc64_fits _ _ _ _ _ _ _
theorem fmin (h : Hd) (a b c : SReg) (f : SFmt) (rm : RM) : Statement (.fmin h a b c f rm) := Hd.enc64_fits _ _ _ _ _ _ _
theorem fmax (h : Hd) (a b c : SReg) (f : SFmt) (rm : RM) : Statement (.fmax h a b c f rm) := Hd.enc64_fits _ _ _ _ _ _ _
theorem ffma (h : Hd) (a b c : SReg) (k : Fma) (f : SFmt) (rm : RM) : Statement (.ffma h a b c k f rm) := Hd.enc64_fits _ _ _ _ _ _ _
theorem fcmp (h : Hd) (gd : GReg) (b c : SReg) (cond : FCond) (f : SFmt) (sig : Bool) : Statement (.fcmp h gd b c cond f sig) := Hd.enc64_fits _ _ _ _ _ _ _
theorem fcvt (h : Hd) (a b : SReg) (dst src : Cvt) (rm : RM) : Statement (.fcvt h a b dst src rm) := Hd.enc64_fits _ _ _ _ _ _ _
theorem fclass (h : Hd) (a b : SReg) (f : SFmt) : Statement (.fclass h a b f) := Hd.enc64_fits _ _ _ _ _ _ _
theorem idr (h : Hd) (a : SReg) (r : IdReg) : Statement (.idr h a r) := Hd.enc64_fits _ _ _ _ _ _ _
theorem srr (h : Hd) (a : SReg) (r : SysReg) : Statement (.srr h a r) := Hd.enc64_fits _ _ _ _ _ _ _
theorem srw (h : Hd) (r : SysReg) (b : SReg) : Statement (.srw h r b) := Hd.enc64_fits _ _ _ _ _ _ _
theorem br (h : Hd) (imm : BitVec 21) : Statement (.br h imm) := Hd.enc64_fits _ _ _ _ _ _ _
theorem brl (h : Hd) (imm : BitVec 53) : Statement (.brl h imm) := Hd.enc96_fits _ _ _ _ _ _ _
theorem call (h : Hd) (a : SReg) (imm : BitVec 21) : Statement (.call h a imm) := Hd.enc64_fits _ _ _ _ _ _ _
theorem calll (h : Hd) (a : SReg) (imm : BitVec 53) : Statement (.calll h a imm) := Hd.enc96_fits _ _ _ _ _ _ _
theorem ret (h : Hd) (b : SReg) : Statement (.ret h b) := Hd.enc64_fits _ _ _ _ _ _ _
theorem jmpr (h : Hd) (a b : SReg) (imm : BitVec 21) : Statement (.jmpr h a b imm) := Hd.enc64_fits _ _ _ _ _ _ _
theorem loop (h : Hd) (b : SReg) (imm : BitVec 21) : Statement (.loop h b imm) := Hd.enc64_fits _ _ _ _ _ _ _
theorem endl (h : Hd) : Statement (.endl h) := Hd.enc64_fits _ _ _ _ _ _ _
theorem brk (h : Hd) (code : BitVec 20) : Statement (.brk h code) := Hd.enc64_fits _ _ _ _ _ _ _
theorem trap (h : Hd) (code : BitVec 20) : Statement (.trap h code) := Hd.enc64_fits _ _ _ _ _ _ _
theorem syscall (h : Hd) (code : BitVec 20) : Statement (.syscall h code) := Hd.enc64_fits _ _ _ _ _ _ _
theorem eret (h : Hd) : Statement (.eret h) := Hd.enc64_fits _ _ _ _ _ _ _
theorem exit (h : Hd) : Statement (.exit h) := Hd.enc64_fits _ _ _ _ _ _ _
theorem detach (h : Hd) : Statement (.detach h) := Hd.enc64_fits _ _ _ _ _ _ _
theorem join (h : Hd) : Statement (.join h) := Hd.enc64_fits _ _ _ _ _ _ _
theorem yield (h : Hd) : Statement (.yield h) := Hd.enc64_fits _ _ _ _ _ _ _
theorem ld (h : Hd) (a b : SReg) (imm : BitVec 21) (size : Size) (sx : Bool) : Statement (.ld h a b imm size sx) := Hd.enc64_fits _ _ _ _ _ _ _
theorem ldx (h : Hd) (a b c : SReg) (imm : BitVec 53) (size : Size) (sx : Bool) : Statement (.ldx h a b c imm size sx) := Hd.enc96_fits _ _ _ _ _ _ _
theorem st (h : Hd) (a b : SReg) (imm : BitVec 21) (size : Size) : Statement (.st h a b imm size) := Hd.enc64_fits _ _ _ _ _ _ _
theorem rflush (h : Hd) (b : SReg) (imm : BitVec 21) (c : SReg) (m : Flush) : Statement (.rflush h b imm c m) := Hd.enc64_fits _ _ _ _ _ _ _
theorem rdrop (h : Hd) (b : SReg) (imm : BitVec 21) (c : SReg) : Statement (.rdrop h b imm c) := Hd.enc64_fits _ _ _ _ _ _ _
theorem rpin (h : Hd) (gd : GReg) (b : SReg) (imm : BitVec 21) (c : SReg) (x : Bool) (cls : RClass) : Statement (.rpin h gd b imm c x cls) := Hd.enc64_fits _ _ _ _ _ _ _
theorem runpin (h : Hd) (b : SReg) (imm : BitVec 21) (c : SReg) : Statement (.runpin h b imm c) := Hd.enc64_fits _ _ _ _ _ _ _
theorem pref (h : Hd) (b : SReg) (imm : BitVec 21) (c : SReg) (x : Bool) (cls : RClass) : Statement (.pref h b imm c x cls) := Hd.enc64_fits _ _ _ _ _ _ _
theorem fence (h : Hd) (scope : Scope) : Statement (.fence h scope) := Hd.enc64_fits _ _ _ _ _ _ _
theorem ifence (h : Hd) (b : SReg) (scope : Scope) : Statement (.ifence h b scope) := Hd.enc64_fits _ _ _ _ _ _ _
theorem pfence (h : Hd) : Statement (.pfence h) := Hd.enc64_fits _ _ _ _ _ _ _
theorem amo (h : Hd) (a b c : SReg) (op : AmoOp) (dbl : Bool) (scope : Scope) : Statement (.amo h a b c op dbl scope) := Hd.enc64_fits _ _ _ _ _ _ _
theorem cas (h : Hd) (a b c : SReg) (dbl : Bool) (scope : Scope) : Statement (.cas h a b c dbl scope) := Hd.enc64_fits _ _ _ _ _ _ _
theorem acq (h : Hd) (b : SReg) (x : Bool) (scope : Scope) : Statement (.acq h b x scope) := Hd.enc64_fits _ _ _ _ _ _ _
theorem rel (h : Hd) (b : SReg) (scope : Scope) : Statement (.rel h b scope) := Hd.enc64_fits _ _ _ _ _ _ _
theorem bar (h : Hd) (b : SReg) : Statement (.bar h b) := Hd.enc64_fits _ _ _ _ _ _ _
theorem sstep (h : Hd) : Statement (.sstep h) := Hd.enc64_fits _ _ _ _ _ _ _
theorem msgsend (h : Hd) (b c : SReg) (cc : BitVec 4) : Statement (.msgsend h b c cc) := Hd.enc64_fits _ _ _ _ _ _ _
theorem msgwait (h : Hd) (a : SReg) : Statement (.msgwait h a) := Hd.enc64_fits _ _ _ _ _ _ _
theorem trig (h : Hd) : Statement (.trig h) := Hd.enc64_fits _ _ _ _ _ _ _
theorem waitdep (h : Hd) : Statement (.waitdep h) := Hd.enc64_fits _ _ _ _ _ _ _
theorem xwait (h : Hd) (b : SReg) (ch : BitVec 3) : Statement (.xwait h b ch) := Hd.enc64_fits _ _ _ _ _ _ _
theorem ccwait (h : Hd) (b : SReg) (cc : BitVec 4) : Statement (.ccwait h b cc) := Hd.enc64_fits _ _ _ _ _ _ _
theorem twait (h : Hd) (t : BitVec 5) : Statement (.twait h t) := Hd.enc64_fits _ _ _ _ _ _ _
theorem trel (h : Hd) (t : BitVec 5) : Statement (.trel h t) := Hd.enc64_fits _ _ _ _ _ _ _
theorem tstate (h : Hd) (a : SReg) (t : BitVec 5) : Statement (.tstate h a t) := Hd.enc64_fits _ _ _ _ _ _ _
theorem hget (h : Hd) (a : SReg) (b : HReg) (f : HField) : Statement (.hget h a b f) := Hd.enc64_fits _ _ _ _ _ _ _
theorem hset (h : Hd) (a : HReg) (b : SReg) (f : HField) : Statement (.hset h a b f) := Hd.enc64_fits _ _ _ _ _ _ _
theorem hmov (h : Hd) (a b : HReg) : Statement (.hmov h a b) := Hd.enc64_fits _ _ _ _ _ _ _
theorem claim (h : Hd) (a b : SReg) : Statement (.claim h a b) := Hd.enc64_fits _ _ _ _ _ _ _
theorem vrelease (h : Hd) : Statement (.vrelease h) := Hd.enc64_fits _ _ _ _ _ _ _
theorem cbwait (h : Hd) (b c : SReg) : Statement (.cbwait h b c) := Hd.enc64_fits _ _ _ _ _ _ _
theorem cbrel (h : Hd) (b c : SReg) : Statement (.cbrel h b c) := Hd.enc64_fits _ _ _ _ _ _ _
theorem hld (h : Hd) (a : HReg) (b : SReg) (imm : BitVec 53) : Statement (.hld h a b imm) := Hd.enc96_fits _ _ _ _ _ _ _
theorem hst (h : Hd) (a : HReg) (b : SReg) (imm : BitVec 53) : Statement (.hst h a b imm) := Hd.enc96_fits _ _ _ _ _ _ _
theorem hview (h : Hd) (a b : HReg) (c : SReg) (dim : BitVec 2) (ext : BitVec 16) : Statement (.hview h a b c dim ext) := Hd.enc96_fits _ _ _ _ _ _ _
theorem send (h : Hd) (a b : SReg) (c : HReg) (ch : BitVec 3) (fl : EFlags) (dst : BitVec 19) : Statement (.send h a b c ch fl dst) := Hd.enc96_fits _ _ _ _ _ _ _
theorem cbinit (h : Hd) (b c : SReg) (count : BitVec 8) : Statement (.cbinit h b c count) := Hd.enc96_fits _ _ _ _ _ _ _
theorem cbacq (h : Hd) (a b : SReg) : Statement (.cbacq h a b) := Hd.enc96_fits _ _ _ _ _ _ _
theorem cbcommit (h : Hd) (b : SReg) : Statement (.cbcommit h b) := Hd.enc96_fits _ _ _ _ _ _ _
theorem mprog (h : Hd) (prog : BitVec 53) : Statement (.mprog h prog) := Hd.enc96_fits _ _ _ _ _ _ _
theorem rset (h : Hd) (b c : SReg) : Statement (.rset h b c) := Hd.enc96_fits _ _ _ _ _ _ _
theorem pdecl (h : Hd) (a b c : SReg) (state : BitVec 53) : Statement (.pdecl h a b c state) := Hd.enc96_fits _ _ _ _ _ _ _
theorem pwait (h : Hd) (b : SReg) : Statement (.pwait h b) := Hd.enc96_fits _ _ _ _ _ _ _
theorem pstate (h : Hd) (a b : SReg) : Statement (.pstate h a b) := Hd.enc96_fits _ _ _ _ _ _ _
theorem xstat (h : Hd) (a : SReg) (ch : BitVec 3) : Statement (.xstat h a ch) := Hd.enc96_fits _ _ _ _ _ _ _
theorem ccrd (h : Hd) (a : SReg) (cc : BitVec 4) : Statement (.ccrd h a cc) := Hd.enc96_fits _ _ _ _ _ _ _
theorem varith (h : Hx) (o1 o2 : HReg) (o3 : HReg) (o4 : SReg) (op : VOp) (ef : EF) (rm : RM) : Statement (.varith h o1 o2 o3 o4 op ef rm) := Hx.enc_fits _ _ _ _ _ _ _ _ _
theorem vfma (h : Hx) (o1 o2 o3 o4 : HReg) (o5 : SReg) (k : Fma) (ef : SFmt) (rm : RM) : Statement (.vfma h o1 o2 o3 o4 o5 k ef rm) := Hx.enc_fits _ _ _ _ _ _ _ _ _
theorem vcmp (h : Hx) (o1 o2 o3 : HReg) (o4 : SReg) (cond : BitVec 4) (ef : EF) (sig : Bool) : Statement (.vcmp h o1 o2 o3 o4 cond ef sig) := Hx.enc_fits _ _ _ _ _ _ _ _ _
theorem vsel (h : Hx) (o1 o2 o3 o4 : HReg) (o5 : SReg) (ef : EF) : Statement (.vsel h o1 o2 o3 o4 o5 ef) := Hx.enc_fits _ _ _ _ _ _ _ _ _
theorem vlogic (h : Hx) (o1 o2 o3 : HReg) (o4 : SReg) (op : LogicOp) (ef : EF) : Statement (.vlogic h o1 o2 o3 o4 op ef) := Hx.enc_fits _ _ _ _ _ _ _ _ _
theorem vshift (h : Hx) (o1 o2 : HReg) (o3 : HReg) (o4 : SReg) (op : ShiftOp) (ef : EF) (count : Option (BitVec 6)) : Statement (.vshift h o1 o2 o3 o4 op ef count) := by cases count <;> exact Hx.enc_fits _ _ _ _ _ _ _ _ _
theorem vcvt (h : Hx) (o1 o2 : HReg) (o3 : SReg) (tag : BitVec 8) (rm : RM) : Statement (.vcvt h o1 o2 o3 tag rm) := Hx.enc_fits _ _ _ _ _ _ _ _ _
theorem vreq (h : Hx) (o1 o2 : HReg) (o3 : SReg) (bsf4 : Bool) : Statement (.vreq h o1 o2 o3 bsf4) := Hx.enc_fits _ _ _ _ _ _ _ _ _
theorem vsfu (h : Hx) (o1 o2 : HReg) (o3 : SReg) (fn : SfuFn) (ef : SFmt) : Statement (.vsfu h o1 o2 o3 fn ef) := Hx.enc_fits _ _ _ _ _ _ _ _ _
theorem vred (h : Hx) (o1 o2 : HReg) (o3 : SReg) (op : RedOp) (ef : EF) (rm : RM) : Statement (.vred h o1 o2 o3 op ef rm) := Hx.enc_fits _ _ _ _ _ _ _ _ _
theorem vscan (h : Hx) (o1 o2 : HReg) (o3 : SReg) (op : ScanOp) (ef : EF) (ex : Bool) (rm : RM) : Statement (.vscan h o1 o2 o3 op ef ex rm) := Hx.enc_fits _ _ _ _ _ _ _ _ _
theorem vperm (h : Hx) (o1 o2 o3 : HReg) (o4 : SReg) (scat : Bool) (ef : EF) : Statement (.vperm h o1 o2 o3 o4 scat ef) := Hx.enc_fits _ _ _ _ _ _ _ _ _
theorem vbcast (h : Hx) (o1 o2 : HReg) (o3 : SReg) (ef : EF) : Statement (.vbcast h o1 o2 o3 ef) := Hx.enc_fits _ _ _ _ _ _ _ _ _
theorem vmov (h : Hx) (o1 o2 : HReg) (o3 : SReg) : Statement (.vmov h o1 o2 o3) := Hx.enc_fits _ _ _ _ _ _ _ _ _
theorem vfill (h : Hx) (o1 : HReg) (o2 o3 : SReg) (size : Size) : Statement (.vfill h o1 o2 o3 size) := Hx.enc_fits _ _ _ _ _ _ _ _ _
theorem vclass (h : Hx) (o1 o2 : HReg) (o3 : SReg) (ef : SFmt) : Statement (.vclass h o1 o2 o3 ef) := Hx.enc_fits _ _ _ _ _ _ _ _ _
theorem vmix (h : Hx) (o1 o2 : HReg) (o3 o4 : SReg) : Statement (.vmix h o1 o2 o3 o4) := Hx.enc_fits _ _ _ _ _ _ _ _ _
theorem mgang (h : Hx) (o1 : SReg) : Statement (.mgang h o1) := Hx.enc_fits _ _ _ _ _ _ _ _ _
theorem mma (h : Hx) (o1 o2 : HReg) (o3 : SReg) (mode : MmaMode) (acc sp : Bool) (pa pb : BitVec 4) : Statement (.mma h o1 o2 o3 mode acc sp pa pb) := Hx.enc_fits _ _ _ _ _ _ _ _ _
theorem mrec (h : Hx) (o1 o2 : HReg) (o3 : SReg) (ef : EF) : Statement (.mrec h o1 o2 o3 ef) := Hx.enc_fits _ _ _ _ _ _ _ _ _
theorem mhatch (h : Hx) (o1 o2 : HReg) : Statement (.mhatch h o1 o2) := Hx.enc_fits _ _ _ _ _ _ _ _ _
theorem munhatch (h : Hx) (o1 o2 : HReg) : Statement (.munhatch h o1 o2) := Hx.enc_fits _ _ _ _ _ _ _ _ _
theorem epi (h : Hx) (o1 : HReg) (o2 : SReg) (fl : EFlags) : Statement (.epi h o1 o2 fl) := Hx.enc_fits _ _ _ _ _ _ _ _ _
theorem rstat (h : Hx) (o1 : HReg) (slot : BitVec 2) : Statement (.rstat h o1 slot) := Hx.enc_fits _ _ _ _ _ _ _ _ _
theorem mwait (h : Hx) : Statement (.mwait h) := Hx.enc_fits _ _ _ _ _ _ _ _ _
theorem mabort (h : Hx) : Statement (.mabort h) := Hx.enc_fits _ _ _ _ _ _ _ _ _
theorem rfwd (h : Hx) (o1 o2 : HReg) (o3 : SReg) : Statement (.rfwd h o1 o2 o3) := Hx.enc_fits _ _ _ _ _ _ _ _ _
theorem rrev (h : Hx) (o1 o2 : HReg) (o3 : SReg) (gd : GReg) : Statement (.rrev h o1 o2 o3 gd) := Hx.enc_fits _ _ _ _ _ _ _ _ _
theorem rchk (h : Hx) (o1 : HReg) (o2 : SReg) (gd : GReg) : Statement (.rchk h o1 o2 gd) := Hx.enc_fits _ _ _ _ _ _ _ _ _
theorem put (h : Hx) (o1 : HReg) (o2 : SReg) (o3 : HReg) (o4 : SReg) (fl : EFlags) (cc : BitVec 4) : Statement (.put h o1 o2 o3 o4 fl cc) := Hx.enc_fits _ _ _ _ _ _ _ _ _
theorem get (h : Hx) (o1 : HReg) (o2 : SReg) (o3 : HReg) (o4 : SReg) (fl : EFlags) (cc : BitVec 4) : Statement (.get h o1 o2 o3 o4 fl cc) := Hx.enc_fits _ _ _ _ _ _ _ _ _
theorem pld (h : Hx) (o1 : HReg) (o2 o3 : SReg) (fl : EFlags) : Statement (.pld h o1 o2 o3 fl) := Hx.enc_fits _ _ _ _ _ _ _ _ _
theorem pconv (h : Hx) (o1 o2 : SReg) (fl : EFlags) : Statement (.pconv h o1 o2 fl) := Hx.enc_fits _ _ _ _ _ _ _ _ _
theorem tfill (h : Hx) (o1 o2 : HReg) (fl : EFlags) (t : BitVec 5) (ch : BitVec 3) : Statement (.tfill h o1 o2 fl t ch) := Hx.enc_fits _ _ _ _ _ _ _ _ _
theorem tdrain (h : Hx) (o1 o2 : HReg) (fl : EFlags) (t : BitVec 5) (ch : BitVec 3) : Statement (.tdrain h o1 o2 fl t ch) := Hx.enc_fits _ _ _ _ _ _ _ _ _
theorem pendingWriteLand (c : Nat) : Statement (.pendingWriteLand c) := fits_none
theorem l1Fill (c k : Nat) : Statement (.l1Fill c k) := fits_none
theorem ownershipGrant (c k : Nat) : Statement (.ownershipGrant c k) := fits_none
theorem invalidate (c pa len : Nat) : Statement (.invalidate c pa len) := fits_none
theorem downgrade (c pa len : Nat) : Statement (.downgrade c pa len) := fits_none
theorem walkComplete (die k : Nat) : Statement (.walkComplete die k) := fits_none
theorem hotRowHalve (die : Nat) : Statement (.hotRowHalve die) := fits_none
theorem mmaStart (c : Nat) : Statement (.mmaStart c) := fits_none
theorem mmaComplete (c : Nat) : Statement (.mmaComplete c) := fits_none
theorem mrecComplete (c : Nat) : Statement (.mrecComplete c) := fits_none
theorem mhatchComplete (c : Nat) : Statement (.mhatchComplete c) := fits_none
theorem rstatComplete (c : Nat) : Statement (.rstatComplete c) := fits_none
theorem epiComplete (c : Nat) : Statement (.epiComplete c) := fits_none
theorem sfuRequestStart (pod : Nat) : Statement (.sfuRequestStart pod) := fits_none
theorem sfuDeliver (c : Nat) : Statement (.sfuDeliver c) := fits_none
theorem tfillComplete (c k : Nat) : Statement (.tfillComplete c k) := fits_none
theorem tdrainComplete (c k : Nat) : Statement (.tdrainComplete c k) := fits_none
theorem sendLand (c k : Nat) : Statement (.sendLand c k) := fits_none
theorem packetLand (c k : Nat) : Statement (.packetLand c k) := fits_none
theorem getRequestServe (c k : Nat) : Statement (.getRequestServe c k) := fits_none
theorem getReplyLand (c k : Nat) : Statement (.getReplyLand c k) := fits_none
theorem subroundOpen (launch : Nat) : Statement (.subroundOpen launch) := fits_none
theorem subroundClose (c : Nat) : Statement (.subroundClose c) := fits_none
theorem messageArrive (c k : Nat) : Statement (.messageArrive c k) := fits_none
theorem phaseClose (launch group : Nat) : Statement (.phaseClose launch group) := fits_none
theorem acqGrant (pa : Nat) : Statement (.acqGrant pa) := fits_none
theorem slotReturn (cb : Nat) (idx : List Nat) : Statement (.slotReturn cb idx) := fits_none
theorem homeAtomic (k : Nat) : Statement (.homeAtomic k) := fits_none
theorem sstepComplete (launch : Nat) : Statement (.sstepComplete launch) := fits_none
theorem occupancyReport (cb resv head tail count : Nat) : Statement (.occupancyReport cb resv head tail count) := fits_none
theorem placementCutClose (e : Nat) : Statement (.placementCutClose e) := fits_none
theorem conversionPartWritten (e : Nat) : Statement (.conversionPartWritten e) := fits_none
theorem conversionComplete (e : Nat) : Statement (.conversionComplete e) := fits_none
theorem fabricCutClose (e : Nat) (reports : List PlaceReport) : Statement (.fabricCutClose e reports) := fits_none
theorem rollback (launch : Nat) (u : FaultUnit) : Statement (.rollback launch u) := fits_none
theorem linkMessageReceive (port : Nat) (m : LinkMsg) (tagOk : Bool) : Statement (.linkMessageReceive port m tagOk) := fits_none
theorem switchRequestArrival (r : SwitchArrival) : Statement (.switchRequestArrival r) := fits_none
theorem replySplit (k : Nat) : Statement (.replySplit k) := fits_none
theorem cxlSnoop (addr : Nat) : Statement (.cxlSnoop addr) := fits_none
theorem hostWrite (addr : Nat) (bytes : List Byte) : Statement (.hostWrite addr bytes) := fits_none
theorem engineFaultDelivery (c : Nat) : Statement (.engineFaultDelivery c) := fits_none
theorem waitThreshold (c : Nat) : Statement (.waitThreshold c) := fits_none
theorem swapDeadline (c : Nat) : Statement (.swapDeadline c) := fits_none
theorem teamReturn (c : Nat) : Statement (.teamReturn c) := fits_none
theorem preemptDeadline (c : Nat) : Statement (.preemptDeadline c) := fits_none
theorem launchRecordAccept (q : Nat) : Statement (.launchRecordAccept q) := fits_none
theorem launchStart (seq : Word) : Statement (.launchStart seq) := fits_none
theorem completionRecordWrite (q : Nat) : Statement (.completionRecordWrite q) := fits_none
theorem queueDoorbell (q : Nat) (pidx : BitVec 32) : Statement (.queueDoorbell q pidx) := fits_none
theorem queueCheadWrite (q : Nat) (chead : BitVec 32) : Statement (.queueCheadWrite q chead) := fits_none
theorem queueEnable (q : Nat) : Statement (.queueEnable q) := fits_none
theorem queueDisable (q : Nat) : Statement (.queueDisable q) := fits_none
theorem devidxWrite (idx : BitVec 11) : Statement (.devidxWrite idx) := fits_none
theorem eheadWrite (ehead : BitVec 32) : Statement (.eheadWrite ehead) := fits_none
theorem hostRegisterWrite (off : Nat) (v : Word) : Statement (.hostRegisterWrite off v) := fits_none
theorem preEmpt (seq : Word) : Statement (.preEmpt seq) := fits_none
theorem resume (seq : Word) : Statement (.resume seq) := fits_none
theorem endLaunch (seq : Word) : Statement (.endLaunch seq) := fits_none
theorem invalidateTlb (seq : Word) : Statement (.invalidateTlb seq) := fits_none
theorem returnLink (seq : Word) : Statement (.returnLink seq) := fits_none
theorem powerMode (seq : Word) : Statement (.powerMode seq) := fits_none
theorem wrst : Statement (.wrst) := fits_none
theorem functionLevelReset : Statement (.functionLevelReset) := fits_none
theorem coldReset : Statement (.coldReset) := fits_none
theorem attestationRequest (nonce : BitVec 384) : Statement (.attestationRequest nonce) := fits_none
theorem linkTraining (port lanes partner : Nat) (reach : List Nat) : Statement (.linkTraining port lanes partner reach) := fits_none
theorem thermalThrottle : Statement (.thermalThrottle) := fits_none
theorem thermalTrip : Statement (.thermalTrip) := fits_none
theorem commandStoppedAtFault (c : Nat) (e : Engine) (k : Nat) : Statement (.commandStoppedAtFault c e k) := fits_none
theorem writeBackComplete (c k : Nat) : Statement (.writeBackComplete c k) := fits_none

end Sys2Proof.Laws.Lays
end

