-- ==== Sys2Proof/Tests/Bench.lean ====
section
/-! SUPPORT. The small states on which the tests and the witnesses stand. -/

namespace Sys2Proof.Tests

set_option Elab.async false

open Machine

/-- A header without delay slots, unguarded. -/
def hd : Hd := { dly := 0, g := 0, gn := false }

/-- A 128-bit header, unguarded. -/
def hx : Hx := { dly := 0, ga := 0, gb := 0, gop := 0, yld := false, hint := 0, pinc := 0, inc1 := 0, inc2 := 0, inc3 := 0 }

/-- Core 0 about to run a `NOP` at address 0 in user mode, with a vector base, quotas and a scratchpad of 64 KiB. -/
def user : State :=
  (State.reset.withFetchWord 64 1).upd fun c => { c with sys := { c.sys with tvec := 64, pmax := 100, lmax := 64 }, padKiB := 64 }

/-- The same in supervisor mode. -/
def super : State := user.upd fun c => { c with sys := { c.sys with sup := true } }

/-- A state with values in `s1`, `s2` and so on. -/
def vals (l : List Word) (s : State) : State := s.upd fun c => (l.zipIdx 1).foldl (fun c x => c.setS (BitVec.ofNat 6 x.2) x.1) c

/-- A state with handles in `h0`, `h1` and so on. -/
def hands (l : List Handle) (s : State) : State :=
  s.upd fun c => (l.zipIdx).foldl (fun c x => c.setH (BitVec.ofNat 5 x.2) x.1) c

/-- A state whose launch is changed. -/
def launched (f : Launch → Launch) (s : State) : State := s.updLaunch 0 f

/-- A group of core 0 alone. -/
def only0 (k : Nat) (a : List (Nat × Bool)) : Group := { kind := k, axes := a, members := [0] }

/-- The launch has the groups 0 (a barrier set), 1 (a gang), 2 (a multicast set) and 3 (a mesh of one pod), each of core 0 alone. -/
def grouped : State :=
  launched (fun l => { l with groups := [(0, only0 2 []), (1, only0 1 []), (2, only0 3 []), (3, only0 4 [(1, false)])] }) user

/-- Whether an access of the running core lies in the page at 0 that `probePage` maps. -/
def inPage (s : State) (n : Need) (va len : Nat) : Bool :=
  decide (findTlb (s.space s.cur).1 (s.space s.cur).2 va (s.at s.cur).tlb = some probePage) && (probePage.refuses n).isNone &&
    (s.unreachable (probePage.key va)).isNone && decide (va < 8192) && decide (0 < len) && decide (len ≤ 8192 - va)

/-- Such an access translates to the same physical bytes and changes nothing. -/
theorem inPage_translates {s : State} {n : Need} {va len : Nat} (h : inPage s n va len = true) :
    s.translateAll s.cur n va len = (s, [(va, va, len)], none) := by
  simp only [inPage, Bool.and_eq_true, decide_eq_true_eq, Option.isNone_iff_eq_none] at h
  obtain ⟨⟨⟨⟨⟨hf, hr⟩, hu⟩, hv⟩, hn⟩, hl⟩ := h
  have hk : probePage.key va = va := by simp [TlbEntry.key, probePage]; omega
  have hb : 2 ^ probePage.bits - va % 2 ^ probePage.bits = 8192 - va := by simp [probePage]; omega
  have := State.translateAll_hit (s := s) (i := s.cur) (len := len) (by omega) hf hr (fun _ => rfl) hu hn (by rw [hb]; exact hl)
  rwa [hk] at this

/-- A computation that answers, answers something. -/
theorem answers {ε α : Type} {x : Except ε α} (h : x.toBool = true) : ∃ a, x = .ok a := by
  cases x with
  | error e => simp [Except.toBool] at h
  | ok a => exact ⟨a, rfl⟩

/-- A check that does not refuse, passes. -/
theorem passes {ε : Type} {x : Except ε Unit} (h : x.toBool = true) : x = .ok () := (answers h).elim fun _ h => h

/-- An option that is there. -/
theorem there {α : Type} {x : Option α} (h : x.isSome = true) : ∃ a, x = some a := Option.isSome_iff_exists.mp h

/-- An option that is there, with a property of what it holds. -/
theorem thereWith {α : Type} {x : Option α} (p : α → Bool) (h : x.any p = true) : ∃ a, x = some a ∧ p a = true := by
  cases x with
  | none => simp at h
  | some a => exact ⟨a, rfl, by simpa using h⟩

/-- The second of a pair that is there, its first as expected. -/
theorem thereWith2 {α β : Type} [DecidableEq α] {x : Option (α × β)} {a : α} {p : β → Bool}
    (h : (x.any fun r => decide (r.1 = a) && p r.2) = true) : ∃ b, x = some (a, b) ∧ p b = true := by
  cases x with
  | none => simp at h
  | some r => obtain ⟨c, b⟩ := r; simp at h; exact ⟨b, by rw [h.1], h.2⟩

/-- What holds of every core and of a core at reset, holds of the core at any number. -/
theorem everyCore {s : State} {p : Core → Bool} (h : s.cores.toList.all p = true) (hr : p Core.reset = true) (m : Nat) : p (s.at m) = true := by
  unfold State.at
  split
  · rename_i hm
    exact List.all_eq_true.mp h _ (by simp [Vector.mem_toList_iff])
  · exact hr

/-- A computation that answers, with a property of what it answers. -/
theorem answersWith {ε α : Type} {x : Except ε α} (p : α → Bool) (h : (match x with | .ok a => p a | .error _ => false) = true) :
    ∃ a, x = .ok a ∧ p a = true := by
  cases x with
  | error e => simp at h
  | ok a => exact ⟨a, rfl, h⟩

/-- Inserting slots changes nothing while no write is pending. -/
theorem slotted_of_idle {s : State} (k : Nat) (f : Core → Option Core) (h : s.core.pend = []) : s.slotted k f = .ok s := by
  simp [State.slotted, h]

/-- A core with nothing pending has landed as it stands. -/
theorem drained_of_idle {s : State} (h : s.core.pend = []) : s.drained = .ok s := slotted_of_idle _ _ h

/-- A core with nothing pending has room as it stands. -/
theorem roomed_of_idle {s : State} (h : s.core.pend = []) : s.roomed = .ok s := slotted_of_idle _ _ h

/-- A core whose memory queue is empty has performed everything, at every scope, while no device has been asked or written to. -/
theorem performed_of {s : State} {i : Nat} (h : ((s.at i).memq.isEmpty && s.remotes.isEmpty && s.farWrites.isEmpty) = true) (sc : Scope) :
    ((sc = .core) ∨ ((∀ q ∈ (s.at i).memq, (∃ a n e k, q = .fill a n e k) ∨ ∃ a n k, q = .repin a n k) ∧
      (sc = .sys → (∀ r ∈ s.remotes, r.asked = false) ∧ ∀ w ∈ s.farWrites, ¬ ((s.at i).launch = some w.seq ∧ w.team = (s.at i).team)))) := by
  simp only [Bool.and_eq_true, List.isEmpty_iff] at h
  obtain ⟨⟨h1, h2⟩, h3⟩ := h
  exact Or.inr ⟨by simp [h1], fun _ => ⟨by simp [h2], by simp [h3]⟩⟩

/-- A state with a number in the 8 bytes at an address. -/
def word8 (a v : Nat) (s : State) : State := { s with mem := s.mem.write a (bytesLE 8 v) }

end Sys2Proof.Tests
end

