-- ==== Sys2Proof/Tests/Slice0.lean ====
section
/-! SUPPORT. Tests of well-formedness, of decoding against words written out from the spec's encodings, of single steps. -/

namespace Sys2Proof.Tests

set_option Elab.async false

open Machine

/-! ## Well-formedness: a term that breaks each check, and one that meets it -/

/-- Flags without a scope that they need, and with one they may not name. -/
def noFlags : EFlags := { acq := false, rel := false, scope := .core }
def lostScope : EFlags := { acq := false, rel := false, scope := .pod }

/-- Whether every term of a list is refused. -/
def refusedAll (l : List Instr) : Bool := l.all fun i => !WellFormed i

/-- R36: a bit field beyond bit 63, a conversion between equal or two integer codes, a loop whose end lies before it. -/
theorem test_wf_scalar : refusedAll [.bfx hd 1 2 false 60 4, .bfi hd 1 2 63 1, .fcvt hd 1 2 .f32 .f32 .dyn, .fcvt hd 1 2 .i64 .nat32 .dyn,
    .loop hd 1 0, .loop hd 1 0x1FFFFF] = true := by decide

/-- R35, R37, R38: a sign extension of 8 bytes, a binary64 sum of 4 bytes, a scope without a flag, a write of FMT. -/
theorem test_wf_memory : refusedAll [.ld hd 1 2 0 .d true, .ldx hd 1 2 3 0 .d true, .amo hd 1 2 3 .fadd false .dev, .send hd 1 2 3 0 lostScope 0,
    .hset hd 1 2 .fmt] = true := by decide

/-- R192: no operation, an unassigned compare, a field that must be zero, a hole between operations. -/
theorem test_wf_program : refusedAll [.mprog hd 0, .mprog hd 0xC0B, .mprog hd 0x201, .mprog hd 0x4000000000001, .mprog hd 0x1000001] = true := by decide

/-- R25, R27, R28: GB without GOP, HINT where it is not defined, a post-increment of no handle, four of them, one handle twice, an
increment without its bit. -/
theorem test_wf_header : refusedAll [.vmov { hx with gb := 1 } 1 2 3, .vmov { hx with hint := 1 } 1 2 3, .vmov { hx with pinc := 4 } 1 2 3,
    .vfma { hx with pinc := 15 } 1 2 3 4 5 .fma .f64 .dyn, .vmov { hx with pinc := 3 } 1 1 3, .vmov { hx with inc1 := 8 } 1 2 3,
    .vmov { hx with pinc := 1, inc2 := 8 } 1 2 3, .mgang { hx with pinc := 1 } 1, .mwait { hx with pinc := 1 }, .mabort { hx with hint := 1 },
    .vsel { hx with gb := 1 } 1 2 3 4 5 .i8, .vbcast { hx with gb := 1 } 1 2 3 .i8, .vfill { hx with pinc := 2 } 1 2 3 .b,
    .vclass { hx with gb := 1 } 1 2 3 .f32, .vmix { hx with pinc := 4 } 1 2 3 4, .vperm { hx with gb := 1 } 1 2 3 4 false .i8,
    .vreq { hx with gb := 1 } 1 2 3 true, .vsfu { hx with gb := 1 } 1 2 3 .exp .f32, .vscan { hx with gb := 1 } 1 2 3 .sum .f32 false .dyn,
    .mhatch { hx with hint := 1 } 1 2, .munhatch { hx with hint := 1 } 1 2, .rstat { hx with gb := 1 } 1 0, .rfwd { hx with gb := 1 } 1 2 3,
    .rrev { hx with gb := 1 } 1 2 3 4, .rchk { hx with pinc := 2 } 1 2 3] = true := by decide

/-- R215 to R220, R225, R40: element formats an operation does not take, a third source that must be zero, unassigned codes and tags. -/
theorem test_wf_vector : refusedAll [.varith hx 1 2 3 4 .div .i32 .dyn, .varith hx 1 2 3 4 .adds .f32 .dyn, .varith hx 1 2 3 4 .add .i32 .rne,
    .varith hx 1 2 3 4 .abs .f32 .dyn, .vcmp hx 1 2 3 4 8 .f32 false, .vcmp hx 1 2 3 4 10 .i32 false, .vcmp hx 1 2 3 4 0 .i32 true,
    .vlogic hx 1 2 3 4 .and .f32, .vlogic hx 1 2 3 4 .not .i32, .vshift hx 1 2 3 4 .shl .mk8 none, .vshift hx 1 2 3 4 .shl .i32 (some 1),
    .vcvt hx 1 2 3 0x30 .dyn, .vred hx 1 2 3 .and .f32 .dyn, .vred hx 1 2 3 .sumsq .mk8 .dyn] = true := by decide

/-- R40, R35: `.sp` and plane counts without `.pp`, an MK8 recurrence, scopes without flags. -/
theorem test_wf_engines : refusedAll [.mma hx 1 2 3 .fl false true 0 0, .mma hx 1 2 3 .ieee false false 1 0, .mrec hx 1 2 3 .mk8, .epi hx 1 2 lostScope,
    .put hx 1 2 3 4 lostScope 0, .get hx 1 2 3 4 lostScope 0, .pld hx 1 2 3 lostScope, .pconv hx 1 2 lostScope, .tfill hx 1 2 lostScope 0 0,
    .tdrain hx 1 2 lostScope 0 0, .pconv { hx with hint := 1 } 1 2 noFlags, .put { hx with pinc := 2 } 1 2 3 4 noFlags 0] = true := by decide

/-- The same terms with the fault mended are well formed. -/
theorem test_wf_accepts : ([.bfx hd 1 2 false 60 3, .fcvt hd 1 2 .f32 .nat32 .dyn, .loop hd 1 1, .ld hd 1 2 0 .w true, .amo hd 1 2 3 .fadd true .dev,
    .send hd 1 2 3 0 { lostScope with rel := true } 0, .hset hd 1 2 .tile, .vmov { hx with pinc := 3 } 1 2 3, .varith hx 1 2 0 4 .abs .f32 .rne,
    .vcmp hx 1 2 3 4 9 .i32 false, .vshift hx 1 2 0 4 .shl .i32 (some 1), .vcvt hx 1 2 3 0x10 .dyn, .mma hx 1 2 3 .pp false true 3 3,
    .put { hx with hint := 11, pinc := 5 } 1 2 3 4 noFlags 0] : List Instr).all WellFormed = true := by decide

/-! ## Decoding: words written out from the spec's encodings -/

/-- Two slots of delay and the guard negated, or the guard alone. -/
def un (dly : BitVec 4) (g : GReg) : Hd := { dly := dly, g := g, gn := true }
def on (g : GReg) : Hd := { dly := 0, g := g, gn := false }

/-- Whether each word of `n` bytes decodes to the instruction beside it, with nothing left over. -/
def reads (n : Nat) (l : List (Nat × Instr)) : Bool :=
  l.all fun x => match decode (bytesLE n x.1) with
    | .ok (i, rest) => decide (i = x.2) && rest.isEmpty
    | .error _ => false

/-- The 64-bit words that the spec's worked listings spell. -/
theorem test_decode_spec_words_64 : reads 8
    [(0x0000606021280105, .st hd 37 16 12 .d),
     (0x00008013A0000119, .pref hd 16 16 39 false 0),
     (0x0000003320000109, .rflush hd 16 0 38 .s),
     (0x0000016022000131, .acq hd 17 true .dev),
     (0x000000355344C805, .sub (un 2 3) 40 41 42),
     (0xFFFFA00000008051, .br (on 2) 0x1FFFF4),
     (0x0000700002000061, .loop hd 1 14),
     (0x000000AAA8280111, .rpin hd 5 20 0 21 true 2),
     (0x0000221129080129, .amo hd 33 20 34 .add true .sys),
     (0x00001A122918012D, .cas hd 35 20 36 true .dev),
     (0x000000600000011D, .fence hd .dev),
     (0x000000202C000121, .ifence hd 22 .pod),
     (0x0000080042080021, .cmpi hd 1 33 1 .eq .write),
     (0x0000300000004051, .br (on 1) 6),
     (0x0000280001400161, .tstate hd 40 5),
     (0x0000000049280171, .claim hd 37 36),
     (0x0000000000000175, .vrelease hd),
     (0x000000A8A0080011, .mix hd 1 16 17),
     (0x0000000018000139, .bar hd 12),
     (0x000000000000013D, .sstep hd),
     (0x0000180042000155, .ccwait hd 33 3),
     (0x00001014D0000141, .msgsend hd 40 41 2),
     (0x0000000001100145, .msgwait hd 34),
     (0x0000006022000135, .rel hd 17 .dev),
     (0x0000000000000149, .trig hd),
     (0x000000000000014D, .waitdep hd),
     (0x0000080042000151, .xwait hd 33 1),
     (0x00000014A8000179, .cbwait hd 20 41),
     (0x00000014A800017D, .cbrel hd 20 41),
     (0x000000E94008001D, .cmp hd 1 32 18 .geu .write),
     (0x0004006006200105, .st hd 4 3 128 .d),
     (0x0000000000000075, .eret hd),
     (0x0000000000000079, .exit hd),
     (0x0000000000000085, .yield hd),
     (0x0000280000000071, .syscall hd 5),
     (0x0000000000000069, .brk hd 0),
     (0x000000000000006D, .trap hd 0),
     (0x0001880001400049, .srr hd 40 .epc),
     (0x000188005200004D, .srw hd .epc 41)] = true := by
  decide +kernel

/-- The 96-bit words that the spec's worked listings spell; of `MPROG`, the value of IMM53 that R204 gives (log entry 40). -/
theorem test_decode_spec_words_96 : reads 12
    [(0x0000091A2B3C480001080202, .movw hd 33 0x123456789),
     (0x00000000000080D4A940020E, .ldx hd 40 20 41 16 .w true),
     (0x000000000002000020100212, .hld hd 2 16 64),
     (0x00000000000200108C30021A, .hview hd 6 6 33 0 64),
     (0x08000000C38988000000022E, .mprog hd 0x1000000187131),
     (0x000000000000180001100246, .ccrd hd 34 3),
     (0x0000000004003021D340021E, .send hd 40 41 3 1 { acq := false, rel := true, scope := .pod } 0x400),
     (0x000000000000200AA8000222, .cbinit hd 20 21 4),
     (0x000000000000000029400226, .cbacq hd 40 20),
     (0x00000000000000002800022A, .cbcommit hd 20),
     (0x000000000000100001100242, .xstat hd 34 2),
     (0x0000000000000014D0000232, .rset hd 40 41),
     (0x0000000000001011A1200236, .pdecl hd 36 16 35 2),
     (0x00000000000000004940023E, .pstate hd 40 36),
     (0x00000000000000004800023A, .pwait hd 36),
     (0xFFFFFFFFFFFEE80000000206, .brl hd 0x1FFFFFFFFFFFDD)] = true := by
  decide +kernel

/-- The 128-bit words that the spec's worked listings spell. -/
theorem test_decode_spec_words_128 : reads 16
    [(0x010040004000403800110C2881C84303, .varith { hx with ga := 1, gb := 2, gop := 3, yld := true, pinc := 7, inc1 := 64, inc2 := 64, inc3 := 64 } 4 5 6 34 .add .f64 .rne),
     (0x77000000000000000000462060000347, .mma hx 3 4 35 .pp false false 7 7),
     (0x000000000000400810005F702000C33B, .vfill { hx with ga := 3, pinc := 1, inc1 := 64 } 1 46 47 .w),
     (0x00000000000000000000000460000343, .mgang hx 35),
     (0x000000000000000000000000A000035B, .rstat hx 5 0),
     (0x000000000000000000000088C0000357, .epi hx 6 17 { acq := false, rel := false, scope := .core }),
     (0x45000000000000002800003860000383, .tfill hx 3 7 { acq := true, rel := false, scope := .pod } 5 2),
     (0x0000000000000000280046082000034B, .mrec hx 1 1 35 .i16),
     (0x00000000000000004800464900000347, .mma hx 8 9 35 .fl true false 0 0),
     (0x33000000000000008000462060000347, .mma hx 3 4 35 .pp false true 3 3),
     (0x0000000000000000000000086000C34F, .mhatch { hx with ga := 3 } 3 1),
     (0x000000000000000000000018E0000353, .munhatch hx 7 3),
     (0x000000000000000070000088C0000357, .epi hx 6 17 { acq := false, rel := true, scope := .dev }),
     (0x0000000000000000000000000000035F, .mwait hx),
     (0x00000000000000000000000000000363, .mabort hx),
     (0x010000000000000005038C2880000307, .vfma hx 4 5 6 7 40 .fma .f64 .rne),
     (0x01000000100010180000525120000323, .vsfu { hx with pinc := 3, inc1 := 16, inc2 := 16 } 9 10 41 .exp .f32),
     (0x05000000000000032814001840000317, .vshift hx 2 3 0 40 .shr .i32 (some 5)),
     (0x00000000000000000002AE58C0000373, .put hx 6 11 23 5 { acq := false, rel := false, scope := .core } 0),
     (0x000000000000000328029CC94000070B, .vcmp { hx with dly := 1 } 10 25 14 5 5 .i32 false),
     (0x0300000000000000280A8AA080000377, .get hx 4 20 5 21 { acq := true, rel := false, scope := .pod } 3),
     (0x000000000000081000000808A0000367, .rfwd { hx with pinc := 2, inc1 := 8 } 5 1 4),
     (0x000000000000000020004630A0000347, .mma hx 5 6 35 .res false false 0 0),
     (0x0400000000000000000000214000C36F, .rchk { hx with ga := 3 } 10 4 4),
     (0x0500000000000000000008516050DF6B, .rrev { hx with dly := 7, ga := 3, gb := 4, gop := 1 } 11 10 4 5),
     (0x0000000000000000000001204000037B, .pld hx 2 36 0 { acq := false, rel := false, scope := .core }),
     (0x0000000000000000700001448000037F, .pconv hx 36 40 { acq := false, rel := true, scope := .dev })] = true := by
  decide +kernel

/-- R36, OP 0x00 to 0x03: A, B, C; SUB the operation. -/
theorem test_decode_integer : reads 8
    [(0x0000000000001401, .nop 5),
     (0x000000155344C805, .add (un 2 3) 40 41 42),
     (0x000000355344C805, .sub (un 2 3) 40 41 42),
     (0x000000555344C805, .and (un 2 3) 40 41 42),
     (0x000000755344C805, .or (un 2 3) 40 41 42),
     (0x000000955344C805, .xor (un 2 3) 40 41 42),
     (0x000000B55344C805, .andn (un 2 3) 40 41 42),
     (0x000000D55344C805, .shl (un 2 3) 40 41 42),
     (0x000000F55344C805, .shr (un 2 3) 40 41 42),
     (0x000001155344C805, .sar (un 2 3) 40 41 42),
     (0x000001355344C805, .rot (un 2 3) 40 41 42),
     (0x000001555344C805, .min (un 2 3) 40 41 42),
     (0x000001755344C805, .max (un 2 3) 40 41 42),
     (0x000001955344C805, .minu (un 2 3) 40 41 42),
     (0x000001B55344C805, .maxu (un 2 3) 40 41 42),
     (0x0000001FFC0CC80D, .mul (un 2 3) 1 62 63),
     (0x0000003FFC0CC80D, .mulh (un 2 3) 1 62 63),
     (0x0000005FFC0CC80D, .mulhu (un 2 3) 1 62 63),
     (0x0000007FFC0CC80D, .div (un 2 3) 1 62 63),
     (0x0000009FFC0CC80D, .divu (un 2 3) 1 62 63),
     (0x000000BFFC0CC80D, .rem (un 2 3) 1 62 63),
     (0x000000DFFC0CC80D, .remu (un 2 3) 1 62 63)] = true := by
  decide +kernel

/-- R36, OP 0x02: A, B, IMM21; the shifts take 0 to 63. -/
theorem test_decode_immediate : reads 8
    [(0xFFFFF000424CC809, .addImm (un 2 3) 9 33 0x1FFFFE),
     (0xFFFFF020424CC809, .subImm (un 2 3) 9 33 0x1FFFFE),
     (0xFFFFF040424CC809, .andImm (un 2 3) 9 33 0x1FFFFE),
     (0xFFFFF060424CC809, .orImm (un 2 3) 9 33 0x1FFFFE),
     (0xFFFFF080424CC809, .xorImm (un 2 3) 9 33 0x1FFFFE),
     (0xFFFFF0A0424CC809, .andnImm (un 2 3) 9 33 0x1FFFFE),
     (0x0001F8C0424CC809, .shlImm (un 2 3) 9 33 63),
     (0x0001F8E0424CC809, .shrImm (un 2 3) 9 33 63),
     (0x0001F900424CC809, .sarImm (un 2 3) 9 33 63),
     (0x0001F920424CC809, .rotImm (un 2 3) 9 33 63),
     (0xFFFFF140424CC809, .minImm (un 2 3) 9 33 0x1FFFFE),
     (0xFFFFF160424CC809, .maxImm (un 2 3) 9 33 0x1FFFFE),
     (0xFFFFF180424CC809, .minuImm (un 2 3) 9 33 0x1FFFFE),
     (0xFFFFF1A0424CC809, .maxuImm (un 2 3) 9 33 0x1FFFFE)] = true := by
  decide +kernel

/-- R36, OP 0x04 to 0x0B: bit operations and fields, compares, selects, guards, moves. -/
theorem test_decode_bits_64 : reads 8
    [(0x000000004344C811, .clz (un 2 3) 40 33),
     (0x000000204344C811, .ctz (un 2 3) 40 33),
     (0x000000404344C811, .popc (un 2 3) 40 33),
     (0x000000604344C811, .brev (un 2 3) 40 33),
     (0x000000804344C811, .bswap (un 2 3) 40 33),
     (0x002628204344C815, .bfx (un 2 3) 40 33 true 5 19),
     (0x002628004344C819, .bfi (un 2 3) 40 33 5 19),
     (0x000002D1424CC81D, .cmp (un 2 3) 9 33 34 .ltu .and),
     (0xFFFFCC80424CC821, .cmpi (un 2 3) 9 33 0x1FFFF9 .le .or),
     (0x0000D8114344C825, .sel (un 2 3) 40 33 34 11 true),
     (0x00000005944CC829, .glog (un 2 3) (.and 9 10 11)),
     (0x00000025944CC829, .glog (un 2 3) (.or 9 10 11)),
     (0x00000045944CC829, .glog (un 2 3) (.xor 9 10 11)),
     (0x00000065944CC829, .glog (un 2 3) (.andn 9 10 11)),
     (0x00000080144CC829, .glog (un 2 3) (.not 9 10)),
     (0x000000A0144CC829, .glog (un 2 3) (.mov 9 10)),
     (0x000000C0004CC829, .glog (un 2 3) (.set 9)),
     (0x000000E0004CC829, .glog (un 2 3) (.clr 9)),
     (0x000001000144C829, .glog (un 2 3) (.gtos 40)),
     (0x000001205004C829, .glog (un 2 3) (.stog 40)),
     (0xFFFFF8000144C82D, .movi (un 2 3) 40 0x1FFFFF)] = true := by
  decide +kernel

/-- R36, OP 0x04 to 0x0B: bit operations and fields, compares, selects, guards, moves. -/
theorem test_decode_bits_96 : reads 12
    [(0xFFFFFFFFFFFFF8000144CA02, .movw (un 2 3) 40 0x1FFFFFFFFFFFFF)] = true := by
  decide +kernel

/-- R36, OP 0x0C to 0x10: SUB the operation and the format, IMM21 the rounding; R33 the codes. -/
theorem test_decode_float : reads 8
    [(0x000021114344C831, .fadd (un 2 3) 40 33 34 .f32 .rup),
     (0x000021314344C831, .fsub (un 2 3) 40 33 34 .f32 .rup),
     (0x000021514344C831, .fmul (un 2 3) 40 33 34 .f32 .rup),
     (0x000021714344C831, .fdiv (un 2 3) 40 33 34 .f32 .rup),
     (0x000021804344C831, .fsqrt (un 2 3) 40 33 .f32 .rup),
     (0x000021B14344C831, .fmin (un 2 3) 40 33 34 .f32 .rup),
     (0x000021D14344C831, .fmax (un 2 3) 40 33 34 .f32 .rup),
     (0x00002B514344C835, .ffma (un 2 3) 40 33 34 .fnma .bf16 .rna),
     (0x00000AD1424CC839, .fcmp (un 2 3) 9 33 34 .un .f16 true),
     (0x000015204344C83D, .fcvt (un 2 3) 40 33 .f32 .nat64 .rtz),
     (0x000002004344C841, .fclass (un 2 3) 40 33 .f16)] = true := by
  decide +kernel

/-- R36, OP 0x11 to 0x21, R37, R39: the system registers and control transfer. -/
theorem test_decode_control_64 : reads 8
    [(0x000068000144C845, .idr (un 2 3) 40 .grp1),
     (0x000100000144C849, .srr (un 2 3) 40 .inj),
     (0x0001A8004204C84D, .srw (un 2 3) .estat 33),
     (0xFFFFE8000004C851, .br (un 2 3) 0x1FFFFD),
     (0x00003800007CC855, .call (un 2 3) 15 7),
     (0x000000001E04C859, .ret (un 2 3) 15),
     (0xFFFFE0004344C85D, .jmpr (un 2 3) 40 33 0x1FFFFC),
     (0x000048004204C861, .loop (un 2 3) 33 9),
     (0x000000000004C865, .endl (un 2 3)),
     (0x7FFFF8000004C869, .brk (un 2 3) 0xFFFFF),
     (0x000018000004C86D, .trap (un 2 3) 3),
     (0x000020000004C871, .syscall (un 2 3) 4),
     (0x000000000004C875, .eret (un 2 3)),
     (0x000000000004C879, .exit (un 2 3)),
     (0x000000000004C87D, .detach (un 2 3)),
     (0x000000000004C881, .join (un 2 3)),
     (0x000000000004C885, .yield (un 2 3))] = true := by
  decide +kernel

/-- R36, OP 0x11 to 0x21, R37, R39: the system registers and control transfer. -/
theorem test_decode_control_96 : reads 12
    [(0xFFFFFFFFFFFEE8000004CA06, .brl (un 2 3) 0x1FFFFFFFFFFFDD),
     (0x7FFFFFFFFFFFF800007CCA0A, .calll (un 2 3) 15 0xFFFFFFFFFFFFF)] = true := by
  decide +kernel

/-- R38, OP 0x40 to 0x4D, R39: loads, stores, extents, fences, atomics, sync objects. -/
theorem test_decode_memory_64 : reads 8
    [(0xFFFFC0C04344C901, .ld (un 2 3) 40 33 0x1FFFF8 .w true),
     (0x000040204344C905, .st (un 2 3) 40 33 8 .h),
     (0x000040514204C909, .rflush (un 2 3) 33 8 34 .i),
     (0x000040114204C90D, .rdrop (un 2 3) 33 8 34),
     (0x000040F1424CC911, .rpin (un 2 3) 9 33 8 34 true 3),
     (0x000040114204C915, .runpin (un 2 3) 33 8 34),
     (0x000040714204C919, .pref (un 2 3) 33 8 34 true 1),
     (0x000000800004C91D, .fence (un 2 3) .sys),
     (0x000000404204C921, .ifence (un 2 3) 33 .die),
     (0x000000000004C925, .pfence (un 2 3)),
     (0x00001B314344C929, .amo (un 2 3) 40 33 34 .fadd true .dev),
     (0x000008114344C92D, .cas (un 2 3) 40 33 34 false .pod),
     (0x000001804204C931, .acq (un 2 3) 33 true .sys),
     (0x000000204204C935, .rel (un 2 3) 33 .pod)] = true := by
  decide +kernel

/-- R38, OP 0x40 to 0x4D, R39: loads, stores, extents, fences, atomics, sync objects. -/
theorem test_decode_memory_96 : reads 12
    [(0xFFFFFFFFFFFFC0714344CA0E, .ldx (un 2 3) 40 33 34 0x1FFFFFFFFFFFF8 .d false)] = true := by
  decide +kernel

/-- R38, OP 0x4E to 0x5F: barriers, messages, waits, tiles, handles, buffers; R37 the selectors. -/
theorem test_decode_exchange : reads 8
    [(0x000000004204C939, .bar (un 2 3) 33),
     (0x000000000004C93D, .sstep (un 2 3)),
     (0x000058114204C941, .msgsend (un 2 3) 33 34 11),
     (0x000000000144C945, .msgwait (un 2 3) 40),
     (0x000000000004C949, .trig (un 2 3)),
     (0x000000000004C94D, .waitdep (un 2 3)),
     (0x000038004204C951, .xwait (un 2 3) 33 7),
     (0x000078004204C955, .ccwait (un 2 3) 33 15),
     (0x0000F8000004C959, .twait (un 2 3) 31),
     (0x0000F0000004C95D, .trel (un 2 3) 30),
     (0x0000E8000144C961, .tstate (un 2 3) 40 29),
     (0x000001A03F44C965, .hget (un 2 3) 40 31 .stride2),
     (0x000000C042FCC969, .hset (un 2 3) 31 33 .tile),
     (0x000000003CFCC96D, .hmov (un 2 3) 31 30),
     (0x000000004344C971, .claim (un 2 3) 40 33),
     (0x000000000004C975, .vrelease (un 2 3)),
     (0x000000114204C979, .cbwait (un 2 3) 33 34),
     (0x000000114204C97D, .cbrel (un 2 3) 33 34)] = true := by
  decide +kernel

/-- R39, OP 0x84 to 0x91. -/
theorem test_decode_long : reads 12
    [(0xFFFFFFFFFFFE000042FCCA12, .hld (un 2 3) 31 33 0x1FFFFFFFFFFFC0),
     (0x000000000002000042FCCA16, .hst (un 2 3) 31 33 64),
     (0x0000000007FFF8513CFCCA1A, .hview (un 2 3) 31 30 34 2 0xFFFF),
     (0x00000001234598EFC344CA1E, .send (un 2 3) 40 33 31 7 { acq := true, rel := true, scope := .sys } 0x12345),
     (0x000000000007F8114204CA22, .cbinit (un 2 3) 33 34 255),
     (0x00000000000000004344CA26, .cbacq (un 2 3) 40 33),
     (0x00000000000000004204CA2A, .cbcommit (un 2 3) 33),
     (0x00000000000000114204CA32, .rset (un 2 3) 33 34),
     (0x00000000181008114344CA36, .pdecl (un 2 3) 40 33 34 0x30201),
     (0x00000000000000004204CA3A, .pwait (un 2 3) 33),
     (0x00000000000000004344CA3E, .pstate (un 2 3) 40 33),
     (0x00000000000028000144CA42, .xstat (un 2 3) 40 5),
     (0x00000000000048000144CA46, .ccrd (un 2 3) 40 9)] = true := by
  decide +kernel

/-- R40, OP 0xC0 to 0xCF and 0xE2; R33 EF, R128 the tags. -/
theorem test_decode_vector : reads 16
    [(0x00000000000000034810BAF3E0884F03, .varith { hx with dly := 3, ga := 1, gb := 2, gop := 2 } 31 30 29 33 .adds .i32 .dyn),
     (0x0200000000000004381080F3E0884F03, .varith { hx with dly := 3, ga := 1, gb := 2, gop := 2 } 31 30 0 33 .abs .mk8 .rtz),
     (0x03000000000000009C2E3AF3E0884F07, .vfma { hx with dly := 3, ga := 1, gb := 2, gop := 2 } 31 30 29 28 33 .fnms .f32 .rdn),
     (0x01000000000000013810BAF3E0884F0B, .vcmp { hx with dly := 3, ga := 1, gb := 2, gop := 2 } 31 30 29 33 7 .f16 true),
     (0x0000000000000002842E3AF3E0884F0F, .vsel { hx with dly := 3, ga := 1, gb := 2, gop := 2 } 31 30 29 28 33 .i16),
     (0x00000000000000039810BAF3E0884F13, .vlogic { hx with dly := 3, ga := 1, gb := 2, gop := 2 } 31 30 29 33 .andn .i64),
     (0x00000000000000021810BAF3E0884F17, .vshift { hx with dly := 3, ga := 1, gb := 2, gop := 2 } 31 30 29 33 .rot .i8 none),
     (0x0100000000000000800042F3E0884F1B, .vcvt { hx with dly := 3, ga := 1, gb := 2, gop := 2 } 31 30 33 0x10 .rne),
     (0x0000000000000000900042F3E0884F1F, .vreq { hx with dly := 3, ga := 1, gb := 2, gop := 2 } 31 30 33 true),
     (0x0300000000000000380042F3E0884F23, .vsfu { hx with dly := 3, ga := 1, gb := 2, gop := 2 } 31 30 33 .sigmoid .bf16),
     (0x0500000000000000B00042F3E0884F27, .vred { hx with dly := 3, ga := 1, gb := 2, gop := 2 } 31 30 33 .sumsq .f32 .rna),
     (0x0500000000000003100042F3E0884F2B, .vscan { hx with dly := 3, ga := 1, gb := 2, gop := 2 } 31 30 33 .max .i32 true .rtz),
     (0x00000000000000040810BAF3E0884F2F, .vperm { hx with dly := 3, ga := 1, gb := 2, gop := 2 } 31 30 29 33 true .mk8),
     (0x0000000000000001800042F3E0884F33, .vbcast { hx with dly := 3, ga := 1, gb := 2, gop := 2 } 31 30 33 .bf16),
     (0x0000000000000000000042F3E0884F37, .vmov { hx with dly := 3, ga := 1, gb := 2, gop := 2 } 31 30 33),
     (0x000000000000000018004313E0884F3B, .vfill { hx with dly := 3, ga := 1, gb := 2, gop := 2 } 31 34 33 .d),
     (0x0000000000000001000042F3E0884F3F, .vclass { hx with dly := 3, ga := 1, gb := 2, gop := 2 } 31 30 33 .f16),
     (0x0000000000000000001142F3E0884F8B, .vmix { hx with dly := 3, ga := 1, gb := 2, gop := 2 } 31 30 33 34)] = true := by
  decide +kernel

/-- R40, OP 0xD0 to 0xE1; R27 HINT, R35 the engine flag byte. -/
theorem test_decode_engines : reads 16
    [(0x00000000000000000000000420884F43, .mgang { hx with dly := 3, ga := 1, gb := 2, gop := 2 } 33),
     (0x0000000000000000580042F3E0884F47, .mma { hx with dly := 3, ga := 1, gb := 2, gop := 2 } 31 30 33 .wide true false 0 0),
     (0x0000000000000000380042F3E0884F4B, .mrec { hx with dly := 3, ga := 1, gb := 2, gop := 2 } 31 30 33 .i64),
     (0x0000000000000000000000F3E0884F4F, .mhatch { hx with dly := 3, ga := 1, gb := 2, gop := 2 } 31 30),
     (0x0000000000000000000000F3E0884F53, .munhatch { hx with dly := 3, ga := 1, gb := 2, gop := 2 } 31 30),
     (0x00000000000000009800010BE0884F57, .epi { hx with dly := 3, ga := 1, gb := 2, gop := 2 } 31 33 { acq := true, rel := true, scope := .sys }),
     (0x000000000000000018000003E0884F5B, .rstat { hx with dly := 3, ga := 1, gb := 2, gop := 2 } 31 3),
     (0x00000000000000000000000000884F5F, .mwait { hx with dly := 3, ga := 1, gb := 2, gop := 2 }),
     (0x00000000000000000000000000884F63, .mabort { hx with dly := 3, ga := 1, gb := 2, gop := 2 }),
     (0x0000000000000000000042F3E0884F67, .rfwd { hx with dly := 3, ga := 1, gb := 2, gop := 2 } 31 30 33),
     (0x0900000000000000000042F3E0884F6B, .rrev { hx with dly := 3, ga := 1, gb := 2, gop := 2 } 31 30 33 9),
     (0x09000000000000000000010BE0884F6F, .rchk { hx with dly := 3, ga := 1, gb := 2, gop := 2 } 31 33 9),
     (0x0F0000000000000098113B0BF6884F73, .put { hx with dly := 3, ga := 1, gb := 2, gop := 2, hint := 11 } 31 33 29 34 { acq := true, rel := true, scope := .sys } 15),
     (0x0E0000000000000000113B0BE8884F77, .get { hx with dly := 3, ga := 1, gb := 2, gop := 2, hint := 4 } 31 33 29 34 { acq := false, rel := false, scope := .core } 14),
     (0x00000000000000009800450BE6884F7B, .pld { hx with dly := 3, ga := 1, gb := 2, gop := 2, hint := 3 } 31 33 34 { acq := true, rel := true, scope := .sys }),
     (0x00000000000000000000011420884F7F, .pconv { hx with dly := 3, ga := 1, gb := 2, gop := 2 } 33 34 { acq := false, rel := false, scope := .core }),
     (0xFF00000000000000980000F3E0884F83, .tfill { hx with dly := 3, ga := 1, gb := 2, gop := 2 } 31 30 { acq := true, rel := true, scope := .sys } 31 7),
     (0x4100000020FFF018000000F3E0884F87, .tdrain { hx with dly := 3, ga := 1, gb := 2, gop := 2, pinc := 3, inc1 := 0xFFF0, inc2 := 32 } 31 30 { acq := false, rel := false, scope := .core } 1 2)] = true := by
  decide +kernel

/-- Whether each word is refused with the detail of R29 beside it. -/
def refuses (l : List (Nat × Nat)) : Bool :=
  l.all fun x => match decode (bytesLE 16 x.1) with
    | .ok _ => false
    | .error d => d == x.2

/-- R29: LEN 0; an opcode of another class; an unassigned opcode; an unassigned SUB; a nonzero reserved field; an operand out of range;
post-increment rules. -/
theorem test_decode_refuses : refuses
    [(0x0000000000000004, 2),
     (0x0000000000000201, 3),
     (0x00000000000000C1, 4),
     (0x00000000000000000000024A, 4),
     (0x0000000000000000000000000000038F, 4),
     (0x000001C000000005, 5),
     (0x0000008000000105, 5),
     (0x0000014000000129, 5),
     (0x000000A00000011D, 5),
     (0x00000000000000005800000000000303, 5),
     (0x0000300000000031, 5),
     (0x00000000000000000000022E, 5),
     (0x0000000000004001, 6),
     (0x0000000000080065, 6),
     (0x00000000000000000000000000040337, 6),
     (0x00000000000000000000000002000337, 6),
     (0x08000000C39888000000022E, 6),
     (0x000000000000000080000226, 6),
     (0x0000000040000165, 7),
     (0x000000000080001D, 7),
     (0x000200C000000009, 7),
     (0x0000000000000061, 7),
     (0x8000000000000069, 7),
     (0x0000900000000045, 7),
     (0x00000000000000180000040820000337, 8),
     (0x00000000000001000000000000000337, 8),
     (0x00000000000000200000000000000337, 8)] = true := by
  decide +kernel

/-- The table's numbering of bits: the first byte holds bits 7..0. -/
theorem test_decodeTableWord : decodeTableWord 64 0x0000606021280105 = some (.st hd 37 16 12 .d) ∧
    decodeTableWord 96 0x091A2B3C480001080202 = some (.movw hd 33 0x123456789) ∧ decodeTableWord 64 0 = none := by decide +kernel

/-! ## Single steps -/

/-- Run one placed instruction of core 0 and look at the core. -/
def runs (s : State) (nbits w : Nat) (p : Core → Bool) : Bool :=
  match step (s.withFetchWord nbits w) with
  | .next t => p (t.at 0)
  | _ => false

/-- R54: `ADD s3, s1, s2` wraps modulo 2^64, leaves its sources, and goes on at the next word. -/
theorem test_step_add_wraps : runs (vals [0xFFFFFFFFFFFFFFFF, 2] State.reset) 64 0x0000000102180005 (fun c => c.getS 3 == 1 && c.getS 1 == 0xFFFFFFFFFFFFFFFF && c.ctx.pc == 8) = true := by decide +kernel

/-- R54: a source that is also the destination is read first. -/
theorem test_step_add_same : runs (vals [5] State.reset) 64 0x0000000082080005 (fun c => c.getS 1 == 10) = true := by decide +kernel

/-- R55: a division by zero gives all ones. -/
theorem test_step_div_zero : runs (vals [7, 0] State.reset) 64 0x000000610218000D (fun c => c.getS 3 == 0xFFFFFFFFFFFFFFFF) = true := by decide +kernel

/-- R55: −2^63 divided by −1 gives −2^63. -/
theorem test_step_div_min : runs (vals [0x8000000000000000, 0xFFFFFFFFFFFFFFFF] State.reset) 64 0x000000610218000D (fun c => c.getS 3 == 0x8000000000000000) = true := by decide +kernel

/-- R22: a write to `s0` is discarded. -/
theorem test_step_zero_register : runs (vals [7] State.reset) 64 0x0000080002000009 (fun c => c.getS 0 == 0 && c.ctx.pc == 8) = true := by decide +kernel

/-- R21, R19: under `!g0` nothing happens but the slots: one of its own and three of delay. -/
theorem test_step_guarded_off : runs (vals [7] State.reset) 64 0x00000800020C0C09 (fun c => c.getS 1 == 7 && c.ctx.pc == 8 && c.sys.slots == 4) = true := by decide +kernel

/-- R65: 1 + 2^−53 rounds to even, and is inexact (`fpc` bit NX). -/
theorem test_step_fadd_rounds : runs (vals [0x3FF0000000000000, 0x3CA0000000000000] State.reset) 64 0x0000000102180031 (fun c => c.getS 3 == 0x3FF0000000000000 && c.ctx.fpc == 0x101) = true := by decide +kernel

/-- R59: `BFX.sx` of four bits at 60. -/
theorem test_step_bitfield : runs (vals [0x9000000000000000] State.reset) 64 0x0007E02002180015 (fun c => c.getS 3 == 0xFFFFFFFFFFFFFFF9) = true := by decide +kernel

/-- R76, R379, R381: `TRAP 7` saves the next pc and its code and enters the handler of cause 10 in supervisor mode. -/
theorem test_step_trap_saves : runs (user) 64 0x000038000000006D (fun c => c.sys.sup && c.sys.epc == 8 && c.sys.einfo == 0x100007 && c.ctx.pc == 64 + 64 * 10) = true := by decide +kernel

/-- R29, R380: an unassigned opcode takes cause 1 at the instruction itself, with DETAIL 4. -/
theorem test_step_illegal_traps : runs (user) 64 0x00000000000000C1 (fun c => c.sys.sup && c.sys.epc == 0 && c.sys.ecause == 1 && c.sys.einfo == 4 && c.ctx.pc == 64 + 64) = true := by decide +kernel

end Sys2Proof.Tests
end

