-- ==== Sys2Proof/Tests/Witnesses.lean ====
section
/-! SUPPORT. For every statement with hypotheses a state and operands that meet them all, clause by clause. -/

namespace Sys2Proof.Tests

set_option Elab.async false

open Machine Claims

theorem witness_IntegerResults :
    (aluOf user.core (.add hd 3 1 2) = some (hd, 3, 0) ∧ aluOf user.core (.shlImm hd 3 1 63) = some (hd, 3, 0) ∧
      mulOf user.core (.div hd 3 1 2) = some (hd, 3, -1) ∧ bitOf user.core (.mix hd 3 1 2) = some (hd, 3, 0)) ∧
    user.core.guard hd = true := by decide +kernel

theorem witness_MoveResults :
    moveOf user.core (.bfx hd 3 1 true 63 0) = some (hd, 8, 3, 0) ∧ WellFormed (.bfx hd 3 1 true 63 0) = true ∧
    moveOf user.core (.movw hd 3 (-1)) = some (hd, 12, 3, -1) ∧ WellFormed (.movw hd 3 (-1)) = true ∧
    user.core.guard hd = true := by decide +kernel

theorem witness_GuardsWritten :
    (∃ k, guardOf user.core (.cmp hd 15 1 2 .ltu .and) = some (hd, 15, k)) ∧ (∃ k, guardOf user.core (.glog hd (.set 0)) = some (hd, 0, k)) ∧
    user.core.guard hd = true := ⟨⟨_, rfl⟩, ⟨_, rfl⟩, by decide +kernel⟩

/-- `s1` and `s2` hold 1.0, `s3` a signalling NaN. -/
def floats : State := vals [0x3FF0000000000000, 0x3FF0000000000000, 0x7FF0000000000001] user

/-- The same with the NV trap enabled. -/
def trapping : State := floats.upd fun c => { c with ctx := { c.ctx with fpc := 0x201 } }

theorem witness_FloatArithmetic :
    (∃ v f, floatOf floats.core (.fadd hd 4 1 2 .f64 .dyn) = some (hd, 4, v, f) ∧ floats.core.traps f = false) ∧
    (∃ f, raisedBy trapping.core (.fadd hd 4 1 3 .f64 .dyn) = some (hd, f) ∧ trapping.core.traps f = true) ∧
    (∃ f, raisedBy trapping.core (.fcmp hd 4 1 3 .lt .f64 false) = some (hd, f) ∧ trapping.core.traps f = true) ∧
    floats.core.guard hd = true ∧ trapping.core.guard hd = true ∧ trapping.handles = true :=
  ⟨⟨_, _, rfl, by decide +kernel⟩, ⟨_, rfl, by decide +kernel⟩, ⟨_, rfl, by decide +kernel⟩, by decide +kernel⟩

theorem witness_FloatCompares :
    floats.core.guard hd = true ∧ floats.core.traps 0 = false ∧ floats.core.traps 1 = false ∧
    (fval .f64 (floats.core.getS 1)).isNaN = false ∧ (fval .f64 (floats.core.getS 3)).isNaN = true := by decide +kernel

theorem witness_RoundingIsCorrect :
    (∀ r : Rnd, r = .rne ∨ r = .rna ∨ r = .rdn ∨ r = .rup ∨ r = .rtz → ∃ p w q, ((sfmtOf .f16).round r (.fin true 4097 (-3))).1 = .fin p w q) ∧
    ∃ y u z, (sfmtOf .f16).decode 0x8001 = .fin y u z := by
  refine ⟨fun r h => ?_, ⟨_, _, _, rfl⟩⟩
  rcases h with rfl | rfl | rfl | rfl | rfl <;> exact ⟨_, _, _, rfl⟩

/-- A core with nothing pending is ready as it stands. -/
theorem ready_of_idle {s : State} (h : s.core.pend = []) (r : SysReg) : accessReady s s r := by
  unfold accessReady; split
  · exact drained_of_idle h
  · rfl

theorem witness_SystemRegisters :
    (user.core.guard hd = true ∧ super.core.guard hd = true ∧ isSup .cyc = false ∧ isRO .lc = false ∧ super.core.sys.sup = true ∧
      user.handles = true ∧ isSup .epc = true ∧ isRO .depth = true) ∧
    accessReady user user .cyc ∧ accessReady user user .fpc ∧ accessReady super super .estat :=
  ⟨by decide +kernel, ready_of_idle (by decide +kernel) _, ready_of_idle (by decide +kernel) _, ready_of_idle (by decide +kernel) _⟩

theorem witness_Transfers :
    (∃ c p, transferOf user.core (.jmpr hd 15 15 4) = some (hd, c, p)) ∧ user.core.guard hd = true := ⟨⟨_, _, rfl⟩, by decide +kernel⟩

/-- Core 0 at depth 1, at the end of a loop that has `n` passes left. -/
def looping (n : Word) : State :=
  user.upd fun c => { c with ctx := { c.ctx with depth := 1, loops := c.ctx.loops.set 1 { count := n, start := 8, stop := 0 } } }

/-- At depth 7 with a count in `s1`. -/
def deepest : State := (vals [3] user).upd fun c => { c with ctx := { c.ctx with depth := 7 } }

/-- The running core's launch runs; what every clause about a trap that ends it asks. -/
def unhandled (s : State) : Bool :=
  s.core.guard hd && decide (s.core.launch = some 0) && (s.launch 0).any fun l => match l.status with | .ended _ _ => false | _ => true

theorem witness_Loops :
    (user.core.guard hd = true ∧ user.core.sys.sup = false ∧ user.core.getS 1 = 0 ∧ user.handles = true) ∧
    ((vals [3] user).core.getS 1 ≠ 0 ∧ (vals [3] user).core.ctx.depth ≠ 7 ∧ (vals [3] user).core.guard hd = true ∧ (vals [3] user).core.sys.sup = false) ∧
    ((looping 1).core.guard hd = true ∧ (looping 1).core.sys.sup = false ∧ (looping 1).core.ctx.depth ≠ 0 ∧
      (looping 1).core.ctx.pc = (loopAt (looping 1).core (looping 1).core.ctx.depth).stop) ∧
    ((looping 2).core.guard hd = true ∧ (looping 2).core.sys.sup = false ∧ (looping 2).core.ctx.depth ≠ 0 ∧
      (looping 2).core.ctx.pc = (loopAt (looping 2).core (looping 2).core.ctx.depth).stop) ∧
    (deepest.core.getS 1 ≠ 0 ∧ deepest.core.ctx.depth = 7 ∧ deepest.core.guard hd = true ∧ deepest.handles = true) ∧
    user.core.ctx.depth = 0 ∧ unhandled super = true ∧ super.core.sys.sup = true := by
  refine ⟨?_, ?_, ?_, ?_, ?_, ?_, ?_, ?_⟩ <;> decide +kernel

theorem witness_TrapsAndReturn :
    user.core.guard hd = true ∧ user.handles = true ∧ super.core.guard hd = true ∧ super.core.sys.sup = true ∧
    super.core.sys.estat.getLsbD 7 = false ∧ unhandled super = true ∧
    (let s := user.upd fun c => { c with sys := { c.sys with tvec := 0 } }; unhandled s = true ∧ s.core.sys.tvec = 0 ∧ s.core.sys.sup = false) := by
  decide +kernel

end Sys2Proof.Tests
end

