-- ==== Sys2Proof/Tests/Witnesses2.lean ====
section
/-! SUPPORT. Witnesses for the statements about memory, handles, tiles and waits. -/

namespace Sys2Proof.Tests

set_option Elab.async false

open Machine Claims

/-- Nothing of the core stands in the way of an access (the premises that a load has besides its translation). -/
theorem quiet_of {s : State} {va n : Nat} (h : (!s.core.sys.inj.getLsbD 5 && (zonesOf [(va, va, n)]).all fun z =>
    (!s.isRemote z.1 && !s.knownElsewhere z.1 z.2) && (s.poisoned z.1 z.2).isNone && (wbackers z.1 z.2 0 s.cores.toList).isEmpty && (s.sharers z.1 z.2).all (· == s.cur.val)) = true) :
    Quiet s [(va, va, n)] := by
  simp only [Bool.and_eq_true, Bool.not_eq_true', List.all_eq_true, Option.isNone_iff_eq_none, List.isEmpty_iff, beq_iff_eq] at h
  exact ⟨h.1, fun z hz => let w := h.2 z hz; ⟨w.1.1.1, w.1.1.2, w.1.2, w.2⟩⟩

/-- Bytes at home on the device that no other device holds. -/
theorem ours_of {s : State} {pa n : Nat} (h : (!s.isRemote pa && !s.knownElsewhere pa n) = true) : Ours s pa n := by
  simpa [Ours] using h

theorem witness_AddressBits :
    let s := vals [0x20000000000000, 64] user
    s.core.guard hd = true ∧ s.handles = true ∧
    (∃ va, loadOf s.core (.ld hd 3 1 0 .d false) = some (hd, 8, 3, va, 8, false) ∧ 2 ^ 53 ≤ va ∧ s.exch.partHeld s.cur va 8 = false) ∧
    (∃ va, loadOf s.core (.ldx hd 3 1 0 0 .w true) = some (hd, 12, 3, va, 4, true) ∧ 2 ^ 53 ≤ va ∧ s.exch.partHeld s.cur va 4 = false) ∧
    2 ^ 53 ≤ storeAt s.core 1 0 ∧
    extentOf s.core (.rdrop hd 1 0 2) = some (hd, 2 ^ 53, 64) ∧
    (s.core.getS 1 + (0 : BitVec 53).signExtend 64).toNat = 2 ^ 53 ∧ 2 ^ 53 ≤ (s.core.getS 1).toNat ∧ s.core.pend = [] := by
  refine ⟨?_, ?_, ⟨_, rfl, ?_⟩, ⟨_, rfl, ?_⟩, ?_, ?_, ?_, ?_, ?_⟩ <;> decide +kernel

theorem witness_Loads :
    loadOf user.core (.ld hd 3 0 16 .w true) = some (hd, 8, 3, 16, 4, true) ∧
    loadOf user.core (.ldx hd 3 0 0 16 .w true) = some (hd, 12, 3, 16, 4, true) ∧ (user.core.guard hd = true ∧
      zonesOf [(16, 16, 4)] = [(16, 4)] ∧ user.exch.partHeld user.cur 16 4 = false) ∧
    Standing user.exch user.core.reads 16 4 [(16, 16, 4)] ∧ Unheld user.exch 16 4 [(16, 16, 4)] ∧ Quiet user.exch [(16, 16, 4)] ∧
    (user.exch.upd (Core.touch [(16, 4)])).fillWaits user.cur false 0 false 16 4 = false ∧
    ∃ f, State.fillAll user.cur false 0 false (zonesOf [(16, 16, 4)]) (user.exch.upd (Core.touch (zonesOf [(16, 16, 4)]))) = .ok f :=
  ⟨by rfl, by rfl, by decide +kernel, inPage_translates (s := user.exch) (by decide +kernel), by unfold Unheld; decide +kernel, quiet_of (by decide +kernel),
    by decide +kernel, answers (by decide +kernel)⟩

/-- Core 0 holds the object at 4096, to which the region of 64 bytes at 512 is bound. -/
def holding : State :=
  (launched (fun l => { l with regions := [{ base := 512, len := 64, obj := 4096 }] }) user).upd
    (·.updCtx fun k => { k with holds := [{ va := 4096, pa := 4096, excl := true }] })

/-- The same, with the L1 owning the region's bytes. -/
def owning : State :=
  holding.upd fun c => { c with l1 := [{ start := 512, data := List.replicate 16 0, st := .m, dstart := 0, dlen := 16, cls := 0, pin := false,
                                         stamp := 1, stream := false, way := 0, grans := [0] }] }

theorem storable_of {s : State} {va n : Nat} (hp : inPage s.exch s.exch.core.writes va n = true)
    (h : s.exch.races s.cur [(va, va, n)] = none ∧ s.exch.partHeld s.cur va n = false) : Storable s.exch va n [(va, va, n)] :=
  ⟨inPage_translates (s := s.exch) hp, h.1, h.2⟩

theorem witness_Stores :
    (Storable user.exch 24 8 [(24, 24, 8)] ∧ storeAt user.core 0 24 = 24 ∧ user.core.guard hd = true ∧ user.core.sys.sup = false ∧
      user.exch.heldWrite user.cur 24 8 = false ∧ user.core.logFits 16 = true) ∧
    (Storable holding.exch 512 8 [(512, 512, 8)] ∧ holding.core.guard hd = true ∧ holding.core.sys.sup = false ∧
      storeAt holding.core 0 512 = 512 ∧ holding.exch.heldWrite holding.cur 512 8 = true ∧
      zonesOf [(512, 512, 8)] = [(512, 8)] ∧ ownedL1 512 8 holding.core.l1 = false) ∧
    (Storable owning.exch 512 8 [(512, 512, 8)] ∧ owning.exch.heldWrite owning.cur 512 8 = true ∧ ownedL1 512 8 owning.core.l1 = true) ∧
    (Storable super.exch 24 8 [(24, 24, 8)] ∧ super.core.guard hd = true ∧ super.canonical = true ∧ super.core.sys.sup = true ∧
      Ours super 24 8 ∧ super.exch.reached super.cur super.core.memq (zonesOf [(24, 24, 8)]) = false ∧ wbackers 24 8 0 super.cores.toList = [] ∧ super.sharers 24 8 = []) := by
  refine ⟨⟨storable_of (by decide +kernel) (by decide +kernel), by decide +kernel⟩,
    ⟨storable_of (by decide +kernel) (by decide +kernel), by decide +kernel⟩,
    ⟨storable_of (by decide +kernel) (by decide +kernel), by decide +kernel⟩,
    ⟨storable_of (by decide +kernel) (by decide +kernel), by unfold Ours; decide +kernel⟩⟩

theorem witness_Extents :
    let s := vals [0, 4096, 4097, 64] user
    (extentOf s.core (.rpin hd 1 0 16 1 false 0) = some (hd, 16, 0) ∧ extentOf s.core (.rdrop hd 0 16 3) = some (hd, 16, 4097) ∧
      extentOf s.core (.rflush hd 0 16 4 .s) = some (hd, 16, 64) ∧ extentOf s.core (.runpin hd 0 0 2) = some (hd, 0, 4096) ∧
      s.core.guard hd = true ∧ s.handles = true ∧ zonesOf [(16, 16, 64)] = [(16, 64)] ∧
      s.exch.reached s.cur s.core.memq [(16, 64)] = false ∧
      (∀ e ∈ s.core.l1, e.dstart + e.dlen ≤ e.data.length) ∧ (s.exch.upd (Core.touch [(16, 64)])).pinWaits s.cur false 0 (16, 64) = false) ∧
    Standing s.exch s.core.reads 16 64 [(16, 16, 64)] ∧ Quiet s.exch [(16, 16, 64)] :=
  ⟨by decide +kernel, inPage_translates (s := (vals [0, 4096, 4097, 64] user).exch) (by decide +kernel), quiet_of (by decide +kernel)⟩

theorem witness_Fences :
    user.core.guard hd = true ∧ (∀ sc, Performed user user.cur sc) ∧
    ∃ g, ((vals [1] grouped).exch.groupOf ((vals [1] grouped).core.getS 1) [1, 2, 3, 4] false) = .ok g :=
  ⟨by decide +kernel, performed_of (by decide +kernel), answers (by decide +kernel)⟩

/-- Core 0 with the record of an atomic of the superstep that is executed again. -/
def recalled : State :=
  user.upd fun c => { c with atoms := [{ va := 64, op := packFields [(1, 0), (4, AmoOp.add.code), (1, 1), (3, Scope.dev.code)], v1 := 0, v2 := 0, old := 7 }] }

/-- A device with index 1, to whose core 0 the home of bytes of device 0 has answered an atomic. -/
def afar : State :=
  { user with devidx := 1, present := [0] }.upd fun c => { c with farAtom := some (some (.done 9)) }

theorem witness_Atomics :
    (∃ f g, atomicOf user.core (.amo hd 3 0 2 .add true .dev) = some (hd, 3, 0, 8, .dev, f, g)) ∧
    (∃ f g, atomicOf user.core (.cas hd 3 0 2 false .sys) = some (hd, 3, 0, 4, .sys, f, g)) ∧
    Standing user.exch { rd := true, wr := true, user := !user.core.sys.sup } 0 8 [(0, 0, 8)] ∧
    (user.core.guard hd = true ∧ user.canonical = true ∧ user.exch.races user.cur [(0, 0, 8)] = none ∧
      user.exch.partHeld user.cur 0 8 = false ∧ user.exch.reached user.cur user.core.memq [(0, 8)] = false ∧ user.isRemote 0 = false ∧
      (!user.isRemote 0 && !user.knownElsewhere 0 8) = true ∧
      user.core.atoms[user.core.atomPos]? = none ∧ user.poisoned 0 8 = none ∧ user.core.sys.inj.getLsbD 5 = false ∧
      wbackers 0 8 0 user.cores.toList = [] ∧ user.sharers 0 8 = []) ∧
    (∃ r, user.exch.atomicStep user.cur .dev 0 8 (fun o => some (o + 1)) = .ok r) ∧
    Standing afar.exch { rd := true, wr := true, user := !afar.core.sys.sup } 0 8 [(0, 0, 8)] ∧
    (afar.core.guard hd = true ∧ afar.exch.races afar.cur [(0, 0, 8)] = none ∧ afar.exch.partHeld afar.cur 0 8 = false ∧
      afar.exch.reached afar.cur afar.core.memq [(0, 8)] = false ∧ afar.core.atoms[afar.core.atomPos]? = none ∧
      afar.exch.isRemote 0 = true ∧ afar.exch.canonical = true ∧ afar.exch.core.farAtom = some (some (.done 9))) ∧
    let s := vals [64] recalled
    (s.core.sys.sup = false ∧ (s.core.atoms[s.core.atomPos]?).map (·.va) = some 64 ∧
      (match s.exch.recorded { va := 64, op := packFields [(1, 0), (4, AmoOp.add.code), (1, 1), (3, Scope.dev.code)], v1 := 0, v2 := 0, old := 0 } with
        | .ok r => r == some 7
        | .error _ => false) = true) :=
  ⟨⟨_, _, by rfl⟩, ⟨_, _, by rfl⟩, inPage_translates (s := user.exch) (by decide +kernel), by decide +kernel, answers (by decide +kernel),
    inPage_translates (s := afar.exch) (by decide +kernel), by decide +kernel, by decide +kernel⟩

end Sys2Proof.Tests
end

