-- ==== Sys2Proof/Tests/Witnesses3.lean ====
section
/-! SUPPORT. Witnesses for the statements about handles, tiles, waits, messages, barriers, supersteps and sync objects. -/

namespace Sys2Proof.Tests

set_option Elab.async false

open Machine Claims

theorem witness_HandleAccess :
    let s := vals [3, 4] user
    s.core.guard hd = true ∧ s.handles = true ∧ Settable (s.core.getS 1).toNat .layout ∧ ¬ Settable (s.core.getS 2).toNat .layout ∧
    ¬ Settable (s.core.getS 1).toNat .fmt ∧ Settable (s.core.getS 1).toNat .tile ∧ ¬ Settable (s.core.getS 2).toNat .block :=
  ⟨by decide +kernel, by decide +kernel, by unfold Settable; decide +kernel, by unfold Settable; decide +kernel, id,
    by unfold Settable; decide +kernel, by unfold Settable; decide +kernel⟩

/-- A scratchpad operand of four binary32 elements, and its counterpart in memory. -/
def padded : Handle := { base := 256, pad := true, fmt := 2, ext0 := 4, ext1 := 1, ext2 := 1, ext3 := 1, stride1 := 16, stride2 := 16 }
def remote : Handle := { padded with pad := false, base := 512 }

/-- Core 0 with these two handles in `h0` and `h1`, the first in the plate cache too. -/
def handled : State := (hands [padded, remote] user).upd fun c => { c with plates := [(64, bytesLE 64 remote.toPlate)] }

theorem witness_HandlesAndPlates :
    (handled.core.guard hd = true ∧ (fmtNibbles (handled.core.getH 0).fmt.toNat).isSome = true ∧
      (handled.core.getS 0).toNat + (4 : BitVec 16).toNat ≤ fieldOf (handled.core.getH 0) (extField 0) ∧
      (handled.core.getH 0).layout = 0 ∧ (handled.core.getH 0).fmt ≠ 0x11 ∧ (handled.core.getH 0).fmt ≠ 0x12 ∧ (handled.core.getH 0).fmt ≠ 0x21) ∧
    ((handled.core.getS 0 + (64 : BitVec 53).signExtend 64).toNat = 64 ∧ Standing handled.exch handled.core.reads 64 64 [(64, 64, 64)] ∧
      handled.core.sys.inj.getLsbD 5 = false ∧ handled.poisoned 64 64 = none ∧ (!handled.isRemote 64 && !handled.knownElsewhere 64 64) = true ∧
      ∃ k, plateCheck (numberOf (match handled.core.plates.find? (·.1 == 64) with
        | some e => e.2
        | none => (List.range 64).map fun j => (handled.memFor handled.cur).get (64 + j))) = .ok k) ∧
    (handled.core.sys.sup = false ∧ Standing handled.exch handled.core.writes 64 64 [(64, 64, 64)] ∧
      Storable handled.exch 64 32 [(64, 64, 32)] ∧ handled.exch.heldWrite handled.cur 64 32 = false ∧ handled.core.logFits 16 = true) ∧
    padded.block.toNat < 4 :=
  ⟨by decide +kernel,
    ⟨by decide +kernel, inPage_translates (s := handled.exch) (by decide +kernel), by decide +kernel, by decide +kernel, by decide +kernel, answers (by decide +kernel)⟩,
    ⟨by decide +kernel, inPage_translates (s := handled.exch) (by decide +kernel),
      ⟨inPage_translates (s := handled.exch) (by decide +kernel), by decide +kernel, by decide +kernel⟩, by decide +kernel, by decide +kernel⟩,
    by decide +kernel⟩

/-- The same with an entry of the tile table. -/
def tiled (e : Tile) : State := handled.upd fun c => { c with ctx := { c.ctx with tiles := c.ctx.tiles.set 3 e } }

/-- What a transfer on tile 3 needs but the tile's own state. -/
def fits (s : State) : Bool :=
  s.core.guardX hx && s.handles && decide (transferTrap (s.core.getH 0) (s.core.getH 1) = none) &&
    s.core.inPad (s.core.getH 0).start (s.core.getH 0).bytes && (s.exch.hold [s.core.getH 0, s.core.getH 1]).toBool

theorem witness_TileTransfers :
    ∀ e ∈ [({ st := .empty } : Tile), { st := .ready }, { st := .draining }, { st := .filling }, { st := .filling, drainQ := true },
        { st := .ready, pend := true }],
      (tileAt (tiled e).core 3 = e) ∧ (tiled e).core.guard hd = true ∧ (tiled e).core.wait ≠ some .satisfied ∧ fits (tiled e) = true := by
  intro e he
  simp only [List.mem_cons, List.not_mem_nil, or_false] at he
  rcases he with rfl | rfl | rfl | rfl | rfl | rfl <;> exact ⟨by decide +kernel, by decide +kernel, by decide +kernel, by decide +kernel⟩

/-- A copy-engine command in flight with an identifier. -/
def flight (k : CopyKind) (n : Word) : CopyCmd :=
  { kind := k, pc := 0, pos := 0, ch := 2, id := n, hl := padded, hg := remote, tile := 3, tgt := 0, dst := 0, fl := { acq := false, rel := false, scope := .core }, hint := 0,
    need := 0, done := 0, stop := none, timed := none }

/-- A core with transfer 1 of channel 2 in flight, the channel's next identifier being 2. -/
def flying : State :=
  (vals [1] user).upd fun c => { c with copies := [flight .fill 1], ctx := { c.ctx with nextId := c.ctx.nextId.set 2 2 } }

theorem witness_WaitsAndStatus :
    (∃ v, statusOf user.core (.tstate hd 3 5) = some (hd, 8, 3, v)) ∧ (∃ v, statusOf user.core (.ccrd hd 3 5) = some (hd, 12, 3, v)) ∧
    (flying.core.guard hd = true ∧ ∀ x ∈ flying.core.copies, x.ch = 2 → 0 < x.id.toNat ∧ x.id.toNat < flying.core.ctx.nextId[2].toNat) ∧
    landed user user ∧ user.core.guard hd = true ∧
    (∃ k w d, passOf user.core (.twait hd 3) = some (hd, k, w, d) ∧ k) ∧
    (∃ k w d, passOf (tiled { st := .filling }).core (.twait hd 3) = some (hd, k, w, d) ∧ ¬ k) ∧
    (∃ k w d, passOf user.core (.ccwait hd 0 3) = some (hd, k, w, d) ∧ k) ∧
    (∃ k w d, passOf flying.core (.ccwait hd 1 3) = some (hd, k, w, d) ∧ ¬ k) ∧
    (∃ k w d, passOf flying.core (.xwait hd 0 2) = some (hd, k, w, d) ∧ k) ∧
    (∃ k w d, passOf flying.core (.xwait hd 1 2) = some (hd, k, w, d) ∧ ¬ k) ∧
    (flying.core.getS 1).toNat < flying.core.ctx.nextId[2].toNat :=
  ⟨⟨_, rfl⟩, ⟨_, rfl⟩, by decide +kernel, drained_of_idle (by decide +kernel), by decide +kernel, ⟨_, _, _, rfl, by decide +kernel⟩,
    ⟨_, _, _, rfl, by decide +kernel⟩, ⟨_, _, _, rfl, by decide +kernel⟩, ⟨_, _, _, rfl, by decide +kernel⟩, ⟨_, _, _, rfl, by decide +kernel⟩,
    ⟨_, _, _, rfl, by decide +kernel⟩, by decide +kernel⟩

theorem witness_LaneGrants : user.core.guard hd = true ∧ ∃ g, Claimable user g := by
  refine ⟨by decide +kernel, 8, Or.inr ⟨by decide +kernel, by decide +kernel, ?_⟩⟩
  decide +kernel

/-- An operand of no elements in `h0`. -/
def emptied : State := hands [{ padded with ext0 := 0 }] user

theorem witness_MessagesAndSends :
    (∃ l, user.launchOf user.cur = some l ∧ l.coreOf (user.core.getS 0).toNat = some 0) ∧
    (user.core.port.filter fun c => c.kind == .msg).length < 4 ∧ landed user user ∧ user.core.guard hd = true ∧
    user.core.ctx.mailbox = [] ∧ (user.upd (·.updCtx fun k => { k with mailbox := [7] })).core.ctx.mailbox = [7] ∧
    (judge [(3, handled.core.getH 0, { tags := none, layouts := none })] = none ∧ (handled.core.getS 0).toNat < 8 ∧
      handled.core.launch ≠ none ∧ (handled.at (8 * podOf handled.cur + 0)).launch = handled.core.launch ∧
      handled.core.inPad (handled.core.getH 0).start (handled.core.getH 0).bytes = true ∧
      handled.core.inPad 1024 (handled.core.getH 0).bytes = true ∧
      (handled.exch.landing 0 (handled.core.getH 0).bytes ≠ none → (handled.core.getH 0).bytes ≤ 2048) ∧
      (handled.core.getH 0).bytes ≠ 0 ∧ (emptied.core.getH 0).bytes = 0 ∧
      judge [(3, emptied.core.getH 0, { tags := none, layouts := none })] = none) ∧
    handled.exch.hold [handled.core.getH 0] = .ok () ∧ emptied.exch.hold [emptied.core.getH 0] = .ok () := by
  refine ⟨?_, by decide +kernel, drained_of_idle (by decide +kernel), by decide +kernel, by decide +kernel, by decide +kernel, by decide +kernel,
    passes (by decide +kernel), passes (by decide +kernel)⟩
  obtain ⟨l, h, p⟩ := thereWith (x := user.launchOf user.cur) (fun l => l.coreOf (user.core.getS 0).toNat == some 0) (by decide +kernel)
  exact ⟨l, h, by simpa using p⟩

/-- A launch with a producer that runs, triggered or not. -/
def depending (b : Bool) : State :=
  let s := launched (fun l => { l with producers := [9] }) user
  { s with launches := s.launches ++ [{ record := { seq := 9 }, queue := 0, order := 0, status := .running, triggered := b }] }

theorem witness_Dependence :
    user.core.guard hd = true ∧ (depending true).core.guard hd = true ∧ (depending false).core.guard hd = true ∧
    landed (depending true) (depending true) ∧ landed (depending false) (depending false) ∧
    (∀ b, (((depending b).launchOf (depending b).cur).map (·.producers)).getD [] = [9]) ∧
    (∃ l, (depending true).launch 9 = some l ∧ (decide (l.status = .running) && l.triggered) = true) ∧
    ∃ l, (depending false).launch 9 = some l ∧ (decide (l.status = .running) && !l.triggered) = true :=
  ⟨by decide +kernel, by decide +kernel, by decide +kernel, drained_of_idle (by decide +kernel), drained_of_idle (by decide +kernel),
    fun b => by cases b <;> decide +kernel, thereWith _ (by decide +kernel), thereWith _ (by decide +kernel)⟩

theorem witness_GuardedOff :
    hdOf (.eret { hd with gn := true }) = some ({ hd with gn := true }, 8) ∧ user.core.guard { hd with gn := true } = false ∧
    hxOf (.mwait { hx with ga := 1 }) = some { hx with ga := 1 } ∧ user.core.guardX { hx with ga := 1 } = false :=
  ⟨rfl, by decide +kernel, rfl, by decide +kernel⟩

/-- Core 1 as a detached member of a chain that core 0 leads; core 0 in a run state. -/
def chained (p : Phase) : State :=
  { (user.on 1 fun c => { c.probed with chainPos := 1 }).on 0 fun c => { c with phase := p } with cur := 1 }

/-- Core 0 leads core 1, which has left its stream: the leader is about to execute a `JOIN`, the follower waits at one or not. -/
def leading (w : Option Wait) : State :=
  (launched (fun l => { l with chain := [(0, 1)] }) user).on 1 fun c => { c.probed with chainPos := 1, wait := w }

/-- Core 1 with its leader at another `JOIN`. -/
def astray : State :=
  ((chained .running).on 0 fun c => { c with wait := some .join, ctx := { c.ctx with pc := 64 } }).upd fun c => { c with sys := { c.sys with tvec := 64 } }

theorem witness_ChainInstructions :
    (user.core.guard hd = true ∧ user.core.chainPos = 0 ∧ (user.setCore user.core).followersOf user.cur = []) ∧
    landed user user ∧ landed (chained .exited) (chained .exited) ∧ landed (chained .running) (chained .running) ∧
    ((chained .exited).core.guard hd = true ∧ (chained .exited).core.ctx.attached = false ∧ (chained .exited).core.chainPos ≠ 0 ∧
      (((chained .exited).setCore (chained .exited).core).at ((chained .exited).leaderOf (chained .exited).cur)).phase = .exited) ∧
    ((chained .running).core.guard hd = true ∧ (chained .running).core.ctx.attached = false ∧ (chained .running).core.chainPos ≠ 0 ∧
      (((chained .running).setCore (chained .running).core).at ((chained .running).leaderOf (chained .running).cur)).phase = .running ∧
      (((chained .running).setCore (chained .running).core).at ((chained .running).leaderOf (chained .running).cur)).wait = none) ∧
    landed astray astray ∧ (astray.core.guard hd = true ∧ astray.core.ctx.attached = false ∧ astray.core.chainPos ≠ 0 ∧ astray.handles = true ∧
      (astray.at (astray.leaderOf astray.cur)).phase = .running ∧ (astray.at (astray.leaderOf astray.cur)).wait = some .join ∧
      (astray.at (astray.leaderOf astray.cur)).ctx.pc ≠ astray.core.ctx.pc) ∧
    ∀ w, w = none ∨ w = some Wait.join → landed (leading w) (leading w) ∧ (leading w).core.guard hd = true ∧ (leading w).core.ctx.attached = false ∧
      (leading w).core.chainPos = 0 ∧ (1 ∈ (leading w).followersOf (leading w).cur) ∧ ((leading w).at 1).ctx.attached = false ∧
      ((leading w).at 1).phase = .running ∧ ((leading w).at 1).wait = w ∧ ((leading w).at 1).ctx.pc = (leading w).core.ctx.pc := by
  refine ⟨by decide +kernel, drained_of_idle (by decide +kernel), drained_of_idle (by decide +kernel), drained_of_idle (by decide +kernel), by decide +kernel,
    by decide +kernel, drained_of_idle (by decide +kernel), by decide +kernel, fun w hw => ?_⟩
  rcases hw with rfl | rfl <;> exact ⟨drained_of_idle (by decide +kernel), by decide +kernel⟩

/-- The launch with a barrier set of group 0: who has arrived in this phase and in the next, after `n` closed phases. -/
def barred (n : Nat) (cur next : List Nat) (w : Option Wait) : State :=
  (launched (fun l => { l with squads := [{ stage := 0, inst := 0, cores := [0], bars := [{ group := 0, phase := false, closes := n, cur := cur, next := next }] }] })
    grouped).upd fun c => { c with wait := w }

/-- What every clause about a barrier asks. -/
def atBarrier (s : State) : Bool :=
  s.core.guard hd && s.core.pend.isEmpty && (s.exch.groupOf (s.core.getS 0) [2] true).toBool && decide (s.core.launch = some 0) &&
    (setOf s (s.core.getS 0).toNat).any fun b => b.group == (s.core.getS 0).toNat

theorem witness_Barriers :
    atBarrier (barred 0 [] [] none) = true ∧ atBarrier (barred 0 [0] [] none) = true ∧
    (atBarrier (barred 1 [] [] (some (.bar 0 1 0))) = true ∧ (barred 1 [] [] (some (.bar 0 1 0))).core.wait = some (.bar 0 1 0) ∧
      (barred 1 [] [] (some (.bar 0 1 0))).exch.inbound 0 0 1 = false) ∧
    atBarrier (barred 0 [0] [] (some (.bar 0 1 0))) = true ∧ (barred 0 [0] [] (some (.bar 0 1 0))).core.wait = some (.bar 0 1 0) ∧
    atBarrier (barred 0 [0] [0] none) = true ∧ (barred 0 [0] [0] none).handles = true := by
  refine ⟨?_, ?_, ?_, ?_, ?_, ?_, ?_⟩ <;> decide +kernel

/-- A launch of cores 0 and 1, core 1 in a run state. -/
def paired (p : Phase) : State :=
  (launched (fun l => { l with team := [0, 1], squads := [{ stage := 0, inst := 0, cores := [0, 1] }] }) user).on 1 fun c =>
    { c.probed with phase := p, team := 1 }

/-- What the statements about `SSTEP` and `EXIT` ask of the running core and its launch. -/
def alone (s : State) : Bool :=
  s.core.guard hd && s.core.pend.isEmpty && s.core.performed && s.core.wait.isNone && decide (s.core.phase = .running) &&
    decide (s.core.launch = some 0) && s.core.enginesIdle && s.core.faults.isEmpty && !s.atCut 0 s.cur && !s.inbound s.cur 256 0 &&
    s.core.ctx.holds.isEmpty &&
    (s.launchOf s.cur).any fun l => decide (l.record.seq = 0) && l.stages.isEmpty && decide (l.status = .running) && decide (s.launches = [l]) &&
      (l.squadOf s.cur).any fun q => q.cores.contains s.cur.val && decide (l.squads = [q])

theorem witness_Supersteps :
    alone (paired .running) = true ∧ alone user = true ∧
    ((paired .running).exch.arriveStep ((paired .running).after 8) 0).squadReady 0 { stage := 0, inst := 0, cores := [0, 1] } = false ∧
    (let q : Squad := { stage := 0, inst := 0, cores := [0] };
      let u := user.exch.arriveStep (user.after 8) 0;
      q.applied = false ∧ u.squadReady 0 q = true ∧ u.commitWaits 0 q = false ∧ (u.commitLogs 0 q).squadPending 0 q = false) := by
  refine ⟨?_, ?_, ?_, ?_⟩ <;> decide +kernel

theorem witness_Exits :
    alone (paired .running) = true ∧ alone (paired .exited) = true ∧ alone user = true ∧
    ((paired .running).member 0 1).phase = .running ∧ ((paired .running).member 0 1).wait = none ∧
    ((paired .exited).member 0 1).phase = .exited ∧ (paired .running).farPending 0 = false ∧ (paired .exited).farPending 0 = false ∧
    (let q : Squad := { stage := 0, inst := 0, cores := [0, 1] };
      (paired .exited).commitWaits 0 q = false ∧ ((paired .exited).commitLogs 0 q).squadPending 0 q = false) := by
  refine ⟨?_, ?_, ?_, ?_, ?_, ?_, ?_, ?_, ?_⟩ <;> decide +kernel

/-- A logged write of core 0. -/
def logging : State := user.upd fun c => { c with log := [{ pos := 1, pa := 64, bytes := [7], space := 16 }] }

theorem witness_CommitOrder :
    logging.canonical = true ∧ (∀ i : Nat, (logging.at i).l1 = [] ∧ (logging.at i).memq = []) ∧ [(0 : Nat)].Nodup ∧
    commitOrder logging 0 { stage := 0, inst := 0, cores := [0] } ≠ [] := by
  refine ⟨by decide +kernel, fun i => ?_, by decide, by decide +kernel⟩
  have h := everyCore (s := logging) (p := fun c => c.l1.isEmpty && c.memq.isEmpty) (by decide +kernel) rfl i
  simpa using h

/-- The object at 4096 with a word, and the core holding it or not. -/
def object (w : Nat) (l : List Hold) : State := (word8 4096 w (vals [4096] user)).upd (·.updCtx fun k => { k with holds := l })

/-- What every clause about a sync object asks. -/
def objected (s : State) : Bool :=
  s.core.guard hd && s.canonical && s.core.pend.isEmpty && s.core.wait.isNone && s.handles && s.core.memq.isEmpty && s.remotes.isEmpty &&
    s.farWrites.isEmpty &&
    inPage s.exch { rd := true, wr := true, user := !s.exch.core.sys.sup } 4096 8 &&
    decide ((s.core.getS 1).toNat = 4096) && (s.sharers 4096 8).isEmpty && (wbackers 4096 8 0 s.cores.toList).isEmpty &&
    (s.poisoned 4096 8).isNone && !s.core.sys.inj.getLsbD 5 && s.syncs.isEmpty && (s.exch.regionKeys s.cur 4096).isEmpty &&
    s.launches.all fun l => l.squads.all fun q => q.aside.isEmpty

theorem witness_SyncObjects :
    (objected (object 0 []) = true ∧ memNumber (object 0 []) 4096 8 = 0) ∧
    (objected (object 0x1000000 []) = true ∧ memNumber (object 0x1000000 []) 4096 8 = 0x1000000) ∧
    (objected (object 0x4000000 []) = true ∧ memNumber (object 0x4000000 []) 4096 8 / 2 ^ 26 % 2 ^ 6 ≠ 0) ∧
    (let k : Hold := { va := 4096, pa := 4096, excl := true };
      objected (object 0x1000000 [k]) = true ∧ (object 0x1000000 [k]).core.ctx.holds.find? (·.pa == 4096) = some k) ∧
    (let k : Hold := { va := 4096, pa := 4096, excl := false };
      objected (object 1 [k]) = true ∧ (object 1 [k]).core.ctx.holds.find? (·.pa == 4096) = some k ∧ memNumber (object 1 [k]) 4096 8 = 1) := by
  refine ⟨?_, ?_, ?_, ?_, ?_⟩ <;> decide +kernel

end Sys2Proof.Tests
end

