-- ==== Sys2Proof/Tests/Witnesses4.lean ====
section
/-! SUPPORT. Witnesses for the statements about the lanes, the residues, the plane engine, buffers, the port and placement. -/

namespace Sys2Proof.Tests

set_option Elab.async false

open Machine Claims

/-- A scratchpad operand of `n` elements with a tag, at an address. -/
def local' (a tag n : Nat) : Handle :=
  { base := .ofNat 53 a, pad := true, fmt := .ofNat 8 tag, ext0 := .ofNat 16 n, ext1 := 1, ext2 := 1, ext3 := 1, stride1 := 64, stride2 := 64 }

/-- Three operands of four 32-bit integers, and 4 in `s1`. -/
def laneBench : State := vals [4] (hands [local' 256 0x23 4, local' 512 0x23 4, local' 768 0x23 4] user)

/-- What a lane instruction finds: its operands in order, its work with the flags and room for it. -/
def workable (s : State) (c : Core) (w : LaneWork) : Bool :=
  decide (judge w.chk = none) && (w.exts.all fun e => s.core.inPad e.1 e.2) && (s.hold (w.chk.map (·.2.1))).toBool && !s.laneReports s.cur &&
    !c.traps w.flags

/-- With an empty queue, room for one more write is there. -/
theorem room_of_idle {s : State} (h : s.core.pend = []) (w : LaneWork) : roomFor s s w := by
  unfold roomFor
  split
  · exact roomed_of_idle h
  · rfl

/-- Values of a binary32 quotient by zero, the trap for it enabled. -/
def dividing : State :=
  (vals [1] (hands [local' 256 0x02 1, local' 512 0x02 1, local' 768 0x02 1] user)).upd fun c =>
    { c with ctx := { c.ctx with fpc := 0x3E01 }, pad := c.pad.write 512 [0, 0, 0x80, 0x3F] }

theorem witness_LanesAndSfu :
    roomFor (laned laneBench) (laned laneBench)
      (pairsWork (laned laneBench).core false 0 1 2 4 0x23 0x23 2 (arithElem .add .i32 (laneBench.core.mode .dyn))) ∧
    (∃ w, laneOf laneBench (laned laneBench).core (.varith hx 0 1 2 1 .add .i32 .dyn) = some (hx, w) ∧
      workable laneBench (laned laneBench).core w = true) ∧
    (∃ w, laneOf user (laned user).core (.varith hx 0 1 2 1 .add .i32 .dyn) = some (hx, w) ∧ (judge w.chk).isSome = true) ∧
    (∃ w, laneOf dividing (laned dividing).core (.varith hx 0 1 2 1 .div .f32 .dyn) = some (hx, w) ∧
      (decide (judge w.chk = none) && (laned dividing).core.traps w.flags) = true) ∧
    laneBench.core.guardX hx = true ∧ user.handles = true ∧ dividing.handles = true ∧
    (judge [(1, dividing.core.getH 0, tagged (sfTag .f32)), (2, dividing.core.getH 1, tagged (sfTag .f32))] = none ∧
      dividing.core.inPad (dividing.core.getH 0).start 4 = true ∧ dividing.core.inPad (dividing.core.getH 1).start 4 = true ∧
      dividing.core.sfu = none ∧ (dividing.core.getS 1).toNat = 1 ∧ (dividing.core.getS 0).toNat = 0) ∧
    dividing.hold [dividing.core.getH 0, dividing.core.getH 1] = .ok () ∧
    dividing.roomed = .ok dividing ∧ dividing.core.traps (sfuBytes .exp2 .f32 (dividing.core.pad.read (dividing.core.getH 1).start 4)).2 = false :=
  ⟨room_of_idle (by decide +kernel) _, thereWith2 (by decide +kernel), thereWith2 (by decide +kernel), thereWith2 (by decide +kernel),
    by decide +kernel, by decide +kernel, by decide +kernel, by decide +kernel, passes (by decide +kernel), roomed_of_idle (by decide +kernel), by decide +kernel⟩

theorem witness_ReconstructionIsCorrect :
    [0, 1, 2, 3, 4, 5, 6, 7].Pairwise (· < ·) ∧ (∀ k ∈ [0, 1, 2, 3, 4, 5, 6, 7], k < 8) ∧ ∀ k ∈ [0, 1, 2, 3, 4, 5, 6, 7], 3 < modulus k := by
  decide +kernel

/-- Core 0 in a gang alone, with an operand of four elements in eight residue channels in `h0`, 4 in `s1`, a map of channels in `s2`. -/
def residual : State := vals [4, 0xC03F, 0x3F] (hands [{ local' 256 0x30 4 with layout := 2, stride2 := 16 }] grouped)

theorem witness_ResidueSettings :
    (∃ g, residual.resState residual.cur = some g) ∧ residual.core.guardX hx = true ∧ residual.core.guard hd = true ∧
    (judge [(1, residual.core.getH 0, { tags := some [0x30], layouts := some [2] })] = none ∧
      (∀ k < 8, residual.core.inPad ((residual.core.getH 0).start + k * (residual.core.getH 0).stride2.toNat) 4 = true) ∧
      residual.laneReports residual.cur = false ∧ (residual.at 0).sys.inj.getLsbD 4 = false) ∧
    residual.hold [residual.core.getH 0] = .ok () ∧
    (∀ i < 4, ∀ x : Int, x = reconstruct [0, 1, 2, 3, 4, 5, 6, 7] (residual.core.residue (residual.core.getH 0) i) →
      0 ≤ 2 * x + (([0, 1, 2, 3, 4, 5] : List Nat).map modulus).prod ∧ 2 * x < (([0, 1, 2, 3, 4, 5] : List Nat).map modulus).prod) ∧
    user.resState user.cur = none ∧ user.handles = true ∧
    (let m := residual.core.getS 2;
      m.toNat / 2 ^ 17 = 0 ∧ (m.extractLsb' 0 8 : BitVec 8) = 0x3F ∧ (m.extractLsb' 8 8 : BitVec 8) = 0xC0) ∧
    ((residual.core.getS 3).extractLsb' 0 8 : BitVec 8) = 0x3F ∧ (residual.squadOf residual.cur).isSome = true := by
  refine ⟨there (by decide +kernel), by decide +kernel, by decide +kernel, by decide +kernel, passes (by decide +kernel), ?_, ?_, by decide +kernel,
    by decide +kernel, by decide +kernel, by decide +kernel⟩
  · intro i hi x hx
    have : ∀ i < 4, 0 ≤ 2 * reconstruct [0, 1, 2, 3, 4, 5, 6, 7] (residual.core.residue (residual.core.getH 0) i) +
        (([0, 1, 2, 3, 4, 5] : List Nat).map modulus).prod ∧
        2 * reconstruct [0, 1, 2, 3, 4, 5, 6, 7] (residual.core.residue (residual.core.getH 0) i) <
        (([0, 1, 2, 3, 4, 5] : List Nat).map modulus).prod := by decide +kernel
    rw [hx]; exact this i hi
  · decide +kernel

/-- Core 0 in a gang, armed or not, with operands for `MMA` in `h0` and `h1`, the gang's number in `s1`. -/
def ganged (b : Bool) (st : SlotState) : State :=
  (vals [1] (hands [local' 256 0x02 4, local' 512 0x02 4] grouped)).upd fun c =>
    { c with ctx := { c.ctx with armed := b, ring := c.ctx.ring.set 0 { st := st }, head := if st = .free then 0 else 1 } }

/-- A queued command of the plane engine. -/
def queued : PlaneCmd :=
  { op := .hatch, pc := 0, ha := local' 256 0x02 4, hb := local' 512 0x02 4, gang := 0, need := 0, order := 0, slot := none, started := false, old := {} }

theorem witness_PlaneSettings :
    user.core.guard hd = true ∧ user.core.guardX hx = true ∧ (∃ g, (ganged false .free).groupOf ((ganged false .free).core.getS 1) [1] true = .ok g) ∧
    landed user user ∧ (user.core.plane = [] ∧ user.core.stats = [] ∧ user.core.etch = []) ∧
    (user.upd fun c => { c with plane := [queued] }).core.plane ≠ [] ∧ (∀ x ∈ user.core.plane, x.started = false) ∧
    ∀ m : Nat, ∀ x ∈ (user.at m).plane.tail, x.started = false ∧ x.done = 0 := by
  refine ⟨by decide +kernel, by decide +kernel, answers (by decide +kernel), drained_of_idle (by decide +kernel), by decide +kernel, by decide +kernel,
    by decide +kernel, fun m => ?_⟩
  have h := everyCore (s := user) (p := fun c => c.plane.isEmpty) (by decide +kernel) rfl m
  simp [List.isEmpty_iff.mp h]

/-- What `GangWork.fits` and the statement ask, as a decision. -/
def gangFits (s : State) (w : GangWork) : Bool :=
  (s.groupOf (s.core.getS w.o3) [1] true).toBool && decide (judge w.acc = none) && (!w.same || decide ((s.core.getH w.o2).fmt = (s.core.getH w.o1).fmt)) &&
    !w.eight && decide ((s.core.getH w.o2).ext0 = (s.core.getH w.o1).ext0) &&
    (((s.core.getH w.o1).readExtents w.pa ++ (s.core.getH w.o2).readExtents w.pb).all fun e => s.core.inPad e.1 e.2) &&
    (s.hold [s.core.getH w.o1, s.core.getH w.o2]).toBool && decide (s.core.plane.length < 2) && s.core.guardX hx

theorem witness_GangOperations :
    (∃ w, gangOf (ganged false .free).core (.mma hx 0 1 1 .ieee false false 0 0) = some (hx, w)) ∧
    (ganged false .free).core.ctx.armed = false ∧ (ganged false .free).handles = true ∧
    (∃ w, gangOf (ganged true .free).core (.mma hx 0 1 1 .ieee false false 0 0) = some (hx, w) ∧ gangFits (ganged true .free) w = true) ∧
    (ganged true .free).core.ctx.armed = true ∧ (ganged true .free).core.claimed < 4 ∧
    ((ganged true .free).core.slot (ganged true .free).core.ctx.head).st = .free ∧
    (∃ w, gangOf (ganged true .full).core (.mma hx 0 1 1 .ieee true false 0 0) = some (hx, w) ∧ gangFits (ganged true .full) w = true) ∧
    (ganged true .full).core.claimed ≠ 0 ∧
    ∀ x : PlaneCmd, x.op = .mma .ieee true false 0 0 → (ganged true .full).core.fillKindOf (ganged true .full).core.lastSlot = x.kind := by
  refine ⟨⟨_, rfl⟩, by decide +kernel, by decide +kernel, thereWith2 (by decide +kernel), by decide +kernel, by decide +kernel, by decide +kernel,
    thereWith2 (by decide +kernel), by decide +kernel, fun x hx => ?_⟩
  rw [show (ganged true .full).core.fillKindOf (ganged true .full).core.lastSlot = .float by decide +kernel, PlaneCmd.kind, hx]

end Sys2Proof.Tests
end

