-- ==== Sys2Proof/Tests/Witnesses5.lean ====
section
/-! SUPPORT. Witnesses for the statements about the hatcher, the etcher, buffers, the port and placement. -/

namespace Sys2Proof.Tests

set_option Elab.async false

open Machine Claims

/-- Sources for `MHATCH` and `MUNHATCH`: a line of 64 MK8 elements, one in planes. -/
def hatching : State :=
  hands [local' 0x400 0x11 64, { local' 0x100 0x10 64 with stride1 := 128 },
         { local' 0x200 0x21 64 with layout := 1, planes := 3, stride1 := 32 }] user

/-- What the statement about hatch commands asks, as a decision. -/
def hatchFits (s : State) (x : HReg × HReg × PlaneOp × Accept × Nat × Nat × Handle) : Bool :=
  let d := s.core.getH x.1
  let a := s.core.getH x.2.1
  decide (judge [(1, d, { tags := none, layouts := none }), (2, a, x.2.2.2.1)] = none) && s.core.inPad a.start x.2.2.2.2.1 &&
    s.core.inPad d.start x.2.2.2.2.2.1 && (s.hold [d, a]).toBool && decide (s.core.plane.length < 2) && s.core.guardX hx

/-- An etcher's bench: slot 0 full, an FP32 destination in `h0`, records at 64 (write as FP32), 128 (keep) and 192 (refused). -/
def etching : State :=
  (vals [64, 128, 192] (ganged false .full)).upd fun c =>
    { c with plates := [(64, bytesLE 64 0x020006), (128, bytesLE 64 7), (192, bytesLE 64 0)] }

theorem witness_HatchingAndEtching :
    (∃ x, hatchOf hatching.core (.mhatch hx 0 1) = some (hx, x) ∧ hatchFits hatching x = true) ∧
    (∃ x, hatchOf hatching.core (.munhatch hx 0 2) = some (hx, x) ∧ hatchFits hatching x = true) ∧
    (etching.core.guardX hx = true ∧ judge [(1, etching.core.getH 0, { tags := some [0x02] })] = none ∧
      etching.core.inPad (etching.core.getH 0).start 768 = true ∧ etching.core.slotLive 0 = true ∧ etching.core.kindOf 0 ≠ .residue ∧
      etching.core.stats.length < 2 ∧ etching.core.claimed ≠ 0 ∧ etching.core.kindOf etching.core.etchSlot ≠ .residue) ∧
    etching.hold [etching.core.getH 0] = .ok () ∧
    (∃ r, etching.readPlate (etching.core.getS 1).toNat = .ok r ∧
      ((checkProgram etching.core.padSize (etching.core.getH 0) true (programOf r.2)).toBool && decide (r.1.core.etch.length < 2) &&
        decide (judge [(1, etching.core.getH 0, etchAccept false (etching.core.getH 0))] = none) &&
        (r.1.hold [etching.core.getH 0]).toBool &&
        (etchPlaces false (etching.core.getH 0)).all fun p => decide (p.1 < etching.core.padSize)) = true) ∧
    (∃ r, etching.readPlate (etching.core.getS 2).toNat = .ok r ∧
      (match checkProgram etching.core.padSize (etching.core.getH 0) true (programOf r.2) with
        | .ok ws => opc (ws.getLastD 0) == 7
        | .error _ => false) = true) ∧
    (∃ r, etching.readPlate (etching.core.getS 3).toNat = .ok r ∧
      (!(checkProgram etching.core.padSize (etching.core.getH 0) true (programOf r.2)).toBool && r.1.handles) = true) :=
  ⟨thereWith2 (by decide +kernel), thereWith2 (by decide +kernel), by decide +kernel, passes (by decide +kernel), answersWith _ (by decide +kernel),
    answersWith _ (by decide +kernel), answersWith _ (by decide +kernel)⟩

/-- The buffer at 4096, of `k` stages of 64 bytes, its indices and the core's reservations; the number asked for in `s2`. -/
def buffer (resv head tail k n : Nat) (l : List Resv) : State :=
  (vals [4096, .ofNat 64 n] { user with mem := user.mem.write 4096 (bytesLE 128 (Ring.bits
    { size := 64, count := k, epoch := 5, resv := resv, head := head, tail := tail, cmt := 0, zeros := true })) }).upd
    (·.updCtx fun c => { c with resv := l })

/-- The object as the core sees it. -/
def seen (s : State) : Ring := Ring.of (seenNumber s 4096 128)

/-- What every clause about a buffer asks. -/
def buffered (s : State) : Bool :=
  s.core.guard hd && s.canonical && s.core.pend.isEmpty && s.core.wait.isNone && s.core.launch.isSome && (s.squadOf s.cur).isSome &&
    inPage s.exch { rd := true, wr := true, user := !s.exch.core.sys.sup } 4096 128 && decide ((s.core.getS 1).toNat = 4096) &&
    (s.exch.sharers 4096 128).isEmpty && (wbackers 4096 128 0 s.exch.cores.toList).isEmpty && (s.exch.poisoned 4096 128).isNone &&
    !s.exch.core.sys.inj.getLsbD 5 && s.cbs.isEmpty && (seen s).valid && s.core.l1.isEmpty && s.core.memq.isEmpty && s.farWrites.isEmpty && s.core.enginesIdle &&
    !s.core.enginesRead && decide (s.core.cbIdx.length = s.core.cbPos) &&
    !s.exch.isRemote 4096 && !s.exch.knownElsewhere 4096 128 && s.remotes.isEmpty && (s.launches.all fun l => l.squads.all fun q => q.aside.isEmpty) &&
    (s.core.ctx.resv.all fun e => (s.partKeys (s.space s.cur).2 (4096 + 128 + e.idx % max 1 (seen s).count * (seen s).size) (seen s).size).all
      fun z => !s.knownElsewhere z.1 z.2)

theorem witness_CircularBuffers :
    (buffered (buffer 1 1 0 2 1 []) = true ∧ 1 ≤ (seen (buffer 1 1 0 2 1 [])).head - (seen (buffer 1 1 0 2 1 [])).tail ∧
      (seen (buffer 1 1 0 2 1 [])).resv - (seen (buffer 1 1 0 2 1 [])).tail < (seen (buffer 1 1 0 2 1 [])).count) ∧
    (buffered (buffer 2 1 0 2 2 []) = true ∧ (seen (buffer 2 1 0 2 2 [])).head - (seen (buffer 2 1 0 2 2 [])).tail < 2 ∧
      (seen (buffer 2 1 0 2 2 [])).resv - (seen (buffer 2 1 0 2 2 [])).tail = (seen (buffer 2 1 0 2 2 [])).count) ∧
    (buffered (buffer 0 0 0 2 64 []) = true ∧ ((buffer 0 0 0 2 64 []).core.getS 2).toNat = 64) ∧
    (let e : Resv := { va := 4096, pa := 4096, idx := 1, epoch := 5, size := 64, count := 2 };
      buffered (buffer 2 1 0 2 1 [e]) = true ∧ (buffer 2 1 0 2 1 [e]).core.ctx.resv.find? (fun e => e.pa == 4096) = some e ∧
        e.epoch.toNat = (seen (buffer 2 1 0 2 1 [e])).epoch) := by
  refine ⟨?_, ?_, ?_, ?_⟩ <;> decide +kernel

/-- A port's bench: values in `h0` (with a tile or not), indices in `h1`, the target in `s1`, the count in `s2`; a plate at 64. -/
def porting (t : Nat) (v n : Word) : State :=
  (vals [v, n] (hands [{ local' 256 0x02 4 with tile := .ofNat 8 t }, local' 512 0x23 4] user)).upd fun c =>
    { c with plates := [(64, bytesLE 64 ({ local' 4096 0x02 4 with pad := false } : Handle).toPlate)] }

/-- What the statement about the port asks, as a decision. -/
def ported (get : Bool) (s : State) : Bool :=
  s.core.guardX hx && decide (judge [(1, s.core.getH 0, { tags := some portTags }), (3, s.core.getH 1, { tags := some [0x23] })] = none) &&
    match s.exch.portTarget get (s.core.getS 1) with
    | .error _ => false
    | .ok (u, _, plate) =>
      (match plate with
        | none => (s.core.getH 0).start % (s.core.getH 0).esize == 0 && s.core.inPad (s.core.getH 0).start ((s.core.getH 0).ext0.toNat * (s.core.getH 0).esize)
        | some p => decide (judge [(2, p, { space := some false, tags := some [(s.core.getH 0).fmt.toNat], shape := p.ext0 == (s.core.getH 0).ext0 })] = none) &&
            (u.core.rowTrap (s.core.getH 0) (s.core.getS 2).toNat).isNone) &&
      (u.hold (if get then [s.core.getH 1] else [s.core.getH 0, s.core.getH 1])).toBool

theorem witness_PortCommands :
    ported false (porting 0xFF 0 4) = true ∧ ported true (porting 0xFF 0 0) = true ∧ ported false (porting 0xFF 0x8000000000000040 1) = true ∧
    ported true (porting 0xFF 0x8000000000000040 1) = true ∧
    (ported true (porting 3 0 4) = true ∧ (tileAt (porting 3 0 4).core 3).pend = false ∧ (tileAt (porting 3 0 4).core 3).st = .empty) := by
  refine ⟨?_, ?_, ?_, ?_, ?_⟩ <;> decide +kernel

/-- The plate at 64 of a tensor in memory, for entry 5 of the placement table. -/
def tensor : Handle := { local' 8192 0x02 4 with pad := false }

/-- Entry 5 with a state, an open cut or none, and who has arrived. -/
def entry (st : Nat) (busy : Bool) (pend : Nat) (arrived : List Nat) : Place :=
  { idx := 5, plate := 64, handle := tensor, seq := 0, busy := busy, group := 3, state := .ofNat 24 st, version := 0, pend := .ofNat 24 pend,
    gen := 0, declared := [0], arrived := arrived }

/-- A placement bench: the entry's number in `s1`, the plate's address in `s2`, the mesh in `s3`, a state in `s4`, and the table. -/
def placing (l : List Place) : State :=
  { (vals [5, 64, 3, 1] grouped).upd fun c => { c with plates := [(64, bytesLE 64 (tensor.toPlate + 5 * 2 ^ 384))] } with places := l }

/-- What `PDECL` asks, as a decision. -/
def declarable (s : State) : Bool :=
  s.core.guard hd &&
    (match s.exch.groupOf (s.core.getS 3) [4] true with
      | .ok g => decide (g.axes.length ≤ 3) && stateOk 0x02 g.axes 0
      | .error _ => false) &&
    match s.exch.readPlate (s.core.getS 2).toNat with
    | .ok r => (match plateCheck r.2 with | .ok k => k.fmt == 0x02 | .error _ => false) && r.2 / 2 ^ 384 % 2 ^ 9 == 5
    | .error _ => false

/-- What the demanding instructions ask of entry 5 and the core, as a decision: the state named, and the entry. -/
def demandable (s : State) (st : Nat) (e : Place) : Bool :=
  s.core.guardX hx && s.core.guard hd && s.core.pend.isEmpty && decide ((s.core.getS 1).toNat = 5) && decide (s.placeAt 5 = some e) &&
    ((s.placeMesh e).any fun x => decide (s.core.launch = some x.1.record.seq) && decide (x.2.axes.length ≤ 3) &&
      x.2.members.contains s.cur.val && stateOk e.handle.fmt.toNat x.2.axes st) &&
    (match s.exch.readPlate e.plate with | .ok r => (plateCheck r.2).toBool && r.1.handles | .error _ => false) &&
    s.core.l1.isEmpty && s.core.memq.isEmpty && s.remotes.isEmpty && s.farWrites.isEmpty && s.handles

theorem witness_PlacementTable :
    (declarable (placing []) = true ∧ (placing []).placeAt 5 = none) ∧
    (declarable (placing [entry 0 false 0 []]) = true ∧ (placing [entry 0 false 0 []]).placeAt 5 = some (entry 0 false 0 [])) ∧
    demandable (placing [entry 0 false 0 []]) 0 (entry 0 false 0 []) = true ∧ demandable (placing [entry 0 false 0 []]) 1 (entry 0 false 0 []) = true ∧
    demandable (placing [entry 0 true 1 []]) 1 (entry 0 true 1 []) = true ∧ demandable (placing [entry 0 true 1 []]) 0 (entry 0 true 1 []) = true ∧
    demandable (placing [entry 0 true 1 [0]]) 1 (entry 0 true 1 [0]) = true := by
  refine ⟨?_, ?_, ?_, ?_, ?_, ?_, ?_⟩ <;> decide +kernel

end Sys2Proof.Tests
end

