-- ==== Sys2Proof/Tests/Witnesses6.lean ====
section
/-! SUPPORT. Witnesses for the statements about events of the storage, the engines and the copy engine. -/

namespace Sys2Proof.Tests

set_option Elab.async false

open Machine Claims

/-- Core 0's pending write to address 256. -/
def pending (land : Nat) (ready : Bool) : PendWrite := { seq := 0, land := land, bytes := [(256, 7)], flags := 1, ready := ready }

/-- `user` with one request in core 0's memory queue. -/
def waiting (q : MemReq) : State := user.upd fun c => { c with memq := [q] }

/-- An L1 entry of 16 bytes at 512, half of it written. -/
def line : L1Entry :=
  { start := 512, data := List.replicate 16 3, st := .m, dstart := 0, dlen := 8, cls := 0, pin := false, stamp := 1, stream := false, way := 0, grans := [0] }

/-- A walk for core 0 from the table at `0x10000`, of address 0. -/
def walking : Walk := { asid := 0, root := 0x10000, va := 0, cores := [0] }

/-- The launch's table: levels 0 to 2 point on, level 3 maps the first page for every access. -/
def tabled (leaf : Nat) : State :=
  let s := launched (fun l => { l with record := { l.record with root := 0x10000 } }) user
  (word8 0x10000 0x12001 (word8 0x12000 0x14001 (word8 0x14000 0x16001 (word8 0x16000 leaf s)))).setDie 0
    { s.die 0 with walks := [walking], hot := [(0, 7)], gathers := 2 ^ 20 }

/-- The same, but for a table of level 1 in the memory of device 1. -/
def tabledAfar : State := word8 0x10000 (2 ^ 41 + 0x12001) (tabled 0)

/-- `user` with a pending write that is due. -/
def due : State := user.upd fun c => { c with pend := [pending 0 true] }

/-- Bytes at home that only core 0 knows. -/
theorem alone_of {s : State} {pa n : Nat} (h : (!s.isRemote pa && !s.knownElsewhere pa n && (s.sharers pa n).isEmpty &&
    (wbackers pa n 0 s.cores.toList).isEmpty) = true) : Alone s pa n := by
  simpa [Alone, Ours, and_assoc] using h

/-- The launch of core 0 keeps no journal. -/
theorem unjournalled_of {s : State} (h : (s.launchOf 0).all (fun l => !l.journaled) = true) : Unjournalled s 0 := by
  intro l hl
  rw [hl] at h
  simpa using h

theorem witness_StorageEvents :
    (due.canonical = true ∧ (pending 0 true).land ≤ user.core.sys.slots.toNat ∧ due.landsNow 0 (pending 0 true) = true) ∧
    (user.core.sys.slots.toNat < (pending 5 true).land) ∧
    ((waiting (.own 512 512 [1, 2] 0)).reachedBefore 0 0 [(512, 2)] = false ∧ (waiting (.own 512 512 [1, 2] 0)).core.l1 = [] ∧
      granCount 512 2 ≤ l1Grans 64 ∧ Alone (waiting (.own 512 512 [1, 2] 0)) 512 2) ∧
    ((waiting (.wback 512 [1])).core.wbackBefore 0 512 1 = false ∧ Unjournalled (waiting (.wback 512 [1])) 0) ∧
    (let s := waiting (.fill 512 16 true 0);
      s.missing 0 512 16 = none ∧ s.core.l1 = [] ∧ 512 % 4096 + 16 ≤ 4096 ∧
      s.translateAll 0 { rd := true, user := !(s.at 0).sys.sup } 512 16 = (s, [(512, 512, 16)], none) ∧
      s.reachedBefore 0 0 [(512, 16)] = false ∧ granCount 512 16 ≤ l1Grans (s.at 0).padKiB ∧ Alone s 512 16 ∧ s.poisoned 512 16 = none ∧ s.core.sys.inj.getLsbD 5 = false) ∧
    (line.dstart + line.dlen ≤ line.data.length ∧ (line.st = .s → line.dlen = 0) ∧ user.core.memq = []) ∧
    (let s := tabled 0x1F;
      (s.space 0).2 = walking.root ∧ ∃ e, (s.walk (walking.cores.headD 0) 0 0x10000 0 {} 4 0x10000).2 = .ok e) ∧
    (let s := tabled 0;
      (s.space 0).2 = walking.root ∧ ∃ x, (s.walk (walking.cores.headD 0) 0 0x10000 0 {} 4 0x10000).2 = .error (.fault x)) ∧
    ((tabledAfar.die 0).walks[0]? = some walking ∧ (tabledAfar.walk (walking.cores.headD 0) 0 0x10000 0 {} 4 0x10000).2 = .error .away) ∧
    (2 ^ 20 ≤ ((tabled 0).die 0).gathers ∧ (((tabled 0).die 0).hot.map (·.1)).Nodup) := by
  refine ⟨by decide +kernel, by decide +kernel, ⟨by decide +kernel, by decide +kernel, by decide +kernel, alone_of (by decide +kernel)⟩,
    ⟨by decide +kernel, unjournalled_of (by decide +kernel)⟩,
    ⟨by decide +kernel, by decide +kernel, by decide +kernel, inPage_translates (s := waiting (.fill 512 16 true 0)) (by decide +kernel),
      by decide +kernel, by decide +kernel, alone_of (by decide +kernel), by decide +kernel⟩,
    by decide +kernel, ⟨by decide +kernel, ?_⟩, ⟨by decide +kernel, ?_⟩, ⟨by decide +kernel, ?_⟩, by decide +kernel⟩
  · exact answers (by decide +kernel)
  · have h : (match ((tabled 0).walk (walking.cores.headD 0) 0 0x10000 0 {} 4 0x10000).2 with | .error (.fault _) => true | _ => false) = true := by
      decide +kernel
    revert h
    cases ((tabled 0).walk (walking.cores.headD 0) 0 0x10000 0 {} 4 0x10000).2 with
    | error x => cases x with
      | fault x => exact fun _ => ⟨x, rfl⟩
      | _ => simp
    | ok e => simp
  · have h : (match (tabledAfar.walk (walking.cores.headD 0) 0 0x10000 0 {} 4 0x10000).2 with | .error .away => true | _ => false) = true := by
      decide +kernel
    revert h
    cases (tabledAfar.walk (walking.cores.headD 0) 0 0x10000 0 {} 4 0x10000).2 with
    | error x => cases x with
      | away => exact fun _ => rfl
      | _ => simp
    | ok e => simp

theorem witness_NormalCompletion :
    user.core.guard hd = true ∧ (user.core.pend = [] ∧ super.core.guard hd = true ∧ super.core.sys.sup = true ∧ super.core.pend = []) ∧
    ((Storable user.exch (storeAt user.core 0 24) 8 [(24, 24, 8)] ∧ user.core.sys.sup = false ∧
        user.exch.heldWrite user.cur (storeAt user.core 0 24) 8 = false ∧ user.core.logFits 16 = true) ∧
      (Storable owning.exch (storeAt owning.core 0 512) 8 [(512, 512, 8)] ∧ owning.core.sys.sup = false ∧
        owning.exch.heldWrite owning.cur (storeAt owning.core 0 512) 8 = true) ∧
      Storable super.exch (storeAt super.core 0 24) 8 [(24, 24, 8)] ∧
        super.exch.reached super.cur super.core.memq (zonesOf [(24, 24, 8)]) = false ∧ super.knownElsewhere 24 8 = false) ∧
    ((due.at 0).dueWrite = some (pending 0 true) ∧ due.landsNow 0 (pending 0 true) = true) ∧
    (let s := waiting (.own 512 512 [1, 2] 0);
      s.core.memq[0]? = some (.own 512 512 [1, 2] 0) ∧ s.reachedBefore 0 0 [(512, 2)] = false ∧ Alone s 512 2 ∧
        (s.on 0 (Core.dropReq 0)).storeWaits 0 512 [1, 2] = false) ∧
    (let s := waiting (.wback 512 [1]);
      s.core.memq[0]? = some (.wback 512 [1]) ∧ s.core.wbackBefore 0 512 1 = false ∧ Unjournalled s 0) ∧
    (let s := waiting (.fill 512 16 true 0);
      s.missing 0 512 16 = none ∧ s.translateAll 0 { rd := true, user := !(s.at 0).sys.sup } 512 16 = (s, [(512, 512, 16)], none) ∧
        s.reachedBefore 0 0 [(512, 16)] = false ∧ Alone s 512 16 ∧ s.poisoned 512 16 = none ∧ s.core.sys.inj.getLsbD 5 = false ∧
        ((s.on 0 (Core.dropReq 0)).on 0 (Core.hits [(512, 16)])).fillWaits 0 true 0 false 512 16 = false) ∧
    (let s := waiting (.fill 0x10000 16 true 0); s.missing 0 0x10000 16 = some 0x10000 ∧ (s.die (dieOf 0)).walks.length < 64) ∧
    ((tabled 0x1F).die 0).walks[0]? = some walking ∧
    (match ((tabled 0x1F).walk (walking.cores.headD 0) 0 0x10000 0 {} 4 0x10000).2 with | .error .away => false | _ => true) = true ∧
    2 ^ 20 ≤ ((tabled 0).die 0).gathers :=
  ⟨by decide +kernel, by decide +kernel,
    ⟨⟨storable_of (by decide +kernel) (by decide +kernel), by decide +kernel⟩, ⟨storable_of (by decide +kernel) (by decide +kernel), by decide +kernel⟩,
      storable_of (by decide +kernel) (by decide +kernel), by decide +kernel⟩, by decide +kernel,
    ⟨by decide +kernel, by decide +kernel, alone_of (by decide +kernel), by decide +kernel⟩, ⟨by decide +kernel, by decide +kernel, unjournalled_of (by decide +kernel)⟩,
    ⟨by decide +kernel, inPage_translates (s := waiting (.fill 512 16 true 0)) (by decide +kernel), by decide +kernel, alone_of (by decide +kernel),
      by decide +kernel⟩, by decide +kernel, by decide +kernel⟩

theorem witness_ProductsAreExact :
    ([3, -5] : List Int).length = ([7, 11] : List Int).length ∧ accSat 0 = false ∧ |accToInt 0| + dotBound [3, -5] [7, 11] < 2 ^ 55 := by
  decide +kernel

/-- Cores 0 and 1 in one gang, each with a command at the head of its queue and an arrival. -/
def twosome (x y : PlaneCmd) : State :=
  let s := launched (fun l => { l with groups := [(1, { only0 1 [] with members := [0, 1] })] }) (user.on 1 Core.probed)
  (s.on 0 fun c => { c with plane := [x], arrivals := 1 }).on 1 fun c => { c with plane := [y], arrivals := 1 }

/-- A gang operation with a slot, started or not. -/
def mma (sp started : Bool) : PlaneCmd := { queued with op := .mma .ieee false sp 0 0, slot := some 0, started := started }

/-- A recurrence with a slot, started. -/
def mrec : PlaneCmd := { queued with op := .mrec .mk8 64, slot := some 0, started := true }

/-- What the statement asks of a gang whose operation completes, as a decision. -/
def completing (s : State) (mrec : Bool) : Bool :=
  ((s.gang 0).head?.bind fun m => (s.at m).running).any (fun x0 =>
    (match x0.op with | .mma _ _ _ _ _ => !mrec | .mrec _ _ => mrec | _ => false) &&
    (s.gang 0).all fun m => match (s.at m).plane with
      | [x] => x.started && decide (x.op = x0.op) && x.slot.isSome && !(s.at m).sys.inj.getLsbD 2
      | _ => false)

/-- A row-statistics command on slot 0. -/
def counting : State :=
  (ganged false .full).upd fun c => { c with stats := [{ pc := 0, h := local' 1024 0x02 192, slot := 0, need := 0, order := 0 }] }

/-- An etcher command into the scratchpad. -/
def etching' (keep : Bool) : EpiCmd :=
  { pc := 0, pos := 0, h := local' 1024 0x02 64, words := [], keep := keep, fl := { acq := false, rel := true, scope := .core }, need := 0,
    order := 0, done := 0, stop := none }

/-- The command at the head of the etcher's queue, slot 0 full at the tail. -/
def etched (keep : Bool) : State := (ganged false .full).upd fun c => { c with etch := [etching' keep] }

/-- A request to the SFU. -/
def asking (started : Bool) : State :=
  user.upd fun c => { c with sfu := some { seq := 0, fn := .exp2, ef := .f32, src := [0, 0, 0, 0], dst := 256, started := started, withdrawn := false } }

theorem witness_EngineEvents :
    (let s := twosome (mma false false) (mma false false);
      (s.gang 0).Nodup ∧ (∀ m ∈ s.gang 0, m < 768) ∧ s.gang 0 ≠ [] ∧ (∀ m ∈ s.gang 0, (s.at m).readyOp.isSome = true) ∧
      ∀ m ∈ s.gang 0, (s.at m).readyOp.map (·.sig) = some (mma false false).sig) ∧
    (let s := twosome (mma false false) (mma true false);
      (s.gang 0).Nodup ∧ (∀ m ∈ s.gang 0, m < 768) ∧ (∀ m ∈ s.gang 0, (s.at m).readyOp.isSome = true) ∧
      ∃ m ∈ s.gang 0, ∃ k ∈ s.gang 0, (s.at m).readyOp.map (·.sig) ≠ (s.at k).readyOp.map (·.sig)) ∧
    completing (twosome (mma false true) (mma false true)) false = true ∧ completing (twosome mrec mrec) true = true ∧
    (counting.gang 0 = [0] ∧ counting.canonical = true ∧ ((counting.at 0).readyStat.any fun x => x.slot == 0 && x.done == 0) = true) ∧
    (let s := user.upd fun c => { c with plane := [queued] };
      s.canonical = true ∧ queued.done = 0 ∧ (s.at 0).readyHatch = some queued) ∧
    (((etched false).core.readyEtch.any fun x => x.done == 0 && !x.keep && x.h.pad) = true ∧ (etched false).canonical = true ∧
      (etched false).core.plane = []) ∧
    (((etched true).core.readyEtch.any fun x => x.done == 0 && x.keep && x.h.pad) = true ∧
      ((etched true).core.slot (etched true).core.ctx.tail).kind ≠ .residue) ∧ (∀ k sc, Performed (etched k) 0 sc) ∧
    (((asking true).core.sfu.any (·.started)) = true ∧ (asking true).core.sys.inj.getLsbD 3 = false ∧ (asking true).canonical = true) ∧
    (let s := asking false;
      (s.pod 0).sfuTurn < 8 ∧ (s.at (8 * 0 + 0)).sfuWaiting = true ∧ ∀ j < 8, (s.at (8 * 0 + j)).sfuWaiting = true →
        (0 + 7 - (s.pod 0).sfuTurn) % 8 ≤ (j + 7 - (s.pod 0).sfuTurn) % 8) := by
  refine ⟨?_, ?_, ?_, ?_, ?_, ?_, ?_, ?_, fun k sc => ?p, ?_, ?_⟩
  case p => cases k <;> exact performed_of (by decide +kernel) sc
  all_goals decide +kernel

/-- A computation of an engine that goes through, with a property of the state it leaves. -/
theorem movesWith {r : Moved × List Byte} (p : State → Bool) (h : (match r.1 with | .ok u => p u | _ => false) = true) :
    ∃ u bs, r = (.ok u, bs) ∧ p u = true := by
  obtain ⟨m, bs⟩ := r
  cases m <;> simp at h
  exact ⟨_, bs, rfl, h⟩

/-- A move that goes through, with a property of the state it leaves. -/
theorem wentWith {r : Moved} (p : State → Bool) (h : (match r with | .ok u => p u | _ => false) = true) : ∃ u, r = .ok u ∧ p u = true := by
  cases r <;> simp at h
  exact ⟨_, rfl, h⟩

/-- A move that stops at a fault, with a property of the state it leaves. -/
theorem stopsWith {r : Moved} (p : State → Bool) (h : (match r with | .stop u _ _ => p u | _ => false) = true) :
    ∃ u x n, r = .stop u x n ∧ p u = true := by
  cases r <;> simp at h
  exact ⟨_, _, _, rfl, h⟩

/-- Four MK8 elements in memory at an address. -/
def global (a : Nat) : Handle := { local' a 0x02 4 with pad := false }

/-- A transfer of tile 3, or a send to core 0 itself, between scratchpad address 256 and an address in memory. -/
def copying (k : CopyKind) (a : Nat) : CopyCmd :=
  { kind := k, pc := 0, pos := 0, ch := 0, id := 0, hl := local' 256 0x02 4, hg := global a, tile := 3, tgt := 0, dst := 512,
    fl := { acq := false, rel := true, scope := .core }, hint := 0, need := 0, done := 0, stop := none, timed := none }

/-- The command in core 0's copy engine, tile 3 in the state it needs. -/
def copied (k : CopyKind) (a : Nat) (st : TileState) : State :=
  user.upd fun c => { c.setTile 3 { st := st } with copies := [copying k a] }

/-- A port command with four indices at scratchpad address 512, to a plate in memory. -/
def posted (k : PortKind) (tgt : Target) (n : Nat) : PortCmd :=
  { kind := k, pc := 0, pos := 0, hd := local' 256 0x02 4, hx := local' 512 0x23 4, tgt := tgt, n := n, i := 0, cc := 2,
    fl := { acq := false, rel := false, scope := .core }, hint := 0, need := 0, tile := 0xFF, value := 9, first := [], reply := none, stop := none }

/-- The command in core 0's port. -/
def porter (x : PortCmd) : State := user.upd fun c => { c with port := [x] }

/-- An etcher command into memory at an address that no page maps. -/
def scratched : EpiCmd := { etching' false with h := { local' 0x10000 0x02 64 with pad := false } }

/-- The command at the head of the etcher's queue. -/
def scratching : State := (ganged false .full).upd fun c => { c with etch := [scratched] }

theorem witness_TransferEvents :
    (let s := copied .fill 4096 .filling;
      ∃ u bs, State.engineLoads true 0 (copying .fill 4096).hint 0 (stretchesOf ((copying .fill 4096).body.map (·.1))) s = (.ok u, bs) ∧
        (u.canonical && decide ((s.at 0).copies = (u.at 0).copies) && decide ((s.at 0).ctx.tiles = (u.at 0).ctx.tiles) && (u.at 0).memq.isEmpty && u.remotes.isEmpty &&
          u.farWrites.isEmpty && ((s.at 0).tile 3).st == .filling && s.copyReady 0 (copying .fill 4096) && (copying .fill 4096).hg.stipple == 0) = true) ∧
    (let s := copied .drain 4096 .draining;
      ∃ u, s.drainRun 0 (copying .drain 4096) = .ok u ∧
        (u.canonical && decide ((s.at 0).copies = (u.at 0).copies) && decide ((s.at 0).ctx.tiles = (u.at 0).ctx.tiles) && (u.at 0).memq.isEmpty && u.remotes.isEmpty &&
          u.farWrites.isEmpty && ((s.at 0).tile 3).st == .draining && s.copyReady 0 (copying .drain 4096)) = true) ∧
    (let s := copied .send 4096 .empty;
      s.canonical = true ∧ s.copyReady 0 (copying .send 4096) = true ∧ (∀ sc, Performed s 0 sc) ∧ (s.at 0).launch = some 0 ∧
        (s.at (8 * (0 / 8) + (copying .send 4096).tgt)).launch = some 0 ∧ (s.at 0).sys.inj.getLsbD 6 = false ∧
        s.ringTurn (0 / 8) = some (0 % 8)) ∧
    (user.translate 0 { wr := true } 64 = (user, .ok (64, 8128)) ∧ user.races 0 [(64, 64, 4)] = none ∧ user.partHeld 0 64 4 = false ∧
      user.heldWrite 0 64 4 = false ∧ ((user.at 0).log.map (·.space)).sum + 16 + (4 + 15) / 16 * 16 ≤ (user.at 0).sys.lmax.toNat * 1024) ∧
    (let s := copied .drain 0x10000 .draining; ∃ u x n, s.copyMove 0 0 = .stop u x n ∧ decide ((u.at 0).copies = (s.at 0).copies) = true) ∧
    (let s := porter (posted .put (.plate (global 0x10000)) 4);
      ∃ u x n, s.portMove 0 0 = .stop u x n ∧ decide ((u.at 0).port = (s.at 0).port) = true) ∧
    (scratching.core.readyEtch = some scratched ∧ ∃ u x n, scratching.etchRun 0 scratched = .stop u x n ∧ decide ((u.at 0).etch = [scratched]) = true) := by
  refine ⟨?_, ?_, ⟨by decide +kernel, by decide +kernel, performed_of (by decide +kernel), by decide +kernel⟩, ⟨?_, by decide +kernel⟩, ?_, ?_, ?_⟩
  · exact movesWith _ (by decide +kernel)
  · exact wentWith _ (by decide +kernel)
  · exact State.translate_hit (e := probePage) (by decide) (by decide +kernel) (by decide +kernel) (fun _ => rfl) (by decide +kernel)
  · exact stopsWith _ (by decide +kernel)
  · exact stopsWith _ (by decide +kernel)
  · exact ⟨by decide +kernel, stopsWith _ (by decide +kernel)⟩

end Sys2Proof.Tests
end

