-- ==== Sys2Proof/Tests/Witnesses7.lean ====
section
/-! SUPPORT. Witnesses for the statements about events of the exchange, supersteps, homes and placement. -/

namespace Sys2Proof.Tests

set_option Elab.async false

open Machine Claims

/-- Cores 0 and 1 in one launch, a command in core 0's port. -/
def teamed (x : PortCmd) : State :=
  (launched (fun l => { l with team := [0, 1], squads := [{ stage := 0, inst := 0, cores := [0, 1] }] }) ((porter x).on 1 Core.probed)).on 1
    fun c => { c with team := 1 }

/-- A port command to core 1, whose launch generation is the second number. -/
def toward (k : PortKind) (gen n : Nat) : PortCmd := posted k (.cores [(1, gen)]) n

/-- What `PortStep` and `Reaches` ask for core 1 as the target, the index 0. -/
def reaching (s : State) (x : PortCmd) : Bool :=
  s.canonical && s.portReady 0 x && !(s.at 0).behind 0 x && decide (x.i < x.n) && decide (x.tile = 0xFF) &&
    (match (s.at 0).portIndex x x.hd.ext0.toNat with | .ok v => v == 0 | .error _ => false) &&
    (s.launchOf 0).any fun l => decide (s.fresh l.record.seq (l.coreOf 1) 0 = some 1) && decide ((s.at 1).launch = some l.record.seq) &&
      !(s.at 1).sys.inj.getLsbD 6

/-- Core 0 at `SSTEP`, with what was sent to it, the first sub-round closed or open. -/
def stepping (closed declared landed : Nat) (inbox : List Packet) : State :=
  user.upd fun c => { c with wait := some (.sstep 8 0), closed := closed, inflow := [{ team := 0, declared := declared, landed := landed }], inbox := inbox }

/-- Two packets of different senders to one byte. -/
def rivals : List Packet := [{ team := 0, ord := 0, addr := 256, bytes := [1] }, { team := 1, ord := 0, addr := 256, bytes := [2] }]

/-- The squad of the one core. -/
def alone0 : Squad := { stage := 0, inst := 0, cores := [0] }

/-- The barrier set of group 0 at which core 0 has arrived. -/
def gathered : State :=
  launched (fun l => { l with squads := [{ alone0 with bars := [{ group := 0, phase := false, closes := 0, cur := [0], next := [] }] }] }) grouped

theorem witness_ExchangeEvents :
    (reaching (teamed (toward .put 0 4)) (toward .put 0 4) = true ∧ (toward .put 0 4).reply = none ∧ (toward .put 0 4).i + 1 < (toward .put 0 4).n ∧
      (toward .put 0 4).read = [] ∧ (toward .put 0 4).sent.getD 0 0 = (toward .put 0 4).i ∧ (toward .put 0 4).first = [] ∧
      (teamed (toward .put 0 4)).launches.all (fun l => (toward .put 0 4).i < l.allowance) = true) ∧
    reaching (teamed (toward .get 0 4)) (toward .get 0 4) = true ∧
    (reaching (teamed (toward .msg 0 1)) (toward .msg 0 1) = true ∧ (toward .msg 0 1).fl.rel = false ∧ ((teamed (toward .msg 0 1)).at 1).ctx.mailbox.length < 16) ∧
    (let s := (teamed (toward .msg 0 1)).on 1 (·.updCtx fun k => { k with mailbox := List.replicate 16 0 });
      reaching s (toward .msg 0 1) = true ∧ 16 ≤ (s.at 1).ctx.mailbox.length) ∧
    (let s := teamed (toward .msg 5 1);
      s.portReady 0 (toward .msg 5 1) = true ∧ (s.launchOf 0).any (fun l => (s.fresh l.record.seq (l.coreOf 1) 5).isNone) = true) ∧
    (let s := porter { toward .get 0 4 with reply := some (some [1]) }; s.canonical = true ∧ (s.at 0).sys.inj.getLsbD 6 = false) ∧
    (let s := stepping 1 2000 1024 [];
      (s.launch 0).any (fun l => decide (l.squads = [alone0]) && decide (l.record.seq = 0) && s.canOpen 0 l alone0) = true) ∧
    (let s := stepping 0 2 2 rivals;
      s.canonical = true ∧ s.allArrivedStep 0 alone0 = true ∧ (s.at 0).closed = alone0.subround ∧ (s.at 0).inbox = rivals ∧ contested rivals 256 ∧
        (s.launch 0).any (fun l => decide (l.squadOf 0 = some alone0) && (s.at 0).inflow.all fun f =>
          decide (min f.declared ((alone0.subround + 1) * l.allowance) ≤ f.landed)) = true) ∧
    (gathered.launch 0).any (fun l => (l.barSet 0).any (fun b => b.group == 0 && !b.cur.isEmpty &&
      (l.group 0).any fun g => g.members.all b.cur.contains)) = true := by
  refine ⟨?_, ?_, ?_, ?_, ?_, ?_, ?_, ⟨?_, ?_, ?_, ?_, ?c, ?_⟩, ?_⟩
  case c => exact ⟨_, List.mem_cons_self, _, List.mem_cons_of_mem _ List.mem_cons_self, by decide, by unfold covers; decide, by unfold covers; decide⟩
  all_goals decide +kernel

/-- Requests queued at homes. -/
def syncing (excl : Bool) : SyncReq := { pa := 4096, dev := 0, core := 0, team := 0, seq := 0, excl := excl, granted := false }
def slotting : CbReq := { pa := 2 ^ 41, dev := 0, core := 0, team := 0, seq := 0 }

/-- An atomic in a switch. -/
def switched : Combined := { sw := 0, port := 0, fwd := { dev := 1, team := 0, ord := 0, pa := 4096, op := .add, dbl := true, v := 5 }, parts := [], reply := none }

/-- No squad of the bench holds an effect aside, and no launch is journalled. -/
def plain (s : State) : Bool := s.launches.all fun l => !l.journaled && l.linked.isEmpty && l.squads.all fun q => q.aside.isEmpty && q.atomBytes.isEmpty

/-- A byte of an entry whose part is in a cut. -/
def shut : State := { grouped with switch := [switched], places := [{ entry 0 true 1 [0] with handle := { tensor with base := 4096 } }] }

/-- Core 0 with two imprecise faults due. -/
def faulting : State :=
  let p : Pending := { src := 1, cmdpc := 8, trap := { cause := .access, detail := 7, addr := 64 }, eflt := true }
  user.upd fun c => { c with faults := [p, { p with src := 2 }] }

theorem witness_SuperstepEvents :
    (let s := { user with syncs := [syncing true] };
      s.canonical = true ∧ plain s = true ∧ (syncing true).dev = s.devidx.toNat ∧ Alone s 4096 8 ∧ memNumber s 4096 8 % 2 ^ 25 < 2 ^ 24 ∧
        memNumber s 4096 8 % 2 ^ 24 = 0) ∧
    (let s := { user with cbs := [slotting] }; s.isRemote (2 ^ 41) = true ∧ (s.at 0).launch = some slotting.seq) ∧
    (let s := { user with switch := [switched] };
      s.canonical = true ∧ Alone s 4096 8 ∧ s.poisoned 4096 8 = none ∧ s.refusedByte 4096 8 = none) ∧
    (Alone shut 4096 8 ∧ shut.canonical = true ∧ shut.poisoned 4096 8 = none ∧ shut.refusedByte 4096 8 = some 4096) ∧
    (let s := stepping 0 2 2 [];
      (s.launch 0).any (fun l => decide (l.squads = [alone0]) && decide (l.stages = [])) = true ∧ s.live 0 alone0 ≠ [] ∧ s.squadReady 0 alone0 = true ∧
        s.commitWaits 0 alone0 = false ∧ plain s = true ∧ (s.commitLogs 0 alone0).squadPending 0 alone0 = false) ∧
    ((user.coresOf 0).head? = some 0 ∧ user.squadOf 0 = some alone0 ∧ user.events.en = false ∧ user.launches.all (!·.closing alone0) = true ∧ user.canonical = true ∧ user.syncs = [] ∧ plain user = true ∧
      ∀ j : Nat, (user.member 0 j).carried = []) ∧
    (∀ l ∈ user.launches, l.stages = []) ∧
    ((faulting.at 0).launch.isSome = true ∧ (faulting.at 0).sys.sup = false ∧ (faulting.at 0).sys.tvec ≠ 0 ∧ (faulting.at 0).phase = .running ∧
      (faulting.at 0).wait = none ∧ (faulting.at 0).resume = none ∧ faulting.attachedOf 0 = [] ∧ ((faulting.on 0 fun c => { c with wait := some .msg }).at 0).wait = some .msg ∧
      ∃ p rest, (faulting.at 0).faults = p :: rest ∧ (∀ q ∈ rest, p.src ≤ q.src) ∧ p.src < 8) := by
  refine ⟨⟨?_, ?_, ?_, ?a, ?_, ?_⟩, ?_, ⟨?_, ?b, ?_, ?_⟩, ⟨?e, ?_⟩, ?_, ⟨?_, ?_, ?_, ?_, ?_, ?_, ?_, ?d⟩, ?_, ⟨?_, ?_, ?_, ?_, ?_, ?_, ?_, ?_, ?c⟩⟩
  case d =>
    intro j
    have h := everyCore (s := user) (p := fun c => c.carried.isEmpty) (by decide +kernel) rfl j
    unfold State.member
    split
    · simpa using h
    · rfl
  case c =>
    have h : (match (faulting.at 0).faults with | p :: rest => rest.all (fun q => p.src ≤ q.src) && p.src < 8 | [] => false) = true := by decide +kernel
    revert h
    cases (faulting.at 0).faults with
    | nil => simp
    | cons p rest => intro h; simp at h; exact ⟨p, rest, rfl, h⟩
  case a => exact alone_of (by decide +kernel)
  case b => exact alone_of (by decide +kernel)
  case e => exact alone_of (by decide +kernel)
  all_goals decide +kernel

/-- A tensor of one part in the second page, which the launch's table maps as the first; entry 5 in the table. -/
def placedAt (devs : List (Nat × List Nat)) (p : Place) : State :=
  let s := launched (fun l => { l with record := { l.record with root := 0x10000 }, devLists := devs }) grouped
  { word8 0x10000 0x12001 (word8 0x12000 0x14001 (word8 0x14000 0x16001 (word8 0x16008 0x201F s))) with places := [p] }

/-- What every clause asks of entry 5. -/
def meshed (s : State) (p : Place) : Bool :=
  decide (s.placeAt 5 = some p) && (s.placeMesh p).any fun x => decide (x.2.members.Nodup) && x.2.members.all fun i =>
    decide (i < 768) && decide ((s.at i).launch = some x.1.record.seq)

/-- The report of device 1 on entry 5. -/
def reported (st : Nat) : PlaceReport :=
  { dev := 1, plate := 64, group := 3, state := .ofNat 24 st, pend := 1, version := 0, ended := false }

/-- Entry 5 with everybody there, and then with its parts to be written. -/
def cut : Place := entry 0 true 1 [0]
def spread : Place := { cut with closed := true, ready := true, parts := [(0, 8192, [1, 2])] }

theorem witness_PlacementEvents :
    (let s := placedAt [] cut;
      meshed s cut = true ∧ (s.placeMesh cut).any (fun x => x.2.axes.all (!·.2) && x.2.members.all cut.arrived.contains &&
        !s.meshEnded x.1 cut && (s.partPoison x.1.record.root cut x.2.axes (s.localMembers x.1 cut x.2)).isNone &&
        (s.localMembers x.1 cut x.2).all (s.partMapped x.1.record.root cut x.2.axes) &&
        decide ((State.readParts x.1.record.root cut (s.localMembers x.1 cut x.2) s).1.places = s.places)) = true) ∧
    (let s := placedAt [] spread;
      meshed s spread = true ∧ s.canonical = true ∧ s.peek 0x10000 8192 = some 8192 ∧ Alone s 8192 2 ∧
        (s.placeMesh spread).any (fun x => decide (x.1.record.root = 0x10000) && !x.1.journaled &&
          decide ((s.localMembers x.1 spread x.2).find? (fun m => !spread.written.contains m) = some 0) &&
          !s.partAtSys x.1 spread x.2 0) = true) ∧
    (let p := { spread with written := [0] };
      let s := placedAt [] p;
      meshed s p = true ∧ (s.placeMesh p).any (fun x => (s.localMembers x.1 p x.2).all p.written.contains &&
        x.2.members.all fun i => (s.at i).arrived.all fun a => a.entry != 5 || !a.fl.rel) = true) ∧
    (let p := { cut with closed := true };
      let s := placedAt [(3, [0, 1])] p;
      meshed s p = true ∧ (s.placeMesh p).any (fun x =>
        decide ((((x.1.devLists.find? (·.1 == p.group)).map (·.2)).getD []).filter (· != s.devidx.toNat) = [1])) = true) ∧
    (let r := reported 0;
      r.ended = false ∧ r.plate = cut.plate ∧ r.group = cut.group ∧ r.state = cut.state ∧ r.pend = cut.pend ∧ r.version = cut.version) ∧
    ¬ (reported 1).state = cut.state := by
  refine ⟨?_, ⟨?_, ?_, ?_, ?a, ?_⟩, ?_, ?_, ?_, ?_⟩
  case a => exact alone_of (by decide +kernel)
  all_goals decide +kernel

end Sys2Proof.Tests
end

