-- ==== Sys2Proof/Tests/Witnesses8.lean ====
section
/-! SUPPORT. Witnesses for the statements about the fabric, scheduling, the host, resets, encodings and steps. -/

namespace Sys2Proof.Tests

set_option Elab.async false

open Machine Claims

/-- Link 3 up, with a write from device 1 on its way, its turn in the flow or not. -/
def linked : State := { user with ports := user.ports.set 3 { st := .up } }
def letter (n : Nat) : LinkMsg := { src := 1, cls := 0, seq := .ofNat 32 n, payload := .write 4096 [1, 2] 0 0 false }

/-- An acknowledgement of number 7 from device 1. -/
def receipt : LinkMsg := { src := 1, cls := 0, seq := 0, payload := .ack 0 7 }

/-- Atomics of two sources that combine. -/
def adding (team v : Nat) : AtomicReq := { dev := 1, team := team, ord := 0, pa := 4096, op := .add, dbl := true, v := .ofNat 64 v }
def met : Combined := { sw := 0, port := 0, fwd := adding 0 1, parts := [adding 0 1], reply := none }

/-- The bytes that a host writes lie in a part of an entry with an open cut. -/
def cutting : State := placedAt [] cut

/-- The window of HBM is within reach of a host, by whichever port it comes; what lies beyond it is not. -/
theorem hostPort_lt (s : State) (a : Nat) (h : a / 2 ^ 52 = 0) : s.hostPortOf a < 2 := by
  unfold State.hostPortOf
  rw [if_pos h]
  omega

/-- What is decided for both ports holds for the one by which a host comes. -/
theorem reaches_of {s : State} {a n : Nat} {b : Bool} (h : a / 2 ^ 52 = 0) (hp : ∀ p < 2, s.hostReaches p a n = b) :
    s.hostReaches (s.hostPortOf a) a n = b := hp _ (hostPort_lt s a h)

/-- Link 3 in training on a device with an index. -/
def coming : State := { user with idok := true, ports := user.ports.set 3 { st := .training } }

theorem witness_FabricEvents :
    ((linked.linkPort 3).st = .up ∧ (letter 0).seq.toNat = linked.flowNext (letter 0).src (letter 0).cls.toNat ∧ linked.refusedByte 4096 2 = none ∧
      Alone linked 4096 2 ∧ linked.canonical = true) ∧
    (letter 4).seq.toNat ≠ linked.flowNext (letter 4).src (letter 4).cls.toNat ∧ linked.events.en = false ∧
    (letter 0).payload = .write 4096 [1, 2] 0 0 false ∧ (letter 0).cls = 0 ∧ receipt.payload = .ack 0 7 ∧ (linked.outFlow receipt.src 0).held = [] ∧
    (∀ c ∈ user.switch, c.fwd ≠ adding 1 2 ∧ combines c.fwd (adding 1 2) = false) ∧
    (({ user with switch := [met] } : State).switch = [met] ∧ met.fwd = adding 0 1 ∧ met.reply = none ∧ met.onward = false ∧ met.fwd ≠ adding 1 2 ∧ ∀ x ∈ met.parts, x.dev ≠ user.devidx.toNat) ∧
    (let c := { met with reply := some (.done 5) };
      ({ user with switch := [c] } : State).switch[0]? = some c ∧ ∀ d ∈ ({ user with switch := [c] } : State).switch, d.onward = false) ∧
    (met.sw = 0 ∧ met.port = 0 ∧ met.reply = none ∧ combines met.fwd (adding 1 2) = true ∧ met.parts.length < 512 ∧
      met.parts.length ≠ 0 ∧ ∀ x ∈ met.parts, combines x (adding 1 2) = true) ∧
    ((5 : Word).toNat < 2 ^ reqBits met.fwd) ∧
    (user.hostReaches (user.hostPortOf 4096) 4096 2 = true ∧ user.refusedByte 4096 2 = none ∧ Alone user 4096 2 ∧ user.canonical = true) ∧
    user.hostReaches (user.hostPortOf (2 ^ 41)) (2 ^ 41) 2 = false ∧
    (cutting.refusedByte 8192 2 ≠ none ∧ cutting.events.en = false ∧ cutting.hostReaches (cutting.hostPortOf 8192) 8192 2 = true) ∧
    (user.linkPort 3).st = .down ∧ (({ coming with idok := false } : State).linkPort 3).st = .training ∧ (coming.linkPort 3).st = .training ∧ coming.idok = true ∧ (5 : Nat) ≠ coming.devidx.toNat ∧
    user.idok = false := by
  refine ⟨⟨?_, ?_, ?_, ?a, ?_⟩, ?_, ?_, ?_, ?_, ?_, ?_, ?_, ?_, ?_, ?_, ?_, ⟨?r, ?_, ?b, ?_⟩, ?q, ⟨?_, ?_, ?p⟩, ?_, ?_, ?_, ?_, ?_, ?_⟩
  case a => exact alone_of (by decide +kernel)
  case r => exact reaches_of (by decide) (by decide +kernel)
  case q => exact reaches_of (by decide) (by decide +kernel)
  case p => exact reaches_of (by decide) (by decide +kernel)
  case b => exact alone_of (by decide +kernel)
  all_goals decide +kernel

/-- The page at 0 mapped by the launch tables of everyone; the core sets at 256: core 1 or core 8. -/
def mapped (b : List Byte) : State :=
  let s := word8 0x10000 0x12001 (word8 0x12000 0x14001 (word8 0x14000 0x16001 (word8 0x16000 0x1F user)))
  { s with mem := s.mem.write 256 b }

/-- A launch that waits, of a scratchpad size. -/
def later (spad : Nat) : Launch :=
  { record := { kind := 1, seq := 5, spad := spad, root := 0x10000, cset := 256, e := [1, 1, 1, 1], g := [1, 1, 1, 1] }, queue := 0, order := 1, status := .waiting }

/-- Core 0 waits longer than THR allows, and its pod is wanted. -/
def overdue : State :=
  let s := (mapped [2]).upd fun c => { c with wait := some .join, waited := 20000 }
  { s with launches := s.launches ++ [later 16] }

/-- The only member of the launch saved, its home core 8, its wait over. -/
def saved : Image := { seq := 0, squad := 0, team := 0, home := 8, place := 8, why := .swap 8, core := { Core.reset with phase := .swapped, launch := some 0 }, pins := [] }
def away : State := { user.upd (fun c => { c with launch := none, phase := .idle }) with images := [saved] }

/-- The same, the image in memory long enough to hold what is laid before the scratchpad, which has no bytes. -/
def stored : State := launched (fun l => { l with record := { l.record with stride := sectionOff 0 8 } }) away

/-- An image shorter than its directory holds no scratchpad. -/
theorem padKeys_short {s : State} {l : Launch} {c : Core} (h : l.record.stride < 256) : s.padKeys l c = none := by
  have : ¬ (sectionOff c.padKiB 8 + c.padKiB * 1024 ≤ l.record.stride) := by unfold sectionOff; omega
  simp [State.padKeys, this]

/-- A scratchpad without bytes lies in an image that reaches to its section. -/
theorem padKeys_bare {s : State} {l : Launch} {c : Core} (h : c.padKiB = 0) (hs : l.record.stride = sectionOff 0 8) : s.padKeys l c = some [] := by
  simp [State.padKeys, h, hs, State.partKeys, Machine.pieces, cutAt]

/-- An image whose scratchpad takes no bytes from memory meets no poison. -/
theorem imagePoison_bare {s : State} {m : Image} (h : ∀ l, s.launch m.seq = some l → s.padKeys l m.core = none ∨ s.padKeys l m.core = some []) :
    s.imagePoison m = none := by
  unfold State.imagePoison
  cases hl : s.launch m.seq with
  | none => rfl
  | some l => obtain hk | hk := h l hl <;> simp [hk]

/-- Die 0 in the context of launch 0. -/
def entered (s : State) : State := { s with dies := s.dies.set 0 { s.die 0 with ctx := (s.launch 0).map (·.record.ctx) } }

/-- What `teamReturn` asks of the one image of a state, as a decision. -/
def returnable (s : State) (m : Image) : Bool :=
  decide (s.images = [m]) && decide (m.home = 8) && decide (s.teamOf m = [m]) && s.wantsBack m && m.pins.isEmpty && decide (m.core.launch = some m.seq) &&
    m.core.l1.isEmpty && m.core.memq.isEmpty && (s.at 8).l1.isEmpty && (s.at 8).memq.isEmpty &&
    (s.launch m.seq).any fun l => l.stages.isEmpty && s.fits l.record.ctx [podOf m.place] && !s.higher (dieOf m.place) l.record.prio &&
      decide ((s.die (dieOf m.place)).ctx = some l.record.ctx)

/-- Queue 1 enabled, a record at the head of its ring, the rings' memory at 0 and 0x10000. -/
def queueing (r : Nat) : State :=
  { user with queues := [{ idx := 1, en := true, pidx := 1, rlog := 4, clog := 4, cbase := 0x10000 }], mem := user.mem.write (hostKey 0) (bytesLE 256 r) }

/-- A launch record: KIND 1, sequence number 7 of queue 1. -/
def record7 : Nat := 1 + (2 ^ 53 + 7) * 2 ^ 64 + 16 * 2 ^ 16

/-- An answer that waits to be written. -/
def answer7 : Done := { queue := 1, seq := 7, ord := 0, status := 19, detail := 0, ovf := false, degr := false, rerun := false, cycles := 5 }

/-- A record whose first word has KIND 0, its sequence number in order. -/
def record0 : Nat := (2 ^ 53 + 7) * 2 ^ 64

/-- What `launchStart` asks of a launch whose checks pass, as a decision. -/
def startable (good : State → Bool) (s : State) (l : Launch) : Bool :=
  match s.planLaunch l with
  | .error _ => false
  | .ok (u, p) => good u && decide (u.launches = s.launches) && p.stages.isEmpty && decide (p.cores.Nodup) && (p.cores.all (· < 768)) &&
      u.fits l.record.ctx (p.cores.map podOf).dedup && ((p.cores.map podOf).dedup.map (· / 48)).dedup.all fun d =>
        !u.higher d l.record.prio && !u.returning d l.record.prio && !u.earlier d l

/-- The context of a die that is a launch's own. -/
theorem dieOf_here {s : State} {n : Word} {d : Nat} {l : Launch} (h : (s.launch n).any (fun l => decide ((s.die d).ctx = some l.record.ctx)) = true)
    (hl : s.launch n = some l) : (s.die d).ctx = some l.record.ctx := by
  rw [hl] at h; simpa using h

theorem witness_SchedulingEvents :
    ((overdue.at 0).launch = some 0 ∧ (∀ i ∈ overdue.teamCores 0, i < 768) ∧ (overdue.teamCores 0).Nodup ∧ ((overdue.at 0).waitNow.any fun w => w.counts) = true ∧
      (overdue.at 0).phase = .running ∧ (overdue.at 0).ctx.attached = false ∧ (overdue.at 0).sys.wthr ≠ 0 ∧
      (overdue.at 0).sys.wthr.toNat ≤ (overdue.at 0).waited ∧ (overdue.at 0).stopReq = none ∧
      overdue.queuedFor 0 (dieOf 0) ((overdue.teamCores 0).map podOf).dedup = true) ∧
    (let s := overdue.upd fun c => { c with stopReq := some (.swap 0) };
      (s.at 0).launch = some 0 ∧ s.teamCores 0 = [0] ∧ (s.at 0).stopReq = some (.swap 0)) ∧
    (let s := overdue.upd fun c => { c with stopReq := some .preempt };
      (s.at 0).launch = some 0 ∧ s.teamCores 0 = [0] ∧ (s.at 0).stopReq = some .preempt) ∧
    (let s := entered away;
      returnable s saved = true ∧ ∀ l, s.launch saved.seq = some l → s.padKeys l saved.core = none ∧
        (State.enterDie l.record.ctx s (dieOf saved.place)).imagePoison saved = none) ∧
    (let s := entered stored;
      returnable s saved = true ∧ ∀ l, s.launch saved.seq = some l → s.padKeys l saved.core = some [] ∧
        (State.enterDie l.record.ctx s (dieOf saved.place)).imagePoison saved = none) ∧
    (let s := queueing record7;
      (s.queue 1).accepts = true ∧ s.canonical = true ∧ Alone s (hostKey 0) 256 ∧ Alone s (hostKey (s.queue 1).mirror) 8 ∧
        (let ws := (List.range 32).map fun j => memNumber s (hostKey 0 + 8 * j) 8;
          s.seqRefused (s.queue 1) (recordOf ws).seq = false ∧ recordBad ws = none)) ∧
    (let s := queueing 0;
      let ws := (List.range 32).map fun j => memNumber s (hostKey 0 + 8 * j) 8;
      s.seqRefused (s.queue 1) (recordOf ws).seq = true) ∧
    (let s := queueing record0;
      let ws := (List.range 32).map fun j => memNumber s (hostKey 0 + 8 * j) 8;
      s.seqRefused (s.queue 1) (recordOf ws).seq = false ∧ recordBad ws = some 0) ∧
    (let s := { user with launches := user.launches ++ [later 17] };
      s.launch 5 = some (later 17) ∧ (later 17).waits = true ∧ (∀ x ∈ s.launches, x.record.seq = 5 → x = later 17) ∧
        (match s.planLaunch (later 17) with | .error (st, _) => st != 12 | .ok _ => false) = true) ∧
    (let s := { mapped [0, 1] with launches := (mapped [0, 1]).launches ++ [later 16] };
      s.launch 5 = some (later 16) ∧ (later 16).rerun = false ∧ (later 16).coreMask = [] ∧ startable (fun u => u.poison.isEmpty) s (later 16) = true) ∧
    (let s := { mapped [0, 1] with launches := (mapped [0, 1]).launches ++ [later 16], poison := [64] };
      startable (fun u => decide (u.peek 0x10000 (later 16).record.args = some 0) && decide (u.poisoned 0 128 = some 64) && !u.events.en) s (later 16) = true) ∧
    (let s := { queueing 0 with dones := [answer7] };
      s.nextDone 1 = some answer7 ∧ s.canonical = true ∧ ((s.queue 1).ctail - (s.queue 1).chead).toNat < 2 ^ (s.queue 1).clog.toNat ∧
        Alone s (hostKey ((s.queue 1).cbase + 32 * ((s.queue 1).ctail.toNat % 2 ^ (s.queue 1).clog.toNat))) 32) := by
  refine ⟨?_, ?_, ?_, ⟨?_, fun l hl => ?s⟩, ⟨?_, fun l hl => ?t⟩, ⟨?_, ?_, ?a, ?b, ?_⟩, ?_, ?_, ?_, ?_, ?_, ⟨?_, ?_, ?_, ?c⟩⟩
  case a => exact alone_of (by decide +kernel)
  case b => exact alone_of (by decide +kernel)
  case c => exact alone_of (by decide +kernel)
  case s =>
    have hd : ((entered away).die (dieOf saved.place)).ctx = some l.record.ctx := dieOf_here (by decide +kernel) hl
    have hs : l.record.stride < 256 := by
      have h : ((entered away).launch saved.seq).all (fun l => l.record.stride < 256) = true := by decide +kernel
      rw [hl] at h; simpa using h
    refine ⟨padKeys_short hs, ?_⟩
    rw [State.enterDie, if_pos (by simp [hd])]
    exact imagePoison_bare fun x hx => Or.inl (padKeys_short (by rw [hl] at hx; cases hx; exact hs))
  case t =>
    have hd : ((entered stored).die (dieOf saved.place)).ctx = some l.record.ctx := dieOf_here (by decide +kernel) hl
    have hs : l.record.stride = sectionOff 0 8 := by
      have h : (entered stored).launch saved.seq = some { probeLaunch with record := { probeLaunch.record with stride := sectionOff 0 8 } } := rfl
      rw [hl] at h; cases h; rfl
    refine ⟨padKeys_bare rfl hs, ?_⟩
    rw [State.enterDie, if_pos (by simp [hd])]
    exact imagePoison_bare fun x hx => Or.inr (padKeys_bare rfl (by rw [hl] at hx; cases hx; exact hs))
  all_goals decide +kernel

/-- A command of a kind that waits, on launch 0 or on a number that no launch has. -/
def commanding (kind : Nat) (arg : Word) : Launch :=
  { record := { kind := kind, seq := 6, arg0 := arg }, queue := 0, order := 2, status := .waiting }
def commanded (kind : Nat) (arg : Word) : State := { user with launches := user.launches ++ [commanding kind arg] }

/-- What `Commanded` asks, as a decision. -/
def waits (kind : Nat) (arg : Word) : Bool :=
  let s := commanded kind arg
  decide (s.launch 6 = some (commanding kind arg)) && s.cores.toList.all (fun c => decide (c.launch ≠ some 6)) && s.images.isEmpty && s.syncs.isEmpty &&
    s.launches.all fun l => (decide (l.record.seq ≠ 6) || decide (l = commanding kind arg)) &&
      (decide (l.record.kind = 1) || decide ((commanding kind arg).order ≤ l.order))

theorem commanded_of {kind : Nat} {arg : Word} (h : waits kind arg = true) : Commanded (commanded kind arg) 6 kind (commanding kind arg) := by
  simp only [waits, Bool.and_eq_true, List.all_eq_true, Bool.or_eq_true, decide_eq_true_eq, List.isEmpty_iff, ne_eq] at h
  obtain ⟨⟨⟨⟨h1, h2⟩, h3⟩, h5⟩, h4⟩ := h
  refine ⟨h1, rfl, rfl, rfl, rfl, ?_, by simp [h3], by simp [h5], fun l hl he => (h4 l hl).1.resolve_left (absurd he),
    fun l hl _ hk _ => (h4 l hl).2.resolve_left hk⟩
  refine List.filter_eq_nil_iff.mpr fun i _ => ?_
  have := everyCore (s := commanded kind arg) (p := fun c => decide (c.launch ≠ some 6)) (List.all_eq_true.mpr fun c hc => by simpa using h2 c hc) rfl i
  simpa using this

/-- A command that names no launch, and one that names one. -/
def nameless (k : Nat) : Bool := waits k 9 && ((commanded k 9).target 9).isNone
def naming (k : Nat) : Bool :=
  waits k 0 && decide ((commanding k 0).record.arg0 ≠ BitVec.allOnes 64 ∧ (commanding k 0).record.arg0 ≠ (commanding k 0).record.seq) &&
    ((commanded k 0).launch 0).any fun l => l.record.seq == 0 && l.record.kind == 1 && match l.status with | .ended _ _ => false | _ => true

theorem witness_HostEvents :
    (((queueing 0).queue 1).en = true ∧
      2 ^ ((queueing 0).queue 1).rlog.toNat < ((17 : BitVec 32) - ((queueing 0).queue 1).cidx).toNat) ∧
    ((16 : BitVec 32) - ((queueing 0).queue 1).cidx).toNat ≤ 2 ^ ((queueing 0).queue 1).rlog.toNat ∧
    (let s := { queueing 0 with idok := true };
      s.idok = true ∧ ((s.queue 1).pidx - (s.queue 1).cidx).toNat ≤ 2 ^ (s.queue 1).rlog.toNat) ∧
    user.idok = false ∧ (user.queue 1).en = false ∧
    ((∀ q ∈ State.reset.queues, q.en = false) ∧ ∀ i < 768, (State.reset.at i).launch = none) ∧
    (∃ q ∈ (queueing 0).queues, q.en = true) ∧ (∃ i < 768, (user.at i).launch ≠ none) ∧
    (nameless 2 = true ∧ nameless 3 = true ∧ nameless 4 = true) ∧ (naming 2 = true ∧ naming 3 = true ∧ naming 4 = true) ∧
    (waits 2 (BitVec.allOnes 64) = true ∧ (commanding 2 (BitVec.allOnes 64)).record.arg1 = 0 ∧
      (commanded 2 (BitVec.allOnes 64)).launches.any (·.onDie 0) = true) ∧
    (waits 5 3 = true ∧ (commanding 5 3).record.arg0.getLsbD 63 = false) ∧
    (waits 5 0x8000000000000003 = true ∧ (commanding 5 0x8000000000000003).record.arg0.getLsbD 63 = true) ∧
    (waits 6 3 = true ∧ waits 7 2 = true) ∧ ∀ k arg, waits k arg = true → Commanded (commanded k arg) 6 k (commanding k arg) := by
  refine ⟨?_, ?_, ?_, ?_, ?_, ⟨?_, fun i _ => ?idle⟩, ?_, ⟨0, ?_, ?_⟩, ?_, ?_, ?_, ?_, ?_, ?_, fun _ _ => commanded_of⟩
  case idle =>
    have h := everyCore (s := State.reset) (p := fun c => c.launch.isNone) (by decide +kernel) rfl i
    simpa using h
  all_goals decide +kernel

/-- A launch that waits and keeps a journal. -/
def kept : Launch := { later 16 with record := { (later 16).record with jrnl := 64, jlen := 64 } }

theorem witness_ResetEvents :
    (Vacant State.reset ∧ Vacant { State.reset with launches := [later 16] } ∧ Vacant { State.reset with launches := [kept] }) ∧
    (State.reset.launches = [] ∧ State.reset.dones = [] ∧ State.reset.unwritten = [] ∧ State.reset.canonical = true) ∧ (1 : Word).getLsbD 0 = true ∧
    ((later 16).record.kind = 1 ∧ (later 16).status = .waiting ∧ (later 16).rerun = false ∧ (later 16).record.jrnl = 0 ∧ kept.record.kind = 1 ∧
      kept.status = .waiting ∧ kept.record.jrnl ≠ 0 ∧ ∀ st d, (later 16).status ≠ .ended st d) ∧
    (let s : State := { State.reset with unwritten := [(hostKey 0, [1])] };
      s.canonical = true ∧ s.launches = [] ∧ s.dones = [] ∧ s.unwritten = [(hostKey 0, [1])]) ∧
    (let s : State := { State.reset with launches := [later 16] };
      s.canonical = true ∧ s.launches = [later 16] ∧ s.dones = [] ∧ s.unwritten = []) ∧
    ∃ t, exec .thermalTrip State.reset = .next t ∧ t.agenda = [] := by
  have vacant : Vacant State.reset := fun i => by
    have h := everyCore (s := State.reset) (p := fun c => c.launch.isNone && c.l1.isEmpty && c.memq.isEmpty) (by decide +kernel) rfl i
    simpa [Bool.and_assoc, and_assoc] using h
  refine ⟨⟨vacant, vacant, vacant⟩, by decide +kernel, by decide, ⟨rfl, rfl, rfl, rfl, rfl, rfl, by decide, fun _ _ => LStatus.noConfusion⟩, by decide +kernel,
    by decide +kernel, ?_⟩
  · have h : (match exec .thermalTrip State.reset with | .next t => t.agenda.isEmpty | _ => false) = true := by decide +kernel
    revert h
    cases exec .thermalTrip State.reset with
    | next t => intro h; exact ⟨t, rfl, List.isEmpty_iff.mp h⟩
    | fault f => simp
    | refused r => simp

/-- `user` once its turn is taken from the agenda. -/
def turning : State := { user with agenda := [] }

theorem turning_translates : turning.translate 0 { ex := true, user := !(turning.at 0).sys.sup } (turning.at 0).ctx.pc.toNat = (turning, .ok (0, 8192)) := by
  have h : (turning.at 0).ctx.pc.toNat = 0 := by decide +kernel
  rw [h]
  exact State.translate_hit (e := probePage) (by decide) (by decide +kernel) (by decide +kernel) (fun _ => rfl) (by decide +kernel)

theorem witness_StepRunsDecoded :
    user.agenda = [.issue 0] ∧ AboutToFetch turning 0 0 ∧ decode ((List.range 8).map fun k => turning.mem.get (0 + k)) = .ok (.nop 0, []) ∧ 0 % 32 + 8 ≤ 32 := by
  refine ⟨?_, ⟨?_, ?_, ?_, ⟨8192, turning_translates⟩, ?_, ⟨by unfold Ours; decide +kernel, ?_⟩⟩, ?_, ?_⟩ <;> decide +kernel

theorem witness_EncodedInstructionsDecode : WellFormed (.add hd 3 1 2) = true ∧ (Instr.add hd 3 1 2).isWord = true := by decide

theorem witness_RegisterInstructionsComplete :
    WellFormed (.add hd 3 1 2) = true ∧ registerOnly (.add hd 3 1 2) = true ∧ hdOf (.add hd 3 1 2) = some (hd, 8) := by decide

theorem witness_DecodedInstructionsEncode : ∃ i, decode [0x05, 0x00, 0x18, 0x02, 0x01, 0x00, 0x00, 0x00] = .ok (i, []) := ⟨_, rfl⟩

/-- A step of `user` goes on. -/
theorem steps {s : State} (h : (match step s with | .next _ => true | _ => false) = true) : ∃ t, step s = .next t := by
  revert h
  cases step s with
  | next t => exact fun _ => ⟨t, rfl⟩
  | fault f => simp
  | refused r => simp

theorem witness_CanonicalKept : user.canonical = true ∧ ∃ t, step user = .next t := ⟨by decide +kernel, steps (by decide +kernel)⟩

theorem witness_QueuesGuardedKept : user.queuesGuarded = true ∧ ∃ t, step user = .next t := ⟨by decide +kernel, steps (by decide +kernel)⟩

end Sys2Proof.Tests
end

