-- ==== Sys2Proof/Proofs/Canonical.lean ====
section
/-! PROOFS. Byte storage stays canonical (log entry 1): `State.canonical` as a proposition, what it means for each kind of result a function of
the model has, and one lemma for each function that makes part of a step: from a canonical state it gives a canonical state. The functions come in
the order of the model's files; the proofs of the callers name the lemmas of the callees. -/

namespace Sys2Proof.Machine

/-! ## Canonical storage as a proposition -/

/-- The scratchpad of a core is in canonical form. -/
def Core.Canonical (c : Core) : Prop := c.pad.wf = true

/-- `State.canonical` as a proposition: memory, the scratchpads of the cores and those of the saved images are in canonical form. -/
structure State.Canonical (s : State) : Prop where
  mem_wf : s.mem.wf = true
  cores : ∀ c ∈ s.cores, c.Canonical
  images : ∀ m ∈ s.images, m.core.Canonical

theorem State.canonical_iff (s : State) : s.canonical = true ↔ s.Canonical := by
  simp only [State.canonical, Bool.and_eq_true, List.all_eq_true, Vector.mem_toList_iff]
  exact ⟨fun ⟨⟨hm, hc⟩, hi⟩ => ⟨hm, hc, hi⟩, fun h => ⟨⟨h.mem_wf, h.cores⟩, h.images⟩⟩

/-- The state with which an instruction does not complete is canonical. -/
def Halt.Canonical : Halt → Prop
  | .trap _ s | .after _ s | .wait _ s | .stall s | .gone s => s.Canonical

/-- A computation ends well: its value satisfies `p`, or its error `e`. -/
def Ends {ε α : Type} (e : ε → Prop) (p : α → Prop) : Except ε α → Prop
  | .ok a => p a
  | .error x => e x

/-- A run of a body ends with a value that satisfies `p`, or does not complete with a canonical state. -/
abbrev Run.Ends {α : Type} (p : α → Prop) (x : Run α) : Prop := Machine.Ends Halt.Canonical p x

/-- A check that passes does so with a canonical state. -/
abbrev Check.Ends {α : Type} (x : Check (State × α)) : Prop := Machine.Ends (fun _ => True) (·.1.Canonical) x

/-- The next state, if there is one, is canonical. -/
def Out.Canonical : Out → Prop
  | .next t => t.Canonical
  | _ => True

/-- What there is satisfies `p`. -/
def Holds {α : Type} (p : α → Prop) (x : Option α) : Prop := ∀ a, x = some a → p a

/-- The state that slots answer is canonical. -/
def Slots.Canonical : Slots → Prop
  | .ok s | .frozen s | .starved s => s.Canonical

/-- The state that a fetch answers is canonical. -/
def Fetched.Canonical : Fetched → Prop
  | .ok s _ _ | .trap s _ | .gone s => s.Canonical

/-- The state that a stretch of a transfer answers is canonical. -/
def Moved.Canonical : Moved → Prop
  | .ok s | .stop s _ _ | .gone s => s.Canonical
  | .hold => True

/-! ## Reading what is canonical -/

section
variable {s : State} (h : s.Canonical)
include h

theorem State.Canonical.at (i : Nat) : (s.at i).Canonical := by
  unfold State.at
  split
  · exact h.cores _ (Vector.getElem_mem _)
  · rfl

theorem State.Canonical.core : s.core.Canonical := h.cores _ (Vector.getElem_mem _)

theorem State.Canonical.image {m : Image} (hm : m ∈ s.images) : m.core.Canonical := h.images m hm

/-! ## Updates of cores and memory -/

theorem State.Canonical.setCore {c : Core} (hc : c.Canonical) : (s.setCore c).Canonical :=
  ⟨h.mem_wf, fun d hd => (Vector.mem_or_eq_of_mem_set (hi := s.cur.isLt) hd).elim (h.cores d) (· ▸ hc), h.images⟩

theorem State.Canonical.put {i : Nat} {c : Core} (hc : c.Canonical) : (s.put i c).Canonical := by
  refine ⟨h.mem_wf, fun d hd => ?_, h.images⟩
  obtain ⟨k, hk, rfl⟩ := Vector.mem_iff_getElem.mp hd
  simp only [State.put, Vector.getElem_setIfInBounds]
  split
  · exact hc
  · exact h.cores _ (Vector.getElem_mem _)

theorem State.Canonical.on {i : Nat} {f : Core → Core} (hf : ∀ c, c.Canonical → (f c).Canonical) : (s.on i f).Canonical :=
  h.put (hf _ (h.at i))

theorem State.Canonical.upd {f : Core → Core} (hf : ∀ c, c.Canonical → (f c).Canonical) : (s.upd f).Canonical :=
  h.setCore (hf _ h.core)

theorem State.Canonical.ite {t : State} {p : Prop} [Decidable p] (ht : t.Canonical) : (if p then s else t).Canonical := by
  split
  · exact h
  · exact ht

theorem State.Canonical.elim {α : Type} {f : α → State} {x : Option α} (hf : ∀ a, (f a).Canonical) : (x.elim s f).Canonical := by
  cases x with
  | none => exact h
  | some a => exact hf a

theorem State.Canonical.foldl {α : Type} {f : State → α → State} {l : List α} (hf : ∀ s a, s.Canonical → (f s a).Canonical) :
    (l.foldl f s).Canonical :=
  List.foldlRecOn l f h fun t ht a _ => hf t a ht

theorem State.Canonical.foldl_of_mem {α : Type} {f : State → α → State} {l : List α}
    (hf : ∀ s, ∀ a ∈ l, s.Canonical → (f s a).Canonical) : (l.foldl f s).Canonical :=
  List.foldlRecOn l f h fun t ht a ha => hf t a ha ht

theorem State.Canonical.cores_map {f : Core → Core} (hf : ∀ c, c.Canonical → (f c).Canonical) :
    ∀ c ∈ s.cores.map f, c.Canonical := by
  intro c hc
  obtain ⟨d, hd, rfl⟩ := Vector.mem_map.mp hc
  exact hf d (h.cores d hd)

theorem State.Canonical.images_filter (p : Image → Bool) : ∀ m ∈ s.images.filter p, m.core.Canonical :=
  fun _ hm => h.image (List.mem_of_mem_filter hm)

theorem State.Canonical.images_map {f : Image → Image} (hf : ∀ m, m.core.Canonical → (f m).core.Canonical) :
    ∀ m ∈ s.images.map f, m.core.Canonical := by
  intro m hm
  obtain ⟨n, hn, rfl⟩ := List.mem_map.mp hm
  exact hf n (h.image hn)

theorem State.Canonical.images_append {m : Image} (hm : m.core.Canonical) :
    ∀ n ∈ s.images ++ [m], n.core.Canonical := by
  intro n hn
  rcases List.mem_append.mp hn with hn | hn
  · exact h.image hn
  · exact List.mem_singleton.mp hn ▸ hm
end

section
variable {c : Core} (h : c.Canonical)
include h

theorem Core.Canonical.ite {d : Core} {p : Prop} [Decidable p] (hd : d.Canonical) : (if p then c else d).Canonical := by
  split
  · exact h
  · exact hd
end

/-! ## The rest of a record -/

section
variable {s : State} (h : s.Canonical) {
    cur pods dies poison launches syncs cbs reports reporting askers credits places queues dones events ports hostPorts hdm switch replies
    flows remotes holding misses farWrites hostErrors controls image unwritten sends early fw idok devidx present power throttled report
    gens accepted agenda tick}
include h

/-- Memory, cores and images are all the storage of a device: an update of anything else keeps it canonical. -/
theorem State.Canonical.rest :
    ({ s with
        cur := cur, pods := pods, dies := dies, poison := poison, launches := launches, syncs := syncs, cbs := cbs, reports := reports,
        reporting := reporting, askers := askers, credits := credits, places := places, queues := queues, dones := dones, events := events,
        ports := ports, hostPorts := hostPorts, hdm := hdm, switch := switch, replies := replies, flows := flows, remotes := remotes,
        holding := holding, misses := misses, farWrites := farWrites, hostErrors := hostErrors, controls := controls, image := image,
        unwritten := unwritten, sends := sends, early := early, fw := fw, idok := idok, devidx := devidx, present := present,
        power := power, throttled := throttled, report := report, gens := gens, accepted := accepted, agenda := agenda, tick := tick } : State).Canonical :=
  ⟨h.mem_wf, h.cores, h.images⟩

/-- An update of memory, and of anything that is no storage. -/
theorem State.Canonical.withMem {mem : Mem} (hm : mem.wf = true) :
    ({ s with
        mem := mem, cur := cur, pods := pods, dies := dies, poison := poison, launches := launches, syncs := syncs, cbs := cbs,
        reports := reports, reporting := reporting, askers := askers, credits := credits, places := places, queues := queues,
        dones := dones, events := events, ports := ports, hostPorts := hostPorts, hdm := hdm, switch := switch, replies := replies,
        flows := flows, remotes := remotes, holding := holding, misses := misses, farWrites := farWrites, hostErrors := hostErrors,
        controls := controls, image := image, unwritten := unwritten, sends := sends, early := early, fw := fw, idok := idok,
        devidx := devidx, present := present, power := power, throttled := throttled, report := report, gens := gens, accepted := accepted,
        agenda := agenda, tick := tick } : State).Canonical :=
  ⟨hm, h.cores, h.images⟩

/-- An update of the saved images, and of anything that is no storage. -/
theorem State.Canonical.withImages {images : List Image} (hi : ∀ m ∈ images, m.core.Canonical) :
    ({ s with
        images := images, cur := cur, pods := pods, dies := dies, poison := poison, launches := launches, syncs := syncs, cbs := cbs,
        reports := reports, reporting := reporting, askers := askers, credits := credits, places := places, queues := queues,
        dones := dones, events := events, ports := ports, hostPorts := hostPorts, hdm := hdm, switch := switch, replies := replies,
        flows := flows, remotes := remotes, holding := holding, misses := misses, farWrites := farWrites, hostErrors := hostErrors,
        controls := controls, image := image, unwritten := unwritten, sends := sends, early := early, fw := fw, idok := idok,
        devidx := devidx, present := present, power := power, throttled := throttled, report := report, gens := gens, accepted := accepted,
        agenda := agenda, tick := tick } : State).Canonical :=
  ⟨h.mem_wf, h.cores, hi⟩
end

/-- A scratchpad is all the storage of a core: an update of anything else keeps it canonical. -/
theorem Core.Canonical.rest {c : Core} (h : c.Canonical) {
    phase retired launch gen team ctx proof proofPhase proofTrig sys ident wait resume waited retires pos stopReq stopped exchanging
    chainPos replay handed stalled padKiB padUndo pend pendHeld pendSeq sfu reserve shared l1 l1Count tlb memq log atoms atomPos farAtom
    cbIdx cbPos icache plates metas copies port plane stats etch order arrivals arrived faults window sent inflow inbox closed trig
    faultCount linkFails linkOut lastCtx carried} :
    ({ c with
        phase := phase, retired := retired, launch := launch, gen := gen, team := team, ctx := ctx, proof := proof,
        proofPhase := proofPhase, proofTrig := proofTrig, sys := sys, ident := ident, wait := wait, resume := resume, waited := waited,
        retires := retires, pos := pos, stopReq := stopReq, stopped := stopped, exchanging := exchanging, chainPos := chainPos,
        replay := replay, handed := handed, stalled := stalled, padKiB := padKiB, padUndo := padUndo, pend := pend, pendHeld := pendHeld,
        pendSeq := pendSeq, sfu := sfu, reserve := reserve, shared := shared, l1 := l1, l1Count := l1Count, tlb := tlb, memq := memq,
        log := log, atoms := atoms, atomPos := atomPos, farAtom := farAtom, cbIdx := cbIdx, cbPos := cbPos, icache := icache,
        plates := plates, metas := metas, copies := copies, port := port, plane := plane, stats := stats, etch := etch, order := order,
        arrivals := arrivals, arrived := arrived, faults := faults, window := window, sent := sent, inflow := inflow, inbox := inbox,
        closed := closed, trig := trig, faultCount := faultCount, linkFails := linkFails, linkOut := linkOut, lastCtx := lastCtx,
        carried := carried } : Core).Canonical :=
  h

/-! ## Computations -/

section
variable {ε α β : Type} {e : ε → Prop} {p : α → Prop} {q : β → Prop} {x : Except ε α}

theorem Ends.bind {f : α → Except ε β} (hx : Ends e p x) (hf : ∀ a, p a → Ends e q (f a)) : Ends e q (x >>= f) := by
  cases x with
  | ok a => exact hf a hx
  | error b => exact hx

theorem Ends.ok_of_eq {a : α} (hx : Ends e p x) (hq : x = .ok a) : p a := by
  subst hq
  exact hx

theorem Ends.error_of_eq {b : ε} (hx : Ends e p x) (hq : x = .error b) : e b := by
  subst hq
  exact hx

theorem Ends.ite {y : Except ε α} {c : Prop} [Decidable c] (hx : Ends e p x) (hy : Ends e p y) : Ends e p (if c then x else y) := by
  split
  · exact hx
  · exact hy

theorem Ends.foldlM {f : α → β → Except ε α} {l : List β} {a : α} (ha : p a) (hf : ∀ a b, p a → Ends e p (f a b)) :
    Ends e p (l.foldlM f a) := by
  induction l generalizing a with
  | nil => exact ha
  | cons b l ih => exact (hf a b ha).bind fun _ => ih
end

/-! ### How a computation ends -/

theorem Ends.any {ε α : Type} {x : Except ε α} : Ends (fun _ => True) (fun _ => True) x := by
  cases x with
  | ok a => trivial
  | error b => trivial

theorem Ends.triv {ε α : Type} {e : ε → Prop} {a : α} : Ends e (fun _ => True) (.ok a) := trivial
theorem Ends.failed {ε α : Type} {p : α → Prop} {b : ε} : Ends (fun _ => True) p (.error b) := trivial

section
variable {s : State} (h : s.Canonical)
include h

theorem State.Canonical.okState {ε : Type} {e : ε → Prop} : Ends e State.Canonical (.ok s) := h
theorem State.Canonical.okFst {ε α : Type} {e : ε → Prop} {a : α} : Ends e (·.1.Canonical) (.ok (s, a)) := h
theorem State.Canonical.trap {α : Type} {p : α → Prop} {t : Trap} : Run.Ends p (.error (.trap t s)) := h
theorem State.Canonical.after {α : Type} {p : α → Prop} {t : Trap} : Run.Ends p (.error (.after t s)) := h
theorem State.Canonical.wait {α : Type} {p : α → Prop} {w : Wait} : Run.Ends p (.error (.wait w s)) := h
theorem State.Canonical.stall {α : Type} {p : α → Prop} : Run.Ends p (.error (.stall s)) := h
theorem State.Canonical.gone {α : Type} {p : α → Prop} : Run.Ends p (.error (.gone s)) := h
theorem State.Canonical.fst {α : Type} {a : α} : (s, a).1.Canonical := h
end

/-- A state that comes with a value. -/
theorem State.Canonical.fst_of_eq {α : Type} {x : State × α} {t : State} {a : α} (h : x.1.Canonical) (hq : x = (t, a)) : t.Canonical := by
  subst hq
  exact h

theorem Holds.some_of_eq {α : Type} {p : α → Prop} {x : Option α} {a : α} (h : Holds p x) (hq : x = some a) : p a := h a hq

theorem Holds.none {α : Type} {p : α → Prop} : Holds p none := fun _ e => nomatch e

theorem Holds.some {α : Type} {p : α → Prop} {a : α} (h : p a) : Holds p (some a) := fun _ e => Option.some.inj e ▸ h

theorem Holds.findSome? {α β : Type} {p : β → Prop} {f : α → Option β} {l : List α} (hf : ∀ a, Holds p (f a)) : Holds p (l.findSome? f) := by
  intro b e
  obtain ⟨a, _, ha⟩ := List.exists_of_findSome?_eq_some e
  exact hf a b ha

theorem Holds.ite {α : Type} {p : α → Prop} {x y : Option α} {c : Prop} [Decidable c] (hx : Holds p x) (hy : Holds p y) :
    Holds p (if c then x else y) := by
  split
  · exact hx
  · exact hy

theorem Out.Canonical.next_of_eq {x : Out} {t : State} (h : x.Canonical) (hq : x = .next t) : t.Canonical := by
  subst hq
  exact h

theorem Out.Canonical.ite {x y : Out} {c : Prop} [Decidable c] (hx : x.Canonical) (hy : y.Canonical) : (if c then x else y).Canonical := by
  split
  · exact hx
  · exact hy

theorem Slots.Canonical.of_eq {x y : Slots} (h : x.Canonical) (hq : x = y) : y.Canonical := hq ▸ h

theorem Fetched.Canonical.of_eq {x y : Fetched} (h : x.Canonical) (hq : x = y) : y.Canonical := hq ▸ h

theorem Moved.Canonical.fst_of_eq {α : Type} {x : Moved × α} {y : Moved} {a : α} (h : x.1.Canonical) (hq : x = (y, a)) : y.Canonical := by
  subst hq
  exact h

theorem Moved.Canonical.ok_of_eq {x : Moved} {s : State} (h : x.Canonical) (hq : x = .ok s) : s.Canonical := by
  subst hq
  exact h

theorem Moved.Canonical.stop_of_eq {x : Moved} {s : State} {t : Trap} {n : Nat} (h : x.Canonical) (hq : x = .stop s t n) : s.Canonical := by
  subst hq
  exact h

theorem Moved.Canonical.gone_of_eq {x : Moved} {s : State} (h : x.Canonical) (hq : x = .gone s) : s.Canonical := by
  subst hq
  exact h

/-! ## The named operations -/

theorem Core.Canonical.updCtx {c : Core} (h : c.Canonical) {f} : (c.updCtx f).Canonical := h.rest

theorem Core.Canonical.updSys {c : Core} (h : c.Canonical) {f} : (c.updSys f).Canonical := h.rest

theorem Core.Canonical.setS {c : Core} (h : c.Canonical) {n v} : (c.setS n v).Canonical := h.ite (h.rest.ite h.rest)

theorem Core.Canonical.setG {c : Core} (h : c.Canonical) {n v} : (c.setG n v).Canonical := h.ite h.rest

theorem Core.Canonical.setH {c : Core} (h : c.Canonical) {n hd} : (c.setH n hd).Canonical := h.rest

theorem Core.Canonical.retire {c : Core} (h : c.Canonical) {dly npc stall} : (c.retire dly npc stall).Canonical := h.rest

theorem Core.Canonical.honour {c : Core} (h : c.Canonical) : c.honour.Canonical := h.rest

theorem State.Canonical.retire {s : State} (h : s.Canonical) {dly npc} : (s.retire dly npc).Canonical := h.upd fun _ hc => hc.retire

theorem State.Canonical.updLaunch {s : State} (h : s.Canonical) {seq f} : (s.updLaunch seq f).Canonical := h.rest

theorem State.Canonical.updSquadOf {s : State} (h : s.Canonical) {seq i f} : (s.updSquadOf seq i f).Canonical := h.updLaunch

theorem State.Canonical.updSquad {s : State} (h : s.Canonical) {i f} : (s.updSquad i f).Canonical := by
  unfold State.updSquad
  split
  · exact h
  · exact h.updSquadOf

theorem State.Canonical.updBar {s : State} (h : s.Canonical) {seq g f} : (s.updBar seq g f).Canonical := h.updLaunch

theorem State.Canonical.onMember {s : State} (h : s.Canonical) {seq i} {f : Core → Core} (hf : ∀ c, c.Canonical → (f c).Canonical) :
    (s.onMember seq i f).Canonical := by
  refine (h.on hf).ite (h.withImages (h.images_map fun _ hm => ?_))
  split
  · exact hf _ hm
  · exact hm

theorem State.Canonical.setDie {s : State} (h : s.Canonical) {d x} : (s.setDie d x).Canonical := h.rest

theorem State.Canonical.l2Hold {s : State} (h : s.Canonical) {who dirty pa n hint} : (s.l2Hold who dirty pa n hint).Canonical := h.setDie

theorem State.Canonical.l2Drops {s : State} (h : s.Canonical) {pa n} : (s.l2Drops pa n).Canonical := h.rest

theorem State.Canonical.onPort {s : State} (h : s.Canonical) {p f} : (s.onPort p f).Canonical := h.rest

theorem State.Canonical.setFlow {s : State} (h : s.Canonical) {f} : (s.setFlow f).Canonical := h.rest

theorem State.Canonical.sendTo {s : State} (h : s.Canonical) {dst cls seq b} : (s.sendTo dst cls seq b).Canonical := h.setFlow

theorem State.Canonical.askFor {s : State} (h : s.Canonical) {r b} : (s.askFor r b).Canonical := h.sendTo.ite h

theorem State.Canonical.askOthers {s : State} (h : s.Canonical) {pa n} :
    (s.askOthers pa n).Canonical :=
  (h.foldl fun _ _ hs1 => hs1.askFor).rest

theorem State.Canonical.askDown {s : State} (h : s.Canonical) {pa n} :
    (s.askDown pa n).Canonical :=
  (h.foldl fun _ _ hs1 => hs1.askFor).rest

theorem State.Canonical.dropCopies {s : State} (h : s.Canonical) {pa n} : (s.dropCopies pa n).Canonical :=
  h.foldl fun _ _ hs1 => hs1.on fun _ hc => hc.rest

theorem State.Canonical.writeKeys {s : State} (h : s.Canonical) {ks : List (Nat × Nat)} {bs : List Byte} :
    (State.writeKeys ks bs s).Canonical := by
  induction ks generalizing s bs with
  | nil => exact h
  | cons k ks ih => exact ih (h.dropCopies.withMem (Mem.wf_write _ _ h.mem_wf))

theorem State.Canonical.journal {s : State} (h : s.Canonical) {seq gs} : (s.journal seq gs).Canonical := by
  unfold State.journal
  split
  · exact h
  · exact h.ite (h.writeKeys.updLaunch.ite h.updLaunch)

theorem State.Canonical.noted {s : State} (h : s.Canonical) {seq i undo pa n} :
    (s.noted seq i undo pa n).Canonical :=
  h.journal.updLaunch.ite h.journal

/-- Bytes reach memory at their home. -/
theorem State.Canonical.setBytes {s : State} (h : s.Canonical) {who undo pa bs hint} : (s.setBytes who undo pa bs hint).Canonical := by
  unfold State.setBytes
  refine .withMem (.l2Hold ?h1) (Mem.wf_write _ _ (State.Canonical.mem_wf ?h1))
  split
  · exact h
  · split
    · exact h
    · exact h.noted

theorem State.Canonical.tellAs {s : State} (h : s.Canonical) {seq pa b} : (s.tellAs seq pa b).Canonical := by
  unfold State.tellAs
  split
  · exact h
  · dsimp only
    split
    · exact h.sendTo.rest
    · exact h.sendTo

theorem State.Canonical.tellHome {s : State} (h : s.Canonical) {who pa b} : (s.tellHome who pa b).Canonical := by
  unfold State.tellHome
  split
  · exact h
  · exact h.tellAs

theorem State.Canonical.fetchFor {s : State} (h : s.Canonical) {seq excl pa n} : (s.fetchFor seq excl pa n).Canonical := by
  unfold State.fetchFor
  split
  · exact h
  · exact h.ite h.tellAs.rest

theorem State.Canonical.fetchFar {s : State} (h : s.Canonical) {i excl pa n} : (s.fetchFar i excl pa n).Canonical := h.fetchFor

theorem State.Canonical.comes {s : State} (h : s.Canonical) {i excl pa n} : Holds State.Canonical (s.comes i excl pa n) := by
  unfold State.comes
  exact .ite (.ite .none (.some h.fetchFar)) (.ite (.some (h.askOthers.ite h.askDown)) .none)

theorem State.Canonical.homeWrite {s : State} (h : s.Canonical) {who undo pa bs} :
    (s.homeWrite who undo pa bs).Canonical :=
  h.setBytes.tellHome

theorem State.Canonical.drainWb {s : State} (h : s.Canonical) {p i} : (s.drainWb p i).Canonical := by
  unfold State.drainWb
  refine (h.on fun _ hc => hc.rest).foldl fun _ _ hs1 => ?_
  split
  · exact hs1.homeWrite
  · exact hs1

theorem State.Canonical.applyWbs {s : State} (h : s.Canonical) {i w} :
    (s.applyWbs i w).Canonical :=
  h.foldl fun _ _ hs1 => hs1.drainWb.homeWrite

theorem State.Canonical.onL1 {s : State} (h : s.Canonical) {i f} : (s.onL1 i f).Canonical := (h.on fun _ hc => hc.rest).applyWbs

theorem State.Canonical.onL1q {s : State} (h : s.Canonical) {i f} : (s.onL1q i f).Canonical := h.on fun _ hc => hc.rest

theorem State.Canonical.settleWb {s : State} (h : s.Canonical) {pa n} : (s.settleWb pa n).Canonical := h.foldl fun _ _ hs1 => hs1.drainWb

theorem State.Canonical.invalidateAt {s : State} (h : s.Canonical) {i pa n} :
    (s.invalidateAt i pa n).Canonical :=
  h.onL1.on fun _ hc => hc.rest

theorem State.Canonical.withdraw {s : State} (h : s.Canonical) {keep pa n} : (s.withdraw keep pa n).Canonical :=
  h.settleWb.askOthers.foldl fun _ _ hs1 => hs1.invalidateAt

theorem State.Canonical.downgrade {s : State} (h : s.Canonical) {keep pa n} : (s.downgrade keep pa n).Canonical :=
  h.settleWb.foldl fun _ _ hs1 => hs1.onL1

theorem State.Canonical.coherentRead {s : State} (h : s.Canonical) {pa n} : (s.coherentRead pa n).1.Canonical := h.downgrade.l2Hold

theorem State.Canonical.coherentWrite {s : State} (h : s.Canonical) {who undo pa bs} :
    (s.coherentWrite who undo pa bs).Canonical :=
  h.withdraw.homeWrite

theorem State.Canonical.event {s : State} (h : s.Canonical) {kind unit idx seq addr} : (s.event kind unit idx seq addr).Canonical :=
  h.ite (h.coherentWrite.rest.ite h.rest)

theorem State.Canonical.memberWrite {s : State} (h : s.Canonical) {seq i undo pa bs hint} :
    (s.memberWrite seq i undo pa bs hint).Canonical :=
  h.withdraw.noted.setBytes.tellAs

theorem State.Canonical.kept {s : State} (h : s.Canonical) {who pa bs} : (s.kept who pa bs).Canonical := h.rest

/-- Whatever writes scratchpad bytes one by one writes them so. -/
theorem Core.Canonical.padWrite {c : Core} (h : c.Canonical) {bs} : (c.padWrite bs).Canonical := Mem.wf_writeAll bs h

theorem Core.Canonical.raise {c : Core} (h : c.Canonical) {f} : (c.raise f).Canonical := h.rest

theorem Core.Canonical.veiled {c : Core} (h : c.Canonical) {seq bs} : (c.veiled seq bs).Canonical := h.rest

theorem Core.Canonical.engineWrite {c : Core} (h : c.Canonical) {o bs} : (c.engineWrite o bs).Canonical := h.padWrite.rest

theorem Core.Canonical.atSlot {c : Core} (h : c.Canonical) {d} : (c.atSlot d).Canonical := h.rest

theorem Core.Canonical.land {c : Core} (h : c.Canonical) {p} : (c.land p).Canonical := h.veiled.padWrite.raise.rest

theorem Core.Canonical.drainTo {keep n : Nat} {c : Core} (h : c.Canonical) : Holds Core.Canonical (Core.drainTo keep n c) := by
  induction n generalizing c with
  | zero => exact Holds.some h
  | succ n ih =>
    unfold Core.drainTo
    split
    · exact Holds.some h
    · exact Holds.none.ite (ih h.land.atSlot)

theorem Core.Canonical.drainAll {c : Core} (h : c.Canonical) : Holds Core.Canonical c.drainAll := h.drainTo

theorem Core.Canonical.drainOne {c : Core} (h : c.Canonical) : Holds Core.Canonical c.drainOne := h.drainTo

theorem Core.Canonical.pendWrite {c : Core} (h : c.Canonical) {l bs flags ready} : (c.pendWrite l bs flags ready).Canonical := h.rest

theorem Core.Canonical.reset : Core.reset.Canonical := rfl

theorem Core.Canonical.freed {c : Core} : c.freed.Canonical := Core.Canonical.reset.rest

theorem State.Canonical.putBack {s : State} (h : s.Canonical) {u} : (s.putBack u).Canonical :=
  h.dropCopies.withMem (Mem.wf_write _ _ h.mem_wf)

theorem State.Canonical.carry {s : State} (h : s.Canonical) {c : Core} : (s.carry c).Canonical := h.foldl fun _ _ hs1 => hs1.putBack

theorem State.Canonical.restoreFar {s : State} (h : s.Canonical) {kept u} :
    (s.restoreFar kept u).Canonical :=
  h.foldl fun _ _ hs1 => hs1.tellAs

theorem State.Canonical.cbChanged {s : State} (h : s.Canonical) {pa} : (s.cbChanged pa).Canonical :=
  h.ite ((h.rest.ite h).foldl fun _ _ hs1 => hs1.sendTo)

theorem State.Canonical.queuesWritten {before : State} {s : State} (hs : s.Canonical) : (before.queuesWritten s).Canonical :=
  hs.foldl fun _ _ hs1 => hs1.cbChanged

theorem State.Canonical.restoreUndo {s : State} (h : s.Canonical) {q} : (s.restoreUndo q).Canonical := by
  have h1 : (q.memUndo.foldl State.putBack s).Canonical := h.foldl fun _ _ hs => hs.putBack
  exact .queuesWritten (.foldl (h1.withMem (Mem.wf_writeAll _ h1.mem_wf)) fun _ _ hs => hs.restoreFar)

theorem State.Canonical.syncStep {s : State} (h : s.Canonical) {who undo pa f} : (s.syncStep who undo pa f).Canonical := by
  unfold State.syncStep
  refine .rest ?_
  split
  · exact h.withdraw.setBytes
  · exact h.withdraw.setBytes.ite h.withdraw.memberWrite

theorem State.Canonical.requeue {s : State} (h : s.Canonical) {pa} : (s.requeue pa).Canonical := h.withdraw.ite h.withdraw.setBytes

theorem State.Canonical.unqueue {s : State} (h : s.Canonical) {gone} : (s.unqueue gone).Canonical := h.rest.foldl fun _ _ hs1 => hs1.requeue

theorem State.Canonical.tellLinked {s : State} (h : s.Canonical) {seq n tries what} : (s.tellLinked seq n tries what).Canonical :=
  h.foldl fun _ _ hs1 => hs1.sendTo

theorem State.Canonical.carryAll {s : State} (h : s.Canonical) {l : List Core} : (l.foldl State.carry s).Canonical :=
  h.foldl fun _ _ hs => hs.carry

theorem State.Canonical.endLaunch {s : State} (h : s.Canonical) {seq status detail undo} :
    (s.endLaunch seq status detail undo).Canonical := by
  unfold State.endLaunch
  split
  · exact h
  · split
    · exact h
    · refine .withImages ?h4 (State.Canonical.images_filter ?h4 _)
      refine .tellLinked (.unqueue (.foldl (.foldl ?_ fun _ _ hs => hs.syncStep.tellAs) fun _ _ hs => hs.on fun _ _ => ?_))
      · exact State.Canonical.ite (.carryAll (h.foldl fun _ _ hs => hs.restoreUndo)) h
      · exact Core.Canonical.ite (.rest .freed) .freed

theorem Core.Canonical.rolledBack {c : Core} (h : c.Canonical) : c.rolledBack.Canonical :=
  List.foldlRecOn (motive := fun m => Mem.wf m = true) c.padUndo _ h fun _ hm u _ => Mem.wf_write u.1 u.2 hm

theorem Core.Canonical.rolledAway {c : Core} (h : c.Canonical) : c.rolledAway.Canonical := h.rolledBack.rest

theorem State.Canonical.onSquad {s : State} (h : s.Canonical) {seq q f} : (s.onSquad seq q f).Canonical := h.updLaunch

theorem State.Canonical.rollSquad {s : State} (h : s.Canonical) {seq q} : (s.rollSquad seq q).Canonical := by
  unfold State.rollSquad
  split
  · exact h
  · refine .unqueue (.withImages (.onSquad ?h2) (State.Canonical.images_map (.onSquad ?h2) fun _ hm => ?_))
    · refine .foldl ?_ fun _ _ hs => (hs.on fun _ hc => hc.rolledBack).ite hs
      exact h.restoreUndo.carryAll.foldl fun _ _ hs => hs.dropCopies
    · split
      · exact hm.rolledAway
      · exact hm

theorem State.Canonical.rollLinked {s : State} (h : s.Canonical) {seq q} :
    (s.rollLinked seq q).Canonical :=
  h.ite h.onSquad.tellLinked.rollSquad

theorem State.Canonical.restoreJournal {s : State} (h : s.Canonical) {l} : (s.restoreJournal l).Canonical :=
  ((h.foldl fun _ _ hs1 => hs1.putBack).foldl fun _ _ hs1 => hs1.putBack).foldl fun _ _ hs1 => hs1.restoreFar

theorem State.Canonical.onPod {s : State} (h : s.Canonical) {p f} : (s.onPod p f).Canonical := h.rest

theorem State.Canonical.clearCounts {s : State} (h : s.Canonical) {ps} : (s.clearCounts ps).Canonical := h.foldl fun _ _ hs1 => hs1.onPod

theorem State.Canonical.rerun {s : State} (h : s.Canonical) {seq status detail} : (s.rerun seq status detail).Canonical := by
  unfold State.rerun
  split
  · exact h
  · split
    · exact h.endLaunch
    · refine .unqueue (.withImages ?h3 (State.Canonical.images_filter ?h3 _))
      exact (State.Canonical.updLaunch (.foldl h.restoreJournal fun _ _ hs => hs.on fun _ _ => .rest .freed)).clearCounts

theorem State.Canonical.retireCores {s : State} (h : s.Canonical) {cs seq} : (s.retireCores cs seq).Canonical :=
  h.foldl fun _ _ hs1 => (hs1.on fun _ hc => hc.rest).event

theorem State.Canonical.dropGroup {s : State} (h : s.Canonical) {p g seq team} : (s.dropGroup p g seq team).Canonical := by
  unfold State.dropGroup
  refine h.onPod.event.foldl fun _ _ hs1 => ?_
  dsimp only
  split
  · exact hs1.on fun _ hc => hc.rest
  · split
    · exact hs1.retireCores.rerun
    · exact hs1.onPod.foldl fun _ _ hs2 => hs2.on fun _ hc => hc.rest

theorem State.Canonical.rollbackOf {s : State} (h : s.Canonical) {seq q i team u} : (s.rollbackOf seq q i team u).Canonical := by
  unfold State.rollbackOf
  split
  · dsimp only
    split
    · exact (h.on fun _ hc => hc.rest).retireCores.rerun
    · exact (h.on fun _ hc => hc.rest).event.rollLinked
  · exact h.onPod.event.rollLinked.dropGroup.ite h.onPod.event.rollLinked
  · exact h.onPod.event.retireCores.rerun.ite h.onPod.event.rollLinked
  · exact h.event.rollLinked
  · exact h.event.rollLinked

theorem State.Canonical.rollback {s : State} (h : s.Canonical) {i u} : (s.rollback i u).Canonical := by
  unfold State.rollback
  split
  · exact h.rollbackOf
  · exact h

theorem Core.Canonical.entered {c : Core} (h : c.Canonical) {t e} : (c.entered t e).Canonical := h.rest

theorem State.Canonical.takeTrap {s : State} (h : s.Canonical) {t e} : (s.takeTrap t e).Canonical := by
  unfold State.takeTrap
  dsimp only
  split
  · split
    · exact h.endLaunch
    · exact h
  · exact h.setCore h.core.entered

theorem Core.Canonical.returned {c : Core} (h : c.Canonical) {dly} : (c.returned dly).Canonical := h.rest

/-! ## Slots -/

theorem Core.Canonical.linkFailed {c : Core} (h : c.Canonical) {m} : (c.linkFailed m).Canonical := h.rest.ite h.rest

theorem State.Canonical.linkFails {s : State} (h : s.Canonical) {r m} : Holds State.Canonical (s.linkFails r m) := by
  unfold State.linkFails
  split
  · refine .some ?_
    split
    · exact (h.on fun _ hc => hc.updSys.linkFailed).event.event
    · exact (h.on fun _ hc => hc.updSys.linkFailed).event
  · exact .none

theorem Core.Canonical.linkPassed {c : Core} (h : c.Canonical) {m} : (c.linkPassed m).Canonical := h.rest

theorem State.Canonical.sendMove {s : State} (h : s.Canonical) {c k} : Holds State.Canonical (s.sendMove c k) := by
  unfold State.sendMove
  dsimp only
  split
  · split
    · exact .none
    · split
      next _ _ e2 => exact .some (h.linkFails.some_of_eq e2)
      · exact .some ((h.onMember fun _ hc => hc.linkPassed.padWrite).on fun _ hc => hc.rest)
  · exact .none

theorem State.Canonical.slotsTo {s : State} (h : s.Canonical) {i keep n} : (s.slotsTo i keep n).Canonical := by
  induction n generalizing s with
  | zero => exact h
  | succ n ih =>
    unfold State.slotsTo
    split
    · split
      · split
        next _ _ e2 => exact ih (h.sendMove.some_of_eq e2)
        · exact h
      · exact h
    · split
      · exact h
      · split
        · dsimp only
          split
          next _ _ e2 => exact ih ((h.on fun _ hc => hc.atSlot).sendMove.some_of_eq e2)
          · exact h.on fun _ hc => hc.atSlot
        · split
          · exact ih (h.on fun _ hc => hc.land.atSlot)
          · exact h

/-! ## How an instruction issues -/

theorem Core.Canonical.atYield {c : Core} (h : c.Canonical) {yld} : (c.atYield yld).Canonical := h.rest.ite h

theorem State.Canonical.finish {s : State} (h : s.Canonical) {yld dly npc} :
    (s.finish yld dly npc).Canonical :=
  h.retire.upd fun _ hc => hc.atYield

theorem State.Canonical.halted {x : Halt} (hx : x.Canonical) {dly pc next} : (State.halted dly pc next x).Canonical := by
  unfold State.halted
  split
  · exact hx.takeTrap
  · exact hx.retire.takeTrap
  · exact hx.upd fun _ hc => hc.rest
  · exact hx.upd fun _ hc => hc.rest
  · exact hx

theorem State.Canonical.issue {s : State} (h : s.Canonical) {body} (hbody : ∀ t, t.Canonical → Run.Ends (·.1.Canonical) (body t))
    {holds yld dly len} :
    Out.Canonical (s.issue holds yld dly len body) := by
  unfold State.issue
  dsimp only
  split
  · exact h.finish
  · split
    next _ _ _ e => exact ((hbody s h).ok_of_eq e).finish
    next _ _ e => exact .halted ((hbody s h).error_of_eq e)

theorem State.Canonical.issue64 {s : State} (h : s.Canonical) {body} (hbody : ∀ t, t.Canonical → Run.Ends (·.1.Canonical) (body t)) {hdr} :
    Out.Canonical (s.issue64 hdr body) :=
  h.issue hbody

theorem State.Canonical.issue96 {s : State} (h : s.Canonical) {body} (hbody : ∀ t, t.Canonical → Run.Ends (·.1.Canonical) (body t)) {hdr} :
    Out.Canonical (s.issue96 hdr body) :=
  h.issue hbody

theorem Core.Canonical.bump1 {c : Core} (h : c.Canonical) {n inc} : (c.bump1 n inc).Canonical := h.setH

theorem Core.Canonical.bumps {c : Core} (h : c.Canonical) {rs is} : (Core.bumps rs is c).Canonical := by
  induction rs generalizing is c with
  | nil => exact h
  | cons r rs ih =>
    cases is with
    | nil => exact h
    | cons i is => exact ih h.bump1

theorem State.Canonical.issue128 {s : State} (h : s.Canonical) {body} (hbody : ∀ t, t.Canonical → Run.Ends (·.1.Canonical) (body t))
    {hdr ops} :
    Out.Canonical (s.issue128 hdr ops body) := by
  unfold State.issue128
  refine h.issue fun t ht => ?_
  dsimp only
  split
  next _ _ _ e => exact (((hbody t ht).ok_of_eq e).upd fun _ hc => hc.bumps).okFst
  next _ _ _ e => exact (((hbody t ht).error_of_eq e).upd fun _ hc => hc.bumps).after
  next _ _ _ e => exact (hbody t ht).error_of_eq e

theorem State.Canonical.done {s : State} (h : s.Canonical) : Run.Ends (·.1.Canonical) (done s) := h.okFst

theorem State.Canonical.raise {s : State} (h : s.Canonical) {α : Type} {p : α → Prop} {t} : Run.Ends p (raise t s) := h

theorem State.Canonical.need {s : State} (h : s.Canonical) {c t} : Run.Ends (fun _ => True) (need c t s) := by
  unfold Machine.need
  exact Ends.ite Ends.triv h.trap

theorem State.Canonical.slotted {s : State} (h : s.Canonical) {f} (hf : ∀ c, c.Canonical → Holds Core.Canonical (f c)) {keep} :
    Run.Ends State.Canonical (s.slotted keep f) := by
  unfold State.slotted
  split
  · exact h.okState
  · split
    · split
      next _ _ e1 => exact (h.setCore ((hf _ h.core).some_of_eq e1)).okState
      · exact h.stall
    · split
      next _ _ e => exact (h.slotsTo.of_eq e).okState
      next _ _ e => exact (h.slotsTo.of_eq e).gone
      next _ _ e => exact (h.slotsTo.of_eq e).stall

theorem State.Canonical.drained {s : State} (h : s.Canonical) : Run.Ends State.Canonical s.drained := h.slotted fun _ hc => hc.drainAll

theorem State.Canonical.roomed {s : State} (h : s.Canonical) : Run.Ends State.Canonical s.roomed := h.slotted fun _ hc => hc.drainOne

theorem State.Canonical.waitFor {s : State} (h : s.Canonical) {c w} : Run.Ends (fun _ => True) (waitFor c w s) := by
  unfold Machine.waitFor
  exact Ends.ite Ends.triv h.wait

/-! ## Access to global memory -/

theorem State.Canonical.ends {s : State} (h : s.Canonical) {α : Type} {p : α → Prop} {x : NoPage} : Run.Ends p (x.ends s) := by
  cases x with
  | trap t => exact h
  | away => exact h

theorem State.Canonical.walk {s : State} (h : s.Canonical) {i asid root va n m k} : (s.walk i asid root va n m k).1.Canonical := by
  induction m generalizing s k with
  | zero => exact h
  | succ m ih =>
    unfold State.walk
    dsimp only
    split
    · exact h
    next _ _ _ _ e1 => exact h.comes.some_of_eq e1
    · split
      · exact h.coherentRead
      · split
        · split
          · exact h.coherentRead
          · split
            · split
              · exact h.coherentRead
              · split
                next _ _ e4 => exact h.coherentRead.comes.some_of_eq e4
                · exact h.coherentRead.coherentWrite.tellHome.fst
            · split
              · exact h.coherentRead
              · split
                next _ _ e3 => exact h.coherentRead.comes.some_of_eq e3
                · exact h.coherentRead.coherentWrite.tellHome.fst
        · exact ih h.coherentRead

theorem State.Canonical.poisonLaunch {s : State} (h : s.Canonical) {seq g} : (s.poisonLaunch seq g).Canonical := by
  unfold State.poisonLaunch
  dsimp only
  split
  · exact h.event.rest.ite h.event
  · exact (h.event.rest.ite h.event).endLaunch

theorem State.Canonical.poisonEnds {s : State} (h : s.Canonical) {i g} : (s.poisonEnds i g).Canonical := h.poisonLaunch

theorem Core.Canonical.hits {c : Core} (h : c.Canonical) {zs} : (c.hits zs).Canonical := h.rest

theorem Core.Canonical.touch {c : Core} (h : c.Canonical) {zs} : (c.touch zs).Canonical := h.rest.hits

theorem State.Canonical.dropWalk {s : State} (h : s.Canonical) {d k} : (s.dropWalk d k).Canonical := h.setDie

theorem State.Canonical.endWalk {s : State} (h : s.Canonical) {d k} : (s.endWalk d k).Canonical := by
  unfold State.endWalk
  split
  · exact h
  · dsimp only
    split
    next _ _ e1 => exact h.walk.fst_of_eq e1
    next _ _ _ e2 => exact (h.walk.fst_of_eq e2).dropWalk.foldl fun _ _ hs2 => hs2.on fun _ hc => hc.rest
    next _ _ _ e1 => exact (h.walk.fst_of_eq e1).dropWalk.foldl fun _ _ hs2 => hs2.on fun _ hc => hc.rest
    next _ _ _ e1 => exact (h.walk.fst_of_eq e1).dropWalk.foldl fun _ _ hs2 => hs2.poisonEnds

theorem State.Canonical.walkersFor {s : State} (h : s.Canonical) {d k} : (s.walkersFor d k).Canonical := h.foldl fun _ _ hs1 => hs1.endWalk

theorem State.Canonical.seize {s : State} (h : s.Canonical) {i va} : (s.seize i va).Canonical := by
  unfold State.seize
  dsimp only
  split
  · exact h.walkersFor.setDie.endWalk.ite h.walkersFor
  · exact h.walkersFor

theorem State.Canonical.walkFor {s : State} (h : s.Canonical) {i n va} : (s.walkFor i n va).1.Canonical := by
  unfold State.walkFor
  dsimp only
  split
  next _ _ e => exact h.walk.fst_of_eq e
  next _ _ _ e => exact h.walk.fst_of_eq e
  next _ _ _ e => exact (h.walk.fst_of_eq e).poisonEnds
  next _ _ _ e => exact (h.walk.fst_of_eq e).on fun _ hc => hc.rest

theorem State.Canonical.translate {s : State} (h : s.Canonical) {i n va} : (s.translate i n va).1.Canonical := by
  unfold State.translate
  split
  · exact h
  · dsimp only
    split
    · split
      · exact h.seize.ite h
      · exact (h.seize.ite h).walkFor
    · split
      · split
        · exact h.seize
        · exact h.seize.walkFor
      · split
        · exact h
        · exact h.walkFor

theorem State.Canonical.translateFrom {s : State} (h : s.Canonical) {i n m k j} : (s.translateFrom i n m k j).1.Canonical := by
  induction m generalizing s k j with
  | zero => exact h
  | succ m ih =>
    unfold State.translateFrom
    split
    · exact h
    · split
      next _ _ _ e => exact h.translate.fst_of_eq e
      next _ _ _ _ e => exact ih (h.translate.fst_of_eq e)

theorem State.Canonical.translateAll {s : State} (h : s.Canonical) {i n va len} : (s.translateAll i n va len).1.Canonical := h.translateFrom

theorem State.Canonical.pieces {s : State} (h : s.Canonical) {i n va len} : Run.Ends (·.1.Canonical) (s.pieces i n va len) := by
  unfold State.pieces
  split
  next _ _ _ e => exact (h.translateAll.fst_of_eq e).okFst
  next _ _ _ _ e => exact (h.translateAll.fst_of_eq e).ends

theorem State.Canonical.enters {s : State} (h : s.Canonical) {i pa n hint} : Run.Ends State.Canonical (s.enters i pa n hint) := by
  unfold State.enters
  split
  · exact h.poisonEnds.gone
  · split
    next _ _ e1 => exact (h.comes.some_of_eq e1).stall
    · dsimp only
      split
      · exact h.l2Hold.okState
      · split
        · exact h.l2Hold.event.event.rollback.gone
        · exact (h.l2Hold.on fun _ hc => hc.rest).event.okState

theorem State.Canonical.entersAll {s : State} (h : s.Canonical) {i l} : Run.Ends State.Canonical (s.entersAll i l) := by
  induction l generalizing s with
  | nil => exact h.okState
  | cons a l ih =>
    unfold State.entersAll
    exact h.enters.bind fun _ hs1 => ih hs1

theorem State.Canonical.served1 {s : State} (h : s.Canonical) {i excl pa n gs} : (s.served1 i excl pa n gs).Canonical :=
  h.withdraw.ite (h.foldl fun _ _ hs1 => hs1.downgrade)

theorem State.Canonical.alone {s : State} (h : s.Canonical) {i excl pa n} : Run.Ends (fun _ => True) (s.alone i excl pa n) := by
  unfold State.alone
  cases excl with
  | false => trivial
  | true =>
    simp only [if_true]
    split
    next t e => exact h.comes.some_of_eq e
    · trivial

theorem State.Canonical.fill {s : State} (h : s.Canonical) {i excl cls stream pa n} :
    Run.Ends State.Canonical (s.fill i excl cls stream pa n) := by
  unfold State.fill
  dsimp only
  split
  · exact h.stall
  · exact h.alone.bind fun _ _ => h.entersAll.bind fun _ hs1 => (hs1.served1.onL1q.onL1q.ite hs1.served1.onL1q).okState

theorem State.Canonical.fillAll {s : State} (h : s.Canonical) {i excl cls stream l} :
    Run.Ends State.Canonical (s.fillAll i excl cls stream l) := by
  induction l generalizing s with
  | nil => exact h.okState
  | cons a l ih =>
    unfold State.fillAll
    exact h.fill.bind fun _ hs1 => ih hs1

theorem Ends.countLater {α : Type} {p : α → Prop} {i} {x : Run α} (hx : Run.Ends p x) : Run.Ends p (State.countLater i x) := by
  unfold State.countLater
  split
  · exact State.Canonical.on hx fun _ hc => hc.rest
  · exact hx

theorem State.Canonical.loadBytes {s : State} (h : s.Canonical) {i nd va n} : Run.Ends (·.1.Canonical) (s.loadBytes i nd va n) := by
  unfold State.loadBytes
  dsimp only
  split
  · exact h.translateAll.stall
  · refine (Ends.countLater (h.translateAll.on fun _ hc => hc.touch).fillAll).bind fun _ hs1 => ?_
    split
    · exact hs1.ends
    · exact hs1.okFst

theorem State.Canonical.pinPiece {s : State} (h : s.Canonical) {i x cls z} : Run.Ends State.Canonical (s.pinPiece i x cls z) := by
  unfold State.pinPiece
  dsimp only
  split
  · exact h.stall
  · exact h.alone.bind fun _ _ => h.entersAll.bind fun _ hs1 => hs1.served1.onL1q.okState

theorem State.Canonical.storePieces {s : State} (h : s.Canonical) {i hint l vs} : (s.storePieces i hint l vs).Canonical := by
  induction l generalizing vs s with
  | nil => exact h
  | cons a l ih =>
    unfold State.storePieces
    exact ih (h.foldl fun _ _ hs1 => hs1.onL1q.ite (hs1.on fun _ hc => hc.rest))

theorem State.Canonical.storeHeld {s : State} (h : s.Canonical) {i ps bs hint} : (s.storeHeld i ps bs hint).Canonical :=
  (h.on fun _ hc => hc.touch).storePieces

theorem State.Canonical.seenAs {s : State} (h : s.Canonical) {i pa bs} : (s.seenAs i pa bs).Canonical := h.ite h.updSquad

theorem State.Canonical.storeNow {s : State} (h : s.Canonical) {i l vs} : (s.storeNow i l vs).Canonical := by
  induction l generalizing vs s with
  | nil => exact h
  | cons a l ih =>
    unfold State.storeNow
    exact ih h.coherentWrite.tellHome.kept.seenAs

theorem State.Canonical.sysWaits {s : State} (h : s.Canonical) {ps} : Run.Ends (fun _ => True) (s.sysWaits ps) := by
  unfold State.sysWaits
  exact Ends.ite (h.foldl fun _ _ hs1 => hs1.askOthers).stall Ends.triv

theorem State.Canonical.storeBytes {s : State} (h : s.Canonical) {va bs} : Run.Ends State.Canonical (s.storeBytes va bs) := by
  unfold State.storeBytes
  refine h.pieces.bind fun ⟨_, _⟩ hs => ?_
  dsimp only
  split
  · exact hs.trap
  · split
    · exact hs.wait
    · split
      · exact Ends.ite hs.stall (hs.sysWaits.bind fun _ _ => hs.storeNow.okState)
      · exact Ends.ite hs.storeHeld.okState (Ends.ite hs.trap (hs.upd fun _ hc => hc.rest).okState)

theorem State.Canonical.readPlate {s : State} (h : s.Canonical) {va} : Run.Ends (·.1.Canonical) (s.readPlate va) := by
  unfold State.readPlate
  refine h.need.bind fun _ _ => h.pieces.bind fun ⟨_, _⟩ hs => ?_
  dsimp only
  split
  · exact hs.okState.bind fun _ hs1 => (hs1.upd fun _ hc => hc.rest).okFst
  · exact hs.enters.bind fun _ hs1 => (hs1.upd fun _ hc => hc.rest).okFst

theorem State.Canonical.atomicStep {s : State} (h : s.Canonical) {i sc pa n f} : Run.Ends (·.1.Canonical) (s.atomicStep i sc pa n f) := by
  unfold State.atomicStep
  dsimp only
  split
  · refine (Ends.countLater (h.on fun _ hc => hc.touch).fill).bind fun _ hs1 => ?_
    split
    · exact hs1.onL1.okFst
    · refine State.Canonical.okFst ?_
      refine .on ?_ fun _ hc => hc.rest
      refine .seenAs ?_
      split
      · exact hs1.onL1
      · exact hs1.onL1.setBytes.kept.tellHome
  · refine (h.alone.bind fun _ _ => h.enters.bind fun _ hs1 => hs1.withdraw.okState).bind fun _ hs1 => ?_
    split
    · exact hs1.okFst
    · refine State.Canonical.okFst ?_
      refine .seenAs ?_
      split
      · exact hs1
      · exact hs1.setBytes.kept

/-! ## Scalar instructions -/

theorem Core.Canonical.glog {c : Core} (h : c.Canonical) {op} : (c.glog op).Canonical := by
  unfold Core.glog
  split
  · exact h.setG
  · exact h.setG
  · exact h.setG
  · exact h.setG
  · exact h.setG
  · exact h.setG
  · exact h.setG
  · exact h.setG
  · exact h.setS
  · exact h.updCtx

theorem State.Canonical.pure64 {s : State} (h : s.Canonical) {f} (hf : ∀ c, c.Canonical → (f c).Canonical) {hdr} :
    Out.Canonical (s.pure64 hdr f) :=
  h.issue64 fun _ ht => (ht.upd hf).done

theorem State.Canonical.alu3 {s : State} (h : s.Canonical) {hdr a b c f} :
    Out.Canonical (s.alu3 hdr a b c f) :=
  h.pure64 fun _ hc => hc.setS

theorem State.Canonical.aluI {s : State} (h : s.Canonical) {hdr a b imm f} :
    Out.Canonical (s.aluI hdr a b imm f) :=
  h.pure64 fun _ hc => hc.setS

theorem State.Canonical.alu2 {s : State} (h : s.Canonical) {hdr a b f} : Out.Canonical (s.alu2 hdr a b f) := h.pure64 fun _ hc => hc.setS

theorem State.Canonical.execAdd {s : State} (h : s.Canonical) {hdr a b c} : Out.Canonical (execAdd hdr a b c s) := h.alu3

theorem State.Canonical.execSub {s : State} (h : s.Canonical) {hdr a b c} : Out.Canonical (execSub hdr a b c s) := h.alu3

theorem State.Canonical.execAnd {s : State} (h : s.Canonical) {hdr a b c} : Out.Canonical (execAnd hdr a b c s) := h.alu3

theorem State.Canonical.execOr {s : State} (h : s.Canonical) {hdr a b c} : Out.Canonical (execOr hdr a b c s) := h.alu3

theorem State.Canonical.execXor {s : State} (h : s.Canonical) {hdr a b c} : Out.Canonical (execXor hdr a b c s) := h.alu3

theorem State.Canonical.execAndn {s : State} (h : s.Canonical) {hdr a b c} : Out.Canonical (execAndn hdr a b c s) := h.alu3

theorem State.Canonical.execShl {s : State} (h : s.Canonical) {hdr a b c} : Out.Canonical (execShl hdr a b c s) := h.alu3

theorem State.Canonical.execShr {s : State} (h : s.Canonical) {hdr a b c} : Out.Canonical (execShr hdr a b c s) := h.alu3

theorem State.Canonical.execSar {s : State} (h : s.Canonical) {hdr a b c} : Out.Canonical (execSar hdr a b c s) := h.alu3

theorem State.Canonical.execRot {s : State} (h : s.Canonical) {hdr a b c} : Out.Canonical (execRot hdr a b c s) := h.alu3

theorem State.Canonical.execMin {s : State} (h : s.Canonical) {hdr a b c} : Out.Canonical (execMin hdr a b c s) := h.alu3

theorem State.Canonical.execMax {s : State} (h : s.Canonical) {hdr a b c} : Out.Canonical (execMax hdr a b c s) := h.alu3

theorem State.Canonical.execMinu {s : State} (h : s.Canonical) {hdr a b c} : Out.Canonical (execMinu hdr a b c s) := h.alu3

theorem State.Canonical.execMaxu {s : State} (h : s.Canonical) {hdr a b c} : Out.Canonical (execMaxu hdr a b c s) := h.alu3

theorem State.Canonical.execAddImm {s : State} (h : s.Canonical) {hdr a b imm} : Out.Canonical (execAddImm hdr a b imm s) := h.aluI

theorem State.Canonical.execSubImm {s : State} (h : s.Canonical) {hdr a b imm} : Out.Canonical (execSubImm hdr a b imm s) := h.aluI

theorem State.Canonical.execAndImm {s : State} (h : s.Canonical) {hdr a b imm} : Out.Canonical (execAndImm hdr a b imm s) := h.aluI

theorem State.Canonical.execOrImm {s : State} (h : s.Canonical) {hdr a b imm} : Out.Canonical (execOrImm hdr a b imm s) := h.aluI

theorem State.Canonical.execXorImm {s : State} (h : s.Canonical) {hdr a b imm} : Out.Canonical (execXorImm hdr a b imm s) := h.aluI

theorem State.Canonical.execAndnImm {s : State} (h : s.Canonical) {hdr a b imm} : Out.Canonical (execAndnImm hdr a b imm s) := h.aluI

theorem State.Canonical.execShlImm {s : State} (h : s.Canonical) {hdr a b n} : Out.Canonical (execShlImm hdr a b n s) := h.aluI

theorem State.Canonical.execShrImm {s : State} (h : s.Canonical) {hdr a b n} : Out.Canonical (execShrImm hdr a b n s) := h.aluI

theorem State.Canonical.execSarImm {s : State} (h : s.Canonical) {hdr a b n} : Out.Canonical (execSarImm hdr a b n s) := h.aluI

theorem State.Canonical.execRotImm {s : State} (h : s.Canonical) {hdr a b n} : Out.Canonical (execRotImm hdr a b n s) := h.aluI

theorem State.Canonical.execMinImm {s : State} (h : s.Canonical) {hdr a b imm} : Out.Canonical (execMinImm hdr a b imm s) := h.aluI

theorem State.Canonical.execMaxImm {s : State} (h : s.Canonical) {hdr a b imm} : Out.Canonical (execMaxImm hdr a b imm s) := h.aluI

theorem State.Canonical.execMinuImm {s : State} (h : s.Canonical) {hdr a b imm} : Out.Canonical (execMinuImm hdr a b imm s) := h.aluI

theorem State.Canonical.execMaxuImm {s : State} (h : s.Canonical) {hdr a b imm} : Out.Canonical (execMaxuImm hdr a b imm s) := h.aluI

theorem State.Canonical.execMul {s : State} (h : s.Canonical) {hdr a b c} : Out.Canonical (execMul hdr a b c s) := h.alu3

theorem State.Canonical.execMulh {s : State} (h : s.Canonical) {hdr a b c} : Out.Canonical (execMulh hdr a b c s) := h.alu3

theorem State.Canonical.execMulhu {s : State} (h : s.Canonical) {hdr a b c} : Out.Canonical (execMulhu hdr a b c s) := h.alu3

theorem State.Canonical.execDiv {s : State} (h : s.Canonical) {hdr a b c} : Out.Canonical (execDiv hdr a b c s) := h.alu3

theorem State.Canonical.execDivu {s : State} (h : s.Canonical) {hdr a b c} : Out.Canonical (execDivu hdr a b c s) := h.alu3

theorem State.Canonical.execRem {s : State} (h : s.Canonical) {hdr a b c} : Out.Canonical (execRem hdr a b c s) := h.alu3

theorem State.Canonical.execRemu {s : State} (h : s.Canonical) {hdr a b c} : Out.Canonical (execRemu hdr a b c s) := h.alu3

theorem State.Canonical.execClz {s : State} (h : s.Canonical) {hdr a b} : Out.Canonical (execClz hdr a b s) := h.alu2

theorem State.Canonical.execCtz {s : State} (h : s.Canonical) {hdr a b} : Out.Canonical (execCtz hdr a b s) := h.alu2

theorem State.Canonical.execPopc {s : State} (h : s.Canonical) {hdr a b} : Out.Canonical (execPopc hdr a b s) := h.alu2

theorem State.Canonical.execBrev {s : State} (h : s.Canonical) {hdr a b} : Out.Canonical (execBrev hdr a b s) := h.alu2

theorem State.Canonical.execBswap {s : State} (h : s.Canonical) {hdr a b} : Out.Canonical (execBswap hdr a b s) := h.alu2

theorem State.Canonical.execMix {s : State} (h : s.Canonical) {hdr a b c} : Out.Canonical (execMix hdr a b c s) := h.alu3

theorem State.Canonical.execBfx {s : State} (h : s.Canonical) {hdr a b sx lsb widthM1} :
    Out.Canonical (execBfx hdr a b sx lsb widthM1 s) :=
  h.alu2

theorem State.Canonical.execBfi {s : State} (h : s.Canonical) {hdr a b lsb widthM1} : Out.Canonical (execBfi hdr a b lsb widthM1 s) :=
  h.pure64 fun _ hc => hc.setS

theorem State.Canonical.execCmp {s : State} (h : s.Canonical) {hdr gd b c cond w} : Out.Canonical (execCmp hdr gd b c cond w s) :=
  h.pure64 fun _ hc => hc.setG

theorem State.Canonical.execCmpi {s : State} (h : s.Canonical) {hdr gd b imm cond w} : Out.Canonical (execCmpi hdr gd b imm cond w s) :=
  h.pure64 fun _ hc => hc.setG

theorem State.Canonical.execSel {s : State} (h : s.Canonical) {hdr a b c gs inv} : Out.Canonical (execSel hdr a b c gs inv s) :=
  h.pure64 fun _ hc => hc.setS

theorem State.Canonical.execGlog {s : State} (h : s.Canonical) {hdr op} : Out.Canonical (execGlog hdr op s) := h.pure64 fun _ hc => hc.glog

theorem State.Canonical.execMovi {s : State} (h : s.Canonical) {hdr a imm} :
    Out.Canonical (execMovi hdr a imm s) :=
  h.pure64 fun _ hc => hc.setS

theorem State.Canonical.execMovw {s : State} (h : s.Canonical) {hdr a imm} : Out.Canonical (execMovw hdr a imm s) :=
  h.issue96 fun _ ht => (ht.upd fun _ hc => hc.setS).done

theorem State.Canonical.execNop {s : State} (h : s.Canonical) {dly} : Out.Canonical (execNop dly s) := h.issue fun _ ht => ht.done

/-! ## Scalar floating-point instructions -/

theorem State.Canonical.floatEnd {wr} (hwr : ∀ c, c.Canonical → (wr c).Canonical) {s : State} (h : s.Canonical) {f} :
    Run.Ends (·.1.Canonical) (s.floatEnd f wr) := by
  unfold State.floatEnd
  exact Ends.ite (h.upd fun _ hc => hc.raise).trap (h.upd fun _ hc => hwr _ hc.raise).okFst

theorem State.Canonical.float3 {s : State} (h : s.Canonical) {hdr a b c f op} : Out.Canonical (s.float3 hdr a b c f op) :=
  h.issue64 fun _ ht => State.Canonical.floatEnd (fun _ hc => hc.setS) ht

theorem State.Canonical.execFadd {s : State} (h : s.Canonical) {hdr a b c f rm} : Out.Canonical (execFadd hdr a b c f rm s) := h.float3

theorem State.Canonical.execFsub {s : State} (h : s.Canonical) {hdr a b c f rm} : Out.Canonical (execFsub hdr a b c f rm s) := h.float3

theorem State.Canonical.execFmul {s : State} (h : s.Canonical) {hdr a b c f rm} : Out.Canonical (execFmul hdr a b c f rm s) := h.float3

theorem State.Canonical.execFdiv {s : State} (h : s.Canonical) {hdr a b c f rm} : Out.Canonical (execFdiv hdr a b c f rm s) := h.float3

theorem State.Canonical.execFsqrt {s : State} (h : s.Canonical) {hdr a b f rm} : Out.Canonical (execFsqrt hdr a b f rm s) := h.float3

theorem State.Canonical.execFmin {s : State} (h : s.Canonical) {hdr a b c f x} : Out.Canonical (execFmin hdr a b c f x s) := h.float3

theorem State.Canonical.execFmax {s : State} (h : s.Canonical) {hdr a b c f x} : Out.Canonical (execFmax hdr a b c f x s) := h.float3

theorem State.Canonical.execFfma {s : State} (h : s.Canonical) {hdr a b c k f rm} : Out.Canonical (execFfma hdr a b c k f rm s) :=
  h.issue64 fun _ ht => State.Canonical.floatEnd (fun _ hc => hc.setS) ht

theorem State.Canonical.execFcmp {s : State} (h : s.Canonical) {hdr gd b c cond f sig} : Out.Canonical (execFcmp hdr gd b c cond f sig s) :=
  h.issue64 fun _ ht => State.Canonical.floatEnd (fun _ hc => hc.setG) ht

theorem State.Canonical.execFcvt {s : State} (h : s.Canonical) {hdr a b dst src rm} : Out.Canonical (execFcvt hdr a b dst src rm s) :=
  h.issue64 fun _ ht => State.Canonical.floatEnd (fun _ hc => hc.setS) ht

theorem State.Canonical.execFclass {s : State} (h : s.Canonical) {hdr a b f} : Out.Canonical (execFclass hdr a b f s) :=
  h.issue64 fun _ ht => (ht.upd fun _ hc => hc.setS).done

/-! ## System registers -/

theorem Core.Canonical.sysWrite {c : Core} (h : c.Canonical) {r v} : (c.sysWrite r v).Canonical := by
  unfold Core.sysWrite
  split
  · exact h.updCtx
  · exact h
  · exact h
  · exact h
  · exact h.ite h.updCtx
  · exact h.updSys
  · exact h.updSys
  · exact h.updSys
  · exact h.updSys
  · exact h.updSys
  · exact h.updSys
  · exact h.updSys
  · exact h.updSys
  · exact h.updSys
  · exact h.updSys

theorem State.Canonical.execIdr {s : State} (h : s.Canonical) {hdr a r} : Out.Canonical (execIdr hdr a r s) :=
  h.issue64 fun _ ht => (ht.upd fun _ hc => hc.setS).done

theorem State.Canonical.execSrr {s : State} (h : s.Canonical) {hdr a r} : Out.Canonical (execSrr hdr a r s) := by
  unfold Machine.execSrr
  refine h.issue64 fun _ ht => ht.need.bind fun _ _ => ?_
  extract_lets +onlyGivenNames k
  have hk : ∀ u, u.Canonical → Run.Ends (·.1.Canonical) (k u) := fun _ hu => (hu.upd fun _ hc => hc.setS).done
  split
  · exact ht.drained.bind hk
  · exact ht.okState.bind hk

theorem State.Canonical.execSrw {s : State} (h : s.Canonical) {hdr r b} : Out.Canonical (execSrw hdr r b s) := by
  unfold Machine.execSrw
  refine h.issue64 fun _ ht => ht.need.bind fun _ _ => ?_
  extract_lets +onlyGivenNames k
  have hk : ∀ u, u.Canonical → Run.Ends (·.1.Canonical) (k u) := fun _ hu => (hu.upd fun _ hc => hc.sysWrite).done
  split
  · exact ht.drained.bind hk
  · exact ht.okState.bind hk

/-! ## Control transfer, traps, chains -/

theorem State.Canonical.redirected {s : State} (h : s.Canonical) : s.redirected.Canonical := h.upd fun _ hc => hc.updSys

theorem State.Canonical.jump64 {s : State} (h : s.Canonical) {f} (hf : ∀ c, c.Canonical → (f c).Canonical) {hdr target} :
    Out.Canonical (s.jump64 hdr target f) :=
  h.issue64 fun _ ht => (ht.upd hf).redirected.okFst

theorem State.Canonical.execBr {s : State} (h : s.Canonical) {hdr imm} : Out.Canonical (execBr hdr imm s) := h.jump64 fun _ hc => hc

theorem State.Canonical.execBrl {s : State} (h : s.Canonical) {hdr imm} :
    Out.Canonical (execBrl hdr imm s) :=
  h.issue96 fun _ ht => ht.redirected.okFst

theorem State.Canonical.execCall {s : State} (h : s.Canonical) {hdr a imm} :
    Out.Canonical (execCall hdr a imm s) :=
  h.jump64 fun _ hc => hc.setS

theorem State.Canonical.execCalll {s : State} (h : s.Canonical) {hdr a imm} : Out.Canonical (execCalll hdr a imm s) :=
  h.issue96 fun _ ht => (ht.upd fun _ hc => hc.setS).redirected.okFst

theorem State.Canonical.execRet {s : State} (h : s.Canonical) {hdr b} : Out.Canonical (execRet hdr b s) := h.jump64 fun _ hc => hc

theorem State.Canonical.execJmpr {s : State} (h : s.Canonical) {hdr a b imm} :
    Out.Canonical (execJmpr hdr a b imm s) :=
  h.jump64 fun _ hc => hc.setS

theorem Core.Canonical.enterLoop {c : Core} (h : c.Canonical) {n stop} : (c.enterLoop n stop).Canonical := h.updCtx

theorem State.Canonical.execLoop {s : State} (h : s.Canonical) {hdr b imm} : Out.Canonical (execLoop hdr b imm s) := by
  unfold Machine.execLoop
  refine h.issue64 fun _ ht => ht.need.bind fun _ _ => ?_
  dsimp only
  split
  · exact ht.redirected.okFst
  · exact ht.need.bind fun _ _ => (ht.upd fun _ hc => hc.enterLoop).done

theorem Core.Canonical.endLoop {c : Core} (h : c.Canonical) : c.endLoop.Canonical := h.updCtx.ite h.updCtx

theorem State.Canonical.execEndl {s : State} (h : s.Canonical) {hdr} : Out.Canonical (execEndl hdr s) :=
  h.issue64 fun _ ht => ht.need.bind fun _ _ => ht.need.bind fun _ _ => (ht.upd fun _ hc => hc.endLoop).okFst

theorem State.Canonical.execBrk {s : State} (h : s.Canonical) {hdr code} :
    Out.Canonical (execBrk hdr code s) :=
  h.issue64 fun _ ht => ht.trap

theorem State.Canonical.execTrap {s : State} (h : s.Canonical) {hdr code} :
    Out.Canonical (execTrap hdr code s) :=
  h.issue64 fun _ ht => ht.after

theorem State.Canonical.execSyscall {s : State} (h : s.Canonical) {hdr code} :
    Out.Canonical (execSyscall hdr code s) :=
  h.issue64 fun _ ht => ht.after

theorem State.Canonical.returnOn {s : State} {c : Core} (hc : c.Canonical) {i dly} : (s.returnOn i dly c).Canonical := by
  unfold State.returnOn
  dsimp only
  split
  · exact hc.returned.rest
  · exact hc.returned

theorem State.Canonical.execEret {s : State} (h : s.Canonical) {hdr} : Out.Canonical (execEret hdr s) :=
  h.issue64 fun _ ht => ht.need.bind fun _ _ => Ends.ite ht.endLaunch.gone (ht.upd fun _ hc => State.Canonical.returnOn hc).okFst

theorem State.Canonical.execDetach {s : State} (h : s.Canonical) {hdr} : Out.Canonical (execDetach hdr s) :=
  h.issue64 fun _ ht => (ht.upd fun _ hc => hc.rest).done

theorem Core.Canonical.reslave {c : Core} (h : c.Canonical) {dly stall} : (c.reslave dly stall).Canonical := h.retire.rest

theorem State.Canonical.execJoin {s : State} (h : s.Canonical) {hdr} : Out.Canonical (execJoin hdr s) := by
  unfold Machine.execJoin
  refine h.issue64 fun _ ht => ht.drained.bind fun _ hs1 => ?_
  dsimp only
  split
  · exact hs1.done
  · split
    · exact hs1.waitFor.bind fun _ _ => (hs1.foldl fun _ _ hs2 => hs2.on fun _ hc => hc.reslave).done
    · exact Ends.ite hs1.done (hs1.need.bind fun _ _ => hs1.wait)

theorem State.Canonical.execYield {s : State} (h : s.Canonical) {hdr} : Out.Canonical (execYield hdr s) := h.issue fun _ ht => ht.done

/-! ## Loads, stores, extents, fences, atomics -/

theorem State.Canonical.exch {s : State} (h : s.Canonical) : s.exch.Canonical := h.upd fun _ hc => hc.rest

theorem State.Canonical.load {s : State} (h : s.Canonical) {a va n sx} : Run.Ends (·.1.Canonical) (s.load a va n sx) := by
  unfold State.load
  exact Ends.ite h.wait (h.loadBytes.bind fun ⟨_, _⟩ hs => (hs.upd fun _ hc => hc.setS).done)

theorem State.Canonical.execLd {s : State} (h : s.Canonical) {hdr a b imm size sx} : Out.Canonical (execLd hdr a b imm size sx s) :=
  h.issue64 fun _ ht => ht.exch.load

theorem State.Canonical.execLdx {s : State} (h : s.Canonical) {hdr a b c imm size sx} : Out.Canonical (execLdx hdr a b c imm size sx s) :=
  h.issue96 fun _ ht => ht.exch.load

theorem State.Canonical.execSt {s : State} (h : s.Canonical) {hdr a b imm size} : Out.Canonical (execSt hdr a b imm size s) :=
  h.issue64 fun _ ht => ht.exch.storeBytes.bind fun _ hs1 => hs1.done

theorem State.Canonical.extentZones {s : State} (h : s.Canonical) {va n} : Run.Ends (·.1.Canonical) (s.extentZones va n) := by
  unfold State.extentZones
  exact h.need.bind fun _ _ => Ends.ite h.okFst (h.pieces.bind fun ⟨_, _⟩ hs => Ends.ite hs.stall hs.okFst)

theorem State.Canonical.eachZone {s : State} (h : s.Canonical) {f zs} : (s.eachZone f zs).Canonical :=
  h.ite ((h.upd fun _ hc => hc.touch).foldl fun _ _ hs1 => hs1.onL1)

theorem State.Canonical.execRflush {s : State} (h : s.Canonical) {hdr b imm c m} : Out.Canonical (execRflush hdr b imm c m s) :=
  h.issue64 fun _ ht => ht.exch.extentZones.bind fun ⟨_, _⟩ hs => (hs.foldl fun _ _ hs1 => hs1.settleWb).eachZone.done

theorem State.Canonical.execRdrop {s : State} (h : s.Canonical) {hdr b imm c} : Out.Canonical (execRdrop hdr b imm c s) :=
  h.issue64 fun _ ht => ht.exch.extentZones.bind fun ⟨_, _⟩ hs => hs.eachZone.done

theorem State.Canonical.execRunpin {s : State} (h : s.Canonical) {hdr b imm c} : Out.Canonical (execRunpin hdr b imm c s) :=
  h.issue64 fun _ ht => ht.exch.extentZones.bind fun ⟨_, _⟩ hs => hs.eachZone.done

theorem State.Canonical.execPref {s : State} (h : s.Canonical) {hdr b imm c x cls} : Out.Canonical (execPref hdr b imm c x cls s) :=
  h.issue64 fun _ ht => (ht.exch.ite (ht.exch.upd fun _ hc => hc.touch.rest)).done

theorem State.Canonical.execRpin {s : State} (h : s.Canonical) {hdr gd b imm c x cls} :
    Out.Canonical (execRpin hdr gd b imm c x cls s) := by
  unfold Machine.execRpin
  refine h.issue64 fun _ ht => ht.exch.extentZones.bind fun ⟨_, _⟩ hs => ?_
  dsimp only
  split
  · exact (hs.upd fun _ hc => hc.setG).done
  · split
    · exact (hs.upd fun _ hc => hc.setG).done
    · exact (Ends.countLater (Ends.foldlM (hs.upd fun _ hc => hc.touch) fun _ _ hs1 => hs1.pinPiece)).bind fun _ hs1 =>
        (hs1.upd fun _ hc => hc.setG).done

theorem State.Canonical.execFence {s : State} (h : s.Canonical) {hdr scope} : Out.Canonical (execFence hdr scope s) :=
  h.issue64 fun _ ht => Ends.ite ht.done ht.stall

theorem State.Canonical.groupOf {s : State} (h : s.Canonical) {g kinds member} : Run.Ends (fun _ => True) (s.groupOf g kinds member) := by
  unfold State.groupOf
  split
  · exact h.trap
  · exact Ends.ite Ends.triv h.trap

theorem State.Canonical.execIfence {s : State} (h : s.Canonical) {hdr b scope} : Out.Canonical (execIfence hdr b scope s) := by
  unfold Machine.execIfence
  refine h.issue64 fun _ ht => ?_
  dsimp only
  split
  · exact (ht.exch.upd fun _ hc => hc.rest).done
  · exact ht.exch.groupOf.bind fun _ _ => (ht.exch.foldl fun _ _ hs1 => hs1.on fun _ hc => hc.rest).done

theorem State.Canonical.execPfence {s : State} (h : s.Canonical) {hdr} : Out.Canonical (execPfence hdr s) :=
  h.issue64 fun _ ht => (ht.upd fun _ hc => hc.rest).done

theorem State.Canonical.recorded {s : State} (h : s.Canonical) {r} : Run.Ends (fun _ => True) (s.recorded r) := by
  unfold State.recorded
  dsimp only
  split
  · exact Ends.triv
  · exact Ends.ite Ends.triv h.endLaunch.gone

theorem Core.Canonical.refused {c : Core} (h : c.Canonical) {addr} : (c.refused addr).Canonical := h.rest

theorem State.Canonical.sendStep {s : State} (h : s.Canonical) {pa n msg} : (s.sendStep pa n msg).Canonical :=
  h.fetchFar.ite (h.noted.upd fun _ hc => hc.rest).tellHome

/-- The value that stood at the home is written first, then what the step makes of it. -/
theorem State.Canonical.farDone {s : State} (h : s.Canonical) {pa n v f} : (s.farDone pa n v f).1.Canonical := by
  have h1 : ∀ {t : State} (bs : List Byte), t.Canonical → ({ t with mem := t.mem.write pa bs } : State).Canonical :=
    fun bs ht => ht.withMem (Mem.wf_write pa bs ht.mem_wf)
  unfold State.farDone
  dsimp only
  split
  · refine .seenAs ?_
    split
    · exact (h1 _ (h1 _ h)).kept
    · exact h1 _ h
  · split
    · exact (h1 _ (h1 _ h)).kept
    · exact h1 _ h

theorem State.Canonical.farAtomic {s : State} (h : s.Canonical) {va pa n msg f} : Run.Ends (·.1.Canonical) (s.farAtomic va pa n msg f) := by
  unfold State.farAtomic
  dsimp only
  split
  · exact h.sendStep.stall
  · exact h.stall
  · exact (h.upd fun _ hc => hc.rest).farDone
  · exact ((h.upd fun _ hc => hc.rest).upd fun _ hc => hc.refused).okFst
  · exact (h.upd fun _ hc => hc.rest).poisonEnds.gone

theorem State.Canonical.atomic {s : State} (h : s.Canonical) {va n scope code v1 v2 msg f} :
    Run.Ends (·.1.Canonical) (s.atomic va n scope code v1 v2 msg f) := by
  unfold State.atomic
  refine h.need.bind fun _ _ => h.need.bind fun _ _ => h.pieces.bind fun ⟨_, _⟩ hs => ?_
  dsimp only
  split
  · exact hs.trap
  · split
    · exact hs.wait
    · split
      · exact hs.stall
      · refine hs.recorded.bind fun _ _ => ?_
        split
        · exact (hs.upd fun _ hc => hc.rest).okFst
        · split
          · split
            · exact hs.farAtomic.bind fun ⟨_, _⟩ hs1 => (hs1.upd fun _ hc => hc.rest).okFst
            · exact hs.atomicStep.bind fun ⟨_, _⟩ hs1 => (hs1.upd fun _ hc => hc.rest).okFst
          · split
            · exact hs.farAtomic.bind fun ⟨_, _⟩ hs1 => (hs1.upd fun _ hc => hc.rest).okFst
            · exact hs.atomicStep.bind fun ⟨_, _⟩ hs1 => (hs1.upd fun _ hc => hc.rest).okFst

theorem State.Canonical.execAmo {s : State} (h : s.Canonical) {hdr a b c op dbl scope} : Out.Canonical (execAmo hdr a b c op dbl scope s) :=
  h.issue64 fun _ ht => ht.exch.atomic.bind fun ⟨_, _⟩ hs => (hs.upd fun _ hc => hc.raise.setS).done

theorem State.Canonical.execCas {s : State} (h : s.Canonical) {hdr a b c dbl scope} : Out.Canonical (execCas hdr a b c dbl scope s) :=
  h.issue64 fun _ ht => ht.exch.atomic.bind fun ⟨_, _⟩ hs => (hs.upd fun _ hc => hc.setS).done

/-! ## Handles, plates, tiles -/

theorem State.Canonical.execHld {s : State} (h : s.Canonical) {hdr a b imm} : Out.Canonical (execHld hdr a b imm s) := by
  unfold Machine.execHld
  refine h.issue96 fun _ ht => ht.exch.readPlate.bind fun ⟨_, _⟩ hs => ?_
  dsimp only
  split
  · exact hs.raise
  · exact (hs.upd fun _ hc => hc.setH).done

theorem State.Canonical.execHst {s : State} (h : s.Canonical) {hdr a b imm} : Out.Canonical (execHst hdr a b imm s) :=
  h.issue96 fun _ ht => ht.exch.need.bind fun _ _ => ht.exch.pieces.bind fun ⟨_, _⟩ hs => hs.storeBytes.bind fun _ hs1 => hs1.done

theorem State.Canonical.execHview {s : State} (h : s.Canonical) {hdr a b c dim ext} : Out.Canonical (execHview hdr a b c dim ext s) :=
  h.issue96 fun _ ht => ht.need.bind fun _ _ => ht.need.bind fun _ _ => ht.need.bind fun _ _ => (ht.upd fun _ hc => hc.setH).done

theorem State.Canonical.execHget {s : State} (h : s.Canonical) {hdr a b f} : Out.Canonical (execHget hdr a b f s) :=
  h.issue64 fun _ ht => (ht.upd fun _ hc => hc.setS).done

theorem State.Canonical.execHset {s : State} (h : s.Canonical) {hdr a b f} : Out.Canonical (execHset hdr a b f s) :=
  h.issue64 fun _ ht => ht.need.bind fun _ _ => ht.need.bind fun _ _ => (ht.upd fun _ hc => hc.setH).done

theorem State.Canonical.execHmov {s : State} (h : s.Canonical) {hdr a b} : Out.Canonical (execHmov hdr a b s) :=
  h.issue64 fun _ ht => (ht.upd fun _ hc => hc.setH).done

theorem Core.Canonical.setTile {c : Core} (h : c.Canonical) {t x} : (c.setTile t x).Canonical := h.updCtx

theorem State.Canonical.hold1 {s : State} (h : s.Canonical) {hdr} : Run.Ends (fun _ => True) (s.hold1 hdr) := by
  unfold State.hold1
  split
  · exact Ends.triv
  · dsimp only
    split
    · exact Ends.triv
    · exact h.wait
    · exact h.wait
    · exact Ends.ite h.wait h.trap

theorem State.Canonical.hold {s : State} (h : s.Canonical) {l} : Run.Ends (fun _ => True) (s.hold l) := by
  induction l generalizing s with
  | nil => exact Ends.triv
  | cons a l ih =>
    unfold State.hold
    exact h.hold1.bind fun _ _ => ih h

theorem Core.Canonical.tileEmptied {c : Core} (h : c.Canonical) {t} : (c.tileEmptied t).Canonical := h.setTile.ite h.setTile

theorem State.Canonical.execTwait {s : State} (h : s.Canonical) {hdr t} : Out.Canonical (execTwait hdr t s) :=
  h.issue64 fun _ ht1 => ht1.drained.bind fun _ hs1 => hs1.waitFor.bind fun _ _ => hs1.done

theorem State.Canonical.execTrel {s : State} (h : s.Canonical) {hdr t} : Out.Canonical (execTrel hdr t s) := by
  unfold Machine.execTrel
  refine h.issue64 fun _ ht1 => ?_
  dsimp only
  split
  · exact ht1.done
  · split
    · exact ht1.done
    · exact ht1.wait
    · exact ht1.wait
    · exact (ht1.upd fun _ hc => hc.tileEmptied).done

theorem State.Canonical.execTstate {s : State} (h : s.Canonical) {hdr a t} : Out.Canonical (execTstate hdr a t s) :=
  h.issue64 fun _ ht1 => (ht1.upd fun _ hc => hc.setS).done

theorem State.Canonical.orTrap {s : State} (h : s.Canonical) {t} : Run.Ends (fun _ => True) (orTrap t s) := by
  unfold Machine.orTrap
  split
  · exact Ends.triv
  · exact h.trap

theorem Core.Canonical.queueCopy {c : Core} (h : c.Canonical) {x} : (c.queueCopy x).Canonical := h.rest

theorem State.Canonical.transfer {s : State} (h : s.Canonical) {k hl hg fl hint t ch step d} :
    Run.Ends (·.1.Canonical) (s.transfer k hl hg fl hint t ch step d) := by
  unfold State.transfer
  refine h.exch.orTrap.bind fun _ _ => h.exch.need.bind fun _ _ => h.exch.hold.bind fun _ _ => ?_
  split
  · exact h.exch.raise
  · exact (h.exch.upd fun _ hc => hc.queueCopy.setTile).done

theorem State.Canonical.execTfill {s : State} (h : s.Canonical) {hdr o1 o2 fl t ch} : Out.Canonical (execTfill hdr o1 o2 fl t ch s) :=
  h.issue128 fun _ ht1 => ht1.transfer

theorem State.Canonical.execTdrain {s : State} (h : s.Canonical) {hdr o1 o2 fl t ch} : Out.Canonical (execTdrain hdr o1 o2 fl t ch s) :=
  h.issue128 fun _ ht1 => ht1.transfer

/-! ## The lane pool -/

theorem State.Canonical.setPod {s : State} (h : s.Canonical) {p x} : (s.setPod p x).Canonical := h.rest

theorem State.Canonical.claim {s : State} (h : s.Canonical) {i want} : (s.claim i want).Canonical := h.on fun _ hc => hc.rest

theorem State.Canonical.topUp {s : State} (h : s.Canonical) {i} : (s.topUp i).Canonical :=
  h.ite ((h.on fun _ hc => hc.rest).ite (h.on fun _ hc => hc.rest).setPod)

theorem State.Canonical.topUpAll {s : State} (h : s.Canonical) {cs} : (s.topUpAll cs).Canonical :=
  h.foldl fun _ _ hs1 => hs1.foldl fun _ _ hs2 => hs2.topUp.ite hs2

theorem Core.Canonical.unlaned {c : Core} (h : c.Canonical) : c.unlaned.Canonical := h.rest

theorem State.Canonical.execClaim {s : State} (h : s.Canonical) {hdr a b} : Out.Canonical (execClaim hdr a b s) :=
  h.issue64 fun _ ht => (ht.claim.upd fun _ hc => hc.setS).done

theorem State.Canonical.execVrelease {s : State} (h : s.Canonical) {hdr} :
    Out.Canonical (execVrelease hdr s) :=
  h.issue64 fun _ ht => ht.claim.done

/-! ## Barriers, messages, dependent launches -/

theorem State.Canonical.openWindow {s : State} (h : s.Canonical) {g phase grp base} : (s.openWindow g phase grp base).Canonical :=
  h.upd fun _ hc => hc.rest

theorem State.Canonical.execBar {s : State} (h : s.Canonical) {hdr b} : Out.Canonical (execBar hdr b s) := by
  unfold Machine.execBar
  refine h.issue64 fun _ ht => ht.drained.bind fun _ hs1 => hs1.exch.groupOf.bind fun _ _ => ?_
  dsimp only
  split
  · exact hs1.exch.waitFor.bind fun _ _ => hs1.exch.openWindow.done
  · exact hs1.exch.need.bind fun _ _ => (hs1.exch.updBar.upd fun _ hc => hc.rest).wait

theorem State.Canonical.teamTarget {s : State} (h : s.Canonical) {v} : Run.Ends (fun _ => True) (s.teamTarget v) := by
  unfold State.teamTarget
  split
  · exact Ends.triv
  · exact h.trap

theorem State.Canonical.execMsgsend {s : State} (h : s.Canonical) {hdr b c cc} : Out.Canonical (execMsgsend hdr b c cc s) :=
  h.issue64 fun _ ht => ht.exch.teamTarget.bind fun _ _ => Ends.ite ht.exch.stall (ht.exch.upd fun _ hc => hc.rest).done

theorem State.Canonical.execMsgwait {s : State} (h : s.Canonical) {hdr a} : Out.Canonical (execMsgwait hdr a s) := by
  unfold Machine.execMsgwait
  refine h.issue64 fun _ ht => ht.drained.bind fun _ hs1 => ?_
  dsimp only
  split
  · exact hs1.exch.wait
  · exact (hs1.exch.upd fun _ hc => hc.updCtx.setS).done

theorem State.Canonical.execTrig {s : State} (h : s.Canonical) {hdr} : Out.Canonical (execTrig hdr s) :=
  h.issue64 fun _ ht => (ht.exch.upd fun _ hc => hc.rest).done

theorem State.Canonical.execWaitdep {s : State} (h : s.Canonical) {hdr} : Out.Canonical (execWaitdep hdr s) := by
  unfold Machine.execWaitdep
  refine h.issue64 fun _ ht => ht.drained.bind fun _ hs1 => ?_
  dsimp only
  split
  · exact hs1.exch.endLaunch.gone
  · exact hs1.exch.waitFor.bind fun _ _ => (hs1.exch.foldl fun _ _ hs2 => hs2.updLaunch).done

theorem State.Canonical.execXwait {s : State} (h : s.Canonical) {hdr b ch} : Out.Canonical (execXwait hdr b ch s) :=
  h.issue64 fun _ ht => ht.drained.bind fun _ hs1 => hs1.need.bind fun _ _ => hs1.waitFor.bind fun _ _ => hs1.done

theorem State.Canonical.execXstat {s : State} (h : s.Canonical) {hdr a ch} : Out.Canonical (execXstat hdr a ch s) :=
  h.issue96 fun _ ht => (ht.upd fun _ hc => hc.setS).done

theorem Core.Canonical.onCounter {c : Core} (h : c.Canonical) {cc f} : (c.onCounter cc f).Canonical := h.updCtx

theorem State.Canonical.execCcwait {s : State} (h : s.Canonical) {hdr b cc} : Out.Canonical (execCcwait hdr b cc s) :=
  h.issue64 fun _ ht => ht.drained.bind fun _ hs1 => hs1.exch.waitFor.bind fun _ _ => hs1.exch.done

theorem State.Canonical.execCcrd {s : State} (h : s.Canonical) {hdr a cc} : Out.Canonical (execCcrd hdr a cc s) :=
  h.issue96 fun _ ht => (ht.upd fun _ hc => hc.setS).done

theorem State.Canonical.execSend {s : State} (h : s.Canonical) {hdr a b c ch fl dst} : Out.Canonical (execSend hdr a b c ch fl dst s) := by
  unfold Machine.execSend
  refine h.issue96 fun _ ht => ht.exch.orTrap.bind fun _ _ => ht.exch.need.bind fun _ _ => ht.exch.need.bind fun _ _ =>
    ht.exch.need.bind fun _ _ => ht.exch.need.bind fun _ _ => ht.exch.hold.bind fun _ _ => ?_
  dsimp only
  split
  · exact (ht.exch.upd fun _ hc => hc.updCtx.setS).done
  · exact (ht.exch.upd fun _ hc => hc.queueCopy.setS).done

/-! ## Sync objects and circular buffers -/

theorem State.Canonical.objectAt {s : State} (h : s.Canonical) {va align n} : Run.Ends (·.1.Canonical) (s.objectAt va align n) :=
  h.need.bind fun _ _ => h.need.bind fun _ _ => h.pieces.bind fun ⟨_, _⟩ hs => hs.okFst

theorem State.Canonical.objectRead {s : State} (h : s.Canonical) {pa n} : Run.Ends (·.1.Canonical) (s.objectRead pa n) := by
  unfold State.objectRead
  extract_lets +onlyGivenNames k
  have hk : ∀ r, Run.Ends (·.1.Canonical) (k r) := fun _ => h.enters.bind fun _ hs1 => hs1.withdraw.okFst
  exact Ends.ite (h.sysWaits.bind fun x _ => hk x) (hk ())

theorem State.Canonical.expose {s : State} (h : s.Canonical) {seq pa} : (s.expose seq pa).Canonical := h.rest

theorem State.Canonical.exposeAll {s : State} (h : s.Canonical) {pa} : (s.exposeAll pa).Canonical := h.rest

theorem State.Canonical.holdAside {s : State} (h : s.Canonical) {i a} : (s.holdAside i a).Canonical := h.withdraw.updSquad

theorem State.Canonical.granting {s : State} (h : s.Canonical) {r} : (s.granting r).Canonical := by
  unfold State.granting
  refine .requeue ?_
  split
  · refine .expose ?_
    split
    · exact h.rest.syncStep.rest.sendTo
    · exact h.rest.updSquadOf.ite h.rest.syncStep
  · refine .exposeAll ?_
    split
    · exact h.rest.syncStep.rest.sendTo
    · exact h.rest.updSquadOf.ite h.rest.syncStep

theorem State.Canonical.grant {s : State} (h : s.Canonical) {pa n} : (s.grant pa n).Canonical := by
  induction n generalizing s with
  | zero => exact h
  | succ n ih =>
    unfold State.grant
    split
    · exact h
    · exact h.withdraw.ite (ih h.withdraw.granting)

theorem State.Canonical.enqueue {s : State} (h : s.Canonical) {r} : (s.enqueue r).Canonical :=
  (h.ite h.rest.tellAs).ite (h.rest.grant.syncStep.ite h.rest.grant)

theorem State.Canonical.execAcq {s : State} (h : s.Canonical) {hdr b x y} : Out.Canonical (execAcq hdr b x y s) := by
  unfold Machine.execAcq
  refine h.issue64 fun _ ht => ht.drained.bind fun _ hs1 => hs1.exch.objectAt.bind fun ⟨_, _⟩ hs => hs.need.bind fun _ _ => ?_
  extract_lets +onlyGivenNames k
  have hk : ∀ u, u.Canonical → Run.Ends (·.1.Canonical) (k u) := by
    intro u hu
    unfold k
    split
    · exact hu.wait
    · exact (hu.rest.upd fun _ hc => hc.updCtx).done
  split
  · exact hs.okState.bind hk
  · exact hs.objectRead.bind fun ⟨_, _⟩ hs2 => hs2.need.bind fun _ _ => hs2.enqueue.okState.bind hk

theorem State.Canonical.writeBack {s : State} (h : s.Canonical) {i ks} :
    (s.writeBack i ks).Canonical :=
  h.foldl fun _ _ hs1 => hs1.onL1.ite hs1

theorem State.Canonical.giveUp {s : State} (h : s.Canonical) {i k} : (s.giveUp i k).Canonical := h.holdAside.on fun _ hc => hc.updCtx

theorem State.Canonical.execRel {s : State} (h : s.Canonical) {hdr b scope} : Out.Canonical (execRel hdr b scope s) := by
  unfold Machine.execRel
  refine h.issue64 fun _ ht => ht.exch.objectAt.bind fun ⟨_, _⟩ hs => ?_
  dsimp only
  split
  · exact hs.raise
  · refine hs.objectRead.bind fun ⟨_, _⟩ hs1 => hs1.need.bind fun _ _ => ?_
    split
    · exact hs1.sysWaits.bind fun _ _ => Ends.ite hs1.writeBack.stall hs1.writeBack.giveUp.grant.done
    · exact Ends.ite hs1.writeBack.stall hs1.writeBack.giveUp.grant.done

theorem State.Canonical.ringAt {s : State} (h : s.Canonical) {b} : Run.Ends (·.1.Canonical) (s.ringAt b) :=
  h.objectAt.bind fun ⟨_, _⟩ hs => hs.objectRead.bind fun ⟨_, _⟩ hs1 => hs1.need.bind fun _ _ => hs1.expose.okFst

theorem State.Canonical.reserve {s : State} (h : s.Canonical) {seq i pa r} : (s.reserve seq i pa r).Canonical :=
  h.memberWrite.kept.onMember fun _ hc => hc.rest

theorem State.Canonical.returnSlots {s : State} (h : s.Canonical) {pa back} :
    (s.returnSlots pa back).Canonical :=
  h.foldl fun _ _ hs1 => hs1.sendTo

theorem State.Canonical.serveCb {s : State} (h : s.Canonical) {pa n l} : (s.serveCb pa n l).Canonical := by
  induction n generalizing s l with
  | zero => exact h.returnSlots
  | succ n ih =>
    unfold State.serveCb
    split
    · exact h.returnSlots
    · dsimp only
      split
      · exact h.returnSlots.ite ((ih h.rest.reserve.cbChanged).ite (ih h.rest.setBytes.cbChanged))
      · split
        · exact h.withdraw.returnSlots.ite (ih h.withdraw.rest.reserve.cbChanged)
        · exact h.withdraw.returnSlots.ite (ih h.withdraw.rest.setBytes.cbChanged)

theorem State.Canonical.slotGiven {s : State} (h : s.Canonical) {cb idx} : (s.slotGiven cb idx).Canonical := by
  unfold State.slotGiven
  split
  · exact h.rest
  · exact h.rest.onMember fun _ hc => hc.rest

theorem State.Canonical.askSlot {s : State} (h : s.Canonical) {i pa} : (s.askSlot i pa).Canonical := by
  unfold State.askSlot
  dsimp only
  split
  · exact h.rest.serveCb
  · split
    · exact h
    · split
      · exact h.rest.rest.slotGiven
      · exact h.rest.tellHome

theorem State.Canonical.voidAsides {s : State} (h : s.Canonical) {pa} : (s.voidAsides pa).Canonical := h.rest

theorem State.Canonical.farInit {s : State} (h : s.Canonical) {pa msg} : Run.Ends (·.1.Canonical) (s.farInit pa msg) := by
  unfold State.farInit
  dsimp only
  split
  · exact h.noted.sendStep.stall
  · exact h.stall
  · exact (h.voidAsides.upd fun _ hc => hc.rest).done

theorem State.Canonical.execCbinit {s : State} (h : s.Canonical) {hdr b c count} : Out.Canonical (execCbinit hdr b c count s) := by
  unfold Machine.execCbinit
  refine h.issue96 fun _ ht => ht.exch.objectAt.bind fun ⟨_, _⟩ hs => hs.need.bind fun _ _ => ?_
  dsimp only
  split
  · exact hs.farInit
  · exact hs.objectRead.bind fun ⟨_, _⟩ hs1 => Ends.ite hs1.farInit hs1.voidAsides.expose.homeWrite.cbChanged.serveCb.done

theorem State.Canonical.execCbacq {s : State} (h : s.Canonical) {hdr a b} : Out.Canonical (execCbacq hdr a b s) := by
  unfold Machine.execCbacq
  refine h.issue96 fun _ ht => ht.drained.bind fun _ hs1 => hs1.exch.ringAt.bind fun ⟨_, _, _, _⟩ hs => hs.need.bind fun _ _ => ?_
  dsimp only
  split
  · exact (hs.ite (hs.serveCb.ite hs.askSlot)).wait
  · split
    · exact (hs.ite (hs.serveCb.ite hs.askSlot)).endLaunch.gone
    · exact ((hs.ite (hs.serveCb.ite hs.askSlot)).upd fun _ hc => hc.updCtx.setS.rest).done

theorem State.Canonical.execCbcommit {s : State} (h : s.Canonical) {hdr b} : Out.Canonical (execCbcommit hdr b s) := by
  unfold Machine.execCbcommit
  refine h.issue96 fun _ ht => ht.drained.bind fun _ hs1 => hs1.exch.ringAt.bind fun ⟨_, _, _, _⟩ hs => ?_
  dsimp only
  split
  · exact hs.raise
  · exact hs.need.bind fun _ _ => hs.waitFor.bind fun _ _ => hs.sysWaits.bind fun _ _ =>
      Ends.ite hs.writeBack.stall (hs.writeBack.holdAside.upd fun _ hc => hc.updCtx).done

theorem State.Canonical.execCbwait {s : State} (h : s.Canonical) {hdr b c} : Out.Canonical (execCbwait hdr b c s) :=
  h.issue64 fun _ ht => ht.drained.bind fun _ hs1 => hs1.exch.ringAt.bind fun ⟨_, _, _, _⟩ hs => hs.need.bind fun _ _ =>
    hs.waitFor.bind fun _ _ => hs.done

theorem State.Canonical.execCbrel {s : State} (h : s.Canonical) {hdr b c} : Out.Canonical (execCbrel hdr b c s) :=
  h.issue64 fun _ ht => ht.exch.ringAt.bind fun ⟨_, _, _, _⟩ hs => hs.need.bind fun _ _ =>
    Ends.ite hs.done (hs.waitFor.bind fun _ _ => hs.holdAside.serveCb.done)

/-! ## Saving a team and bringing it back -/

theorem Core.Canonical.imaged {c : Core} (h : c.Canonical) : c.imaged.Canonical := h.rest

theorem Core.Canonical.vacated {c : Core} : c.vacated.Canonical := .rest .freed

theorem State.Canonical.layImage {s : State} (h : s.Canonical) {c : Core} {l} : (s.layImage l c).Canonical := by
  unfold State.layImage
  refine h.foldl fun _ _ hs1 => ?_
  split
  · exact hs1.coherentWrite
  · exact hs1

theorem State.Canonical.relayImages {before : State} {s : State} (hs : s.Canonical) : (before.relayImages s).Canonical := by
  unfold State.relayImages
  refine hs.foldl fun _ _ hs1 => ?_
  split
  · exact hs1.ite hs1.layImage
  · exact hs1

/-- The scratchpad of a member that returns is laid down anew from the bytes of its image. -/
theorem State.Canonical.readPad {s : State} (h : s.Canonical) {seq i} : (s.readPad seq i).Canonical := by
  unfold State.readPad
  split
  · exact h
  next ks e =>
    refine State.Canonical.on (List.foldlRecOn (motive := fun r : State × List Byte => r.1.Canonical) ks _ h fun _ hr _ _ => ?_) fun _ _ => ?_
    · exact hr.coherentRead
    · exact Mem.wf_ofBytes _ _

/-- The one image that is added is that of a core. -/
theorem State.Canonical.saveCore {s : State} (h : s.Canonical) {why i} : (s.saveCore why i).Canonical := by
  unfold State.saveCore
  dsimp only
  split
  · exact h
  next seq e =>
    have h1 : (s.onL1 i fun _ es => emptyL1 es).Canonical := h.onL1
    refine State.Canonical.withImages (.on ?hs fun _ _ => .vacated) (State.Canonical.images_append ?hs (h.at i).imaged)
    cases (s.onL1 i fun _ es => emptyL1 es).launch seq with
    | none => exact h1
    | some l => exact h1.layImage

theorem State.Canonical.moveInstance {s : State} (h : s.Canonical) {seq cores pod} : (s.moveInstance seq cores pod).Canonical := by
  unfold State.moveInstance
  refine h.updLaunch.withImages (h.updLaunch.images_map fun _ hm => ?_)
  split
  · exact hm
  · exact hm

theorem State.Canonical.saveTeam {s : State} (h : s.Canonical) {cs why} : (s.saveTeam cs why).Canonical := by
  unfold State.saveTeam
  dsimp only
  split
  · exact h
  · split
    · exact h.foldl fun _ _ hs1 => hs1.saveCore
    · exact (h.foldl fun _ _ hs1 => hs1.saveCore).moveInstance

theorem State.Canonical.repin {s : State} (h : s.Canonical) {i p} : (s.repin i p).Canonical := by
  unfold State.repin
  refine h.foldl fun _ _ hs1 => ?_
  split
  next _ _ e => exact hs1.pinPiece.ok_of_eq e
  next _ _ e => exact hs1.pinPiece.error_of_eq e
  next _ _ e => exact (hs1.pinPiece.error_of_eq e).on fun _ hc => hc.rest
  · exact hs1

/-- The one core that is replaced gets the scratchpad of an image. -/
theorem State.Canonical.restoreCore {s : State} (h : s.Canonical) {m : Image} (hm : m.core.Canonical) {i} :
    (s.restoreCore m i).Canonical := by
  unfold State.restoreCore
  refine .foldl (.readPad (State.Canonical.withImages (.on ?h1 fun _ _ => hm.rest) (State.Canonical.images_filter ?h1 _))) fun _ _ hs =>
    hs.repin
  exact h.drainWb.onL1

theorem State.Canonical.holdTeam {s : State} (h : s.Canonical) {team} : (s.holdTeam team).Canonical :=
  (h.foldl fun _ _ hs1 => hs1.on fun _ hc => hc.ite hc.rest).ite h

theorem State.Canonical.wakeTeam {s : State} (h : s.Canonical) {team} : (s.wakeTeam team).Canonical :=
  h.ite (h.foldl fun _ _ hs1 => hs1.on fun _ hc => hc.rest.ite hc)

theorem State.Canonical.restoreTeam {s : State} (h : s.Canonical) {ms : List Image} (hms : ∀ m ∈ ms, m.core.Canonical) :
    (s.restoreTeam ms).Canonical := by
  unfold State.restoreTeam
  dsimp only
  split
  · exact h.poisonLaunch
  · exact (h.foldl_of_mem fun _ m hm hs => hs.restoreCore (hms m hm)).topUpAll.holdTeam

/-! ## The end of a superstep -/

theorem State.Canonical.commitWrite {s : State} (h : s.Canonical) {seq i e} : (s.commitWrite seq i e).Canonical := h.noted.memberWrite

theorem State.Canonical.applyLog {s : State} (h : s.Canonical) {seq i} : (s.applyLog seq i).Canonical :=
  (h.foldl fun _ _ hs1 => hs1.commitWrite).onMember fun _ hc => hc.rest

theorem State.Canonical.askCommit {s : State} (h : s.Canonical) {seq q} : (s.askCommit seq q).Canonical :=
  (h.foldl fun _ _ hs1 => hs1.askOthers).foldl fun _ _ hs1 => hs1.fetchFor

theorem State.Canonical.applyLogs {s : State} (h : s.Canonical) {seq q} :
    (s.applyLogs seq q).Canonical :=
  h.foldl fun _ _ hs1 => hs1.applyLog

theorem State.Canonical.commitLogs {s : State} (h : s.Canonical) {seq q} : (s.commitLogs seq q).Canonical := h.ite h.applyLogs.onSquad

theorem Core.Canonical.closeRound {c : Core} (h : c.Canonical) : c.closeRound.Canonical := h.padWrite.rest

theorem State.Canonical.release {s : State} (h : s.Canonical) {seq i a} : (s.release seq i a).Canonical := by
  unfold State.release
  dsimp only
  split
  · split
    · exact h.updLaunch.syncStep.tellAs
    · exact h.updLaunch.syncStep
  · split
    · exact h.updLaunch.memberWrite.queuesWritten
    · refine .serveCb ?_
      refine .cbChanged ?_
      split
      · exact h.updLaunch.withdraw.noted.setBytes.tellAs
      · exact h.updLaunch.withdraw.noted.setBytes.tellAs
      · exact h.updLaunch.withdraw.noted.setBytes

theorem State.Canonical.releaseAll {s : State} (h : s.Canonical) {seq i as} : (s.releaseAll seq i as).Canonical :=
  (h.foldl fun _ _ hs1 => hs1.release).foldl fun _ _ hs1 => hs1.grant.ite hs1

theorem State.Canonical.noteTrigger {s : State} (h : s.Canonical) {seq} : (s.noteTrigger seq).Canonical := by
  unfold State.noteTrigger
  split
  · exact h
  · exact h.ite h.updLaunch

theorem Core.Canonical.waitEnds {c : Core} (h : c.Canonical) {stall} : (c.waitEnds stall).Canonical := h.rest

theorem Core.Canonical.stepped {c : Core} (h : c.Canonical) {stall} : (c.stepped stall).Canonical := by
  unfold Core.stepped
  refine .rest ?_
  split
  · exact h.closeRound.retire.rest
  · exact h.closeRound.waitEnds
  · exact h.closeRound

theorem Core.Canonical.prove {c : Core} (h : c.Canonical) : c.prove.Canonical := h.rest

theorem State.Canonical.parkIfFull {s : State} (h : s.Canonical) {seq q} : (s.parkIfFull seq q).Canonical := by
  unfold State.parkIfFull
  split
  · exact h
  · exact h.ite h.updLaunch.saveTeam.rest

theorem State.Canonical.completeStep {s : State} (h : s.Canonical) {seq q} : (s.completeStep seq q).Canonical :=
  ((h.foldl fun _ _ hs1 => hs1.onMember fun _ hc => hc.stepped).topUpAll.foldl fun _ _ hs1 => hs1.onMember fun _ hc =>
    hc.prove).clearCounts.onSquad.rest.releaseAll.noteTrigger.parkIfFull

theorem State.Canonical.tellReady {s : State} (h : s.Canonical) {seq q} : (s.tellReady seq q).Canonical := h.ite h.tellLinked.onSquad

theorem State.Canonical.applyLinked {s : State} (h : s.Canonical) {seq q ds} : (s.applyLinked seq q ds).Canonical := h.commitLogs.ite h

theorem State.Canonical.tellApplied {s : State} (h : s.Canonical) {seq q} : (s.tellApplied seq q).Canonical := h.ite h.tellLinked.onSquad

theorem State.Canonical.linkedStep {s : State} (h : s.Canonical) {seq q ds} : (s.linkedStep seq q ds).Canonical :=
  h.tellReady.applyLinked.tellApplied.completeStep.ite h.tellReady.applyLinked.tellApplied

theorem State.Canonical.ownStep {s : State} (h : s.Canonical) {seq q} :
    (s.ownStep seq q).Canonical :=
  h.commitLogs.ite h.commitLogs.completeStep

theorem State.Canonical.stepOrAsk {s : State} (h : s.Canonical) {seq q} :
    (s.stepOrAsk seq q).Canonical :=
  h.askCommit.ite (h.ownStep.ite h.linkedStep)

theorem State.Canonical.tryStep {s : State} (h : s.Canonical) {seq i} : (s.tryStep seq i).Canonical := by
  unfold State.tryStep
  split
  · exact h
  · exact h.stepOrAsk.ite h

theorem State.Canonical.arriveStep {s : State} (h : s.Canonical) {next dly} :
    (s.arriveStep next dly).Canonical :=
  h.onL1.upd fun _ hc => hc.rest

theorem State.Canonical.execSstep {s : State} (h : s.Canonical) {hdr} : Out.Canonical (execSstep hdr s) := by
  unfold Machine.execSstep
  refine h.issue64 fun _ ht => ht.drained.bind fun _ hs => ?_
  extract_lets +onlyGivenNames s1 k
  have h1 : s1.Canonical := hs.exch
  have hk : ∀ u, u.Canonical → Run.Ends (·.1.Canonical) (k u) := by
    intro u hu
    unfold k
    dsimp only
    split
    · exact hu.tryStep.wait
    · exact hu.tryStep.gone
  split
  · exact h1.okState.bind hk
  · split
    · exact h1.arriveStep.okState.bind hk
    · exact Ends.bind (p := State.Canonical) h1.stall hk

theorem Core.Canonical.left {c : Core} (h : c.Canonical) : c.left.Canonical := h.unlaned.rest

theorem State.Canonical.finishSquad {s : State} (h : s.Canonical) {seq q} : (s.finishSquad seq q).Canonical :=
  (h.commitLogs.foldl fun _ _ hs1 => hs1.onMember fun _ hc => hc.prove).onSquad.releaseAll.noteTrigger

theorem State.Canonical.settleExit {s : State} (h : s.Canonical) {seq i} : (s.settleExit seq i).Canonical := by
  unfold State.settleExit
  split
  · exact h
  · split
    · exact h.tryStep
    · dsimp only
      split
      · exact h.finishSquad
      · split
        · exact h.finishSquad.endLaunch
        · split
          · exact h.finishSquad
          · exact (h.finishSquad.foldl fun _ _ hs1 => hs1.on fun _ _ => .freed).updLaunch

theorem State.Canonical.lastOut {s : State} (h : s.Canonical) {seq i} : Run.Ends State.Canonical (s.lastOut seq i) := by
  unfold State.lastOut
  split
  · exact h.okState
  · split
    · exact h.okState
    · exact Ends.ite h.askCommit.stall (Ends.ite h.commitLogs.stall h.commitLogs.okState)

theorem State.Canonical.execExit {s : State} (h : s.Canonical) {hdr} : Out.Canonical (execExit hdr s) := by
  unfold Machine.execExit
  refine h.issue64 fun _ ht => ht.drained.bind fun _ hs => ?_
  extract_lets +onlyGivenNames s1
  have h1 : s1.Canonical := hs.upd fun _ hc => hc.rest
  refine h1.waitFor.bind fun _ _ => h1.sysWaits.bind fun _ _ => Ends.ite h1.writeBack.stall (h1.writeBack.lastOut.bind fun _ h2 => ?_)
  refine State.Canonical.gone (.settleExit (.upd (.retire ?_) fun _ hc => hc.left))
  exact (h2.foldl fun _ _ hu => hu.giveUp).foldl fun _ _ hu => hu.grant

/-! ## Vector instructions -/

/-- A lane instruction writes no scratchpad at once: its results are pending. -/
theorem State.Canonical.lane {s : State} (h : s.Canonical) {upd} (hupd : ∀ c, c.Canonical → (upd c).Canonical)
    {chk exts l out writes active} : Run.Ends (·.1.Canonical) (s.lane chk exts l out upd writes active) := by
  unfold State.lane
  refine h.orTrap.bind fun _ _ => h.orTrap.bind fun _ _ => h.hold.bind fun _ _ => ?_
  extract_lets +onlyGivenNames k
  have hk : ∀ u, u.Canonical → Run.Ends (·.1.Canonical) (k u) := by
    intro u hu
    unfold k
    dsimp only
    split
    · exact Ends.bind (p := fun _ => False) hu.raise nofun
    · refine Ends.triv.bind fun _ _ => ?_
      have h1 : (if u.core.lanes = 0 then u.claim (↑u.cur) 8 else u).Canonical := hu.claim.ite hu
      refine .ite ?_ (.ite ?_ ?_)
      · exact (h1.upd fun _ hc => hc.updSys).rollback.gone
      · exact (h1.upd fun _ hc => hc.raise).trap
      · exact (h1.upd fun _ hc => hupd _ (hc.ite hc.pendWrite)).done
  split
  · exact h.roomed.bind hk
  · exact h.okState.bind hk

theorem State.Canonical.lane3 {s : State} (h : s.Canonical) {unary o1 o2 o3 o4 td ta l f} :
    Run.Ends (·.1.Canonical) (s.lane3 unary o1 o2 o3 o4 td ta l f) := by
  unfold State.lane3
  exact h.lane fun _ hc => hc

theorem State.Canonical.execVarith {s : State} (h : s.Canonical) {hdr o1 o2 o3 o4 op ef rm} :
    Out.Canonical (execVarith hdr o1 o2 o3 o4 op ef rm s) :=
  h.issue128 fun _ ht => ht.lane3

theorem State.Canonical.execVfma {s : State} (h : s.Canonical) {hdr o1 o2 o3 o4 o5 k ef rm} :
    Out.Canonical (execVfma hdr o1 o2 o3 o4 o5 k ef rm s) :=
  h.issue128 fun _ ht => ht.lane fun _ hc => hc

theorem State.Canonical.execVcmp {s : State} (h : s.Canonical) {hdr o1 o2 o3 o4 cond ef sig} :
    Out.Canonical (execVcmp hdr o1 o2 o3 o4 cond ef sig s) :=
  h.issue128 fun _ ht => ht.lane3

theorem State.Canonical.execVsel {s : State} (h : s.Canonical) {hdr o1 o2 o3 o4 o5 ef} : Out.Canonical (execVsel hdr o1 o2 o3 o4 o5 ef s) :=
  h.issue128 fun _ ht => ht.lane fun _ hc => hc

theorem State.Canonical.execVlogic {s : State} (h : s.Canonical) {hdr o1 o2 o3 o4 op ef} :
    Out.Canonical (execVlogic hdr o1 o2 o3 o4 op ef s) :=
  h.issue128 fun _ ht => ht.lane3

theorem State.Canonical.execVshift {s : State} (h : s.Canonical) {hdr o1 o2 o3 o4 op ef count} :
    Out.Canonical (execVshift hdr o1 o2 o3 o4 op ef count s) :=
  h.issue128 fun _ ht => ht.lane3

theorem State.Canonical.execVclass {s : State} (h : s.Canonical) {hdr o1 o2 o3 ef} : Out.Canonical (execVclass hdr o1 o2 o3 ef s) :=
  h.issue128 fun _ ht => ht.lane3

theorem State.Canonical.laneCvt {s : State} (h : s.Canonical) {o1 o2 o3 tag srcs f} :
    Run.Ends (·.1.Canonical) (s.laneCvt o1 o2 o3 tag srcs f) := by
  unfold State.laneCvt
  exact h.lane fun _ hc => hc.setH

theorem State.Canonical.execVcvt {s : State} (h : s.Canonical) {hdr o1 o2 o3 tag rm} : Out.Canonical (execVcvt hdr o1 o2 o3 tag rm s) :=
  h.issue128 fun _ ht => ht.laneCvt

theorem State.Canonical.execVreq {s : State} (h : s.Canonical) {hdr o1 o2 o3 bsf4} : Out.Canonical (execVreq hdr o1 o2 o3 bsf4 s) :=
  h.issue128 fun _ ht => ht.laneCvt

theorem State.Canonical.execVmov {s : State} (h : s.Canonical) {hdr o1 o2 o3} : Out.Canonical (execVmov hdr o1 o2 o3 s) :=
  h.issue128 fun _ ht => ht.lane fun _ hc => hc

theorem State.Canonical.execVfill {s : State} (h : s.Canonical) {hdr o1 o2 o3 size} : Out.Canonical (execVfill hdr o1 o2 o3 size s) :=
  h.issue128 fun _ ht => ht.lane fun _ hc => hc

theorem State.Canonical.execVbcast {s : State} (h : s.Canonical) {hdr o1 o2 o3 ef} : Out.Canonical (execVbcast hdr o1 o2 o3 ef s) :=
  h.issue128 fun _ ht => ht.lane fun _ hc => hc

theorem State.Canonical.execVperm {s : State} (h : s.Canonical) {hdr o1 o2 o3 o4 scat ef} :
    Out.Canonical (execVperm hdr o1 o2 o3 o4 scat ef s) :=
  h.issue128 fun _ ht => ht.lane fun _ hc => hc

theorem State.Canonical.execVmix {s : State} (h : s.Canonical) {hdr o1 o2 o3 o4} : Out.Canonical (execVmix hdr o1 o2 o3 o4 s) :=
  h.issue128 fun _ ht => ht.lane3

theorem State.Canonical.execVred {s : State} (h : s.Canonical) {hdr o1 o2 o3 op ef rm} : Out.Canonical (execVred hdr o1 o2 o3 op ef rm s) :=
  h.issue128 fun _ ht => ht.lane fun _ hc => hc

theorem State.Canonical.execVscan {s : State} (h : s.Canonical) {hdr o1 o2 o3 op ef ex rm} :
    Out.Canonical (execVscan hdr o1 o2 o3 op ef ex rm s) :=
  h.issue128 fun _ ht => ht.lane fun _ hc => hc

theorem State.Canonical.execVsfu {s : State} (h : s.Canonical) {hdr o1 o2 o3 fn ef} : Out.Canonical (execVsfu hdr o1 o2 o3 fn ef s) := by
  unfold Machine.execVsfu
  refine h.issue128 fun _ ht => ht.orTrap.bind fun _ _ => ht.need.bind fun _ _ => ht.orTrap.bind fun _ _ => ht.hold.bind fun _ _ => ?_
  split
  · exact ht.stall
  · split
    · exact ht.done
    · refine ht.roomed.bind fun _ hs1 => ?_
      dsimp only
      split
      · split
        · exact (hs1.upd fun _ hc => hc.updSys).rollback.gone
        · exact (hs1.setCore hs1.core.raise).trap
      · exact (hs1.setCore hs1.core.pendWrite.rest).done

/-! ## The plane engine -/

theorem Core.Canonical.onSlot {c : Core} (h : c.Canonical) {n f} : (c.onSlot n f).Canonical := h.updCtx

theorem Core.Canonical.claimHead {c : Core} (h : c.Canonical) : c.claimHead.Canonical := by
  unfold Core.claimHead
  split
  · exact h
  · split
    · exact h.onSlot.updCtx.rest.ite h
    · exact h.rest
    · exact h

theorem State.Canonical.execMprog {s : State} (h : s.Canonical) {hdr prog} : Out.Canonical (execMprog hdr prog s) :=
  h.issue96 fun _ ht => (ht.upd fun _ hc => hc.updCtx).done

theorem State.Canonical.execMgang {s : State} (h : s.Canonical) {hdr o1} : Out.Canonical (execMgang hdr o1 s) :=
  h.issue128 fun _ ht => ht.groupOf.bind fun _ _ => (ht.ite (ht.upd fun _ hc => hc.updCtx.rest)).done

theorem State.Canonical.gangIssue {s : State} (h : s.Canonical) {op o1 o2 o3 acc eight sameFmt pa pb} :
    Run.Ends (·.1.Canonical) (s.gangIssue op o1 o2 o3 acc eight sameFmt pa pb) := by
  unfold State.gangIssue
  refine h.groupOf.bind fun _ _ => h.need.bind fun _ _ => h.orTrap.bind fun _ _ => h.need.bind fun _ _ => h.need.bind fun _ _ =>
    h.need.bind fun _ _ => h.orTrap.bind fun _ _ => ?_
  dsimp only
  split
  · exact h.need.bind fun _ _ => h.need.bind fun _ _ => h.hold.bind fun _ _ =>
      Ends.ite h.stall (h.setCore h.core.updCtx.rest.claimHead).done
  · exact h.need.bind fun _ _ => h.hold.bind fun _ _ => Ends.ite h.stall (h.setCore h.core.updCtx.rest.claimHead).done

theorem State.Canonical.execMma {s : State} (h : s.Canonical) {hdr o1 o2 o3 mode acc sp pa pb} :
    Out.Canonical (execMma hdr o1 o2 o3 mode acc sp pa pb s) :=
  h.issue128 fun _ ht => ht.gangIssue

theorem State.Canonical.execMrec {s : State} (h : s.Canonical) {hdr o1 o2 o3 ef} : Out.Canonical (execMrec hdr o1 o2 o3 ef s) :=
  h.issue128 fun _ ht => ht.gangIssue

theorem Core.Canonical.unclaim {c : Core} (h : c.Canonical) {x} : (c.unclaim x).Canonical := by
  unfold Core.unclaim
  split
  · exact h
  · exact h.onSlot.updCtx.ite (h.onSlot.ite h)

theorem Core.Canonical.orphans {c : Core} (h : c.Canonical) {o n} : (c.orphans o n).Canonical := h.rest

theorem Core.Canonical.cancelHead {c : Core} (h : c.Canonical) : c.cancelHead.Canonical := by
  unfold Core.cancelHead
  split
  · exact h
  · exact (h.unclaim.rest.orphans.ite h.unclaim.rest).claimHead

theorem State.Canonical.execMmaStart {s : State} (h : s.Canonical) {c} : Out.Canonical (execMmaStart c s) := by
  unfold Machine.execMmaStart
  dsimp only
  split
  · exact h
  · split
    · exact h
    · split
      · exact h.foldl fun _ _ hs1 => hs1.on fun _ hc => hc.rest
      · exact h.foldl fun _ _ hs1 => hs1.on fun _ hc => hc.cancelHead.rest

theorem State.Canonical.gangComplete {s : State} (h : s.Canonical) {c want} : (s.gangComplete c want).Canonical := by
  unfold State.gangComplete
  dsimp only
  split
  · exact h
  · split
    · exact h
    · split
      · exact h
      · split
        · exact (h.on fun _ hc => hc.updSys).rollback
        · refine h.foldl fun _ _ hs1 => hs1.on fun _ hc => ?_
          split
          · exact hc
          · exact hc.onSlot.rest.claimHead

theorem State.Canonical.execMmaComplete {s : State} (h : s.Canonical) {c} : Out.Canonical (execMmaComplete c s) := h.gangComplete

theorem State.Canonical.execMrecComplete {s : State} (h : s.Canonical) {c} : Out.Canonical (execMrecComplete c s) := h.gangComplete

theorem State.Canonical.hatchIssue {s : State} (h : s.Canonical) {op o1 o2 acc src dst upd} :
    Run.Ends (·.1.Canonical) (s.hatchIssue op o1 o2 acc src dst upd) := by
  unfold State.hatchIssue
  exact h.orTrap.bind fun _ _ => h.orTrap.bind fun _ _ => h.hold.bind fun _ _ => Ends.ite h.stall (h.setCore h.core.setH.rest).done

theorem State.Canonical.execMhatch {s : State} (h : s.Canonical) {hdr o1 o2} : Out.Canonical (execMhatch hdr o1 o2 s) :=
  h.issue128 fun _ ht => ht.hatchIssue

theorem State.Canonical.execMunhatch {s : State} (h : s.Canonical) {hdr o1 o2} : Out.Canonical (execMunhatch hdr o1 o2 s) :=
  h.issue128 fun _ ht => ht.hatchIssue

theorem Core.Canonical.hatchPart {c : Core} (h : c.Canonical) {n x} : (c.hatchPart n x).Canonical := h.engineWrite.rest

theorem State.Canonical.execMhatchComplete {s : State} (h : s.Canonical) {c} : Out.Canonical (execMhatchComplete c s) := by
  unfold Machine.execMhatchComplete
  dsimp only
  split
  · exact h
  · exact h.put (h.at _).engineWrite.rest.claimHead

theorem State.Canonical.execRstat {s : State} (h : s.Canonical) {hdr o1 slot} : Out.Canonical (execRstat hdr o1 slot s) :=
  h.issue128 fun _ ht => ht.orTrap.bind fun _ _ => ht.orTrap.bind fun _ _ => ht.need.bind fun _ _ => ht.need.bind fun _ _ =>
    ht.hold.bind fun _ _ => Ends.ite ht.stall (ht.setCore ht.core.rest).done

theorem Core.Canonical.statPart {c : Core} (h : c.Canonical) {bs n} : (c.statPart bs n).Canonical := by
  unfold Core.statPart
  split
  · exact h
  · exact h.engineWrite.rest

theorem Core.Canonical.statDone {c : Core} (h : c.Canonical) {r} : (c.statDone r).Canonical := by
  unfold Core.statDone
  split
  · exact h
  · exact h.engineWrite.onSlot.rest

theorem Core.Canonical.statOff {c : Core} (h : c.Canonical) {n} : (c.statOff n).Canonical := by
  unfold Core.statOff
  split
  · exact h
  · exact h.rest

theorem State.Canonical.execRstatComplete {s : State} (h : s.Canonical) {c} : Out.Canonical (execRstatComplete c s) := by
  unfold Machine.execRstatComplete
  dsimp only
  split
  · exact h
  · split
    · exact h
    · split
      · exact h.foldl fun _ _ hs1 => hs1.on fun _ hc => hc.statOff
      · exact .ite h (h.foldl fun _ _ hs1 => hs1.on fun _ hc => hc.statDone)

theorem State.Canonical.execMwait {s : State} (h : s.Canonical) {hdr} : Out.Canonical (execMwait hdr s) :=
  h.issue128 fun _ ht => ht.drained.bind fun _ hs1 => hs1.waitFor.bind fun _ _ => hs1.done

theorem Core.Canonical.stopRunning {c : Core} (h : c.Canonical) : c.stopRunning.Canonical := h.cancelHead.ite h

theorem Core.Canonical.abortQueue {c : Core} (h : c.Canonical) {n} : (c.abortQueue n).Canonical := by
  induction n generalizing c with
  | zero => exact h
  | succ n ih =>
    unfold Core.abortQueue
    split
    · exact h
    · exact h.ite (ih (h.unclaim.rest.orphans.ite h.unclaim.rest))

theorem State.Canonical.execMabort {s : State} (h : s.Canonical) {hdr} : Out.Canonical (execMabort hdr s) := by
  unfold Machine.execMabort
  refine h.issue128 fun _ ht => State.Canonical.done ?_
  split
  · exact (ht.upd fun _ hc => hc.abortQueue.updCtx.rest).foldl fun _ _ hs1 => hs1.on fun _ hc => hc.stopRunning
  · exact ht.upd fun _ hc => hc.abortQueue.updCtx.rest

/-! ## How engines reach global memory -/

theorem State.Canonical.noPageMoved {s : State} (h : s.Canonical) {x : NoPage} : (x.moved s).Canonical := by
  cases x with
  | trap t => exact h
  | away => exact h

theorem State.Canonical.engineWrites {s : State} (h : s.Canonical) {i pos hint va pa bs} :
    (s.engineWrites i pos hint va pa bs).Canonical := by
  unfold State.engineWrites
  dsimp only
  split
  · exact trivial
  · split
    · exact h.storeHeld
    · split
      · exact h.on fun _ hc => hc.rest
      · exact h

theorem State.Canonical.engineStore {s : State} (h : s.Canonical) {i pos n unit hint va bs} :
    (s.engineStore i pos n unit hint va bs).Canonical := by
  unfold State.engineStore
  split
  next _ _ _ e => exact (h.translate.fst_of_eq e).noPageMoved
  next _ s1 _ _ e =>
    have hs1 : s1.Canonical := h.translate.fst_of_eq e
    split
    · exact hs1.engineWrites
    · dsimp only
      split
      · exact hs1
      · split
        next _ _ e2 => exact hs1.engineWrites.ok_of_eq e2
        · exact hs1.engineWrites

theorem State.Canonical.engineStores {s : State} (h : s.Canonical) {i pos unit hint n l} :
    (s.engineStores i pos unit hint n l).Canonical := by
  induction l generalizing n s with
  | nil => exact h
  | cons a l ih =>
    unfold State.engineStores
    split
    next _ _ e => exact ih (h.engineStore.ok_of_eq e)
    next _ _ _ _ e => exact h.engineStore.stop_of_eq e
    · exact h.engineStore

theorem State.Canonical.engineOut {s : State} (h : s.Canonical) {i pos done cells unit hint} :
    (s.engineOut i pos done cells unit hint).Canonical :=
  h.engineStores

theorem State.Canonical.engineLoad {s : State} (h : s.Canonical) {own i va n hint} : (s.engineLoad own i va n hint).1.Canonical := by
  unfold State.engineLoad
  split
  next _ _ _ e => exact (h.translate.fst_of_eq e).noPageMoved
  next _ s1 _ _ e =>
    have hs1 : s1.Canonical := h.translate.fst_of_eq e
    split
    · exact trivial
    · split
      next _ _ e1 => exact hs1.enters.error_of_eq e1
      next _ _ e1 => exact hs1.enters.error_of_eq e1
      · exact trivial
      next _ _ e1 => exact (hs1.enters.ok_of_eq e1).downgrade

theorem State.Canonical.engineLoads {s : State} (h : s.Canonical) {own i hint n l} : (s.engineLoads own i hint n l).1.Canonical := by
  induction l generalizing n s with
  | nil => exact h
  | cons a l ih =>
    unfold State.engineLoads
    split
    next _ _ _ e => exact ih ((h.engineLoad.fst_of_eq e).ok_of_eq rfl)
    next _ _ _ _ _ e => exact (h.engineLoad.fst_of_eq e).stop_of_eq rfl
    next _ _ _ _ _ e => exact h.engineLoad.fst_of_eq e

/-! ## The etcher -/

theorem State.Canonical.execEpi {s : State} (h : s.Canonical) {hdr o1 o2 fl} : Out.Canonical (execEpi hdr o1 o2 fl s) := by
  unfold Machine.execEpi
  refine h.issue128 fun _ ht => ?_
  dsimp only
  split
  · exact ht.stall
  · refine ht.need.bind fun _ _ => ht.readPlate.bind fun ⟨_, _⟩ hs => ?_
    dsimp only
    split
    · exact hs.raise
    · split
      · exact hs.orTrap.bind fun _ _ => hs.orTrap.bind fun _ _ => hs.hold.bind fun _ _ =>
          Ends.ite hs.stall ((hs.exch.ite hs).setCore (hs.exch.ite hs).core.rest).done
      · exact Ends.ite hs.stall ((hs.exch.ite hs).setCore (hs.exch.ite hs).core.rest).done

theorem Core.Canonical.etchDone {c : Core} (h : c.Canonical) {x} : (c.etchDone x).Canonical :=
  (h.rest.ite h.rest.onSlot).ite h.rest.onSlot.updCtx.raise.claimHead

theorem Core.Canonical.etchWrite {c : Core} (h : c.Canonical) {x bs} : (c.etchWrite x bs).Canonical := h.engineWrite.rest

theorem State.Canonical.etchRun {s : State} (h : s.Canonical) {c x} : (s.etchRun c x).Canonical := by
  unfold State.etchRun
  dsimp only
  split
  · exact h.on fun _ hc => hc.etchWrite
  · exact h.engineOut

theorem Core.Canonical.etchAt {c : Core} (h : c.Canonical) {n stop} : (c.etchAt n stop).Canonical := h.rest

theorem Core.Canonical.etchPart {c : Core} (h : c.Canonical) {n x} : (c.etchPart n x).Canonical := h.etchWrite.etchAt

/-- Each engine that writes ahead of its command keeps the scratchpad canonical. -/
theorem State.partWriters_canonical {s : State} {i n : Nat} : ∀ f ∈ s.partWriters i n, ∀ c, c.Canonical → (f c).Canonical := by
  intro f hf c hc
  simp only [State.partWriters, List.mem_append, Option.mem_toList, Option.map_eq_some_iff] at hf
  rcases hf with (⟨x, _, rfl⟩ | ⟨x, _, rfl⟩) | ⟨r, _, rfl⟩
  · exact hc.etchPart
  · exact hc.hatchPart
  · exact hc.statPart

theorem State.Canonical.partAhead {s : State} (h : s.Canonical) {i} : (s.partAhead i).Canonical := by
  unfold State.partAhead
  dsimp only
  split
  next f e => exact h.on (State.partWriters_canonical f (List.mem_of_getElem? e))
  · exact h

theorem State.Canonical.execEpiComplete {s : State} (h : s.Canonical) {c} : Out.Canonical (execEpiComplete c s) := by
  unfold Machine.execEpiComplete
  split
  · exact h
  · split
    next _ s2 e1 =>
      have hs2 : s2.Canonical := h.etchRun.ok_of_eq e1
      exact .ite (hs2.on fun _ hc => hc.etchAt) (hs2.on fun _ hc => hc.etchDone)
    next _ _ e1 => exact h.etchRun.gone_of_eq e1
    · exact h

/-! ## Residue arithmetic -/

theorem State.Canonical.setRes {s : State} (h : s.Canonical) {i g} : (s.setRes i g).Canonical := h.updSquad

theorem State.Canonical.execRfwd {s : State} (h : s.Canonical) {hdr o1 o2 o3} : Out.Canonical (execRfwd hdr o1 o2 o3 s) :=
  h.issue128 fun _ ht => ht.lane fun _ hc => hc

theorem State.Canonical.execRrev {s : State} (h : s.Canonical) {hdr o1 o2 o3 gd} : Out.Canonical (execRrev hdr o1 o2 o3 gd s) := by
  unfold Machine.execRrev
  refine h.issue128 fun _ ht => ?_
  dsimp only
  split
  · exact ht.raise
  · exact ht.lane fun _ hc => hc.setG

theorem State.Canonical.resEnd {s : State} (h : s.Canonical) {i reason g} :
    (s.resEnd i reason g).Canonical :=
  h.setRes.on fun _ hc => hc.rest

theorem State.Canonical.resEvent {s : State} (h : s.Canonical) {i g e} : Run.Ends (·.1.Canonical) (s.resEvent i g e) := by
  unfold State.resEvent
  dsimp only
  split
  · split
    · exact Ends.ite h.resEnd.done h.setRes.rollback.gone
    · exact Ends.ite h.event.resEnd.done h.event.setRes.rollback.gone
  · exact Ends.ite h.resEnd.done h.setRes.rollback.gone

theorem State.Canonical.resCheck {s : State} (h : s.Canonical) {gd hd n g members} :
    Run.Ends (·.1.Canonical) (s.resCheck gd hd n g members) := by
  unfold State.resCheck
  dsimp only
  split
  · exact (h.on fun _ hc => hc.updSys).resEvent
  · split
    · exact h.resEvent
    · exact (h.upd fun _ hc => hc.setG).done
    · split
      · exact (h.upd fun _ hc => hc.setG).setRes.rollback.gone
      · split
        · exact (h.upd fun _ hc => hc.setG).setRes.after
        · exact (h.upd fun _ hc => hc.setG).setRes.done

theorem State.Canonical.execRchk {s : State} (h : s.Canonical) {hdr o1 o2 gd} : Out.Canonical (execRchk hdr o1 o2 gd s) := by
  unfold Machine.execRchk
  refine h.issue128 fun _ ht => ?_
  dsimp only
  split
  · exact ht.raise
  · exact (ht.lane fun _ hc => hc).bind fun ⟨_, _⟩ hs => hs.resCheck

theorem State.Canonical.execRset {s : State} (h : s.Canonical) {hdr b c} : Out.Canonical (execRset hdr b c s) := by
  unfold Machine.execRset
  refine h.issue96 fun _ ht => ?_
  dsimp only
  split
  · exact ht.raise
  · exact ht.need.bind fun _ _ => ht.need.bind fun _ _ => ht.need.bind fun _ _ => ht.setRes.done

/-! ## The gather/put port -/

theorem State.Canonical.portTarget {s : State} (h : s.Canonical) {get v} : Run.Ends (·.1.Canonical) (s.portTarget get v) := by
  unfold State.portTarget
  dsimp only
  split
  · exact Ends.ite h.raise (h.teamTarget.bind fun _ _ => h.okFst)
  · exact Ends.ite h.raise (h.groupOf.bind fun _ _ => h.okFst)
  · exact Ends.ite h.raise (h.readPlate.bind fun ⟨_, _⟩ hs => hs.okFst)
  · exact h.raise

theorem Core.Canonical.tileFilled {c : Core} (h : c.Canonical) {t} : (c.tileFilled t).Canonical := h.setTile.ite h.setTile

theorem State.Canonical.declare {s : State} (h : s.Canonical) {t n} : (s.declare t n).1.Canonical := by
  unfold State.declare
  dsimp only
  split
  · exact h.upd fun _ hc => hc.rest
  · refine State.Canonical.fst (.onMember ?_ fun _ hc => hc.rest)
    exact h.upd fun _ hc => hc.rest

theorem State.Canonical.declareAll {s : State} (h : s.Canonical) {n l} : (s.declareAll n l).1.Canonical := by
  induction l generalizing s with
  | nil => exact h
  | cons a l ih =>
    unfold State.declareAll
    exact ih h.declare

theorem State.Canonical.portIssue {s : State} (h : s.Canonical) {get hx o1 o2 o3 o4 fl cc} :
    Run.Ends (·.1.Canonical) (s.portIssue get hx o1 o2 o3 o4 fl cc) := by
  unfold State.portIssue
  refine h.exch.orTrap.bind fun _ _ => h.exch.portTarget.bind fun ⟨_, _, _⟩ hs => ?_
  dsimp -zeta only
  extract_lets +onlyGivenNames _ _ _ _ s1 k
  have h1 : s1.Canonical := (hs.upd fun _ hc => hc.setTile).ite hs
  have hk : ∀ r, Run.Ends (·.1.Canonical) (k r) := by
    intro r
    unfold k
    refine hs.hold.bind fun _ _ => hs.need.bind fun _ _ =>
      .ite (.done ?h2) (.ite (State.Canonical.upd ?h2 fun _ hc => hc.tileFilled).done (State.Canonical.upd ?h2 fun _ hc => hc.rest).done)
    split
    · split
      · exact h1
      · exact h1.declareAll
    · exact h1
  split
  · exact hs.need.bind fun _ _ => hs.need.bind fun r _ => hk r
  · exact hs.orTrap.bind fun _ _ => hs.orTrap.bind fun r _ => hk r

theorem State.Canonical.execPut {s : State} (h : s.Canonical) {hdr o1 o2 o3 o4 fl cc} : Out.Canonical (execPut hdr o1 o2 o3 o4 fl cc s) :=
  h.issue128 fun _ ht => ht.portIssue

theorem State.Canonical.execGet {s : State} (h : s.Canonical) {hdr o1 o2 o3 o4 fl cc} : Out.Canonical (execGet hdr o1 o2 o3 o4 fl cc s) :=
  h.issue128 fun _ ht => ht.portIssue

theorem Core.Canonical.onPort {c : Core} (h : c.Canonical) {k f} : (c.onPort k f).Canonical := h.rest

theorem Core.Canonical.counted {c : Core} (h : c.Canonical) {cc stale} : (c.counted cc stale).Canonical := h.onCounter

theorem Core.Canonical.portOver {c : Core} (h : c.Canonical) {k} : (c.portOver k).Canonical := by
  unfold Core.portOver
  split
  · exact h
  · exact (h.rest.ite h.rest.onCounter).ite (h.rest.ite h.rest.onCounter).tileFilled

theorem State.Canonical.portDone {s : State} (h : s.Canonical) {c k} : (s.portDone c k).Canonical := by
  unfold State.portDone
  split
  · exact h
  · exact h.ite (h.on fun _ hc => hc.portOver)

theorem Core.Canonical.nextElement {c : Core} (h : c.Canonical) {k len} : (c.nextElement k len).Canonical := by
  unfold Core.nextElement
  split
  · exact h
  · exact h.onPort.ite h.onPort.setTile

theorem Core.Canonical.packet {c : Core} (h : c.Canonical) {p} : (c.packet p).Canonical := h.padWrite.rest

theorem Core.Canonical.discarded {c : Core} (h : c.Canonical) {team} : (c.discarded team).Canonical := h.rest

theorem State.Canonical.landAt {s : State} (h : s.Canonical) {c lau x e tg} : (s.landAt c lau x e tg).1.Canonical := by
  unfold State.landAt
  dsimp only
  split
  · exact h.onMember fun _ hc => hc.linkPassed.packet
  · exact h.elim fun _ => h.onMember fun _ hc => hc.discarded

theorem State.Canonical.putElement {s : State} (h : s.Canonical) {c k x l} : (s.putElement c k x l).Canonical := by
  unfold State.putElement
  dsimp only
  split
  · exact trivial
  · split
    · exact trivial
    · split
      · exact h
      · split
        next _ _ e4 => exact (Holds.findSome? fun _ => h.linkFails).some_of_eq e4
        · exact ((h.foldl fun _ _ hs1 => hs1.landAt.on fun _ hc => hc.counted).on fun _ hc => hc.onPort).portDone

theorem State.Canonical.putRow {s : State} (h : s.Canonical) {c k x p} : (s.putRow c k x p).Canonical := by
  unfold State.putRow
  dsimp only
  split
  · exact h
  · split
    next _ _ e1 => exact ((h.engineOut.ok_of_eq e1).on fun _ hc => hc.counted.nextElement).portDone
    · exact h
    · exact h.engineOut

theorem State.Canonical.execHotRowHalve {s : State} (h : s.Canonical) {die} : Out.Canonical (execHotRowHalve die s) := by
  unfold Machine.execHotRowHalve
  exact .ite h h.setDie

theorem State.Canonical.getServe {s : State} (h : s.Canonical) {c k x} : (s.getServe c k x).Canonical := by
  unfold State.getServe
  dsimp only
  split
  · split
    · exact h
    · split
      · exact h.on fun _ hc => hc.onPort
      · split
        next _ _ e5 => exact h.linkFails.some_of_eq e5
        · exact (h.on fun _ hc => hc.linkPassed).on fun _ hc => hc.onPort
    · exact trivial
  · split
    · exact h
    · split
      next _ s2 _ e2 =>
        have hs2 : s2.Canonical := (h.engineLoads.fst_of_eq e2).ok_of_eq rfl
        exact (hs2.setDie.ite hs2).on fun _ hc => hc.onPort
      · exact h
      next _ _ _ _ _ e2 => exact h.engineLoads.fst_of_eq e2

theorem State.Canonical.getLand {s : State} (h : s.Canonical) {c k x r} : (s.getLand c k x r).Canonical := by
  unfold State.getLand
  split
  next _ _ e => exact h.linkFails.some_of_eq e
  · refine .portDone ?_
    refine h.on fun _ hc => .nextElement ?_
    refine .counted ?_
    refine .linkPassed ?_
    split
    · exact hc.padWrite
    · exact hc

theorem State.Canonical.messageLand {s : State} (h : s.Canonical) {c k x} : (s.messageLand c k x).Canonical := by
  unfold State.messageLand
  split
  · dsimp only
    split
    · exact (h.on fun _ hc => hc.counted.nextElement).portDone
    · split
      · exact trivial
      · split
        next _ _ e3 => exact h.linkFails.some_of_eq e3
        · exact ((h.onMember fun _ hc => hc.linkPassed.updCtx).on fun _ hc => hc.counted.nextElement).portDone
  · exact trivial

theorem State.Canonical.portMove {s : State} (h : s.Canonical) {c k} : (s.portMove c k).Canonical := by
  unfold State.portMove
  dsimp only
  split
  · exact trivial
  · split
    · exact trivial
    · split
      · exact h.portDone
      · split
        · exact h.putElement
        · exact h.putRow
        · split
          · exact trivial
          · exact h.getServe
        · exact h.messageLand

theorem State.Canonical.moved {s : State} (h : s.Canonical) {x : Moved} (hx : x.Canonical) : (s.moved x).Canonical := by
  unfold State.moved
  split
  · exact hx
  · exact hx
  · exact h

theorem State.Canonical.execPacketLand {s : State} (h : s.Canonical) {c k} :
    Out.Canonical (execPacketLand c k s) :=
  (h.moved h.portMove).ite h

theorem State.Canonical.execGetRequestServe {s : State} (h : s.Canonical) {c k} :
    Out.Canonical (execGetRequestServe c k s) :=
  (h.moved h.portMove).ite h

theorem State.Canonical.execGetReplyLand {s : State} (h : s.Canonical) {c k} : Out.Canonical (execGetReplyLand c k s) := by
  unfold Machine.execGetReplyLand
  split
  · exact h
  · split
    · exact h.getLand.ite h
    · exact h

theorem State.Canonical.execMessageArrive {s : State} (h : s.Canonical) {c k} :
    Out.Canonical (execMessageArrive c k s) :=
  (h.moved h.portMove).ite h

/-! ## Placement -/

theorem State.Canonical.onPlace {s : State} (h : s.Canonical) {e f} : (s.onPlace e f).Canonical := h.rest

theorem State.Canonical.usePlace {s : State} (h : s.Canonical) {v part} : Run.Ends (fun _ => True) (s.usePlace v part) := by
  unfold State.usePlace
  split
  · exact h.raise
  · split
    · exact h.raise
    · exact Ends.ite Ends.triv h.raise

theorem State.Canonical.execPdecl {s : State} (h : s.Canonical) {hdr a b c state} : Out.Canonical (execPdecl hdr a b c state s) := by
  unfold Machine.execPdecl
  refine h.issue96 fun _ ht => ht.exch.groupOf.bind fun _ _ => ht.exch.readPlate.bind fun ⟨_, _⟩ hs => ?_
  dsimp only
  split
  · exact hs.raise
  · refine hs.need.bind fun _ _ => ?_
    split
    · exact hs.need.bind fun _ _ => hs.rest.okState.bind fun _ hs1 => (hs1.upd fun _ hc => hc.setS).done
    · exact hs.need.bind fun _ _ => hs.onPlace.okState.bind fun _ hs1 => (hs1.upd fun _ hc => hc.setS).done

theorem State.Canonical.demanded {s : State} (h : s.Canonical) {e st} : Run.Ends (fun _ => True) (s.demanded e st) := by
  unfold State.demanded
  exact Ends.ite h.wait (Ends.ite Ends.triv (Ends.ite h.raise Ends.triv))

theorem State.Canonical.arrive {s : State} (h : s.Canonical) {e st fl hint} : Run.Ends State.Canonical (s.arrive e st fl hint) := by
  unfold State.arrive
  exact Ends.ite h.stall (h.writeBack.onPlace.upd fun _ hc => hc.rest).okState

theorem State.Canonical.execPld {s : State} (h : s.Canonical) {hdr o1 o2 o3 fl} : Out.Canonical (execPld hdr o1 o2 o3 fl s) := by
  unfold Machine.execPld
  refine h.issue128 fun _ ht => ht.drained.bind fun _ hs1 => hs1.exch.usePlace.bind fun _ _ => hs1.exch.need.bind fun _ _ =>
    hs1.exch.demanded.bind fun _ _ => hs1.exch.readPlate.bind fun ⟨_, _⟩ hs => ?_
  dsimp only
  split
  · exact hs.raise
  · split
    · exact hs.arrive.bind fun _ hs2 => (hs2.upd fun _ hc => hc.setH).done
    · exact hs.okState.bind fun _ hs2 => (hs2.upd fun _ hc => hc.setH).done

theorem State.Canonical.execPconv {s : State} (h : s.Canonical) {hdr o1 o2 fl} : Out.Canonical (execPconv hdr o1 o2 fl s) := by
  unfold Machine.execPconv
  refine h.issue128 fun _ ht => ht.drained.bind fun _ hs1 => hs1.exch.usePlace.bind fun _ _ => hs1.exch.need.bind fun _ _ =>
    hs1.exch.demanded.bind fun _ _ => ?_
  extract_lets +onlyGivenNames k
  have hk : ∀ u, u.Canonical → Run.Ends (·.1.Canonical) (k u) := fun _ hu => hu.done
  split
  · exact hs1.exch.arrive.bind hk
  · exact hs1.exch.okState.bind hk

theorem State.Canonical.execPstate {s : State} (h : s.Canonical) {hdr a b} : Out.Canonical (execPstate hdr a b s) :=
  h.issue96 fun _ ht => ht.exch.need.bind fun _ _ => (ht.exch.upd fun _ hc => hc.setS).done

theorem State.Canonical.execPwait {s : State} (h : s.Canonical) {hdr b} : Out.Canonical (execPwait hdr b s) :=
  h.issue96 fun _ ht => ht.drained.bind fun _ hs1 => hs1.exch.usePlace.bind fun _ _ => hs1.exch.waitFor.bind fun _ _ => hs1.exch.done

theorem State.Canonical.readPart {s : State} (h : s.Canonical) {root e m} : (s.readPart root e m).1.Canonical := by
  unfold State.readPart
  refine List.foldlRecOn (motive := fun r : State × List Byte => r.1.Canonical) _ _ h fun _ hr _ _ => ?_
  dsimp only
  split
  · exact hr.coherentRead
  · exact hr

theorem State.Canonical.readParts {s : State} (h : s.Canonical) {root e l} : (s.readParts root e l).1.Canonical := by
  induction l generalizing s with
  | nil => exact h
  | cons a l ih =>
    unfold State.readParts
    exact ih h.readPart

theorem State.Canonical.convert {s : State} (h : s.Canonical) {l e g parts} : (s.convert l e g parts).Canonical := h.onPlace

theorem Core.Canonical.unarrived {c : Core} (h : c.Canonical) {e} : (c.unarrived e).Canonical := h.rest

theorem State.Canonical.cutFails {s : State} (h : s.Canonical) {l p g} : (s.cutFails l p g).Canonical :=
  h.onPlace.foldl fun _ _ hs1 => hs1.onMember fun _ hc => hc.unarrived.ite hc.unarrived.rest

theorem State.Canonical.reportCut {s : State} (h : s.Canonical) {l p parts} :
    (s.reportCut l p parts).Canonical :=
  h.foldl fun _ _ hs1 => hs1.sendTo

theorem State.Canonical.execPlacementCutClose {s : State} (h : s.Canonical) {e} : Out.Canonical (execPlacementCutClose e s) := by
  unfold Machine.execPlacementCutClose
  split
  · exact h
  · split
    · exact h
    · refine .ite h (.ite h.cutFails (.ite h ?_))
      split
      · exact h.poisonLaunch
      · exact .ite h.readParts.onPlace.reportCut h.readParts.convert

theorem State.Canonical.execFabricCutClose {s : State} (h : s.Canonical) {e reports} : Out.Canonical (execFabricCutClose e reports s) := by
  unfold Machine.execFabricCutClose
  split
  · exact h
  · split
    · exact h
    · exact .ite h (.ite h.cutFails h.convert)

theorem State.Canonical.partWrite {s : State} (h : s.Canonical) {l g va hint bs} : (s.partWrite l g va hint bs).Canonical := by
  unfold State.partWrite
  refine h.foldl fun _ _ hs1 => ?_
  split
  · exact (hs1.foldl fun _ _ hs2 => hs2.noted).memberWrite
  · exact hs1

theorem State.Canonical.execConversionPartWritten {s : State} (h : s.Canonical) {e} : Out.Canonical (execConversionPartWritten e s) := by
  unfold Machine.execConversionPartWritten
  split
  · exact h
  · split
    · exact h
    · split
      · exact h
      · dsimp only
        split
        · split
          · exact h.foldl fun _ _ hs1 => hs1.askOthers
          · exact (h.foldl fun _ _ hs1 => hs1.partWrite).onPlace
        · split
          · exact h.foldl fun _ _ hs1 => hs1.askOthers
          · exact (h.foldl fun _ _ hs1 => hs1.partWrite).onPlace

theorem State.Canonical.execConversionComplete {s : State} (h : s.Canonical) {e} : Out.Canonical (execConversionComplete e s) := by
  unfold Machine.execConversionComplete
  split
  · exact h
  · split
    · exact h
    · exact .ite h (h.onPlace.foldl fun _ _ hs1 => hs1.onMember fun _ hc => hc.unarrived.raise)

/-! ## The copy engine -/

theorem State.Canonical.metaLoad {s : State} (h : s.Canonical) {i va n hint} : (s.metaLoad i va n hint).1.Canonical := by
  unfold State.metaLoad
  split
  next _ _ _ e => exact (h.translate.fst_of_eq e).noPageMoved
  next _ s1 _ _ e =>
    have hs1 : s1.Canonical := h.translate.fst_of_eq e
    dsimp only
    split
    · exact trivial
    · split
      next _ _ e1 => exact (Ends.ite hs1.okState hs1.enters).error_of_eq e1
      next _ _ e1 => exact (Ends.ite hs1.okState hs1.enters).error_of_eq e1
      · exact trivial
      next _ s3 e1 =>
        have hs3 : s3.Canonical := (Ends.ite hs1.okState hs1.enters).ok_of_eq e1
        exact (hs3.ite hs3.downgrade).on fun _ hc => hc.rest

theorem State.Canonical.metaLoads {s : State} (h : s.Canonical) {i hint n l} : (s.metaLoads i hint n l).1.Canonical := by
  induction l generalizing n s with
  | nil => exact h
  | cons a l ih =>
    unfold State.metaLoads
    split
    next _ _ _ e => exact ih ((h.metaLoad.fst_of_eq e).ok_of_eq rfl)
    next _ _ _ _ _ e => exact (h.metaLoad.fst_of_eq e).stop_of_eq rfl
    next _ _ _ _ _ e => exact h.metaLoad.fst_of_eq e

theorem State.Canonical.fillRange {s : State} (h : s.Canonical) {c x lo hi} : (s.fillRange c x lo hi).Canonical := by
  unfold State.fillRange
  dsimp only
  split
  next _ s1 _ e =>
    have hs1 : s1.Canonical := (h.engineLoads.fst_of_eq e).ok_of_eq rfl
    split
    next _ _ _ e1 => exact ((hs1.metaLoads.fst_of_eq e1).ok_of_eq rfl).on fun _ hc => hc.padWrite
    next _ _ _ _ e1 => exact hs1.metaLoads.fst_of_eq e1
  next _ _ _ _ e => exact h.engineLoads.fst_of_eq e

theorem State.Canonical.fillRun {s : State} (h : s.Canonical) {c x} : (s.fillRun c x).Canonical := h.fillRange

theorem State.Canonical.touchMap {s : State} (h : s.Canonical) {c x l} : (s.touchMap c x l).Canonical := by
  induction l generalizing s with
  | nil => exact h
  | cons a l ih =>
    unfold State.touchMap
    split
    next _ _ _ e => exact ih ((h.metaLoad.fst_of_eq e).ok_of_eq rfl)
    · exact ih h
    next _ _ _ _ _ e => exact h.metaLoad.fst_of_eq e

theorem State.Canonical.drainRun {s : State} (h : s.Canonical) {c x} : (s.drainRun c x).Canonical := by
  unfold State.drainRun
  split
  next _ _ e => exact (h.touchMap.ok_of_eq e).engineOut
  · exact h.touchMap

theorem Core.Canonical.onCopy {c : Core} (h : c.Canonical) {k f} : (c.onCopy k f).Canonical := h.rest

theorem Core.Canonical.copyAt {c : Core} (h : c.Canonical) {k n} : (c.copyAt k n).Canonical := by
  unfold Core.copyAt
  split
  · exact h
  · exact h.onCopy.setTile

theorem State.Canonical.copyMove {s : State} (h : s.Canonical) {c k} : (s.copyMove c k).Canonical := by
  unfold State.copyMove
  dsimp only
  split
  · exact trivial
  · split
    · exact trivial
    · split
      · split
        · exact h.fillRun
        · exact trivial
      · split
        · exact h.drainRun
        · exact trivial
      · exact trivial

theorem Core.Canonical.wakeTrel {c : Core} (h : c.Canonical) {t} : (c.wakeTrel t).Canonical := h.rest.ite h

theorem Core.Canonical.copyDone {c : Core} (h : c.Canonical) {k} : (c.copyDone k).Canonical := by
  unfold Core.copyDone
  split
  · exact h
  · dsimp only
    split
    · exact h.copyAt.rest.tileFilled
    · exact h.copyAt.rest.tileEmptied.wakeTrel
    · exact h.copyAt.rest

theorem State.Canonical.copyStep {s : State} (h : s.Canonical) {c k} : (s.copyStep c k).Canonical := by
  unfold State.copyStep
  split
  next _ s2 e =>
    have hs2 : s2.Canonical := h.copyMove.ok_of_eq e
    exact (hs2.put (hs2.at _).copyAt).ite (hs2.put (hs2.at _).copyDone)
  next _ _ e => exact h.copyMove.gone_of_eq e
  · exact h

theorem State.Canonical.execTfillComplete {s : State} (h : s.Canonical) {c k} : Out.Canonical (execTfillComplete c k s) := h.copyStep.ite h

theorem State.Canonical.execTdrainComplete {s : State} (h : s.Canonical) {c k} :
    Out.Canonical (execTdrainComplete c k s) :=
  h.copyStep.ite h

theorem State.Canonical.execSendLand {s : State} (h : s.Canonical) {c k} : Out.Canonical (execSendLand c k s) := by
  unfold Machine.execSendLand
  split
  · exact h
  · split
    · exact h
    next _ s2 e1 =>
      have hs2 : s2.Canonical := h.sendMove.some_of_eq e1
      split
      · exact hs2.ite h
      · exact hs2.onPod.ite h

theorem Core.Canonical.faulted {c : Core} (h : c.Canonical) {p} : (c.faulted p).Canonical := h.rest

theorem State.Canonical.copyStops {s : State} (h : s.Canonical) {c k} : (s.copyStops c k).Canonical := by
  unfold State.copyStops
  split
  next _ _ s2 _ _ _ e _ =>
    have hs2 : s2.Canonical := h.copyMove.stop_of_eq e
    refine .on ?_ fun _ hc => hc.copyAt.onCopy.setTile.faulted
    split
    · split
      next _ _ e3 => exact h.fillRange.ok_of_eq e3
      · exact hs2
    · exact hs2
  · exact h

theorem State.Canonical.portStops {s : State} (h : s.Canonical) {c k} : (s.portStops c k).Canonical := by
  unfold State.portStops
  split
  next _ _ _ _ _ _ e _ => exact (h.portMove.stop_of_eq e).on fun _ hc => (hc.onPort.onCounter.ite hc.onPort.onCounter.setTile).faulted
  · exact h

theorem State.Canonical.etchStops {s : State} (h : s.Canonical) {c} : (s.etchStops c).Canonical := by
  unfold State.etchStops
  split
  · exact h
  · split
    next _ _ _ _ e1 => exact (h.etchRun.stop_of_eq e1).on fun _ hc => hc.etchAt.faulted
    · exact h

theorem State.Canonical.execCommandStoppedAtFault {s : State} (h : s.Canonical) {c e k} :
    Out.Canonical (execCommandStoppedAtFault c e k s) := by
  unfold Machine.execCommandStoppedAtFault
  split
  · exact h.copyStops
  · exact h.portStops
  · exact h.etchStops
  · exact h
  · exact h
  · exact h

/-! ## A core's own storage -/

theorem State.Canonical.execPendingWriteLand {s : State} (h : s.Canonical) {c} : Out.Canonical (execPendingWriteLand c s) := by
  unfold Machine.execPendingWriteLand
  split
  · exact (h.on fun _ hc => hc.land).ite h
  · exact h

theorem State.Canonical.execSfuRequestStart {s : State} (h : s.Canonical) {pod} : Out.Canonical (execSfuRequestStart pod s) := by
  unfold Machine.execSfuRequestStart
  dsimp only
  split
  · exact h
  · exact h.setPod.on fun _ hc => hc.rest

theorem Core.Canonical.deliver {c : Core} (h : c.Canonical) {r} : (c.deliver r).Canonical := h.rest

theorem State.Canonical.execSfuDeliver {s : State} (h : s.Canonical) {c} : Out.Canonical (execSfuDeliver c s) := by
  unfold Machine.execSfuDeliver
  split
  · exact h
  · exact .ite h (.ite (h.on fun _ hc => hc.updSys).rollback (h.on fun _ hc => hc.deliver))

theorem Core.Canonical.dropReq {c : Core} (h : c.Canonical) {k} : (c.dropReq k).Canonical := h.rest

theorem State.Canonical.execOwnershipGrant {s : State} (h : s.Canonical) {c k} : Out.Canonical (execOwnershipGrant c k s) := by
  unfold Machine.execOwnershipGrant
  split
  · dsimp only
    split
    · exact h
    · split
      next _ _ e1 => exact h.comes.some_of_eq e1
      · exact h.ite (h.withdraw.on fun _ hc => hc.dropReq).onL1q
  · exact h

theorem State.Canonical.execWriteBackComplete {s : State} (h : s.Canonical) {c k} : Out.Canonical (execWriteBackComplete c k s) := by
  unfold Machine.execWriteBackComplete
  split
  · exact .ite h (h.on fun _ hc => hc.dropReq).homeWrite
  · exact h

theorem State.Canonical.installed {s : State} (h : s.Canonical) {c k va n excl cls} :
    Run.Ends (·.1.Canonical) (s.installed c k va n excl cls) := by
  unfold State.installed
  dsimp only
  split
  · exact (h.translateAll.on fun _ hc => hc.dropReq).stall
  · exact ((h.translateAll.on fun _ hc => hc.dropReq).on fun _ hc => hc.hits).fillAll.bind fun _ hs1 => hs1.okFst

theorem State.Canonical.ran {s : State} (h : s.Canonical) {c k r rest} (hr : Run.Ends (·.1.Canonical) r) :
    (execL1Fill.ran c k s r rest).Canonical := by
  unfold execL1Fill.ran
  dsimp only
  split
  · exact (State.Canonical.on hr fun _ hc => hc.rest).ite hr
  · exact State.Canonical.on hr fun _ hc => hc.rest
  · exact hr
  · exact h

theorem State.Canonical.execL1Fill {s : State} (h : s.Canonical) {c k} : Out.Canonical (execL1Fill c k s) := by
  unfold Machine.execL1Fill
  split
  · split
    · exact h.ran h.installed
    · exact .ite h.setDie (h.ran h.installed)
  · refine State.Canonical.ite (.wakeTeam ?h1) ?h1
    exact (h.on fun _ hc => hc.dropReq).repin
  · exact h

theorem State.Canonical.execWalkComplete {s : State} (h : s.Canonical) {die k} : Out.Canonical (execWalkComplete die k s) := h.endWalk.ite h

theorem State.Canonical.execInvalidate {s : State} (h : s.Canonical) {c pa len} :
    Out.Canonical (execInvalidate c pa len s) :=
  h.drainWb.invalidateAt

theorem State.Canonical.execDowngrade {s : State} (h : s.Canonical) {c pa len} : Out.Canonical (execDowngrade c pa len s) := h.drainWb.onL1

/-! ## Events of supersteps, barriers, sync objects and traps -/

theorem State.Canonical.execSubroundOpen {s : State} (h : s.Canonical) {launch} : Out.Canonical (execSubroundOpen launch s) := by
  unfold Machine.execSubroundOpen
  dsimp only
  split
  · exact h
  · split
    · exact h
    · exact h.updSquadOf

theorem State.Canonical.execSubroundClose {s : State} (h : s.Canonical) {c} : Out.Canonical (execSubroundClose c s) := by
  unfold Machine.execSubroundClose
  split
  · exact h.onMember fun _ hc => hc.closeRound
  · exact h

theorem State.Canonical.execPhaseClose {s : State} (h : s.Canonical) {launch group} : Out.Canonical (execPhaseClose launch group s) := by
  unfold Machine.execPhaseClose
  dsimp only
  split
  · exact h
  · split
    · exact .ite h.updBar h
    · exact h

theorem State.Canonical.execAcqGrant {s : State} (h : s.Canonical) {pa} : Out.Canonical (execAcqGrant pa s) := h.grant

theorem State.Canonical.execSlotReturn {s : State} (h : s.Canonical) {cb idx} : Out.Canonical (execSlotReturn cb idx s) :=
  (h.foldl fun _ _ hs1 => hs1.slotGiven).ite h

theorem State.Canonical.execSstepComplete {s : State} (h : s.Canonical) {launch} : Out.Canonical (execSstepComplete launch s) := by
  unfold Machine.execSstepComplete
  dsimp only
  split
  · exact h
  · exact h.stepOrAsk

theorem State.Canonical.execRollback {s : State} (h : s.Canonical) {launch u} : Out.Canonical (execRollback launch u s) := by
  unfold Machine.execRollback
  dsimp only [Out.Canonical]
  split
  · exact h.rollbackOf
  · exact h

theorem Core.Canonical.delivering {c : Core} (h : c.Canonical) {p} : (c.delivering p).Canonical := h.rest

theorem Core.Canonical.leaderTrapped {c : Core} (h : c.Canonical) {pc} : (c.leaderTrapped pc).Canonical := by
  unfold Core.leaderTrapped
  split
  · exact h.rest.ite h.rest
  · exact h.rest

theorem State.Canonical.tellTrap {s : State} (h : s.Canonical) {i pc} : (s.tellTrap i pc).Canonical :=
  h.foldl fun _ _ hs1 => hs1.on fun _ hc => hc.leaderTrapped

theorem State.Canonical.deliverFault {s : State} (h : s.Canonical) {c} : (s.deliverFault c).Canonical := by
  unfold State.deliverFault
  split
  · exact h
  · split
    · exact (h.tellTrap.on fun _ hc => hc.delivering).rest.takeTrap
    · exact h

theorem State.Canonical.execEngineFaultDelivery {s : State} (h : s.Canonical) {c} : Out.Canonical (execEngineFaultDelivery c s) :=
  h.ite (h.deliverFault.ite h.rest)

/-! ## The fabric and the hosts -/

theorem State.Canonical.butFor {s : State} (h : s.Canonical) {f} (hf : ∀ t, t.Canonical → (f t).Canonical) {src} :
    (s.butFor src f).Canonical :=
  (hf _ h.rest).rest

theorem State.Canonical.serveAtomic {s : State} (h : s.Canonical) {pa n f} : (s.serveAtomic pa n f).1.Canonical := by
  unfold State.serveAtomic
  split
  · exact h.event
  · split
    · exact h.coherentRead
    · dsimp only
      split
      · exact h.withdraw.homeWrite.kept
      · exact h.withdraw

theorem State.Canonical.homeAtomic {s : State} (h : s.Canonical) {r} : (s.homeAtomic r).1.Canonical := h.serveAtomic

theorem State.Canonical.record {s : State} (h : s.Canonical) {dev pa n excl} : (s.record dev pa n excl).Canonical := h.rest.ite h.rest

theorem State.Canonical.serveRead {s : State} (h : s.Canonical) {src pa n excl} : (s.serveRead src pa n excl).Canonical :=
  h.sendTo.ite (h.butFor fun _ ht => ht.withdraw.ite ht.downgrade).record.sendTo

theorem State.Canonical.refuse {s : State} (h : s.Canonical) {src byte pa n team seq commit} :
    (s.refuse src byte pa n team seq commit).Canonical :=
  h.coherentRead.sendTo

theorem State.Canonical.serveWrite {s : State} (h : s.Canonical) {src pa bs team seq commit} :
    (s.serveWrite src pa bs team seq commit).Canonical := by
  unfold State.serveWrite
  split
  · exact h.refuse
  · exact (h.butFor fun _ ht => ht.coherentWrite).queuesWritten.sendTo

theorem State.Canonical.ringStep {s : State} (h : s.Canonical) {pa f} :
    (s.ringStep pa f).Canonical :=
  h.exposeAll.withdraw.setBytes.cbChanged.serveCb

theorem State.Canonical.cbStep {s : State} (h : s.Canonical) {a} : (s.cbStep a).Canonical := h.ringStep

theorem State.Canonical.released {s : State} (h : s.Canonical) {pa excl} : (s.released pa excl).Canonical := h.syncStep.grant

theorem State.Canonical.answerFar {s : State} (h : s.Canonical) {seq team v} : (s.answerFar seq team v).Canonical := by
  unfold State.answerFar
  split
  · exact h
  · exact h.onMember fun _ hc => hc.rest.ite hc

theorem State.Canonical.grantCame {s : State} (h : s.Canonical) {src pa team seq excl} : (s.grantCame src pa team seq excl).Canonical := by
  unfold State.grantCame
  split
  · exact h.sendTo
  · exact h.rest.syncStep

theorem State.Canonical.dataCame {s : State} (h : s.Canonical) {src pa bs} : (s.dataCame src pa bs).Canonical := by
  unfold State.dataCame
  dsimp only
  split
  · exact h
  · exact .ite h.rest (.ite h.rest (h.withMem (Mem.wf_writeAll _ h.mem_wf)))

theorem State.Canonical.writeEnded {s : State} (h : s.Canonical) {pa n team seq} : (s.writeEnded pa n team seq).Canonical := h.rest

theorem State.Canonical.refusalCame {s : State} (h : s.Canonical) {team seq byte pa commit bs} :
    (s.refusalCame team seq byte pa commit bs).Canonical := by
  unfold State.refusalCame
  dsimp only
  split
  · exact h.putBack.writeEnded.endLaunch
  · split
    · exact h.putBack.writeEnded
    · exact h.putBack.writeEnded.onMember fun _ hc => hc.refused

theorem State.Canonical.replyCame {s : State} (h : s.Canonical) {src pa n kept dirty} : (s.replyCame src pa n kept dirty).Canonical := by
  unfold State.replyCame
  refine .rest ?_
  refine h.foldl fun _ _ hs1 => ?_
  split
  · exact hs1.refuse
  · exact (hs1.butFor fun _ ht => ht.coherentWrite).queuesWritten

theorem State.Canonical.giveBack {s : State} (h : s.Canonical) {src pa n kept} : (s.giveBack src pa n kept).Canonical :=
  (h.downgrade.ite h.withdraw.l2Drops).rest.sendTo

theorem State.Canonical.hear {s : State} (h : s.Canonical) {src seq n tries what} :
    (s.hear src seq n tries what).Canonical :=
  h.updLaunch.ite h.rest

theorem State.Canonical.rollWith {s : State} (h : s.Canonical) {seq n} : (s.rollWith seq n).Canonical := by
  unfold State.rollWith
  split
  · exact h
  · exact h.rollSquad

theorem State.Canonical.cutsEnd {s : State} (h : s.Canonical) {seq} : (s.cutsEnd seq).Canonical := by
  unfold State.cutsEnd
  split
  · exact h
  · refine h.foldl fun _ _ hs1 => ?_
    split
    · exact hs1.cutFails.ite hs1
    · exact hs1

theorem State.Canonical.linkedCame {s : State} (h : s.Canonical) {src seq n tries what} :
    (s.linkedCame src seq n tries what).Canonical := by
  unfold State.linkedCame
  dsimp only
  split
  · exact h.hear.rollWith
  · exact h.hear.cutsEnd
  · exact h.hear

theorem State.Canonical.waitsFor {s : State} (h : s.Canonical) {src p} : Holds State.Canonical (s.waitsFor src p) := by
  unfold State.waitsFor
  dsimp only
  split
  · exact .none
  · exact .ite (.some (h.butFor fun _ ht => ht.askDown)) .none
  · exact .ite (.some (h.butFor fun _ ht => ht.askOthers)) .none
  · exact .ite (.some h.askOthers) .none

theorem State.Canonical.flowStep {s : State} (h : s.Canonical) {src cls} : (s.flowStep src cls).Canonical := h.rest

theorem State.Canonical.payload {s : State} (h : s.Canonical) {src p} : (s.payload src p).Canonical := by
  unfold State.payload
  split
  · exact h
  · split
    · exact h.serveWrite
    · exact h.homeAtomic.sendTo
    · exact h.serveAtomic.sendTo
    · exact h.serveRead
    · exact h.exposeAll.rest.serveCb
    · exact h.ringStep.sendTo
    · exact h.cbStep
    · exact h.cbStep
    · exact h.rest.sendTo
    · exact h.rest
    · exact h.enqueue
    · exact h.released
    · exact h.linkedCame
    · exact (h.foldl fun _ _ hs1 => hs1.slotGiven).ite h
    · exact h.grantCame
    · exact h.dataCame
    · exact h.answerFar
    · exact h.answerFar
    · exact h.writeEnded
    · exact h.refusalCame
    · exact h.replyCame
    · exact h.giveBack
    · exact h.giveBack
    · exact h
    · exact h
    · exact h

theorem State.Canonical.linkFailed {s : State} (h : s.Canonical) {port m} :
    (s.linkFailed port m).Canonical :=
  h.onPort.event.event.ite h.onPort.event

theorem State.Canonical.acked {s : State} (h : s.Canonical) {dst cls num} : (s.acked dst cls num).Canonical := h.setFlow

theorem State.Canonical.marked {s : State} (h : s.Canonical) {port src p} : (s.marked port src p).Canonical := h.onPort.setFlow

theorem State.Canonical.control {s : State} (h : s.Canonical) {port dst p} : (s.control port dst p).Canonical := h.rest

theorem State.Canonical.deliverMsg {s : State} (h : s.Canonical) {port m} : (s.deliverMsg port m).Canonical := by
  unfold State.deliverMsg
  dsimp only
  split
  · exact h
  · split
    · exact h.control.ite h
    · split
      next _ _ e => exact h.waitsFor.some_of_eq e
      · exact (h.marked.ite h).flowStep.payload.control

theorem State.Canonical.execLinkMessageReceive {s : State} (h : s.Canonical) {port m tagOk} :
    Out.Canonical (execLinkMessageReceive port m tagOk s) := by
  unfold Machine.execLinkMessageReceive
  dsimp only
  split
  · exact h
  · split
    · exact h.control.linkFailed
    · split
      · exact h.onPort.acked
      · exact h.onPort.linkFailed
      · exact h.onPort.deliverMsg

theorem State.Canonical.linkLost {s : State} (h : s.Canonical) {dst} :
    (s.linkLost dst).Canonical :=
  (h.foldl fun _ _ hs1 => hs1.endLaunch).rest

theorem State.Canonical.settleLinks {s : State} (h : s.Canonical) :
    s.settleLinks.Canonical :=
  h.ite (h.foldl fun _ _ hs1 => hs1.linkLost).rest

theorem State.Canonical.passesOn {s : State} (h : s.Canonical) {r} : (s.passesOn r).Canonical := by
  unfold State.passesOn
  split
  · exact h.rest
  · exact h

theorem State.Canonical.execSwitchRequestArrival {s : State} (h : s.Canonical) {r} : Out.Canonical (execSwitchRequestArrival r s) := by
  unfold Machine.execSwitchRequestArrival
  dsimp only
  split
  · exact .ite h.passesOn.rest h.passesOn.rest
  · exact h.passesOn.rest

theorem State.Canonical.execHomeAtomic {s : State} (h : s.Canonical) {k} : Out.Canonical (execHomeAtomic k s) := by
  unfold Machine.execHomeAtomic
  split
  · exact h
  · exact .ite h (.ite h.askOthers h.homeAtomic.rest)

theorem State.Canonical.replyTo {s : State} (h : s.Canonical) {x} : (s.replyTo x).Canonical := by
  unfold State.replyTo
  split
  · exact h.rest
  · exact h.answerFar.ite h.rest

theorem State.Canonical.execReplySplit {s : State} (h : s.Canonical) {k} : Out.Canonical (execReplySplit k s) := by
  unfold Machine.execReplySplit
  split
  · exact h
  · split
    · exact h
    · exact h.rest.foldl fun _ _ hs1 => hs1.replyTo

theorem State.Canonical.execCxlSnoop {s : State} (h : s.Canonical) {addr} : Out.Canonical (execCxlSnoop addr s) := h.withdraw.l2Drops

theorem State.Canonical.refuseHost {s : State} (h : s.Canonical) {port a byte} : (s.refuseHost port a byte).Canonical := h.rest.event

theorem State.Canonical.execHostWrite {s : State} (h : s.Canonical) {addr bytes} : Out.Canonical (execHostWrite addr bytes s) := by
  unfold Machine.execHostWrite
  dsimp only
  split
  · exact h
  · split
    · exact h.refuseHost
    next _ _ _ _ e1 => exact h.waitsFor.some_of_eq e1
    · exact (h.butFor fun _ ht => ht.coherentWrite).queuesWritten

theorem State.Canonical.hostRead {s : State} (h : s.Canonical) {port a n excl} : (s.hostRead port a n excl).Canonical := by
  unfold State.hostRead
  dsimp only
  split
  · exact h
  · split
    · exact h.event
    next _ _ _ _ e1 => exact h.waitsFor.some_of_eq e1
    · exact (h.butFor fun _ ht => ht.withdraw.ite ht.downgrade).record

theorem State.Canonical.hostReply {s : State} (h : s.Canonical) {port a n dirty} : (s.hostReply port a n dirty).Canonical := by
  unfold State.hostReply
  refine .rest ?_
  refine h.foldl fun _ _ hs1 => ?_
  split
  · exact hs1.refuseHost
  · exact (hs1.butFor fun _ ht => ht.coherentWrite).queuesWritten

theorem State.Canonical.trainHost {s : State} (h : s.Canonical) {port needs mem cache} :
    (s.trainHost port needs mem cache).Canonical :=
  h.rest

theorem State.Canonical.execLinkTraining {s : State} (h : s.Canonical) {port lanes partner reach} :
    Out.Canonical (execLinkTraining port lanes partner reach s) := by
  unfold Machine.execLinkTraining
  exact .ite h.onPort (.ite h h.onPort.rest)

/-! ## What a launch reads and loads -/

theorem State.Canonical.readPages {s : State} (h : s.Canonical) {root bad l} : Check.Ends (s.readPages root bad l) := by
  induction l generalizing s with
  | nil => exact h.okFst
  | cons a l ih =>
    unfold State.readPages
    split
    · exact Ends.failed
    · split
      · exact Ends.failed
      · exact (ih h.coherentRead).bind fun ⟨_, _⟩ hs => hs.okFst

theorem State.Canonical.table {s : State} (h : s.Canonical) {root va n bad} : Check.Ends (s.table root va n bad) := by
  unfold State.table
  exact Ends.ite Ends.failed h.readPages

theorem State.Canonical.readGroups {s : State} (h : s.Canonical) {r} : Check.Ends (s.readGroups r) := by
  unfold State.readGroups
  -- the length is generalised because Lean would unroll the reading of the 32768 bytes
  generalize 32768 = n
  exact .ite h.okFst (h.table.bind fun _ hs => Ends.any.bind fun _ _ => hs.okFst)

theorem State.Canonical.readDevices {s : State} (h : s.Canonical) {r l} : Check.Ends (s.readDevices r l) := by
  induction l generalizing s with
  | nil => exact h.okFst
  | cons a l ih =>
    unfold State.readDevices
    split
    · exact ih h
    · exact Ends.any.bind fun _ _ => h.table.bind fun ⟨_, _⟩ hs => Ends.any.bind fun _ _ => hs.table.bind fun ⟨_, _⟩ hs1 =>
        Ends.any.bind fun _ _ => (ih hs1).bind fun ⟨_, _⟩ hs2 => hs2.okFst

theorem State.Canonical.readRegions {s : State} (h : s.Canonical) {r} : Check.Ends (s.readRegions r) := by
  unfold State.readRegions
  exact Ends.ite h.okFst (h.table.bind fun ⟨_, _⟩ hs => Ends.any.bind fun _ _ => hs.okFst)

theorem State.Canonical.readProducers {s : State} (h : s.Canonical) {r order} : Check.Ends (s.readProducers r order) :=
  h.table.bind fun ⟨_, _⟩ hs => Ends.any.bind fun _ _ => hs.okFst

theorem State.Canonical.planCores {s : State} (h : s.Canonical) {r} : Check.Ends (s.planCores r) :=
  h.table.bind fun ⟨_, _⟩ hs => Ends.any.bind fun _ _ => Ends.any.bind fun _ _ => hs.okFst

theorem State.Canonical.stageChains {s : State} (h : s.Canonical) {r cores} : Check.Ends (s.stageChains r cores) := by
  unfold State.stageChains
  exact Ends.ite h.okFst (h.table.bind fun ⟨_, _⟩ hs => Ends.any.bind fun _ _ => hs.okFst)

theorem State.Canonical.planStages {s : State} (h : s.Canonical) {r} : Check.Ends (s.planStages r) :=
  h.table.bind fun ⟨_, _⟩ hs => Ends.any.bind fun _ _ => hs.stageChains.bind fun ⟨_, _⟩ hs1 => hs1.okFst

theorem State.Canonical.planLaunch {s : State} (h : s.Canonical) {l} : Check.Ends (s.planLaunch l) := by
  unfold State.planLaunch
  refine Ends.any.bind fun _ _ => ?_
  extract_lets +onlyGivenNames k
  have hk : ∀ u, u.1.Canonical → Machine.Ends (fun _ => True) (·.1.Canonical) (k u) := by
    intro ⟨t, x⟩ hs
    unfold k
    dsimp -zeta only
    extract_lets +onlyGivenNames j
    have hj : ∀ r, Machine.Ends (fun _ => True) (·.1.Canonical) (j r) := fun _ =>
      hs.readGroups.bind fun _ h1 => Ends.any.bind fun _ _ => h1.readDevices.bind fun _ h2 =>
        h2.readRegions.bind fun _ h3 => h3.readProducers.bind fun _ h4 => h4.okFst
    split
    · split
      · exact hj ()
      · exact Ends.bind (p := fun _ => False) Ends.failed nofun
    · exact hj ()
  split
  · exact h.planCores.bind fun _ => hk _
  · exact h.planStages.bind fun _ => hk _

/-! ## How a launch's cores start -/

theorem State.Canonical.prepareArray {s : State} (h : s.Canonical) {r i} : (s.prepareArray r i).Canonical := by
  unfold State.prepareArray
  exact h.drainWb.onL1

theorem State.Canonical.enterDie {s : State} (h : s.Canonical) {ctx d} : (s.enterDie ctx d).Canonical :=
  h.ite (h.foldl fun _ _ hs1 => hs1.drainWb.onL1).setDie

theorem Core.Canonical.launched {c : Core} {r gen team chainPos x d} : (c.launched r gen team chainPos x d).Canonical := .rest .freed

theorem State.Canonical.startCore {s : State} (h : s.Canonical) {l args g entry x} : (s.startCore l args g entry x).Canonical :=
  h.prepareArray.on fun _ _ => .launched

theorem State.Canonical.refuseLaunch {s : State} (h : s.Canonical) {seq e} : (s.refuseLaunch seq e).Canonical := (h.event.ite h).endLaunch

theorem State.Canonical.readArgs {s : State} (h : s.Canonical) {r} : Check.Ends (s.readArgs r) := by
  unfold State.readArgs
  split
  next _ _ _ e => exact (h.table.ok_of_eq e).okFst
  · exact Ends.ite Ends.failed h.okFst

theorem State.Canonical.startInstance {s : State} (h : s.Canonical) {seq stage inst pod} :
    (s.startInstance seq stage inst pod).Canonical := by
  unfold State.startInstance
  split
  · exact h
  · split
    · exact h
    · dsimp only
      split
      · exact h.refuseLaunch
      next _ _ _ e2 => exact ((h.readArgs.ok_of_eq e2).enterDie.foldl fun _ _ hs2 => hs2.startCore).updLaunch

theorem State.Canonical.askReports {s : State} (h : s.Canonical) {l} :
    (s.askReports l).Canonical :=
  h.foldl fun _ _ hs1 => hs1.sendTo.ite hs1.rest

theorem State.Canonical.dropReports {s : State} (h : s.Canonical) {l} : (s.dropReports l).Canonical := h.rest

theorem State.Canonical.startLaunch {s : State} (h : s.Canonical) {l p g} : (s.startLaunch l p g).Canonical := by
  unfold State.startLaunch
  dsimp only
  split
  · split
    · exact h.rest.updLaunch.clearCounts.refuseLaunch
    next _ _ _ e1 => exact (((h.rest.updLaunch.clearCounts.readArgs.ok_of_eq e1).foldl fun _ _ hs2 => hs2.enterDie).foldl fun _ _ hs2 =>
      hs2.startCore).updLaunch
  · exact h.rest.updLaunch.clearCounts.dropReports.askReports.foldl fun _ _ hs1 => hs1.startInstance

/-! ## The launch unit -/

theorem State.Canonical.askStop {s : State} (h : s.Canonical) {cs why} : (s.askStop cs why).Canonical :=
  h.foldl fun _ _ hs1 => hs1.on fun _ hc => hc.ite hc.rest

theorem State.Canonical.execWaitThreshold {s : State} (h : s.Canonical) {c} : Out.Canonical (execWaitThreshold c s) := by
  unfold Machine.execWaitThreshold
  dsimp only
  split
  · exact h
  · exact .ite h.askStop h

theorem State.Canonical.deadline {s : State} (h : s.Canonical) {c p} : (s.deadline c p).Canonical :=
  (h.foldl fun _ _ hs1 => hs1.on fun _ hc => hc.ite hc.rest).ite h

theorem State.Canonical.execSwapDeadline {s : State} (h : s.Canonical) {c} : Out.Canonical (execSwapDeadline c s) := h.deadline

theorem State.Canonical.execPreemptDeadline {s : State} (h : s.Canonical) {c} : Out.Canonical (execPreemptDeadline c s) := h.deadline

theorem State.Canonical.faultAtStop {s : State} (h : s.Canonical) {i} :
    (s.faultAtStop i).Canonical :=
  h.deliverFault.on fun _ hc => hc.rest.ite hc

theorem State.Canonical.trySave {s : State} (h : s.Canonical) {c} : (s.trySave c).Canonical := by
  unfold State.trySave
  dsimp only
  split
  · exact h.saveTeam.ite h
  · exact h

theorem State.Canonical.returnTeam {s : State} (h : s.Canonical) {l m} : (s.returnTeam l m).Canonical := by
  unfold State.returnTeam
  dsimp only
  have h1 : (if l.stages.isEmpty then s else s.moveInstance m.seq ((s.teamOf m).map (·.home)) (s.podBack l m)).Canonical :=
    h.ite h.moveInstance
  exact h1.enterDie.restoreTeam (h1.images_filter _)

theorem State.Canonical.execTeamReturn {s : State} (h : s.Canonical) {c} : Out.Canonical (execTeamReturn c s) := by
  unfold Machine.execTeamReturn
  split
  · exact h.returnTeam
  · exact h

theorem State.Canonical.givePod {s : State} (h : s.Canonical) {seq stage pod} : (s.givePod seq stage pod).Canonical := by
  unfold State.givePod
  split
  · exact h
  · split
    · exact h.moveInstance.updLaunch.enterDie.restoreTeam (h.moveInstance.updLaunch.images_filter _)
    · exact h.startInstance

theorem State.Canonical.gainOne {s : State} (h : s.Canonical) {x} : (s.gainOne x).Canonical := by
  unfold State.gainOne
  split
  · exact h.givePod
  · exact h

theorem State.Canonical.gainPods {s : State} (h : s.Canonical) {n} : (s.gainPods n).Canonical := by
  induction n generalizing s with
  | zero => exact h
  | succ n ih =>
    unfold State.gainPods
    exact (ih (h.foldl fun _ _ hs1 => hs1.gainOne)).ite h

theorem State.Canonical.execOccupancyReport {s : State} (h : s.Canonical) {cb resv head tail count} :
    Out.Canonical (execOccupancyReport cb resv head tail count s) :=
  h.rest.gainPods

theorem State.Canonical.execLaunchStart {s : State} (h : s.Canonical) {seq} : Out.Canonical (execLaunchStart seq s) := by
  unfold Machine.execLaunchStart
  split
  · exact h
  · split
    · exact h
    · split
      · exact h.refuseLaunch
      next _ _ _ e1 =>
        split
        · exact h.refuseLaunch
        · exact .ite (h.planLaunch.ok_of_eq e1).startLaunch h

theorem State.Canonical.writeOwed {s : State} (h : s.Canonical) : s.writeOwed.Canonical := (h.foldl fun _ _ hs1 => hs1.coherentWrite).rest

theorem State.Canonical.bringUp {s : State} (h : s.Canonical) : s.bringUp.Canonical := h.rest.ite (h.rest.writeOwed.ite h.rest)

theorem State.Canonical.booted {s : State} (h : s.Canonical) : s.booted.Canonical := h.bringUp.ite h

theorem State.Canonical.serveWaiting {s : State} (h : s.Canonical) : s.serveWaiting.Canonical := h.foldl fun _ _ hs1 => hs1.serveCb

theorem State.Canonical.settle {before : State} {after : State} (hafter : after.Canonical) : (before.settle after).Canonical := by
  unfold State.settle
  dsimp only
  split
  · exact (hafter.booted.settleLinks.serveWaiting.foldl fun _ _ hs => hs.trySave).relayImages.gainPods
  · exact (hafter.booted.settleLinks.serveWaiting.foldl fun _ _ hs => hs.trySave).relayImages

/-! ## The face toward system software -/

theorem State.Canonical.onQueue {s : State} (h : s.Canonical) {q f} : (s.onQueue q f).Canonical := h.rest.ite h

theorem State.Canonical.takeRecord {s : State} (h : s.Canonical) {k ws} : (s.takeRecord k ws).Canonical := by
  unfold State.takeRecord
  dsimp only
  split
  · exact h.rest
  · refine .onQueue ?_
    split
    · exact h.rest.rest.ite h.rest
    · exact h.rest

theorem State.Canonical.execLaunchRecordAccept {s : State} (h : s.Canonical) {q} : Out.Canonical (execLaunchRecordAccept q s) := by
  unfold Machine.execLaunchRecordAccept
  exact .ite h h.coherentRead.takeRecord.coherentWrite.rest.onQueue

theorem State.Canonical.writeDone {s : State} (h : s.Canonical) {d} : (s.writeDone d).Canonical := by
  unfold State.writeDone
  exact h.coherentWrite.rest.onQueue

theorem State.Canonical.execCompletionRecordWrite {s : State} (h : s.Canonical) {q} : Out.Canonical (execCompletionRecordWrite q s) := by
  unfold Machine.execCompletionRecordWrite
  dsimp only
  split
  · exact .ite h.writeDone h
  · exact h

theorem State.Canonical.doorbell {s : State} (h : s.Canonical) {q pidx} :
    (s.doorbell q pidx).Canonical :=
  h.onQueue.onQueue.event.ite h.onQueue

theorem State.Canonical.execQueueDoorbell {s : State} (h : s.Canonical) {q pidx} :
    Out.Canonical (execQueueDoorbell q pidx s) :=
  h.doorbell.ite h

theorem State.Canonical.execQueueCheadWrite {s : State} (h : s.Canonical) {q chead} :
    Out.Canonical (execQueueCheadWrite q chead s) :=
  h.onQueue

theorem State.Canonical.enable {s : State} (h : s.Canonical) {q} : (s.enable q).Canonical := h.ite h.onQueue.doorbell

theorem State.Canonical.execQueueEnable {s : State} (h : s.Canonical) {q} : Out.Canonical (execQueueEnable q s) := h.enable.ite h

theorem State.Canonical.disable {s : State} (h : s.Canonical) {q} : (s.disable q).Canonical := h.onQueue

theorem State.Canonical.execQueueDisable {s : State} (h : s.Canonical) {q} : Out.Canonical (execQueueDisable q s) := h.disable

theorem State.Canonical.emptyAll {s : State} (h : s.Canonical) : s.emptyAll.Canonical := h.foldl fun _ _ hs1 => hs1.ite hs1.drainWb.onL1

/-- Memory under a new device index is written anew from the bytes that lie at its own addresses. -/
theorem State.Canonical.rekeyed {s : State} (h : s.Canonical) {idx} : (s.rekeyed idx).Canonical := by
  unfold State.rekeyed
  exact h.ite (h.withMem (Mem.wf_writeAll _ (Mem.wf_filter _ h.mem_wf)))

theorem State.Canonical.setIndex {s : State} (h : s.Canonical) {idx} : (s.setIndex idx).Canonical := h.ite h.emptyAll.rekeyed.rest

theorem State.Canonical.execDevidxWrite {s : State} (h : s.Canonical) {idx} : Out.Canonical (execDevidxWrite idx s) := h.setIndex

theorem State.Canonical.execEheadWrite {s : State} (h : s.Canonical) {ehead} : Out.Canonical (execEheadWrite ehead s) := h.rest

theorem State.Canonical.answer {s : State} (h : s.Canonical) {seq status} : (s.answer seq status).Canonical := h.endLaunch

theorem State.Canonical.preempt {s : State} (h : s.Canonical) {seq} : (s.preempt seq).Canonical := h.updLaunch.askStop

theorem State.Canonical.execPreEmpt {s : State} (h : s.Canonical) {seq} : Out.Canonical (execPreEmpt seq s) := by
  unfold Machine.execPreEmpt
  split
  · exact h
  · split
    · exact (h.foldl fun _ _ hs1 => hs1.preempt).answer
    · split
      · exact h.answer
      · exact h.preempt.answer

theorem State.Canonical.execResume {s : State} (h : s.Canonical) {seq} : Out.Canonical (execResume seq s) := by
  unfold Machine.execResume
  split
  · exact h
  · split
    · exact h.answer
    · exact h.updLaunch.answer

theorem State.Canonical.execEndLaunch {s : State} (h : s.Canonical) {seq} : Out.Canonical (execEndLaunch seq s) := by
  unfold Machine.execEndLaunch
  split
  · exact h
  · split
    · exact h.answer
    · exact h.endLaunch.answer

theorem State.Canonical.execInvalidateTlb {s : State} (h : s.Canonical) {seq} : Out.Canonical (execInvalidateTlb seq s) := by
  unfold Machine.execInvalidateTlb
  split
  · exact h
  · refine State.Canonical.answer ?_
    exact ⟨h.mem_wf, h.cores_map fun _ hc => hc.rest, h.images⟩

theorem State.Canonical.execReturnLink {s : State} (h : s.Canonical) {seq} : Out.Canonical (execReturnLink seq s) := by
  unfold Machine.execReturnLink
  split
  · exact h
  · exact h.onPort.answer

theorem State.Canonical.execPowerMode {s : State} (h : s.Canonical) {seq} : Out.Canonical (execPowerMode seq s) := by
  unfold Machine.execPowerMode
  split
  · exact h
  · exact h.rest.answer

theorem Core.Canonical.afterReset {c : Core} : c.afterReset.Canonical := Core.Canonical.reset.rest

theorem State.Canonical.resetUnits {s : State} (h : s.Canonical) : s.resetUnits.Canonical :=
  ⟨h.mem_wf, h.cores_map fun _ _ => .afterReset, fun _ hm => nomatch hm⟩

theorem State.Canonical.interruptOne {s : State} (h : s.Canonical) {l} : (s.interruptOne l).Canonical := by
  unfold State.interruptOne
  split
  · exact h
  · split
    · exact h.rerun
    · exact h.updLaunch.ite h.endLaunch
    · exact h

theorem State.Canonical.interrupt {s : State} (h : s.Canonical) : s.interrupt.Canonical := h.foldl fun _ _ hs1 => hs1.interruptOne

theorem State.Canonical.warmReset {s : State} (h : s.Canonical) : s.warmReset.Canonical := h.interrupt.emptyAll.resetUnits.rest

theorem State.Canonical.execWrst {s : State} (h : s.Canonical) : Out.Canonical (execWrst s) := h.warmReset

theorem State.Canonical.execFunctionLevelReset {s : State} (h : s.Canonical) : Out.Canonical (execFunctionLevelReset s) := h.warmReset

theorem State.Canonical.owe {s : State} (h : s.Canonical) {d} : (s.owe d).Canonical := h.rest.onQueue

theorem State.Canonical.oweAll {s : State} (h : s.Canonical) {status} : (s.oweAll status).Canonical :=
  (h.foldl fun _ _ hs1 => hs1.endLaunch).foldl fun _ _ hs1 => hs1.owe

theorem State.Canonical.lost {s : State} (h : s.Canonical) : s.lost.Canonical :=
  h.resetUnits.withMem (keepOutside_wf h.resetUnits.mem_wf)

theorem State.Canonical.coldReset {s : State} (h : s.Canonical) : s.coldReset.Canonical := h.oweAll.lost.bringUp

theorem State.Canonical.execColdReset {s : State} (h : s.Canonical) : Out.Canonical (execColdReset s) := h.coldReset

theorem State.Canonical.writeCbase {s : State} (h : s.Canonical) {q v} : (s.writeCbase q v).Canonical :=
  ((h.ite h.onQueue).ite (h.ite h.onQueue).enable).ite (h.ite h.onQueue).disable

theorem State.Canonical.execHostRegisterWrite {s : State} (h : s.Canonical) {off v} : Out.Canonical (execHostRegisterWrite off v s) := by
  unfold Machine.execHostRegisterWrite
  dsimp only
  split
  · exact h.warmReset.ite h
  · split
    · exact h.setIndex
    · split
      · exact h.rest
      · split
        · exact h.rest
        · split
          · exact h
          · split
            · exact h.ite h.onQueue
            · exact h.writeCbase
            · exact h.onQueue.doorbell
            · exact h

theorem State.Canonical.execAttestationRequest {s : State} (h : s.Canonical) {nonce} :
    Out.Canonical (execAttestationRequest nonce s) :=
  h.rest

theorem State.Canonical.execThermalThrottle {s : State} (h : s.Canonical) : Out.Canonical (execThermalThrottle s) := h.rest

theorem State.Canonical.execThermalTrip {s : State} (h : s.Canonical) : Out.Canonical (execThermalTrip s) := h.oweAll.lost.rest

/-! ## Every instruction -/

/-- Each instruction and each event by the lemma of its own function. -/
theorem State.Canonical.exec {s : State} (h : s.Canonical) {i} : Out.Canonical (exec i s) := by
  unfold Machine.exec
  split
  · exact h.execNop
  · exact h.execAdd
  · exact h.execSub
  · exact h.execAnd
  · exact h.execOr
  · exact h.execXor
  · exact h.execAndn
  · exact h.execShl
  · exact h.execShr
  · exact h.execSar
  · exact h.execRot
  · exact h.execMin
  · exact h.execMax
  · exact h.execMinu
  · exact h.execMaxu
  · exact h.execAddImm
  · exact h.execSubImm
  · exact h.execAndImm
  · exact h.execOrImm
  · exact h.execXorImm
  · exact h.execAndnImm
  · exact h.execShlImm
  · exact h.execShrImm
  · exact h.execSarImm
  · exact h.execRotImm
  · exact h.execMinImm
  · exact h.execMaxImm
  · exact h.execMinuImm
  · exact h.execMaxuImm
  · exact h.execMul
  · exact h.execMulh
  · exact h.execMulhu
  · exact h.execDiv
  · exact h.execDivu
  · exact h.execRem
  · exact h.execRemu
  · exact h.execClz
  · exact h.execCtz
  · exact h.execPopc
  · exact h.execBrev
  · exact h.execBswap
  · exact h.execMix
  · exact h.execBfx
  · exact h.execBfi
  · exact h.execCmp
  · exact h.execCmpi
  · exact h.execSel
  · exact h.execGlog
  · exact h.execMovi
  · exact h.execMovw
  · exact h.execFadd
  · exact h.execFsub
  · exact h.execFmul
  · exact h.execFdiv
  · exact h.execFsqrt
  · exact h.execFmin
  · exact h.execFmax
  · exact h.execFfma
  · exact h.execFcmp
  · exact h.execFcvt
  · exact h.execFclass
  · exact h.execIdr
  · exact h.execSrr
  · exact h.execSrw
  · exact h.execBr
  · exact h.execBrl
  · exact h.execCall
  · exact h.execCalll
  · exact h.execRet
  · exact h.execJmpr
  · exact h.execLoop
  · exact h.execEndl
  · exact h.execBrk
  · exact h.execTrap
  · exact h.execSyscall
  · exact h.execEret
  · exact h.execExit
  · exact h.execDetach
  · exact h.execJoin
  · exact h.execYield
  · exact h.execLd
  · exact h.execLdx
  · exact h.execSt
  · exact h.execRflush
  · exact h.execRdrop
  · exact h.execRpin
  · exact h.execRunpin
  · exact h.execPref
  · exact h.execFence
  · exact h.execIfence
  · exact h.execPfence
  · exact h.execAmo
  · exact h.execCas
  · exact h.execAcq
  · exact h.execRel
  · exact h.execBar
  · exact h.execSstep
  · exact h.execMsgsend
  · exact h.execMsgwait
  · exact h.execTrig
  · exact h.execWaitdep
  · exact h.execXwait
  · exact h.execCcwait
  · exact h.execTwait
  · exact h.execTrel
  · exact h.execTstate
  · exact h.execHget
  · exact h.execHset
  · exact h.execHmov
  · exact h.execClaim
  · exact h.execVrelease
  · exact h.execCbwait
  · exact h.execCbrel
  · exact h.execHld
  · exact h.execHst
  · exact h.execHview
  · exact h.execSend
  · exact h.execCbinit
  · exact h.execCbacq
  · exact h.execCbcommit
  · exact h.execMprog
  · exact h.execRset
  · exact h.execPdecl
  · exact h.execPwait
  · exact h.execPstate
  · exact h.execXstat
  · exact h.execCcrd
  · exact h.execVarith
  · exact h.execVfma
  · exact h.execVcmp
  · exact h.execVsel
  · exact h.execVlogic
  · exact h.execVshift
  · exact h.execVcvt
  · exact h.execVreq
  · exact h.execVsfu
  · exact h.execVred
  · exact h.execVscan
  · exact h.execVperm
  · exact h.execVbcast
  · exact h.execVmov
  · exact h.execVfill
  · exact h.execVclass
  · exact h.execVmix
  · exact h.execMgang
  · exact h.execMma
  · exact h.execMrec
  · exact h.execMhatch
  · exact h.execMunhatch
  · exact h.execEpi
  · exact h.execRstat
  · exact h.execMwait
  · exact h.execMabort
  · exact h.execRfwd
  · exact h.execRrev
  · exact h.execRchk
  · exact h.execPut
  · exact h.execGet
  · exact h.execPld
  · exact h.execPconv
  · exact h.execTfill
  · exact h.execTdrain
  · exact h.execPendingWriteLand
  · exact h.execL1Fill
  · exact h.execOwnershipGrant
  · exact h.execInvalidate
  · exact h.execDowngrade
  · exact h.execWalkComplete
  · exact h.execHotRowHalve
  · exact h.execMmaStart
  · exact h.execMmaComplete
  · exact h.execMrecComplete
  · exact h.execMhatchComplete
  · exact h.execRstatComplete
  · exact h.execEpiComplete
  · exact h.execSfuRequestStart
  · exact h.execSfuDeliver
  · exact h.execTfillComplete
  · exact h.execTdrainComplete
  · exact h.execSendLand
  · exact h.execPacketLand
  · exact h.execGetRequestServe
  · exact h.execGetReplyLand
  · exact h.execSubroundOpen
  · exact h.execSubroundClose
  · exact h.execMessageArrive
  · exact h.execPhaseClose
  · exact h.execAcqGrant
  · exact h.execSlotReturn
  · exact h.execHomeAtomic
  · exact h.execSstepComplete
  · exact h.execOccupancyReport
  · exact h.execPlacementCutClose
  · exact h.execConversionPartWritten
  · exact h.execConversionComplete
  · exact h.execFabricCutClose
  · exact h.execRollback
  · exact h.execLinkMessageReceive
  · exact h.execSwitchRequestArrival
  · exact h.execReplySplit
  · exact h.execCxlSnoop
  · exact h.execHostWrite
  · exact h.execEngineFaultDelivery
  · exact h.execWaitThreshold
  · exact h.execSwapDeadline
  · exact h.execTeamReturn
  · exact h.execPreemptDeadline
  · exact h.execLaunchRecordAccept
  · exact h.execLaunchStart
  · exact h.execCompletionRecordWrite
  · exact h.execQueueDoorbell
  · exact h.execQueueCheadWrite
  · exact h.execQueueEnable
  · exact h.execQueueDisable
  · exact h.execDevidxWrite
  · exact h.execEheadWrite
  · exact h.execHostRegisterWrite
  · exact h.execPreEmpt
  · exact h.execResume
  · exact h.execEndLaunch
  · exact h.execInvalidateTlb
  · exact h.execReturnLink
  · exact h.execPowerMode
  · exact h.execWrst
  · exact h.execFunctionLevelReset
  · exact h.execColdReset
  · exact h.execAttestationRequest
  · exact h.execLinkTraining
  · exact h.execThermalThrottle
  · exact h.execThermalTrip
  · exact h.execCommandStoppedAtFault
  · exact h.execWriteBackComplete

/-! ## A turn of a core -/

theorem State.Canonical.enter {s : State} (h : s.Canonical) {i g new} : Run.Ends (·.1.Canonical) (State.granule.enter i g s new) :=
  h.enters.bind fun _ ht => (ht.on fun _ hc => hc.rest).okFst

theorem State.Canonical.granule {s : State} (h : s.Canonical) {i g} : Run.Ends (·.1.Canonical) (s.granule i g) := by
  unfold State.granule
  dsimp only
  split
  · exact Ends.ite h.okFst h.enter
  · exact h.enter

theorem State.Canonical.fetchBytes {s : State} (h : s.Canonical) {i pa two} : Run.Ends (·.1.Canonical) (s.fetchBytes i pa two) := by
  unfold State.fetchBytes
  exact h.granule.bind fun ⟨_, _⟩ hs => Ends.ite (hs.granule.bind fun ⟨_, _⟩ hs1 => hs1.okFst) hs.okFst

theorem Core.Canonical.fetched {c : Core} {s : State} (hs : s.Canonical) {bs} : (fetched c s bs).Canonical := by
  unfold Machine.fetched
  split
  · exact hs
  · exact hs

theorem State.Canonical.fetch {s : State} (h : s.Canonical) {i} : (s.fetch i).Canonical := by
  unfold State.fetch
  dsimp only
  split
  · exact h
  · split
    next _ _ _ e => exact h.translate.fst_of_eq e
    next _ _ e => exact h.translate.fst_of_eq e
    next _ s2 _ _ e =>
      have hs2 : s2.Canonical := h.translate.fst_of_eq e
      split
      next _ _ e1 => exact hs2.fetchBytes.error_of_eq e1
      next _ _ e1 => exact hs2.fetchBytes.error_of_eq e1
      · exact hs2
      next _ s1 _ e1 =>
        have hs1 : s1.Canonical := hs2.fetchBytes.ok_of_eq e1
        split
        · exact hs1
        · split
          · exact hs1
          · split
            · exact Core.Canonical.fetched hs1
            · split
              next _ _ e2 => exact hs1.fetchBytes.error_of_eq e2
              next _ _ e2 => exact hs1.fetchBytes.error_of_eq e2
              · exact hs1
              next _ _ _ e2 => exact Core.Canonical.fetched (hs1.fetchBytes.ok_of_eq e2)

theorem State.Canonical.as {s : State} (h : s.Canonical) {i} : (s.as i).Canonical := by
  unfold State.as
  split
  · exact h.rest
  · exact h

theorem State.Canonical.push {s : State} (h : s.Canonical) {fs r} :
    (s.push fs r).Canonical :=
  h.foldl fun _ _ hs1 => hs1.on fun _ hc => hc.rest

theorem State.Canonical.holdAt {s : State} (h : s.Canonical) {i} : (s.holdAt i).Canonical := h.on fun _ hc => hc.rest

theorem State.Canonical.lead {s : State} (h : s.Canonical) {i ins n} : Out.Canonical (s.lead i ins n) := by
  unfold State.lead
  dsimp only
  split
  · exact h.as.exec
  · split
    next _ s1 e =>
      have hs1 : s1.Canonical := ((h.push.on fun _ hc => hc.rest).ite h).as.exec.next_of_eq e
      split
      · split
        · exact hs1.foldl fun _ _ hs2 => hs2.on fun _ hc => hc.leaderTrapped
        · exact .ite hs1 (.ite hs1.push (.ite hs1 (h.push.on fun _ hc => hc.rest).holdAt))
      · split
        · exact hs1.foldl fun _ _ hs2 => hs2.on fun _ hc => hc.leaderTrapped
        · exact .ite hs1 (.ite hs1.push (.ite hs1 h.holdAt))
    · exact ((h.push.on fun _ hc => hc.rest).ite h).as.exec

theorem Core.Canonical.detached {c : Core} (h : c.Canonical) : c.detached.Canonical := h.rest

theorem State.Canonical.follow {s : State} (h : s.Canonical) {k} : Out.Canonical (s.follow k) := by
  unfold State.follow
  split
  · exact h
  · split
    · exact h.on fun _ hc => hc.detached
    · split
      next _ s1 e1 =>
        have hs1 : s1.Canonical := h.as.exec.next_of_eq e1
        dsimp only
        split
        · exact hs1
        · split
          · exact hs1
          · split
            · exact h.holdAt
            · split
              · exact hs1.on fun _ hc => hc.detached
              · exact .ite (hs1.on fun _ hc => hc.rest) (hs1.on fun _ hc => hc.detached)
      · exact h.as.exec

theorem State.Canonical.landTo {s : State} (h : s.Canonical) {i slot n} : (s.landTo i slot n).Canonical := by
  induction n generalizing s with
  | zero => exact h
  | succ n ih =>
    unfold State.landTo
    dsimp only
    split
    · split
      · exact h
      · split
        · exact ih (h.on fun _ hc => hc.land)
        · exact h
    · split
      · split
        next _ _ e2 => exact ih (h.sendMove.some_of_eq e2)
        · exact h
      · split
        · exact h
        · exact h

theorem State.Canonical.resumeWait {s : State} (h : s.Canonical) {i w} : (s.resumeWait i w).Canonical := by
  unfold State.resumeWait
  split
  · split
    · exact h.on fun _ hc => hc.rest
    · exact (h.on fun _ hc => hc.waitEnds).as.openWindow.ite (h.on fun _ hc => hc.rest)
  · exact (h.on fun _ hc => hc.rest).tryStep
  · exact h.on fun _ hc => hc.rest

theorem State.Canonical.checked {s : State} (h : s.Canonical) {i} :
    (s.checked i).Canonical :=
  h.event.rollback.ite (h.event.on fun _ hc => hc.rest)

theorem State.Canonical.issueAt {s : State} (h : s.Canonical) {i} : Out.Canonical (s.issueAt i) := by
  unfold State.issueAt
  dsimp only
  split
  · exact h.follow
  · split
    · exact h
    · split
      next _ _ e => exact h.fetch.of_eq e
      next _ _ _ e => exact (h.fetch.of_eq e).tellTrap.as.takeTrap
      next _ _ _ _ e => exact (h.fetch.of_eq e).lead

theorem State.Canonical.issueTurn {s : State} (h : s.Canonical) {i} :
    Out.Canonical (s.issueTurn i) :=
  ((h.on fun _ hc => hc.honour).ite h).issueAt

theorem State.Canonical.landUpTo {s : State} (h : s.Canonical) {i slot} : (s.landUpTo i slot).Canonical := h.landTo

theorem State.Canonical.faultTurn {s : State} (h : s.Canonical) {i} : Out.Canonical (s.faultTurn i) := by
  unfold State.faultTurn
  split
  next _ s2 e =>
    have hs2 : s2.Canonical := h.landUpTo.of_eq e
    split
    next _ _ e1 => exact .ite (hs2.issueTurn.next_of_eq e1) h.deliverFault
    · exact hs2.issueTurn
  · exact h.deliverFault

theorem State.Canonical.goOn {s : State} (h : s.Canonical) {i} : Out.Canonical (s.goOn i) := by
  unfold State.goOn
  dsimp only
  split
  · exact .ite h.deliverFault h.resumeWait
  · exact .ite h.deliverFault (.ite h.checked (.ite h.faultTurn h.issueTurn))

theorem State.Canonical.turn {s : State} (h : s.Canonical) {i} : Out.Canonical (s.turn i) := by
  unfold State.turn
  dsimp only
  split
  · exact h.faultAtStop
  · split
    · exact h
    · split
      next _ _ e => exact ((h.on fun _ hc => hc.rest).landUpTo.of_eq e).goOn
      next _ _ e => exact (h.on fun _ hc => hc.rest).landUpTo.of_eq e
      next _ _ e => exact (h.on fun _ hc => hc.rest).landUpTo.of_eq e

/-- Taking the next move from the agenda keeps storage canonical. -/
theorem State.Canonical.nextMove {s : State} (h : s.Canonical) : Holds (·.2.Canonical) s.nextMove := by
  unfold State.nextMove
  dsimp only
  split
  · exact Holds.some h.rest
  · split
    · exact Holds.some h
    · intro x e
      obtain ⟨m, _, rfl⟩ := Option.map_eq_some_iff.mp e
      exact h

theorem State.Canonical.make {s : State} (h : s.Canonical) {x} : Out.Canonical (s.make x) := by
  unfold State.make
  split
  · exact h.turn
  · exact h.exec
  · exact h.partAhead
  · exact h.rest
  · exact h.trainHost
  · exact h.rest
  · exact h.hostRead
  · exact h.hostReply

/-! ## A step -/

theorem State.Canonical.step {s : State} (h : s.Canonical) : Out.Canonical (step s) := by
  unfold Machine.step
  split
  · exact .ite trivial h.booted.rest
  next m s1 e =>
    have h1 : s1.Canonical := h.nextMove.some_of_eq e
    split
    next t e1 => exact (h1.make.next_of_eq e1).settle.rest
    next r n =>
      cases e1 : s1.make m with
      | next t => exact absurd e1 (n t)
      | fault f => trivial
      | refused r => trivial

/-! ## The obligations -/

/-- A device after reset holds no byte storage: its memory and scratchpads are empty, and there are no images. -/
theorem State.Canonical.reset : State.reset.Canonical :=
  ⟨State.reset_mem_wf, fun _ hc => Vector.eq_of_mem_replicate hc ▸ Core.Canonical.reset, fun _ hm => nomatch hm⟩

/-- A device after reset has no queue. -/
theorem State.reset_queuesGuarded : State.reset.queuesGuarded = true := rfl

/-- Settles O57: nothing is stored after reset, and there is no queue. -/
theorem resetKeepsInvariants : Obligations.ResetKeepsInvariants :=
  ⟨State.reset.canonical_iff.mpr .reset, State.reset_queuesGuarded⟩

/-- Settles O58: a step is a move of the agenda or of the device, what settles after it, or the bring-up, and each keeps storage canonical. -/
theorem canonicalKept : Obligations.CanonicalKept := by
  unfold Obligations.CanonicalKept
  intro s t hs e
  rw [State.canonical_iff] at hs ⊢
  exact hs.step.next_of_eq e

end Sys2Proof.Machine
end

section
/-! PROOFS. Encoding and decoding (R16 to R40). A word is its fields and its fields are the word's (`Raw.ofWord_toWord`, `Raw.toWord_ofWord`).
`ReadsAs`: wherever the word of an instruction stands, the decoder reads that instruction (O52). `Spelt`: an instruction that the decoder
has read is well formed, and its word is the one that it was read from (O53). -/

namespace Sys2Proof

/-! ## Checks of the decoder -/

@[simp] theorem bind_eq_ok {ε α β : Type} {x : Except ε α} {f : α → Except ε β} {b : β} :
    (x >>= f) = .ok b ↔ ∃ a, x = .ok a ∧ f a = .ok b := by
  cases x with
  | error e => exact ⟨(nomatch ·), fun ⟨_, h, _⟩ => nomatch h⟩
  | ok a => exact ⟨fun h => ⟨a, rfl, h⟩, fun ⟨_, h, e⟩ => Except.ok.inj h ▸ e⟩

@[simp] theorem map_eq_ok {ε α β : Type} {x : Except ε α} {f : α → β} {b : β} : f <$> x = .ok b ↔ ∃ a, x = .ok a ∧ f a = b := by
  cases x <;> simp [Functor.map, Except.map]

@[simp] theorem chk_eq_ok {d : Detail} {c : Bool} {u : Unit} : chk d c = .ok u ↔ c = true := by
  cases c <;> simp [chk]

@[simp] theorem code5_eq_ok {α : Type} {o : Option α} {x : α} : code5 o = .ok x ↔ o = some x := by
  cases o <;> simp [code5]

@[simp] theorem zeros_eq_ok {l : List Nat} {u : Unit} : zeros l = .ok u ↔ ∀ x ∈ l, x = 0 := by
  simp [zeros]

@[simp] theorem isH_eq_ok {n : Nat} {u : Unit} : isH n = .ok u ↔ n < 32 := by simp [isH]

@[simp] theorem isG_eq_ok {n : Nat} {u : Unit} : isG n = .ok u ↔ n < 16 := by simp [isG]

/-! ## Code enumerations -/

/-- A code enumeration: its decoder answers a value at the value's own code only. -/
structure Coded {α : Type} (ofCode : Nat → Option α) (code : α → Nat) : Prop where
  of_code : ∀ c, ofCode (code c) = some c
  eq_code : ∀ {n c}, ofCode n = some c → n = code c

theorem Scope.coded : Coded Scope.ofCode Scope.code where
  of_code c := by cases c <;> rfl
  eq_code h := by unfold Scope.ofCode at h; split at h <;> cases h <;> rfl

@[simp] theorem Scope.ofCode_code (c : Scope) : Scope.ofCode c.code = some c := Scope.coded.of_code c

theorem Scope.code_lt (c : Scope) : c.code < 5 := by cases c <;> decide

theorem Size.coded : Coded Size.ofCode Size.code where
  of_code c := by cases c <;> rfl
  eq_code h := by unfold Size.ofCode at h; split at h <;> cases h <;> rfl

@[simp] theorem Size.ofCode_code (c : Size) : Size.ofCode c.code = some c := Size.coded.of_code c

theorem Size.code_lt (c : Size) : c.code < 4 := by cases c <;> decide

theorem RM.coded : Coded RM.ofCode RM.code where
  of_code c := by cases c <;> rfl
  eq_code h := by unfold RM.ofCode at h; split at h <;> cases h <;> rfl

@[simp] theorem RM.ofCode_code (c : RM) : RM.ofCode c.code = some c := RM.coded.of_code c

theorem RM.code_lt (c : RM) : c.code < 6 := by cases c <;> decide

theorem SFmt.coded : Coded SFmt.ofCode SFmt.code where
  of_code c := by cases c <;> rfl
  eq_code h := by unfold SFmt.ofCode at h; split at h <;> cases h <;> rfl

@[simp] theorem SFmt.ofCode_code (c : SFmt) : SFmt.ofCode c.code = some c := SFmt.coded.of_code c

theorem SFmt.code_lt (c : SFmt) : c.code < 4 := by cases c <;> decide

theorem EF.coded : Coded EF.ofCode EF.code where
  of_code c := by cases c <;> rfl
  eq_code h := by unfold EF.ofCode at h; split at h <;> cases h <;> rfl

@[simp] theorem EF.ofCode_code (c : EF) : EF.ofCode c.code = some c := EF.coded.of_code c

theorem EF.code_lt (c : EF) : c.code < 9 := by cases c <;> decide

theorem Cvt.coded : Coded Cvt.ofCode Cvt.code where
  of_code c := by cases c <;> rfl
  eq_code h := by unfold Cvt.ofCode at h; split at h <;> cases h <;> rfl

@[simp] theorem Cvt.ofCode_code (c : Cvt) : Cvt.ofCode c.code = some c := Cvt.coded.of_code c

theorem Cvt.code_lt (c : Cvt) : c.code < 8 := by cases c <;> decide

theorem ICond.coded : Coded ICond.ofCode ICond.code where
  of_code c := by cases c <;> rfl
  eq_code h := by unfold ICond.ofCode at h; split at h <;> cases h <;> rfl

@[simp] theorem ICond.ofCode_code (c : ICond) : ICond.ofCode c.code = some c := ICond.coded.of_code c

theorem ICond.code_lt (c : ICond) : c.code < 10 := by cases c <;> decide

theorem FCond.coded : Coded FCond.ofCode FCond.code where
  of_code c := by cases c <;> rfl
  eq_code h := by unfold FCond.ofCode at h; split at h <;> cases h <;> rfl

@[simp] theorem FCond.ofCode_code (c : FCond) : FCond.ofCode c.code = some c := FCond.coded.of_code c

theorem FCond.code_lt (c : FCond) : c.code < 8 := by cases c <;> decide

theorem GWrite.coded : Coded GWrite.ofCode GWrite.code where
  of_code c := by cases c <;> rfl
  eq_code h := by unfold GWrite.ofCode at h; split at h <;> cases h <;> rfl

@[simp] theorem GWrite.ofCode_code (c : GWrite) : GWrite.ofCode c.code = some c := GWrite.coded.of_code c

theorem GWrite.code_lt (c : GWrite) : c.code < 3 := by cases c <;> decide

theorem Fma.coded : Coded Fma.ofCode Fma.code where
  of_code c := by cases c <;> rfl
  eq_code h := by unfold Fma.ofCode at h; split at h <;> cases h <;> rfl

@[simp] theorem Fma.ofCode_code (c : Fma) : Fma.ofCode c.code = some c := Fma.coded.of_code c

theorem Fma.code_lt (c : Fma) : c.code < 4 := by cases c <;> decide

theorem IdReg.coded : Coded IdReg.ofCode IdReg.code where
  of_code c := by cases c <;> rfl
  eq_code h := by unfold IdReg.ofCode at h; split at h <;> cases h <;> rfl

@[simp] theorem IdReg.ofCode_code (c : IdReg) : IdReg.ofCode c.code = some c := IdReg.coded.of_code c

theorem IdReg.code_lt (c : IdReg) : c.code < 18 := by cases c <;> decide

theorem SysReg.coded : Coded SysReg.ofCode SysReg.code where
  of_code c := by cases c <;> rfl
  eq_code h := by unfold SysReg.ofCode at h; split at h <;> cases h <;> rfl

@[simp] theorem SysReg.ofCode_code (c : SysReg) : SysReg.ofCode c.code = some c := SysReg.coded.of_code c

theorem SysReg.code_lt (c : SysReg) : c.code < 54 := by cases c <;> decide

theorem HField.coded : Coded HField.ofCode HField.code where
  of_code c := by cases c <;> rfl
  eq_code h := by unfold HField.ofCode at h; split at h <;> cases h <;> rfl

@[simp] theorem HField.ofCode_code (c : HField) : HField.ofCode c.code = some c := HField.coded.of_code c

theorem HField.code_lt (c : HField) : c.code < 14 := by cases c <;> decide

theorem Flush.coded : Coded Flush.ofCode Flush.code where
  of_code c := by cases c <;> rfl
  eq_code h := by unfold Flush.ofCode at h; split at h <;> cases h <;> rfl

@[simp] theorem Flush.ofCode_code (c : Flush) : Flush.ofCode c.code = some c := Flush.coded.of_code c

theorem Flush.code_lt (c : Flush) : c.code < 3 := by cases c <;> decide

theorem AmoOp.coded : Coded AmoOp.ofCode AmoOp.code where
  of_code c := by cases c <;> rfl
  eq_code h := by unfold AmoOp.ofCode at h; split at h <;> cases h <;> rfl

@[simp] theorem AmoOp.ofCode_code (c : AmoOp) : AmoOp.ofCode c.code = some c := AmoOp.coded.of_code c

theorem AmoOp.code_lt (c : AmoOp) : c.code < 10 := by cases c <;> decide

theorem VOp.coded : Coded VOp.ofCode VOp.code where
  of_code c := by cases c <;> rfl
  eq_code h := by unfold VOp.ofCode at h; split at h <;> cases h <;> rfl

@[simp] theorem VOp.ofCode_code (c : VOp) : VOp.ofCode c.code = some c := VOp.coded.of_code c

theorem VOp.code_lt (c : VOp) : c.code < 11 := by cases c <;> decide

theorem LogicOp.coded : Coded LogicOp.ofCode LogicOp.code where
  of_code c := by cases c <;> rfl
  eq_code h := by unfold LogicOp.ofCode at h; split at h <;> cases h <;> rfl

@[simp] theorem LogicOp.ofCode_code (c : LogicOp) : LogicOp.ofCode c.code = some c := LogicOp.coded.of_code c

theorem LogicOp.code_lt (c : LogicOp) : c.code < 5 := by cases c <;> decide

theorem ShiftOp.coded : Coded ShiftOp.ofCode ShiftOp.code where
  of_code c := by cases c <;> rfl
  eq_code h := by unfold ShiftOp.ofCode at h; split at h <;> cases h <;> rfl

@[simp] theorem ShiftOp.ofCode_code (c : ShiftOp) : ShiftOp.ofCode c.code = some c := ShiftOp.coded.of_code c

theorem ShiftOp.code_lt (c : ShiftOp) : c.code < 4 := by cases c <;> decide

theorem SfuFn.coded : Coded SfuFn.ofCode SfuFn.code where
  of_code c := by cases c <;> rfl
  eq_code h := by unfold SfuFn.ofCode at h; split at h <;> cases h <;> rfl

@[simp] theorem SfuFn.ofCode_code (c : SfuFn) : SfuFn.ofCode c.code = some c := SfuFn.coded.of_code c

theorem SfuFn.code_lt (c : SfuFn) : c.code < 11 := by cases c <;> decide

theorem RedOp.coded : Coded RedOp.ofCode RedOp.code where
  of_code c := by cases c <;> rfl
  eq_code h := by unfold RedOp.ofCode at h; split at h <;> cases h <;> rfl

@[simp] theorem RedOp.ofCode_code (c : RedOp) : RedOp.ofCode c.code = some c := RedOp.coded.of_code c

theorem RedOp.code_lt (c : RedOp) : c.code < 7 := by cases c <;> decide

theorem ScanOp.coded : Coded ScanOp.ofCode ScanOp.code where
  of_code c := by cases c <;> rfl
  eq_code h := by unfold ScanOp.ofCode at h; split at h <;> cases h <;> rfl

@[simp] theorem ScanOp.ofCode_code (c : ScanOp) : ScanOp.ofCode c.code = some c := ScanOp.coded.of_code c

theorem ScanOp.code_lt (c : ScanOp) : c.code < 3 := by cases c <;> decide

theorem MmaMode.coded : Coded MmaMode.ofCode MmaMode.code where
  of_code c := by cases c <;> rfl
  eq_code h := by unfold MmaMode.ofCode at h; split at h <;> cases h <;> rfl

@[simp] theorem MmaMode.ofCode_code (c : MmaMode) : MmaMode.ofCode c.code = some c := MmaMode.coded.of_code c

theorem MmaMode.code_lt (c : MmaMode) : c.code < 5 := by cases c <;> decide

/-! ## Fields of words -/

/-- Adjacent fields are one field. -/
theorem field_append (w lo n m : Nat) : field w lo n + 2 ^ n * field w (lo + n) m = field w lo (n + m) := by
  simp only [field, Nat.pow_add, ← Nat.div_div_eq_div_mul, Nat.mod_mul]

theorem field_lt (w lo n : Nat) : field w lo n < 2 ^ n := Nat.mod_lt _ (Nat.two_pow_pos n)

/-- A field that lies below bit `m` does not see the bits from `m` up. -/
theorem field_mod {w lo n m : Nat} (h : lo + n ≤ m) : field (w % 2 ^ m) lo n = field w lo n := by
  obtain ⟨k, rfl⟩ := Nat.exists_eq_add_of_le h
  simp only [field, Nat.pow_add, Nat.mul_assoc, Nat.mod_mul_right_div_self, Nat.mod_mul_right_mod]

/-- The fields of a 64- or 96-bit word lie within their widths (`n` is that of IMM). -/
structure Raw.Bounded (n : Nat) (r : Raw) : Prop where
  op : r.op < 256
  dly : r.dly < 16
  g : r.g < 16
  gn : r.gn < 2
  a : r.a < 64
  b : r.b < 64
  c : r.c < 64
  sub : r.sub < 64
  imm : r.imm < 2 ^ n

theorem Raw.ofWord_bounded (n w : Nat) : (Raw.ofWord n w).Bounded n where
  op := field_lt ..
  dly := field_lt ..
  g := field_lt ..
  gn := field_lt ..
  a := field_lt ..
  b := field_lt ..
  c := field_lt ..
  sub := field_lt ..
  imm := field_lt ..

/-- Packing the fields cut from a number gives the number back, modulo their widths. -/
theorem packFields_cutFields (ws : List Nat) (w : Nat) : packFields (ws.zip (cutFields ws w)) = w % 2 ^ ws.sum := by
  induction ws generalizing w with
  | nil => simp [packFields, Nat.mod_one]
  | cons n ws ih => simp [cutFields, packFields, ih, Nat.pow_add, Nat.mod_mul]

theorem Raw.cutFields_eq {n : Nat} (w : Nat) : cutFields [2, 8, 4, 4, 1, 6, 6, 6, 6, n] w =
    let r := Raw.ofWord n w
    [w % 4, r.op, r.dly, r.g, r.gn, r.a, r.b, r.c, r.sub, r.imm] := by
  simp [cutFields, Raw.ofWord, field, Nat.div_div_eq_div_mul]

theorem RawX.cutFields_eq (w : Nat) : cutFields [2, 8, 4, 4, 4, 2, 1, 4, 6, 6, 6, 6, 6, 8, 5, 16, 16, 16, 8] w =
    let r := RawX.ofWord w
    [w % 4, r.op, r.dly, r.ga, r.gb, r.gop, r.yld, r.hint, r.o1, r.o2, r.o3, r.o4, r.o5, r.sub, r.pinc, r.inc1, r.inc2, r.inc3, r.aux] := by
  simp [cutFields, RawX.ofWord, field, Nat.div_div_eq_div_mul]

/-- Cutting the word of fields within their widths gives them back. -/
theorem Raw.ofWord_toWord {n len : Nat} {r : Raw} (hr : r.Bounded n) : Raw.ofWord n (r.toWord len n) = r := by
  obtain ⟨op, dly, g, gn, a, b, c, sub, imm⟩ := r
  obtain ⟨hop, hdly, hg, hgn, ha, hb, hc, hsub, himm⟩ := hr
  have h := (Raw.cutFields_eq (n := n) _).symm.trans (cutFields_packFields
    [(2, len), (8, op), (4, dly), (4, g), (1, gn), (6, a), (6, b), (6, c), (6, sub), (n, imm)])
  simp only [List.map, List.cons.injEq, and_true, Nat.reducePow, Nat.mod_eq_of_lt, *] at h
  exact Raw.mk.injEq .. ▸ h.2
  
/-- The word of the fields of a word is that word, its upper bits apart. -/
theorem Raw.toWord_ofWord {n len w : Nat} (hl : w % 4 = len) : (Raw.ofWord n w).toWord len n = w % 2 ^ (43 + n) := by
  have h := packFields_cutFields [2, 8, 4, 4, 1, 6, 6, 6, 6, n] w
  rw [Raw.cutFields_eq, hl] at h
  simpa [Raw.toWord, ← Nat.add_assoc] using h


/-- The fields of a 128-bit word lie within their widths. -/
structure RawX.Bounded (r : RawX) : Prop where
  op : r.op < 256
  dly : r.dly < 16
  ga : r.ga < 16
  gb : r.gb < 16
  gop : r.gop < 4
  yld : r.yld < 2
  hint : r.hint < 16
  o1 : r.o1 < 64
  o2 : r.o2 < 64
  o3 : r.o3 < 64
  o4 : r.o4 < 64
  o5 : r.o5 < 64
  sub : r.sub < 256
  pinc : r.pinc < 32
  inc1 : r.inc1 < 65536
  inc2 : r.inc2 < 65536
  inc3 : r.inc3 < 65536
  aux : r.aux < 256

theorem RawX.ofWord_bounded (w : Nat) : (RawX.ofWord w).Bounded := by
  constructor <;> exact field_lt ..

theorem RawX.ofWord_toWord {r : RawX} (hr : r.Bounded) : RawX.ofWord r.toWord = r := by
  obtain ⟨op, dly, ga, gb, gop, yld, hint, o1, o2, o3, o4, o5, sub, pinc, inc1, inc2, inc3, aux⟩ := r
  obtain ⟨hop, hdly, hga, hgb, hgop, hyld, hhint, h1, h2, h3, h4, h5, hsub, hpinc, hinc1, hinc2, hinc3, haux⟩ := hr
  have h := (RawX.cutFields_eq _).symm.trans (cutFields_packFields
    [(2, 3), (8, op), (4, dly), (4, ga), (4, gb), (2, gop), (1, yld), (4, hint), (6, o1), (6, o2), (6, o3), (6, o4), (6, o5),
     (8, sub), (5, pinc), (16, inc1), (16, inc2), (16, inc3), (8, aux)])
  simp only [List.map, List.cons.injEq, and_true, Nat.reducePow, Nat.mod_eq_of_lt, *] at h
  exact RawX.mk.injEq .. ▸ h.2

theorem RawX.toWord_ofWord {w : Nat} (hl : w % 4 = 3) : (RawX.ofWord w).toWord = w % 2 ^ 128 := by
  have h := packFields_cutFields [2, 8, 4, 4, 4, 2, 1, 4, 6, 6, 6, 6, 6, 8, 5, 16, 16, 16, 8] w
  rw [RawX.cutFields_eq, hl] at h
  exact h

theorem Raw.ofWord_mod {n m : Nat} (w : Nat) (h : 43 + n ≤ m) : Raw.ofWord n (w % 2 ^ m) = Raw.ofWord n w := by
  simp (disch := omega) only [Raw.ofWord, field_mod]

theorem RawX.ofWord_mod (w : Nat) : RawX.ofWord (w % 2 ^ 128) = RawX.ofWord w := by
  simp (disch := omega) only [RawX.ofWord, field_mod]

theorem Raw.toWord_mod_four (len n : Nat) (r : Raw) : r.toWord len n % 4 = len % 4 := packFields_low 2 len _

theorem RawX.toWord_mod_four (r : RawX) : r.toWord % 4 = 3 := packFields_low 2 3 _

/-! ## Bytes of words -/

theorem ofBytesLE_lt (bs : List Byte) : ofBytesLE bs < 2 ^ (8 * bs.length) := by
  induction bs with
  | nil => simp [ofBytesLE]
  | cons b bs ih =>
    have hb : b.toNat < 256 := b.isLt
    have h8 : (2 : Nat) ^ (8 * (bs.length + 1)) = 256 * 2 ^ (8 * bs.length) := by rw [Nat.mul_succ, Nat.pow_add]; omega
    rw [ofBytesLE, List.length_cons, h8]
    omega

/-- The low bits of bytes after others are not touched by the others. -/
theorem ofBytesLE_append_mod (bs cs : List Byte) : ofBytesLE (bs ++ cs) % 2 ^ (8 * bs.length) = ofBytesLE bs := by
  rw [ofBytesLE_append, Nat.add_mul_mod_self_left, Nat.mod_eq_of_lt (ofBytesLE_lt bs)]

/-- The low bytes of a number whose bytes are given are the first of those bytes. -/
theorem bytesLE_ofBytesLE_mod {n : Nat} {bs : List Byte} (h : n ≤ bs.length) : bytesLE n (ofBytesLE bs % 2 ^ (8 * n)) = bs.take n := by
  have hw := ofBytesLE_append_mod (bs.take n) (bs.drop n)
  have hb := bytesLE_ofBytesLE (bs.take n)
  rw [List.take_append_drop, List.length_take_of_le h] at hw
  rwa [List.length_take_of_le h, ← hw] at hb


@[simp] theorem bit_beq (b : Bool) : (bit b == 1) = b := by cases b <;> rfl

theorem bit_beq_one {n : Nat} (h : n < 2) : bit (n == 1) = n := by
  interval_cases n <;> rfl

theorem bit_lt (b : Bool) : bit b < 2 := by cases b <;> decide

theorem bit_bitAt (v i : Nat) : bit (bitAt v i) = v / 2 ^ i % 2 := bit_beq_one (Nat.mod_lt _ Nat.two_pos)

theorem Coded.some_iff {α : Type} {f : Nat → Option α} {g : α → Nat} (h : Coded f g) {n : Nat} {c : α} : f n = some c ↔ n = g c :=
  ⟨h.eq_code, fun e => e ▸ h.of_code c⟩

/-- The fields of a 64- or 96-bit word with header `h`. -/
abbrev Hd.raw (h : Hd) (op sub a b c imm : Nat) : Raw :=
  { op := op, dly := h.dly.toNat, g := h.g.toNat, gn := bit h.gn, a := a, b := b, c := c, sub := sub, imm := imm }

theorem Hd.enc64_eq (h : Hd) (op sub a b c imm : Nat) :
    h.enc64 op sub a b c imm = some ((h.raw op sub a b c imm).toWord 1 21, 8) := rfl

theorem Hd.enc96_eq (h : Hd) (op sub a b c imm : Nat) :
    h.enc96 op sub a b c imm = some ((h.raw op sub a b c imm).toWord 2 53, 12) := rfl

@[simp] theorem Hd.raw_hd (h : Hd) (op sub a b c imm : Nat) : (h.raw op sub a b c imm).hd = h := by
  simp [Raw.hd]

theorem Hd.raw_bounded {h : Hd} {n op sub a b c imm : Nat}
    (hb : op < 256 ∧ sub < 64 ∧ a < 64 ∧ b < 64 ∧ c < 64 ∧ imm < 2 ^ n) : (h.raw op sub a b c imm).Bounded n :=
  ⟨hb.1, h.dly.isLt, h.g.isLt, bit_lt _, hb.2.2.1, hb.2.2.2.1, hb.2.2.2.2.1, hb.2.1, hb.2.2.2.2.2⟩

/-- Fields within their widths are those of their header. -/
theorem Raw.Bounded.eq_raw {n : Nat} {r : Raw} (hr : r.Bounded n) : r.hd.raw r.op r.sub r.a r.b r.c r.imm = r := by
  obtain ⟨op, dly, g, gn, a, b, c, sub, imm⟩ := r
  obtain ⟨-, hdly, hg, hgn, -, -, -, -, -⟩ := hr
  have hy : bit (gn == 1) = gn := bit_beq_one hgn
  simp_all [Raw.hd, Nat.mod_eq_of_lt]

/-- Wherever the word of `p` stands, whatever follows it, the decoder reads the instruction `i` and its length. -/
structure ReadsAs (i : Instr) (p : Option (Nat × Nat)) : Prop where
  fits : Fits p
  decodeWord_eq : ∀ {w n v}, p = some (w, n) → v % 2 ^ (8 * n) = w → decodeWord v = .ok (i, n)

theorem ReadsAs.none (i : Instr) : ReadsAs i none := ⟨fits_none, nofun⟩

/-- A number whose low bits are a word has the word's fields, and its LEN. -/
theorem Raw.of_toWord {r : Raw} {n len m v : Nat} (hr : r.Bounded n) (hm : 43 + n ≤ m) (hl : len < 4) (hv : v % 2 ^ m = r.toWord len n) :
    v % 4 = len ∧ Raw.ofWord n v = r := by
  have h4 : v % 2 ^ m % 4 = len := by rw [hv, Raw.toWord_mod_four, Nat.mod_eq_of_lt hl]
  rw [Nat.mod_mod_of_dvd v (Nat.pow_dvd_pow 2 (show 2 ≤ m by omega))] at h4
  exact ⟨h4, by rw [← Raw.ofWord_mod v hm, hv, Raw.ofWord_toWord hr]⟩

theorem RawX.of_toWord {r : RawX} {v : Nat} (hr : r.Bounded) (hv : v % 2 ^ 128 = r.toWord) : v % 4 = 3 ∧ RawX.ofWord v = r := by
  have h4 : v % 2 ^ 128 % 4 = 3 := by rw [hv, RawX.toWord_mod_four]
  exact ⟨by omega, by rw [← RawX.ofWord_mod v, hv, RawX.ofWord_toWord hr]⟩


/-! ## The header of a 128-bit word -/

/-- The fields of a 128-bit word with header `h`. -/
abbrev Hx.raw (h : Hx) (op sub o1 o2 o3 o4 o5 aux : Nat) : RawX :=
  { op := op, dly := h.dly.toNat, ga := h.ga.toNat, gb := h.gb.toNat, gop := h.gop.toNat, yld := bit h.yld, hint := h.hint.toNat,
    o1 := o1, o2 := o2, o3 := o3, o4 := o4, o5 := o5, sub := sub, pinc := h.pinc.toNat, inc1 := h.inc1.toNat,
    inc2 := h.inc2.toNat, inc3 := h.inc3.toNat, aux := aux }

theorem Hx.enc_eq (h : Hx) (op sub o1 o2 o3 o4 o5 aux : Nat) :
    h.enc op sub o1 o2 o3 o4 o5 aux = some ((h.raw op sub o1 o2 o3 o4 o5 aux).toWord, 16) := rfl

@[simp] theorem Hx.raw_hx (h : Hx) (op sub o1 o2 o3 o4 o5 aux : Nat) : (h.raw op sub o1 o2 o3 o4 o5 aux).hx = h := by
  simp [RawX.hx]

theorem Hx.raw_bounded {h : Hx} {op sub o1 o2 o3 o4 o5 aux : Nat}
    (hb : op < 256 ∧ sub < 256 ∧ o1 < 64 ∧ o2 < 64 ∧ o3 < 64 ∧ o4 < 64 ∧ o5 < 64 ∧ aux < 256) :
    (h.raw op sub o1 o2 o3 o4 o5 aux).Bounded := by
  obtain ⟨hop, hsub, h1, h2, h3, h4, h5, haux⟩ := hb
  exact ⟨hop, h.dly.isLt, h.ga.isLt, h.gb.isLt, h.gop.isLt, bit_lt _, h.hint.isLt, h1, h2, h3, h4, h5, hsub, h.pinc.isLt, h.inc1.isLt,
    h.inc2.isLt, h.inc3.isLt, haux⟩

/-- Fields within their widths are those of their header. -/
theorem RawX.Bounded.eq_raw {r : RawX} (hr : r.Bounded) : r.hx.raw r.op r.sub r.o1 r.o2 r.o3 r.o4 r.o5 r.aux = r := by
  obtain ⟨op, dly, ga, gb, gop, yld, hint, o1, o2, o3, o4, o5, sub, pinc, inc1, inc2, inc3, aux⟩ := r
  obtain ⟨-, hdly, hga, hgb, hgop, hyld, hhint, -, -, -, -, -, -, hpinc, hinc1, hinc2, hinc3, -⟩ := hr
  have hy : bit (yld == 1) = yld := bit_beq_one hyld
  simp_all [Hx.raw, RawX.hx, Nat.mod_eq_of_lt]

/-- What every 128-bit word is checked for, by its header as an instruction has it. -/
theorem Hx.raw_common {h : Hx} {op sub o1 o2 o3 o4 o5 aux : Nat} {hints : Bool} {zero : List Nat} {ops : List (Nat × Nat)} {u : Unit} :
    (h.raw op sub o1 o2 o3 o4 o5 aux).common hints zero ops = .ok u ↔
      h.wf hints ops = true ∧ (∀ z ∈ zero, z = 0) ∧ ∀ o ∈ ops, o.2 < 32 := by
  have hn (n : Nat) (x : BitVec n) : (x.toNat = 0) ↔ x = 0 := by simp [← BitVec.toNat_inj]
  simp only [RawX.common, bind_eq_ok, chk_eq_ok, Hx.wf, Bool.and_eq_true, Bool.or_eq_true, bne_iff_ne, beq_iff_eq, ne_eq, hn,
    List.all_eq_true, decide_eq_true_eq, exists_const]
  tauto

theorem RawX.Bounded.common_eq_ok {r : RawX} (hr : r.Bounded) {hints : Bool} {zero : List Nat} {ops : List (Nat × Nat)} {u : Unit} :
    r.common hints zero ops = .ok u ↔ r.hx.wf hints ops = true ∧ (∀ z ∈ zero, z = 0) ∧ ∀ o ∈ ops, o.2 < 32 := by
  rw [← Hx.raw_common, hr.eq_raw]

/-! ## The decoder's choice of table -/

theorem decodeWord_low {v : Nat} {i : Instr} (hl : v % 4 = 1) (ho : (Raw.ofWord 21 v).op < 0x40) (h : decodeLow (Raw.ofWord 21 v) = .ok i) :
    decodeWord v = .ok (i, 8) := by
  have ho' : (Raw.ofWord 21 v).op < 0x80 := by omega
  simp [decodeWord, hl, ho, ho', h, chk, bind, Except.bind, pure, Except.pure]

theorem decodeWord_mem {v : Nat} {i : Instr} (hl : v % 4 = 1) (ho : 0x40 ≤ (Raw.ofWord 21 v).op ∧ (Raw.ofWord 21 v).op < 0x80)
    (h : decodeMem (Raw.ofWord 21 v) = .ok i) : decodeWord v = .ok (i, 8) := by
  simp [decodeWord, hl, ho, Nat.not_lt.mpr ho.1, h, chk, bind, Except.bind, pure, Except.pure]

theorem decodeWord_96 {v : Nat} {i : Instr} (hl : v % 4 = 2) (ho : 0x80 ≤ (Raw.ofWord 53 v).op ∧ (Raw.ofWord 53 v).op < 0xC0)
    (h : decode96 (Raw.ofWord 53 v) = .ok i) : decodeWord v = .ok (i, 12) := by
  simp [decodeWord, hl, ho, h, chk, bind, Except.bind, pure, Except.pure]

theorem decodeWord_vec {v : Nat} {i : Instr} (hl : v % 4 = 3) (ho : 0xC0 ≤ (RawX.ofWord v).op)
    (ho' : (RawX.ofWord v).op < 0xD0 ∨ (RawX.ofWord v).op = 0xE2) (h : decodeVec (RawX.ofWord v) = .ok i) : decodeWord v = .ok (i, 16) := by
  simp [decodeWord, hl, ho, ho', h, chk, bind, Except.bind, pure, Except.pure]

theorem decodeWord_eng {v : Nat} {i : Instr} (hl : v % 4 = 3) (ho : 0xD0 ≤ (RawX.ofWord v).op) (ho' : (RawX.ofWord v).op ≠ 0xE2)
    (h : decodeEng (RawX.ofWord v) = .ok i) : decodeWord v = .ok (i, 16) := by
  have h1 : 0xC0 ≤ (RawX.ofWord v).op := by omega
  simp [decodeWord, hl, ho', h1, Nat.not_lt.mpr ho, h, chk, bind, Except.bind, pure, Except.pure]

section
variable {h : Hd} {op sub a b c imm : Nat} {i : Instr}

theorem ReadsAs.low (hb : op < 0x40 ∧ sub < 64 ∧ a < 64 ∧ b < 64 ∧ c < 64 ∧ imm < 2 ^ 21)
    (hd : decodeLow (h.raw op sub a b c imm) = .ok i) :
    ReadsAs i (h.enc64 op sub a b c imm) := by
  refine ⟨h.enc64_fits _ _ _ _ _ _, fun {w n v} e hv => ?_⟩
  rw [Hd.enc64_eq, Option.some.injEq, Prod.mk.injEq] at e
  obtain ⟨rfl, rfl⟩ := e
  obtain ⟨hl, hr⟩ := Raw.of_toWord (Hd.raw_bounded ⟨by omega, hb.2⟩) (by omega) (by omega) hv
  exact decodeWord_low hl (hr ▸ hb.1) (hr ▸ hd)

theorem ReadsAs.mem (hb : (0x40 ≤ op ∧ op < 0x80) ∧ sub < 64 ∧ a < 64 ∧ b < 64 ∧ c < 64 ∧ imm < 2 ^ 21)
    (hd : decodeMem (h.raw op sub a b c imm) = .ok i) : ReadsAs i (h.enc64 op sub a b c imm) := by
  refine ⟨h.enc64_fits _ _ _ _ _ _, fun {w n v} e hv => ?_⟩
  rw [Hd.enc64_eq, Option.some.injEq, Prod.mk.injEq] at e
  obtain ⟨rfl, rfl⟩ := e
  obtain ⟨hl, hr⟩ := Raw.of_toWord (Hd.raw_bounded ⟨by omega, hb.2⟩) (by omega) (by omega) hv
  exact decodeWord_mem hl (hr ▸ hb.1) (hr ▸ hd)

theorem ReadsAs.enc96 (hb : (0x80 ≤ op ∧ op < 0xC0) ∧ sub < 64 ∧ a < 64 ∧ b < 64 ∧ c < 64 ∧ imm < 2 ^ 53)
    (hd : decode96 (h.raw op sub a b c imm) = .ok i) : ReadsAs i (h.enc96 op sub a b c imm) := by
  refine ⟨h.enc96_fits _ _ _ _ _ _, fun {w n v} e hv => ?_⟩
  rw [Hd.enc96_eq, Option.some.injEq, Prod.mk.injEq] at e
  obtain ⟨rfl, rfl⟩ := e
  obtain ⟨hl, hr⟩ := Raw.of_toWord (Hd.raw_bounded ⟨by omega, hb.2⟩) (by omega) (by omega) hv
  exact decodeWord_96 hl (hr ▸ hb.1) (hr ▸ hd)

end

section
variable {h : Hx} {op sub o1 o2 o3 o4 o5 aux : Nat} {i : Instr}

theorem ReadsAs.vec
    (hb : (0xC0 ≤ op ∧ (op < 0xD0 ∨ op = 0xE2)) ∧ sub < 256 ∧ o1 < 64 ∧ o2 < 64 ∧ o3 < 64 ∧ o4 < 64 ∧ o5 < 64 ∧ aux < 256)
    (hd : decodeVec (h.raw op sub o1 o2 o3 o4 o5 aux) = .ok i) : ReadsAs i (h.enc op sub o1 o2 o3 o4 o5 aux) := by
  refine ⟨h.enc_fits _ _ _ _ _ _ _ _, fun {w n v} e hv => ?_⟩
  rw [Hx.enc_eq, Option.some.injEq, Prod.mk.injEq] at e
  obtain ⟨rfl, rfl⟩ := e
  obtain ⟨hl, hr⟩ := RawX.of_toWord (Hx.raw_bounded ⟨by omega, hb.2⟩) hv
  exact decodeWord_vec hl (hr ▸ hb.1.1) (hr ▸ hb.1.2) (hr ▸ hd)

theorem ReadsAs.eng (hb : (0xD0 ≤ op ∧ op < 0xE2) ∧ sub < 256 ∧ o1 < 64 ∧ o2 < 64 ∧ o3 < 64 ∧ o4 < 64 ∧ o5 < 64 ∧ aux < 256)
    (hd : decodeEng (h.raw op sub o1 o2 o3 o4 o5 aux) = .ok i) : ReadsAs i (h.enc op sub o1 o2 o3 o4 o5 aux) := by
  refine ⟨h.enc_fits _ _ _ _ _ _ _ _, fun {w n v} e hv => ?_⟩
  rw [Hx.enc_eq, Option.some.injEq, Prod.mk.injEq] at e
  obtain ⟨rfl, rfl⟩ := e
  obtain ⟨hl, hr⟩ := RawX.of_toWord (Hx.raw_bounded ⟨by omega, hb.2⟩) hv
  exact decodeWord_eng hl (hr ▸ hb.1.1) (hr ▸ hb.1.2.ne) (hr ▸ hd)

end


theorem toNat_lt_of_le {n m : Nat} {x : BitVec n} (h : 2 ^ n ≤ m) : x.toNat < m := lt_of_lt_of_le x.isLt h

theorem EFlags.byte_lt (f : EFlags) : f.byte < 32 := by
  have := bit_lt f.acq
  have := bit_lt f.rel
  have := f.scope.code_lt
  rw [EFlags.byte]
  omega

/-- The flags of a byte whose low bits are a flag byte. -/
theorem EFlags.fields_byte (f : EFlags) (n : Nat) :
    field (f.byte + 32 * n) 2 3 = f.scope.code ∧ bitAt (f.byte + 32 * n) 0 = f.acq ∧ bitAt (f.byte + 32 * n) 1 = f.rel := by
  have ha := bit_lt f.acq
  have hr := bit_lt f.rel
  have hs := f.scope.code_lt
  have h0 : (f.byte + 32 * n) / 2 ^ 0 % 2 = bit f.acq := by rw [EFlags.byte]; omega
  have h1 : (f.byte + 32 * n) / 2 ^ 1 % 2 = bit f.rel := by rw [EFlags.byte]; omega
  exact ⟨by rw [field, EFlags.byte]; omega, by rw [bitAt, h0, bit_beq], by rw [bitAt, h1, bit_beq]⟩

theorem EFlags.ofByte_byte {f : EFlags} (h : f.wf = true) : EFlags.ofByte f.byte = .ok f := by
  obtain ⟨hs, ha, hr⟩ := f.fields_byte 0
  have hb := f.byte_lt
  simp only [Nat.mul_zero, Nat.add_zero] at hs ha hr
  simp [EFlags.ofByte, hs, ha, hr, h]
  omega

/-! ## The operations chosen by SUB -/

theorem ReadsAs.aluReg {h : Hd} {a b c : SReg} {n : Nat} {i : Instr} (hn : n < 14) (e : aluReg h a b c n = some i) :
    ReadsAs i (h.enc3 1 n a b c) :=
  .low (by omega) (by simp [decodeLow, e])

theorem ReadsAs.aluImm {h : Hd} {a b : SReg} {n m : Nat} {i : Instr} (hn : n < 14) (hm : m < 2 ^ 21) (hs : n < 6 ∨ 9 < n ∨ m < 64)
    (e : aluImm h a b m n = some i) : ReadsAs i (h.encImm n a b m) :=
  .low (by omega) (by simp [decodeLow, e, or_assoc, hs])

theorem ReadsAs.mulDiv {h : Hd} {a b c : SReg} {n : Nat} {i : Instr} (hn : n < 7) (e : mulDiv h a b c n = some i) :
    ReadsAs i (h.enc3 3 n a b c) :=
  .low (by omega) (by simp [decodeLow, e])

theorem ReadsAs.bitOp {h : Hd} {a b : SReg} {c : SReg} {n : Nat} {i : Instr} (hn : n < 6) (hc : n = 5 ∨ c = 0)
    (e : bitOp h a b c n = some i) : ReadsAs i (h.enc3 4 n a b c) :=
  .low (by omega) (by simp [decodeLow, e]; simpa [← BitVec.toNat_inj] using hc)

theorem ReadsAs.farith {h : Hd} {a b c : SReg} {f : SFmt} {rm : RM} {n : Nat} {i : Instr} (hn : n < 7) (hc : n ≠ 4 ∨ c = 0)
    (e : farith h a b c f rm n = some i) : ReadsAs i (h.enc64 0x0C (n + 8 * f.code) a.toNat b.toNat c.toNat rm.code) := by
  have hf := f.code_lt
  have hr := rm.code_lt
  have h0 : field (n + 8 * f.code) 0 3 = n := by rw [field]; omega
  have h3 : field (n + 8 * f.code) 3 3 = f.code := by rw [field]; omega
  have hm : field rm.code 0 3 = rm.code := by rw [field]; omega
  exact .low (by omega) (by
    simp [decodeLow, h0, h3, hm, e, Nat.div_eq_of_lt (show rm.code < 8 by omega)]
    simpa [← BitVec.toNat_inj] using hc)

theorem Hd.raw_bare (h : Hd) (op : Nat) (k : Hd → Instr) : bare (h.raw op 0 0 0 0 0) k = .ok (k h) := by
  simp [bare]

end Sys2Proof

/-! ## Every instruction -/

namespace Sys2Proof.Reads

open Sys2Proof

/-- The decoder reads an instruction from its word. -/
def Statement (i : Instr) : Prop := ReadsAs i (encodeWord i)

theorem nop (dly : BitVec 4) : Statement (.nop dly) :=
  .low (by omega) (by simp [decodeLow, bit])

theorem bfx (h : Hd) (a b : SReg) (sx : Bool) (lsb widthM1 : BitVec 6) (hw : WellFormed (.bfx h a b sx lsb widthM1) = true) :
    Statement (.bfx h a b sx lsb widthM1) := by
  have hs := bit_lt sx
  simp [WellFormed] at hw
  exact .low (by omega) (by
    simp (disch := omega) [decodeLow, field, Nat.mod_eq_of_lt, Nat.div_eq_of_lt,
      Nat.add_mul_div_left, hw, Nat.le_of_lt_succ hs])

theorem bfi (h : Hd) (a b : SReg) (lsb widthM1 : BitVec 6)
    (hw : WellFormed (.bfi h a b lsb widthM1) = true) :
    Statement (.bfi h a b lsb widthM1) := by
  simp [WellFormed] at hw
  exact .low (by omega) (by simp (disch := omega) [decodeLow, field, Nat.mod_eq_of_lt, Nat.div_eq_of_lt, Nat.add_mul_div_left, hw])

theorem cmp (h : Hd) (gd : GReg) (b c : SReg) (cond : ICond) (w : GWrite) : Statement (.cmp h gd b c cond w) := by
  have hcond := cond.code_lt
  have hw := w.code_lt
  exact .low (by omega) (by simp (disch := omega) [decodeLow, field, toNat_lt_of_le, Nat.mod_eq_of_lt, Nat.div_eq_of_lt, Nat.add_mul_div_left])

theorem cmpi (h : Hd) (gd : GReg) (b : SReg) (imm : BitVec 21) (cond : ICond) (w : GWrite) : Statement (.cmpi h gd b imm cond w) := by
  have hcond := cond.code_lt
  have hw := w.code_lt
  exact .low (by omega) (by
    simp (disch := omega) [decodeLow, field, Raw.off, toNat_lt_of_le, Nat.mod_eq_of_lt, Nat.div_eq_of_lt, Nat.add_mul_div_left])

theorem sel (h : Hd) (a b c : SReg) (gs : GReg) (inv : Bool) : Statement (.sel h a b c gs inv) := by
  have hinv := bit_lt inv
  exact .low (by omega) (by simp (disch := omega) [decodeLow, field, bitAt, Nat.mod_eq_of_lt, Nat.div_eq_of_lt, Nat.add_mul_div_left])

theorem glog (h : Hd) (op : GlogOp) : Statement (.glog h op) := by
  cases op <;> exact .low (by omega) (by simp (disch := omega) [decodeLow, glogOp, toNat_lt_of_le])

theorem movi (h : Hd) (a : SReg) (imm : BitVec 21) : Statement (.movi h a imm) :=
  .low (by omega) (by simp [decodeLow, Raw.off])

theorem movw (h : Hd) (a : SReg) (imm : BitVec 53) : Statement (.movw h a imm) :=
  .enc96 (by omega) (by simp [decode96])

theorem ffma (h : Hd) (a b c : SReg) (k : Fma) (f : SFmt) (rm : RM) : Statement (.ffma h a b c k f rm) := by
  have hk := k.code_lt
  have hf := f.code_lt
  have hrm := rm.code_lt
  exact .low (by omega) (by simp (disch := omega) [decodeLow, field, Nat.mod_eq_of_lt, Nat.div_eq_of_lt, Nat.add_mul_div_left])

theorem fcmp (h : Hd) (gd : GReg) (b c : SReg) (cond : FCond) (f : SFmt) (sig : Bool) : Statement (.fcmp h gd b c cond f sig) := by
  have hcond := cond.code_lt
  have hf := f.code_lt
  have hsig := bit_lt sig
  exact .low (by omega) (by
    simp (disch := omega) [decodeLow, field, bitAt, toNat_lt_of_le, Nat.mod_eq_of_lt, Nat.div_eq_of_lt, Nat.add_mul_div_left])

theorem fcvt (h : Hd) (a b : SReg) (dst src : Cvt) (rm : RM)
    (hw : WellFormed (.fcvt h a b dst src rm) = true) :
    Statement (.fcvt h a b dst src rm) := by
  have hdst := dst.code_lt
  have hsrc := src.code_lt
  have hrm := rm.code_lt
  simp [WellFormed] at hw
  exact .low (by omega) (by simp (disch := omega) [decodeLow, field, Nat.mod_eq_of_lt, Nat.div_eq_of_lt, Nat.add_mul_div_left, hw])

theorem fclass (h : Hd) (a b : SReg) (f : SFmt) : Statement (.fclass h a b f) := by
  have hf := f.code_lt
  exact .low (by omega) (by simp (disch := omega) [decodeLow, field, Nat.mod_eq_of_lt])

theorem idr (h : Hd) (a : SReg) (r : IdReg) : Statement (.idr h a r) := by
  have hr := r.code_lt
  exact .low (by omega) (by simp [decodeLow])

theorem srr (h : Hd) (a : SReg) (r : SysReg) : Statement (.srr h a r) := by
  have hr := r.code_lt
  exact .low (by omega) (by simp (disch := omega) [decodeLow, Nat.div_eq_of_lt])

theorem srw (h : Hd) (r : SysReg) (b : SReg) : Statement (.srw h r b) := by
  have hr := r.code_lt
  exact .low (by omega) (by simp (disch := omega) [decodeLow, Nat.div_eq_of_lt])

theorem br (h : Hd) (imm : BitVec 21) : Statement (.br h imm) :=
  .low (by omega) (by simp [decodeLow, Raw.off])

theorem brl (h : Hd) (imm : BitVec 53) : Statement (.brl h imm) :=
  .enc96 (by omega) (by simp [decode96])

theorem call (h : Hd) (a : SReg) (imm : BitVec 21) : Statement (.call h a imm) :=
  .low (by omega) (by simp [decodeLow, Raw.off])

theorem calll (h : Hd) (a : SReg) (imm : BitVec 53) : Statement (.calll h a imm) :=
  .enc96 (by omega) (by simp [decode96])

theorem ret (h : Hd) (b : SReg) : Statement (.ret h b) :=
  .low (by omega) (by simp [decodeLow])

theorem jmpr (h : Hd) (a b : SReg) (imm : BitVec 21) : Statement (.jmpr h a b imm) :=
  .low (by omega) (by simp [decodeLow, Raw.off])

theorem loop (h : Hd) (b : SReg) (imm : BitVec 21) (hw : WellFormed (.loop h b imm) = true) : Statement (.loop h b imm) := by
  simp [WellFormed] at hw
  exact .low (by omega) (by simp [decodeLow, Raw.off, hw])

theorem brk (h : Hd) (code : BitVec 20) : Statement (.brk h code) :=
  .low (by omega) (by simp (disch := omega) [decodeLow, trapCode, toNat_lt_of_le])

theorem trap (h : Hd) (code : BitVec 20) : Statement (.trap h code) :=
  .low (by omega) (by simp (disch := omega) [decodeLow, trapCode, toNat_lt_of_le])

theorem syscall (h : Hd) (code : BitVec 20) : Statement (.syscall h code) :=
  .low (by omega) (by simp (disch := omega) [decodeLow, trapCode, toNat_lt_of_le])

theorem ld (h : Hd) (a b : SReg) (imm : BitVec 21) (size : Size) (sx : Bool)
    (hw : WellFormed (.ld h a b imm size sx) = true) :
    Statement (.ld h a b imm size sx) := by
  have hsize := size.code_lt
  have hsx := bit_lt sx
  simp [WellFormed] at hw
  exact .mem (by omega) (by
    simp (disch := omega) [decodeMem, field, Raw.off, bitAt, Nat.mod_eq_of_lt, Nat.div_eq_of_lt, Nat.add_mul_div_left, hw])

theorem ldx (h : Hd) (a b c : SReg) (imm : BitVec 53) (size : Size) (sx : Bool)
    (hw : WellFormed (.ldx h a b c imm size sx) = true) :
    Statement (.ldx h a b c imm size sx) := by
  have hsize := size.code_lt
  have hsx := bit_lt sx
  simp [WellFormed] at hw
  exact .enc96 (by omega) (by simp (disch := omega) [decode96, field, bitAt, Nat.mod_eq_of_lt, Nat.div_eq_of_lt, Nat.add_mul_div_left, hw])

theorem st (h : Hd) (a b : SReg) (imm : BitVec 21) (size : Size) : Statement (.st h a b imm size) := by
  have hsize := size.code_lt
  exact .mem (by omega) (by simp [decodeMem, Raw.off])

theorem rflush (h : Hd) (b : SReg) (imm : BitVec 21) (c : SReg) (m : Flush) : Statement (.rflush h b imm c m) := by
  have hm := m.code_lt
  exact .mem (by omega) (by simp [decodeMem, Raw.off])

theorem rdrop (h : Hd) (b : SReg) (imm : BitVec 21) (c : SReg) : Statement (.rdrop h b imm c) :=
  .mem (by omega) (by simp [decodeMem, Raw.off])

theorem rpin (h : Hd) (gd : GReg) (b : SReg) (imm : BitVec 21) (c : SReg) (x : Bool) (cls : RClass) : Statement (.rpin h gd b imm c x cls) := by
  have hx := bit_lt x
  have hs : bit x + 2 * cls.toNat < 8 := by omega
  exact .mem (by omega) (by
    simp (disch := omega) [decodeMem, field, Raw.off, bitAt, toNat_lt_of_le, Nat.mod_eq_of_lt, Nat.div_eq_of_lt,
      Nat.add_mul_div_left, hs])

theorem runpin (h : Hd) (b : SReg) (imm : BitVec 21) (c : SReg) : Statement (.runpin h b imm c) :=
  .mem (by omega) (by simp [decodeMem, Raw.off])

theorem pref (h : Hd) (b : SReg) (imm : BitVec 21) (c : SReg) (x : Bool) (cls : RClass) : Statement (.pref h b imm c x cls) := by
  have hx := bit_lt x
  have hs : bit x + 2 * cls.toNat < 8 := by omega
  exact .mem (by omega) (by
    simp (disch := omega) [decodeMem, field, Raw.off, bitAt, Nat.mod_eq_of_lt, Nat.div_eq_of_lt,
      Nat.add_mul_div_left, hs])

theorem fence (h : Hd) (scope : Scope) : Statement (.fence h scope) := by
  have hscope := scope.code_lt
  exact .mem (by omega) (by simp [decodeMem])

theorem ifence (h : Hd) (b : SReg) (scope : Scope) : Statement (.ifence h b scope) := by
  have hscope := scope.code_lt
  exact .mem (by omega) (by simp [decodeMem])

theorem amo (h : Hd) (a b c : SReg) (op : AmoOp) (dbl : Bool) (scope : Scope) (hw : WellFormed (.amo h a b c op dbl scope) = true) :
    Statement (.amo h a b c op dbl scope) := by
  have hop := op.code_lt
  have hscope := scope.code_lt
  have hd := bit_lt dbl
  have hs : op.code + 16 * bit dbl < 32 := by omega
  simp [WellFormed] at hw
  exact .mem (by omega) (by
    simp (disch := omega) [decodeMem, field, bitAt, Nat.mod_eq_of_lt, Nat.div_eq_of_lt, Nat.add_mul_div_left, hw, hs])

theorem cas (h : Hd) (a b c : SReg) (dbl : Bool) (scope : Scope) : Statement (.cas h a b c dbl scope) := by
  have hscope := scope.code_lt
  have hd := bit_lt dbl
  have hs : bit dbl = 0 ∨ bit dbl = 1 := by omega
  exact .mem (by omega) (by simp (disch := omega) [decodeMem, field, bitAt, Nat.mod_eq_of_lt, Nat.div_eq_of_lt, hs])

theorem acq (h : Hd) (b : SReg) (x : Bool) (scope : Scope) : Statement (.acq h b x scope) := by
  have hscope := scope.code_lt
  have hx := bit_lt x
  have hs : scope.code + 8 * bit x < 16 := by omega
  exact .mem (by omega) (by
    simp (disch := omega) [decodeMem, field, bitAt, Nat.mod_eq_of_lt, Nat.div_eq_of_lt, Nat.add_mul_div_left, hs])

theorem rel (h : Hd) (b : SReg) (scope : Scope) : Statement (.rel h b scope) := by
  have hscope := scope.code_lt
  exact .mem (by omega) (by simp [decodeMem])

theorem bar (h : Hd) (b : SReg) : Statement (.bar h b) :=
  .mem (by omega) (by simp [decodeMem])

theorem msgsend (h : Hd) (b c : SReg) (cc : BitVec 4) : Statement (.msgsend h b c cc) :=
  .mem (by omega) (by simp (disch := omega) [decodeMem, toNat_lt_of_le])

theorem msgwait (h : Hd) (a : SReg) : Statement (.msgwait h a) :=
  .mem (by omega) (by simp [decodeMem])

theorem xwait (h : Hd) (b : SReg) (ch : BitVec 3) : Statement (.xwait h b ch) :=
  .mem (by omega) (by simp (disch := omega) [decodeMem, toNat_lt_of_le])

theorem ccwait (h : Hd) (b : SReg) (cc : BitVec 4) : Statement (.ccwait h b cc) :=
  .mem (by omega) (by simp (disch := omega) [decodeMem, toNat_lt_of_le])

theorem twait (h : Hd) (t : BitVec 5) : Statement (.twait h t) :=
  .mem (by omega) (by simp (disch := omega) [decodeMem, toNat_lt_of_le])

theorem trel (h : Hd) (t : BitVec 5) : Statement (.trel h t) :=
  .mem (by omega) (by simp (disch := omega) [decodeMem, toNat_lt_of_le])

theorem tstate (h : Hd) (a : SReg) (t : BitVec 5) : Statement (.tstate h a t) :=
  .mem (by omega) (by simp (disch := omega) [decodeMem, toNat_lt_of_le])

theorem hget (h : Hd) (a : SReg) (b : HReg) (f : HField) : Statement (.hget h a b f) := by
  have hf := f.code_lt
  exact .mem (by omega) (by simp (disch := omega) [decodeMem, toNat_lt_of_le])

theorem hset (h : Hd) (a : HReg) (b : SReg) (f : HField) (hw : WellFormed (.hset h a b f) = true) : Statement (.hset h a b f) := by
  have hf := f.code_lt
  simp [WellFormed] at hw
  exact .mem (by omega) (by simp (disch := omega) [decodeMem, toNat_lt_of_le, hw])

theorem hmov (h : Hd) (a b : HReg) : Statement (.hmov h a b) :=
  .mem (by omega) (by simp (disch := omega) [decodeMem, toNat_lt_of_le])

theorem claim (h : Hd) (a b : SReg) : Statement (.claim h a b) :=
  .mem (by omega) (by simp [decodeMem])

theorem cbwait (h : Hd) (b c : SReg) : Statement (.cbwait h b c) :=
  .mem (by omega) (by simp [decodeMem])

theorem cbrel (h : Hd) (b c : SReg) : Statement (.cbrel h b c) :=
  .mem (by omega) (by simp [decodeMem])

theorem hld (h : Hd) (a : HReg) (b : SReg) (imm : BitVec 53) : Statement (.hld h a b imm) :=
  .enc96 (by omega) (by simp (disch := omega) [decode96, toNat_lt_of_le])

theorem hst (h : Hd) (a : HReg) (b : SReg) (imm : BitVec 53) : Statement (.hst h a b imm) :=
  .enc96 (by omega) (by simp (disch := omega) [decode96, toNat_lt_of_le])

theorem hview (h : Hd) (a b : HReg) (c : SReg) (dim : BitVec 2) (ext : BitVec 16) : Statement (.hview h a b c dim ext) :=
  .enc96 (by omega) (by simp (disch := omega) [decode96, toNat_lt_of_le])

theorem send (h : Hd) (a b : SReg) (c : HReg) (ch : BitVec 3) (fl : EFlags) (dst : BitVec 19)
    (hw : WellFormed (.send h a b c ch fl dst) = true) : Statement (.send h a b c ch fl dst) := by
  have hb := fl.byte_lt
  obtain ⟨hs, ha, hr⟩ := fl.fields_byte dst.toNat
  have hd : field (fl.byte + 32 * dst.toNat) 5 19 = dst.toNat := by rw [field]; omega
  have hz : fl.byte + 32 * dst.toNat < 16777216 := by omega
  simp [WellFormed] at hw
  exact .enc96 (by omega) (by simp (disch := omega) [decode96, toNat_lt_of_le, hs, ha, hr, hd, hz, hw])

theorem cbinit (h : Hd) (b c : SReg) (count : BitVec 8) : Statement (.cbinit h b c count) :=
  .enc96 (by omega) (by simp (disch := omega) [decode96, toNat_lt_of_le])

theorem cbacq (h : Hd) (a b : SReg) : Statement (.cbacq h a b) :=
  .enc96 (by omega) (by simp [decode96])

theorem cbcommit (h : Hd) (b : SReg) : Statement (.cbcommit h b) :=
  .enc96 (by omega) (by simp [decode96])

theorem mprog (h : Hd) (prog : BitVec 53) (hw : WellFormed (.mprog h prog) = true) : Statement (.mprog h prog) := by
  simp [WellFormed] at hw
  exact .enc96 (by omega) (by simp [decode96, hw])

theorem rset (h : Hd) (b c : SReg) : Statement (.rset h b c) :=
  .enc96 (by omega) (by simp [decode96])

theorem pdecl (h : Hd) (a b c : SReg) (state : BitVec 53) : Statement (.pdecl h a b c state) :=
  .enc96 (by omega) (by simp [decode96])

theorem pwait (h : Hd) (b : SReg) : Statement (.pwait h b) :=
  .enc96 (by omega) (by simp [decode96])

theorem pstate (h : Hd) (a b : SReg) : Statement (.pstate h a b) :=
  .enc96 (by omega) (by simp [decode96])

theorem xstat (h : Hd) (a : SReg) (ch : BitVec 3) : Statement (.xstat h a ch) :=
  .enc96 (by omega) (by simp (disch := omega) [decode96, toNat_lt_of_le])

theorem ccrd (h : Hd) (a : SReg) (cc : BitVec 4) : Statement (.ccrd h a cc) :=
  .enc96 (by omega) (by simp (disch := omega) [decode96, toNat_lt_of_le])

theorem varith (h : Hx) (o1 o2 : HReg) (o3 : HReg) (o4 : SReg) (op : VOp) (ef : EF) (rm : RM)
    (hw : WellFormed (.varith h o1 o2 o3 o4 op ef rm) = true) : Statement (.varith h o1 o2 o3 o4 op ef rm) := by
  have hop := op.code_lt
  have hef := ef.code_lt
  have hrm := rm.code_lt
  simp [WellFormed] at hw
  obtain ⟨⟨⟨hok, hf⟩, hu⟩, hx⟩ := hw
  have hfi : ef.isInt = true → RM.dyn = rm ∧ rm.code = 0 := by
    intro hi
    obtain rfl := hf.resolve_left (by simpa [EF.isInt] using hi)
    exact ⟨rfl, rfl⟩
  refine .vec (by omega) ?_
  cases he : op.unary <;> simp [he] at hu hx <;>
    simp (disch := omega) [-Prod.forall, decodeVec, field, Hx.raw_common, RawX.two, RawX.three, toNat_lt_of_le,
      Nat.mod_eq_of_lt, Nat.div_eq_of_lt, Nat.add_mul_div_left, hok, he, hu, hx] <;>
    exact ⟨fun hi => (hfi hi).1, fun hi => (hfi hi).2⟩

theorem vfma (h : Hx) (o1 o2 o3 o4 : HReg) (o5 : SReg) (k : Fma) (ef : SFmt) (rm : RM)
    (hw : WellFormed (.vfma h o1 o2 o3 o4 o5 k ef rm) = true) :
    Statement (.vfma h o1 o2 o3 o4 o5 k ef rm) := by
  have hk := k.code_lt
  have hef := ef.code_lt
  have hrm := rm.code_lt
  simp [WellFormed] at hw
  exact .vec (by omega) (by
    simp (disch := omega) [decodeVec, field, Hx.raw_common, RawX.four, toNat_lt_of_le, Nat.mod_eq_of_lt, Nat.div_eq_of_lt,
      Nat.add_mul_div_left, hw])

theorem vcmp (h : Hx) (o1 o2 o3 : HReg) (o4 : SReg) (cond : BitVec 4) (ef : EF) (sig : Bool)
    (hw : WellFormed (.vcmp h o1 o2 o3 o4 cond ef sig) = true) : Statement (.vcmp h o1 o2 o3 o4 cond ef sig) := by
  have hef := ef.code_lt
  have hs := bit_lt sig
  simp [WellFormed] at hw
  obtain ⟨⟨hc, hsig⟩, hx⟩ := hw
  have hz : ef.isFloat = false → bit sig = 0 := fun hf => by rw [hsig.resolve_right (by simp [hf])]; rfl
  exact .vec (by omega) (by
    simp (disch := omega) [decodeVec, field, bitAt, Hx.raw_common, RawX.three, toNat_lt_of_le, Nat.mod_eq_of_lt,
      Nat.div_eq_of_lt, Nat.add_mul_div_left, hc, hx]
    exact hz)

theorem vsel (h : Hx) (o1 o2 o3 o4 : HReg) (o5 : SReg) (ef : EF)
    (hw : WellFormed (.vsel h o1 o2 o3 o4 o5 ef) = true) :
    Statement (.vsel h o1 o2 o3 o4 o5 ef) := by
  have hef := ef.code_lt
  simp [WellFormed] at hw
  exact .vec (by omega) (by simp (disch := omega) [decodeVec, field, Hx.raw_common, RawX.four, toNat_lt_of_le, Nat.mod_eq_of_lt, hw])

theorem vlogic (h : Hx) (o1 o2 o3 : HReg) (o4 : SReg) (op : LogicOp) (ef : EF) (hw : WellFormed (.vlogic h o1 o2 o3 o4 op ef) = true) :
    Statement (.vlogic h o1 o2 o3 o4 op ef) := by
  have hop := op.code_lt
  have hef := ef.code_lt
  simp [WellFormed] at hw
  obtain ⟨⟨hi, hn⟩, hx⟩ := hw
  have h0 : field (op.code + 16 * ef.code) 0 4 = op.code := by rw [field]; omega
  have h4 : field (op.code + 16 * ef.code) 4 4 = ef.code := by rw [field]; omega
  refine .vec (by omega) ?_
  by_cases he : op = .not <;> simp only [he, ↓reduceIte, not_true_eq_false, false_or] at hn hx <;>
    simp (disch := omega) [-Prod.forall, decodeVec, Hx.raw_common, RawX.two, RawX.three, h0, h4]
  · simp [hi, he, hn, hx, toNat_lt_of_le]
  · simp (disch := omega) [-Prod.forall, hi, he, hx, toNat_lt_of_le]

theorem vshift (h : Hx) (o1 o2 : HReg) (o3 : HReg) (o4 : SReg) (op : ShiftOp) (ef : EF) (count : Option (BitVec 6))
    (hw : WellFormed (.vshift h o1 o2 o3 o4 op ef count) = true) : Statement (.vshift h o1 o2 o3 o4 op ef count) := by
  have hop := op.code_lt
  have hef := ef.code_lt
  simp [WellFormed] at hw
  obtain ⟨⟨hi, hn⟩, hx⟩ := hw
  cases count with
  | none =>
    have h2 : field (op.code + 16 * ef.code) 0 2 = op.code := by rw [field]; omega
    have h4 : field (op.code + 16 * ef.code) 4 4 = ef.code := by rw [field]; omega
    have hb3 : bitAt (op.code + 16 * ef.code) 3 = false := by simp [bitAt]; omega
    have hb2 : bitAt (op.code + 16 * ef.code) 2 = false := by simp [bitAt]; omega
    exact .vec (by omega) (by
      simp (disch := omega) [decodeVec, Hx.raw_common, RawX.three, toNat_lt_of_le, h2, h4, hb3, hb2, hi]
      simpa using hx)
  | some n =>
    have h2 : field (op.code + 4 + 16 * ef.code) 0 2 = op.code := by rw [field]; omega
    have h4 : field (op.code + 4 + 16 * ef.code) 4 4 = ef.code := by rw [field]; omega
    have hb3 : bitAt (op.code + 4 + 16 * ef.code) 3 = false := by simp [bitAt]; omega
    have hb2 : bitAt (op.code + 4 + 16 * ef.code) 2 = true := by simp [bitAt]; omega
    simp at hx hn
    exact .vec (by omega) (by
      simp (disch := omega) [decodeVec, Hx.raw_common, RawX.two, toNat_lt_of_le, h2, h4, hb3, hb2, hi, hn, hx])

theorem vcvt (h : Hx) (o1 o2 : HReg) (o3 : SReg) (tag : BitVec 8) (rm : RM)
    (hw : WellFormed (.vcvt h o1 o2 o3 tag rm) = true) :
    Statement (.vcvt h o1 o2 o3 tag rm) := by
  have hrm := rm.code_lt
  simp [WellFormed] at hw
  exact .vec (by omega) (by
    simp (disch := omega) [decodeVec, field, Hx.raw_common, RawX.two, toNat_lt_of_le, Nat.mod_eq_of_lt, Nat.div_eq_of_lt, hw])

theorem vreq (h : Hx) (o1 o2 : HReg) (o3 : SReg) (bsf4 : Bool) (hw : WellFormed (.vreq h o1 o2 o3 bsf4) = true) :
    Statement (.vreq h o1 o2 o3 bsf4) := by
  simp [WellFormed] at hw
  refine .vec (by have := bit_lt bsf4; omega) ?_
  cases bsf4 <;> simp (disch := omega) [decodeVec, Hx.raw_common, RawX.two, toNat_lt_of_le, bit, hw]

theorem vsfu (h : Hx) (o1 o2 : HReg) (o3 : SReg) (fn : SfuFn) (ef : SFmt)
    (hw : WellFormed (.vsfu h o1 o2 o3 fn ef) = true) :
    Statement (.vsfu h o1 o2 o3 fn ef) := by
  have hfn := fn.code_lt
  have hef := ef.code_lt
  simp [WellFormed] at hw
  exact .vec (by omega) (by
    simp (disch := omega) [decodeVec, field, Hx.raw_common, RawX.two, toNat_lt_of_le, Nat.mod_eq_of_lt, Nat.div_eq_of_lt, hw])

theorem vred (h : Hx) (o1 o2 : HReg) (o3 : SReg) (op : RedOp) (ef : EF) (rm : RM)
    (hw : WellFormed (.vred h o1 o2 o3 op ef rm) = true) :
    Statement (.vred h o1 o2 o3 op ef rm) := by
  have hop := op.code_lt
  have hef := ef.code_lt
  have hrm := rm.code_lt
  simp [WellFormed] at hw
  exact .vec (by omega) (by
    simp (disch := omega) [decodeVec, field, Hx.raw_common, RawX.two, toNat_lt_of_le, Nat.mod_eq_of_lt, Nat.div_eq_of_lt,
      Nat.add_mul_div_left, hw])

theorem vscan (h : Hx) (o1 o2 : HReg) (o3 : SReg) (op : ScanOp) (ef : EF) (ex : Bool) (rm : RM)
    (hw : WellFormed (.vscan h o1 o2 o3 op ef ex rm) = true) :
    Statement (.vscan h o1 o2 o3 op ef ex rm) := by
  have hop := op.code_lt
  have hef := ef.code_lt
  have hrm := rm.code_lt
  have hex := bit_lt ex
  simp [WellFormed] at hw
  exact .vec (by omega) (by
    simp (disch := omega) [decodeVec, field, bitAt, Hx.raw_common, RawX.two, toNat_lt_of_le, Nat.mod_eq_of_lt, Nat.div_eq_of_lt,
      Nat.add_mul_div_left, hw])

theorem vperm (h : Hx) (o1 o2 o3 : HReg) (o4 : SReg) (scat : Bool) (ef : EF) (hw : WellFormed (.vperm h o1 o2 o3 o4 scat ef) = true) :
    Statement (.vperm h o1 o2 o3 o4 scat ef) := by
  have hef := ef.code_lt
  have hs := bit_lt scat
  have h4 : field (bit scat + 16 * ef.code) 4 4 = ef.code := by rw [field]; omega
  have h1 : field (bit scat + 16 * ef.code) 1 3 = 0 := by rw [field]; omega
  have hb : (bit scat + 16 * ef.code) / 2 ^ 0 % 2 = bit scat := by omega
  have h0 : bitAt (bit scat + 16 * ef.code) 0 = scat := by rw [bitAt, hb, bit_beq]
  simp [WellFormed] at hw
  exact .vec (by omega) (by
    simp (disch := omega) [decodeVec, Hx.raw_common, RawX.three, toNat_lt_of_le, h0, h1, h4, hw])

theorem vbcast (h : Hx) (o1 o2 : HReg) (o3 : SReg) (ef : EF)
    (hw : WellFormed (.vbcast h o1 o2 o3 ef) = true) :
    Statement (.vbcast h o1 o2 o3 ef) := by
  have hef := ef.code_lt
  simp [WellFormed] at hw
  exact .vec (by omega) (by simp (disch := omega) [decodeVec, field, Hx.raw_common, RawX.two, toNat_lt_of_le, Nat.mod_eq_of_lt, hw])

theorem vmov (h : Hx) (o1 o2 : HReg) (o3 : SReg) (hw : WellFormed (.vmov h o1 o2 o3) = true) : Statement (.vmov h o1 o2 o3) := by
  simp [WellFormed] at hw
  exact .vec (by omega) (by simp (disch := omega) [decodeVec, Hx.raw_common, RawX.two, toNat_lt_of_le, hw])

theorem vfill (h : Hx) (o1 : HReg) (o2 o3 : SReg) (size : Size)
    (hw : WellFormed (.vfill h o1 o2 o3 size) = true) :
    Statement (.vfill h o1 o2 o3 size) := by
  have hsize := size.code_lt
  simp [WellFormed] at hw
  exact .vec (by omega) (by simp (disch := omega) [decodeVec, Hx.raw_common, toNat_lt_of_le, hw])

theorem vclass (h : Hx) (o1 o2 : HReg) (o3 : SReg) (ef : SFmt)
    (hw : WellFormed (.vclass h o1 o2 o3 ef) = true) :
    Statement (.vclass h o1 o2 o3 ef) := by
  have hef := ef.code_lt
  simp [WellFormed] at hw
  exact .vec (by omega) (by simp (disch := omega) [decodeVec, field, Hx.raw_common, RawX.two, toNat_lt_of_le, Nat.mod_eq_of_lt, hw])

theorem vmix (h : Hx) (o1 o2 : HReg) (o3 o4 : SReg) (hw : WellFormed (.vmix h o1 o2 o3 o4) = true) : Statement (.vmix h o1 o2 o3 o4) := by
  simp [WellFormed] at hw
  exact .vec (by omega) (by simp (disch := omega) [decodeVec, Hx.raw_common, RawX.two, toNat_lt_of_le, hw])

theorem mgang (h : Hx) (o1 : SReg) (hw : WellFormed (.mgang h o1) = true) : Statement (.mgang h o1) := by
  simp [WellFormed] at hw
  exact .eng (by omega) (by simp [decodeEng, Hx.raw_common, hw])

theorem mma (h : Hx) (o1 o2 : HReg) (o3 : SReg) (mode : MmaMode) (acc sp : Bool) (pa pb : BitVec 4)
    (hw : WellFormed (.mma h o1 o2 o3 mode acc sp pa pb) = true) : Statement (.mma h o1 o2 o3 mode acc sp pa pb) := by
  have hm := mode.code_lt
  have ha := bit_lt acc
  have hp := bit_lt sp
  simp [WellFormed] at hw
  obtain ⟨⟨hsp, hpp⟩, hx⟩ := hw
  have hz : mode ≠ .pp → pa.toNat + 16 * pb.toNat = 0 := fun hn => by simp [hpp.resolve_left hn]
  have hs : mode.code + 8 * bit acc + 16 * bit sp < 32 := by omega
  have h0 : field (mode.code + 8 * bit acc + 16 * bit sp) 0 3 = mode.code := by rw [field]; omega
  have h3 : (mode.code + 8 * bit acc + 16 * bit sp) / 2 ^ 3 % 2 = bit acc := by omega
  have h4 : (mode.code + 8 * bit acc + 16 * bit sp) / 2 ^ 4 % 2 = bit sp := by omega
  have hb3 : bitAt (mode.code + 8 * bit acc + 16 * bit sp) 3 = acc := by rw [bitAt, h3, bit_beq]
  have hb4 : bitAt (mode.code + 8 * bit acc + 16 * bit sp) 4 = sp := by rw [bitAt, h4, bit_beq]
  have hpa : field (pa.toNat + 16 * pb.toNat) 0 4 = pa.toNat := by rw [field]; omega
  have hpb : field (pa.toNat + 16 * pb.toNat) 4 4 = pb.toNat := by rw [field]; omega
  exact .eng (by omega) (by
    simp (disch := omega) [decodeEng, Hx.raw_common, RawX.two, toNat_lt_of_le, hs, h0, hb3, hb4, hpa, hpb, hsp, hx]
    simpa using hz)

theorem mrec (h : Hx) (o1 o2 : HReg) (o3 : SReg) (ef : EF) (hw : WellFormed (.mrec h o1 o2 o3 ef) = true) : Statement (.mrec h o1 o2 o3 ef) := by
  have hef := ef.code_lt
  simp [WellFormed] at hw
  exact .eng (by omega) (by simp (disch := omega) [decodeEng, Hx.raw_common, RawX.two, toNat_lt_of_le, hw])

theorem mhatch (h : Hx) (o1 o2 : HReg) (hw : WellFormed (.mhatch h o1 o2) = true) : Statement (.mhatch h o1 o2) := by
  simp [WellFormed] at hw
  exact .eng (by omega) (by simp (disch := omega) [decodeEng, Hx.raw_common, RawX.two, toNat_lt_of_le, hw])

theorem munhatch (h : Hx) (o1 o2 : HReg) (hw : WellFormed (.munhatch h o1 o2) = true) : Statement (.munhatch h o1 o2) := by
  simp [WellFormed] at hw
  exact .eng (by omega) (by simp (disch := omega) [decodeEng, Hx.raw_common, RawX.two, toNat_lt_of_le, hw])

theorem epi (h : Hx) (o1 : HReg) (o2 : SReg) (fl : EFlags) (hw : WellFormed (.epi h o1 o2 fl) = true) : Statement (.epi h o1 o2 fl) := by
  have hfl := fl.byte_lt
  simp [WellFormed] at hw
  exact .eng (by omega) (by simp (disch := omega) [decodeEng, Hx.raw_common, toNat_lt_of_le, EFlags.ofByte_byte hw.1, hw])

theorem rstat (h : Hx) (o1 : HReg) (slot : BitVec 2) (hw : WellFormed (.rstat h o1 slot) = true) : Statement (.rstat h o1 slot) := by
  simp [WellFormed] at hw
  exact .eng (by omega) (by simp (disch := omega) [decodeEng, Hx.raw_common, toNat_lt_of_le, hw])

theorem mwait (h : Hx) (hw : WellFormed (.mwait h) = true) : Statement (.mwait h) := by
  simp [WellFormed] at hw
  exact .eng (by omega) (by simp [decodeEng, Hx.raw_common, hw])

theorem mabort (h : Hx) (hw : WellFormed (.mabort h) = true) : Statement (.mabort h) := by
  simp [WellFormed] at hw
  exact .eng (by omega) (by simp [decodeEng, Hx.raw_common, hw])

theorem rfwd (h : Hx) (o1 o2 : HReg) (o3 : SReg) (hw : WellFormed (.rfwd h o1 o2 o3) = true) : Statement (.rfwd h o1 o2 o3) := by
  simp [WellFormed] at hw
  exact .eng (by omega) (by simp (disch := omega) [decodeEng, Hx.raw_common, RawX.two, toNat_lt_of_le, hw])

theorem rrev (h : Hx) (o1 o2 : HReg) (o3 : SReg) (gd : GReg)
    (hw : WellFormed (.rrev h o1 o2 o3 gd) = true) :
    Statement (.rrev h o1 o2 o3 gd) := by
  simp [WellFormed] at hw
  exact .eng (by omega) (by simp (disch := omega) [decodeEng, Hx.raw_common, RawX.two, toNat_lt_of_le, hw])

theorem rchk (h : Hx) (o1 : HReg) (o2 : SReg) (gd : GReg) (hw : WellFormed (.rchk h o1 o2 gd) = true) : Statement (.rchk h o1 o2 gd) := by
  simp [WellFormed] at hw
  exact .eng (by omega) (by simp (disch := omega) [decodeEng, Hx.raw_common, toNat_lt_of_le, hw])

theorem put (h : Hx) (o1 : HReg) (o2 : SReg) (o3 : HReg) (o4 : SReg) (fl : EFlags) (cc : BitVec 4)
    (hw : WellFormed (.put h o1 o2 o3 o4 fl cc) = true) :
    Statement (.put h o1 o2 o3 o4 fl cc) := by
  have hfl := fl.byte_lt
  simp [WellFormed] at hw
  exact .eng (by omega) (by simp (disch := omega) [decodeEng, Hx.raw_common, toNat_lt_of_le, EFlags.ofByte_byte hw.1, hw])

theorem get (h : Hx) (o1 : HReg) (o2 : SReg) (o3 : HReg) (o4 : SReg) (fl : EFlags) (cc : BitVec 4)
    (hw : WellFormed (.get h o1 o2 o3 o4 fl cc) = true) :
    Statement (.get h o1 o2 o3 o4 fl cc) := by
  have hfl := fl.byte_lt
  simp [WellFormed] at hw
  exact .eng (by omega) (by simp (disch := omega) [decodeEng, Hx.raw_common, toNat_lt_of_le, EFlags.ofByte_byte hw.1, hw])

theorem pld (h : Hx) (o1 : HReg) (o2 o3 : SReg) (fl : EFlags)
    (hw : WellFormed (.pld h o1 o2 o3 fl) = true) :
    Statement (.pld h o1 o2 o3 fl) := by
  have hfl := fl.byte_lt
  simp [WellFormed] at hw
  exact .eng (by omega) (by simp (disch := omega) [decodeEng, Hx.raw_common, toNat_lt_of_le, EFlags.ofByte_byte hw.1, hw])

theorem pconv (h : Hx) (o1 o2 : SReg) (fl : EFlags) (hw : WellFormed (.pconv h o1 o2 fl) = true) : Statement (.pconv h o1 o2 fl) := by
  have hfl := fl.byte_lt
  simp [WellFormed] at hw
  exact .eng (by omega) (by simp [decodeEng, Hx.raw_common, EFlags.ofByte_byte hw.1, hw])

theorem tfill (h : Hx) (o1 o2 : HReg) (fl : EFlags) (t : BitVec 5) (ch : BitVec 3)
    (hw : WellFormed (.tfill h o1 o2 fl t ch) = true) :
    Statement (.tfill h o1 o2 fl t ch) := by
  have hfl := fl.byte_lt
  simp [WellFormed] at hw
  exact .eng (by omega) (by
    simp (disch := omega) [decodeEng, field, Hx.raw_common, RawX.two, toNat_lt_of_le, Nat.mod_eq_of_lt, Nat.div_eq_of_lt,
      Nat.add_mul_div_left, EFlags.ofByte_byte hw.1, hw])

theorem tdrain (h : Hx) (o1 o2 : HReg) (fl : EFlags) (t : BitVec 5) (ch : BitVec 3)
    (hw : WellFormed (.tdrain h o1 o2 fl t ch) = true) :
    Statement (.tdrain h o1 o2 fl t ch) := by
  have hfl := fl.byte_lt
  simp [WellFormed] at hw
  exact .eng (by omega) (by
    simp (disch := omega) [decodeEng, field, Hx.raw_common, RawX.two, toNat_lt_of_le, Nat.mod_eq_of_lt, Nat.div_eq_of_lt,
      Nat.add_mul_div_left, EFlags.ofByte_byte hw.1, hw])


end Sys2Proof.Reads

namespace Sys2Proof

/-- The word of a well-formed instruction is read as that instruction; a step that is no instruction word has none. -/
theorem readsAs_encodeWord (i : Instr) (hw : WellFormed i = true) : ReadsAs i (encodeWord i) := by
  cases i
  case add | sub | and | or | xor | andn | shl | shr | sar | rot | min | max | minu | maxu =>
    exact .aluReg (by decide) rfl
  case addImm | subImm | andImm | orImm | xorImm | andnImm | minImm | maxImm | minuImm | maxuImm =>
    exact .aluImm (by decide) (BitVec.isLt _) (by omega) (by simp [aluImm])
  case shlImm | shrImm | sarImm | rotImm =>
    exact .aluImm (by decide) (by omega) (by omega) (by simp [aluImm])
  case mul | mulh | mulhu | div | divu | rem | remu =>
    exact .mulDiv (by decide) rfl
  case mix =>
    exact .bitOp (by decide) (.inl rfl) rfl
  case clz | ctz | popc | brev | bswap =>
    exact .bitOp (c := 0) (by decide) (.inr rfl) rfl
  case fadd h a b c f rm =>
    have reads := ReadsAs.farith (n := 0) (i := .fadd h a b c f rm) (by decide) (.inl (by decide)) rfl
    rwa [Nat.zero_add] at reads
  case fsqrt =>
    exact .farith (c := 0) (by decide) (.inr rfl) rfl
  case fsub | fmul | fdiv | fmin | fmax =>
    exact .farith (by decide) (.inl (by decide)) rfl
  case endl | eret | exit | detach | join | yield =>
    exact .low (by omega) (Hd.raw_bare ..)
  case pfence | sstep | trig | waitdep | vrelease =>
    exact .mem (by omega) (Hd.raw_bare ..)
  case nop => exact Reads.nop ..
  case bfx => exact Reads.bfx (hw := hw) ..
  case bfi => exact Reads.bfi (hw := hw) ..
  case cmp => exact Reads.cmp ..
  case cmpi => exact Reads.cmpi ..
  case sel => exact Reads.sel ..
  case glog => exact Reads.glog ..
  case movi => exact Reads.movi ..
  case movw => exact Reads.movw ..
  case ffma => exact Reads.ffma ..
  case fcmp => exact Reads.fcmp ..
  case fcvt => exact Reads.fcvt (hw := hw) ..
  case fclass => exact Reads.fclass ..
  case idr => exact Reads.idr ..
  case srr => exact Reads.srr ..
  case srw => exact Reads.srw ..
  case br => exact Reads.br ..
  case brl => exact Reads.brl ..
  case call => exact Reads.call ..
  case calll => exact Reads.calll ..
  case ret => exact Reads.ret ..
  case jmpr => exact Reads.jmpr ..
  case loop => exact Reads.loop (hw := hw) ..
  case brk => exact Reads.brk ..
  case trap => exact Reads.trap ..
  case syscall => exact Reads.syscall ..
  case ld => exact Reads.ld (hw := hw) ..
  case ldx => exact Reads.ldx (hw := hw) ..
  case st => exact Reads.st ..
  case rflush => exact Reads.rflush ..
  case rdrop => exact Reads.rdrop ..
  case rpin => exact Reads.rpin ..
  case runpin => exact Reads.runpin ..
  case pref => exact Reads.pref ..
  case fence => exact Reads.fence ..
  case ifence => exact Reads.ifence ..
  case amo => exact Reads.amo (hw := hw) ..
  case cas => exact Reads.cas ..
  case acq => exact Reads.acq ..
  case rel => exact Reads.rel ..
  case bar => exact Reads.bar ..
  case msgsend => exact Reads.msgsend ..
  case msgwait => exact Reads.msgwait ..
  case xwait => exact Reads.xwait ..
  case ccwait => exact Reads.ccwait ..
  case twait => exact Reads.twait ..
  case trel => exact Reads.trel ..
  case tstate => exact Reads.tstate ..
  case hget => exact Reads.hget ..
  case hset => exact Reads.hset (hw := hw) ..
  case hmov => exact Reads.hmov ..
  case claim => exact Reads.claim ..
  case cbwait => exact Reads.cbwait ..
  case cbrel => exact Reads.cbrel ..
  case hld => exact Reads.hld ..
  case hst => exact Reads.hst ..
  case hview => exact Reads.hview ..
  case send => exact Reads.send (hw := hw) ..
  case cbinit => exact Reads.cbinit ..
  case cbacq => exact Reads.cbacq ..
  case cbcommit => exact Reads.cbcommit ..
  case mprog => exact Reads.mprog (hw := hw) ..
  case rset => exact Reads.rset ..
  case pdecl => exact Reads.pdecl ..
  case pwait => exact Reads.pwait ..
  case pstate => exact Reads.pstate ..
  case xstat => exact Reads.xstat ..
  case ccrd => exact Reads.ccrd ..
  case varith => exact Reads.varith (hw := hw) ..
  case vfma => exact Reads.vfma (hw := hw) ..
  case vcmp => exact Reads.vcmp (hw := hw) ..
  case vsel => exact Reads.vsel (hw := hw) ..
  case vlogic => exact Reads.vlogic (hw := hw) ..
  case vshift => exact Reads.vshift (hw := hw) ..
  case vcvt => exact Reads.vcvt (hw := hw) ..
  case vreq => exact Reads.vreq (hw := hw) ..
  case vsfu => exact Reads.vsfu (hw := hw) ..
  case vred => exact Reads.vred (hw := hw) ..
  case vscan => exact Reads.vscan (hw := hw) ..
  case vperm => exact Reads.vperm (hw := hw) ..
  case vbcast => exact Reads.vbcast (hw := hw) ..
  case vmov => exact Reads.vmov (hw := hw) ..
  case vfill => exact Reads.vfill (hw := hw) ..
  case vclass => exact Reads.vclass (hw := hw) ..
  case vmix => exact Reads.vmix (hw := hw) ..
  case mgang => exact Reads.mgang (hw := hw) ..
  case mma => exact Reads.mma (hw := hw) ..
  case mrec => exact Reads.mrec (hw := hw) ..
  case mhatch => exact Reads.mhatch (hw := hw) ..
  case munhatch => exact Reads.munhatch (hw := hw) ..
  case epi => exact Reads.epi (hw := hw) ..
  case rstat => exact Reads.rstat (hw := hw) ..
  case mwait => exact Reads.mwait (hw := hw) ..
  case mabort => exact Reads.mabort (hw := hw) ..
  case rfwd => exact Reads.rfwd (hw := hw) ..
  case rrev => exact Reads.rrev (hw := hw) ..
  case rchk => exact Reads.rchk (hw := hw) ..
  case put => exact Reads.put (hw := hw) ..
  case get => exact Reads.get (hw := hw) ..
  case pld => exact Reads.pld (hw := hw) ..
  case pconv => exact Reads.pconv (hw := hw) ..
  case tfill => exact Reads.tfill (hw := hw) ..
  case tdrain => exact Reads.tdrain (hw := hw) ..
  all_goals exact .none _

theorem lenBytes_le (w : Nat) : lenBytes w ≤ 16 := by
  unfold lenBytes
  split <;> decide

/-- Settles O52: the word of an instruction is read as the instruction whatever follows it, and its bytes are the word's. -/
theorem encodedInstructionsDecode : Obligations.EncodedInstructionsDecode := by
  unfold Obligations.EncodedInstructionsDecode
  intro i rest hw hi
  obtain ⟨⟨w, n⟩, he⟩ := Option.isSome_iff_exists.mp hi
  obtain ⟨hf, hr⟩ := readsAs_encodeWord i hw
  obtain ⟨hl, hw⟩ := hf w n he
  have hn : n ≤ 16 := hl ▸ lenBytes_le w
  have hb := ofBytesLE_append_mod (bytesLE n w) (rest.take (16 - n))
  rw [bytesLE_length, ofBytesLE_bytesLE n w hw] at hb
  have ht : (bytesLE n w ++ rest).take 16 = bytesLE n w ++ rest.take (16 - n) := by
    rw [List.take_append, bytesLE_length, List.take_of_length_le (by simpa using hn)]
  simp [decode, encode, he, ht, hr he hb, bind, Except.bind, pure, Except.pure, chk]


/-- The instruction is well formed, and `p` is its word. -/
def Spelt (i : Instr) (p : Option (Nat × Nat)) : Prop := WellFormed i = true ∧ encodeWord i = p

theorem Spelt.enc64 {r : Raw} {op sub a b c imm : Nat} {i : Instr} (hb : r.Bounded 21) (hw : WellFormed i = true)
    (he : encodeWord i = r.hd.enc64 op sub a b c imm)
    (h : op = r.op ∧ sub = r.sub ∧ a = r.a ∧ b = r.b ∧ c = r.c ∧ imm = r.imm) : Spelt i (some (r.toWord 1 21, 8)) := by
  obtain ⟨rfl, rfl, rfl, rfl, rfl, rfl⟩ := h
  exact ⟨hw, he.trans (by rw [Hd.enc64_eq, hb.eq_raw])⟩

theorem Spelt.enc96 {r : Raw} {op sub a b c imm : Nat} {i : Instr} (hb : r.Bounded 53) (hw : WellFormed i = true)
    (he : encodeWord i = r.hd.enc96 op sub a b c imm)
    (h : op = r.op ∧ sub = r.sub ∧ a = r.a ∧ b = r.b ∧ c = r.c ∧ imm = r.imm) : Spelt i (some (r.toWord 2 53, 12)) := by
  obtain ⟨rfl, rfl, rfl, rfl, rfl, rfl⟩ := h
  exact ⟨hw, he.trans (by rw [Hd.enc96_eq, hb.eq_raw])⟩

theorem Spelt.enc {r : RawX} {op sub o1 o2 o3 o4 o5 aux : Nat} {i : Instr} (hb : r.Bounded) (hw : WellFormed i = true)
    (he : encodeWord i = r.hx.enc op sub o1 o2 o3 o4 o5 aux)
    (h : op = r.op ∧ sub = r.sub ∧ o1 = r.o1 ∧ o2 = r.o2 ∧ o3 = r.o3 ∧ o4 = r.o4 ∧ o5 = r.o5 ∧ aux = r.aux) :
    Spelt i (some (r.toWord, 16)) := by
  obtain ⟨rfl, rfl, rfl, rfl, rfl, rfl, rfl, rfl⟩ := h
  exact ⟨hw, he.trans (by rw [Hx.enc_eq, hb.eq_raw])⟩

/-! ## The operations chosen by SUB -/

theorem aluReg_spelt {h : Hd} {a b c : SReg} {n : Nat} {i : Instr} (e : aluReg h a b c n = some i) :
    Spelt i (h.enc64 1 n a.toNat b.toNat c.toNat 0) := by
  unfold aluReg at e
  split at e <;> cases e <;> exact ⟨rfl, rfl⟩

theorem aluImm_spelt {h : Hd} {a b : SReg} {m n : Nat} {i : Instr} (e : aluImm h a b m n = some i) (hm : m < 2 ^ 21)
    (hs : n < 6 ∨ 9 < n ∨ m < 64) : Spelt i (h.enc64 2 n a.toNat b.toNat 0 m) := by
  have h21 : (BitVec.ofNat 21 m).toNat = m := (BitVec.toNat_ofNat ..).trans (Nat.mod_eq_of_lt hm)
  unfold aluImm at e
  split at e <;> cases e
  case h_7 | h_8 | h_9 | h_10 =>
    have h6 : (BitVec.ofNat 6 m).toNat = m := (BitVec.toNat_ofNat ..).trans (Nat.mod_eq_of_lt (by omega))
    exact ⟨rfl, congrArg (h.enc64 2 _ a.toNat b.toNat 0) h6⟩
  all_goals exact ⟨rfl, congrArg (h.enc64 2 _ a.toNat b.toNat 0) h21⟩

theorem mulDiv_spelt {h : Hd} {a b c : SReg} {n : Nat} {i : Instr} (e : mulDiv h a b c n = some i) :
    Spelt i (h.enc64 3 n a.toNat b.toNat c.toNat 0) := by
  unfold mulDiv at e
  split at e <;> cases e <;> exact ⟨rfl, rfl⟩

theorem bitOp_spelt {h : Hd} {a b c : SReg} {n : Nat} {i : Instr} (e : bitOp h a b c n = some i) (hc : n = 5 ∨ c = 0) :
    Spelt i (h.enc64 4 n a.toNat b.toNat c.toNat 0) := by
  unfold bitOp at e
  split at e <;> cases e
  case h_6 => exact ⟨rfl, rfl⟩
  all_goals
    obtain rfl := hc.resolve_left (by omega)
    exact ⟨rfl, rfl⟩

theorem farith_spelt {h : Hd} {a b c : SReg} {f : SFmt} {rm : RM} {n : Nat} {i : Instr} (e : farith h a b c f rm n = some i)
    (hc : n ≠ 4 ∨ c = 0) : Spelt i (h.enc64 0x0C (n + 8 * f.code) a.toNat b.toNat c.toNat rm.code) := by
  unfold farith at e
  split at e <;> cases e
  case h_1 => exact ⟨rfl, by rw [Nat.zero_add]; rfl⟩
  case h_5 =>
    obtain rfl := hc.resolve_left (by omega)
    exact ⟨rfl, rfl⟩
  all_goals exact ⟨rfl, rfl⟩

theorem glogOp_spelt {r : Raw} {i : Instr} (hb : r.Bounded 21) (ho : r.op = 0x0A) (h : glogOp r = .ok i) :
    Spelt i (some (r.toWord 1 21, 8)) := by
  have ⟨_, _, _, _, ha, hb', hc, hsub, himm⟩ := hb
  unfold glogOp at h
  split at h
  all_goals simp at h
  case h_1 | h_2 | h_3 | h_4 =>
    obtain ⟨hz, ha, hb', hc, rfl⟩ := h
    exact .enc64 hb rfl rfl (by simp; omega)
  case h_5 | h_6 =>
    obtain ⟨hz, ha, hb', rfl⟩ := h
    exact .enc64 hb rfl rfl (by simp; omega)
  case h_7 | h_8 =>
    obtain ⟨hz, ha, rfl⟩ := h
    exact .enc64 hb rfl rfl (by simp; omega)
  case h_9 | h_10 =>
    obtain ⟨hz, rfl⟩ := h
    exact .enc64 hb rfl rfl (by simp; omega)

/-! ## The opcode tables -/

theorem decodeLow_spelt {r : Raw} {i : Instr} (hb : r.Bounded 21) (h : decodeLow r = .ok i) : Spelt i (some (r.toWord 1 21, 8)) := by
  have ⟨_, _, _, _, ha, hb', hc, hsub, himm⟩ := hb
  have hsa : (sr r.a).toNat = r.a := by simp; omega
  have hsb : (sr r.b).toNat = r.b := by simp; omega
  have hsc : (sr r.c).toNat = r.c := by simp; omega
  unfold decodeLow at h
  split at h
  all_goals simp [bare, trapCode, field, ICond.coded.some_iff, GWrite.coded.some_iff, SFmt.coded.some_iff,
    RM.coded.some_iff, Fma.coded.some_iff, FCond.coded.some_iff, Cvt.coded.some_iff] at h
  case h_1 ho =>
    obtain ⟨hs, hz, rfl⟩ := h
    refine .enc64 (op := 0) (sub := 0) (a := 0) (b := 0) (c := 0) (imm := 0) hb rfl ?_ (by omega)
    rw [show r.hd = { dly := BitVec.ofNat 4 r.dly, g := 0, gn := false } by simp [Raw.hd, hz]]
    rfl
  case h_2 ho =>
    obtain ⟨e, hz⟩ := h
    obtain ⟨hw, he⟩ := aluReg_spelt e
    exact .enc64 hb hw he (by omega)
  case h_3 ho =>
    obtain ⟨e, hz, hm⟩ := h
    obtain ⟨hw, he⟩ := aluImm_spelt e himm (by omega)
    exact .enc64 hb hw he (by omega)
  case h_4 ho =>
    obtain ⟨e, hz⟩ := h
    obtain ⟨hw, he⟩ := mulDiv_spelt e
    exact .enc64 hb hw he (by omega)
  case h_5 ho =>
    obtain ⟨e, hz, hc'⟩ := h
    obtain ⟨hw, he⟩ := bitOp_spelt e (hc'.imp_right fun e => by simp [e])
    exact .enc64 hb hw he (by omega)
  case h_6 ho =>
    obtain ⟨hs, hz, hw, rfl⟩ := h
    have : bit (r.sub == 1) = r.sub := bit_beq_one (by omega)
    exact .enc64 hb (by simpa [WellFormed] using hw) rfl (by simp; omega)
  case h_7 ho =>
    obtain ⟨hs, hz, hw, rfl⟩ := h
    exact .enc64 hb (by simpa [WellFormed] using hw) rfl (by simp; omega)
  case h_8 | h_9 =>
    obtain ⟨cond, hcond, w, hw, hz, ha, rfl⟩ := h
    exact .enc64 hb rfl rfl (by simp [Raw.off]; omega)
  case h_10 =>
    obtain ⟨hs, hz, rfl⟩ := h
    exact .enc64 hb rfl rfl (by simp [bit_bitAt]; omega)
  case h_11 ho => exact glogOp_spelt hb ho h
  case h_12 | h_21 | h_22 | h_23 | h_24 =>
    obtain ⟨hs, hz, rfl⟩ := h
    exact .enc64 hb rfl rfl (by simp [Raw.off]; omega)
  case h_13 ho =>
    obtain ⟨f, hf, rm, hrm, e, hz, hc'⟩ := h
    obtain ⟨hw, he⟩ := farith_spelt e (hc'.imp_right fun e => by simp [e])
    exact .enc64 hb hw he (by omega)
  case h_14 =>
    obtain ⟨k, hk, f, hf, rm, hrm, hz, rfl⟩ := h
    exact .enc64 hb rfl rfl (by simp; omega)
  case h_15 =>
    obtain ⟨cond, hcond, f, hf, hz, ha, rfl⟩ := h
    exact .enc64 hb rfl rfl (by simp [bit_bitAt]; omega)
  case h_16 =>
    obtain ⟨dst, hdst, src, hsrc, rm, hrm, hw, hz, rfl⟩ := h
    exact .enc64 hb (by simpa [WellFormed] using hw) rfl (by simp; omega)
  case h_17 =>
    obtain ⟨f, hf, hs, hz, rfl⟩ := h
    exact .enc64 hb rfl rfl (by simp; omega)
  case h_18 =>
    obtain ⟨hs, hz, h⟩ := h
    split at h <;> cases h
    next x e =>
    have := IdReg.coded.eq_code e
    exact .enc64 hb rfl rfl (by simp; omega)
  case h_19 | h_20 =>
    obtain ⟨hs, hz, h⟩ := h
    split at h <;> cases h
    next x e =>
    have := SysReg.coded.eq_code e
    exact .enc64 hb rfl rfl (by simp; omega)
  case h_25 =>
    obtain ⟨hs, hz, hw, rfl⟩ := h
    exact .enc64 hb (by simpa [WellFormed] using hw) rfl (by simp [Raw.off]; omega)
  case h_27 | h_28 | h_29 =>
    obtain ⟨hs, hz, hn, rfl⟩ := h
    exact .enc64 hb rfl rfl (by simp; omega)
  case h_26 | h_30 | h_31 | h_32 | h_33 | h_34 =>
    obtain ⟨hs, hz, rfl⟩ := h
    exact .enc64 hb rfl rfl (by omega)

theorem decodeMem_spelt {r : Raw} {i : Instr} (hb : r.Bounded 21) (h : decodeMem r = .ok i) : Spelt i (some (r.toWord 1 21, 8)) := by
  have ⟨_, _, _, _, ha, hb', hc, hsub, himm⟩ := hb
  unfold decodeMem at h
  split at h
  all_goals simp [bare, field, Size.coded.some_iff, Flush.coded.some_iff, Scope.coded.some_iff,
    AmoOp.coded.some_iff, HField.coded.some_iff] at h
  case h_10 | h_16 | h_19 | h_20 | h_30 =>
    obtain ⟨hs, hz, rfl⟩ := h
    exact .enc64 hb rfl rfl (by omega)
  case h_4 | h_6 | h_15 | h_17 | h_18 | h_21 | h_22 | h_23 | h_24 | h_25 | h_29 | h_31 | h_32 =>
    obtain ⟨hs, hz, rfl⟩ := h
    exact .enc64 hb rfl rfl (by simp [Raw.off]; omega)
  case h_8 =>
    obtain ⟨scope, hs, hz, rfl⟩ := h
    exact .enc64 hb rfl rfl (by omega)
  case h_2 | h_3 | h_9 | h_14 =>
    obtain ⟨_, hs, hz, rfl⟩ := h
    exact .enc64 hb rfl rfl (by simp [Raw.off]; omega)
  case h_1 =>
    obtain ⟨size, hs, ⟨hs', hx⟩, hz, rfl⟩ := h
    exact .enc64 hb (by simpa [WellFormed] using hx) rfl (by simp [bit_bitAt, Raw.off]; omega)
  case h_5 =>
    obtain ⟨hs, ha, rfl⟩ := h
    exact .enc64 hb rfl rfl (by simp [bit_bitAt, Raw.off]; omega)
  case h_7 =>
    obtain ⟨hs, hz, rfl⟩ := h
    exact .enc64 hb rfl rfl (by simp [bit_bitAt, Raw.off]; omega)
  case h_11 =>
    obtain ⟨op, hop, scope, hscope, ⟨hs, hd⟩, hz, rfl⟩ := h
    exact .enc64 hb (by simpa [WellFormed] using hd) rfl (by simp [bit_bitAt]; omega)
  case h_12 =>
    obtain ⟨hs, scope, hscope, hz, rfl⟩ := h
    exact .enc64 hb rfl rfl (by simp [bit_bitAt]; omega)
  case h_13 =>
    obtain ⟨scope, hscope, hs, hz, rfl⟩ := h
    exact .enc64 hb rfl rfl (by simp [bit_bitAt]; omega)
  case h_26 =>
    obtain ⟨f, hf, hz, hh, rfl⟩ := h
    exact .enc64 hb rfl rfl (by simp; omega)
  case h_27 =>
    obtain ⟨f, hf, hn, hz, hh, rfl⟩ := h
    exact .enc64 hb (by simpa [WellFormed] using hn) rfl (by simp; omega)
  case h_28 =>
    obtain ⟨hs, hz, ha, hb', rfl⟩ := h
    exact .enc64 hb rfl rfl (by simp; omega)

theorem decode96_spelt {r : Raw} {i : Instr} (hb : r.Bounded 53) (h : decode96 r = .ok i) : Spelt i (some (r.toWord 2 53, 12)) := by
  have ⟨_, _, _, _, ha, hb', hc, hsub, himm⟩ := hb
  unfold decode96 at h
  split at h
  all_goals simp [field, Size.coded.some_iff, Scope.coded.some_iff] at h
  case h_1 | h_2 | h_3 | h_9 | h_10 | h_11 | h_13 | h_15 | h_16 | h_17 | h_18 =>
    obtain ⟨hs, hz, rfl⟩ := h
    exact .enc96 hb rfl rfl (by simp; omega)
  case h_4 =>
    obtain ⟨size, hs, ⟨hs', hx⟩, rfl⟩ := h
    exact .enc96 hb (by simpa [WellFormed] using hx) rfl (by simp [bit_bitAt]; omega)
  case h_5 | h_6 =>
    obtain ⟨hs, hz, ha, rfl⟩ := h
    exact .enc96 hb rfl rfl (by simp; omega)
  case h_7 =>
    obtain ⟨hs, hz, ha, hb', rfl⟩ := h
    exact .enc96 hb rfl rfl (by simp; omega)
  case h_8 =>
    obtain ⟨hs, scope, hscope, hz, hw, hc, rfl⟩ := h
    exact .enc96 hb hw rfl (by simp [EFlags.byte, bit_bitAt]; omega)
  case h_12 =>
    obtain ⟨⟨hs, hw⟩, hz, hw', rfl⟩ := h
    have hp : (BitVec.ofNat 53 r.imm).toNat = r.imm := by simp; omega
    exact .enc96 hb (by simp [WellFormed, hp, hw, hw']) rfl (by omega)
  case h_14 =>
    obtain ⟨hs, rfl⟩ := h
    exact .enc96 hb rfl rfl (by simp; omega)

theorem EFlags.eq_byte {v : Nat} {f : EFlags} (h : EFlags.ofByte v = .ok f) : v = f.byte ∧ f.wf = true := by
  simp [EFlags.ofByte, field, Scope.coded.some_iff] at h
  obtain ⟨hv, scope, hscope, hw, rfl⟩ := h
  exact ⟨by simp [EFlags.byte, bit_bitAt]; omega, hw⟩

theorem EF.isInt_eq_not (ef : EF) : ef.isInt = !ef.isFloat := rfl

theorem decodeVec_spelt {r : RawX} {i : Instr} (hb : r.Bounded) (h : decodeVec r = .ok i) : Spelt i (some (r.toWord, 16)) := by
  have ⟨_, _, _, _, _, _, _, h1, h2, h3, h4, h5, hsub, _, _, _, _, haux⟩ := hb
  unfold decodeVec at h
  split at h
  all_goals simp [-Prod.forall, field, hb.common_eq_ok, RawX.two, RawX.three, RawX.four, RM.coded.some_iff,
    VOp.coded.some_iff, EF.coded.some_iff, SFmt.coded.some_iff, Fma.coded.some_iff, LogicOp.coded.some_iff, ShiftOp.coded.some_iff,
    SfuFn.coded.some_iff, RedOp.coded.some_iff, ScanOp.coded.some_iff, Size.coded.some_iff] at h
  case h_1 =>
    obtain ⟨op, hop, ef, hef, hok, rm, hrm, ⟨hw, ⟨hz, hz5, hz3⟩, ho⟩, rfl⟩ := h
    have hrm' : r.aux = rm.code ∧ (ef.isFloat = true ∨ rm = .dyn) := by
      cases hf : ef.isFloat
      · simp [EF.isInt_eq_not, hf] at hrm hz
        exact ⟨by simp [hz, ← hrm, RM.code], .inr hrm.symm⟩
      · simp [EF.isInt_eq_not, hf, RM.coded.some_iff] at hrm hz
        exact ⟨by omega, .inl rfl⟩
    cases hu : op.unary <;> simp [hu] at hw hz3 ho
    · exact .enc hb (by simp [WellFormed, Nat.mod_eq_of_lt, *]) rfl (by simp; omega)
    · exact .enc hb (by simp [WellFormed, Nat.mod_eq_of_lt, *]) rfl (by simp; omega)
  case h_2 =>
    obtain ⟨k, hk, ef, hef, rm, hrm, ⟨hw, hz, ho1, ho2, ho3, ho4⟩, rfl⟩ := h
    exact .enc hb (by simp [WellFormed, Nat.mod_eq_of_lt, *]) rfl (by simp; omega)
  case h_3 =>
    obtain ⟨ef, hef, hc, ⟨hw, ⟨hz, hz5⟩, ho1, ho2, ho3⟩, rfl⟩ := h
    cases hf : ef.isFloat <;> simp [hf] at hz
    · exact .enc hb (by simp [WellFormed, Nat.mod_eq_of_lt, *, bitAt]) rfl (by simp [bit_bitAt]; omega)
    · exact .enc hb (by simp [WellFormed, Nat.mod_eq_of_lt, *]) rfl (by simp [bit_bitAt]; omega)
  case h_4 =>
    obtain ⟨ef, hef, hs, ⟨hw, hz, ho1, ho2, ho3, ho4⟩, rfl⟩ := h
    exact .enc hb (by simp [WellFormed, Nat.mod_eq_of_lt, *]) rfl (by simp; omega)
  case h_5 =>
    obtain ⟨op, hop, ef, hef, hi, ⟨hw, ⟨hz, hz5, hz3⟩, ho⟩, rfl⟩ := h
    by_cases hn : op = .not <;> simp [hn] at hw hz3 ho
    · exact .enc hb (by simp [WellFormed, Nat.mod_eq_of_lt, *]) rfl (by simp; omega)
    · exact .enc hb (by simp [WellFormed, Nat.mod_eq_of_lt, *]) rfl (by simp; omega)
  case h_6 =>
    obtain ⟨op, hop, ef, hef, ⟨hi, h8⟩, ⟨hw, ⟨hz, hz5, hz3⟩, ho⟩, rfl⟩ := h
    cases hm : bitAt r.sub 2 <;> simp [hm] at hw hz hz3 ho <;> simp [bitAt] at h8 hm
    · exact .enc hb (by simp [WellFormed, Nat.mod_eq_of_lt, *]) rfl (by simp; omega)
    · exact .enc hb (by simp [WellFormed, Nat.mod_eq_of_lt, *]) rfl (by simp; omega)
  case h_7 =>
    obtain ⟨hs, rm, hrm, ⟨hw, hz, ho1, ho2⟩, rfl⟩ := h
    exact .enc hb (by simp [WellFormed, Nat.mod_eq_of_lt, *]) rfl (by simp; omega)
  case h_8 =>
    obtain ⟨hs, ⟨hw, hz, ho1, ho2⟩, rfl⟩ := h
    have hs' : 0x11 + bit (r.sub == 0x12) = r.sub := by obtain hs | hs := hs <;> simp [hs, bit]
    exact .enc hb (by simp [WellFormed, Nat.mod_eq_of_lt, *]) rfl (by simp; omega)
  case h_9 =>
    obtain ⟨fn, hfn, ef, hef, ⟨hw, hz, ho1, ho2⟩, rfl⟩ := h
    exact .enc hb (by simp [WellFormed, Nat.mod_eq_of_lt, *]) rfl (by simp; omega)
  case h_10 =>
    obtain ⟨op, hop, ef, hef, hok, rm, hrm, ⟨hw, hz, ho1, ho2⟩, rfl⟩ := h
    exact .enc hb (by simp [WellFormed, Nat.mod_eq_of_lt, *]) rfl (by simp; omega)
  case h_11 =>
    obtain ⟨op, hop, ef, hef, rm, hrm, ⟨hw, hz, ho1, ho2⟩, rfl⟩ := h
    exact .enc hb (by simp [WellFormed, Nat.mod_eq_of_lt, *]) rfl (by simp [bit_bitAt]; omega)
  case h_12 =>
    obtain ⟨ef, hef, hs, ⟨hw, hz, ho1, ho2, ho3⟩, rfl⟩ := h
    exact .enc hb (by simp [WellFormed, Nat.mod_eq_of_lt, *]) rfl (by simp [bit_bitAt]; omega)
  case h_13 | h_16 =>
    obtain ⟨ef, hef, hs, ⟨hw, hz, ho1, ho2⟩, rfl⟩ := h
    exact .enc hb (by simp [WellFormed, Nat.mod_eq_of_lt, *]) rfl (by simp; omega)
  case h_14 | h_17 =>
    obtain ⟨hs, ⟨hw, hz, ho1, ho2⟩, rfl⟩ := h
    exact .enc hb (by simp [WellFormed, Nat.mod_eq_of_lt, *]) rfl (by simp; omega)
  case h_15 =>
    obtain ⟨size, hs, ⟨hw, hz, ho1⟩, rfl⟩ := h
    exact .enc hb (by simp [WellFormed, Nat.mod_eq_of_lt, *]) rfl (by simp; omega)

theorem decodeEng_spelt {r : RawX} {i : Instr} (hb : r.Bounded) (h : decodeEng r = .ok i) : Spelt i (some (r.toWord, 16)) := by
  have ⟨_, _, _, _, _, _, _, h1, h2, h3, h4, h5, hsub, _, _, _, _, haux⟩ := hb
  unfold decodeEng at h
  split at h
  all_goals simp [field, hb.common_eq_ok, RawX.two, MmaMode.coded.some_iff, EF.coded.some_iff] at h
  case h_1 =>
    obtain ⟨hs, ⟨hw, hz⟩, rfl⟩ := h
    exact .enc hb hw rfl (by simp; omega)
  case h_8 | h_9 =>
    obtain ⟨hs, ⟨hw, hz⟩, rfl⟩ := h
    exact .enc hb hw rfl (by omega)
  case h_2 =>
    obtain ⟨mode, hmode, ⟨hs, hsp⟩, ⟨hw, ⟨hz, hz'⟩, ho1, ho2⟩, rfl⟩ := h
    have hpp : mode = .pp ∨ r.aux = 0 := by by_cases hp : mode = .pp <;> simp_all
    refine .enc hb ?_ rfl (by simp [bit_bitAt]; omega)
    obtain hp | ha := hpp
    · simp [WellFormed, Nat.mod_eq_of_lt, *]
    · simp [WellFormed, Nat.mod_eq_of_lt, *]
  case h_3 =>
    obtain ⟨ef, hs, hef, ⟨hw, hz, ho1, ho2⟩, rfl⟩ := h
    exact .enc hb (by simp [WellFormed, Nat.mod_eq_of_lt, *]) rfl (by simp; omega)
  case h_4 | h_5 | h_10 | h_11 =>
    obtain ⟨hs, ⟨hw, hz, ho1, ho2⟩, rfl⟩ := h
    exact .enc hb (by simp [WellFormed, Nat.mod_eq_of_lt, *]) rfl (by simp; omega)
  case h_7 | h_12 =>
    obtain ⟨hs, ⟨hw, hz, ho1⟩, rfl⟩ := h
    exact .enc hb (by simp [WellFormed, Nat.mod_eq_of_lt, *]) rfl (by simp; omega)
  case h_6 | h_15 =>
    obtain ⟨fl, hfl, ⟨hw, hz, ho1⟩, rfl⟩ := h
    obtain ⟨hs, hfw⟩ := EFlags.eq_byte hfl
    exact .enc hb (by simp [WellFormed, Nat.mod_eq_of_lt, *]) rfl (by simp; omega)
  case h_16 =>
    obtain ⟨fl, hfl, ⟨hw, hz⟩, rfl⟩ := h
    obtain ⟨hs, hfw⟩ := EFlags.eq_byte hfl
    exact .enc hb (by simp [WellFormed, *]) rfl (by simp; omega)
  case h_13 | h_14 | h_17 | h_18 =>
    obtain ⟨fl, hfl, ⟨hw, hz, ho1, ho2⟩, rfl⟩ := h
    obtain ⟨hs, hfw⟩ := EFlags.eq_byte hfl
    exact .enc hb (by simp [WellFormed, Nat.mod_eq_of_lt, *]) rfl (by simp; omega)

/-! ## Words and bytes -/

theorem decodeWord_spelt {w n : Nat} {i : Instr} (h : decodeWord w = .ok (i, n)) : n ≤ 16 ∧ Spelt i (some (w % 2 ^ (8 * n), n)) := by
  unfold decodeWord at h
  split at h
  case h_1 hl =>
    obtain ⟨_, -, h⟩ := bind_eq_ok.mp h
    split at h <;> obtain ⟨j, hj, h⟩ := bind_eq_ok.mp h <;> cases h
    · exact ⟨by decide, Raw.toWord_ofWord (n := 21) hl ▸ decodeLow_spelt (Raw.ofWord_bounded ..) hj⟩
    · exact ⟨by decide, Raw.toWord_ofWord (n := 21) hl ▸ decodeMem_spelt (Raw.ofWord_bounded ..) hj⟩
  case h_2 hl =>
    obtain ⟨_, -, h⟩ := bind_eq_ok.mp h
    obtain ⟨j, hj, h⟩ := bind_eq_ok.mp h
    cases h
    exact ⟨by decide, Raw.toWord_ofWord (n := 53) hl ▸ decode96_spelt (Raw.ofWord_bounded ..) hj⟩
  case h_3 hl =>
    obtain ⟨_, -, h⟩ := bind_eq_ok.mp h
    split at h <;> obtain ⟨j, hj, h⟩ := bind_eq_ok.mp h <;> cases h
    · exact ⟨by decide, RawX.toWord_ofWord hl ▸ decodeVec_spelt (RawX.ofWord_bounded ..) hj⟩
    · exact ⟨by decide, RawX.toWord_ofWord hl ▸ decodeEng_spelt (RawX.ofWord_bounded ..) hj⟩
  case h_4 => cases h

theorem decode_eq_ok {bs rest : List Byte} {i : Instr} (h : decode bs = .ok (i, rest)) :
    ∃ n, decodeWord (ofBytesLE (bs.take 16)) = .ok (i, n) ∧ n ≤ bs.length ∧ rest = bs.drop n := by
  simp only [decode, bind_eq_ok, chk_eq_ok, decide_eq_true_eq, pure, Except.pure, Except.ok.injEq, Prod.mk.injEq] at h
  obtain ⟨⟨j, n⟩, hj, _, hn, rfl, rfl⟩ := h
  exact ⟨n, hj, hn, rfl⟩

/-- Settles O53: what the decoder read is spelt by the bytes at the front, and those are the bytes of its word. -/
theorem decodedInstructionsEncode : Obligations.DecodedInstructionsEncode := by
  unfold Obligations.DecodedInstructionsEncode
  intro bs rest i h
  obtain ⟨n, hw, hn, rfl⟩ := decode_eq_ok h
  obtain ⟨h16, hwf, he⟩ := decodeWord_spelt hw
  refine ⟨hwf, ?_⟩
  rw [encode, he]
  simp only
  rw [bytesLE_ofBytesLE_mod (by simp; omega), List.take_take, Nat.min_eq_left h16, List.take_append_drop]
  

open Claims

/-- Settles O51: the words spelled are the encodings of well-formed instructions, so O52 decodes them. -/
theorem wordsDecode : Obligations.WordsDecode := by
  unfold Obligations.WordsDecode
  have hs : ∀ x ∈ spelled, WellFormed x.2 = true ∧ x.2.isWord = true ∧ encode x.2 = x.1 := by decide +kernel
  intro x hx
  obtain ⟨hw, hi, he⟩ := hs x hx
  rw [← he, ← List.append_nil (encode x.2)]
  exact encodedInstructionsDecode x.2 [] hw hi

end Sys2Proof
end

section
/-! PROOFS. The L1 range cache (R83 to R93): what placing, splitting and coalescing entries leave, whatever ways they take. -/

namespace Sys2Proof.Machine

/-! ## Placing entries -/

theorem leastRecent_mem {es : List L1Entry} {x : L1Entry} (h : leastRecent es = some x) : x ∈ es := by
  induction es generalizing x with
  | nil => simp [leastRecent] at h
  | cons e es ih =>
    unfold leastRecent at h
    split at h
    · simp_all
    · next r hr =>
      split at h <;> simp_all

/-- Bytes that were dirty in one of some entries. -/
def DirtyOf (es : List L1Entry) (w : Wbs) : Prop := ∀ b ∈ w, ∃ x ∈ es, b ∈ x.dirty

theorem DirtyOf.nil (es : List L1Entry) : DirtyOf es [] := by simp [DirtyOf]

theorem DirtyOf.append {es : List L1Entry} {u w : Wbs} (hu : DirtyOf es u) (hw : DirtyOf es w) : DirtyOf es (u ++ w) := by
  intro b hb
  rcases List.mem_append.mp hb with hb | hb
  · exact hu b hb
  · exact hw b hb

theorem DirtyOf.mono {es fs : List L1Entry} {w : Wbs} (h : DirtyOf es w) (hs : es ⊆ fs) : DirtyOf fs w := by
  intro b hb
  obtain ⟨x, hx, hd⟩ := h b hb
  exact ⟨x, hs hx, hd⟩

theorem DirtyOf.of_mem {es : List L1Entry} {x : L1Entry} (h : x ∈ es) : DirtyOf es x.dirty := fun _ hb => ⟨x, h, hb⟩

/-- Making room takes entries away, and writes back what was dirty in them. -/
theorem makeRoom_some {share n fuel : Nat} {ok : L1Entry → Bool} {es es' : List L1Entry} {w : Wbs}
    (h : makeRoom share n ok fuel es = some (es', w)) : es'.Sublist es ∧ DirtyOf es w := by
  induction fuel generalizing es es' w with
  | zero =>
    unfold makeRoom at h
    split at h <;> simp_all [DirtyOf.nil]
  | succ fuel ih =>
    unfold makeRoom at h
    split at h
    · simp_all [DirtyOf.nil]
    · split at h
      · simp at h
      · next x hx =>
        have hm : x ∈ es := (List.mem_filter.mp (leastRecent_mem hx)).1
        split at h
        · simp at h
        · next es1 w1 h1 =>
          obtain ⟨hs, hd⟩ := ih h1
          obtain ⟨rfl, rfl⟩ := Prod.mk.inj (Option.some.inj h)
          exact ⟨hs.trans List.erase_sublist, (DirtyOf.of_mem hm).append (hd.mono List.erase_subset)⟩

/-- An entry that finds a place keeps all but its way and granules; of the others some go, and what was dirty in them is written back. -/
theorem addEntry_some {v : L1Env} {keep : L1Entry → Bool} {e : L1Entry} {es es' : List L1Entry} {w : Wbs}
    (h : addEntry v keep e es = some (es', w)) :
    ∃ y g rest, es' = { e with way := y, grans := g } :: rest ∧ rest.Sublist es ∧ DirtyOf es w := by
  unfold addEntry at h
  dsimp only at h
  split at h
  · simp at h
  · next y es1 w1 hspot =>
    have hroom : es1.Sublist es ∧ DirtyOf es w1 := by
      split at hspot
      · obtain ⟨-, rfl, rfl⟩ : _ ∧ es = es1 ∧ [] = w1 := by simpa using hspot
        exact ⟨List.Sublist.refl _, .nil _⟩
      · split at hspot
        · obtain ⟨-, rfl, rfl⟩ : _ ∧ es = es1 ∧ [] = w1 := by simpa using hspot
          exact ⟨List.Sublist.refl _, .nil _⟩
        · split at hspot
          · simp at hspot
          · next x hx =>
            obtain ⟨-, rfl, rfl⟩ : _ ∧ es.erase x = es1 ∧ x.dirty = w1 := by simpa using hspot
            exact ⟨List.erase_sublist, .of_mem (List.mem_filter.mp (leastRecent_mem hx)).1⟩
    obtain ⟨hs, hd⟩ := hroom
    split at h
    · simp at h
    · next es2 w2 h2 =>
      obtain ⟨hs2, hd2⟩ := makeRoom_some h2
      obtain ⟨rfl, rfl⟩ := Prod.mk.inj (Option.some.inj h)
      exact ⟨_, _, _, rfl, hs2.trans hs, hd.append (hd2.mono hs.subset)⟩

/-- A property of entries that their ways and granules do not decide. -/
def Unseated (P : L1Entry → Prop) : Prop := ∀ e y g, P e → P { e with way := y, grans := g }

section
variable {P : L1Entry → Prop} (hP : Unseated P) {v : L1Env} {keep : L1Entry → Bool}
include hP

/-- Placing entries of a property makes no entry without it. -/
theorem placeAll_count {ps es : List L1Entry} (hps : ∀ p ∈ ps, P p) {x : L1Entry} (hx : ¬ P x) :
    (placeAll v keep ps es).es.count x ≤ es.count x := by
  induction ps generalizing es with
  | nil => exact le_refl _
  | cons p ps ih =>
    have ih := fun es => ih (es := es) fun q hq => hps q (List.mem_cons_of_mem p hq)
    unfold placeAll
    split
    · next es1 w1 h1 =>
      obtain ⟨y, g, rest, rfl, hs, -⟩ := addEntry_some h1
      have hne : ({ p with way := y, grans := g } : L1Entry) ≠ x := fun e => hx (e ▸ hP p y g (hps p List.mem_cons_self))
      have hc := List.count_cons_of_ne (l := rest) hne
      exact (ih _).trans (hc ▸ hs.count_le x)
    · exact ih es

/-- What placing entries writes back was dirty in one of the property. -/
theorem placeAll_wbs {ps es : List L1Entry} (hps : ∀ p ∈ ps, P p) (hes : ∀ e ∈ es, P e) :
    ∀ b ∈ (placeAll v keep ps es).wbs ++ (placeAll v keep ps es).lost.flatMap (·.dirty), ∃ x, P x ∧ b ∈ x.dirty := by
  induction ps generalizing es with
  | nil => simp [placeAll]
  | cons p ps ih =>
    have ih := fun es => ih (es := es) fun q hq => hps q (List.mem_cons_of_mem p hq)
    have hp := hps p List.mem_cons_self
    unfold placeAll
    split
    · next es1 w1 h1 =>
      obtain ⟨y, g, rest, rfl, hs, hd⟩ := addEntry_some h1
      have hes1 : ∀ e ∈ { p with way := y, grans := g } :: rest, P e :=
        List.forall_mem_cons.mpr ⟨hP p y g hp, fun e he => hes e (hs.subset he)⟩
      intro b hb
      rw [List.append_assoc] at hb
      rcases List.mem_append.mp hb with hb | hb
      · obtain ⟨x, hx, hb⟩ := hd b hb
        exact ⟨x, hes x hx, hb⟩
      · exact ih _ hes1 b hb
    · intro b hb
      simp only [List.flatMap_cons, List.mem_append] at hb
      rcases hb with hb | hb | hb
      · exact ih _ hes b (List.mem_append_left _ hb)
      · exact ⟨p, hp, hb⟩
      · exact ih _ hes b (List.mem_append_right _ hb)

/-- The pieces of an entry have a property that those with bytes have. -/
theorem seats_all {e : L1Entry} {ps : List L1Entry} (hps : ∀ p ∈ ps, p.data ≠ [] → P p) : ∀ p ∈ seats e ps, P p := by
  have hall : ∀ p ∈ ps.filter (!·.data.isEmpty), P p := fun p hp => by
    obtain ⟨hm, hd⟩ := List.mem_filter.mp hp
    exact hps p hm (by simpa using hd)
  unfold seats
  split
  · simp
  · next p rest hf =>
    rw [hf, List.forall_mem_cons] at hall
    exact List.forall_mem_cons.mpr ⟨hP p _ p.grans hall.1, hall.2⟩

/-- Replacing an entry by pieces of a property makes no entry without it. -/
theorem splitInto_count {e : L1Entry} {ps es : List L1Entry} (hps : ∀ p ∈ ps, p.data ≠ [] → P p) {x : L1Entry} (hx : ¬ P x) :
    (splitInto v e ps es).es.count x ≤ (es.erase e).count x :=
  placeAll_count hP (seats_all hP hps) hx

/-- What replacing an entry by pieces writes back was dirty in an entry of the property. -/
theorem splitInto_wbs {e : L1Entry} {ps es : List L1Entry} (hps : ∀ p ∈ ps, p.data ≠ [] → P p) (hes : ∀ e' ∈ es.erase e, P e') :
    ∀ b ∈ (splitInto v e ps es).wbs ++ (splitInto v e ps es).lost.flatMap (·.dirty), ∃ x, P x ∧ b ∈ x.dirty :=
  placeAll_wbs hP (seats_all hP hps) hes

end

/-! ## Coalescing -/

/-- A property that the merge of two entries has when both have it (R13). -/
def Joins (P : L1Entry → Prop) : Prop := ∀ a b, joinable a b = true → P a → P b → P (joined a b)

theorem coalesce_all {P : L1Entry → Prop} (hP : Joins P) {fuel : Nat} {es : List L1Entry} (h : ∀ e ∈ es, P e) :
    ∀ e ∈ coalesce fuel es, P e := by
  induction fuel generalizing es with
  | zero => exact h
  | succ fuel ih =>
    unfold coalesce
    split
    · exact h
    · next a b hab =>
      obtain ⟨c, hc, hcb⟩ := List.exists_of_findSome?_eq_some hab
      obtain ⟨d, hd, hcd⟩ := Option.map_eq_some_iff.mp hcb
      obtain ⟨rfl, rfl⟩ := Prod.mk.inj hcd
      refine ih (List.forall_mem_cons.mpr ⟨hP _ _ (List.find?_some hd) (h _ hc) (h _ (List.mem_of_find?_eq_some hd)), fun e he => ?_⟩)
      exact h e (List.mem_of_mem_erase (List.mem_of_mem_erase he))

/-- A step on each entry that stands leaves a property everywhere, when entries that it passes over have it and the step makes none
without it. -/
theorem eachEntry_all {P : L1Entry → Prop} (hP : Joins P) {hit : L1Entry → Bool} {f : L1Entry → List L1Entry → List L1Entry × Wbs}
    {es : List L1Entry} (hmiss : ∀ e ∈ es, hit e = false → P e)
    (hstep : ∀ e ∈ es, hit e = true → ∀ l x, ¬ P x → (f e l).1.count x ≤ (l.erase e).count x) : ∀ e ∈ (eachEntry hit f es).1, P e := by
  have fold (l : List L1Entry) (hl : l ⊆ es) (r : List L1Entry × Wbs) (hr : ∀ x, ¬ P x → r.1.count x ≤ l.count x) :
      ∀ x, ¬ P x → (l.foldl (fun r e =>
        if hit e && r.1.contains e then let q := f e r.1; (q.1, r.2 ++ q.2) else r) r).1.count x ≤ 0 := by
    induction l generalizing r with
    | nil => simpa using hr
    | cons e l ih =>
      obtain ⟨he, hl⟩ := List.cons_subset.mp hl
      refine ih hl _ fun x hx => ?_
      have hc := hr x hx
      dsimp only
      split
      · next hh =>
        have hh : hit e = true := by simp_all
        refine (hstep e he hh r.1 x hx).trans ?_
        by_cases hex : e = x
        · subst hex
          rw [List.count_erase_self]
          simp at hc
          omega
        · rw [List.count_erase_of_ne (Ne.symm hex)]
          simpa [List.count_cons_of_ne hex] using hc
      · next hh =>
        by_cases hex : e = x
        · subst hex
          have hit' : hit e = true := by
            by_contra hn
            exact hx (hmiss e he (by simpa using hn))
          have hn : e ∉ r.1 := by simpa [hit'] using hh
          simp [List.count_eq_zero_of_not_mem hn]
        · simpa [List.count_cons_of_ne hex] using hc
  refine coalesce_all hP fun x hx => ?_
  by_contra hn
  have := fold es (List.Subset.refl _) (es, []) (fun _ _ => le_refl _) x hn
  exact List.count_eq_zero.mp (Nat.le_zero.mp this) hx

end Sys2Proof.Machine
end

section
/-! PROOFS. Properties of entries that the home's messages keep (R13, R90). -/

namespace Sys2Proof.Machine

theorem L1Entry.meets_iff (e : L1Entry) (pa n : Nat) : e.meets pa n = true ↔ e.start < pa + n ∧ pa < e.start + e.data.length := by
  rw [L1Entry.meets, Bool.and_eq_true, decide_eq_true_eq, decide_eq_true_eq, L1Entry.stop]

/-- A property that passes from an entry to its pieces, to a clean copy in S and to a merge. -/
structure Hereditary (P : L1Entry → Prop) : Prop where
  seat : Unseated P
  joins : Joins P
  cut : ∀ e lo hi, e.start ≤ lo → (e.cut lo hi).data ≠ [] → P e → P (e.cut lo hi)
  clean : ∀ e, P e → P { e with st := .s, dstart := 0, dlen := 0 }

section
variable {P : L1Entry → Prop} (hP : Hereditary P) {v : L1Env} {pa n : Nat} {es : List L1Entry}
include hP

/-- An Invalidate leaves a property of the entries. -/
theorem invalidateL1_keeps (h : ∀ e ∈ es, P e) : ∀ e ∈ (invalidateL1 v pa n es).1, P e := by
  refine eachEntry_all hP.joins (fun e he _ => h e he) fun e he hm l x hx => splitInto_count hP.seat ?_ hx
  simp only [List.forall_mem_cons, List.not_mem_nil, false_imp_iff, implies_true, and_true]
  rw [L1Entry.meets_iff] at hm
  have hstop : e.stop = e.start + e.data.length := rfl
  exact ⟨fun hd => hP.cut _ _ _ (le_refl _) hd (h e he), fun hd => hP.cut _ _ _ (by omega) hd (h e he)⟩

/-- A Downgrade leaves a property of the entries. -/
theorem downgradeL1_keeps (h : ∀ e ∈ es, P e) : ∀ e ∈ (downgradeL1 v pa n es).1, P e := by
  refine eachEntry_all hP.joins (fun e he _ => h e he) fun e he hm l x hx => splitInto_count hP.seat ?_ hx
  simp only [List.forall_mem_cons, List.not_mem_nil, false_imp_iff, implies_true, and_true]
  obtain ⟨hmeets, -⟩ := Bool.and_eq_true_iff.mp hm
  rw [L1Entry.meets_iff] at hmeets
  have hstop : e.stop = e.start + e.data.length := rfl
  exact ⟨fun hd => hP.cut _ _ _ (le_refl _) hd (h e he), fun hd => hP.clean _ (hP.cut _ _ _ (by omega) hd (h e he)),
    fun hd => hP.cut _ _ _ (by omega) hd (h e he)⟩

end

/-! ## Where the pieces of an entry lie -/

@[simp] theorem L1Entry.cut_start (e : L1Entry) (lo hi : Nat) : (e.cut lo hi).start = lo := rfl
@[simp] theorem L1Entry.cut_length (e : L1Entry) (lo hi : Nat) :
    (e.cut lo hi).data.length = min (hi - lo) (e.data.length - (lo - e.start)) := by simp [L1Entry.cut]

/-- A piece with bytes meets what its entry meets. -/
theorem L1Entry.meets_of_cut {e : L1Entry} {lo hi pa n : Nat} (hl : e.start ≤ lo) (hd : (e.cut lo hi).data ≠ [])
    (h : (e.cut lo hi).meets pa n = true) : e.meets pa n = true := by
  have hpos : 0 < (e.cut lo hi).data.length := List.length_pos_of_ne_nil hd
  rw [L1Entry.meets_iff] at h ⊢
  rw [L1Entry.cut_length] at h hpos
  rw [L1Entry.cut_start] at h
  have hmin := Nat.min_le_right (hi - lo) (e.data.length - (lo - e.start))
  omega

/-- What joins: neighbours in one state, none pinned, whose dirty bytes touch. -/
theorem joinable_iff (a b : L1Entry) : joinable a b = true ↔
    a.stop = b.start ∧ a.start / 4096 = b.start / 4096 ∧ a.st = b.st ∧ a.cls = b.cls ∧ a.pin = false ∧ b.pin = false ∧
      (a.dlen = 0 ∨ b.dlen = 0 ∨ a.dstart + a.dlen = a.len ∧ b.dstart = 0) := by
  simp [joinable, and_assoc, or_assoc]

/-- A merge meets what one of the two meets. -/
theorem meets_of_joined {a b : L1Entry} {pa n : Nat} (hj : joinable a b = true) (hn : 0 < n) (h : (joined a b).meets pa n = true) :
    a.meets pa n = true ∨ b.meets pa n = true := by
  obtain ⟨hab, -⟩ := (joinable_iff a b).mp hj
  rw [L1Entry.stop] at hab
  rw [L1Entry.meets_iff] at h ⊢
  rw [L1Entry.meets_iff]
  simp only [joined, List.length_append] at h
  omega

/-- A condition on the state and the pin of the entries that hold bytes of an extent. -/
def Met (pa n : Nat) (Q : L1State → Bool → Prop) (e : L1Entry) : Prop := e.meets pa n = true → Q e.st e.pin

theorem Met.hereditary {pa n : Nat} {Q : L1State → Bool → Prop} (hn : 0 < n) (hQ : ∀ st p, Q st p → Q .s p) : Hereditary (Met pa n Q) where
  seat _ _ _ h := h
  cut _ _ _ hl hd h hm := h (L1Entry.meets_of_cut hl hd hm)
  clean _ h hm := hQ _ _ (h hm)
  joins a b hj ha hb hm := by
    obtain ⟨-, -, hst, -, hpa, hpb, -⟩ := (joinable_iff a b).mp hj
    rcases meets_of_joined hj hn hm with h | h
    · exact ha h
    · have := hb h
      rwa [← hst, hpb, ← hpa] at this

/-- No byte of an extent is dirty in an entry, whose dirty span lies in its bytes. -/
def Clean (z : Nat × Nat) (e : L1Entry) : Prop :=
  e.dstart + e.dlen ≤ e.data.length ∧ ∀ a, z.1 ≤ a → a < z.1 + z.2 → ¬ Claims.dirtyAt e a

theorem Clean.hereditary (z : Nat × Nat) : Hereditary (Clean z) where
  seat _ _ _ h := h
  cut e lo hi hl hd h := by
    have hpos : 0 < (e.cut lo hi).data.length := List.length_pos_of_ne_nil hd
    obtain ⟨hs, hc⟩ := h
    rw [L1Entry.cut_length] at hpos
    refine ⟨?_, fun a h1 h2 hda => hc a h1 h2 ?_⟩
    · rw [L1Entry.cut_length]
      simp only [L1Entry.cut, Nat.min_def, Nat.max_def] at hpos ⊢
      grind
    · simp only [Claims.dirtyAt, L1Entry.cut, Nat.min_def, Nat.max_def] at hda ⊢
      grind
  clean e h := ⟨by simp, fun a h1 h2 hd => by simp only [Claims.dirtyAt] at hd; omega⟩
  joins a b hj ha hb := by
    obtain ⟨hab, -, -, -, -, -, htouch⟩ := (joinable_iff a b).mp hj
    obtain ⟨hsa, hca⟩ := ha
    obtain ⟨hsb, hcb⟩ := hb
    rw [L1Entry.stop] at hab
    refine ⟨?_, fun x h1 h2 hd => ?_⟩
    · simp only [joined, List.length_append, L1Entry.len] at htouch ⊢
      split <;> [split; skip] <;> omega
    · have hax := hca x h1 h2
      have hbx := hcb x h1 h2
      simp only [Claims.dirtyAt, joined, L1Entry.len] at hd hax hbx htouch
      split at hd <;> [split at hd; skip] <;> omega

end Sys2Proof.Machine
end

section
/-! PROOFS. What coherence leaves alone (R90): the homes' messages, write-backs, walks of the page table and messages to other devices change
of a core nothing but its L1 and memory queue, keep every hereditary property of its entries, and leave the walkers and the
launches' records. First the updates of the state they are made of. -/

namespace Sys2Proof.Machine

/-- A state as coherence leaves `s₀`. -/
structure State.Tame (s₀ s : State) : Prop where
  cur : s.cur = s₀.cur
  core : ∀ i, s.at i = { s₀.at i with l1 := (s.at i).l1, memq := (s.at i).memq }
  keeps : ∀ i P, Hereditary P → (∀ e ∈ (s₀.at i).l1, P e) → ∀ e ∈ (s.at i).l1, P e
  walks : ∀ d, (s.die d).walks = (s₀.die d).walks
  records : s.launches.map (·.record) = s₀.launches.map (·.record)

theorem State.Tame.refl (s : State) : State.Tame s s := ⟨rfl, fun _ => rfl, fun _ _ _ h => h, fun _ => rfl, rfl⟩

section
variable {s₀ s : State} (h : State.Tame s₀ s)
include h

theorem State.Tame.trans {t : State} (k : State.Tame s t) : State.Tame s₀ t where
  cur := k.cur.trans h.cur
  core i := by rw [k.core i, h.core i]
  keeps i P hP hs := k.keeps i P hP (h.keeps i P hP hs)
  walks d := (k.walks d).trans (h.walks d)
  records := k.records.trans h.records

/-- The address space of a core stays (R149). -/
theorem State.Tame.space (i : Nat) : s.space i = s₀.space i := by
  have of_records (l : List Launch) (q : Word) : (l.find? fun l => l.record.seq == q).map (·.record) =
      (l.map (·.record)).find? fun r => r.seq == q := by rw [List.find?_map]; rfl
  have hfind (q : Word) : (s.launch q).map (·.record) = (s₀.launch q).map (·.record) := by
    rw [State.launch, State.launch, of_records, of_records, h.records]
  have hlaunch : (s.at i).launch = (s₀.at i).launch := by rw [h.core i]
  have hof : (s.launchOf i).map (·.record) = (s₀.launchOf i).map (·.record) := by
    rw [State.launchOf, State.launchOf, hlaunch]
    cases (s₀.at i).launch with
    | none => rfl
    | some q => exact hfind q
  unfold State.space
  cases h1 : s.launchOf i <;> cases h2 : s₀.launchOf i <;> simp_all

/-- An update of anything but the cores, the dies and the launches. -/
theorem State.Tame.rest {t : State} (hcur : t.cur = s.cur := by rfl) (hc : t.cores = s.cores := by rfl)
    (hd : t.dies = s.dies := by rfl) (hl : t.launches = s.launches := by rfl) : State.Tame s₀ t where
  cur := hcur.trans h.cur
  core i := by rw [show t.at i = s.at i by simp [State.at, hc]]; exact h.core i
  keeps i P hP hs := by rw [show t.at i = s.at i by simp [State.at, hc]]; exact h.keeps i P hP hs
  walks d := by rw [show t.die d = s.die d by simp [State.die, hd]]; exact h.walks d
  records := by rw [hl]; exact h.records

theorem State.Tame.ite {t : State} {p : Prop} [Decidable p] (ht : State.Tame s₀ t) : State.Tame s₀ (if p then s else t) := by
  split
  · exact h
  · exact ht

theorem State.Tame.foldl {α : Type} {f : State → α → State} {l : List α} (hf : ∀ s a, State.Tame s₀ s → State.Tame s₀ (f s a)) :
    State.Tame s₀ (l.foldl f s) :=
  List.foldlRecOn l f h fun t ht a _ => hf t a ht

theorem State.Tame.updLaunch {seq : Word} {f : Launch → Launch} (hf : ∀ l, (f l).record = l.record := by intros; rfl) :
    State.Tame s₀ (s.updLaunch seq f) where
  cur := h.cur
  core := h.core
  keeps := h.keeps
  walks := h.walks
  records := by
    rw [← h.records, State.updLaunch, List.map_map]
    refine List.map_congr_left fun l _ => ?_
    simp only [Function.comp_apply]
    split
    · exact hf l
    · rfl

theorem State.Tame.setDie {d : Nat} {x : Die} (hx : x.walks = (s.die d).walks) : State.Tame s₀ (s.setDie d x) where
  cur := h.cur
  core := h.core
  keeps := h.keeps
  walks e := by
    rw [← h.walks e, State.die, State.setDie]
    by_cases hde : d = e
    · subst hde
      by_cases hd : d < 2
      · simp [Vector.getD, hd, hx]
      · simp [State.die, Vector.getD, hd]
    · simp [State.die, Vector.getD, hde]
  records := h.records

/-- An update of a core's L1 that keeps hereditary properties, and of its memory queue. -/
theorem State.Tame.onL {i : Nat} {f : Core → Core} (hf : ∀ c, f c = { c with l1 := (f c).l1, memq := (f c).memq })
    (hl : ∀ P, Hereditary P → (∀ e ∈ (s.at i).l1, P e) → ∀ e ∈ (f (s.at i)).l1, P e) : State.Tame s₀ (s.on i f) := by
  refine h.trans ⟨rfl, fun j => ?_, fun j P hP hs => ?_, fun _ => rfl, rfl⟩
  · by_cases hij : i = j
    · subst hij
      by_cases hi : i < 768
      · rw [State.on_at s hi]; exact hf _
      · simp [State.at, hi]
    · rw [State.on_at_ne s hij]
  · by_cases hij : i = j
    · subst hij
      by_cases hi : i < 768
      · rw [State.on_at s hi]; exact hl P hP hs
      · simpa [State.at, hi] using hs
    · rw [State.on_at_ne s hij]; exact hs

/-- An update of a core's memory queue. -/
theorem State.Tame.onQ {i : Nat} {f : Core → Core} (hf : ∀ c, f c = { c with memq := (f c).memq } := by intros; rfl) :
    State.Tame s₀ (s.on i f) := by
  have hl (c : Core) : (f c).l1 = c.l1 := by rw [hf c]
  refine h.onL (fun c => ?_) fun P _ hs => by rwa [hl]
  rw [hl]; exact hf c

theorem State.Tame.l2Hold {who dirty pa n hint} : State.Tame s₀ (s.l2Hold who dirty pa n hint) := h.setDie rfl

theorem State.Tame.sendTo {dst cls seq b} : State.Tame s₀ (s.sendTo dst cls seq b) := h.rest

theorem State.Tame.askFor {r b} : State.Tame s₀ (s.askFor r b) := h.sendTo.ite h

theorem State.Tame.askOthers {pa n} : State.Tame s₀ (s.askOthers pa n) := (h.foldl fun _ _ hs => hs.askFor).rest

theorem State.Tame.askDown {pa n} : State.Tame s₀ (s.askDown pa n) := (h.foldl fun _ _ hs => hs.askFor).rest

theorem State.Tame.dropCopies {pa n} : State.Tame s₀ (s.dropCopies pa n) :=
  h.foldl fun _ _ hs => hs.onL (fun _ => rfl) fun _ hP hl => invalidateL1_keeps hP hl

end

end Sys2Proof.Machine
end

section
/-! PROOFS. What the home's messages leave in an L1, and what they write back (R90). -/

namespace Sys2Proof.Machine

/-- After an Invalidate no entry holds a byte of the extent. -/
theorem invalidateL1_clears {v : L1Env} {pa n : Nat} {es : List L1Entry} (hn : 0 < n) :
    ∀ e ∈ (invalidateL1 v pa n es).1, Met pa n (fun _ _ => False) e := by
  have hP := Met.hereditary (pa := pa) (Q := fun _ _ => False) hn fun _ _ h => h
  refine eachEntry_all hP.joins (fun e _ he hm => by simp [hm] at he) fun e _ hm l x hx => splitInto_count hP.seat ?_ hx
  simp only [List.forall_mem_cons, List.not_mem_nil, false_imp_iff, implies_true, and_true]
  rw [L1Entry.meets_iff] at hm
  have hstop : e.stop = e.start + e.data.length := rfl
  refine ⟨fun hd hc => ?_, fun hd hc => ?_⟩ <;>
  · have hpos := List.length_pos_of_ne_nil hd
    rw [L1Entry.meets_iff] at hc
    rw [L1Entry.cut_length] at hc hpos
    rw [L1Entry.cut_start] at hc
    omega

/-- After a Downgrade the entries that hold bytes of the extent are in S. -/
theorem downgradeL1_shares {v : L1Env} {pa n : Nat} {es : List L1Entry} (hn : 0 < n) :
    ∀ e ∈ (downgradeL1 v pa n es).1, Met pa n (fun st _ => st = .s) e := by
  have hP := Met.hereditary (pa := pa) (Q := fun st _ => st = .s) hn fun _ _ _ => rfl
  refine eachEntry_all hP.joins (fun e _ he hm => by simpa [hm] using he) fun e _ hm l x hx => splitInto_count hP.seat ?_ hx
  simp only [List.forall_mem_cons, List.not_mem_nil, false_imp_iff, implies_true, and_true]
  obtain ⟨hm, -⟩ := Bool.and_eq_true_iff.mp hm
  rw [L1Entry.meets_iff] at hm
  have hstop : e.stop = e.start + e.data.length := rfl
  refine ⟨fun hd hc => ?_, fun _ _ => rfl, fun hd hc => ?_⟩ <;>
  · have hpos := List.length_pos_of_ne_nil hd
    rw [L1Entry.meets_iff] at hc
    rw [L1Entry.cut_length] at hc hpos
    rw [L1Entry.cut_start] at hc
    omega

/-! ## The bytes that are written back -/

/-- Storage after write-backs in order. -/
def Mem.putAll (m : Mem) (w : Wbs) : Mem := w.foldl (fun m b => m.write b.1 b.2) m

/-- Write-backs that put no byte into an extent. -/
structure Off (pa n : Nat) (w : Wbs) : Prop where
  avoids : ∀ b ∈ w, ∀ a, pa ≤ a → a < pa + n → ¬ (b.1 ≤ a ∧ a < b.1 + b.2.length)

theorem Mem.wf_putAll {m : Mem} (hm : m.wf = true) (w : Wbs) : (m.putAll w).wf = true := by
  induction w generalizing m with
  | nil => exact hm
  | cons b w ih => exact ih (Mem.wf_write b.1 b.2 hm)

theorem Mem.putAll_off {m : Mem} (hm : m.wf = true) {w : Wbs} {pa n a : Nat} (hw : Off pa n w) (h1 : pa ≤ a) (h2 : a < pa + n) :
    (m.putAll w).get a = m.get a := by
  induction w generalizing m with
  | nil => rfl
  | cons b w ih =>
    have hb := hw.avoids b List.mem_cons_self a h1 h2
    exact (ih (Mem.wf_write _ _ hm) ⟨fun c hc => hw.avoids c (List.mem_cons_of_mem b hc)⟩).trans (by rw [Mem.get_write _ _ _ hm, if_neg hb])

/-- A piece that ends where an extent starts, or starts where it ends, has no dirty byte in it. -/
theorem L1Entry.cut_dirty_off {e : L1Entry} {lo hi pa n : Nat} (h : hi ≤ pa ∨ pa + n ≤ lo) : Off pa n (e.cut lo hi).dirty := by
  refine ⟨fun b hb a h1 h2 => ?_⟩
  simp only [L1Entry.dirty] at hb
  split at hb
  · simp at hb
  · next hd =>
    rw [List.mem_singleton] at hb
    subst hb
    have hlen : (((e.cut lo hi).data.drop (e.cut lo hi).dstart).take (e.cut lo hi).dlen).length ≤ (e.cut lo hi).dlen := by
      simp only [List.length_take]; exact Nat.min_le_left _ _
    have hdlen : (e.cut lo hi).dlen = min (e.start + e.dstart + e.dlen) hi - max (e.start + e.dstart) lo := rfl
    have hdstart : (e.cut lo hi).dstart = max (e.start + e.dstart) lo - lo := if_pos (by omega)
    rw [L1Entry.cut_start]
    dsimp only
    omega

/-- The bytes of the part of an entry inside an extent that are written back are those that `flushed` names. -/
theorem Mem.get_putAll_cut {s : State} (hm : s.mem.wf = true) {e : L1Entry} (he : e.dstart + e.dlen ≤ e.data.length) {pa n a : Nat}
    (h1 : pa ≤ a) (h2 : a < pa + n) :
    (s.mem.putAll (e.cut (max e.start pa) (min e.stop (pa + n))).dirty).get a = Claims.flushed s e a := by
  have hstop : e.stop = e.start + e.data.length := rfl
  generalize hc : e.cut (max e.start pa) (min e.stop (pa + n)) = c
  have hdlen : c.dlen = min (e.start + e.dstart + e.dlen) (min e.stop (pa + n)) - max (e.start + e.dstart) (max e.start pa) := by
    subst hc; rfl
  simp only [L1Entry.dirty, Claims.flushed]
  split
  · next hd => rw [hdlen] at hd; rw [if_neg (by omega)]; rfl
  · have hdat : c.start + c.dstart = max (e.start + e.dstart) (max e.start pa) := by
      subst hc
      rw [L1Entry.cut_start, show (e.cut _ _).dstart = _ from if_pos (by omega)]
      omega
    have hbytes : ∀ k, k < c.dlen → ((c.data.drop c.dstart).take c.dlen)[k]? = e.data[c.start + c.dstart - e.start + k]? := by
      intro k hk
      have hstart : c.start = max e.start pa := by subst hc; rfl
      have hdata : c.data = (e.data.drop (c.start - e.start)).take (min e.stop (pa + n) - c.start) := by subst hc; rfl
      rw [List.getElem?_take_of_lt hk, List.getElem?_drop, hdata, List.getElem?_take_of_lt (by omega), List.getElem?_drop]
      congr 1
      omega
    have hlen : ((c.data.drop c.dstart).take c.dlen).length = c.dlen := by
      refine le_antisymm (by simp only [List.length_take]; exact Nat.min_le_left _ _) ?_
      by_contra hlt
      have hk := hbytes _ (Nat.lt_of_not_le hlt)
      rw [List.getElem?_eq_none (le_refl _), eq_comm, List.getElem?_eq_none_iff] at hk
      omega
    simp only [Mem.putAll, List.foldl_cons, List.foldl_nil]
    rw [Mem.get_write _ _ _ hm, hlen]
    by_cases ha : c.start + c.dstart ≤ a ∧ a < c.start + c.dstart + c.dlen
    · rw [if_pos ha, if_pos (by omega), List.getD_eq_getElem?_getD, List.getD_eq_getElem?_getD, hbytes _ (by omega)]
      congr 2
      omega
    · rw [if_neg ha, if_neg (by omega)]

/-- Outside an extent that it does not meet an entry has no dirty byte to write back. -/
theorem flushed_of_not_meets {s : State} {e : L1Entry} (he : e.dstart + e.dlen ≤ e.data.length) {pa n a : Nat} (h1 : pa ≤ a)
    (h2 : a < pa + n) (hm : ¬ e.meets pa n = true) : Claims.flushed s e a = s.mem.get a := by
  rw [L1Entry.meets_iff] at hm
  exact if_neg (by omega)

section
variable {s : State} (hm : s.mem.wf = true) {e : L1Entry} (he : e.dstart + e.dlen ≤ e.data.length) {v : L1Env} {pa n a : Nat}
  (h1 : pa ≤ a) (h2 : a < pa + n)
include hm he h1 h2

/-- Taking the part inside an extent out of the only entry writes back what is dirty there. -/
theorem Mem.get_putAll_split {ps : List L1Entry} (hps : ∀ p ∈ ps, p.data ≠ [] → Off pa n p.dirty) :
    (s.mem.putAll ((e.cut (max e.start pa) (min e.stop (pa + n))).dirty ++ (splitInto v e ps [e]).wbs ++
      (splitInto v e ps [e]).lost.flatMap (·.dirty))).get a = Claims.flushed s e a := by
  have hoff : Off pa n ((splitInto v e ps [e]).wbs ++ (splitInto v e ps [e]).lost.flatMap (·.dirty)) := by
    refine ⟨fun b hb => ?_⟩
    obtain ⟨x, hx, hb⟩ := splitInto_wbs (P := fun x => Off pa n x.dirty) (fun _ _ _ h => h) hps (by simp) b hb
    exact hx.avoids b hb
  have hcut := Mem.get_putAll_cut hm he h1 h2
  rw [List.append_assoc, Mem.putAll, List.foldl_append]
  refine (Mem.putAll_off ?_ hoff h1 h2).trans hcut
  exact Mem.wf_putAll hm _

/-- An Invalidate of the only entry writes back its dirty bytes inside the extent. -/
theorem invalidateL1_flushes : (s.mem.putAll (invalidateL1 v pa n [e]).2).get a = Claims.flushed s e a := by
  by_cases hme : e.meets pa n = true
  · have hme' := (L1Entry.meets_iff e pa n).mp hme
    have hstop : e.stop = e.start + e.data.length := rfl
    simp only [invalidateL1, eachEntry, settle, List.foldl_cons, List.foldl_nil, hme, List.contains_cons, BEq.rfl, Bool.true_or,
      Bool.and_self, if_true, List.nil_append]
    refine Mem.get_putAll_split hm he h1 h2 ?_
    simp only [List.forall_mem_cons, List.not_mem_nil, false_imp_iff, implies_true, and_true]
    refine ⟨fun hd => L1Entry.cut_dirty_off (.inl ?_), fun hd => L1Entry.cut_dirty_off (.inr ?_)⟩ <;>
    · have hpos := List.length_pos_of_ne_nil hd
      rw [L1Entry.cut_length] at hpos
      omega
  · simp only [invalidateL1, eachEntry, settle, List.foldl_cons, List.foldl_nil, hme, Bool.false_and, Bool.false_eq_true, if_false]
    exact (flushed_of_not_meets he h1 h2 hme).symm

/-- A Downgrade of the only entry writes back its dirty bytes inside the extent. -/
theorem downgradeL1_flushes (hs : e.st = .s → e.dlen = 0) :
    (s.mem.putAll (downgradeL1 v pa n [e]).2).get a = Claims.flushed s e a := by
  by_cases hhit : (e.meets pa n && e.st != .s) = true
  · obtain ⟨hme, -⟩ := Bool.and_eq_true_iff.mp hhit
    rw [L1Entry.meets_iff] at hme
    have hstop : e.stop = e.start + e.data.length := rfl
    simp only [downgradeL1, eachEntry, settle, List.foldl_cons, List.foldl_nil, hhit, List.contains_cons, BEq.rfl, Bool.true_or,
      Bool.and_self, if_true, List.nil_append]
    refine Mem.get_putAll_split hm he h1 h2 ?_
    simp only [List.forall_mem_cons, List.not_mem_nil, false_imp_iff, implies_true, and_true]
    refine ⟨fun hd => L1Entry.cut_dirty_off (.inl ?_), fun _ => ⟨by simp [L1Entry.dirty]⟩, fun hd => L1Entry.cut_dirty_off (.inr ?_)⟩ <;>
    · have hpos := List.length_pos_of_ne_nil hd
      rw [L1Entry.cut_length] at hpos
      omega
  · simp only [downgradeL1, eachEntry, settle, List.foldl_cons, List.foldl_nil, hhit, Bool.false_and, Bool.false_eq_true, if_false]
    by_cases hme : e.meets pa n = true
    · have hst : e.st = .s := by simpa [hme] using hhit
      exact (if_neg (by have := hs hst; omega)).symm
    · exact (flushed_of_not_meets he h1 h2 hme).symm

end

end Sys2Proof.Machine
end

section
/-! PROOFS. What coherence leaves alone (R90): the functions on stores, journals, messages and walks, in the order of the model's files. -/

namespace Sys2Proof.Machine

theorem State.Tame.writeKeys {s₀ s : State} (h : State.Tame s₀ s) {ks : List (Nat × Nat)} {bs : List Byte} :
    State.Tame s₀ (State.writeKeys ks bs s) := by
  induction ks generalizing s bs with
  | nil => exact h
  | cons k ks ih => exact ih (h.dropCopies.rest)

section
variable {s₀ s : State} (h : State.Tame s₀ s)
include h

theorem State.Tame.journal {seq gs} : State.Tame s₀ (s.journal seq gs) := by
  unfold State.journal
  split
  · exact h
  · dsimp only
    exact h.ite ((h.writeKeys.updLaunch).ite (h.updLaunch))

theorem State.Tame.noted {seq i undo pa n} : State.Tame s₀ (s.noted seq i undo pa n) :=
  (h.journal.updLaunch).ite h.journal

theorem State.Tame.setBytes {who undo pa bs hint} : State.Tame s₀ (s.setBytes who undo pa bs hint) := by
  have noted : State.Tame s₀ (match who with
      | none => s
      | some i => match (s.at i).launch with
        | none => s
        | some q => s.noted q i undo pa bs.length) := by
    split
    · exact h
    · split
      · exact h
      · exact h.noted
  exact noted.l2Hold.rest

theorem State.Tame.tellAs {seq pa b} : State.Tame s₀ (s.tellAs seq pa b) := by
  unfold State.tellAs
  split
  · exact h
  · have sent := h.sendTo (dst := pa / 2 ^ 41) (cls := 0) (seq := seq) (b := b)
    dsimp only
    generalize s.sendTo (pa / 2 ^ 41) 0 seq b = t at sent
    split
    · exact sent.rest
    · exact sent

theorem State.Tame.tellHome {who pa b} : State.Tame s₀ (s.tellHome who pa b) := by
  unfold State.tellHome
  split
  · exact h
  · exact h.tellAs

theorem State.Tame.fetchFor {seq excl pa n} : State.Tame s₀ (s.fetchFor seq excl pa n) := by
  unfold State.fetchFor
  split
  · exact h
  · exact h.ite (h.tellAs.rest)

theorem State.Tame.comes {i excl pa n} : Holds (State.Tame s₀) (s.comes i excl pa n) := by
  unfold State.comes
  exact .ite (.ite .none (.some h.fetchFor)) (.ite (.some (h.askOthers.ite h.askDown)) .none)

theorem State.Tame.homeWrite {who undo pa bs} : State.Tame s₀ (s.homeWrite who undo pa bs) := h.setBytes.tellHome

theorem State.Tame.drainWb {p i} : State.Tame s₀ (s.drainWb p i) := by
  unfold State.drainWb
  refine (h.onQ).foldl fun _ _ hs => ?_
  split
  · exact hs.homeWrite
  · exact hs

theorem State.Tame.applyWbs {i w} : State.Tame s₀ (s.applyWbs i w) := h.foldl fun _ _ hs => hs.drainWb.homeWrite

/-- An L1 operation that keeps hereditary properties. -/
theorem State.Tame.onL1 {i f} (hf : ∀ v es P, Hereditary P → (∀ e ∈ es, P e) → ∀ e ∈ (f v es).1, P e) : State.Tame s₀ (s.onL1 i f) :=
  (h.onL (fun _ => rfl) fun P hP hs => hf _ _ P hP hs).applyWbs

theorem State.Tame.settleWb {pa n} : State.Tame s₀ (s.settleWb pa n) := h.foldl fun _ _ hs => hs.drainWb

theorem State.Tame.invalidateAt {i pa n} : State.Tame s₀ (s.invalidateAt i pa n) := by
  have invalidated := h.onL1 (i := i) (f := fun v es => invalidateL1 v pa n es) fun _ _ _ hP hs => invalidateL1_keeps hP hs
  exact invalidated.onQ (f := fun c => { c with memq := c.memq ++ (s.at i).repins pa n })

theorem State.Tame.downgradeAt {i pa n} : State.Tame s₀ (s.onL1 i fun v es => downgradeL1 v pa n es) :=
  h.onL1 fun _ _ _ hP hs => downgradeL1_keeps hP hs

theorem State.Tame.withdraw {keep pa n} : State.Tame s₀ (s.withdraw keep pa n) :=
  h.settleWb.askOthers.foldl fun _ _ hs => hs.invalidateAt

theorem State.Tame.downgrade {keep pa n} : State.Tame s₀ (s.downgrade keep pa n) := h.settleWb.foldl fun _ _ hs => hs.downgradeAt

theorem State.Tame.coherentRead {pa n} : State.Tame s₀ (s.coherentRead pa n).1 := h.downgrade.l2Hold

theorem State.Tame.coherentWrite {who undo pa bs} : State.Tame s₀ (s.coherentWrite who undo pa bs) := h.withdraw.homeWrite

end

/-- A walk of the page table. -/
theorem State.Tame.walk {s₀ s : State} (h : State.Tame s₀ s) {i asid root va n m k} : State.Tame s₀ (s.walk i asid root va n m k).1 := by
  induction m generalizing s k with
  | zero => exact h
  | succ m ih =>
    unfold State.walk
    dsimp only
    split
    · exact h
    · next e => exact h.comes.some_of_eq e
    · split
      · exact h.coherentRead
      · split
        · split
          · exact h.coherentRead
          · generalize _ ||| 64 ||| _ = w
            split
            · exact h.coherentRead
            · split
              · next e => exact h.coherentRead.comes.some_of_eq e
              · dsimp only
                exact h.coherentRead.coherentWrite.tellHome
        · exact ih h.coherentRead

end Sys2Proof.Machine
end

section
/-! PROOFS. A walk of the page table ends (R98 to R100): which walks stay, and what the cores attached to it find. -/

namespace Sys2Proof.Machine

/-! ## The steps of storage

What `exec` does at each of them, said without its match over every instruction. -/

section
variable (s : State) (c d k : Nat)

theorem exec_pendingWriteLand : exec (.pendingWriteLand c) s = execPendingWriteLand c s := rfl

theorem exec_l1Fill : exec (.l1Fill c k) s = execL1Fill c k s := rfl

theorem exec_ownershipGrant : exec (.ownershipGrant c k) s = execOwnershipGrant c k s := rfl

theorem exec_writeBackComplete : exec (.writeBackComplete c k) s = execWriteBackComplete c k s := rfl

theorem exec_walkComplete : exec (.walkComplete d k) s = execWalkComplete d k s := rfl

theorem exec_hotRowHalve : exec (.hotRowHalve d) s = execHotRowHalve d s := rfl

end

/-! ## What leaves the walkers alone -/

/-- The walks of the dies are those of `W`. -/
structure State.Walking (W : Nat → List Walk) (s : State) : Prop where
  walks : ∀ d, (s.die d).walks = W d

section
variable {W : Nat → List Walk} {s : State} (h : s.Walking W)
include h

theorem State.Walking.tame {t : State} (k : State.Tame s t) : t.Walking W := ⟨fun d => (k.walks d).trans (h.walks d)⟩

theorem State.Walking.rest {t : State} (hd : t.dies = s.dies := by rfl) : t.Walking W := ⟨fun d => by
  rw [show t.die d = s.die d by simp [State.die, hd]]; exact h.walks d⟩

/-- An update of what the end of a launch and a step on a sync object change beside cores and memory. -/
theorem State.Walking.withRecords {launches images places cbs dones} :
    ({ s with launches := launches, images := images, places := places, cbs := cbs, dones := dones } : State).Walking W := ⟨h.walks⟩

theorem State.Walking.ite {t : State} {p : Prop} [Decidable p] (ht : t.Walking W) : (if p then s else t).Walking W := by
  split
  · exact h
  · exact ht

theorem State.Walking.foldl {α : Type} {f : State → α → State} {l : List α} (hf : ∀ s a, s.Walking W → (f s a).Walking W) :
    (l.foldl f s).Walking W :=
  List.foldlRecOn l f h fun t ht a _ => hf t a ht

theorem State.Walking.on {i : Nat} {f : Core → Core} : (s.on i f).Walking W := h.rest

theorem State.Walking.sendTo {dst cls seq b} : (s.sendTo dst cls seq b).Walking W := h.rest

theorem State.Walking.tellAs {seq pa b} : (s.tellAs seq pa b).Walking W := h.tame (State.Tame.refl s).tellAs

theorem State.Walking.withdraw {keep pa n} : (s.withdraw keep pa n).Walking W := h.tame (State.Tame.refl s).withdraw

theorem State.Walking.setBytes {who undo pa bs hint} : (s.setBytes who undo pa bs hint).Walking W := h.tame (State.Tame.refl s).setBytes

theorem State.Walking.noted {seq i undo pa n} : (s.noted seq i undo pa n).Walking W := h.tame (State.Tame.refl s).noted

theorem State.Walking.event {kind unit idx seq addr} : (s.event kind unit idx seq addr).Walking W :=
  h.ite ((h.tame (State.Tame.refl s).coherentWrite).rest.ite h.rest)

theorem State.Walking.memberWrite {seq i undo pa bs hint} : (s.memberWrite seq i undo pa bs hint).Walking W :=
  h.withdraw.noted.setBytes.tellAs

theorem State.Walking.putBack {u} : (s.putBack u).Walking W := (h.tame (State.Tame.refl s).dropCopies).rest

theorem State.Walking.carry {c : Core} : (s.carry c).Walking W := h.foldl fun _ _ hs => hs.putBack

theorem State.Walking.restoreFar {kept u} : (s.restoreFar kept u).Walking W := h.foldl fun _ _ hs => hs.tellAs

theorem State.Walking.cbChanged {pa} : (s.cbChanged pa).Walking W := h.ite ((h.rest.ite h).foldl fun _ _ hs => hs.sendTo)

theorem State.Walking.queuesWritten {before : State} : (before.queuesWritten s).Walking W := h.foldl fun _ _ hs => hs.cbChanged

theorem State.Walking.restoreUndo {q} : (s.restoreUndo q).Walking W := by
  have restored : (q.memUndo.foldl State.putBack s).Walking W := h.foldl fun _ _ hs => hs.putBack
  exact .queuesWritten (.foldl restored.rest fun _ _ hs => hs.restoreFar)

theorem State.Walking.syncStep {who undo pa f} : (s.syncStep who undo pa f).Walking W := by
  unfold State.syncStep
  refine .withRecords ?_
  split
  · exact h.withdraw.setBytes
  · exact h.withdraw.setBytes.ite h.withdraw.memberWrite

theorem State.Walking.requeue {pa} : (s.requeue pa).Walking W := h.withdraw.ite h.withdraw.setBytes

theorem State.Walking.unqueue {gone} : (s.unqueue gone).Walking W := h.rest.foldl fun _ _ hs => hs.requeue

theorem State.Walking.tellLinked {seq n tries what} : (s.tellLinked seq n tries what).Walking W := h.foldl fun _ _ hs => hs.sendTo

theorem State.Walking.endLaunch {seq status detail undo} : (s.endLaunch seq status detail undo).Walking W := by
  unfold State.endLaunch
  split
  · exact h
  · split
    · exact h
    · refine .withRecords ?_
      refine .tellLinked (.unqueue (.foldl (.foldl ?_ fun _ _ hs => hs.syncStep.tellAs) fun _ _ hs => hs.on))
      exact State.Walking.ite (.foldl (h.foldl fun _ _ hs => hs.restoreUndo) fun _ _ hs => hs.carry) h

theorem State.Walking.poisonLaunch {seq g} : (s.poisonLaunch seq g).Walking W := by
  unfold State.poisonLaunch
  dsimp only
  split
  · exact h.event.rest.ite h.event
  · exact (h.event.rest.ite h.event).endLaunch

theorem State.Walking.poisonEnds {i g} : (s.poisonEnds i g).Walking W := h.poisonLaunch

end

/-! ## The end of a walk -/

theorem State.dropWalk_walks {s : State} {d k : Nat} (hd : d < 2) : ((s.dropWalk d k).die d).walks = (s.die d).walks.eraseIdx k := by
  simp [State.dropWalk, State.setDie, State.die, Vector.getD, hd]

/-- A core that a translation has reached, under an ASID. -/
def Core.learn (e : TlbEntry) (va : Nat) (a : BitVec 12) (c : Core) : Core := { c with tlb := putTlb { e with asid := a } va c.tlb }

/-- A core whose fills stop at a page. -/
def Core.cutFills (va : Nat) (c : Core) : Core := { c with memq := c.memq.filterMap (·.upTo va) }

section
variable {s : State} {d k : Nat} {w : Walk} (hw : (s.die d).walks[k]? = some w)

/-- The cores attached to a walk that still run under its root. -/
def State.attached (s : State) (w : Walk) : List Nat := w.cores.filter fun i => (s.space i).2 == w.root

theorem State.mem_attached {i : Nat} (hi : i ∈ w.cores) (hr : (s.space i).2 = w.root) : i ∈ s.attached w := by
  simp [State.attached, hi, hr]

include hw

/-- A walk that goes on leaves the walks as they are. -/
theorem State.endWalk_away {s2 : State} (he : s.walk (w.cores.headD 0) w.asid w.root w.va {} 4 w.root = (s2, .error .away)) :
    s.endWalk d k = s2 := by simp only [State.endWalk, hw, he]

/-- A walk that ends at a leaf. -/
theorem State.endWalk_ok {s2 : State} {e : TlbEntry} (he : s.walk (w.cores.headD 0) w.asid w.root w.va {} 4 w.root = (s2, .ok e)) :
    s.endWalk d k = (s.attached w).foldl (fun s i => s.on i (Core.learn e w.va (s.space i).1)) (s2.dropWalk d k) := by
  simp only [State.endWalk, hw, he]
  rfl

/-- A walk that ends in a page fault. -/
theorem State.endWalk_fault {s2 : State} {x : Nat}
    (he : s.walk (w.cores.headD 0) w.asid w.root w.va {} 4 w.root = (s2, .error (.fault x))) :
    s.endWalk d k = (s.attached w).foldl (fun s i => s.on i (Core.cutFills w.va)) (s2.dropWalk d k) := by
  simp only [State.endWalk, hw, he]
  rfl

/-- A walk that ends at a poisoned granule. -/
theorem State.endWalk_poisoned {s2 : State} {g : Nat}
    (he : s.walk (w.cores.headD 0) w.asid w.root w.va {} 4 w.root = (s2, .error (.poisoned g))) :
    s.endWalk d k = (s.attached w).foldl (fun s i => s.poisonEnds i g) (s2.dropWalk d k) := by
  simp only [State.endWalk, hw, he]
  rfl

end

/-! ## What the attached cores find -/

/-- An update of the cores of a list, one after another, that leaves their launches: a property that the update of a core gives it, and
that a second one keeps, holds of each of them. -/
theorem State.foldl_on_at {P : Core → Prop} {f : BitVec 12 → Core → Core} (hl : ∀ a c, (f a c).launch = c.launch) {s : State}
    {l : List Nat} {i : Nat} (hi : i < 768) (hf : ∀ c, P (f (s.space i).1 c))
    (h : i ∈ l ∨ P (s.at i)) : P ((l.foldl (fun s j => s.on j (f (s.space j).1)) s).at i) := by
  have on_space (s : State) (j k : Nat) (a : BitVec 12) : (s.on j (f a)).space k = s.space k := by
    have hlaunch : ((s.on j (f a)).at k).launch = (s.at k).launch := by
      by_cases hjk : j = k
      · subst hjk
        by_cases hj : j < 768
        · rw [State.on_at s hj, hl]
        · simp [State.at, hj]
      · rw [State.on_at_ne s hjk]
    simp only [State.space, State.launchOf, hlaunch]
    rfl
  induction l generalizing s with
  | nil => simpa using h
  | cons j l ih =>
    refine ih (s := s.on j (f (s.space j).1)) (by rw [on_space]; exact hf) ?_
    by_cases hji : j = i
    · subst hji
      right
      rw [State.on_at s hi]
      exact hf _
    · rw [State.on_at_ne s hji]
      exact h.imp_left fun hm => (List.mem_cons.mp hm).resolve_left (Ne.symm hji)

theorem mem_putTlb (e : TlbEntry) (va : Nat) (t : List TlbEntry) : e ∈ putTlb e va t := by simp [putTlb]

/-- What is left of a fill whose page cannot be translated ends below the page or starts above it. -/
theorem MemReq.upTo_fill {va a n : Nat} {ex : Bool} {k : RClass} {q : MemReq} (h : q.upTo va = some (.fill a n ex k)) :
    a + n ≤ va / 8192 * 8192 ∨ va / 8192 * 8192 + 8192 ≤ a := by
  cases q with
  | fill b m x c =>
    simp only [MemReq.upTo, Bool.or_eq_true, decide_eq_true_eq] at h
    split at h
    · simp only [Option.some.injEq, MemReq.fill.injEq] at h
      omega
    · split at h
      · simp only [Option.some.injEq, MemReq.fill.injEq] at h
        omega
      · simp at h
  | _ => simp [MemReq.upTo] at h

/-- The statement of `StorageEvents` about the end of a walk (R98). -/
theorem walkComplete_yields {s : State} {d : Nat} (hd : d < 2) {k : Nat} {w : Walk} (hk : k < 64) (hw : (s.die d).walks[k]? = some w) :
    let walked := s.walk (w.cores.headD 0) w.asid w.root w.va {} 4 w.root
    Yields s (.walkComplete d k) fun t => (walked.2 = .error .away → (t.die d).walks = (s.die d).walks) ∧
      (walked.2 ≠ .error .away → (t.die d).walks = (s.die d).walks.eraseIdx k) ∧
      ∀ i ∈ w.cores, i < 768 → (s.space i).2 = w.root →
        (∀ e, walked.2 = .ok e → { e with asid := (s.space i).1 } ∈ (t.at i).tlb) ∧
        (∀ x, walked.2 = .error (.fault x) → ∀ a n ex k, .fill a n ex k ∈ (t.at i).memq →
          a + n ≤ w.va / 8192 * 8192 ∨ w.va / 8192 * 8192 + 8192 ≤ a) := by
  intro walked
  refine ⟨s.endWalk d k, by simp [exec_walkComplete, execWalkComplete, hk], ?_⟩
  have tame : State.Tame s walked.1 := (State.Tame.refl s).walk
  have going : (walked.1.dropWalk d k).Walking fun e => ((walked.1.dropWalk d k).die e).walks := ⟨fun _ => rfl⟩
  have dropped {t : State} (ht : t.Walking fun e => ((walked.1.dropWalk d k).die e).walks) :
      (t.die d).walks = (s.die d).walks.eraseIdx k := 
    (ht.walks d).trans ((State.dropWalk_walks hd).trans (by rw [tame.walks]))
  have eq : s.walk (w.cores.headD 0) w.asid w.root w.va {} 4 w.root = (walked.1, walked.2) := rfl
  cases hr : walked.2 with
  | ok e =>
    rw [State.endWalk_ok hw (eq.trans (by rw [hr]))]
    refine ⟨nofun, fun _ => dropped (going.foldl fun _ _ hs => hs.on), fun i hi hlt hroot => ⟨fun e' he => ?_, nofun⟩⟩
    obtain rfl := Except.ok.inj he
    have hspace : (walked.1.dropWalk d k).space i = s.space i := tame.space i
    exact State.foldl_on_at (P := fun c => { e with asid := (s.space i).1 } ∈ c.tlb) (f := Core.learn e w.va) (fun _ _ => rfl) hlt
      (fun c => by rw [hspace]; exact mem_putTlb _ _ _) (.inl (State.mem_attached hi hroot))
  | error x =>
    cases x with
    | away =>
      rw [State.endWalk_away hw (eq.trans (by rw [hr]))]
      exact ⟨fun _ => tame.walks d, fun h => absurd rfl h, fun _ _ _ _ => ⟨nofun, nofun⟩⟩
    | fault l =>
      rw [State.endWalk_fault hw (eq.trans (by rw [hr]))]
      refine ⟨nofun, fun _ => dropped (going.foldl fun _ _ hs => hs.on), fun i hi hlt hroot => ⟨nofun, fun _ _ => ?_⟩⟩
      refine State.foldl_on_at (P := fun c => ∀ a n ex k, .fill a n ex k ∈ c.memq →
        a + n ≤ w.va / 8192 * 8192 ∨ w.va / 8192 * 8192 + 8192 ≤ a) (f := fun _ => Core.cutFills w.va) (fun _ _ => rfl) hlt
        (fun c a n ex k hm => ?_) (.inl (State.mem_attached hi hroot))
      obtain ⟨q, -, hq⟩ := List.mem_filterMap.mp hm
      exact MemReq.upTo_fill hq
    | poisoned g =>
      rw [State.endWalk_poisoned hw (eq.trans (by rw [hr]))]
      exact ⟨nofun, fun _ => dropped (going.foldl fun _ _ hs => hs.poisonEnds), fun _ _ _ _ => ⟨nofun, nofun⟩⟩

end Sys2Proof.Machine
end

section
/-! PROOFS. Hot rows (R103) and pending writes (R179). -/

namespace Sys2Proof.Machine

/-! ## Hot rows -/

/-- The counters of a die, halved, those at 0 left out. -/
def halvedHot (l : List (Nat × Nat)) : List (Nat × Nat) := (l.map fun h => (h.1, h.2 / 2)).filter (·.2 != 0)

theorem find_halvedHot_absent {l : List (Nat × Nat)} {k : Nat} (h : k ∉ l.map (·.1)) : (halvedHot l).find? (·.1 == k) = none := by
  simp only [halvedHot, List.find?_eq_none, List.mem_filter, List.mem_map, and_imp, forall_exists_index]
  rintro x y hy rfl -
  simp only [beq_iff_eq]
  rintro rfl
  exact h (List.mem_map_of_mem hy)

/-- Of counters with distinct indices each is halved. -/
theorem find_halvedHot {l : List (Nat × Nat)} (h : (l.map (·.1)).Nodup) (k : Nat) :
    (((halvedHot l).find? (·.1 == k)).map (·.2)).getD 0 = ((l.find? (·.1 == k)).map (·.2)).getD 0 / 2 := by
  induction l with
  | nil => simp [halvedHot]
  | cons x l ih =>
    obtain ⟨hx, hl⟩ := List.nodup_cons.mp h
    have ih := ih hl
    by_cases hk : x.1 = k
    · subst hk
      have hrest := find_halvedHot_absent hx
      by_cases hz : x.2 / 2 = 0
      · have : halvedHot (x :: l) = halvedHot l := by simp [halvedHot, hz]
        rw [this, hrest]
        simp [hz]
      · have : halvedHot (x :: l) = (x.1, x.2 / 2) :: halvedHot l := by simp [halvedHot, hz]
        simp [this]
    · have hskip : (halvedHot (x :: l)).find? (·.1 == k) = (halvedHot l).find? (·.1 == k) := by
        by_cases hz : x.2 / 2 = 0
        · simp [halvedHot, hz]
        · have : halvedHot (x :: l) = (x.1, x.2 / 2) :: halvedHot l := by simp [halvedHot, hz]
          simp [this, hk]
      rw [hskip, ih]
      simp [hk]

/-- The statement of `StorageEvents` about halving (R103). -/
theorem hotRowHalve_yields {s : State} {d : Nat} (hd : d < 2) (hg : 2 ^ 20 ≤ (s.die d).gathers)
    (hn : ((s.die d).hot.map (·.1)).Nodup) : Yields s (.hotRowHalve d) fun t =>
      (t.die d).gathers = (s.die d).gathers - 2 ^ 20 ∧ (∀ a n, (t.die d).hotCount a n = (s.die d).hotCount a n / 2) ∧
      ∀ r, r ∈ (t.die d).pinned ↔ r ∈ (s.die d).pinned ∧ (s.die d).threshold ≤ 2 * ((s.die d).hotCount r.1 r.2 / 2) := by
  let x : Die := { s.die d with gathers := (s.die d).gathers - 2 ^ 20, hot := halvedHot (s.die d).hot }
  have hcount (a n : Nat) : x.hotCount a n = (s.die d).hotCount a n / 2 := find_halvedHot hn _
  refine ⟨s.setDie d x.release, by simp only [exec_hotRowHalve, execHotRowHalve, if_neg (Nat.not_lt.mpr hg)]; rfl, ?_⟩
  have hdie : (s.setDie d x.release).die d = x.release := by simp [State.setDie, State.die, Vector.getD, hd]
  beta_reduce
  rw [hdie]
  refine ⟨rfl, hcount, fun r => ?_⟩
  simp only [Die.release, List.mem_filter, hcount, Bool.not_eq_true', decide_eq_false_iff_not, Nat.not_lt]
  rfl

/-! ## Pending writes -/

section
variable {s : State} {c : Nat}

theorem firstPend_some {l : List PendWrite} {p : PendWrite} (h : firstPend l = some p) : p ∈ l := by
  induction l generalizing p with
  | nil => simp [firstPend] at h
  | cons q l ih =>
    unfold firstPend at h
    split at h
    · simp_all
    · split at h <;> simp_all

/-- The first of pending writes lands first when none lands earlier. -/
theorem firstPend_cons {p : PendWrite} {l : List PendWrite} (h : ∀ q ∈ l, p.land ≤ q.land) : firstPend (p :: l) = some p := by
  unfold firstPend
  split
  · rfl
  · next r hr => rw [if_neg (Nat.not_lt.mpr (h r (firstPend_some hr)))]

theorem Core.land_ctx (k : Core) (p : PendWrite) :
    (k.land p).ctx = { k.ctx with fpc := k.ctx.fpc ||| (p.flags.setWidth 64 <<< 4) } := rfl

theorem Core.land_sys (k : Core) (p : PendWrite) : (k.land p).sys = k.sys := rfl

theorem Core.land_pad (k : Core) (p : PendWrite) : (k.land p).pad = k.pad.writeAll p.bytes := rfl

theorem Core.land_pend (k : Core) (p : PendWrite) : (k.land p).pend = k.pend.erase p := rfl

/-- The statement of `StorageEvents` about a pending write whose slot has come (R179). -/
theorem pendingWriteLand_yields (hc : c < 768) (hcan : s.canonical = true) {p : PendWrite} {rest : List PendWrite}
    (hp : (s.at c).pend = p :: rest) (hfirst : ∀ q ∈ rest, p.land ≤ q.land) (hready : p.ready = true)
    (hdue : p.land ≤ (s.at c).sys.slots.toNat) (hnow : s.landsNow c p = true) :
    Yields s (.pendingWriteLand c) fun t => Claims.Only s t c ∧ t.mem = s.mem ∧ (t.at c).pend = rest ∧
      Claims.laid p.bytes (s.at c).pad (t.at c).pad ∧
      (t.at c).ctx = { (s.at c).ctx with fpc := (s.at c).ctx.fpc ||| (p.flags.setWidth 64 <<< 4) } ∧ (t.at c).sys = (s.at c).sys := by
  have due : (s.at c).dueWrite = some p := by simp [Core.dueWrite, hp, firstPend_cons hfirst, hready, hdue]
  have hpad : (s.at c).pad.wf = true := ((State.canonical_iff s).mp hcan).at c
  refine ⟨s.on c (·.land p), by simp only [exec_pendingWriteLand, execPendingWriteLand, due, if_pos hnow], ?_⟩
  beta_reduce
  rw [State.on_at s hc]
  refine ⟨fun i hi => State.on_at_ne s (Ne.symm hi) _, rfl, ?_, fun x => ?_, Core.land_ctx _ p, Core.land_sys _ p⟩
  · simp [Core.land_pend, hp]
  · rw [Core.land_pad]
    exact Mem.get_writeAll p.bytes x hpad

/-- The statement of `StorageEvents` about pending writes whose slots have not come (R179). -/
theorem pendingWriteLand_waits (h : ∀ q ∈ (s.at c).pend, (s.at c).sys.slots.toNat < q.land) : exec (.pendingWriteLand c) s = .next s := by
  have notDue : (s.at c).dueWrite = none := by
    unfold Core.dueWrite
    split
    · next p hp =>
      have := h p (firstPend_some hp)
      simp [Nat.not_le.mpr this]
    · rfl
  simp only [exec_pendingWriteLand, execPendingWriteLand, notDue]

end

end Sys2Proof.Machine
end

section
/-! PROOFS. Write-backs of a core whose launch is not journalled (R90, R328), and the messages of a home. -/

namespace Sys2Proof.Machine

open Claims (Unjournalled Only)

/-! ## Writes at the home -/

theorem State.tellAs_at (s : State) (seq : Option Word) (pa : Nat) (b : Payload) (i : Nat) : (s.tellAs seq pa b).at i = s.at i := by
  unfold State.tellAs
  split
  · rfl
  · cases b <;> cases seq <;> rfl

theorem State.tellAs_mem (s : State) (seq : Option Word) (pa : Nat) (b : Payload) : (s.tellAs seq pa b).mem = s.mem := by
  unfold State.tellAs
  split
  · rfl
  · cases b <;> cases seq <;> rfl

theorem State.tellAs_launches (s : State) (seq : Option Word) (pa : Nat) (b : Payload) : (s.tellAs seq pa b).launches = s.launches := by
  unfold State.tellAs
  split
  · rfl
  · cases b <;> cases seq <;> rfl

/-- What is left of a state once write-backs `w` of core `c` have reached their home: memory takes their bytes, the core keeps all but its
memory queue, of which requests may be gone, and no other core changes. -/
structure State.Wrote (c : Nat) (s t : State) (w : Wbs) : Prop where
  others : Only s t c
  core : t.at c = { s.at c with memq := (t.at c).memq }
  queue : (t.at c).memq.Sublist (s.at c).memq
  mem : t.mem = s.mem.putAll w
  plain : Unjournalled t c

theorem State.Wrote.refl {c : Nat} {s : State} (h : Unjournalled s c) : State.Wrote c s s [] :=
  ⟨fun _ _ => rfl, rfl, List.Sublist.refl _, rfl, h⟩

theorem journal_plain {s : State} {q : Word} {gs : List Nat} (h : ∀ l, s.launch q = some l → l.journaled = false) : s.journal q gs = s := by
  unfold State.journal
  split
  · rfl
  · next l hl => simp [h l hl]

theorem launch_updLaunch {s : State} {q : Word} {f : Launch → Launch} (hf : ∀ l, (f l).record = l.record) (r : Word) :
    (s.updLaunch q f).launch r = (s.launch r).map fun l => if l.record.seq == q then f l else l := by
  rw [State.launch, State.launch, State.updLaunch, List.find?_map]
  congr 1
  refine congrArg (List.find? · s.launches) (funext fun l => ?_)
  simp only [Function.comp_apply]
  split
  · rw [hf]
  · rfl

/-- Whether a core's launch keeps no journal, by its launch and the launches alone. -/
theorem unjournalled_iff (s : State) (c : Nat) :
    Unjournalled s c ↔ ∀ q, (s.at c).launch = some q → ∀ l, s.launch q = some l → l.journaled = false := by
  unfold Unjournalled State.launchOf
  cases (s.at c).launch with
  | none => simp
  | some q => simp

/-- A state once the launch of a core, if it has one, has noted the bytes that the core is about to change (R323, R328). -/
def State.notedAt (s : State) (c : Nat) (undo : Bool) (pa n : Nat) : State :=
  match (s.at c).launch with
  | none => s
  | some q => s.noted q c undo pa n

/-- Putting bytes at their home notes them first; of cores and launches it changes nothing more. -/
theorem setBytes_notedAt (s : State) (c : Nat) (undo : Bool) (pa : Nat) (bs : List Byte) :
    (s.setBytes (some c) undo pa bs).cores = (s.notedAt c undo pa bs.length).cores ∧
    (s.setBytes (some c) undo pa bs).launches = (s.notedAt c undo pa bs.length).launches ∧
    (s.setBytes (some c) undo pa bs).mem = (s.notedAt c undo pa bs.length).mem.write pa bs := ⟨rfl, rfl, rfl⟩

theorem noted_plain {s : State} {q : Word} (h : ∀ l, s.launch q = some l → l.journaled = false) (i : Nat) (undo : Bool) (pa n : Nat) :
    s.noted q i undo pa n = if undo then s.updLaunch q fun l =>
      { l with squads := l.squads.map fun q => if q.cores.contains i then q.undo1 s.mem (granulesOf pa n) else q } else s := by
  unfold State.noted
  dsimp only
  rw [journal_plain h]

/-- Notes for a launch that keeps no journal. -/
theorem notedAt_plain {s : State} {c : Nat} (h : Unjournalled s c) (undo : Bool) (pa n : Nat) :
    (s.notedAt c undo pa n).cores = s.cores ∧ (s.notedAt c undo pa n).mem = s.mem ∧ Unjournalled (s.notedAt c undo pa n) c := by
  unfold State.notedAt
  split
  · exact ⟨rfl, rfl, h⟩
  · next q hq =>
    have hall := (unjournalled_iff s c).mp h
    rw [noted_plain (hall q hq)]
    split
    · refine ⟨rfl, rfl, (unjournalled_iff _ c).mpr fun r hr l hl => ?_⟩
      rw [launch_updLaunch (hf := ?_), Option.map_eq_some_iff] at hl
      · obtain ⟨l', hl', rfl⟩ := hl
        rw [← hall r hr l' hl']
        split <;> rfl
      · exact fun _ => rfl
    · exact ⟨rfl, rfl, h⟩

theorem unjournalled_congr {s t : State} {c : Nat} (hc : t.at c = s.at c) (hl : t.launches = s.launches) (h : Unjournalled s c) :
    Unjournalled t c := by
  rw [unjournalled_iff] at h ⊢
  rw [hc]
  unfold State.launch at h ⊢
  rwa [hl]

/-- Bytes put at their home by a core whose launch keeps no journal. -/
theorem setBytes_plain {s : State} {c : Nat} (h : Unjournalled s c) (undo : Bool) (pa : Nat) (bs : List Byte) :
    (∀ i, (s.setBytes (some c) undo pa bs).at i = s.at i) ∧ (s.setBytes (some c) undo pa bs).mem = s.mem.write pa bs ∧
      Unjournalled (s.setBytes (some c) undo pa bs) c := by
  obtain ⟨hcores, hlaunches, hmem⟩ := setBytes_notedAt s c undo pa bs
  obtain ⟨hnc, hnm, hnj⟩ := notedAt_plain h undo pa bs.length
  refine ⟨fun i => by simp only [State.at, hcores, hnc], by rw [hmem, hnm], unjournalled_congr ?_ hlaunches hnj⟩
  simp only [State.at, hcores]

section
variable {c : Nat} {s t : State} {w : Wbs} (h : State.Wrote c s t w)
include h

theorem State.Wrote.homeWrite (undo : Bool) (pa : Nat) (bs : List Byte) :
    State.Wrote c s (t.homeWrite (some c) undo pa bs) (w ++ [(pa, bs)]) := by
  obtain ⟨hat, hmem, hplain⟩ := setBytes_plain h.plain undo pa bs
  have told_at (i : Nat) : (t.homeWrite (some c) undo pa bs).at i = t.at i := (State.tellAs_at _ _ _ _ i).trans (hat i)
  have told_mem : (t.homeWrite (some c) undo pa bs).mem = t.mem.write pa bs := (State.tellAs_mem _ _ _ _).trans hmem
  refine ⟨fun i hi => (told_at i).trans (h.others i hi), by rw [told_at]; exact h.core, by rw [told_at]; exact h.queue, ?_, ?_⟩
  · rw [told_mem, h.mem, Mem.putAll, Mem.putAll, List.foldl_append]
    rfl
  · exact unjournalled_congr (State.tellAs_at _ _ _ _ c) (State.tellAs_launches _ _ _ _) hplain

theorem State.Wrote.onQ (hc : c < 768) {f : Core → Core} (hf : ∀ k, f k = { k with memq := (f k).memq })
    (hs : (f (t.at c)).memq.Sublist (t.at c).memq) : State.Wrote c s (t.on c f) w := by
  have hcore : (t.on c f).at c = f (t.at c) := State.on_at t hc f
  refine ⟨fun i hi => (State.on_at_ne t (Ne.symm hi) f).trans (h.others i hi), ?_, ?_, h.mem, ?_⟩
  · rw [hcore, hf, h.core]
  · rw [hcore]; exact hs.trans h.queue
  · have hplain := (unjournalled_iff t c).mp h.plain
    refine (unjournalled_iff _ c).mpr fun q hq => hplain q ?_
    rwa [hcore, hf] at hq

/-- Outstanding write-backs that satisfy a condition reach their home; there are none in an empty queue. -/
theorem State.Wrote.drainWb (hc : c < 768) (p : MemReq → Bool) :
    ∃ w', State.Wrote c s (t.drainWb p c) w' ∧ ((t.at c).memq = [] → w' = w) := by
  have left := h.onQ hc (f := fun k => { k with memq := (t.at c).memq.filter (!p ·) }) (fun _ => rfl) List.filter_sublist
  by_cases hq : (t.at c).memq = []
  · refine ⟨w, ?_, fun _ => rfl⟩
    unfold State.drainWb
    rw [hq] at left ⊢
    exact left
  · have drained : ∃ w', State.Wrote c s (t.drainWb p c) w' := by
      refine List.foldlRecOn (motive := fun t => ∃ w', State.Wrote c s t w') _ _ ⟨w, left⟩ fun u ⟨w', hu⟩ r _ => ?_
      cases r with
      | wback a bs => exact ⟨_, hu.homeWrite true a bs⟩
      | _ => exact ⟨w', hu⟩
    exact drained.imp fun _ hw => ⟨hw, fun hn => absurd hn hq⟩

/-- Write-backs are performed, older ones of the same bytes first. -/
theorem State.Wrote.applyWbs (hc : c < 768) (wb : Wbs) :
    ∃ w', State.Wrote c s (t.applyWbs c wb) w' ∧ ((t.at c).memq = [] → w' = w ++ wb) := by
  induction wb generalizing t w with
  | nil => exact ⟨w, h, fun _ => (List.append_nil w).symm⟩
  | cons b wb ih =>
    obtain ⟨w1, hw1, hq1⟩ := h.drainWb hc (·.wbackIn b.1 b.2.length)
    have step := hw1.homeWrite true b.1 b.2
    obtain ⟨w2, hw2, hq2⟩ := ih step
    refine ⟨w2, hw2, fun hq => ?_⟩
    have hrefl := State.Wrote.refl h.plain
    obtain ⟨w0, hw0, -⟩ := hrefl.drainWb hc (·.wbackIn b.1 b.2.length)
    have empty : (((t.drainWb (·.wbackIn b.1 b.2.length) c).homeWrite (some c) true b.1 b.2).at c).memq = [] := by
      have := (hw0.homeWrite true b.1 b.2).queue
      rwa [hq, List.sublist_nil] at this
    rw [hq2 empty, hq1 hq, List.append_assoc]
    rfl

end

/-! ## The messages of a home -/

/-- An L1 operation of a core whose launch keeps no journal. -/
theorem onL1_wrote {s : State} {c : Nat} (hc : c < 768) (h : Unjournalled s c) (f : L1Env → List L1Entry → List L1Entry × Wbs) :
    ∃ w, State.Wrote c (s.on c fun k => { k with l1 := (f (s.l1Env c) (s.at c).l1).1 }) (s.onL1 c f) w ∧
      ((s.at c).memq = [] → w = (f (s.l1Env c) (s.at c).l1).2) := by
  have plain : Unjournalled (s.on c fun k => { k with l1 := (f (s.l1Env c) (s.at c).l1).1 }) c := by
    rw [unjournalled_iff] at h ⊢
    rw [State.on_at s hc]
    exact h
  obtain ⟨w, hw, hq⟩ := (State.Wrote.refl plain).applyWbs hc (f (s.l1Env c) (s.at c).l1).2
  refine ⟨w, hw, fun hn => ?_⟩
  rw [hq (by rw [State.on_at s hc]; exact hn)]
  rfl

/-- A core takes a message of a home: it performs the outstanding write-backs of the extent, then an operation on its L1. -/
def State.taken (s : State) (c pa n : Nat) (f : L1Env → List L1Entry → List L1Entry × Wbs) : State :=
  (s.drainWb (·.wbackIn pa n) c).onL1 c f

section
variable {s : State} {c : Nat} (hc : c < 768) {pa n : Nat} {f : L1Env → List L1Entry → List L1Entry × Wbs}
include hc

/-- What the operation makes of every L1 is there afterwards. -/
theorem taken_all {P : L1Entry → Prop} (hP : Hereditary P) (hf : ∀ v es, ∀ e ∈ (f v es).1, P e) : ∀ e ∈ ((s.taken c pa n f).at c).l1, P e := by
  refine ((State.Tame.refl _).applyWbs).keeps c P hP ?_
  rw [State.on_at _ hc]
  exact hf _ _

theorem taken_only (h : Unjournalled s c) : Only s (s.taken c pa n f) c := by
  obtain ⟨_, hd, -⟩ := (State.Wrote.refl h).drainWb hc (·.wbackIn pa n)
  obtain ⟨_, hw, -⟩ := onL1_wrote hc hd.plain f
  intro i hi
  exact (hw.others i hi).trans ((State.on_at_ne _ (Ne.symm hi) _).trans (hd.others i hi))

/-- With no outstanding write-back memory takes what the operation writes back. -/
theorem taken_mem (h : Unjournalled s c) (hq : (s.at c).memq = []) : ∃ v, (s.taken c pa n f).mem = s.mem.putAll (f v (s.at c).l1).2 := by
  obtain ⟨_, hd, hd0⟩ := (State.Wrote.refl h).drainWb hc (·.wbackIn pa n)
  obtain ⟨_, hw, hw0⟩ := onL1_wrote hc hd.plain f
  obtain rfl := hd0 hq
  have hq' : ((s.drainWb (·.wbackIn pa n) c).at c).memq = [] := by
    have := hd.queue
    rwa [hq, List.sublist_nil] at this
  have hl1 : ((s.drainWb (·.wbackIn pa n) c).at c).l1 = (s.at c).l1 := by rw [hd.core]
  refine ⟨(s.drainWb (·.wbackIn pa n) c).l1Env c, hw.mem.trans ?_⟩
  rw [hw0 hq', hl1, show (State.on _ c _).mem = (s.drainWb (·.wbackIn pa n) c).mem from rfl, hd.mem]
  rfl

end

theorem entriesMeeting_of_met {c : Core} {pa n : Nat} {Q : L1State → Bool → Prop} {p : L1Entry → Prop}
    (h : ∀ e ∈ c.l1, Met pa n Q e) (hp : ∀ e, Q e.st e.pin → p e) : Claims.entriesMeeting c pa n p := fun e he h1 h2 =>
  hp e (h e he ((L1Entry.meets_iff e pa n).mpr ⟨h1, h2⟩))

/-- An Invalidate is a message taken, but for the pins that are to come back. -/
theorem exec_invalidate (s : State) {c : Nat} (hc : c < 768) (pa n : Nat) : ∃ t, exec (.invalidate c pa n) s = .next t ∧
    Only (s.taken c pa n fun v es => invalidateL1 v pa n es) t c ∧
    (t.at c).l1 = ((s.taken c pa n fun v es => invalidateL1 v pa n es).at c).l1 ∧
    t.mem = (s.taken c pa n fun v es => invalidateL1 v pa n es).mem := by
  refine ⟨_, rfl, fun i hi => ?_, ?_, rfl⟩
  · exact State.on_at_ne _ (Ne.symm hi) _
  · rw [State.invalidateAt, State.on_at _ hc]
    rfl

/-- The statement of `StorageEvents` about Invalidates and Downgrades (R90). -/
theorem homeMessages_yield {s : State} {c : Nat} (hc : c < 768) (hcan : s.canonical = true) {pa n : Nat} (hn : 0 < n) :
    (Yields s (.invalidate c pa n) fun t => (Unjournalled s c → Only s t c) ∧ Claims.entriesMeeting (t.at c) pa n fun _ => False) ∧
    (Yields s (.downgrade c pa n) fun t => (Unjournalled s c → Only s t c) ∧ Claims.entriesMeeting (t.at c) pa n fun e => e.st = .s) ∧
    ∀ e, (s.at c).l1 = [e] → (s.at c).memq = [] → Unjournalled s c → e.dstart + e.dlen ≤ e.data.length → (e.st = .s → e.dlen = 0) →
      (Yields s (.invalidate c pa n) fun t => ∀ a, pa ≤ a → a < pa + n → t.mem.get a = Claims.flushed s e a) ∧
      Yields s (.downgrade c pa n) fun t => ∀ a, pa ≤ a → a < pa + n → t.mem.get a = Claims.flushed s e a := by
  have hwf : s.mem.wf = true := ((State.canonical_iff s).mp hcan).mem_wf
  obtain ⟨t, hexec, honly, hl1, hmem⟩ := exec_invalidate s hc pa n
  refine ⟨⟨t, hexec, fun h i hi => (honly i hi).trans (taken_only hc h i hi), ?_⟩, ⟨_, rfl, taken_only hc, ?_⟩, ?_⟩
  · have cleared := taken_all (s := s) (pa := pa) (n := n) hc (Met.hereditary (pa := pa) hn fun _ _ h => h)
      (fun v es => invalidateL1_clears (v := v) (es := es) hn)
    rw [← hl1] at cleared
    exact entriesMeeting_of_met cleared fun _ h => h
  · have shared := taken_all (s := s) (pa := pa) (n := n) hc (Met.hereditary (pa := pa) hn fun _ _ _ => rfl)
      (fun v es => downgradeL1_shares (v := v) (es := es) hn)
    exact entriesMeeting_of_met shared fun _ h => h
  · intro e he hq hj hspan hclean
    obtain ⟨v, hv⟩ := taken_mem (pa := pa) (n := n) (f := fun v es => invalidateL1 v pa n es) hc hj hq
    obtain ⟨v', hv'⟩ := taken_mem (pa := pa) (n := n) (f := fun v es => downgradeL1 v pa n es) hc hj hq
    refine ⟨⟨t, hexec, fun a h1 h2 => ?_⟩, ⟨_, rfl, fun a h1 h2 => ?_⟩⟩
    · rw [hmem, hv, he]
      exact invalidateL1_flushes hwf hspan h1 h2
    · refine (congrArg (Mem.get · a) hv').trans ?_
      rw [he]
      exact downgradeL1_flushes hwf hspan h1 h2 hclean

/-! ## Write-backs of the memory queue -/

/-- Bytes stored from an address up are stored at the addresses that they carry. -/
theorem Mem.write_eq_writeAll (m : Mem) (a : Nat) (bs : List Byte) : m.write a bs = m.writeAll (Claims.rowAt a bs) := by
  have rowAt_cons (a : Nat) (b : Byte) (bs : List Byte) : Claims.rowAt a (b :: bs) = (a, b) :: Claims.rowAt (a + 1) bs := by
    simp only [Claims.rowAt, List.length_cons, List.range_succ_eq_map, List.map_cons, List.map_map]
    refine congrArg₂ _ (by simp) (List.map_congr_left fun k _ => ?_)
    simp [Nat.add_comm, Nat.add_left_comm]
  induction bs generalizing m a with
  | nil => rfl
  | cons b bs ih => rw [rowAt_cons, Mem.write, Mem.writeAll, ih]

/-- The statement of `StorageEvents` about a write-back (R87). -/
theorem writeBackComplete_yields {s : State} {c : Nat} (hc : c < 768) (hcan : s.canonical = true) {k pa : Nat} {bs : List Byte}
    (hk : (s.at c).memq[k]? = some (.wback pa bs)) (hb : (s.at c).wbackBefore k pa bs.length = false) (hj : Unjournalled s c) :
    Yields s (.writeBackComplete c k) fun t => Only s t c ∧ (t.at c).memq = (s.at c).memq.eraseIdx k ∧ (t.at c).l1 = (s.at c).l1 ∧
      Claims.laid (Claims.rowAt pa bs) s.mem t.mem := by
  have hwf : s.mem.wf = true := ((State.canonical_iff s).mp hcan).mem_wf
  have dropped : State.Wrote c s (s.on c (Core.dropReq k)) [] :=
    (State.Wrote.refl hj).onQ hc (fun _ => rfl) (List.eraseIdx_sublist _ _)
  obtain ⟨hat, hmem, -⟩ := setBytes_plain dropped.plain true pa bs
  have told := dropped.homeWrite true pa bs
  refine ⟨(s.on c (Core.dropReq k)).homeWrite (some c) true pa bs, by simp [exec_writeBackComplete, execWriteBackComplete, hk, hb], told.others, ?_, ?_, ?_⟩
  · rw [State.homeWrite, State.tellHome, State.tellAs_at, hat, State.on_at s hc]
    rfl
  · rw [told.core]
  · intro x
    rw [told.mem, ← Mem.get_writeAll _ _ hwf, ← Mem.write_eq_writeAll]
    rfl

end Sys2Proof.Machine
end

section
/-! PROOFS. Extents that the home serves at once (R88, R90): what a withdrawal, a downgrade and a fill of them are. -/

namespace Sys2Proof.Machine

open Claims (Ours Alone Quiet Only)

/-! ## Extents that nothing else holds -/

theorem wbackers_eq_nil {pa n k : Nat} {cs : List Core} (h : wbackers pa n k cs = []) : ∀ c ∈ cs, c.memq.any (·.wbackIn pa n) = false := by
  induction cs generalizing k with
  | nil => simp
  | cons c cs ih =>
    unfold wbackers at h
    split at h
    · simp at h
    · next hc => exact List.forall_mem_cons.mpr ⟨by simpa using hc, ih h⟩

theorem wbackers_nil_of {pa n k : Nat} {cs : List Core} (h : ∀ c ∈ cs, c.memq.any (·.wbackIn pa n) = false) : wbackers pa n k cs = [] := by
  induction cs generalizing k with
  | nil => rfl
  | cons c cs ih =>
    obtain ⟨hc, hcs⟩ := List.forall_mem_cons.mp h
    rw [wbackers, hc, ih hcs]
    rfl

theorem mem_sharersFrom {pa n k i : Nat} {cs : List Core} :
    i ∈ sharersFrom pa n k cs ↔ ∃ c, k ≤ i ∧ cs[i - k]? = some c ∧ c.l1.any (·.meets pa n) = true := by
  induction cs generalizing k with
  | nil => simp [sharersFrom]
  | cons c cs ih =>
    have rest : i ∈ sharersFrom pa n (k + 1) cs ↔ ∃ d, k + 1 ≤ i ∧ (c :: cs)[i - k]? = some d ∧ d.l1.any (·.meets pa n) = true := by
      rw [ih]
      refine exists_congr fun d => and_congr_right fun hi => ?_
      rw [show i - k = i - (k + 1) + 1 by omega, List.getElem?_cons_succ]
    unfold sharersFrom
    by_cases hik : i = k
    · subst hik
      have hnot : i ∉ sharersFrom pa n (i + 1) cs := fun hm => by obtain ⟨_, h, -⟩ := ih.mp hm; omega
      split <;> simp_all
    · have hk : (∃ d, k ≤ i ∧ (c :: cs)[i - k]? = some d ∧ d.l1.any (·.meets pa n) = true) ↔
          ∃ d, k + 1 ≤ i ∧ (c :: cs)[i - k]? = some d ∧ d.l1.any (·.meets pa n) = true := by
        refine exists_congr fun d => and_congr_left fun _ => ?_
        omega
      rw [hk, ← rest]
      split <;> simp [hik]

theorem State.mem_sharers {s : State} {pa n i : Nat} (hi : i < 768) : i ∈ s.sharers pa n ↔ (s.at i).l1.any (·.meets pa n) = true := by
  rw [State.sharers, mem_sharersFrom, State.at_eq s hi]
  simp [hi]

theorem State.sharers_lt {s : State} {pa n i : Nat} (h : i ∈ s.sharers pa n) : i < 768 := by
  obtain ⟨c, -, hc, -⟩ := mem_sharersFrom.mp h
  by_contra hn
  simp [hn] at hc

/-- An extent has its home on the device; no other device, no L1 but that of core `c`, and no write-back holds a byte of it. -/
structure Lone (s : State) (c pa n : Nat) : Prop where
  ours : Ours s pa n
  queues : ∀ i < 768, (s.at i).memq.any (·.wbackIn pa n) = false
  copies : ∀ i < 768, i ≠ c → (s.at i).l1.any (·.meets pa n) = false

theorem Lone.of_parts {s : State} {c pa n : Nat} (ho : Ours s pa n) (hw : wbackers pa n 0 s.cores.toList = [])
    (hs : ∀ i ∈ s.sharers pa n, i = c) : Lone s c pa n where
  ours := ho
  queues i hi := wbackers_eq_nil hw _ (by rw [State.at_eq s hi]; exact Vector.mem_toList_iff.mpr (Vector.getElem_mem _))
  copies i hi hc := by
    by_contra hn
    exact hc (hs i ((State.mem_sharers hi).mpr (by simpa using hn)))

theorem Lone.of_alone {s : State} {pa n : Nat} (h : Alone s pa n) (c : Nat) : Lone s c pa n :=
  .of_parts h.1 h.2.2 (by simp [h.2.1])

section
variable {s : State} {c pa n : Nat} (h : Lone s c pa n)
include h

/-- A state with the same entries in the other L1s and no more write-backs. -/
theorem Lone.congr {t : State} (hr : t.remotes = s.remotes) (hd : t.devidx = s.devidx)
    (hc : ∀ i, (i ≠ c → (t.at i).l1 = (s.at i).l1) ∧ (t.at i).memq ⊆ (s.at i).memq) : Lone t c pa n where
  ours := by
    obtain ⟨h1, h2⟩ := h.ours
    exact ⟨by rw [← h1, State.isRemote, State.isRemote, hd], by rw [← h2, State.knownElsewhere, State.knownElsewhere, hr]⟩
  queues i hi := by
    have hq := h.queues i hi
    simp only [List.any_eq_false] at hq ⊢
    exact fun r hr => hq r ((hc i).2 hr)
  copies i hi hic := by rw [(hc i).1 hic]; exact h.copies i hi hic

theorem Lone.knownElsewhere {r : Remote} (hr : r ∈ s.remotes) : r.meets pa n = false := by
  have := h.ours.2
  simp only [State.knownElsewhere, List.any_eq_false] at this
  simpa using this r hr

theorem Lone.comes (excl : Bool) : s.comes c excl pa n = none := by
  have held : s.heldElsewhere pa n = false := by
    simp only [State.heldElsewhere, List.any_eq_false]
    intro r hr
    simp [h.knownElsewhere hr]
  simp [State.comes, h.ours.1, held]

theorem Lone.settleWb : s.settleWb pa n = s := by
  have none : wbackers pa n 0 s.cores.toList = [] := wbackers_nil_of fun d hd => by
    obtain ⟨i, hi, rfl⟩ := Vector.mem_iff_getElem.mp (Vector.mem_toList_iff.mp hd)
    rw [← State.at_eq s hi]
    exact h.queues i hi
  rw [State.settleWb, none]
  rfl

theorem Lone.askOthers : s.askOthers pa n = s := by
  have none : (s.remotes.filter fun r => r.meets pa n && !r.asked) = [] :=
    List.filter_eq_nil_iff.mpr fun r hr => by simp [h.knownElsewhere hr]
  have same : s.remotes.map (fun r => if r.meets pa n then { r with asked := true } else r) = s.remotes :=
    (List.map_congr_left fun r hr => by simp [h.knownElsewhere hr]).trans (List.map_id' _)
  simp only [State.askOthers, none, List.foldl_nil, same]

theorem Lone.others : ((s.sharers pa n).filter fun i => some c != some i) = [] :=
  List.filter_eq_nil_iff.mpr fun i hi hne => by
    have hlt := State.sharers_lt hi
    have := h.copies i hlt (by rintro rfl; simp at hne)
    exact absurd ((State.mem_sharers hlt).mp hi) (by simp [this])

/-- Nothing is withdrawn from others. -/
theorem Lone.withdraw : s.withdraw (some c) pa n = s := by
  rw [State.withdraw, h.settleWb, h.askOthers, h.others]
  rfl

/-- Nothing is downgraded at others. -/
theorem Lone.downgrade : s.downgrade (some c) pa n = s := by
  rw [State.downgrade, h.settleWb, h.others]
  rfl

end

/-! ## Parts of an extent -/

theorem gaps_within {es : List L1Entry} {pa n : Nat} : ∀ g ∈ gaps es pa n, pa ≤ g.1 ∧ 0 < g.2 ∧ g.1 + g.2 ≤ pa + n := by
  induction n generalizing pa with
  | zero => simp [gaps]
  | succ n ih =>
    have ih := @ih (pa + 1)
    have widen : ∀ g ∈ gaps es (pa + 1) n, pa ≤ g.1 ∧ 0 < g.2 ∧ g.1 + g.2 ≤ pa + (n + 1) := fun g hg => by
      have := ih g hg
      omega
    unfold gaps
    dsimp only
    split
    · exact widen
    · split
      · next a k more hr =>
        rw [hr, List.forall_mem_cons] at widen
        have hhead := ih (a, k) (by rw [hr]; exact List.mem_cons_self)
        split
        · next hak =>
          subst hak
          exact List.forall_mem_cons.mpr ⟨by simp only at hhead ⊢; omega, widen.2⟩
        · refine List.forall_mem_cons.mpr ⟨by simp only; omega, ?_⟩
          rw [hr]
          exact List.forall_mem_cons.mpr widen
      · simp

/-- Of an extent that no entry covers every byte is missing. -/
theorem gaps_nil {pa n : Nat} (hn : n ≠ 0) : gaps [] pa n = [(pa, n)] := by
  induction n generalizing pa with
  | zero => exact absurd rfl hn
  | succ n ih =>
    unfold gaps
    cases n with
    | zero => simp [gaps]
    | succ n => simp [ih]

/-- A part of an extent that lies in one zone has bytes and stays inside. -/
structure Inside (g z : Nat × Nat) : Prop where
  above : z.1 ≤ g.1
  bytes : 0 < g.2
  below : g.1 + g.2 ≤ z.1 + z.2
  zone : z.1 % 4096 + z.2 ≤ 4096

section
variable {g z : Nat × Nat} (hg : Inside g z) {s : State}
include hg

theorem Inside.page (k : Nat) (hk : 12 ≤ k) : g.1 / 2 ^ k = z.1 / 2 ^ k := by
  obtain ⟨ha, hs, hb, hz⟩ := hg
  have h12 : g.1 / 4096 = z.1 / 4096 := by omega
  have hpow : 2 ^ k = 4096 * 2 ^ (k - 12) := by
    rw [show (4096 : Nat) = 2 ^ 12 from rfl, ← Nat.pow_add]
    congr 1
    omega
  rw [hpow, ← Nat.div_div_eq_div_mul, ← Nat.div_div_eq_div_mul, h12]

theorem Inside.overlap {a n : Nat} (h : overlap a n z.1 z.2 = false) : overlap a n g.1 g.2 = false := by
  obtain ⟨ha, hs, hb, hz⟩ := hg
  simp only [Sys2Proof.overlap, Bool.and_eq_false_iff, decide_eq_false_iff_not] at h ⊢
  omega

theorem Inside.ours (h : Ours s z.1 z.2) : Ours s g.1 g.2 := by
  obtain ⟨h1, h2⟩ := h
  refine ⟨?_, ?_⟩
  · rw [← h1, State.isRemote, State.isRemote, hg.page 52 (by decide), hg.page 41 (by decide)]
  · simp only [State.knownElsewhere, List.any_eq_false, Bool.not_eq_true] at h2 ⊢
    exact fun r hr => hg.overlap (h2 r hr)

theorem Inside.poisoned (h : s.poisoned z.1 z.2 = none) : s.poisoned g.1 g.2 = none := by
  obtain ⟨ha, hs, hb, hz⟩ := hg
  rw [State.poisoned, List.find?_eq_none] at h ⊢
  intro x hx
  refine h x ?_
  rw [granulesOf, if_neg (by omega), List.mem_map] at hx ⊢
  obtain ⟨i, hi, rfl⟩ := hx
  rw [List.mem_range] at hi
  exact ⟨g.1 / 16 + i - z.1 / 16, by rw [List.mem_range]; omega, by congr 1; omega⟩

theorem Inside.lone {c : Nat} (h : Lone s c z.1 z.2) : Lone s c g.1 g.2 where
  ours := hg.ours h.ours
  queues i hi := by
    obtain ⟨ha, hs, hb, hz⟩ := hg
    have hq := h.queues i hi
    simp only [List.any_eq_false, Bool.not_eq_true] at hq ⊢
    intro r hr
    have := hq r hr
    cases r with
    | wback a bs =>
      simp only [MemReq.wbackIn, Bool.and_eq_false_iff, decide_eq_false_iff_not] at this ⊢
      omega
    | _ => rfl
  copies i hi hic := by
    obtain ⟨ha, hs, hb, hz⟩ := hg
    have hl := h.copies i hi hic
    simp only [List.any_eq_false, L1Entry.meets_iff] at hl ⊢
    exact fun e he => by have := hl e he; omega

end

theorem gaps_inside {es : List L1Entry} {z : Nat × Nat} (hz : z.1 % 4096 + z.2 ≤ 4096) : ∀ g ∈ gaps es z.1 z.2, Inside g z := fun g hg =>
  have ⟨h1, h2, h3⟩ := gaps_within g hg
  ⟨h1, h2, h3, hz⟩

/-! ## Granules enter a core -/

/-- A granule that is not poisoned, that its home has and that no report is injected for enters at once. -/
theorem State.enters_served {s : State} {i pa n : Nat} {hint : BitVec 4} (hp : s.poisoned pa n = none) (hc : s.comes i false pa n = none)
    (hi : (s.at i).sys.inj.getLsbD 5 = false) : s.enters i pa n hint = .ok (s.l2Hold (some i) false pa n hint) := by
  have inj : bitAt ((s.l2Hold (some i) false pa n hint).at i).sys.inj.toNat 5 = false := by
    rw [bitAt, beq_eq_false_iff_ne, ne_eq, ← decide_eq_false_iff_not, ← Nat.testBit_eq_decide_div_mod_eq]
    exact hi
  simp only [State.enters, hp, hc, inj, Bool.not_false, if_true]

/-- Parts of an extent that nothing else holds enter a core, and only the L2s change. -/
theorem State.entersAll_lone {s : State} {c : Nat} {z : Nat × Nat} {gs : List (Nat × Nat)} (hgs : ∀ g ∈ gs, Inside g z)
    (hl : Lone s c z.1 z.2) (hp : s.poisoned z.1 z.2 = none) (hi : (s.at c).sys.inj.getLsbD 5 = false) :
    ∃ d, State.entersAll c gs s = .ok { s with dies := d } := by
  induction gs generalizing s with
  | nil => exact ⟨s.dies, rfl⟩
  | cons g gs ih =>
    obtain ⟨hg, hgs⟩ := List.forall_mem_cons.mp hgs
    have entered := State.enters_served (hint := 0) (hg.poisoned hp) ((hg.lone hl).comes false) hi
    obtain ⟨d, hd⟩ := ih (s := s.l2Hold (some c) false g.1 g.2 0) hgs
      (hl.congr rfl rfl fun _ => ⟨fun _ => rfl, List.Subset.refl _⟩) hp hi
    refine ⟨d, ?_⟩
    rw [State.entersAll, entered]
    exact hd

end Sys2Proof.Machine
end

section
/-! PROOFS. The first entry of an empty L1 (R10, R12, R88): a granted store and a fill. -/

namespace Sys2Proof.Machine

open Claims (Alone Only)

/-! ## One entry in an empty L1 -/

/-- In an empty L1 an entry without a way takes way 0. -/
theorem addEntry_empty {v : L1Env} {keep : L1Entry → Bool} {e : L1Entry} (hw : e.way = noWay)
    (hg : granCount e.start e.len ≤ l1Grans v.padKiB) : ∃ g, addEntry v keep e [] = some ([{ e with way := 0, grans := g }], []) := by
  have free : freeWay [] (l1Set e.start) = some 0 := rfl
  have room (k : L1Entry → Bool) : makeRoom (l1Grans v.padKiB) (granCount e.start e.len) k 0 [] = some ([], []) := by
    rw [makeRoom, if_pos (by simpa [usedGrans] using hg)]
  simp [addEntry, hw, free, room]

/-- A lone entry with bytes stays as it is. -/
theorem coalesce_single {e : L1Entry} (h : e.data ≠ []) (fuel : Nat) : coalesce fuel [e] = [e] := by
  have self : joinable e e = false := by
    by_contra hj
    obtain ⟨hstop, -⟩ := (joinable_iff e e).mp (by simpa using hj)
    have := List.length_pos_of_ne_nil h
    rw [L1Entry.stop] at hstop
    omega
  cases fuel with
  | zero => rfl
  | succ fuel => simp [coalesce, self]

/-- A store of owned bytes into an empty L1 makes one entry, dirty throughout (R12, R88). -/
theorem storeAll_empty {v : L1Env} {pa : Nat} {bs : List Byte} (hb : bs ≠ []) (hg : granCount pa bs.length ≤ l1Grans v.padKiB) :
    ∃ g, storeAll v pa bs [] = { es := [{ filled v v.cls v.stream .m (pa, bs) with dlen := bs.length, way := 0, grans := g }] } := by
  obtain ⟨g, hg⟩ := addEntry_empty (v := v) (keep := fun _ => false)
    (e := { filled v v.cls v.stream .m (pa, bs) with data := bs, st := .m, dstart := 0, dlen := bs.length }) rfl hg
  have whole : stretches [] bs.length pa bs = [(pa, bs)] := by
    obtain ⟨b, bs, rfl⟩ := List.exists_cons_of_ne_nil hb
    have all : ((List.range (bs.length + 1)).takeWhile fun _ => true) = List.range (bs.length + 1) := by
      rw [List.takeWhile_eq_self_iff]
      exact fun _ _ => rfl
    have last : stretches [] bs.length (pa + (bs.length + 1)) [] = [] := by cases bs <;> rfl
    simp [stretches, all, last]
  refine ⟨g, ?_⟩
  simp only [filled] at hg ⊢
  simp [storeAll, whole, touchL1, storeStretch, filled, hg]

theorem storeL1_empty {v : L1Env} {pa : Nat} {bs : List Byte} (hb : bs ≠ []) (hg : granCount pa bs.length ≤ l1Grans v.padKiB) :
    ∃ g, storeL1 v pa bs [] = ([{ filled v v.cls v.stream .m (pa, bs) with dlen := bs.length, way := 0, grans := g }], []) := by
  obtain ⟨g, hs⟩ := storeAll_empty hb hg
  exact ⟨g, by simp only [storeL1, hs, settle, List.flatMap_nil, List.append_nil]; rw [coalesce_single hb]⟩

/-- A fill of an empty L1 makes one clean entry (R10, R88). -/
theorem installL1_empty {v : L1Env} {cls : RClass} {stream : Bool} {st : L1State} {pa : Nat} {bs : List Byte} (hb : bs ≠ [])
    (hg : granCount pa bs.length ≤ l1Grans v.padKiB) :
    ∃ g, installL1 v cls stream st [(pa, bs)] [] = { es := [{ filled v cls stream st (pa, bs) with way := 0, grans := g }] } := by
  obtain ⟨g, hadd⟩ := addEntry_empty (v := v) (keep := fun _ => false) (e := filled v cls stream st (pa, bs)) rfl hg
  refine ⟨g, ?_⟩
  simp only [installL1, List.map_cons, List.map_nil, placeEach, hadd]
  rw [coalesce_single hb]
  rfl

/-- Taking ownership of an extent leaves a lone entry that is not in S. -/
theorem ownL1_owned {v : L1Env} {pa n : Nat} {e : L1Entry} (hb : e.data ≠ []) (he : e.st ≠ .s) : ownL1 v pa n [e] = ([e], []) := by
  have hit : (e.meets pa n && e.st == .s) = false := by simp [he]
  simp only [ownL1, eachEntry, settle, List.foldl_cons, List.foldl_nil, hit, Bool.false_and, Bool.false_eq_true, if_false]
  rw [coalesce_single hb]

/-- An L1 operation that writes nothing back changes the entries of the core alone. -/
theorem State.onL1q_of {s : State} {c : Nat} {f : L1Env → List L1Entry → List L1Entry × Wbs} {es : List L1Entry}
    (h : f (s.l1Env c) (s.at c).l1 = (es, [])) : s.onL1q c f = s.on c fun k => { k with l1 := es } := by
  simp only [State.onL1q, h, List.map_nil, List.append_nil]

/-! ## Granted stores -/

/-- The statement of `StorageEvents` about a granted store (R12, R88). -/
theorem ownershipGrant_yields {s : State} {c : Nat} (hc : c < 768) {k va pa : Nat} {bs : List Byte} {hint : BitVec 4}
    (hk : (s.at c).memq[k]? = some (.own va pa bs hint)) (hr : s.reachedBefore c k [(pa, bs.length)] = false) (hb : bs ≠ [])
    (hl : (s.at c).l1 = []) (hg : granCount pa bs.length ≤ l1Grans (s.at c).padKiB) (ha : Alone s pa bs.length) :
    Yields s (.ownershipGrant c k) fun t => Only s t c ∧ t.mem = s.mem ∧ (t.at c).memq = (s.at c).memq.eraseIdx k ∧
      ∃ e : L1Entry, (t.at c).l1 = [e] ∧ e.start = pa ∧ e.data = bs ∧ e.st = .m ∧ e.dstart = 0 ∧ e.dlen = bs.length ∧
        e.cls = hint.setWidth 2 ∧ e.pin = false := by
  have lone := Lone.of_alone ha c
  have hat : (s.on c (Core.dropReq k)).at c = Core.dropReq k (s.at c) := State.on_at s hc _
  have empty : ((s.on c (Core.dropReq k)).at c).l1 = [] := by rw [hat]; exact hl
  have room : granCount pa bs.length ≤ l1Grans ((s.on c (Core.dropReq k)).l1Env c).padKiB := by
    rw [show ((s.on c (Core.dropReq k)).l1Env c).padKiB = ((s.on c (Core.dropReq k)).at c).padKiB from rfl, hat]
    exact hg
  have goes : (s.on c (Core.dropReq k)).storeWaits c pa bs = false := by
    obtain ⟨g, hs⟩ := storeAll_empty hb room
    simp only [State.storeWaits, empty, hs, Placed1.waits, List.isEmpty_nil, Bool.not_true, Bool.false_and]
  obtain ⟨g, hs⟩ := storeL1_empty (v := ((s.on c (Core.dropReq k)).l1Env c).hinted hint) hb room
  have hexec : exec (.ownershipGrant c k) s = .next ((s.on c (Core.dropReq k)).onL1q c fun v es => storeL1 (v.hinted hint) pa bs es) := by
    simp only [exec_ownershipGrant, execOwnershipGrant, hk, hr, lone.comes true, lone.withdraw, goes, Bool.false_eq_true, if_false]
  rw [State.onL1q_of (by rw [empty]; exact hs)] at hexec
  refine ⟨_, hexec, fun i hi => ?_, rfl, ?_, ?_⟩
  · rw [State.on_at_ne _ (Ne.symm hi), State.on_at_ne _ (Ne.symm hi)]
  · rw [State.on_at _ hc, hat]
    rfl
  · rw [State.on_at _ hc]
    exact ⟨_, rfl, rfl, rfl, rfl, rfl, rfl, rfl, rfl⟩

/-! ## Fills -/

/-- The pieces of an extent inside a zone. -/
theorem pieces_zone {pa n : Nat} (hn : n ≠ 0) (hz : pa % 4096 + n ≤ 4096) : pieces 4096 pa n = [(pa, n)] := by
  have hmin : min n (4096 - pa % 4096) = n := by omega
  simp only [pieces, cutAt, hn, if_false, hmin, Nat.sub_self]
  cases n / 4096 <;> rfl

/-- A fill of an empty L1 waits for no way (R87). -/
theorem fillWaits_empty {s : State} {c : Nat} {excl : Bool} {cls : RClass} {stream : Bool} {pa n : Nat} (hl : (s.at c).l1 = [])
    (hn : n ≠ 0) (hg : granCount pa n ≤ l1Grans (s.at c).padKiB) : s.fillWaits c excl cls stream pa n = false := by
  have blank : List.replicate n (0 : Byte) ≠ [] := by simp [hn]
  obtain ⟨g, hi⟩ := installL1_empty (v := s.l1Env c) (cls := cls) (stream := stream) (st := if excl then .e else .s) (pa := pa) blank
    (by rwa [List.length_replicate])
  simp only [State.fillWaits, hl, gaps_nil hn, blanks, List.map_cons, List.map_nil, hi, Placed1.waits, List.isEmpty_nil, Bool.not_true,
    Bool.false_and]

/-- The home serves what nothing else holds as it is (R88). -/
theorem served1_lone {s : State} {c : Nat} {excl : Bool} {z : Nat × Nat} {gs : List (Nat × Nat)} (h : Lone s c z.1 z.2)
    (hgs : ∀ g ∈ gs, Inside g z) : s.served1 c excl z.1 z.2 gs = s := by
  unfold State.served1
  split
  · exact h.withdraw
  · induction gs with
    | nil => rfl
    | cons g gs ih =>
      obtain ⟨hg, hgs⟩ := List.forall_mem_cons.mp hgs
      rw [List.foldl_cons, (hg.lone h).downgrade]
      exact ih hgs

theorem alone_lone {s : State} {c : Nat} {excl : Bool} {pa n : Nat} (h : Lone s c pa n) : s.alone c excl pa n = .ok () := by
  unfold State.alone
  cases excl with
  | false => rfl
  | true => simp [h.comes true]

theorem ok_bind {ε α β : Type} (a : α) (f : α → Except ε β) : (Except.ok a >>= f) = f a := rfl

theorem State.on_on (s : State) (c : Nat) (f g : Core → Core) : (s.on c f).on c g = s.on c fun k => g (f k) := by
  by_cases hc : c < 768
  · rw [State.on, State.on_at s hc, State.on, State.put, State.put, State.on, State.put, Vector.setIfInBounds_setIfInBounds]
  · simp [State.on, State.put, Vector.setIfInBounds_eq_of_size_le (Nat.le_of_not_lt hc)]

/-- A fill of an empty L1 with bytes that nothing else holds makes one clean entry of them (R10, R88). -/
theorem fill_empty {s : State} {c : Nat} (hc : c < 768) {excl : Bool} {cls : RClass} {pa n : Nat} (hl : (s.at c).l1 = [])
    (hn : n ≠ 0) (hz : pa % 4096 + n ≤ 4096) (hg : granCount pa n ≤ l1Grans (s.at c).padKiB) (hlone : Lone s c pa n)
    (hp : s.poisoned pa n = none) (hi : (s.at c).sys.inj.getLsbD 5 = false) :
    ∃ (d : Vector Die 2) (e : L1Entry), s.fill c excl cls false pa n = .ok (({ s with dies := d } : State).on c fun k => { k with l1 := [e] }) ∧
      e.start = pa ∧ e.data = (s.memFor c).read pa n ∧ e.st = (if excl then .e else .s) ∧ e.dlen = 0 ∧ e.cls = cls ∧ e.pin = false := by
  have hgaps : gaps (s.at c).l1 pa n = [(pa, n)] := by rw [hl]; exact gaps_nil hn
  have inside : ∀ g ∈ [(pa, n)], Inside g (pa, n) := by
    rw [List.forall_mem_singleton]
    exact ⟨le_refl _, Nat.pos_of_ne_zero hn, le_refl _, hz⟩
  obtain ⟨d, hd⟩ := State.entersAll_lone (z := (pa, n)) inside hlone hp hi
  generalize ht : ({ s with dies := d } : State) = t at hd
  have hat : t.at c = s.at c := by rw [← ht]; rfl
  have hmem : t.memFor c = s.memFor c := by rw [← ht]; rfl
  have lone : Lone t c pa n := by rw [← ht]; exact hlone.congr rfl rfl fun _ => ⟨fun _ => rfl, List.Subset.refl _⟩
  have served : t.served1 c excl pa n [(pa, n)] = t := served1_lone (z := (pa, n)) lone inside
  have bytes : (s.memFor c).read pa n ≠ [] := by
    intro h
    have := congrArg List.length h
    simp only [Mem.read_length, List.length_nil] at this
    exact hn this
  obtain ⟨g, hinst⟩ := installL1_empty (v := t.l1Env c) (cls := cls) (stream := false)
    (st := if excl then .e else .s) (pa := pa) bytes (by rw [Mem.read_length, State.l1Env, hat]; exact hg)
  generalize he : ({ filled (t.l1Env c) cls false (if excl then .e else .s) (pa, (s.memFor c).read pa n) with way := 0, grans := g } :
    L1Entry) = e at hinst
  have installed : (t.onL1q c fun v es =>
      let r := installL1 v cls false (if excl then .e else .s) (t.homeBytes c [(pa, n)]) es
      (r.es, r.wbs)) = t.on c fun k => { k with l1 := [e] } := by
    refine State.onL1q_of ?_
    simp only [hat, hl, State.homeBytes, hmem, List.map_cons, List.map_nil, hinst]
  have data : e.data ≠ [] := by rw [← he]; exact bytes
  have owned (hx : excl = true) : ((t.on c fun k => { k with l1 := [e] }).onL1q c fun v es => ownL1 v pa n es) =
      t.on c fun k => { k with l1 := [e] } := by
    rw [State.onL1q_of (es := [e]), State.on_on]
    rw [State.on_at t hc]
    exact ownL1_owned data (by rw [← he, hx]; simp [filled])
  refine ⟨d, e, ?_, by rw [← he]; rfl, by rw [← he]; rfl, by rw [← he]; rfl, by rw [← he]; rfl, by rw [← he]; rfl, by rw [← he]; rfl⟩
  rw [ht]
  simp only [State.fill, hgaps, fillWaits_empty hl hn hg, alone_lone hlone, hd, ok_bind, served, installed, Bool.false_eq_true, if_false]
  cases hx : excl with
  | false => rfl
  | true => exact congrArg Except.ok (owned hx)

/-- The statement of `StorageEvents` about a fill (R10, R92). -/
theorem l1Fill_yields {s : State} {c : Nat} (hc : c < 768) {k va n pa : Nat} {excl : Bool} {cls : RClass}
    (hk : (s.at c).memq[k]? = some (.fill va n excl cls)) (hm : s.missing c va n = none) (hl : (s.at c).l1 = []) (hn : n ≠ 0)
    (hz : pa % 4096 + n ≤ 4096)
    (ht : s.translateAll c { rd := true, user := !(s.at c).sys.sup } va n = (s, [(va, pa, n)], none))
    (hr : s.reachedBefore c k [(pa, n)] = false) (hg : granCount pa n ≤ l1Grans (s.at c).padKiB) (ha : Alone s pa n)
    (hp : s.poisoned pa n = none) (hi : (s.at c).sys.inj.getLsbD 5 = false) :
    Yields s (.l1Fill c k) fun t => Only s t c ∧ t.mem = s.mem ∧
      (t.at c).memq = (s.at c).memq.eraseIdx k ∧ ∃ e : L1Entry, (t.at c).l1 = [e] ∧ e.start = pa ∧
      e.data = (List.range n).map (fun j => (s.memFor c).get (pa + j)) ∧ e.st = (if excl then .e else .s) ∧ e.dlen = 0 ∧
      e.cls = cls ∧ e.pin = false := by
  have zones : zonesOf [(va, pa, n)] = [(pa, n)] := by simp [zonesOf, pieces_zone hn hz]
  generalize hu : (s.on c (Core.dropReq k)).on c (Core.hits [(pa, n)]) = u
  have hat : u.at c = { s.at c with memq := (s.at c).memq.eraseIdx k } := by
    rw [← hu, State.on_on, State.on_at s hc]
    simp [Core.hits, Core.dropReq, touchL1, hl]
  have hother (i : Nat) (hic : c ≠ i) : u.at i = s.at i := by rw [← hu, State.on_at_ne _ hic, State.on_at_ne _ hic]
  have same : u.remotes = s.remotes ∧ u.devidx = s.devidx ∧ u.poison = s.poison ∧ u.launches = s.launches ∧ u.mem = s.mem := by
    rw [← hu]; exact ⟨rfl, rfl, rfl, rfl, rfl⟩
  obtain ⟨hrem, hdev, hpoi, hlau, hmem⟩ := same
  have lone : Lone u c pa n := by
    refine (Lone.of_alone ha c).congr hrem hdev fun i => ?_
    by_cases hic : c = i
    · subst hic
      rw [hat]
      exact ⟨fun _ => rfl, (List.eraseIdx_sublist _ _).subset⟩
    · rw [hother i hic]
      exact ⟨fun _ => rfl, List.Subset.refl _⟩
  have view : u.memFor c = s.memFor c := by
    simp only [State.memFor, State.memOf, State.asidesOf, State.launch, hat, hlau, hmem]
  obtain ⟨d, e, hfill, hstart, hdata, hst, hlen, hcls, hpin⟩ := fill_empty (excl := excl) (cls := cls) hc (s := u) (by rw [hat]; exact hl) hn hz
    (by rw [hat]; exact hg) lone (by rw [State.poisoned, hpoi]; exact hp) (by rw [hat]; exact hi)
  have hinst : s.installed c k va n excl cls = .ok ((({ u with dies := d } : State).on c fun x => { x with l1 := [e] }), true) := by
    simp only [State.installed, ht, zones, hr, State.fillAll, hu, hfill]
    rfl
  have hexec : exec (.l1Fill c k) s = .next ((({ u with dies := d } : State).on c fun x => { x with l1 := [e] }).on c fun x =>
      { x with memq := x.memq.take k ++ [] ++ x.memq.drop k }) := by
    simp only [exec_l1Fill, execL1Fill, hk, hm, hinst]
    rfl
  rw [State.on_on] at hexec
  refine ⟨_, hexec, fun i hic => ?_, hmem, ?_, ?_⟩
  · rw [State.on_at_ne _ (Ne.symm hic)]
    exact hother i (Ne.symm hic)
  · rw [State.on_at _ hc, show (({ u with dies := d } : State)).at c = u.at c from rfl, hat]
    simp
  · rw [State.on_at _ hc]
    exact ⟨e, rfl, hstart, by rw [hdata, view, Mem.read_eq], hst, hlen, hcls, hpin⟩

end Sys2Proof.Machine

namespace Sys2Proof

open Machine

/-- Settles O40: each clause is a lemma above. The messages of a home keep the hereditary properties of the entries, and a walk of the page
table leaves the walkers and the address spaces as they were. -/
theorem storageEvents : Obligations.StorageEvents := by
  refine ⟨fun s c hc hcan => ⟨?_, pendingWriteLand_waits, ?_, ?_, ?_, fun pa n hn => homeMessages_yield hc hcan hn⟩,
    fun s d hd => ⟨fun k w hk hw => walkComplete_yields hd hk hw, hotRowHalve_yields hd⟩⟩
  · exact fun p rest hp hfirst hready hdue hnow => pendingWriteLand_yields hc hcan hp hfirst hready hdue hnow
  · exact fun k va pa bs hint hk hr hb hl hg ha => ownershipGrant_yields hc hk hr hb hl hg ha
  · exact fun k pa bs hk hb hj => writeBackComplete_yields hc hcan hk hb hj
  · exact fun k va n excl cls pa hk hm hl hn hz ht hr hg ha hp hi => l1Fill_yields hc hk hm hl hn hz ht hr hg ha hp hi

end Sys2Proof
end

section
/-! PROOFS. The extent instructions (R108, R109). -/

namespace Sys2Proof.Machine

open Claims (Ours Quiet Standing)

/-! ## A precise trap with a handler -/

theorem Cause.num_lt (c : Cause) : c.num < 2 ^ 8 := by cases c <;> decide

/-- A trap of the running core, after an update `f` that leaves its registers, is entered (R379, R381). -/
theorem takeTrap_enters {s : State} (hs : s.handles = true) (f : Core → Core)
    (hf : (f s.core).ctx = s.core.ctx ∧ (f s.core).sys = s.core.sys) (x : Trap) (pc : Word) :
    Enters s ((s.upd f).takeTrap x { epc := pc }) x (pc &&& 0x1FFFFFFFFFFFFF) 0 := by
  obtain ⟨hctx, hsys⟩ := hf
  have hmode : s.core.sys.sup = false ∧ s.core.sys.tvec ≠ 0 := by simpa [State.handles] using hs
  obtain ⟨hsup, htvec⟩ := hmode
  have htake : (s.upd f).takeTrap x { epc := pc } = s.upd fun c => (f c).entered x { epc := pc } := by
    have : ¬ ((f s.core).sys.sup || decide ((f s.core).sys.tvec = 0)) = true := by
      rw [hsys, hsup, Bool.false_or, decide_eq_true_eq]
      exact htvec
    simp only [State.takeTrap, State.upd_core, if_neg this]
    simp [State.upd, State.setCore_setCore]
  rw [htake]
  have hcore : (s.upd fun c => (f c).entered x { epc := pc }).core = (f s.core).entered x { epc := pc } := State.upd_core _ _
  constructor
  case others => exact fun i hi => State.upd_at_ne _ (Ne.symm hi) _
  case mem => exact fun _ => rfl
  case device => rfl
  all_goals rw [hcore]
  case epc => rfl
  case cause =>
    have : x.cause.num < 256 := Cause.num_lt x.cause
    simp [Core.entered, Sys.entered, packFields, Nat.mod_eq_of_lt this, b1]
  case info => simp [Core.entered, Sys.entered, packFields]
  case addr =>
    simp only [Core.entered, Sys.entered, packFields]
    cases x.inPad <;> simp [b1]
  case mode => rfl
  case saved =>
    simp only [Core.entered, Sys.entered, hsys, hsup]
    cases x.cause == .residueEnd <;> decide
  case pc => simp [Core.entered, hsys]
  case regs => simp [Core.entered, hctx]

/-! ## The extents that the instructions name -/

/-- What an extent instruction does with the zones of its extent (R14, R108, R109). -/
def extentStep (u : State) (zs : List (Nat × Nat)) : Instr → Run (State × Option Word)
  | .rflush _ _ _ _ m => done (State.eachZone (flushL1 m) zs (zs.foldl (fun u z => u.settleWb z.1 z.2) u))
  | .rdrop _ _ _ _ => done (State.eachZone dropL1 zs u)
  | .runpin _ _ _ _ => done (State.eachZone (fun pa n es => (unpinL1 pa n es, [])) zs u)
  | .rpin _ g _ _ _ x cls =>
    if zs.isEmpty then done (u.upd fun k => k.setG g true)
    else if !u.core.pinFits x cls zs then done (u.upd fun k => k.setG g false)
    else do
      let w ← State.countLater u.cur (zs.foldlM (State.pinPiece u.cur x cls) (u.upd (Core.touch zs)))
      done (w.upd fun k => k.setG g true)
  | _ => done u

/-- An extent instruction passes on the zones of its extent. -/
theorem exec_extent {s : State} {i : Instr} {h : Hd} {va n : Nat} (hi : Claims.extentOf s.core i = some (h, va, n)) :
    exec i s = s.issue64 h fun _ => s.exch.extentZones va n >>= fun r => extentStep r.1 r.2 i := by
  cases i
  case rflush | rdrop | rpin | runpin =>
    simp only [Claims.extentOf, Option.some.injEq, Prod.mk.injEq] at hi
    obtain ⟨rfl, rfl, rfl⟩ := hi
    rfl
  all_goals simp [Claims.extentOf] at hi

/-- An extent of no bytes has no zones. -/
theorem extentZones_zero (s : State) (va : Nat) : s.extentZones va 0 = .ok (s, []) := rfl

/-- An extent above 4,096 bytes is refused. -/
theorem extentZones_long (s : State) (va : Nat) {n : Nat} (hn : 4096 < n) : s.extentZones va n = .error (.trap (accessTrap 10 0) s) := by
  have : need (decide (n ≤ 4096)) (accessTrap 10 0) s = .error (.trap (accessTrap 10 0) s) := by simp [need, Nat.not_le.mpr hn]
  rw [State.extentZones, this]
  rfl

/-- An extent that translates and that no request of the core reaches. -/
theorem extentZones_standing {s : State} {va n : Nat} {ps : List Piece} (h0 : 0 < n) (hn : n ≤ 4096)
    (ht : Standing s s.core.reads va n ps) (hr : s.reached s.cur s.core.memq (zonesOf ps) = false) :
    s.extentZones va n = .ok (s, zonesOf ps) := by
  have fits : need (decide (n ≤ 4096)) (accessTrap 10 0) s = .ok () := by simp [need, hn]
  have found : s.pieces s.cur s.core.reads va n = .ok (s, ps) := by simp only [State.pieces, show _ = _ from ht]
  simp only [State.extentZones, fits, ok_bind, Nat.ne_of_gt h0, if_false, found, hr, Bool.false_eq_true]
  rfl

/-! ## The lengths that R108 sets apart -/

/-- Completing after an update of the running core, as `Yields` has it. -/
theorem completes_of_ok {s : State} {h : Hd} {b : Body} (hg : s.core.guard h = true) {f : Core → Core} (hb : b s = .ok (s.upd f, none))
    (hf : (f s.core).sys.slots = s.core.sys.slots) :
    ∃ t, s.issue64 h b = .next t ∧ Completes s t (f s.core) (s.after 8) h.dly.toNat := by
  refine ⟨_, ?_, completes_upd s f h.dly.toNat _ hf⟩
  rw [State.issue64, hg, State.issue_ok hb]
  rfl

/-- An extent of no bytes has no effect but on `RPIN`'s guard (R108). -/
theorem extent_zero {s : State} {i : Instr} {h : Hd} {va : Nat} (hi : Claims.extentOf s.core i = some (h, va, 0))
    (hg : s.core.guard h = true) : Yields s i fun t => ∃ c : Core, Completes s t c (s.after 8) h.dly.toNat ∧
      c = { s.core with ctx := c.ctx, exchanging := true } ∧
      c.ctx = (match i with | .rpin _ g _ _ _ _ _ => s.core.setG g true | _ => s.core).ctx := by
  have hb := exec_extent hi
  simp only [extentZones_zero, ok_bind] at hb
  cases i
  case rflush | rdrop | runpin =>
    obtain ⟨t, ht, hc⟩ := completes_of_ok hg (b := fun _ => done s.exch) (f := fun c => { c with exchanging := true }) rfl rfl
    exact ⟨t, hb.trans ht, _, hc, rfl, rfl⟩
  case rpin g _ _ _ _ _ =>
    have guarded : ∀ c : Core, Core.setG { c with exchanging := true } g true = { c.setG g true with exchanging := true } := fun c => by
      unfold Core.setG; split <;> rfl
    obtain ⟨t, ht, hc⟩ := completes_of_ok hg (b := fun _ => done (s.exch.upd fun k => k.setG g true))
      (f := fun c => Core.setG { c with exchanging := true } g true)
      (congrArg (fun u : State => Except.ok (u, none)) (State.upd_upd s _ _)) (by rw [guarded]; unfold Core.setG; split <;> rfl)
    refine ⟨t, hb.trans ht, _, hc, ?_, ?_⟩
    · unfold Core.setG; split <;> rfl
    · rw [guarded]
  all_goals simp [Claims.extentOf] at hi

/-- An extent above 4,096 bytes raises an access violation (R108, R379). -/
theorem extent_long {s : State} {i : Instr} {h : Hd} {va n : Nat} (hi : Claims.extentOf s.core i = some (h, va, n))
    (hg : s.core.guard h = true) (hn : 4096 < n) (hs : s.handles = true) :
    Yields s i fun t => Enters s t { cause := .access, detail := 10 } (s.core.ctx.pc &&& 0x1FFFFFFFFFFFFF) 0 := by
  have hb := exec_extent hi
  rw [extentZones_long _ _ hn] at hb
  refine ⟨_, hb.trans ?_, takeTrap_enters hs (fun c => { c with exchanging := true }) ⟨rfl, rfl⟩ (accessTrap 10 0) s.core.ctx.pc⟩
  rw [State.issue64, hg]
  rw [State.issue_halt (e := .trap (accessTrap 10 0) s.exch) (by rfl)]
  rfl

/-- `PREF` queues its fill, clamped to 4,096 bytes and to the addresses there are (R87, R92, R108). -/
theorem pref_clamped {s : State} {h : Hd} (x y : SReg) (i : BitVec 21) (ex : Bool) (k : RClass) (hg : s.core.guard h = true) :
    let n := Nat.min (Nat.min (s.core.getS y).toNat 4096) (2 ^ 53 - Claims.storeAt s.core x i)
    Yields s (.pref h x i y ex k) fun t => Completes s t (if n = 0 then { s.core with exchanging := true } else
      { s.core with exchanging := true, l1Count := s.core.l1Count + 1, memq := s.core.memq ++ [.fill (Claims.storeAt s.core x i) n ex k] })
      (s.after 8) h.dly.toNat := by
  intro n
  have hb : exec (.pref h x i y ex k) s = s.issue64 h fun _ => done (if n = 0 then s.exch else
      s.exch.upd fun k' => { k'.touch [] with memq := k'.memq ++ [.fill (Claims.storeAt s.core x i) n ex k] }) := rfl
  by_cases hn : n = 0
  · simp only [if_pos hn] at hb ⊢
    obtain ⟨t, ht, hc⟩ := completes_of_ok hg (b := fun _ => done s.exch) (f := fun c => { c with exchanging := true }) rfl rfl
    exact ⟨t, hb.trans ht, hc⟩
  · simp only [if_neg hn, State.exch, State.upd_upd] at hb ⊢
    obtain ⟨t, ht, hc⟩ := completes_of_ok hg (b := fun _ => done (s.upd _)) (f := fun c =>
      { Core.touch [] { c with exchanging := true } with memq := c.memq ++ [.fill (Claims.storeAt s.core x i) n ex k] }) rfl rfl
    exact ⟨t, hb.trans ht, hc⟩

/-- The first part of O14. -/
theorem extentLengths : Claims.ExtentLengths :=
  ⟨fun _ _ _ _ _ hi hg => ⟨fun hn => extent_zero (hn ▸ hi) hg, fun hn hs => extent_long hi hg hn hs⟩,
    fun _ _ x y i ex k hg => pref_clamped x y i ex k hg⟩

end Sys2Proof.Machine
end

section
/-! PROOFS. What the extent instructions leave of the L1 (R14, R108, R109). -/

namespace Sys2Proof.Machine

open Claims (Ours Quiet Standing)

/-! ## The operations on the entries -/

/-- After `RFLUSH` no byte of the extent is dirty. -/
theorem flushL1_clean {m : Flush} {z : Nat × Nat} {es : List L1Entry} (h : ∀ e ∈ es, e.dstart + e.dlen ≤ e.data.length) :
    ∀ e ∈ (flushL1 m z.1 z.2 es).1, Clean z e := by
  refine coalesce_all (Clean.hereditary z).joins fun e he => ?_
  obtain ⟨x, hx, hxe⟩ := List.mem_filterMap.mp he
  have wiped (e : L1Entry) (he : e.dstart = 0 ∧ e.dlen = 0) : Clean z e :=
    ⟨by omega, fun a _ _ hd => by simp only [Claims.dirtyAt] at hd; omega⟩
  split at hxe
  · next hm =>
    obtain rfl := Option.some.inj hxe
    have hspan := h x hx
    refine ⟨hspan, fun a h1 h2 hd => ?_⟩
    rw [Bool.not_eq_true', ← Bool.not_eq_true, L1Entry.meets_iff] at hm
    simp only [Claims.dirtyAt] at hd
    omega
  · cases m with
    | keep => exact wiped e (Option.some.inj hxe ▸ ⟨rfl, rfl⟩)
    | s => exact wiped e (Option.some.inj hxe ▸ ⟨rfl, rfl⟩)
    | i =>
      dsimp only at hxe
      split at hxe
      · exact wiped e (Option.some.inj hxe ▸ ⟨rfl, rfl⟩)
      · simp at hxe

/-- After `RFLUSH.s` the entries of the extent are in S. -/
theorem flushL1_s {pa n : Nat} {es : List L1Entry} (hn : 0 < n) :
    ∀ e ∈ (flushL1 .s pa n es).1, Met pa n (fun st _ => st = .s) e := by
  refine coalesce_all (Met.hereditary hn fun _ _ _ => rfl).joins fun e he hm => ?_
  obtain ⟨x, -, hxe⟩ := List.mem_filterMap.mp he
  split at hxe
  · next hx =>
    obtain rfl := Option.some.inj hxe
    simp [hm] at hx
  · exact Option.some.inj hxe ▸ rfl

/-- After `RFLUSH.i` the entries of the extent are the pinned ones. -/
theorem flushL1_i {pa n : Nat} {es : List L1Entry} (hn : 0 < n) :
    ∀ e ∈ (flushL1 .i pa n es).1, Met pa n (fun _ p => p = true) e := by
  refine coalesce_all (Met.hereditary hn fun _ _ h => h).joins fun e he hm => ?_
  obtain ⟨x, -, hxe⟩ := List.mem_filterMap.mp he
  split at hxe
  · next hx =>
    obtain rfl := Option.some.inj hxe
    simp [hm] at hx
  · dsimp only at hxe
    split at hxe
    · next hp => exact Option.some.inj hxe ▸ hp
    · simp at hxe

/-- After `RDROP` the entries of the extent are the pinned ones. -/
theorem dropL1_pinned {pa n : Nat} {es : List L1Entry} : ∀ e ∈ (dropL1 pa n es).1, Met pa n (fun _ p => p = true) e := fun e he hm => by
  have := (List.mem_filter.mp he).2
  simpa [hm] using this

/-- After `RUNPIN` no entry of the extent is pinned. -/
theorem unpinL1_free {pa n : Nat} {es : List L1Entry} (hn : 0 < n) : ∀ e ∈ unpinL1 pa n es, Met pa n (fun _ p => p = false) e := by
  refine coalesce_all (Met.hereditary hn fun _ _ h => h).joins fun e he hm => ?_
  obtain ⟨x, -, rfl⟩ := List.mem_map.mp he
  split
  · rfl
  · next hx =>
    rw [if_neg hx] at hm
    exact absurd hm hx

/-! ## One zone -/

/-- A state whose running core has the registers of `s` and does not wait for anything that `s` does not. -/
def State.Carries (s t : State) : Prop := t.cur = s.cur ∧ t.core.registers = s.core.registers ∧ t.core.sys.slots = s.core.sys.slots

theorem State.Carries.of_tame {s t : State} (h : State.Tame s t) : State.Carries s t := by
  have hcore : t.core = { s.core with l1 := t.core.l1, memq := t.core.memq } := by
    have := h.core s.cur
    rw [show t.at s.cur = t.core by rw [← h.cur]; exact State.at_cur t, State.at_cur] at this
    exact this
  refine ⟨h.cur, ?_, ?_⟩
  · rw [hcore]; rfl
  · rw [hcore]

/-- An operation on one zone, as one access (R87): registers stay, and what the operation makes of the entries is there afterwards. -/
theorem eachZone_single {s : State} {f : Nat → Nat → List L1Entry → List L1Entry × Wbs} {z : Nat × Nat} :
    State.Carries s (State.eachZone f [z] s) ∧
      ∀ P, Hereditary P → (∀ e ∈ (f z.1 z.2 s.core.l1).1, P e) → ∀ e ∈ (State.eachZone f [z] s).core.l1, P e := by
  have eq : State.eachZone f [z] s = (s.upd (Core.touch [])).onL1 s.cur fun _ es => f z.1 z.2 es := rfl
  generalize hu : s.upd (Core.touch []) = u at eq
  have hcur : u.cur = s.cur := by rw [← hu]; rfl
  have hl1 : (u.at s.cur).l1 = s.core.l1 := by rw [← hcur, State.at_cur, ← hu, State.upd_core]; rfl
  generalize hw : (u.on s.cur fun k => { k with l1 := (f z.1 z.2 (u.at s.cur).l1).1 }) = w
  have tame : State.Tame w (State.eachZone f [z] s) := by
    rw [eq, ← hw]
    exact (State.Tame.refl _).applyWbs
  have hwat : w.at s.cur = { u.at s.cur with l1 := (f z.1 z.2 (u.at s.cur).l1).1 } := by rw [← hw]; exact State.on_at u s.cur.isLt _
  have hwcur : w.cur = s.cur := by rw [← hw]; exact hcur
  have hwcore : w.core = { s.core with l1Count := s.core.l1Count + 1, l1 := (f z.1 z.2 s.core.l1).1 } := by
    rw [← State.at_cur, hwcur, hwat, hl1, ← hcur, State.at_cur, ← hu, State.upd_core]
    rfl
  obtain ⟨hc, hr, hs⟩ := State.Carries.of_tame tame
  refine ⟨⟨hc.trans hwcur, hr.trans (by rw [hwcore]; rfl), hs.trans (by rw [hwcore])⟩, fun P hP h => ?_⟩
  have kept := tame.keeps s.cur P hP (by rw [hwat, hl1]; exact h)
  rwa [← hwcur, ← hc, State.at_cur] at kept

/-! ## Completing -/

/-- Completing a body that leaves the slot counter. -/
theorem retires_of_ok {s t : State} {h : Hd} {b : Body} (hg : s.core.guard h = true) (hb : b s = .ok (t, none))
    (hs : t.core.sys.slots = s.core.sys.slots) : ∃ t', s.issue64 h b = .next t' ∧ Retires s t' (s.after 8) h.dly.toNat ∧
      t'.core.registers = t.core.registers ∧ t'.core.l1 = t.core.l1 := by
  refine ⟨t.finish false h.dly.toNat (s.after 8), ?_, ⟨?_, ?_, ?_⟩, ?_, ?_⟩
  · rw [State.issue64, hg, State.issue_ok hb]
    rfl
  all_goals simp [hs, Core.retire, Core.registers]

/-- The zone of an extent in one zone has bytes and crosses no bound. -/
theorem zone_single {p : Piece} {z : Nat × Nat} (h : zonesOf [p] = [z]) : 0 < z.2 ∧ z.1 % 4096 + z.2 ≤ 4096 := by
  have cut (fuel a n : Nat) : ∀ x ∈ cutAt 4096 fuel a n, 0 < x.2 ∧ x.1 % 4096 + x.2 ≤ 4096 := by
    induction fuel generalizing a n with
    | zero => simp [cutAt]
    | succ fuel ih =>
      unfold cutAt
      split
      · simp
      · exact List.forall_mem_cons.mpr ⟨by simp only; omega, ih _ _⟩
  have hz : z ∈ zonesOf [p] := by rw [h]; exact List.mem_singleton_self z
  rw [zonesOf, List.flatMap_singleton] at hz
  exact cut _ _ _ z hz

theorem setG_registers {c d : Core} (h : c.registers = d.registers) (g : GReg) (b : Bool) :
    (c.setG g b).registers = (d.setG g b).registers := by
  have hs : c.ctx.guards = d.ctx.guards := congrArg (·.1.guards) h
  unfold Core.setG
  split
  · exact h
  · simp only [Core.registers, Prod.mk.injEq] at h ⊢
    obtain ⟨hctx, hsys⟩ := h
    refine ⟨?_, hsys⟩
    have := congrArg (fun k : Ctx => { k with guards := (if b then c.ctx.guards ||| 1#16 <<< g.toNat else
      c.ctx.guards &&& ~~~(1#16 <<< g.toNat)) }) hctx
    rw [hs] at this ⊢
    exact this

/-! ## `RPIN` -/

theorem onL1q_carries (s : State) (f : L1Env → List L1Entry → List L1Entry × Wbs) : State.Carries s (s.onL1q s.cur f) := by
  have hcore : (s.onL1q s.cur f).core = _ := (State.at_cur _).symm.trans (State.on_at s s.cur.isLt fun c : Core =>
    { c with l1 := (f (s.l1Env s.cur) (s.at s.cur).l1).1,
             memq := c.memq ++ List.map (fun w => MemReq.wback w.1 w.2) (f (s.l1Env s.cur) (s.at s.cur).l1).2 })
  exact ⟨rfl, by rw [hcore, State.at_cur]; rfl, by rw [hcore, State.at_cur]⟩

/-- A pin of a zone that nothing else holds is done at once, and registers stay (R109). -/
theorem pinPiece_lone {s : State} {x : Bool} {cls : RClass} {z : Nat × Nat} (hz : z.1 % 4096 + z.2 ≤ 4096)
    (hw : s.pinWaits s.cur x cls z = false) (hl : Lone s s.cur z.1 z.2) (hp : s.poisoned z.1 z.2 = none)
    (hi : s.core.sys.inj.getLsbD 5 = false) :
    ∃ t, State.pinPiece s.cur x cls s z = .ok t ∧ State.Carries s t := by
  have inside := gaps_inside (es := (s.at s.cur).l1) hz
  obtain ⟨d, hd⟩ := State.entersAll_lone inside hl hp (by rw [State.at_cur]; exact hi)
  have lone : Lone { s with dies := d } s.cur z.1 z.2 := hl.congr rfl rfl fun _ => ⟨fun _ => rfl, List.Subset.refl _⟩
  have pinned : State.pinPiece s.cur x cls s z = .ok (({ s with dies := d } : State).onL1q s.cur fun v es =>
      let r := pinL1 v x cls z.1 z.2 (({ s with dies := d } : State).homeBytes s.cur (gaps (s.at s.cur).l1 z.1 z.2)) es
      settle (r.es, r.wbs ++ r.lost.flatMap (·.dirty))) := by
    simp only [State.pinPiece, hw, alone_lone hl, hd, ok_bind, served1_lone lone inside, Bool.false_eq_true, if_false]
    rfl
  exact ⟨_, pinned, onL1q_carries { s with dies := d } _⟩

/-! ## What O14 says of extents in one zone -/

section
variable {s : State} {i : Instr} {h : Hd} {va n : Nat} {p : Piece} {z : Nat × Nat} (hi : Claims.extentOf s.core i = some (h, va, n))
  (h0 : 0 < n) (hn : n ≤ 4096) (ht : Standing s.exch s.core.reads va n [p]) (hz : zonesOf [p] = [z])
  (hr : s.exch.reached s.cur s.core.memq [z] = false)
include hi h0 hn ht hz hr

/-- The instruction goes to work on its zone. -/
theorem exec_zone : exec i s = s.issue64 h fun _ => extentStep s.exch [z] i := by
  have core : s.exch.core = { s.core with exchanging := true } := State.upd_core s _
  have zones : s.exch.extentZones va n = .ok (s.exch, [z]) := by
    rw [extentZones_standing h0 hn (ps := [p]), hz]
    · rw [core]; exact ht
    · rw [hz, core]; exact hr
  rw [exec_extent hi, zones]
  rfl

end

section
variable {s : State} {p : Piece} {z : Nat × Nat} (hz : zonesOf [p] = [z]) (hq : Quiet s.exch [p])
include hz hq

/-- What `Quiet` says of the zone. -/
theorem quiet_lone : Lone s.exch s.cur z.1 z.2 ∧ s.exch.poisoned z.1 z.2 = none := by
  obtain ⟨-, hall⟩ := hq
  obtain ⟨ho, hp, hw, hs⟩ := hall z (by rw [hz]; exact List.mem_singleton_self z)
  exact ⟨.of_parts ho hw hs, hp⟩

end

/-- What is left of an extent by the operation of an instruction on its zone, once the instruction has completed. -/
theorem zone_retires {s : State} {i : Instr} {h : Hd} {z : Nat × Nat} {f : Nat → Nat → List L1Entry → List L1Entry × Wbs}
    (hg : s.core.guard h = true) (hexec : exec i s = s.issue64 h fun _ => done (State.eachZone f [z] s.exch)) :
    ∃ t, exec i s = .next t ∧ Retires s t (s.after 8) h.dly.toNat ∧ t.core.registers = s.core.registers ∧
      ∀ P, Hereditary P → (∀ e ∈ (f z.1 z.2 s.core.l1).1, P e) → ∀ e ∈ t.core.l1, P e := by
  have core : s.exch.core = { s.core with exchanging := true } := State.upd_core s _
  obtain ⟨⟨-, hregs, hslots⟩, hall⟩ := eachZone_single (s := s.exch) (f := f) (z := z)
  obtain ⟨t, ht, hret, htr, htl⟩ := retires_of_ok (t := State.eachZone f [z] s.exch) (b := fun _ => done _) hg rfl
    (hslots.trans (by rw [core]))
  refine ⟨t, hexec.trans ht, hret, htr.trans (hregs.trans (by rw [core]; rfl)), fun P hP hs => ?_⟩
  rw [htl]
  exact hall P hP (by rw [core]; exact hs)

/-- `RPIN` of one zone writes whether the pin fits, and changes no other register; where it does not fit the entries stay (R109). -/
theorem rpin_retires {s : State} {i : Instr} {h : Hd} {p : Piece} {z : Nat × Nat} {g : GReg} {x : Bool} {cls : RClass}
    (hg : s.core.guard h = true) (hz : zonesOf [p] = [z]) (hq : Quiet s.exch [p])
    (hw : (s.exch.upd (Core.touch [z])).pinWaits s.cur x cls z = false)
    (hexec : exec i s = s.issue64 h fun _ => if ([z] : List (Nat × Nat)).isEmpty then done (s.exch.upd fun k => k.setG g true)
      else if !s.exch.core.pinFits x cls [z] then done (s.exch.upd fun k => k.setG g false)
      else do
        let w ← State.countLater s.exch.cur (([z] : List (Nat × Nat)).foldlM (State.pinPiece s.exch.cur x cls) (s.exch.upd (Core.touch [z])))
        done (w.upd fun k => k.setG g true)) :
    ∃ t, exec i s = .next t ∧ Retires s t (s.after 8) h.dly.toNat ∧ ∃ b : Bool, t.core.registers = (s.core.setG g b).registers ∧
      (b = true ↔ s.core.pinFits x cls [z] = true) ∧ (b = false → t.core.l1 = s.core.l1) := by
  have core : s.exch.core = { s.core with exchanging := true } := State.upd_core s _
  have fits : s.exch.core.pinFits x cls [z] = s.core.pinFits x cls [z] := by rw [core]; rfl
  have slots (c : Core) (b : Bool) : (c.setG g b).sys.slots = c.sys.slots := by unfold Core.setG; split <;> rfl
  have entries (c : Core) (b : Bool) : (c.setG g b).l1 = c.l1 := by unfold Core.setG; split <;> rfl
  rw [fits] at hexec
  cases hf : s.core.pinFits x cls [z] with
  | false =>
    simp only [hf, List.isEmpty_cons, Bool.not_false, Bool.false_eq_true, if_false, if_true] at hexec
    obtain ⟨t, ht, hret, hregs, hl1⟩ := retires_of_ok (t := s.exch.upd fun k => k.setG g false) (b := fun _ => done _) hg rfl
      (by rw [State.upd_core, slots, core])
    refine ⟨t, hexec.trans ht, hret, false, ?_, by simp, fun _ => ?_⟩
    · rw [hregs, State.upd_core]
      exact setG_registers (by rw [core]; rfl) g false
    · rw [hl1, State.upd_core, entries, core]
  | true =>
    obtain ⟨hl, hp⟩ := quiet_lone hz hq
    generalize hu : s.exch.upd (Core.touch [z]) = u at hexec hw
    have ucur : u.cur = s.cur := by rw [← hu]; rfl
    have ucore : u.core = Core.touch [z] { s.core with exchanging := true } := by rw [← hu, State.upd_core, core]
    have lone : Lone u u.cur z.1 z.2 := by
      rw [ucur]
      refine hl.congr (by rw [← hu]; rfl) (by rw [← hu]; rfl) fun j => ?_
      by_cases hj : s.cur.val = j
      · subst hj
        refine ⟨fun hne => absurd rfl hne, ?_⟩
        rw [show u.at s.cur = u.core by rw [← ucur]; exact State.at_cur u, ucore,
          show s.exch.at s.cur = s.exch.core from State.at_cur s.exch, core]
        exact List.Subset.refl _
      · rw [← hu, State.upd_at_ne s.exch hj]
        exact ⟨fun _ => rfl, List.Subset.refl _⟩
    obtain ⟨w, hw, -, hwregs, hwslots⟩ := pinPiece_lone (zone_single hz).2 (by rw [ucur]; exact hw) lone (by rw [← hu]; exact hp)
      (by rw [ucore]; exact (congrArg (fun c : Core => c.sys.inj.getLsbD 5) core).symm.trans hq.1)
    have pinned : State.countLater s.exch.cur (([z] : List (Nat × Nat)).foldlM (State.pinPiece s.exch.cur x cls) u) = .ok w := by
      rw [show s.exch.cur = u.cur from ucur.symm]
      simp only [List.foldlM_cons, List.foldlM_nil, hw, ok_bind]
      rfl
    simp only [hf, pinned, ok_bind, List.isEmpty_cons, Bool.not_true, Bool.false_eq_true, if_false] at hexec
    obtain ⟨t, ht, hret, hregs, -⟩ := retires_of_ok (t := w.upd fun k => k.setG g true) (b := fun _ => done _) hg rfl
      (by rw [State.upd_core, slots, hwslots, ucore]; rfl)
    refine ⟨t, hexec.trans ht, hret, true, ?_, by simp, nofun⟩
    rw [hregs, State.upd_core]
    exact setG_registers (hwregs.trans (by rw [ucore]; rfl)) g true

/-- The second part of O14. -/
theorem extentResults : Claims.ExtentResults := by
  intro s i h va n p z hi hg h0 hn ht hz hr hq hspan hpin
  have hexec := exec_zone hi h0 hn ht hz hr
  obtain ⟨hpos, hzone⟩ := zone_single hz
  cases i
  case rflush _ _ _ _ m =>
    have settled : ([z] : List (Nat × Nat)).foldl (fun u z => u.settleWb z.1 z.2) s.exch = s.exch := (quiet_lone hz hq).1.settleWb
    simp only [extentStep, settled] at hexec
    obtain ⟨t, hnext, hret, hregs, hall⟩ := zone_retires hg hexec
    refine ⟨t, hnext, hret, ⟨fun e he => (hall _ (Clean.hereditary z) (flushL1_clean hspan) e he).2, ?_, ?_⟩, hregs⟩
    · rintro rfl
      exact hall (Met z.1 z.2 fun st _ => st = .s) (Met.hereditary hpos fun _ _ _ => rfl) (flushL1_s hpos)
    · rintro rfl
      exact hall (Met z.1 z.2 fun _ p => p = true) (Met.hereditary hpos fun _ _ h => h) (flushL1_i hpos)
  case rdrop =>
    obtain ⟨t, hnext, hret, hregs, hall⟩ := zone_retires hg hexec
    exact ⟨t, hnext, hret, hall (Met z.1 z.2 fun _ p => p = true) (Met.hereditary hpos fun _ _ h => h) dropL1_pinned, hregs⟩
  case runpin =>
    obtain ⟨t, hnext, hret, hregs, hall⟩ := zone_retires hg hexec
    exact ⟨t, hnext, hret, hall (Met z.1 z.2 fun _ p => p = false) (Met.hereditary hpos fun _ _ h => h)
      (unpinL1_free hpos), hregs⟩
  case rpin h' g a im c x cls =>
    obtain rfl : h' = h := by simp only [Claims.extentOf, Option.some.injEq, Prod.mk.injEq] at hi; exact hi.1
    obtain ⟨t, hnext, hret, hguard⟩ := rpin_retires hg hz hq (hpin g a im c x cls rfl) hexec
    exact ⟨t, hnext, hret, trivial, hguard⟩
  all_goals simp [Claims.extentOf] at hi

end Sys2Proof.Machine

namespace Sys2Proof

open Machine

/-- Settles O14: the lengths that R108 sets apart are decided before the extent is translated; in one zone each instruction is one operation
on the entries, whose result the write-backs that follow keep. -/
theorem extents : Obligations.Extents := ⟨extentLengths, extentResults⟩

end Sys2Proof
end

section
/-! PROOFS. How an issued instruction ends, for every length of instruction: it completes (R19), it traps with a handler (R380, R381), it
waits (R148). -/

namespace Sys2Proof.Machine

set_option Elab.async false

open Claims (issued)

/-! ## The yield point (R26) -/

@[simp] theorem Core.atYield_ctx (y : Bool) (c : Core) : (Core.atYield y c).ctx = c.ctx := by unfold Core.atYield; split <;> rfl
@[simp] theorem Core.atYield_sys (y : Bool) (c : Core) : (Core.atYield y c).sys = c.sys := by unfold Core.atYield; split <;> rfl
@[simp] theorem Core.atYield_wait (y : Bool) (c : Core) : (Core.atYield y c).wait = c.wait := by unfold Core.atYield; split <;> rfl
@[simp] theorem Core.atYield_stalled (y : Bool) (c : Core) : (Core.atYield y c).stalled = c.stalled := by unfold Core.atYield; split <;> rfl

/-- Whether a core stops at a yield point does not turn on what completing an instruction moves. -/
@[simp] theorem Core.atYield_retire_settled (y : Bool) (c : Core) (d : Nat) (n : Word) (k : Nat) :
    (Core.atYield y (Core.retire d n k c)).settled = (Core.atYield y c).settled := by
  cases h : y && c.stopReq.isSome && !c.ctx.attached <;> simp only [Core.atYield, Core.retire_stopReq, Core.retire_ctx_attached, h] <;> rfl

/-! ## Completing -/

@[simp] theorem State.upd_id (s : State) : s.upd id = s := by simp [State.upd, State.setCore, State.core]

/-- Completing an instruction, a yield point or not, after a change of the running core that leaves the slot counter. -/
theorem completes_yield (s : State) {f : Core → Core} (y : Bool) (d : Nat) (n : Word) (h : (f s.core).sys.slots = s.core.sys.slots) :
    Completes s ((s.upd f).finish y d n) (Core.atYield y (f s.core)) n d where
  core := by simp
  pc := by simp
  slots := by simp [h]
  going := by simp [Core.retire]
  others i hi := by
    rw [State.finish_eq, State.upd_upd]
    exact State.upd_at_ne _ (Ne.symm hi) _
  mem a := by simp [State.finish_eq]
  device := by simp [State.finish_eq, State.rest]

/-- Completing with nothing done. -/
theorem finish_completes (s : State) (y : Bool) (d : Nat) (n : Word) : Completes s (s.finish y d n) (Core.atYield y s.core) n d := by
  have := completes_yield s (f := id) y d n rfl
  rwa [State.upd_id] at this

section
variable {s : State} {i : Instr} {y : Bool} {d n : Nat} {b : Body} {f : Core → Core}

/-- An issued instruction whose body updates the running core completes with that update. -/
theorem issue_completes (hi : exec i s = s.issue true y d n b) (hb : b s = .ok (s.upd f, none))
    (hf : (f s.core).sys.slots = s.core.sys.slots) :
    Yields s i fun t => Completes s t (Core.atYield y (f s.core)) (s.after n) d :=
  ⟨_, hi.trans (State.issue_ok hb), completes_yield s y d _ hf⟩

/-- An issued instruction whose body traps after an update of the running core that leaves its registers enters the handler. -/
theorem issue_enters (hi : exec i s = s.issue true y d n b) {x : Trap} (hb : b s = .error (.trap x (s.upd f)))
    (hf : (f s.core).ctx = s.core.ctx ∧ (f s.core).sys = s.core.sys) (hs : s.handles = true) :
    Yields s i fun t => Enters s t x (s.core.ctx.pc &&& 0x1FFFFFFFFFFFFF) 0 :=
  ⟨_, hi.trans (State.issue_halt hb), takeTrap_enters hs f hf x _⟩

/-- An issued instruction whose body waits, with nothing done, waits. -/
theorem issue_waits (hi : exec i s = s.issue true y d n b) {w : Wait} (hb : b s = .error (.wait w s)) :
    Yields s i fun t => Waits s t w := by
  refine ⟨_, hi.trans (State.issue_halt hb), ?_⟩
  simp only [State.halted, Waits, State.upd_core, State.upd_mem, true_and, and_true]
  omega

end

/-! ## The formats -/

section
variable {s : State} {h : Hd} (hg : s.core.guard h = true)
include hg

/-- A 64-bit instruction whose body updates the running core completes with that update. -/
theorem issue64_completes {i : Instr} {b : Body} {f : Core → Core} (hi : exec i s = s.issue64 h b) (hb : b s = .ok (s.upd f, none))
    (hf : (f s.core).sys.slots = s.core.sys.slots) :
    Yields s i fun t => Completes s t (f s.core) (s.after 8) h.dly.toNat := by
  rw [State.issue64, hg] at hi
  simpa using issue_completes hi hb hf

/-- A 64-bit instruction whose body traps after an update of the running core that leaves its registers enters the handler. -/
theorem issue64_enters {i : Instr} {b : Body} {f : Core → Core} (hi : exec i s = s.issue64 h b) {x : Trap}
    (hb : b s = .error (.trap x (s.upd f))) (hf : (f s.core).ctx = s.core.ctx ∧ (f s.core).sys = s.core.sys) (hs : s.handles = true) :
    Yields s i fun t => Enters s t x (s.core.ctx.pc &&& 0x1FFFFFFFFFFFFF) 0 := by
  rw [State.issue64, hg] at hi
  exact issue_enters hi hb hf hs

/-- A 64-bit instruction whose body waits, with nothing done, waits. -/
theorem issue64_waits {i : Instr} {b : Body} (hi : exec i s = s.issue64 h b) {w : Wait} (hb : b s = .error (.wait w s)) :
    Yields s i fun t => Waits s t w := by
  rw [State.issue64, hg] at hi
  exact issue_waits hi hb

end

/-- A 64-bit instruction that only updates the running core completes with that update. -/
theorem pure64_completes {s : State} {i : Instr} {h : Hd} {f : Core → Core} (hi : exec i s = s.pure64 h f) (g : s.core.guard h = true)
    (hf : (f s.core).sys.slots = s.core.sys.slots) :
    Yields s i fun t => Completes s t (f s.core) (s.after 8) h.dly.toNat :=
  ⟨_, hi.trans (State.pure64_on g f), completes_upd s f _ _ hf⟩

/-- A 128-bit instruction whose body completes. -/
theorem issue128_ok {s t : State} {h : Hx} {ops : List (Nat × HReg)} {b : Body} {p : Option Word} (hg : s.core.guardX h = true)
    (hb : b s = .ok (t, p)) : s.issue128 h ops b = .next ((t.upd (Core.bumps (postsOf h ops) [h.inc1, h.inc2, h.inc3])).finish
      h.yld h.dly.toNat (p.getD (s.core.ctx.pc + BitVec.ofNat 64 16))) := by
  rw [State.issue128, hg]
  exact State.issue_ok (by simp [hb])

@[simp] theorem Core.bumps_sys (rs : List HReg) (is : List (BitVec 16)) (c : Core) : (Core.bumps rs is c).sys = c.sys := by
  induction rs generalizing is c with
  | nil => rfl
  | cons r rs ih =>
    cases is with
    | nil => rfl
    | cons i is => exact ih is _

section
variable {s : State} {h : Hx} (hg : s.core.guardX h = true) {i : Instr} {ops : List (Nat × HReg)} {b : Body} {f : Core → Core}
  (hi : exec i s = s.issue128 h ops b)
include hg hi

/-- A 128-bit instruction whose body updates the running core completes with that update and its post-increments (R28). -/
theorem issue128_completes (hb : b s = .ok (s.upd f, none)) (hf : (f s.core).sys.slots = s.core.sys.slots) :
    Yields s i fun t => Completes s t (issued h ops (f s.core)) (s.after 16) h.dly.toNat := by
  rw [State.issue128, hg] at hi
  refine issue_completes (f := fun c => Core.bumps (postsOf h ops) [h.inc1, h.inc2, h.inc3] (f c)) hi ?_ (by simp [hf])
  simp [hb]

/-- A 128-bit instruction whose body traps after an update of the running core that leaves its registers enters the handler. -/
theorem issue128_enters {x : Trap} (hb : b s = .error (.trap x (s.upd f)))
    (hf : (f s.core).ctx = s.core.ctx ∧ (f s.core).sys = s.core.sys) (hs : s.handles = true) :
    Yields s i fun t => Enters s t x (s.core.ctx.pc &&& 0x1FFFFFFFFFFFFF) 0 := by
  rw [State.issue128, hg] at hi
  exact issue_enters hi (by simp [hb]) hf hs

end

@[simp] theorem State.exch_core (s : State) : s.exch.core = { s.core with exchanging := true } := State.upd_core _ _

end Sys2Proof.Machine
end

section
/-! PROOFS. Compares, guard logic and the guard words (R34, R60, R62). -/

namespace Sys2Proof.Machine

set_option Elab.async false

open Claims (condHolds guardWritten guardOf)

theorem icondHolds_iff (k : ICond) (a b : Word) : icondHolds k a b = true ↔ condHolds k a b := by
  cases k <;> simp [icondHolds, condHolds, BitVec.lt_def]

theorem gwrite_iff (w : GWrite) (old : Bool) {c : Bool} {k : Prop} (h : c = true ↔ k) : gwrite w old c = true ↔ guardWritten w old k := by
  cases w <;> simp [gwrite, guardWritten, h]

@[simp] theorem Core.setG_slots (c : Core) (g : GReg) (v : Bool) : (c.setG g v).sys.slots = c.sys.slots := by
  unfold Core.setG; split <;> rfl

/-- The instructions that write a guard do nothing else, and write whether the condition of the rule holds. -/
theorem exec_of_guardOf {s : State} {i : Instr} {h : Hd} {d : GReg} {k : Prop} (e : guardOf s.core i = some (h, d, k)) :
    ∃ f : Core → Bool, (exec i s = s.pure64 h fun c => c.setG d (f c)) ∧ (f s.core = true ↔ k) := by
  unfold guardOf at e
  split at e <;> cases e
  case h_1 x y k w =>
    exact ⟨fun c => gwrite w (c.getG d) (icondHolds k (c.getS x) (c.getS y)), rfl, gwrite_iff _ _ (icondHolds_iff ..)⟩
  case h_2 x i k w =>
    exact ⟨fun c => gwrite w (c.getG d) (icondHolds k (c.getS x) (imm21 i)), rfl, gwrite_iff _ _ (icondHolds_iff ..)⟩
  case h_3 a b => exact ⟨fun c => c.getG a && c.getG b, rfl, by simp⟩
  case h_4 a b => exact ⟨fun c => c.getG a || c.getG b, rfl, by simp⟩
  case h_5 a b => exact ⟨fun c => c.getG a != c.getG b, rfl, bne_iff_ne⟩
  case h_6 a b => exact ⟨fun c => c.getG a && !c.getG b, rfl, by simp⟩
  case h_7 a => exact ⟨fun c => !c.getG a, rfl, by simp⟩
  case h_8 a => exact ⟨fun c => c.getG a, rfl, Iff.rfl⟩
  case h_9 => exact ⟨fun _ => true, rfl, by simp⟩
  case h_10 => exact ⟨fun _ => false, rfl, by simp⟩

/-- The first part of O3. -/
theorem guardResults : Claims.GuardResults := by
  intro s i h d k e hg
  obtain ⟨f, hi, hf⟩ := exec_of_guardOf e
  exact ⟨f s.core, hf, pure64_completes hi hg (Core.setG_slots ..)⟩

@[simp] theorem Core.setS_slots (c : Core) (n : SReg) (v : Word) : (c.setS n v).sys.slots = c.sys.slots := Core.setS_sys_slots ..

/-- The guards as `GLOG.gtos` writes them: bit `n` is guard `n`, and there are no bits above the guards. -/
theorem Core.guardsWord_getLsbD (c : Core) (n : Nat) :
    c.guardsWord.getLsbD n = (decide (n < 16) && c.getG (BitVec.ofNat 4 n)) := by
  by_cases hn : n < 16
  · have : (1 : BitVec 16).getLsbD n = decide (BitVec.ofNat 4 n = 0) := by
      interval_cases n <;> rfl
    have h64 : n < 64 := by omega
    simp only [Core.guardsWord, Core.getG, BitVec.getLsbD_setWidth, BitVec.getLsbD_or, this, hn, h64, BitVec.toNat_ofNat,
      Nat.mod_eq_of_lt hn, decide_true, Bool.true_and, Bool.or_comm]
  · have h16 : 16 ≤ n := by omega
    simp only [Core.guardsWord, BitVec.getLsbD_setWidth, BitVec.getLsbD_of_ge _ _ h16, hn, decide_false, Bool.false_and, Bool.and_false]

/-- The second part of O3. -/
theorem guardWords : Claims.GuardWords := by
  intro s h x hg
  constructor
  · obtain ⟨t, ht, hc⟩ := pure64_completes (s := s) (i := .glog h (.gtos x)) (f := Core.glog (.gtos x)) rfl hg (Core.setS_slots ..)
    exact ⟨t, ht, s.core.guardsWord, hc, s.core.guardsWord_getLsbD⟩
  · obtain ⟨t, ht, hc⟩ := pure64_completes (s := s) (i := .glog h (.stog x)) (f := Core.glog (.stog x)) rfl hg rfl
    refine ⟨t, ht, _, hc, rfl, fun g => ?_⟩
    have := g.isLt
    simp [Core.glog, Core.getG, Core.updCtx, this, Bool.beq_eq_decide_eq]

end Sys2Proof.Machine

namespace Sys2Proof

set_option Elab.async false

/-- Settles O3: each of the instructions is one write of a guard, of a scalar or of the guard word, and completes with it. -/
theorem guardsWritten : Obligations.GuardsWritten := ⟨Machine.guardResults, Machine.guardWords⟩

end Sys2Proof
end

section
/-! PROOFS. The fields of handles (R37, R172). -/

namespace Sys2Proof.Machine

set_option Elab.async false

open Claims (fieldOf Settable)

/-! ## Reading and writing a field -/

theorem Handle.get_eq_fieldOf (k : Handle) (f : HField) : k.get f = fieldOf k f := by cases f <;> rfl

theorem fieldOf_lt (k : Handle) (f : HField) : fieldOf k f < 2 ^ 64 := by
  cases f <;> simp only [fieldOf]
  case space => split <;> decide
  all_goals omega

theorem setOk_iff (f : HField) (v : Nat) : setOk f v = true ↔ Settable v f := by
  cases f <;> simp [setOk, Settable] <;> omega

/-- A field reads back what it takes (R172). -/
theorem Handle.fieldOf_put_same (k : Handle) {f : HField} {v : Nat} (h : Settable v f) : fieldOf (k.put f v) f = v := by
  cases f <;> simp only [Settable] at h <;> simp only [Handle.put, fieldOf, BitVec.toNat_ofNat]
  case space => interval_cases v <;> rfl
  all_goals omega

/-- Writing a field leaves the others (R172). -/
theorem Handle.fieldOf_put_ne (k : Handle) {f g : HField} (v : Nat) (h : g ≠ f) : fieldOf (k.put f v) g = fieldOf k g := by
  cases f <;> cases g
  case base.base | space.space | fmt.fmt | cursor.cursor | layout.layout | planes.planes | tile.tile | block.block | ext0.ext0 |
    ext1.ext1 | ext2.ext2 | ext3.ext3 | stride1.stride1 | stride2.stride2 => exact absurd rfl h
  all_goals rfl

/-! ## The instructions -/

theorem exec_hset (s : State) (h : Hd) (a : HReg) (x : SReg) (f : HField) : exec (.hset h a x f) s = execHset h a x f s := rfl

section
variable {s : State} {h : Hd} (hg : s.core.guard h = true)
include hg

/-- `HSET` of a value that the field takes. -/
theorem hset_writes {a : HReg} {x : SReg} {f : HField} (hv : Settable (s.core.getS x).toNat f) :
    Yields s (.hset h a x f) fun t =>
      Completes s t (s.core.setH a ((s.core.getH a).put f (s.core.getS x).toNat)) (s.after 8) h.dly.toNat := by
  have hok := (setOk_iff ..).mpr hv
  have hfmt : f ≠ .fmt := by rintro rfl; exact hv
  refine issue64_completes hg (f := fun c => c.setH a ((c.getH a).put f (s.core.getS x).toNat)) ((exec_hset ..).trans rfl) ?_ rfl
  simp only [bne_iff_ne.mpr hfmt, hok, need, if_true]
  rfl

/-- `HSET` of a value that the field does not take. -/
theorem hset_refuses (hs : s.handles = true) {a : HReg} {x : SReg} {f : HField} (hv : ¬ Settable (s.core.getS x).toNat f) :
    Yields s (.hset h a x f) fun t => Enters s t
      (if f = .fmt then { cause := .illegal, detail := 5, addr := s.core.ctx.pc.toNat }
        else fmtTrap 1 (s.core.getH a) (if f = .tile then 3 else 1)) (s.core.ctx.pc &&& 0x1FFFFFFFFFFFFF) 0 := by
  have hbad : setOk f (s.core.getS x).toNat = false := by rw [← Bool.not_eq_true, setOk_iff]; exact hv
  refine issue64_enters hg (f := id) ((exec_hset ..).trans rfl) ?_ ⟨rfl, rfl⟩ hs
  rw [State.upd_id]
  by_cases hf : f = .fmt
  · subst hf
    rfl
  · simp only [hbad, bne_iff_ne.mpr hf, need, if_true, if_neg hf, Bool.false_eq_true, if_false, beq_iff_eq]
    rfl

end

/-- The first part of O17. -/
theorem handleFields : Claims.HandleFields := by
  intro s h d a b x f hg
  refine ⟨?_, fun hv => ?_, ?_⟩
  · obtain ⟨t, ht, hc⟩ := pure64_completes (i := .hget h d a f) (f := fun c => c.setS d (.ofNat 64 ((c.getH a).get f))) rfl hg
      (Core.setS_slots ..)
    refine ⟨t, ht, _, ?_, hc⟩
    rw [BitVec.toNat_ofNat, Handle.get_eq_fieldOf, Nat.mod_eq_of_lt (fieldOf_lt ..)]
  · obtain ⟨t, ht, hc⟩ := hset_writes hg hv
    exact ⟨t, ht, _, hc, Handle.fieldOf_put_same _ hv, fun g => Handle.fieldOf_put_ne _ _⟩
  · exact pure64_completes (f := fun c => c.setH a (c.getH b)) rfl hg rfl

/-- The second part of O17. -/
theorem handleRefusals : Claims.HandleRefusals := fun _ _ _ _ _ hg hs hv => hset_refuses hg hs hv

end Sys2Proof.Machine

namespace Sys2Proof

set_option Elab.async false

/-- Settles O17: `HSET` checks that the field is not FMT and takes the value, before it writes the field alone. -/
theorem handleAccess : Obligations.HandleAccess := ⟨Machine.handleFields, Machine.handleRefusals⟩

end Sys2Proof
end

section
/-! PROOFS. Instructions whose guard is false (R21, R26, R30). -/

namespace Sys2Proof.Machine

set_option Elab.async false
open Claims (hdOf hxOf)

/-! ## The shapes in which instructions issue -/

section
variable {s : State} {h : Hd} (hg : s.core.guard h = false)
include hg

theorem issue64_off {b : Body} : s.issue64 h b = .next (s.finish false h.dly.toNat (s.after 8)) := by
  rw [State.issue64, hg]; rfl

theorem issue96_off {b : Body} : s.issue96 h b = .next (s.finish false h.dly.toNat (s.after 12)) := by
  rw [State.issue96, hg]; rfl

theorem pure64_off {f : Core → Core} : s.pure64 h f = .next (s.finish false h.dly.toNat (s.after 8)) := issue64_off hg

theorem alu3_off {a b c : SReg} {f : Word → Word → Word} :
    s.alu3 h a b c f = .next (s.finish false h.dly.toNat (s.after 8)) := pure64_off hg

theorem aluI_off {a b : SReg} {v : Word} {f : Word → Word → Word} :
    s.aluI h a b v f = .next (s.finish false h.dly.toNat (s.after 8)) := pure64_off hg

theorem alu2_off {a b : SReg} {f : Word → Word} : s.alu2 h a b f = .next (s.finish false h.dly.toNat (s.after 8)) := pure64_off hg

theorem float3_off {a b c : SReg} {f : SFmt} {op : Core → FV → FV → FV × Fl} :
    s.float3 h a b c f op = .next (s.finish false h.dly.toNat (s.after 8)) := issue64_off hg

theorem jump64_off {f : Core → Word} {g : Core → Core} : s.jump64 h f g = .next (s.finish false h.dly.toNat (s.after 8)) := issue64_off hg

/-- An instruction of the 64- and 96-bit formats with a false guard leaves only its slots; `YIELD` alone is a yield point (R21, R26). -/
theorem exec_hd_off {i : Instr} {n : Nat} (e : hdOf i = some (h, n)) :
    ∃ y, exec i s = .next (s.finish y h.dly.toNat (s.after n)) ∧ (y = true ↔ i = .yield h) := by
  cases i <;> cases e <;> simp only [exec]
  case yield => exact ⟨true, by rw [execYield, hg]; rfl, by simp⟩
  all_goals refine ⟨false, ?_, by simp⟩
  case add | sub | and | or | xor | andn | shl | shr | sar | rot | min | max | minu | maxu | mul | mulh | mulhu | div | divu | rem |
    remu | mix => exact alu3_off hg
  case addImm | subImm | andImm | orImm | xorImm | andnImm | shlImm | shrImm | sarImm | rotImm | minImm | maxImm | minuImm | maxuImm =>
    exact aluI_off hg
  case clz | ctz | popc | brev | bswap | bfx => exact alu2_off hg
  case bfi | cmp | cmpi | sel | glog | movi => exact pure64_off hg
  case fadd | fsub | fmul | fdiv | fsqrt | fmin | fmax => exact float3_off hg
  case br | call | ret | jmpr => exact jump64_off hg
  case movw | brl | calll | ldx | hld | hst | hview | xstat | ccrd | send | cbinit | cbacq | cbcommit | mprog | rset | pdecl | pstate |
    pwait => exact issue96_off hg
  all_goals exact issue64_off hg

end

theorem issue128_off {s : State} {h : Hx} (hg : s.core.guardX h = false) {o : List (Nat × HReg)} {b : Body} :
    s.issue128 h o b = .next (s.finish h.yld h.dly.toNat (s.after 16)) := by
  rw [State.issue128, hg]; rfl

/-- An instruction of the 128-bit format with a false guard leaves only its slots, and is a yield point with YLD (R25, R26). -/
theorem exec_hx_off {s : State} {h : Hx} (hg : s.core.guardX h = false) {i : Instr} (e : hxOf i = some h) :
    exec i s = .next (s.finish h.yld h.dly.toNat (s.after 16)) := by
  cases i <;> cases e <;> simp only [exec] <;> exact issue128_off hg

end Sys2Proof.Machine

namespace Sys2Proof

set_option Elab.async false

open Machine

/-- Settles O24: what issuing an instruction does with a false guard is in the shape in which it issues, not in its body. -/
theorem guardedOff : Obligations.GuardedOff := by
  refine ⟨fun s dly => ⟨_, rfl, finish_completes s false _ _⟩, fun s i h n e hg => ?_, fun s i h e hg => ?_⟩
  · obtain ⟨y, hi, hy⟩ := exec_hd_off hg e
    refine ⟨_, hi, ?_⟩
    rw [← Bool.eq_iff_iff.mpr (hy.trans decide_eq_true_iff.symm)]
    exact finish_completes s y _ _
  · exact ⟨_, exec_hx_off hg e, finish_completes s h.yld _ _⟩

end Sys2Proof
end

section
/-! PROOFS. Tiles and transfers at issue (R173, R175, R380). -/

namespace Sys2Proof.Machine

set_option Elab.async false

open Claims (tileAt setTileAt issued)

/-! ## Entries of the tile table -/

theorem Core.tile_toNat (c : Core) (t : BitVec 5) : c.tile t.toNat = tileAt c t := by
  have := t.isLt
  simp [Core.tile, tileAt, Vector.getD, this]

theorem setIfInBounds_of_lt {α : Type} {m i : Nat} (v : Vector α m) (h : i < m) (a : α) : v.setIfInBounds i a = v.set i a h := by
  have : i < v.toArray.size := by simpa using h
  simp only [Vector.setIfInBounds, Vector.set, Array.setIfInBounds, this, dif_pos]

theorem Core.setTile_toNat (c : Core) (t : BitVec 5) (e : Tile) : c.setTile t.toNat e = setTileAt c t e := by
  rw [Core.setTile, Core.updCtx, setIfInBounds_of_lt _ t.isLt]
  rfl

/-- A tile that becomes empty is empty, or fills at once for the fill that waited (R173). -/
theorem Core.tileEmptied_toNat (c : Core) (t : BitVec 5) : ∃ k : Tile, c.tileEmptied t.toNat = setTileAt c t k ∧ k.flt = false ∧
    k.pend = false ∧ k.st = if (tileAt c t).pend then .filling else .empty := by
  unfold Core.tileEmptied Tile.emptied
  rw [c.tile_toNat]
  cases hp : (tileAt c t).pend
  · exact ⟨_, c.setTile_toNat t _, rfl, rfl, rfl⟩
  · exact ⟨_, c.setTile_toNat t _, rfl, rfl, rfl⟩

theorem Tile.fill_of_empty {e : Tile} (hp : e.pend = false) (hs : e.st = .empty) (k : BitVec 3) :
    e.fill k = some { e with st := .filling, flt := false, ch := k, done := 0 } := by simp [Tile.fill, hp, hs]

theorem Tile.fill_of_held {e : Tile} (hp : e.pend = false) (hs : e.st = .ready ∨ e.st = .draining) (k : BitVec 3) :
    e.fill k = some { e with pend := true } := by rcases hs with hs | hs <;> simp [Tile.fill, hp, hs]

theorem Tile.fill_of_filling {e : Tile} (h : e.pend = true ∨ e.st = .filling) (k : BitVec 3) : e.fill k = none := by
  rcases h with h | h <;> simp [Tile.fill, h]

theorem Tile.drain_of_ready {e : Tile} (hs : e.st = .ready) (k : BitVec 3) :
    e.drain k = some { e with st := .draining, flt := false, ch := k, done := 0 } := by simp [Tile.drain, hs]

theorem Tile.drain_of_filling {e : Tile} (hs : e.st = .filling) (hq : e.drainQ = false) (k : BitVec 3) :
    e.drain k = some { e with drainQ := true } := by simp [Tile.drain, hs, hq]

theorem Tile.drain_of_none {e : Tile} (h : e.st = .empty ∨ e.st = .draining ∨ (e.st = .filling ∧ e.drainQ = true)) (k : BitVec 3) :
    e.drain k = none := by
  rcases h with h | h | ⟨h, hq⟩ <;> simp [Tile.drain, *]

/-! ## `TREL` -/

theorem exec_trel (s : State) (h : Hd) (n : BitVec 5) : exec (.trel h n) s = execTrel h n s := rfl

/-- The third part of O19. -/
theorem tileReleases : Claims.TileReleases := by
  intro s h n hg hw e
  have hsat : (s.core.wait == some Wait.satisfied) = false := by simpa using hw
  refine ⟨fun hst => ?_, fun hst => ?_, fun hst => ?_⟩
  · refine issue64_completes hg (f := id) ((exec_trel ..).trans rfl) ?_ rfl
    simp only [hsat, Core.tile_toNat, show (tileAt s.core n).st = .empty from hst, State.upd_id]
    rfl
  · obtain ⟨k, hk, hflt, hpend, hkst⟩ := s.core.tileEmptied_toNat n
    have := issue64_completes hg (i := .trel h n) (f := fun c => c.tileEmptied n.toNat) ((exec_trel ..).trans rfl)
      (by simp only [hsat, Core.tile_toNat, show (tileAt s.core n).st = .ready from hst]; rfl) (by rw [hk]; rfl)
    rw [hk] at this
    obtain ⟨t, ht, hc⟩ := this
    exact ⟨t, ht, k, hc, hflt, hpend, hkst⟩
  · obtain ⟨t, ht, hwt⟩ := issue64_waits (i := .trel h n) hg (w := .emptied n.toNat) ((exec_trel ..).trans rfl) (by
      rcases hst with hst | hst <;> simp only [hsat, Core.tile_toNat, show (tileAt s.core n).st = _ from hst] <;> rfl)
    exact ⟨t, ht, _, hwt⟩

/-! ## Transfers -/

/-- The checks of a transfer pass, with what its tile's step gives. -/
structure Transfers (s : State) (hl hg : Handle) : Prop where
  fits : transferTrap hl hg = none
  inside : s.core.inPad hl.start hl.bytes = true
  free : s.exch.hold [hl, hg] = .ok ()

/-- The running core after a transfer has issued: the command is queued, its identifier taken, the tile stepped. -/
def transferred (kind : CopyKind) (hl hg : Handle) (fl : EFlags) (hint : BitVec 4) (n : BitVec 5) (k : BitVec 3) (e : Tile) (c : Core) : Core :=
  let c := { c with exchanging := true }
  (c.queueCopy (c.copyCmd kind k hl hg n.toNat fl hint)).setTile n.toNat e

theorem Core.nextOn_eq (c : Core) (k : BitVec 3) : c.nextOn k = c.ctx.nextId[k.toNat]'k.isLt := by
  have := k.isLt
  simp [Core.nextOn, Vector.getD, this]

theorem Core.queueCopy_eq (c : Core) (x : CopyCmd) : c.queueCopy x =
    { c with ctx := { c.ctx with nextId := c.ctx.nextId.set x.ch.toNat (x.id + 1) x.ch.isLt }, copies := c.copies ++ [x] } := by
  rw [Core.queueCopy, setIfInBounds_of_lt _ x.ch.isLt]

/-- The command that a transfer queues, and what else it changes of the core (R28, R173, R287). -/
theorem transferred_eq (kind : CopyKind) (hl hg : Handle) (fl : EFlags) (hint : BitVec 4) (n : BitVec 5) (k : BitVec 3) (e : Tile)
    (c : Core) : ∃ x : CopyCmd, x.kind = kind ∧ x.hl = hl ∧ x.hg = hg ∧ x.tile = n.toNat ∧ x.ch = k ∧ x.fl = fl ∧ x.hint = hint ∧
      x.done = 0 ∧ x.stop = none ∧ x.id = c.ctx.nextId[k.toNat]'k.isLt ∧
      transferred kind hl hg fl hint n k e c = setTileAt
        { c with exchanging := true, copies := c.copies ++ [x],
                 ctx := { c.ctx with nextId := c.ctx.nextId.set k.toNat (x.id + 1) k.isLt } } n e := by
  refine ⟨c.copyCmd kind k hl hg n.toNat fl hint, rfl, rfl, rfl, rfl, rfl, rfl, rfl, rfl, rfl, c.nextOn_eq k, ?_⟩
  rw [transferred, Core.setTile_toNat, Core.queueCopy_eq]
  rfl

section
variable {s : State} {hl hg : Handle} (hok : Transfers s hl hg) {kind : CopyKind} {fl : EFlags} {hint : BitVec 4} {n : BitVec 5}
  {k : BitVec 3} {step : Tile → BitVec 3 → Option Tile} {d : Nat}
include hok

/-- A transfer whose checks pass turns on the step of its tile. -/
theorem transfer_eq : s.transfer kind hl hg fl hint n k step d = match step (tileAt s.core n) k with
    | none => .error (.trap (starveTrap d n.toNat) s.exch)
    | some e => .ok (s.upd (transferred kind hl hg fl hint n k e), none) := by
  obtain ⟨hfit, hin, hfree⟩ := hok
  have hpad : s.exch.core.inPad hl.start hl.bytes = true := by rw [State.exch_core]; exact hin
  have htile : s.exch.core.tile n.toNat = tileAt s.core n := by rw [State.exch_core, Core.tile_toNat]; rfl
  simp only [State.transfer, hfit, hpad, hfree, htile, orTrap, need, if_true]
  cases step (tileAt s.core n) k with
  | none => rfl
  | some e => exact congrArg (fun t => Except.ok (t, none)) (State.upd_upd s _ _)

end

section
variable {s : State} {h : Hx} {a b : HReg} {fl : EFlags} {n : BitVec 5} {k : BitVec 3} {i : Instr} {kind : CopyKind}
  {step : Tile → BitVec 3 → Option Tile} {d : Nat} (hg : s.core.guardX h = true)
  (hi : exec i s = s.issue128 h [(0, a), (1, b)] fun s => s.transfer kind (s.core.getH a) (s.core.getH b) fl h.hint n k step d)
  (hok : Transfers s (s.core.getH a) (s.core.getH b))
include hg hi hok

/-- A transfer whose tile steps queues its command and completes (R175). -/
theorem transfer_issues {e : Tile} (hs : step (tileAt s.core n) k = some e) : Yields s i fun t => ∃ x : CopyCmd,
    x.kind = kind ∧ x.hl = s.core.getH a ∧ x.hg = s.core.getH b ∧ x.tile = n.toNat ∧ x.ch = k ∧ x.fl = fl ∧ x.hint = h.hint ∧
    x.done = 0 ∧ x.stop = none ∧ x.id = s.core.ctx.nextId[k.toNat]'k.isLt ∧
    Completes s t (issued h [(0, a), (1, b)] (setTileAt
      { s.core with exchanging := true, copies := s.core.copies ++ [x],
                    ctx := { s.core.ctx with nextId := s.core.ctx.nextId.set k.toNat (x.id + 1) k.isLt } } n e))
      (s.after 16) h.dly.toNat := by
  obtain ⟨x, hx1, hx2, hx3, hx4, hx5, hx6, hx7, hx8, hx9, hx10, hcore⟩ :=
    transferred_eq kind (s.core.getH a) (s.core.getH b) fl h.hint n k e s.core
  obtain ⟨t, ht, hc⟩ := issue128_completes hg hi (by rw [transfer_eq hok, hs]) (by rw [hcore]; rfl)
  exact ⟨t, ht, x, hx1, hx2, hx3, hx4, hx5, hx6, hx7, hx8, hx9, hx10, hcore ▸ hc⟩

/-- A transfer whose tile does not step starves (R173, R380). -/
theorem transfer_starves (hs : step (tileAt s.core n) k = none) (hh : s.handles = true) : Yields s i fun t =>
    Enters s t (starveTrap d n.toNat) (s.core.ctx.pc &&& 0x1FFFFFFFFFFFFF) 0 :=
  issue128_enters hg hi (f := fun c => { c with exchanging := true }) (by rw [transfer_eq hok, hs]; rfl) ⟨rfl, rfl⟩ hh

end

theorem exec_tfill (s : State) (h : Hx) (a b : HReg) (fl : EFlags) (n : BitVec 5) (k : BitVec 3) :
    exec (.tfill h a b fl n k) s = execTfill h a b fl n k s := rfl

theorem exec_tdrain (s : State) (h : Hx) (a b : HReg) (fl : EFlags) (n : BitVec 5) (k : BitVec 3) :
    exec (.tdrain h a b fl n k) s = execTdrain h a b fl n k s := rfl

/-- The first part of O19. -/
theorem transfersIssue : Claims.TransfersIssue := by
  intro s h a b fl n k hg hl hgl e hfit hin hfree queued
  have hok : Transfers s (s.core.getH a) (s.core.getH b) := ⟨hfit, hin, hfree⟩
  have fill {e' : Tile} := transfer_issues (e := e') hg ((exec_tfill s h a b fl n k).trans rfl) hok
  have drain {e' : Tile} := transfer_issues (e := e') hg ((exec_tdrain s h a b fl n k).trans rfl) hok
  exact ⟨fun hp hst => fill (Tile.fill_of_empty hp hst k), fun hp hst => fill (Tile.fill_of_held hp hst k),
    fun hst => drain (Tile.drain_of_ready hst k), fun hst hq => drain (Tile.drain_of_filling hst hq k)⟩

theorem starveTrap_eq (d : Nat) (hd : d < 2 ^ 8) (n : BitVec 5) :
    starveTrap d n.toNat = { cause := .starve, detail := d + n.toNat * 2 ^ 8 } := by
  have := n.isLt
  simp only [starveTrap, packFields, Nat.mod_eq_of_lt hd, Nat.mod_eq_of_lt this, Nat.zero_mul, Nat.add_zero, Nat.mul_comm]

/-- The second part of O19. -/
theorem tileStarvation : Claims.TileStarvation := by
  intro s h a b fl n k hg hh hl e hfit hin hfree starves
  have hok : Transfers s (s.core.getH a) (s.core.getH b) := ⟨hfit, hin, hfree⟩
  refine ⟨fun he => ?_, fun he => ?_⟩
  · have := transfer_starves hg ((exec_tfill s h a b fl n k).trans rfl) hok (Tile.fill_of_filling he k) hh
    rwa [starveTrap_eq 2 (by decide)] at this
  · have := transfer_starves hg ((exec_tdrain s h a b fl n k).trans rfl) hok (Tile.drain_of_none he k) hh
    rwa [starveTrap_eq 3 (by decide)] at this

end Sys2Proof.Machine

namespace Sys2Proof

set_option Elab.async false

/-- Settles O19: a transfer whose checks pass turns on the step of its tile, and `TREL` on the tile's state. -/
theorem tileTransfers : Obligations.TileTransfers := ⟨Machine.transfersIssue, Machine.tileStarvation, Machine.tileReleases⟩

end Sys2Proof
end

section
/-! PROOFS. A step executes the instruction at the program counter (R18, R73, R262). -/

namespace Sys2Proof.Machine

set_option Elab.async false

open Claims (AboutToFetch Ours uncached)

/-! ## Bytes and the instruction that they spell -/

theorem lenBytes_mod (w : Nat) : lenBytes (w % 4) = lenBytes w := by simp only [lenBytes, Nat.mod_mod]

theorem ofBytesLE_mod_four (bs : List Byte) : ofBytesLE bs % 4 = (bs.headD 0).toNat % 4 := by
  cases bs with
  | nil => rfl
  | cons b bs => rw [ofBytesLE, List.headD_cons]; omega

/-- Bytes that decode to one instruction alone: LEN in the first byte selects their number (R17), and the decoder reads the instruction
whatever follows them. -/
theorem decode_alone {bs : List Byte} {i : Instr} (h : decode bs = .ok (i, [])) : lenBytes ((bs.headD 0).toNat) = bs.length ∧
    bs.length ≤ 16 ∧ ∀ rest, decodeWord (ofBytesLE ((bs ++ rest).take 16)) = .ok (i, bs.length) := by
  obtain ⟨n, hn, hle, hd⟩ := decode_eq_ok h
  obtain ⟨h16, hwf, he⟩ := decodeWord_spelt hn
  obtain rfl : n = bs.length := Nat.le_antisymm hle (List.drop_eq_nil_iff.mp hd.symm)
  rw [List.take_of_length_le h16, Nat.mod_eq_of_lt (ofBytesLE_lt bs)] at he
  obtain ⟨hfits, hreads⟩ := readsAs_encodeWord i hwf
  refine ⟨?_, h16, fun rest => hreads he ?_⟩
  · rw [← lenBytes_mod, ← ofBytesLE_mod_four, lenBytes_mod, (hfits _ _ he).1]
  · rw [List.take_append, List.take_of_length_le h16, ofBytesLE_append_mod]

theorem Mem.read_add (m : Mem) (a j k : Nat) : m.read a (j + k) = m.read a j ++ m.read (a + j) k := by
  simp only [Mem.read_eq, List.range_add, List.map_append, List.map_map, Function.comp_def, Nat.add_assoc]

theorem Mem.read_drop (m : Mem) (a j k : Nat) : (m.read a (j + k)).drop j = m.read (a + j) k := by
  rw [Mem.read_add, List.drop_left' (Mem.read_length ..)]

theorem Mem.read_headD (m : Mem) {a n : Nat} (hn : n ≠ 0) : (m.read a n).headD 0 = m.get a := by
  cases n with
  | zero => exact absurd rfl hn
  | succ n => rfl

/-! ## What a fetch moves: the instruction cache of the core, and the L2s -/

/-- The state with other L2s, and another instruction cache of core `i`. -/
def State.warmed (s : State) (i : Nat) (d : Vector Die 2) (ic : List (Nat × List Byte)) : State :=
  State.on { s with dies := d } i fun c => { c with icache := ic }

theorem State.warmed_at (s : State) {i : Nat} (hi : i < 768) (d : Vector Die 2) (ic : List (Nat × List Byte)) :
    (s.warmed i d ic).at i = { s.at i with icache := ic } := State.on_at _ hi _

theorem State.warmed_at_ne (s : State) {i j : Nat} (h : i ≠ j) (d : Vector Die 2) (ic : List (Nat × List Byte)) :
    (s.warmed i d ic).at j = s.at j := State.on_at_ne _ h _

theorem State.warmed_uncached (s : State) {i : Nat} (hi : i < 768) (d : Vector Die 2) (ic : List (Nat × List Byte)) (j : Nat) :
    uncached ((s.warmed i d ic).at j) = uncached (s.at j) := by
  by_cases h : i = j
  · subst h
    rw [s.warmed_at hi]
    rfl
  · rw [s.warmed_at_ne h]

/-- A change that a core does not show is none. -/
theorem State.on_self {s : State} {i : Nat} {f : Core → Core} (h : f (s.at i) = s.at i) : s.on i f = s := by
  have hc : s.cores.setIfInBounds i (s.at i) = s.cores := by
    ext j hj : 1
    rw [Vector.getElem_setIfInBounds]
    split
    · next hij => subst hij; exact s.at_eq hj
    · rfl
  rw [State.on, State.put, h, hc]

theorem State.warmed_self (s : State) (i : Nat) : s.warmed i s.dies (s.at i).icache = s := State.on_self rfl

theorem State.warmed_warmed (s : State) (i : Nat) (d d' : Vector Die 2) (ic ic' : List (Nat × List Byte)) :
    (s.warmed i d ic).warmed i d' ic' = s.warmed i d' ic' :=
  State.on_on { s with dies := d' } i (fun c => { c with icache := ic }) fun c => { c with icache := ic' }

/-- Bytes that came into an L2 are written into the instruction cache. -/
theorem State.l2Hold_on_icache (s : State) (i : Nat) (who : Option Nat) (pa n : Nat) (f : List (Nat × List Byte) → List (Nat × List Byte)) :
    ((s.l2Hold who false pa n).on i fun c => { c with icache := f c.icache }) =
      s.warmed i (s.l2Hold who false pa n).dies (f (s.at i).icache) := rfl

/-- The instruction cache entries hold what the memory holds. -/
def Mem.Agrees (m : Mem) (ic : List (Nat × List Byte)) : Prop := ∀ x ∈ ic, x.2 = m.read x.1 16

/-- The granule at `g` is the device's own, sound, and enters core `i` without a report. -/
structure Enterable (s : State) (i g : Nat) : Prop where
  core : i < 768
  ours : Ours s g 16
  sound : s.poisoned g 16 = none
  quiet : (s.at i).sys.inj = 0

theorem comes_of_ours {s : State} {pa n : Nat} (h : Ours s pa n) (i : Nat) : s.comes i false pa n = none := by
  obtain ⟨hr, hk⟩ := h
  have hh : s.heldElsewhere pa n = false := by
    simp only [State.knownElsewhere, State.heldElsewhere, List.any_eq_false, Bool.not_eq_true, Bool.and_eq_false_iff] at hk ⊢
    exact fun r hm => .inr (hk r hm)
  simp only [State.comes, hr, hh, Bool.false_eq_true, if_false]

section
variable {s : State} {i : Nat} {d : Vector Die 2} {ic : List (Nat × List Byte)} (hic : s.mem.Agrees ic)
include hic

/-- A granule is fetched as the memory holds it, from the instruction cache or from its home (R262). -/
theorem granule_warms {g : Nat} (hg : Enterable s i g) : ∃ d' ic', s.mem.Agrees ic' ∧
    (s.warmed i d ic).granule i g = .ok (s.warmed i d' ic', s.mem.read g 16) := by
  obtain ⟨hi, ours, sound, quiet⟩ := hg
  have hat := s.warmed_at hi d ic
  have ours' : Ours (s.warmed i d ic) g 16 := ours
  have enter : ∃ d' ic', s.mem.Agrees ic' ∧
      State.granule.enter i g (s.warmed i d ic) (s.mem.read g 16) = .ok (s.warmed i d' ic', s.mem.read g 16) := by
    have entered := State.enters_served (s := s.warmed i d ic) (i := i) (hint := 0) sound (comes_of_ours ours' i) (by rw [hat]; simp [quiet])
    refine ⟨((s.warmed i d ic).l2Hold (some i) false g 16).dies, (g, s.mem.read g 16) :: ic.filter (·.1 != g), ?_, ?_⟩
    · exact List.forall_mem_cons.mpr ⟨rfl, fun x hx => hic x (List.mem_of_mem_filter hx)⟩
    · rw [State.granule.enter, entered, ok_bind, State.l2Hold_on_icache (f := fun ic => (g, s.mem.read g 16) :: ic.filter (·.1 != g)),
        s.warmed_warmed, hat]
      rfl
  have hmem : (s.warmed i d ic).mem = s.mem := rfl
  cases hf : ic.find? (·.1 == g) with
  | none => simpa only [State.granule, hat, hmem, hf] using enter
  | some e =>
    have he : e.2 = s.mem.read g 16 := by
      have hk : e.1 = g := by simpa using List.find?_some hf
      rw [hic e (List.mem_of_find?_eq_some hf), hk]
    refine ⟨d, ic, hic, ?_⟩
    simp only [State.granule, hat, hmem, hf, he, beq_self_eq_true, Bool.true_or, if_true]

theorem fetchBytes_one {pa : Nat} (hg : Enterable s i (granuleOf pa)) : ∃ d' ic', s.mem.Agrees ic' ∧
    (s.warmed i d ic).fetchBytes i pa false = .ok (s.warmed i d' ic', s.mem.read pa (16 - pa % 16)) := by
  obtain ⟨d', ic', hic', h⟩ := granule_warms (d := d) hic hg
  have hb : (s.mem.read (granuleOf pa) 16).drop (pa % 16) = s.mem.read pa (16 - pa % 16) := by
    have := s.mem.read_drop (granuleOf pa) (pa % 16) (16 - pa % 16)
    rwa [Nat.add_sub_cancel' (by omega), show granuleOf pa + pa % 16 = pa by unfold granuleOf; omega] at this
  refine ⟨d', ic', hic', ?_⟩
  rw [State.fetchBytes, h, ← hb]
  rfl

theorem fetchBytes_two {pa : Nat} (hg : Enterable s i (granuleOf pa)) (hg' : Enterable s i (granuleOf pa + 16)) :
    ∃ d' ic', s.mem.Agrees ic' ∧
      (s.warmed i d ic).fetchBytes i pa true = .ok (s.warmed i d' ic', s.mem.read pa (32 - pa % 16)) := by
  obtain ⟨d1, ic1, hic1, h1⟩ := granule_warms (d := d) hic hg
  obtain ⟨d2, ic2, hic2, h2⟩ := granule_warms (d := d1) hic1 hg'
  have hb : (s.mem.read (granuleOf pa) 16 ++ s.mem.read (granuleOf pa + 16) 16).drop (pa % 16) = s.mem.read pa (32 - pa % 16) := by
    have := s.mem.read_drop (granuleOf pa) (pa % 16) (32 - pa % 16)
    rwa [Nat.add_sub_cancel' (by omega), show granuleOf pa + pa % 16 = pa by unfold granuleOf; omega, s.mem.read_add _ 16 16] at this
  refine ⟨d2, ic2, hic2, ?_⟩
  simp only [State.fetchBytes, h1, h2, ok_bind, if_true, ← hb]
  rfl

end

/-! ## The turn of the core -/

theorem Sys.honour_of_none {y : Sys} (h : y.owed = 0) :
    { y with slots := y.slots + BitVec.ofNat 64 y.owed, cyc := y.cyc + BitVec.ofNat 64 y.owed, owed := 0 } = y := by
  cases y
  subst h
  simp

theorem Core.honour_of_none {c : Core} (h : c.sys.owed = 0) : c.honour = c := by
  rw [Core.honour, Sys.honour_of_none h]

theorem window_inside {pa g : Nat} (hl : pa / 32 * 32 ≤ g) (hu : g + 16 ≤ pa / 32 * 32 + 32) : Inside (g, 16) (pa / 32 * 32, 32) :=
  ⟨hl, Nat.zero_lt_succ _, hu, by simp only; omega⟩

/-- Bytes in memory that begin with those of an instruction are decoded to it. -/
theorem fetched_of_decode {m : Mem} {pa n k : Nat} {ins : Instr} (hd : decode (m.read pa n) = .ok (ins, [])) (hk : n ≤ k) (c : Core)
    (u : State) : fetched c u (m.read pa k) = .ok u ins n := by
  obtain ⟨-, -, hdec⟩ := decode_alone hd
  rw [Mem.read_length] at hdec
  rw [fetched, ← Nat.add_sub_cancel' hk, m.read_add, hdec]

section
variable {s : State} {i pa : Nat} (h : AboutToFetch s i pa)
include h

/-- The granules of the window that holds the program counter enter the core. -/
theorem window_enterable {g : Nat} (hl : pa / 32 * 32 ≤ g) (hu : g + 16 ≤ pa / 32 * 32 + 32) : Enterable s i g := by
  obtain ⟨hi, -, ⟨-, -, -, -, -, -, hinj⟩, -, -, hours, hsound, -⟩ := h
  exact ⟨hi, (window_inside hl hu).ours hours, (window_inside hl hu).poisoned hsound, hinj⟩

theorem granule_enterable : Enterable s i (granuleOf pa) := by
  apply window_enterable h <;> unfold granuleOf <;> omega

/-- The second granule of the window, where the program counter lies in the first. -/
theorem next_granule_enterable (hlow : pa % 32 < 16) : Enterable s i (granuleOf pa + 16) := by
  apply window_enterable h <;> unfold granuleOf <;> omega

/-- The fetch gives the instruction that the bytes in memory decode to (R18, R262). -/
theorem fetch_of_decode {n : Nat} {ins : Instr} (hd : decode (s.mem.read pa n) = .ok (ins, [])) (hn : pa % 32 + n ≤ 32) :
    ∃ d ic, s.fetch i = .ok (s.warmed i d ic) ins n := by
  obtain ⟨left, hmap⟩ := h.mapped
  obtain ⟨hpc, hpa⟩ := h.place
  obtain ⟨-, -, hclean⟩ := h.clean
  have hpc4 : ((s.at i).ctx.pc.toNat % 4 != 0) = false := by simp only [bne_eq_false_iff_eq]; omega
  have hwin : ¬ 32 < (s.at i).ctx.pc.toNat % 32 + n := by omega
  obtain ⟨hlen, h16, hdec⟩ := decode_alone hd
  rw [Mem.read_length] at hlen h16
  have hn0 : n ≠ 0 := by
    rintro rfl
    exact absurd (hdec []) nofun
  have head : lenBytes ((s.mem.read pa (16 - pa % 16)).headD 0).toNat = n := by
    rw [s.mem.read_headD (by omega), ← s.mem.read_headD hn0, hlen]
  obtain ⟨d, ic, hic, one⟩ := fetchBytes_one (d := s.dies) hclean (granule_enterable h)
  rw [s.warmed_self] at one
  by_cases hle : n ≤ 16 - pa % 16
  · refine ⟨d, ic, ?_⟩
    simp only [State.fetch, hpc4, Bool.false_eq_true, if_false, hmap, one, head, hn0, hwin, Mem.read_length, hle, if_true,
      fetched_of_decode hd hle]
  · obtain ⟨d', ic', -, two⟩ := fetchBytes_two (d := d) hic (granule_enterable h) (next_granule_enterable h (by omega))
    refine ⟨d', ic', ?_⟩
    simp only [State.fetch, hpc4, Bool.false_eq_true, if_false, hmap, one, head, hn0, hwin, Mem.read_length, hle, two,
      fetched_of_decode hd (show n ≤ 32 - pa % 16 by omega)]

/-- The core has nothing to do before it issues (R19, R179, R237). -/
theorem turn_of_nothing_due : s.turn i = s.issueAt i := by
  obtain ⟨hi, ⟨hlaunch, hphase, hstopped, -, -⟩, ⟨hpend, hsend, hfrozen, hresume, hfaults, howed, hinj⟩, -⟩ := h
  have htakes : (s.at i).takesFault = false := by simp [Core.takesFault, hfaults]
  have hstart : (s.on i fun c => { c with phase := .running }) = s := State.on_self (by rw [← hphase])
  have hslot : (s.at i).nextSlot = (s.at i).sys.slots.toNat := by simp [Core.nextSlot, howed]
  have hring : (firstRing (s.ringIn i)).filter (·.1 ≤ (s.at i).sys.slots.toNat) = none := by simpa [State.dueSend] using hsend
  have hland : s.landUpTo i (s.at i).sys.slots.toNat = .ok s := by
    simp only [State.landUpTo, hpend, State.landTo, firstPend, Option.filter_none, hring, hfrozen, Bool.false_eq_true, if_false]
  have hhonour : s.on i Core.honour = s := State.on_self (Core.honour_of_none howed)
  have hbit : bitAt (s.at i).sys.inj.toNat 0 = false := by rw [hinj]; rfl
  have hnone : (s.at i).launch.isNone = false := by simpa using hlaunch
  have hturn : s.issueTurn i = s.issueAt i := by rw [State.issueTurn, hhonour, ite_self]
  simp only [State.turn, htakes, Bool.and_false, Bool.false_eq_true, if_false, hnone, hstopped, hphase, hstart, hslot, hland,
    State.goOn, hresume, hbit, Bool.false_and, hturn, Bool.or_false, beq_self_eq_true, Bool.true_or, Bool.not_true]

end

/-- A core that follows none and that none follows executes what it has fetched (R18, R154). -/
theorem issueAt_of_fetch {s u : State} {i n : Nat} {ins : Instr} (ha : (s.at i).ctx.attached = false) (hs : s.attachedOf i = [])
    (hu : u.attachedOf i = []) (hf : s.fetch i = .ok u ins n) : s.issueAt i = exec ins (u.as i) := by
  have hfar : s.farAhead i = false := by rw [State.farAhead, hs]; rfl
  simp only [State.issueAt, ha, hfar, hf, State.lead, hu, Bool.and_false, Bool.false_eq_true, if_false, List.isEmpty_nil, if_true]

theorem State.warmed_attachedOf (s : State) {i : Nat} (hi : i < 768) (d : Vector Die 2) (ic : List (Nat × List Byte)) (k : Nat) :
    (s.warmed i d ic).attachedOf k = s.attachedOf k := by
  have same (j : Nat) := s.warmed_uncached hi d ic j
  have hctx (j : Nat) : ((s.warmed i d ic).at j).ctx = (s.at j).ctx := (congrArg Core.ctx (same j) :)
  have hlaunch (j : Nat) : ((s.warmed i d ic).at j).launch = (s.at j).launch := (congrArg Core.launch (same j) :)
  have hphase (j : Nat) : ((s.warmed i d ic).at j).phase = (s.at j).phase := (congrArg Core.phase (same j) :)
  have hof : (s.warmed i d ic).followersOf k = s.followersOf k := by
    simp only [State.followersOf, State.launchOf, hlaunch]
    rfl
  simp only [State.attachedOf, hof, hctx, hlaunch, hphase]

end Sys2Proof.Machine

namespace Sys2Proof

set_option Elab.async false

open Machine Claims

/-- Settles O54: nothing is due before the core issues, the fetch gives the instruction that the bytes decode to and changes the
instruction cache and the L2s alone, and a core without a chain executes it. -/
theorem stepRunsDecoded : Obligations.StepRunsDecoded := by
  unfold Obligations.StepRunsDecoded
  intro s rest i pa n ins hag v hv hd hn
  rw [← Mem.read_eq] at hd
  obtain ⟨d, ic, hf⟩ := fetch_of_decode hv hd hn
  obtain ⟨-, -, -, hatt, hfol⟩ := hv.runs
  have hi := hv.core
  have hcur : ((v.warmed i d ic).as i).cur.val = i := by rw [State.as, dif_pos hi]
  have hturn : v.turn i = exec ins ((v.warmed i d ic).as i) := by
    rw [turn_of_nothing_due hv, issueAt_of_fetch hatt hfol ((v.warmed_attachedOf hi d ic i).trans hfol) hf]
  refine ⟨(v.warmed i d ic).as i, ?_, ?_, hcur, fun j hj => ?_, ?_, ?_⟩
  · rw [State.as, dif_pos hi]; rfl
  · rw [State.as, dif_pos hi]; rfl
  · rw [State.as, dif_pos hi]; exact v.warmed_at_ne hj.symm d ic
  · rw [State.as, dif_pos hi]; exact v.warmed_uncached hi d ic i
  · have hmove : s.nextMove = some (.issue i, v) := by rw [State.nextMove, hag]
    have hmake : v.make (.issue i) = exec ins ((v.warmed i d ic).as i) := hturn
    cases he : exec ins ((v.warmed i d ic).as i) <;> simp only [step, hmove, hmake, he]

end Sys2Proof
end

section
/-! PROOFS. A statement that fails in supervisor mode (R378): O55. -/

namespace Sys2Proof.Machine

set_option Elab.async false

open Claims Tests

/-- `MOVI s32, 1` in supervisor mode. -/
theorem movi_super : ∃ t, exec (.movi hd 32 1) Tests.super = .next t ∧ t.core.sys.supFrame ≠ Tests.super.core.sys.supFrame := by
  have issues : exec (.movi hd 32 1) Tests.super = Tests.super.pure64 hd fun c => c.setS 32 (imm21 1) := rfl
  refine ⟨_, issues.trans (State.pure64_on (by decide +kernel) _), ?_⟩
  simp only [State.finish_core, State.upd_core, Core.atYield_false, Core.retire_sys_supFrame]
  decide +kernel

end Sys2Proof.Machine

namespace Sys2Proof

set_option Elab.async false

open Machine Claims Tests

/-- Refutes O55: in supervisor mode `s32` to `s63` name the supervisor frame (R378), which is none of the registers that the statement
lets an instruction change. -/
theorem not_registerInstructionsComplete : ¬ Obligations.RegisterInstructionsComplete := by
  unfold Obligations.RegisterInstructionsComplete
  intro h
  obtain ⟨t, ht, -, -, -, -, hcore, -⟩ := h Tests.super (.movi hd 32 1) hd 8 rfl rfl rfl
  obtain ⟨t', ht', hne⟩ := movi_super
  obtain rfl : t = t' := Host.Outcome.next.inj (ht.symm.trans ht')
  exact hne (by rw [hcore])

end Sys2Proof
end

section
/-! PROOFS. A statement that fails where a walk of the page table ends the launch (R319) while a target is translated: O38. -/

namespace Sys2Proof.Machine

set_option Elab.async false

open Claims Tests

/-- No `acq`, no `rel`. -/
def unordered : EFlags := { acq := false, rel := false, scope := .core }

/-- The plate at 64. -/
def target : Handle := { local' 4096 0x02 4 with pad := false }

/-- A walk of the page at 0 under the root 0x10000. -/
def doomedWalk : Walk := { asid := 0, root := 0x10000, va := 0, cores := [0] }

/-- A `PUT` to the plate at 64, on a core that has passed five slots. -/
def slotted : State := (porting 0xFF 0x8000000000000040 1).upd fun c => { c with sys := { c.sys with slots := 5 } }

/-- The walk of the plate's page is under way, under the launch's root, in a table that is poisoned, so that the launch ends when the
translation finds it; the page at 0 is mapped under the root 0, the one of a core without a launch. -/
def losing : State :=
  let s := launched (fun l => { l with record := { l.record with root := 0x10000 } }) slotted
  word8 0 101 { s.setDie 0 { s.die 0 with walks := [doomedWalk] } with poison := [0x10000] }

theorem losing_operands : losing.core.getH 0 = local' 256 0x02 4 ∧ losing.core.getH 1 = local' 512 0x23 4 ∧ losing.core.getS 2 = 1 ∧
    losing.core.guardX hx = true ∧ losing.core.sys.slots = 5 := by decide +kernel

/-! ## The launch ends -/

/-- Core 0 has joined the walk of the page. -/
def missed : State := losing.exch.setDie 0 ((losing.exch.die 0).request 0 0x10000 64 0)

/-- The walk has ended, and the launch with it. -/
def lost : State := (missed.dropWalk 0 0).endLaunch 0 12 0x10000

theorem State.poisonLaunch_silent {s : State} {q : Word} {g : Nat} (he : s.events.en = false) (hr : s.isRemote g = false) :
    s.poisonLaunch (some q) g = s.endLaunch q 12 (BitVec.ofNat 64 (physOf g)) := by
  have silent (a : Word) : s.event 7 6 0 a (physOf g) = s := by simp [State.event, he]
  simp only [State.poisonLaunch, silent, hr, Bool.false_eq_true, if_false]

theorem State.walk_poisoned {s : State} {i : Nat} {asid : BitVec 12} {root va : Nat} {n : Need} {fuel table g : Nat}
    (h : s.poisoned (table + 8 * field va (43 - 10 * (3 - fuel)) 10) 8 = some g) :
    s.walk i asid root va n (fuel + 1) table = (s, .error (.poisoned g)) := by
  simp only [State.walk, h]

theorem missed_walk : (missed.die 0).walks[0]? = some doomedWalk ∧ missed.poisoned 0x10000 8 = some 0x10000 ∧
    missed.attached doomedWalk = [0] := by decide +kernel

theorem missed_ends : missed.endWalk 0 0 = lost := by
  obtain ⟨hw, hp, ha⟩ := missed_walk
  rw [State.endWalk_poisoned hw (State.walk_poisoned hp), ha]
  have hl : ((missed.dropWalk 0 0).at 0).launch = some 0 := by decide +kernel
  have hs : (missed.dropWalk 0 0).events.en = false ∧ (missed.dropWalk 0 0).isRemote 0x10000 = false := by decide +kernel
  rw [List.foldl_cons, List.foldl_nil, State.poisonEnds, hl, State.poisonLaunch_silent hs.1 hs.2]
  rfl

theorem State.walkersFor_none {s : State} {d k : Nat} (hk : k < 64) : s.walkersFor d k = s := by
  rw [State.walkersFor, Nat.sub_eq_zero_of_le (by omega), List.range_zero, List.foldl_nil]

/-- A miss joins the walk of its page that is under way, and the walk ends. -/
theorem State.seize_found {s : State} {i va root k : Nat} {a : BitVec 12} (hs : s.space i = (a, root))
    (hf : ((s.die (dieOf i)).walks.findIdx? fun w => w.root == root && onePage w.va va) = some k) (hk : k < 64) :
    s.seize i va = (s.setDie (dieOf i) ((s.die (dieOf i)).request a root va i)).endWalk (dieOf i) k := by
  unfold State.seize
  simp only [hs, hf, Option.getD_some, State.walkersFor_none hk]
  rw [if_pos hk]

theorem losing_walk : losing.exch.space 0 = (0, 0x10000) ∧
    ((losing.exch.die 0).walks.findIdx? fun w => w.root == 0x10000 && onePage w.va 64) = some 0 := by decide +kernel

theorem losing_seize : losing.exch.seize 0 64 = lost := by
  obtain ⟨hs, hf⟩ := losing_walk
  exact (State.seize_found hs hf (by decide)).trans missed_ends

theorem losing_cores : losing.cores = slotted.cores := rfl

theorem State.at_congr {s t : State} (h : s.cores = t.cores) (k : Nat) : s.at k = t.at k := by simp only [State.at, h]

theorem State.reset_at (k : Nat) : State.reset.at k = Core.reset := by
  unfold State.at
  split
  · exact Vector.getElem_replicate ..
  · rfl

theorem user_at_ne {k : Nat} (hk : 0 ≠ k) : user.at k = Core.reset := by
  rw [user, State.upd_at_ne _ hk, State.withFetchWord, State.on_at_ne _ hk, ← State.reset_at k]
  exact State.at_congr rfl k

/-- The other cores are idle. -/
theorem losing_at_ne {k : Nat} (hk : 0 ≠ k) : losing.exch.at k = Core.reset := by
  have hv {s : State} (hs : s.cur.val ≠ k) (l : List Word) : (vals l s).at k = s.at k := State.upd_at_ne s hs _
  have hh {s : State} (hs : s.cur.val ≠ k) (l : List Handle) : (hands l s).at k = s.at k := State.upd_at_ne s hs _
  have hl : losing.at k = slotted.at k := State.at_congr losing_cores k
  rw [State.exch, State.upd_at_ne losing hk, hl, slotted, State.upd_at_ne _ hk, porting, State.upd_at_ne _ hk, hv hk, hh hk, user_at_ne hk]

/-- The launch has core 0 alone. -/
theorem missed_coresOf : (missed.dropWalk 0 0).coresOf 0 = [0] := by
  have h0 : (losing.exch.at 0).launch = some 0 := by decide +kernel
  have hk (k : Nat) : ((losing.exch.at k).launch == some 0) = decide (k = 0) := by
    by_cases hk : 0 = k
    · subst hk
      rw [h0]
      rfl
    · rw [losing_at_ne hk, decide_eq_false (Ne.symm hk)]
      rfl
  have hc : (missed.dropWalk 0 0).coresOf 0 = (List.range 768).filter fun k => decide (k = 0) := by
    refine List.filter_congr fun k _ => ?_
    rw [State.at_congr (show (missed.dropWalk 0 0).cores = losing.exch.cores from rfl), hk]
  rw [hc]
  decide +kernel

/-! ## The translation goes on without it -/

/-- A miss whose seizing has left the page missing walks. -/
theorem State.translate_walks {s s' : State} {i va : Nat} {n : Need} (hv : va < 2 ^ 53)
    (hm : findTlb (s.space i).1 (s.space i).2 va (s.at i).tlb = none) (hs : s.seize i va = s')
    (hm' : findTlb (s.space i).1 (s.space i).2 va (s'.at i).tlb = none) (hl : (s'.die (dieOf i)).walks.length < 64) :
    s.translate i n va = s'.walkFor i n va := by
  unfold State.translate
  rw [if_neg (by omega)]
  simp only [hm, Option.isNone_none, if_true, hs, hm', if_neg (Nat.not_le.mpr hl)]

/-- An access inside a page that a walk finds is one piece. -/
theorem State.pieces_one {s t : State} {i va len pa left : Nat} {n : Need} (h : s.translate i n va = (t, .ok (pa, left))) (hn : 0 < len)
    (hl : len ≤ left) : s.pieces i n va len = .ok (t, [(va, pa, len)]) := by
  have hall : s.translateAll i n va len = (t, [(va, pa, len)], none) := by
    simp only [State.translateAll, State.translateFrom, Nat.ne_of_gt hn, if_false, h, Nat.min_eq_left hl, Nat.sub_self]
    cases len / 8192 <;> simp
  simp only [State.pieces, hall]

/-- A plate that the core holds is read without a fill. -/
theorem State.readPlate_held {s t : State} {va pa left : Nat} (ha : va % 64 = 0)
    (h : s.translate s.cur.val s.core.reads va = (t, .ok (pa, left))) (hl : 64 ≤ left) (hp : t.core.plates.any (·.1 == pa) = true) :
    s.readPlate va = .ok (t.upd fun c => { c with plates := (cacheRead 32 pa 64 t.core.plates (t.memFor s.cur)).2 },
      ofBytesLE (cacheRead 32 pa 64 t.core.plates (t.memFor s.cur)).1) := by
  have haligned : (va % 64 == 0) = true := beq_iff_eq.mpr ha
  simp only [State.readPlate, need, haligned, if_true, State.pieces_one h (by decide) hl, ok_bind, List.headD_cons, hp]
  rfl

theorem State.portTarget_plate {s t : State} {v : Word} {w : Nat} (hk : v.toNat / 2 ^ 62 = 2) (hz : field v.toNat 53 9 = 0)
    (h : s.readPlate (field v.toNat 0 53) = .ok (t, w)) :
    s.portTarget false v = .ok (t, .plate (Handle.ofPlate w), some (Handle.ofPlate w)) := by
  simp only [State.portTarget, hk, hz, h, ok_bind]
  rfl

/-- A walk has answered with a held plate, `target`, in a state whose running core has lost its count of slots. -/
def Lost (t : State) : Except NoPage (Nat × Nat) → Bool
  | .ok (pa, left) => decide (64 ≤ left) && t.core.plates.any (·.1 == pa) &&
      decide (Handle.ofPlate (ofBytesLE (cacheRead 32 pa 64 t.core.plates (t.memFor 0)).1) = target) &&
      t.core.sys.slots == 0 && t.core.padKiB == 64
  | .error _ => false

theorem lost_misses : findTlb 0 0x10000 64 (lost.at 0).tlb = none ∧ (lost.die 0).walks.length < 64 := by
  unfold lost State.endLaunch
  rw [missed_coresOf]
  decide +kernel

theorem lost_walks : Lost (lost.walkFor 0 losing.exch.core.reads 64).1 (lost.walkFor 0 losing.exch.core.reads 64).2 = true := by
  unfold lost State.endLaunch
  rw [missed_coresOf]
  decide +kernel

theorem losing_misses : losing.exch.cur.val = 0 ∧ findTlb 0 0x10000 64 (losing.exch.at 0).tlb = none ∧
    losing.core.getS 1 = 0x8000000000000040 := by decide +kernel

theorem losing_translates : losing.exch.translate 0 losing.exch.core.reads 64 = lost.walkFor 0 losing.exch.core.reads 64 := by
  obtain ⟨hs, -⟩ := losing_walk
  obtain ⟨-, hm, -⟩ := losing_misses
  obtain ⟨hm', hl⟩ := lost_misses
  exact State.translate_walks (by decide) (by rw [hs]; exact hm) losing_seize (by rw [hs]; exact hm') hl

theorem losing_target : ∃ u, losing.exch.portTarget false (losing.core.getS 1) = .ok (u, .plate target, some target) ∧
    u.core.sys.slots = 0 ∧ u.core.padKiB = 64 := by
  obtain ⟨hcur, -, hv⟩ := losing_misses
  have hl := lost_walks
  have ht := losing_translates
  cases hw : lost.walkFor 0 losing.exch.core.reads 64 with
  | mk t r =>
    rw [hw] at hl ht
    cases r with
    | error e => cases hl
    | ok r =>
      obtain ⟨pa, left⟩ := r
      simp only [Lost, Bool.and_eq_true, decide_eq_true_eq, beq_iff_eq] at hl
      obtain ⟨⟨⟨⟨hleft, hheld⟩, hplate⟩, hslots⟩, hpad⟩ := hl
      have hr := State.readPlate_held (s := losing.exch) (va := 64) rfl (by rw [hcur]; exact ht) hleft hheld
      have hp := State.portTarget_plate (v := 0x8000000000000040) (by decide) (by decide) hr
      rw [hcur, hplate] at hp
      exact ⟨_, by rw [hv]; exact hp, by rw [State.upd_core]; exact hslots, by rw [State.upd_core]; exact hpad⟩

/-! ## The command -/

theorem exec_put (s : State) (h : Hx) (o1 : HReg) (o2 : SReg) (o3 : HReg) (o4 : SReg) (fl : EFlags) (k : BitVec 4) :
    exec (.put h o1 o2 o3 o4 fl k) s = execPut h o1 o2 o3 o4 fl k s := rfl

/-- A `PUT` to a plate whose checks pass leaves the system registers as the translation of the target has left them (R239). -/
theorem portIssue_plate {s u : State} {h : Hx} {o1 o3 : HReg} {o2 o4 : SReg} {fl : EFlags} {k : BitVec 4} {p q : Handle}
    (hj : judge [(1, s.core.getH o1, { tags := some portTags }), (3, s.core.getH o3, { tags := some [0x23] })] = none)
    (hp : s.exch.portTarget false (s.core.getS o2) = .ok (u, .plate p, some q))
    (hq : judge [(2, q, { space := some false, tags := some [(s.core.getH o1).fmt.toNat], shape := q.ext0 == (s.core.getH o1).ext0 })] = none)
    (hr : u.core.rowTrap (s.core.getH o1) (s.core.getS o4).toNat = none) (hh : u.hold [s.core.getH o1, s.core.getH o3] = .ok ())
    (hn : (s.core.getS o4).toNat ≠ 0) : ∃ v, s.portIssue false h o1 o2 o3 o4 fl k = .ok (v, none) ∧ v.core.sys = u.core.sys := by
  have getH (r : HReg) : s.exch.core.getH r = s.core.getH r := by rw [State.exch_core]; rfl
  have getS (r : SReg) : s.exch.core.getS r = s.core.getS r := by rw [State.exch_core]; rfl
  simp only [State.portIssue, getH, getS, hj, hp, ok_bind, hq, hr, hh, orTrap, need, Bool.false_and, Bool.false_eq_true, if_false,
    Bool.not_false, Bool.true_or, if_true, Bool.and_true, decide_eq_false hn]
  exact ⟨_, rfl, by rw [State.upd_core]⟩

end Sys2Proof.Machine

namespace Sys2Proof

set_option Elab.async false

open Machine Claims Tests

/-- Refutes O38: a walk that finds a poisoned table ends the launch and frees its cores (R319), and the instruction goes on with the
translation that a core without a launch has; the slot counter it then counts on from is that of a freed core. -/
theorem not_portCommands : ¬ Obligations.PortCommands := by
  unfold Obligations.PortCommands
  intro h
  obtain ⟨hd, hx', hn, hg, hslots⟩ := losing_operands
  obtain ⟨u, hp, huslots, hupad⟩ := losing_target
  have judged : judge [(1, losing.core.getH 0, { tags := some portTags }), (3, losing.core.getH 1, { tags := some [0x23] })] = none := by
    rw [hd, hx']; decide
  have plate : judge [(2, target,
      { space := some false, tags := some [(losing.core.getH 0).fmt.toNat], shape := target.ext0 == (losing.core.getH 0).ext0 })] = none := by
    rw [hd]; decide
  have rows : u.core.rowTrap (losing.core.getH 0) (losing.core.getS 2).toNat = none := by
    rw [hd, hn, Core.rowTrap, Core.padSize, hupad]; exact if_pos (by decide)
  have free : u.hold [losing.core.getH 0, losing.core.getH 1] = .ok () := by rw [hd, hx']; rfl
  obtain ⟨t, ht, hret, -⟩ := (h losing u hx 0 1 1 2 unordered 0 false _ _ hg judged hp ⟨plate, rows⟩ free).1 (.inl rfl)
  obtain ⟨v, hv, hsys⟩ := portIssue_plate (h := hx) (fl := unordered) (k := 0) judged hp plate rows free (by rw [hn]; decide)
  have hput : exec (.put hx 0 1 1 2 unordered 0) losing = _ := (exec_put ..).trans (issue128_ok hg hv)
  obtain rfl := Host.Outcome.next.inj (ht.symm.trans hput)
  have := hret.slots
  simp [hsys, huslots, hslots] at this

end Sys2Proof
end

section
/-! PROOFS. The integer instructions, bit fields, immediates and `SEL` (R54 to R59, R61): the functions of the model give the results of
the rules, and each instruction is one write of a scalar. -/

namespace Sys2Proof.Machine

set_option Elab.async false

open Claims

/-! ## The functions of R54 -/

theorem add_eq_result (a b : Word) : a + b = addResult a b := by
  apply BitVec.eq_of_toNat_eq
  simp [addResult]

theorem sub_eq_result (a b : Word) : a - b = subResult a b := by
  apply BitVec.eq_of_toInt_eq
  rw [subResult, BitVec.toInt_ofInt, BitVec.toInt_sub, BitVec.toInt_eq_toNat_bmod, BitVec.toInt_eq_toNat_bmod, Int.bmod_sub_bmod,
    Int.sub_bmod_bmod]

theorem shlW_eq_result (a b : Word) : shlW a b = shlResult a b := by
  apply BitVec.eq_of_toNat_eq
  simp [shlW, shlResult, Nat.shiftLeft_eq]

theorem ushiftRight_eq_ofNat (a : Word) (n : Nat) : a >>> n = BitVec.ofNat 64 (a.toNat / 2 ^ n) := by
  apply BitVec.eq_of_toNat_eq
  rw [BitVec.toNat_ushiftRight, Nat.shiftRight_eq_div_pow, BitVec.toNat_ofNat, Nat.mod_eq_of_lt ((Nat.div_le_self ..).trans_lt a.isLt)]

theorem shrW_eq_result (a b : Word) : shrW a b = shrResult a b := ushiftRight_eq_ofNat ..

theorem sarW_eq_result (a b : Word) : sarW a b = sarResult a b := by
  rw [sarW, sarResult, BitVec.sshiftRight, Int.shiftRight_eq_div_pow]
  norm_cast

theorem rotW_eq_result (a b : Word) : rotW a b = rotResult a b := by
  rw [rotW, rotResult, BitVec.rotateLeft_def, Nat.mod_mod, ushiftRight_eq_ofNat, ← shlResult, ← shlW_eq_result]
  rfl

/-- The lesser of two values, whichever is taken of two equal ones. -/
theorem ite_le_eq_ite_lt {α β : Type} [LinearOrder β] {f : α → β} (hf : Function.Injective f) (a b : α) :
    (if f a ≤ f b then a else b) = if f a < f b then a else b := by
  rcases lt_trichotomy (f a) (f b) with h | h | h
  · rw [if_pos h.le, if_pos h]
  · rw [if_pos h.le, if_neg h.not_lt, hf h]
  · rw [if_neg h.not_ge, if_neg h.not_gt]

theorem minW_eq_result (a b : Word) : minW a b = minResult a b := ite_le_eq_ite_lt (fun _ _ => BitVec.eq_of_toInt_eq) a b

theorem minuW_eq_result (a b : Word) : minuW a b = minuResult a b := ite_le_eq_ite_lt (fun _ _ => BitVec.eq_of_toNat_eq) a b

theorem maxW_eq_result (a b : Word) : maxW a b = maxResult a b := by
  simp only [maxW, maxResult, ← not_lt, ite_not]

theorem maxuW_eq_result (a b : Word) : maxuW a b = maxuResult a b := by
  simp only [maxuW, maxuResult, ← not_lt, ite_not, BitVec.lt_def]

/-- The instructions of OP 0x01 and 0x02 write a scalar and do nothing else; what they write is the result of R54. -/
theorem exec_of_aluOf {s : State} {i : Instr} {h : Hd} {d : SReg} {v : Word} (e : aluOf s.core i = some (h, d, v)) :
    ∃ f : Core → Word, (exec i s = s.pure64 h fun c => c.setS d (f c)) ∧ f s.core = v := by
  unfold aluOf at e
  split at e <;> cases e
  case h_1 => exact ⟨_, rfl, add_eq_result ..⟩
  case h_2 => exact ⟨_, rfl, sub_eq_result ..⟩
  case h_3 | h_4 | h_5 | h_6 | h_17 | h_18 | h_19 | h_20 => exact ⟨_, rfl, rfl⟩
  case h_7 => exact ⟨_, rfl, shlW_eq_result ..⟩
  case h_8 => exact ⟨_, rfl, shrW_eq_result ..⟩
  case h_9 => exact ⟨_, rfl, sarW_eq_result ..⟩
  case h_10 => exact ⟨_, rfl, rotW_eq_result ..⟩
  case h_11 => exact ⟨_, rfl, minW_eq_result ..⟩
  case h_12 => exact ⟨_, rfl, maxW_eq_result ..⟩
  case h_13 => exact ⟨_, rfl, minuW_eq_result ..⟩
  case h_14 => exact ⟨_, rfl, maxuW_eq_result ..⟩
  case h_15 => exact ⟨_, rfl, add_eq_result ..⟩
  case h_16 => exact ⟨_, rfl, sub_eq_result ..⟩
  case h_21 => exact ⟨_, rfl, shlW_eq_result ..⟩
  case h_22 => exact ⟨_, rfl, shrW_eq_result ..⟩
  case h_23 => exact ⟨_, rfl, sarW_eq_result ..⟩
  case h_24 => exact ⟨_, rfl, rotW_eq_result ..⟩
  case h_25 => exact ⟨_, rfl, minW_eq_result ..⟩
  case h_26 => exact ⟨_, rfl, maxW_eq_result ..⟩
  case h_27 => exact ⟨_, rfl, minuW_eq_result ..⟩
  case h_28 => exact ⟨_, rfl, maxuW_eq_result ..⟩

/-! ## The functions of R55 -/

theorem mul_eq_result (a b : Word) : a * b = BitVec.ofNat 64 (a.toNat * b.toNat) := by
  apply BitVec.eq_of_toNat_eq
  simp

theorem divW_eq_result (a b : Word) : divW a b = if b = 0 then -1 else if a = intMin ∧ b = -1 then intMin
    else BitVec.ofInt 64 (a.toInt.tdiv b.toInt) := by
  unfold divW
  split
  · rfl
  · split
    · next h => rw [h.1, h.2]; decide
    · rfl

theorem remW_eq_result (a b : Word) : remW a b = if b = 0 then a else if a = intMin ∧ b = -1 then 0
    else BitVec.ofInt 64 (a.toInt - b.toInt * a.toInt.tdiv b.toInt) := by
  unfold remW
  split
  · rfl
  · split
    · next h => rw [h.1, h.2]; decide
    · rw [Int.tmod_def]

/-- The instructions of R55 write a scalar and do nothing else; what they write is the result of the rule. -/
theorem exec_of_mulOf {s : State} {i : Instr} {h : Hd} {d : SReg} {v : Word} (e : mulOf s.core i = some (h, d, v)) :
    ∃ f : Core → Word, (exec i s = s.pure64 h fun c => c.setS d (f c)) ∧ f s.core = v := by
  unfold mulOf at e
  split at e <;> cases e
  case h_1 => exact ⟨_, rfl, mul_eq_result ..⟩
  case h_2 | h_3 | h_5 | h_7 => exact ⟨_, rfl, rfl⟩
  case h_4 => exact ⟨_, rfl, divW_eq_result ..⟩
  case h_6 => exact ⟨_, rfl, remW_eq_result ..⟩

/-! ## The functions of R56 and R57 -/

theorem testBit_packBits (f : Nat → Bool) (n j : Nat) :
    (packFields ((List.range n).map fun i => (1, b1 (f i)))).testBit j = (decide (j < n) && f j) := by
  induction n generalizing f j with
  | zero => simp [packFields]
  | succ n ih =>
    have hd : b1 (f 0) % 2 ^ 1 = (f 0).toNat := by cases f 0 <;> rfl
    have tail := ih fun i => f (i + 1)
    rw [List.range_succ_eq_map, List.map_cons, List.map_map, packFields, hd, pow_one, Nat.add_comm, Function.comp_def]
    generalize packFields _ = r at tail ⊢
    cases j with
    | zero => cases f 0 <;> simp
    | succ j =>
      rw [Nat.testBit_succ, show (2 * r + (f 0).toNat) / 2 = r by cases f 0 <;> simp; omega, tail j]
      simp

theorem brevW_eq_result (a : Word) :
    brevW a = BitVec.ofNat 64 (packFields ((List.range 64).map fun i => (1, b1 (a.getLsbD (63 - i))))) := by
  apply BitVec.eq_of_getLsbD_eq
  intro j hj
  rw [BitVec.getLsbD_ofNat, testBit_packBits, brevW, BitVec.getLsbD_reverse, BitVec.getMsbD_eq_getLsbD]
  simp [hj]

theorem popcount_eq_length_filter (n v : Nat) : popcount n v = ((List.range n).filter fun i => v.testBit i).length := by
  induction n generalizing v with
  | zero => rfl
  | succ n ih =>
    rw [popcount, ih, List.range_succ_eq_map, List.filter_cons, List.filter_map, Nat.testBit_zero]
    simp only [Function.comp_def, Nat.succ_eq_add_one, Nat.testBit_succ]
    rcases Nat.mod_two_eq_zero_or_one v with h | h <;> simp [h]; omega

theorem find?_range'_getD (p : Nat → Bool) (s n : Nat) :
    ((List.range' s n).find? p).getD (s + n) = s + ((List.range' s n).takeWhile fun i => !p i).length := by
  induction n generalizing s with
  | zero => rfl
  | succ n ih =>
    rw [List.range'_succ, List.find?_cons, List.takeWhile_cons]
    cases p s
    · have := ih (s + 1)
      simp only [Bool.not_false, if_true, List.length_cons, show s + (n + 1) = s + 1 + n by omega, this]
      omega
    · rfl

theorem bitLen_le {n w : Nat} (h : n < 2 ^ w) : bitLen n ≤ w := by
  unfold bitLen
  split
  · omega
  · next h0 => exact (Nat.log2_lt h0).mpr h

theorem length_takeWhile_high (w n : Nat) (h : n < 2 ^ w) :
    ((List.range w).takeWhile fun i => !n.testBit (w - 1 - i)).length = w - bitLen n := by
  induction w with
  | zero => simp
  | succ w ih =>
    rw [List.range_succ_eq_map, List.takeWhile_cons, Nat.add_sub_cancel, Nat.sub_zero]
    cases hb : n.testBit w
    · have hw : n < 2 ^ w := by
        by_contra hge
        rw [Nat.testBit_eq_decide_div_mod_eq, Nat.div_eq_of_lt_le (k := 1) (by omega) (by omega)] at hb
        simp at hb
      have := bitLen_le hw
      simp only [Bool.not_false, if_true, List.length_cons, List.takeWhile_map, List.length_map, Function.comp_def,
        Nat.succ_eq_add_one]
      rw [show (fun i => !n.testBit (w - (i + 1))) = fun i => !n.testBit (w - 1 - i) by funext i; congr 2; omega, ih hw]
      omega
    · have hge : 2 ^ w ≤ n := Nat.ge_two_pow_of_testBit hb
      have hn : n ≠ 0 := by have := Nat.two_pow_pos w; omega
      have : w ≤ n.log2 := (Nat.le_log2 hn).mpr hge
      simp only [Bool.not_true, Bool.false_eq_true, if_false, List.length_nil, bitLen, if_neg hn]
      omega

theorem clzW_eq_result (a : Word) :
    clzW a = BitVec.ofNat 64 ((List.range 64).takeWhile fun i => !a.getLsbD (63 - i)).length := by
  rw [clzW, ← length_takeWhile_high 64 _ a.isLt]
  rfl

theorem ctzW_eq_result (a : Word) : ctzW a = BitVec.ofNat 64 ((List.range 64).takeWhile fun i => !a.getLsbD i).length := by
  have := find?_range'_getD (fun i => a.getLsbD i) 0 64
  rw [Nat.zero_add, Nat.zero_add, ← List.range_eq_range'] at this
  rw [ctzW, this]

theorem popcW_eq_result (a : Word) : popcW a = BitVec.ofNat 64 ((List.range 64).filter fun i => a.getLsbD i).length := by
  rw [popcW, popcount_eq_length_filter]
  rfl

theorem bswapW_eq_result (a : Word) :
    bswapW a = BitVec.ofNat 64 (packFields ((List.range 8).map fun i => (8, field a.toNat (8 * (7 - i)) 8))) := by
  simp [bswapW, wordLE, bytesLE, ofBytesLE, packFields, field, List.range_succ, Nat.div_div_eq_div_mul]

theorem squash64_eq_result (a b : Word) : squash64 a b = mixWord a b := rfl

/-- The instructions of R56 and R57 write a scalar and do nothing else; what they write is the result of the rule. -/
theorem exec_of_bitOf {s : State} {i : Instr} {h : Hd} {d : SReg} {v : Word} (e : bitOf s.core i = some (h, d, v)) :
    ∃ f : Core → Word, (exec i s = s.pure64 h fun c => c.setS d (f c)) ∧ f s.core = v := by
  unfold bitOf at e
  split at e <;> cases e
  case h_1 => exact ⟨_, rfl, clzW_eq_result _⟩
  case h_2 => exact ⟨_, rfl, ctzW_eq_result _⟩
  case h_3 => exact ⟨_, rfl, popcW_eq_result _⟩
  case h_4 => exact ⟨_, rfl, brevW_eq_result _⟩
  case h_5 => exact ⟨_, rfl, bswapW_eq_result _⟩
  case h_6 => exact ⟨_, rfl, squash64_eq_result ..⟩

/-! ## Bit fields, immediates and `SEL` (R58, R59, R61) -/

theorem field_eq_toNat_extract (a : Word) (lo n : Nat) : field a.toNat lo n = (a.extractLsb' lo n).toNat := by
  rw [BitVec.extractLsb'_toNat, Nat.shiftRight_eq_div_pow, field]

theorem sval_toNat {n : Nat} (x : BitVec (n + 1)) : sval (n + 1) x.toNat = x.toInt := by
  have := x.isLt
  rw [sval, Nat.mod_eq_of_lt x.isLt, BitVec.toInt_eq_toNat_cond, Nat.add_sub_cancel]
  exact if_congr (by omega) rfl rfl

theorem bfxW_eq_extract (sx : Bool) (lsb m : Nat) (a : Word) : bfxW sx lsb (m + 1) a =
    if sx then (a.extractLsb' lsb (m + 1)).signExtend 64 else (a.extractLsb' lsb (m + 1)).setWidth 64 := by
  rw [bfxW, field_eq_toNat_extract, sval_toNat, BitVec.ofNat_toNat]
  rfl

/-- A mask of `m` + 1 bits from `l` up. -/
theorem getLsbD_mask {l m j : Nat} (hj : j < 64) :
    (BitVec.ofNat 64 ((2 ^ (m + 1) - 1) * 2 ^ l)).getLsbD j = decide (l ≤ j ∧ j ≤ l + m) := by
  rw [BitVec.getLsbD_ofNat, Nat.testBit_mul_two_pow, Nat.testBit_two_pow_sub_one, decide_eq_true hj, Bool.true_and, ← Bool.decide_and]
  exact decide_eq_decide.mpr (by omega)

theorem bfiW_eq_pack (l m : Nat) (d a : Word) : bfiW l (m + 1) d a =
    BitVec.ofNat 64 (packFields ((List.range 64).map fun i =>
      (1, b1 (if l ≤ i ∧ i ≤ l + m then a.getLsbD (i - l) else d.getLsbD i)))) := by
  apply BitVec.eq_of_getLsbD_eq
  intro j hj
  rw [BitVec.getLsbD_ofNat, testBit_packBits, bfiW]
  simp only [BitVec.getLsbD_or, BitVec.getLsbD_and, BitVec.getLsbD_not, getLsbD_mask hj, hj, decide_true, Bool.true_and]
  split
  · next hin =>
    have hsub : j - l < m + 1 := by omega
    simp only [hin, and_self, decide_true, Bool.not_true, Bool.and_false, Bool.false_or, Bool.and_true, BitVec.getLsbD_ofNat, hj,
      Nat.testBit_mul_two_pow, Nat.testBit_mod_two_pow, hsub, Bool.true_and]
    rfl
  · next hout => simp [hout]

/-- A 96-bit instruction whose body updates the running core completes with that update. -/
theorem issue96_completes {s : State} {h : Hd} (hg : s.core.guard h = true) {i : Instr} {b : Body} {f : Core → Core}
    (hi : exec i s = s.issue96 h b) (hb : b s = .ok (s.upd f, none)) (hf : (f s.core).sys.slots = s.core.sys.slots) :
    Yields s i fun t => Completes s t (f s.core) (s.after 12) h.dly.toNat := by
  rw [State.issue96, hg] at hi
  simpa using issue_completes hi hb hf

/-- An instruction that moves bits writes a scalar with the value of R58, R59 and R61, and does nothing else. -/
theorem move_completes {s : State} {i : Instr} {h : Hd} {n : Nat} {d : SReg} {v : Word} (e : moveOf s.core i = some (h, n, d, v))
    (hg : s.core.guard h = true) :
    Yields s i fun t => Completes s t (s.core.setS d v) (s.after n) h.dly.toNat := by
  unfold moveOf at e
  split at e <;> cases e
  case h_1 x sx lsb m =>
    rw [← bfxW_eq_extract]
    exact pure64_completes (f := fun c => c.setS d (bfxW sx lsb.toNat (m.toNat + 1) (c.getS x))) rfl hg (Core.setS_slots ..)
  case h_2 x lsb m =>
    rw [← bfiW_eq_pack]
    exact pure64_completes (f := fun c => c.setS d (bfiW lsb.toNat (m.toNat + 1) (c.getS d) (c.getS x))) rfl hg (Core.setS_slots ..)
  case h_3 i => exact pure64_completes (f := fun c => c.setS d (imm21 i)) rfl hg (Core.setS_slots ..)
  case h_4 i =>
    exact issue96_completes hg (b := fun s => done (s.upd fun c => c.setS d (i.signExtend 64))) rfl rfl (Core.setS_slots ..)
  case h_5 x y g inv =>
    have hsel : (if s.core.getG g = inv then s.core.getS y else s.core.getS x) =
        if s.core.getG g != inv then s.core.getS x else s.core.getS y := by
      simp only [bne_iff_ne, ne_eq, ite_not]
    rw [hsel]
    exact pure64_completes (f := fun c => c.setS d (if c.getG g != inv then c.getS x else c.getS y)) rfl hg (Core.setS_slots ..)

/-! ## The obligations -/

/-- An instruction that writes one scalar completes with that write. -/
theorem write_completes {s : State} {i : Instr} {h : Hd} {d : SReg} {v : Word} (hg : s.core.guard h = true)
    (e : ∃ f : Core → Word, (exec i s = s.pure64 h fun c => c.setS d (f c)) ∧ f s.core = v) :
    Yields s i fun t => Completes s t (s.core.setS d v) (s.after 8) h.dly.toNat := by
  obtain ⟨f, hi, rfl⟩ := e
  exact pure64_completes hi hg (Core.setS_slots ..)

/-- The first part of O1. -/
theorem aluResults : Claims.AluResults := fun _ _ _ _ _ e hg => write_completes hg (exec_of_aluOf e)

/-- The second part of O1. -/
theorem mulDivResults : Claims.MulDivResults := fun _ _ _ _ _ e hg => write_completes hg (exec_of_mulOf e)

/-- The third part of O1. -/
theorem bitResults : Claims.BitResults := fun _ _ _ _ _ e hg => write_completes hg (exec_of_bitOf e)

end Sys2Proof.Machine

namespace Sys2Proof

set_option Elab.async false

/-- Settles O1: each instruction is one write of a scalar, and the functions of the model are those of the rules. -/
theorem integerResults : Obligations.IntegerResults := ⟨Machine.aluResults, Machine.mulDivResults, Machine.bitResults⟩

/-- Settles O2: fields cut out of a word and masks laid over it are read bit by bit; each instruction is one write of a scalar. -/
theorem moveResults : Obligations.MoveResults := fun _ _ _ _ _ _ e _ hg => Machine.move_completes e hg

end Sys2Proof
end

section
/-! PROOFS. Branches, calls and loops (R53, R73 to R75). -/

namespace Sys2Proof.Machine

set_option Elab.async false

open Claims (transferOf loopAt)

/-! ## Transfers -/

/-- Completing turns on a core only up to what every completed instruction moves. -/
theorem Completes.of_settled {s t : State} {c c' : Core} {p : Word} {d : Nat} (h : Completes s t c p d) (e : c.settled = c'.settled) :
    Completes s t c' p d := { h with core := h.core.trans e }

section
variable {s : State} {i : Instr} {d n : Nat} {b : Body} {f : Core → Core} {p : Word}

/-- An issued instruction whose body updates the running core and transfers completes with that update, at the target. -/
theorem issue_transfers (hi : exec i s = s.issue true false d n b) (hb : b s = .ok (s.upd f, some p))
    (hf : (f s.core).sys.slots = s.core.sys.slots) : Yields s i fun t => Completes s t (f s.core) p d :=
  ⟨_, hi.trans (State.issue_ok hb), completes_upd s f d p hf⟩

/-- A taken transfer (R73): the two cycles that it costs are none of the registers that completing leaves. -/
theorem issue_redirects (hi : exec i s = s.issue true false d n b) (hb : b s = .ok ((s.upd f).redirected, some p))
    (hf : (f s.core).sys.slots = s.core.sys.slots) : Yields s i fun t => Completes s t (f s.core) p d := by
  rw [State.redirected, State.upd_upd] at hb
  obtain ⟨t, ht, hc⟩ := issue_transfers hi hb hf
  exact ⟨t, ht, hc.of_settled rfl⟩

end

theorem exec_br (s : State) (h : Hd) (i : BitVec 21) : exec (.br h i) s = execBr h i s := rfl

theorem exec_brl (s : State) (h : Hd) (i : BitVec 53) : exec (.brl h i) s = execBrl h i s := rfl

theorem exec_call (s : State) (h : Hd) (d : SReg) (i : BitVec 21) : exec (.call h d i) s = execCall h d i s := rfl

theorem exec_calll (s : State) (h : Hd) (d : SReg) (i : BitVec 53) : exec (.calll h d i) s = execCalll h d i s := rfl

theorem exec_ret (s : State) (h : Hd) (x : SReg) : exec (.ret h x) s = execRet h x s := rfl

theorem exec_jmpr (s : State) (h : Hd) (d x : SReg) (i : BitVec 21) : exec (.jmpr h d x i) s = execJmpr h d x i s := rfl

/-- A transfer of 64 bits (R73). -/
theorem jump64_completes {s : State} {i : Instr} {h : Hd} {target : Core → Word} {f : Core → Core} (hg : s.core.guard h = true)
    (hi : exec i s = s.jump64 h target f) (hf : (f s.core).sys.slots = s.core.sys.slots) :
    Yields s i fun t => Completes s t (f s.core) (target s.core) h.dly.toNat := by
  rw [State.jump64, State.issue64, hg] at hi
  exact issue_redirects hi rfl hf

/-- A transfer of 96 bits (R73). -/
theorem issue96_redirects {s : State} {i : Instr} {h : Hd} {b : Body} {f : Core → Core} {p : Word} (hg : s.core.guard h = true)
    (hi : exec i s = s.issue96 h b) (hb : b s = .ok ((s.upd f).redirected, some p)) (hf : (f s.core).sys.slots = s.core.sys.slots) :
    Yields s i fun t => Completes s t (f s.core) p h.dly.toNat := by
  rw [State.issue96, hg] at hi
  exact issue_redirects hi hb hf

/-- A branch or a call is one update of the core, the link, and one transfer to a target read before it. -/
theorem transfer_completes {s : State} {i : Instr} {h : Hd} {c : Core} {p : Word} (e : transferOf s.core i = some (h, c, p))
    (hg : s.core.guard h = true) : Yields s i fun t => Completes s t c p h.dly.toNat := by
  unfold transferOf at e
  split at e <;> cases e
  case h_1 => exact jump64_completes hg (exec_br ..) rfl
  case h_2 => exact issue96_redirects hg (exec_brl ..) (f := id) (by rw [State.upd_id]; rfl) rfl
  case h_3 => exact jump64_completes hg (exec_call ..) (Core.setS_slots ..)
  case h_4 d i => exact issue96_redirects hg (exec_calll ..) (f := fun c => c.setS d (c.ctx.pc + 12)) rfl (Core.setS_slots ..)
  case h_5 => exact jump64_completes hg (exec_ret ..) rfl
  case h_6 => exact jump64_completes hg (exec_jmpr ..) (Core.setS_slots ..)

/-! ## Loops -/

theorem exec_loop (s : State) (h : Hd) (x : SReg) (i : BitVec 21) : exec (.loop h x i) s = execLoop h x i s := rfl

theorem exec_endl (s : State) (h : Hd) : exec (.endl h) s = execEndl h s := rfl

/-- Entering a loop writes the loop of the new depth and no other (R74). -/
theorem Core.enterLoop_spec (c : Core) (n stop : Word) : (c.enterLoop n stop).ctx.depth = c.ctx.depth + 1 ∧
    loopAt (c.enterLoop n stop) (c.ctx.depth + 1) = { count := n, start := c.ctx.pc + 8, stop := stop } ∧
    ∀ j, j ≠ c.ctx.depth + 1 → loopAt (c.enterLoop n stop) j = loopAt c j := by
  refine ⟨rfl, ?_, fun j hj => ?_⟩
  · simp [loopAt, Core.enterLoop, Core.updCtx]
  · have : (c.ctx.depth + 1).val ≠ j.val := fun h => hj (Fin.ext h.symm)
    simp [loopAt, Core.enterLoop, Core.updCtx, this]

/-- Ending a pass changes the loop of the depth and no other (R74). -/
theorem Core.endLoop_spec (c : Core) : let l := loopAt c c.ctx.depth
    c.endLoop.ctx.depth = (if l.count.toNat ≤ 1 then c.ctx.depth - 1 else c.ctx.depth) ∧
    loopAt c.endLoop c.ctx.depth = { l with count := if l.count.toNat ≤ 1 then 0 else l.count - 1 } ∧
    (∀ j, j ≠ c.ctx.depth → loopAt c.endLoop j = loopAt c j) ∧
    c.endLoop = { c with ctx := { c.ctx with depth := c.endLoop.ctx.depth, loops := c.endLoop.ctx.loops } } := by
  intro l
  have other (v : Loop) (j : Fin 8) (hj : j ≠ c.ctx.depth) : (c.ctx.loops.set c.ctx.depth v)[j] = c.ctx.loops[j] := by
    have : c.ctx.depth.val ≠ j.val := fun h => hj (Fin.ext h.symm)
    simp [this]
  by_cases hl : l.count.toNat ≤ 1
  · have he : c.endLoop = c.updCtx fun x => { x with depth := c.ctx.depth - 1, loops := x.loops.set c.ctx.depth { l with count := 0 } } :=
      if_pos hl
    simp only [he, if_pos hl]
    refine ⟨rfl, ?_, fun j hj => other _ j hj, rfl⟩
    simp [loopAt, Core.updCtx]
  · have he : c.endLoop = c.updCtx fun x => { x with loops := x.loops.set c.ctx.depth { l with count := l.count - 1 } } := if_neg hl
    simp only [he, if_neg hl]
    refine ⟨rfl, ?_, fun j hj => other _ j hj, rfl⟩
    simp [loopAt, Core.updCtx]

section
variable {s : State} {h : Hd} (hg : s.core.guard h = true)
include hg

/-- `LOOP` with a count of 0 goes past its `ENDL`. -/
theorem loop_skips (hs : s.core.sys.sup = false) {x : SReg} {i : BitVec 21} (hx : s.core.getS x = 0) :
    Yields s (.loop h x i) fun t => Completes s t s.core (s.core.ctx.pc + 4 * i.signExtend 64 + 8) h.dly.toNat := by
  have hi := exec_loop s h x i
  rw [execLoop, State.issue64, hg] at hi
  refine issue_redirects hi (f := id) ?_ rfl
  simp only [hs, hx, need, Bool.not_false, if_true, State.upd_id]
  rfl

/-- `LOOP` with another count enters the next depth. -/
theorem loop_enters (hs : s.core.sys.sup = false) {x : SReg} {i : BitVec 21} (hx : s.core.getS x ≠ 0) (hd : s.core.ctx.depth ≠ 7) :
    Yields s (.loop h x i) fun t => Completes s t
      (s.core.enterLoop (s.core.getS x) (s.core.ctx.pc + 4 * i.signExtend 64)) (s.after 8) h.dly.toNat := by
  refine issue64_completes hg (f := Core.enterLoop (s.core.getS x) (s.core.ctx.pc + 4 * i.signExtend 64)) ((exec_loop ..).trans rfl) ?_ rfl
  simp only [hs, hx, bne_iff_ne.mpr hd, need, Bool.not_false, if_true, if_false]
  rfl

/-- `LOOP` with a nonzero count at depth 7 is an illegal instruction (R75). -/
theorem loop_refuses (hh : s.handles = true) {x : SReg} {i : BitVec 21} (hx : s.core.getS x ≠ 0) (hd : s.core.ctx.depth = 7) :
    Yields s (.loop h x i) fun t => Enters s t (illegal 9 s) (s.core.ctx.pc &&& 0x1FFFFFFFFFFFFF) 0 := by
  have hs : s.core.sys.sup = false := by
    rw [State.handles] at hh
    cases hsup : s.core.sys.sup
    · rfl
    · simp [hsup] at hh
  refine issue64_enters hg (f := id) ((exec_loop ..).trans rfl) ?_ ⟨rfl, rfl⟩ hh
  simp only [hs, hx, hd, need, Bool.not_false, if_true, if_false, State.upd_id]
  rfl

/-- `ENDL` at the end of the running loop ends a pass. -/
theorem endl_passes (hs : s.core.sys.sup = false) (hd : s.core.ctx.depth ≠ 0) (hp : s.core.ctx.pc = (loopAt s.core s.core.ctx.depth).stop) :
    Yields s (.endl h) fun t => Completes s t s.core.endLoop
      (if (loopAt s.core s.core.ctx.depth).count.toNat ≤ 1 then s.after 8 else (loopAt s.core s.core.ctx.depth).start) h.dly.toNat := by
  have hi := exec_endl s h
  rw [execEndl, State.issue64, hg] at hi
  have hok : (s.core.ctx.depth != 0 && s.core.ctx.pc == (loopAt s.core s.core.ctx.depth).stop) = true := by simp [hd, ← hp]
  have hslots : s.core.endLoop.sys.slots = s.core.sys.slots := by
    obtain ⟨-, -, -, he⟩ := s.core.endLoop_spec
    rw [he]
  refine ⟨_, hi.trans (State.issue_ok (t := s.upd Core.endLoop)
    (p := if (loopAt s.core s.core.ctx.depth).count.toNat ≤ 1 then none else some (loopAt s.core s.core.ctx.depth).start) ?_), ?_⟩
  · simp only [hs, need, Bool.not_false, if_true]
    rw [loopAt] at hok
    simp only [hok, if_true]
    rfl
  · have := completes_upd s Core.endLoop h.dly.toNat
    split
    · exact completes_upd s Core.endLoop _ _ hslots
    · exact completes_upd s Core.endLoop _ _ hslots

/-- `ENDL` at depth 0 or away from the registered end is an illegal instruction (R75). -/
theorem endl_refuses (hh : s.handles = true) (he : s.core.ctx.depth = 0 ∨ s.core.ctx.pc ≠ (loopAt s.core s.core.ctx.depth).stop) :
    Yields s (.endl h) fun t => Enters s t (illegal 10 s) (s.core.ctx.pc &&& 0x1FFFFFFFFFFFFF) 0 := by
  have hs : s.core.sys.sup = false := by
    rw [State.handles] at hh
    cases hsup : s.core.sys.sup
    · rfl
    · simp [hsup] at hh
  have hbad : (s.core.ctx.depth != 0 && s.core.ctx.pc == (loopAt s.core s.core.ctx.depth).stop) = false := by
    rcases he with he | he <;> simp [he]
  refine issue64_enters hg (f := id) ((exec_endl ..).trans rfl) ?_ ⟨rfl, rfl⟩ hh
  rw [loopAt] at hbad
  simp only [hs, hbad, need, Bool.not_false, if_true, State.upd_id]
  rfl

end

/-- The first part of O9. -/
theorem loopSteps : Claims.LoopSteps := by
  constructor
  · intro s h x i hg hs stop
    refine ⟨loop_skips hg hs, fun hx hd => ?_⟩
    obtain ⟨t, ht, hc⟩ := loop_enters hg hs hx hd (i := i)
    obtain ⟨hdepth, hnew, hold⟩ := s.core.enterLoop_spec (s.core.getS x) (s.core.ctx.pc + 4 * i.signExtend 64)
    exact ⟨t, ht, _, hc, hdepth, hnew, hold, rfl⟩
  · intro s h hg hs hd d l hp
    obtain ⟨t, ht, hc⟩ := endl_passes hg hs hd hp
    obtain ⟨hdepth, hloop, hold, hframe⟩ := s.core.endLoop_spec
    exact ⟨t, ht, _, hc, hdepth, hloop, hold, hframe⟩

/-- The second part of O9. -/
theorem loopTraps : Claims.LoopTraps := fun _ _ _ _ hg hh => ⟨fun hx hd => loop_refuses hg hh hx hd, fun he => endl_refuses hg hh he⟩

end Sys2Proof.Machine

namespace Sys2Proof

set_option Elab.async false

/-- Settles O8: each of the instructions is one update of the core, the link, and one transfer to a target read before it. -/
theorem transfers : Obligations.Transfers :=
  fun _ _ _ _ _ => Machine.transfer_completes

end Sys2Proof
end

section
/-! PROOFS. The end of a launch (R404), as a trap without a handler brings it about (R381). -/

namespace Sys2Proof.Machine

set_option Elab.async false

open Claims (EndsLaunch)

/-! ## What the end of a launch takes back and tells -/

section
variable {s₀ s : State} (h : State.Tame s₀ s)
include h

/-- An update of the squads of launches. -/
theorem State.Tame.mapSquads {f : Launch → Squad → Squad} :
    State.Tame s₀ { s with launches := s.launches.map fun l => { l with squads := l.squads.map (f l) } } where
  cur := h.cur
  core := h.core
  keeps := h.keeps
  walks := h.walks
  records := by rw [← h.records, List.map_map]; rfl

theorem State.Tame.memberWrite {seq i undo pa bs hint} : State.Tame s₀ (s.memberWrite seq i undo pa bs hint) :=
  h.withdraw.noted.setBytes.tellAs

theorem State.Tame.putBack {u} : State.Tame s₀ (s.putBack u) := h.dropCopies.rest

theorem State.Tame.carry {c : Core} : State.Tame s₀ (s.carry c) := h.foldl fun _ _ hs => hs.putBack

theorem State.Tame.restoreFar {kept u} : State.Tame s₀ (s.restoreFar kept u) := h.foldl fun _ _ hs => hs.tellAs

theorem State.Tame.cbChanged {pa} : State.Tame s₀ (s.cbChanged pa) := h.ite ((h.rest.ite h).foldl fun _ _ hs => hs.sendTo)

theorem State.Tame.queuesWritten {before : State} : State.Tame s₀ (before.queuesWritten s) := h.foldl fun _ _ hs => hs.cbChanged

theorem State.Tame.restoreUndo {q} : State.Tame s₀ (s.restoreUndo q) := by
  have restored : State.Tame s₀ (q.memUndo.foldl State.putBack s) := h.foldl fun _ _ hs => hs.putBack
  exact .queuesWritten (.foldl restored.rest fun _ _ hs => hs.restoreFar)

theorem State.Tame.syncStep {who undo pa f} : State.Tame s₀ (s.syncStep who undo pa f) := by
  unfold State.syncStep
  refine State.Tame.mapSquads ?_
  split
  · exact h.withdraw.setBytes
  · exact h.withdraw.setBytes.ite h.withdraw.memberWrite

theorem State.Tame.requeue {pa} : State.Tame s₀ (s.requeue pa) := h.withdraw.ite h.withdraw.setBytes

theorem State.Tame.unqueue {gone} : State.Tame s₀ (s.unqueue gone) := h.rest.foldl fun _ _ hs => hs.requeue

theorem State.Tame.tellLinked {seq n tries what} : State.Tame s₀ (s.tellLinked seq n tries what) := h.foldl fun _ _ hs => hs.sendTo

/-- The launch of a sequence number keeps its record. -/
theorem State.Tame.launch {seq : Word} {l : Launch} (hl : s₀.launch seq = some l) : ∃ k ∈ s.launches, k.record = l.record := by
  have hm : l.record ∈ s.launches.map (·.record) := by
    rw [h.records]
    exact List.mem_map.mpr ⟨l, List.mem_of_find?_eq_some hl, rfl⟩
  exact List.mem_map.mp hm

end

/-! ## The cores of the launch -/

/-- Cores changed one after the other by one function: those named have what the function gives. -/
theorem State.foldl_on_has {P : Core → Prop} {f : Core → Core} (hf : ∀ c, P (f c)) {l : List Nat} {i : Nat} (hi : i < 768)
    {s : State} (h : i ∈ l ∨ P (s.at i)) : P ((l.foldl (fun s j => s.on j f) s).at i) := by
  induction l generalizing s with
  | nil => simpa using h
  | cons j l ih =>
    refine ih ?_
    by_cases hij : j = i
    · subst hij
      exact .inr (by rw [State.on_at s hi]; exact hf _)
    · rw [State.on_at_ne s hij]
      rcases h with h | h
      · exact .inl ((List.mem_cons.mp h).resolve_left (Ne.symm hij))
      · exact .inr h

theorem State.foldl_on_frame {f : Core → Core} (l : List Nat) (s : State) : (l.foldl (fun s j => s.on j f) s).cur = s.cur ∧
    (l.foldl (fun s j => s.on j f) s).launches = s.launches := by
  induction l generalizing s with
  | nil => exact ⟨rfl, rfl⟩
  | cons j l ih => exact ih (s.on j f)

/-- Coherence, the cores of a launch changed, and coherence again: the records stay, and the running core, one of them, is as the change
leaves it but for its L1 and its memory queue. -/
theorem State.Tame.freeing {s u t : State} {seq : Word} {f : Core → Core} (hf : ∀ c, (f c).launch = none ∧ (f c).phase = .idle)
    (h : State.Tame s u) (hc : s.core.launch = some seq) (k : State.Tame ((s.coresOf seq).foldl (fun s i => s.on i f) u) t) :
    t.launches.map (·.record) = s.launches.map (·.record) ∧ t.core.launch = none ∧ t.core.phase = .idle := by
  obtain ⟨hcur, hlaunches⟩ := State.foldl_on_frame (f := f) (s.coresOf seq) u
  have hmem : s.cur.val ∈ s.coresOf seq := by simp [State.coresOf, hc, s.cur.isLt]
  have hfreed := State.foldl_on_has (P := fun c => c.launch = none ∧ c.phase = .idle) hf s.cur.isLt (s := u) (.inl hmem)
  have hcore := k.core s.cur.val
  have htcur : t.cur = s.cur := k.cur.trans (hcur.trans h.cur)
  refine ⟨k.records.trans ((congrArg _ hlaunches).trans h.records), ?_⟩
  rw [← State.at_cur, htcur, hcore]
  exact hfreed

/-- The launch is marked as ended in the records, and its completion record added. -/
theorem ends_of_freeing {s t : State} {seq : Word} {l l' : Launch} {status : Nat} {detail : Word} {y : Done} {images places cbs}
    (hl : s.launch seq = some l) (hl' : l'.record = l.record ∧ l'.status = .ended status detail)
    (hy : y.seq = seq ∧ y.status = status ∧ y.detail = detail)
    (h : t.launches.map (·.record) = s.launches.map (·.record) ∧ t.core.launch = none ∧ t.core.phase = .idle) :
    let u : State := { t with launches := t.launches.map fun x => if x.record.seq == seq then l' else x,
                              images := images, places := places, cbs := cbs, dones := t.dones ++ [y] }
    (∃ l ∈ u.launches, l.record.seq = seq ∧ l.status = .ended status detail) ∧
    (∃ y ∈ u.dones, y.seq = seq ∧ y.status = status ∧ y.detail = detail) ∧ u.core.launch = none ∧ u.core.phase = .idle := by
  obtain ⟨hrecords, hfree⟩ := h
  obtain ⟨hrec, hstatus⟩ := hl'
  have hseq : l.record.seq = seq := by simpa using List.find?_some hl
  have hmem : l.record ∈ t.launches.map (·.record) := hrecords ▸ List.mem_map_of_mem (List.mem_of_find?_eq_some hl)
  obtain ⟨k, hk, hkrec⟩ := List.mem_map.mp hmem
  refine ⟨⟨_, List.mem_map_of_mem hk, ?_⟩, ⟨y, List.mem_append_right _ (List.mem_singleton_self _), hy⟩, hfree⟩
  simp [hkrec, hrec, hseq, hstatus]

/-- The end of the launch of the running core, when it has not ended before (R404): its status, its completion record, its core. -/
theorem endLaunch_ends {s : State} {seq : Word} {l : Launch} (hc : s.core.launch = some seq) (hl : s.launch seq = some l)
    (hrun : ∀ st d, l.status ≠ .ended st d) (status : Nat) (detail : Word) (undo : Bool) :
    let t := s.endLaunch seq status detail undo
    (∃ l ∈ t.launches, l.record.seq = seq ∧ l.status = .ended status detail) ∧
    (∃ y ∈ t.dones, y.seq = seq ∧ y.status = status ∧ y.detail = detail) ∧ t.core.launch = none ∧ t.core.phase = .idle := by
  have hfind : (s.launches.find? fun l => l.record.seq == seq) = some l := hl
  cases hs : l.status with
  | ended st d => exact absurd hs (hrun st d)
  | _ =>
    unfold State.endLaunch
    rw [hfind]
    simp -zeta only [hs]
    refine ends_of_freeing hl ⟨rfl, rfl⟩ ⟨rfl, rfl, rfl⟩
      (State.Tame.freeing (fun c => ?_) ?_ hc (.tellLinked (.unqueue (.refl _))))
    · split <;> exact ⟨rfl, rfl⟩
    · exact .foldl (.ite (.foldl (.foldl (.refl s) fun _ _ hs => hs.restoreUndo) fun _ _ hs => hs.carry) (.refl s))
        fun _ _ hs => hs.syncStep.tellAs

/-- A trap of the running core that no handler takes ends the launch (R381). -/
theorem takeTrap_ends {s u : State} {seq : Word} {l : Launch} {x : Trap} (e : Entry) (hteam : u.core.team = s.core.team)
    (hno : u.core.sys.sup = true ∨ u.core.sys.tvec = 0) (hx : (x.cause == .residueEnd) = false) (hc : u.core.launch = some seq)
    (hl : u.launch seq = some l) (hrun : ∀ st d, l.status ≠ .ended st d) :
    EndsLaunch s (u.takeTrap x e) seq (if u.core.sys.sup then 10 else 9) x := by
  have htake : u.takeTrap x e = u.endLaunch seq (trapStatus u.core x).1 (trapStatus u.core x).2 := by
    have : (u.core.sys.sup || decide (u.core.sys.tvec = 0)) = true := by simpa using hno
    rw [State.takeTrap]
    simp only [this, if_true, hc]
  have hstatus : trapStatus u.core x = (if u.core.sys.sup then 10 else 9,
      BitVec.ofNat 64 (x.detail % 2 ^ 32 + x.cause.num * 2 ^ 32 + s.core.team % 2 ^ 24 * 2 ^ 40)) := by
    have hnum : x.cause.num < 2 ^ 8 := x.cause.num_lt
    have hfields : packFields [(32, x.detail), (8, x.cause.num), (24, u.core.team)] =
        x.detail % 2 ^ 32 + x.cause.num * 2 ^ 32 + s.core.team % 2 ^ 24 * 2 ^ 40 := by
      simp only [packFields, hteam, Nat.mod_eq_of_lt hnum]
      omega
    simp only [trapStatus, hx, Bool.false_and, hfields, Bool.false_eq_true, if_false]
  rw [htake, hstatus]
  exact endLaunch_ends hc hl hrun _ _ true

end Sys2Proof.Machine
end

section
/-! PROOFS. Loops in supervisor mode, the instructions that trap and the return from a trap (R74 to R77, R378 to R382). -/

namespace Sys2Proof.Machine

set_option Elab.async false

open Claims (EndsLaunch)

/-! ## Entering a handler after an update of the core -/

/-- A trap of the running core, which takes traps, after an update `f` that leaves its mode, is one more update. -/
theorem takeTrap_upd {s : State} (hs : s.handles = true) {f : Core → Core}
    (hf : (f s.core).sys.sup = s.core.sys.sup ∧ (f s.core).sys.tvec = s.core.sys.tvec) (x : Trap) (e : Entry) :
    (s.upd f).takeTrap x e = s.upd fun c => (f c).entered x e := by
  obtain ⟨hsup, htvec⟩ := hf
  have hmode : s.core.sys.sup = false ∧ s.core.sys.tvec ≠ 0 := by simpa [State.handles] using hs
  have : ¬ ((f s.core).sys.sup || decide ((f s.core).sys.tvec = 0)) = true := by
    rw [hsup, htvec, hmode.1, Bool.false_or, decide_eq_true_eq]
    exact hmode.2
  simp only [State.takeTrap, State.upd_core, if_neg this]
  simp [State.upd, State.setCore_setCore]

/-- A word of packed fields, the lowest a bit, the next of four bits. -/
theorem ofNat_packFields_bit_four (b : Bool) (d : Nat) (l : List (Nat × Nat)) :
    (BitVec.ofNat 64 (packFields ((1, b1 b) :: (4, d) :: l))).getLsbD 0 = b ∧
    ((BitVec.ofNat 64 (packFields ((1, b1 b) :: (4, d) :: l))) >>> 1).setWidth 4 = BitVec.ofNat 4 d := by
  have hpack : packFields ((1, b1 b) :: (4, d) :: l) = b1 b + 2 * (d % 16 + 16 * packFields l) := by
    cases b <;> rfl
  have hb : b1 b < 2 := by cases b <;> decide
  constructor
  · rw [BitVec.getLsbD_ofNat, hpack, Nat.testBit_zero, Nat.add_mul_mod_self_left, Nat.mod_eq_of_lt hb]
    cases b <;> rfl
  · apply BitVec.eq_of_toNat_eq
    simp only [BitVec.toNat_setWidth, BitVec.toNat_ushiftRight, BitVec.toNat_ofNat, Nat.shiftRight_eq_div_pow, hpack]
    omega

/-- The mode and the delay slots owed, as `estat` saves them (R379). -/
theorem estat_saves (y : Sys) (x : Trap) (pc : Word) (d : Nat) : (y.entered x { epc := pc, owed := d }).estat.getLsbD 0 = y.sup ∧
    ((y.entered x { epc := pc, owed := d }).estat >>> 1).setWidth 4 = BitVec.ofNat 4 d := ofNat_packFields_bit_four _ _ _

/-- A trap of the running core, after an update `f` that leaves its scalars, guards, handles and mode, with delay slots owed, is entered
(R379, R381). -/
theorem takeTrap_enters_owed {s : State} (hs : s.handles = true) {f : Core → Core}
    (hregs : (f s.core).ctx.regs = s.core.ctx.regs ∧ (f s.core).ctx.guards = s.core.ctx.guards ∧
      (f s.core).ctx.handles = s.core.ctx.handles)
    (hmode : (f s.core).sys.sup = s.core.sys.sup ∧ (f s.core).sys.tvec = s.core.sys.tvec) (x : Trap) (pc : Word) (d : Nat) :
    Enters s ((s.upd f).takeTrap x { epc := pc, owed := d }) x (pc &&& 0x1FFFFFFFFFFFFF) d := by
  rw [takeTrap_upd hs hmode]
  have hcore : (s.upd fun c => (f c).entered x { epc := pc, owed := d }).core = (f s.core).entered x { epc := pc, owed := d } :=
    State.upd_core _ _
  constructor
  case others => exact fun i hi => State.upd_at_ne _ (Ne.symm hi) _
  case mem => exact fun _ => rfl
  case device => rfl
  all_goals rw [hcore]
  case epc => rfl
  case cause =>
    have : x.cause.num < 256 := Cause.num_lt x.cause
    simp [Core.entered, Sys.entered, packFields, Nat.mod_eq_of_lt this, b1]
  case info => simp [Core.entered, Sys.entered, packFields]
  case addr =>
    simp only [Core.entered, Sys.entered, packFields]
    cases x.inPad <;> simp [b1]
  case mode => rfl
  case saved =>
    rw [← hmode.1]
    exact estat_saves (f s.core).sys x pc d
  case pc => simp [Core.entered, hmode.2]
  case regs => exact hregs

/-! ## Traps that the instructions raise -/

section
variable {s : State} {i : Instr} {h : Hd} {b : Body} {x : Trap} (hg : s.core.guard h = true) (hi : exec i s = s.issue64 h b)
include hg hi

/-- A 64-bit instruction that traps after it has completed enters the handler, the next instruction's address saved (R76, R381). -/
theorem issue64_enters_after (hb : b s = .error (.after x s)) (hs : s.handles = true) :
    Yields s i fun t => Enters s t x (s.after 8 &&& 0x1FFFFFFFFFFFFF) h.dly.toNat := by
  rw [State.issue64, hg] at hi
  exact ⟨_, hi.trans (State.issue_halt hb), takeTrap_enters_owed hs ⟨rfl, rfl, rfl⟩ ⟨rfl, rfl⟩ x (s.after 8) h.dly.toNat⟩

section
variable {seq : Word} {l : Launch} (hno : s.core.sys.sup = true ∨ s.core.sys.tvec = 0) (hx : (x.cause == .residueEnd) = false)
  (hc : s.core.launch = some seq) (hl : s.launch seq = some l) (hrun : ∀ st d, l.status ≠ .ended st d)
include hno hx hc hl hrun

/-- A 64-bit instruction that traps where no handler is ends the launch. -/
theorem issue64_ends (hb : b s = .error (.trap x s)) :
    Yields s i fun t => EndsLaunch s t seq (if s.core.sys.sup then 10 else 9) x := by
  rw [State.issue64, hg] at hi
  exact ⟨_, hi.trans (State.issue_halt hb), takeTrap_ends _ rfl hno hx hc hl hrun⟩

/-- A 64-bit instruction that traps after it has completed ends the launch where no handler is. -/
theorem issue64_ends_after (hb : b s = .error (.after x s)) :
    Yields s i fun t => EndsLaunch s t seq (if s.core.sys.sup then 10 else 9) x := by
  rw [State.issue64, hg] at hi
  have hcore : (s.retire 0 (s.after 8)).core = Core.retire 0 (s.after 8) (Config.stallCycles s.tick) s.core := State.upd_core _ _
  have ends := takeTrap_ends (s := s) (u := s.retire 0 (s.after 8)) { epc := s.after 8, owed := h.dly.toNat } (by rw [hcore]; rfl)
    (by rw [hcore]; exact hno) hx (by rw [hcore]; exact hc) hl hrun
  rw [hcore] at ends
  exact ⟨_, hi.trans (State.issue_halt hb), ends⟩

end

end

theorem exec_brk (s : State) (h : Hd) (n : BitVec 20) : exec (.brk h n) s = execBrk h n s := rfl

theorem exec_trap (s : State) (h : Hd) (n : BitVec 20) : exec (.trap h n) s = execTrap h n s := rfl

theorem exec_syscall (s : State) (h : Hd) (n : BitVec 20) : exec (.syscall h n) s = execSyscall h n s := rfl

/-- The third part of O9: in supervisor mode the loop instructions raise the illegal instruction of detail 13, which ends the launch. -/
theorem loopsInHandlers : Claims.LoopsInHandlers := by
  intro s h x i seq l hg hs hc hl hrun
  have refused : (need (!s.core.sys.sup) (illegal 13 s) s : Run Unit) = .error (.trap (illegal 13 s) s) := by rw [hs]; rfl
  have ends {i : Instr} {b : Body} (hi : exec i s = s.issue64 h b) (hb : b s = .error (.trap (illegal 13 s) s)) :
      Yields s i fun t => EndsLaunch s t seq 10 { cause := .illegal, detail := 13 } := by
    obtain ⟨t, ht, he⟩ := issue64_ends hg hi (.inl hs) rfl hc hl hrun hb
    rw [hs] at he
    exact ⟨t, ht, he⟩
  refine ⟨ends (exec_loop ..) ?_, ends (exec_endl ..) ?_⟩
  · simp only [refused]; rfl
  · simp only [refused]; rfl

/-- The first part of O10. -/
theorem trapInstructions : Claims.TrapInstructions := fun s h n hg hs =>
  ⟨issue64_enters hg (f := id) (exec_brk ..) (by rw [State.upd_id]) ⟨rfl, rfl⟩ hs,
    issue64_enters_after hg (exec_trap ..) rfl hs, issue64_enters_after hg (exec_syscall ..) rfl hs⟩

/-- The second part of O10. -/
theorem trapsUnhandled : Claims.TrapsUnhandled := fun _ _ _ _ _ hg hno hc hl hrun =>
  ⟨issue64_ends hg (exec_brk ..) hno rfl hc hl hrun rfl, issue64_ends_after hg (exec_trap ..) hno rfl hc hl hrun rfl,
    issue64_ends_after hg (exec_syscall ..) hno rfl hc hl hrun rfl⟩

/-! ## The return from a trap -/

theorem exec_eret (s : State) (h : Hd) : exec (.eret h) s = execEret h s := rfl

theorem bitAt_toNat (w : Word) (i : Nat) : bitAt w.toNat i = w.getLsbD i := by
  rw [BitVec.getLsbD, Nat.testBit_eq_decide_div_mod_eq, bitAt]
  rfl

/-- The return on a core is its return, whatever wait it resumes. -/
theorem State.returnOn_eq (s : State) (i d : Nat) (c : Core) : s.returnOn i d c = { c.returned d with resume := (s.returnOn i d c).resume } := by
  unfold State.returnOn
  dsimp only
  split <;> rfl

/-- The third part of O10: one update of the core, and a transfer to `epc`. -/
theorem returnFromTrap : Claims.ReturnFromTrap := by
  intro s h hg hs hkill
  let c := s.returnOn s.cur h.dly.toNat s.core
  have hc : c = { s.core.returned h.dly.toNat with resume := c.resume } := State.returnOn_eq ..
  have hi := exec_eret s h
  rw [execEret, State.issue64, hg] at hi
  obtain ⟨t, ht, hdone⟩ := issue_transfers hi (f := s.returnOn s.cur h.dly.toNat) (p := s.core.sys.epc)
    (by simp only [hs, bitAt_toNat, hkill]; rfl) (by rw [State.returnOn_eq]; rfl)
  refine ⟨t, ht, c, hdone, ?_⟩
  rw [hc, ← bitAt_toNat, ← field_eq_toNat_extract]
  exact ⟨rfl, rfl, rfl, rfl, rfl, rfl, rfl, rfl⟩

end Sys2Proof.Machine

namespace Sys2Proof

set_option Elab.async false

/-- Settles O9: the steps of the loop instructions, their traps, and the end of the launch that they bring about in supervisor mode. -/
theorem loops : Obligations.Loops := ⟨Machine.loopSteps, Machine.loopTraps, Machine.loopsInHandlers⟩

/-- Settles O10: the entry into the handler, the end of the launch where there is none, and the return. -/
theorem trapsAndReturn : Obligations.TrapsAndReturn := ⟨Machine.trapInstructions, Machine.trapsUnhandled, Machine.returnFromTrap⟩

end Sys2Proof
end

section
/-! PROOFS. The scalar floating-point instructions (R63 to R70). -/

namespace Sys2Proof.Machine

set_option Elab.async false

open Claims (floatOf raisedBy ratOf placeOf)

/-! ## Results, flags and traps -/

/-- What a floating-point instruction does beside its traps (R64, R65): it raises flags, and writes its destination. -/
theorem floatEnd_quiet {s : State} {f : Fl} (wr : Core → Core) (h : s.core.traps f = false) :
    s.floatEnd f wr = .ok (s.upd fun c => wr (c.raise f), none) := by
  rw [State.floatEnd, h]
  rfl

theorem floatEnd_trapping {s : State} {f : Fl} (wr : Core → Core) (h : s.core.traps f = true) :
    s.floatEnd f wr = .error (.trap { cause := .float, detail := f.toNat } (s.upd (·.raise f))) := by
  rw [State.floatEnd, h]
  rfl

theorem Core.traps_zero (c : Core) : c.traps 0 = false := by simp [Core.traps]

theorem Core.raise_zero (c : Core) : c.raise 0 = c := by simp [Core.raise]

/-- An instruction that raises nothing and writes its destination ends as every floating-point instruction. -/
theorem floatEnd_zero (s : State) (wr : Core → Core) : s.floatEnd 0 wr = done (s.upd wr) := by
  rw [floatEnd_quiet wr (Core.traps_zero _)]
  simp only [Core.raise_zero]
  rfl

theorem fmaSigns_eq (k : Fma) : fmaSigns k = (decide (k = .fnma ∨ k = .fnms), decide (k = .fms ∨ k = .fnma)) := by cases k <;> rfl

/-- From a state a 64-bit instruction ends with flags and a write of the running core. -/
def FloatEnds (s : State) (o : Out) (h : Hd) (f : Fl) (wr : Core → Core) : Prop := ∃ b : Body, o = s.issue64 h b ∧ b s = s.floatEnd f wr

theorem float3_ends (s : State) (h : Hd) (d x y : SReg) (f : SFmt) (op : Core → FV → FV → FV × Fl) :
    let v := op s.core (fval f (s.core.getS x)) (fval f (s.core.getS y))
    FloatEnds s (s.float3 h d x y f op) h v.2 fun c => c.setS d (fword f v.1) := ⟨_, rfl, rfl⟩

theorem execFfma_ends (s : State) (h : Hd) (d x y : SReg) (k : Fma) (f : SFmt) (r : RM) :
    let v := (sfmtOf f).fma (s.core.mode r) (k = .fnma ∨ k = .fnms) (k = .fms ∨ k = .fnma)
      (fval f (s.core.getS x)) (fval f (s.core.getS y)) (fval f (s.core.getS d))
    FloatEnds s (execFfma h d x y k f r s) h v.2 fun c => c.setS d (fword f v.1) := by
  unfold execFfma
  rw [fmaSigns_eq]
  exact ⟨_, rfl, rfl⟩

theorem execFcmp_ends (s : State) (h : Hd) (g : GReg) (x y : SReg) (k : FCond) (f : SFmt) (sig : Bool) :
    let a := fval f (s.core.getS x)
    let b := fval f (s.core.getS y)
    FloatEnds s (execFcmp h g x y k f sig s) h (cmpFlags sig a b) fun c => c.setG g (fcondHolds k a b) := ⟨_, rfl, rfl⟩

theorem execFcvt_ends (s : State) (h : Hd) (d x : SReg) (k j : Cvt) (r : RM) :
    let v := cvtDest k (s.core.mode r) (cvtSource j (s.core.getS x))
    FloatEnds s (execFcvt h d x k j r s) h v.2 fun c => c.setS d v.1 := ⟨_, rfl, rfl⟩

theorem execFclass_ends (s : State) (h : Hd) (d x : SReg) (f : SFmt) :
    FloatEnds s (execFclass h d x f s) h 0 fun c => c.setS d (BitVec.ofNat 64 ((sfmtOf f).classOf (fval f (s.core.getS x)))) :=
  ⟨_, rfl, (floatEnd_zero ..).symm⟩

/-- Each floating-point instruction with a scalar destination ends with its flags and its result. -/
theorem exec_floatOf {s : State} {i : Instr} {h : Hd} {d : SReg} {v : Word} {f : Fl} (e : floatOf s.core i = some (h, d, v, f)) :
    FloatEnds s (exec i s) h f fun c => c.setS d v := by
  unfold floatOf at e
  split at e <;> cases e
  case h_1 => exact float3_ends _ _ _ _ _ _ fun k => (sfmtOf _).add (k.mode _)
  case h_2 => exact float3_ends _ _ _ _ _ _ fun k => (sfmtOf _).sub (k.mode _)
  case h_3 => exact float3_ends _ _ _ _ _ _ fun k => (sfmtOf _).mul (k.mode _)
  case h_4 => exact float3_ends _ _ _ _ _ _ fun k => (sfmtOf _).div (k.mode _)
  case h_5 x _ _ => exact float3_ends _ _ _ x x _ fun k v _ => (sfmtOf _).sqrt (k.mode _) v
  case h_6 => exact float3_ends _ _ _ _ _ _ fun _ => minMax false
  case h_7 => exact float3_ends _ _ _ _ _ _ fun _ => minMax true
  case h_8 => exact execFfma_ends ..
  case h_9 => exact execFcvt_ends ..
  case h_10 => exact execFclass_ends ..

/-- Each floating-point instruction ends with the flags it raises. -/
theorem exec_raisedBy {s : State} {i : Instr} {h : Hd} {f : Fl} (e : raisedBy s.core i = some (h, f)) :
    ∃ wr, FloatEnds s (exec i s) h f wr := by
  unfold raisedBy at e
  split at e
  case h_1 h' g x y k f' sig =>
    obtain ⟨rfl, rfl⟩ := Prod.mk.inj (Option.some.inj e)
    exact ⟨_, execFcmp_ends ..⟩
  case h_2 =>
    obtain ⟨⟨h', d, v, f'⟩, hf, he⟩ := Option.map_eq_some_iff.mp e
    cases he
    exact ⟨_, exec_floatOf hf⟩

/-- The first part of O4. -/
theorem floatResults : Claims.FloatResults := by
  intro s i h d v f e hg ht
  obtain ⟨b, hi, hb⟩ := exec_floatOf e
  exact issue64_completes hg hi (f := fun c => (c.raise f).setS d v) (hb.trans (floatEnd_quiet _ ht)) (Core.setS_slots ..)

/-- The second part of O4. -/
theorem floatTraps : Claims.FloatTraps := by
  intro s i h f e hg ht hs
  obtain ⟨wr, b, hi, hb⟩ := exec_raisedBy e
  rw [State.issue64, hg] at hi
  refine ⟨_, hi.trans (State.issue_halt (hb.trans (floatEnd_trapping _ ht))),
    takeTrap_enters_owed hs (f := (·.raise f)) ⟨rfl, rfl, rfl⟩ ⟨rfl, rfl⟩ _ s.core.ctx.pc 0, ?_⟩
  rw [State.halted, takeTrap_upd hs (f := (·.raise f)) ⟨rfl, rfl⟩, State.upd_core]
  rfl

/-! ## The order of values -/

/-- The numerator of a finite value over a power of two that is not above its own. -/
theorem ratOf_scaled (n : Bool) (m : Nat) {e k : Int} (h : k ≤ e) :
    ratOf n m e = (((if n then -1 else 1) * (m * 2 ^ (e - k).toNat : Nat) : Int) : ℚ) * 2 ^ k := by
  have hp : (2 : ℚ) ^ e = 2 ^ (e - k).toNat * 2 ^ k := by
    rw [← zpow_natCast, ← zpow_add₀ (by norm_num)]
    congr 1
    omega
  rw [ratOf, hp]
  push_cast
  ring

/-- `FV.lt` is the order of the places. -/
theorem FV.lt_iff {a b : FV} (ha : a.isNaN = false) (hb : b.isNaN = false) : a.lt b = true ↔ placeOf a < placeOf b := by
  cases a with
  | nan => cases ha
  | inf n =>
    cases b with
    | nan => cases hb
    | inf k => cases n <;> cases k <;> simp [FV.lt, placeOf, Prod.Lex.toLex_lt_toLex]
    | fin k m e => cases n <;> simp [FV.lt, placeOf, Prod.Lex.toLex_lt_toLex]
  | fin n m e =>
    cases b with
    | nan => cases hb
    | inf k => cases k <;> simp [FV.lt, placeOf, Prod.Lex.toLex_lt_toLex]
    | fin k w q =>
      have hpos : (0 : ℚ) < 2 ^ (min e q) := by positivity
      simp only [FV.lt, placeOf, Prod.Lex.toLex_lt_toLex, lt_irrefl, false_or, true_and, decide_eq_true_eq]
      rw [ratOf_scaled n m (min_le_left e q), ratOf_scaled k w (min_le_right e q), mul_lt_mul_iff_left₀ hpos, Int.cast_lt]

theorem FV.eq_iff {a b : FV} (ha : a.isNaN = false) (hb : b.isNaN = false) : a.eq b = true ↔ placeOf a = placeOf b := by
  have hab := FV.lt_iff ha hb
  have hba := FV.lt_iff hb ha
  simp only [FV.eq, ha, hb, Bool.not_false, Bool.true_and, Bool.and_eq_true, Bool.not_eq_true', ← Bool.not_eq_true, hab, hba, not_lt]
  exact ⟨fun h => le_antisymm h.2 h.1, fun h => ⟨h.ge, h.le⟩⟩

/-- With a NaN a condition holds only as `.ne` or `.un`. -/
theorem fcondHolds_nan {a b : FV} (h : (a.isNaN || b.isNaN) = true) (k : FCond) : fcondHolds k a b = true ↔ k = .ne ∨ k = .un := by
  have heq : a.eq b = false := by
    rcases Bool.or_eq_true .. ▸ h with h | h <;> simp [FV.eq, h]
  cases k <;> simp [fcondHolds, h, heq]

end Sys2Proof.Machine

namespace Sys2Proof

set_option Elab.async false

open Machine

/-- Settles O4: each of the instructions ends with the flags it raises and the write of its destination, or traps. -/
theorem floatArithmetic : Obligations.FloatArithmetic := ⟨floatResults, floatTraps⟩

/-- Settles O5: the value written is the float condition, which follows the order of the places of values that are no NaN. -/
theorem floatCompares : Obligations.FloatCompares := by
  intro s h g x y k f sig hg a b nan fl ht
  refine ⟨fcondHolds k a b, ?_, fun hn => fcondHolds_nan hn k, fun hn => ?_⟩
  · obtain ⟨body, hi, hb⟩ := execFcmp_ends s h g x y k f sig
    exact issue64_completes hg (i := .fcmp h g x y k f sig) hi (f := fun c => (c.raise fl).setG g (fcondHolds k a b))
      (hb.trans (floatEnd_quiet _ ht)) (Core.setG_slots ..)
  · obtain ⟨ha, hb⟩ := Bool.or_eq_false_iff.mp hn
    have hab := FV.lt_iff ha hb
    have hba := FV.lt_iff hb ha
    have heq := FV.eq_iff ha hb
    refine ⟨?_, ?_, ?_, ?_, ?_, ?_, ?_, ?_⟩ <;> rintro rfl
    · exact hn
    · simp [fcondHolds, ha, hb]
    · exact heq
    · simp [fcondHolds, ← heq]
    · simp [fcondHolds, ha, hb, hab]
    · simp [fcondHolds, ha, hb, ← not_lt, ← hab]
    · simp [fcondHolds, ha, hb, ← not_lt, ← hba]
    · simp [fcondHolds, ha, hb, hba]

end Sys2Proof
end

section
/-! PROOFS. Chains (R79 to R81, R153 to R158). First: what empty slots leave. -/

namespace Sys2Proof.Machine

set_option Elab.async false

/-! ## What empty slots leave -/

/-- The running core, and what `g` says of every core. -/
structure State.Fixes {α : Type} (g : Core → α) (k : Fin 768) (p : Nat → α) (s : State) : Prop where
  cur : s.cur = k
  val : ∀ i, g (s.at i) = p i

section
variable {α : Type} {g : Core → α} {k : Fin 768} {p : Nat → α} {s : State} (h : s.Fixes g k p)
include h

/-- The same of the running core. -/
theorem State.Fixes.core : g s.core = p k := by rw [← State.at_cur, ← h.cur]; exact h.val _

/-- Coherence changes nothing that neither the L1 nor the memory queue decides. -/
theorem State.Fixes.tame {t : State} (e : State.Tame s t) (hg : ∀ c l m, g { c with l1 := l, memq := m } = g c := by intros; rfl) :
    t.Fixes g k p := ⟨e.cur.trans h.cur, fun i => by rw [e.core i, hg]; exact h.val i⟩

/-- An update of anything but the cores. -/
theorem State.Fixes.rest {t : State} (hcur : t.cur = s.cur := by rfl) (hc : t.cores = s.cores := by rfl) : t.Fixes g k p :=
  ⟨hcur.trans h.cur, fun i => by rw [show t.at i = s.at i by simp [State.at, hc]]; exact h.val i⟩

theorem State.Fixes.ite {t : State} {q : Prop} [Decidable q] (ht : t.Fixes g k p) : (if q then s else t).Fixes g k p := by
  split
  · exact h
  · exact ht

theorem State.Fixes.foldl {β : Type} {f : State → β → State} {l : List β} (hf : ∀ s a, s.Fixes g k p → (f s a).Fixes g k p) :
    (l.foldl f s).Fixes g k p := List.foldlRecOn l f h fun t ht a _ => hf t a ht

theorem State.Fixes.on {i : Nat} {f : Core → Core} (hf : ∀ c, g (f c) = g c := by intros; rfl) : (s.on i f).Fixes g k p := by
  refine ⟨h.cur, fun j => ?_⟩
  by_cases hij : i = j
  · subst hij
    by_cases hi : i < 768
    · rw [State.on_at s hi, hf]; exact h.val i
    · rw [← h.val i]; simp [State.at, hi]
  · rw [State.on_at_ne s hij]; exact h.val j

end

/-- What empty slots and the writes that land in them leave of a core: its context but for the flags, its system registers but for the
count of slots and `inj`, and the size of its scratchpad (R65, R179, R237, R329). -/
def Core.lasting (c : Core) : Ctx × Sys × Nat := ({ c.ctx with fpc := 0 }, { c.sys with slots := 0, inj := 0 }, c.padKiB)

theorem Core.linkFailed_lasting (m : Nat × Nat) (c : Core) : (c.linkFailed m).lasting = c.lasting := by
  unfold Core.linkFailed
  dsimp only
  split <;> rfl

theorem Core.reported_lasting (b : Nat) (c : Core) : (c.updSys (·.reported b)).lasting = c.lasting := by
  simp only [Core.updSys, Sys.reported]
  split <;> rfl

/-- The running core and the lasting parts of the cores. -/
abbrev State.Lasts (k : Fin 768) (p : Nat → Ctx × Sys × Nat) (s : State) : Prop := s.Fixes Core.lasting k p

section
variable {k : Fin 768} {p : Nat → Ctx × Sys × Nat} {s : State} (h : s.Lasts k p)
include h

theorem State.Lasts.onMember {seq i} {f : Core → Core} (hf : ∀ c, (f c).lasting = c.lasting := by intros; rfl) :
    (s.onMember seq i f).Lasts k p := (h.on hf).ite h.rest

theorem State.Lasts.event {kind unit idx seq addr} : (s.event kind unit idx seq addr).Lasts k p :=
  h.ite ((h.tame (State.Tame.refl s).coherentWrite).rest.ite h.rest)

theorem State.Lasts.linkFails {r m} : Holds (State.Lasts k p) (s.linkFails r m) := by
  have failed : (((s.on r fun c => (c.updSys (·.reported 6)).linkFailed m).event 3 1 r (s.seqOf r) 0)).Lasts k p :=
    State.Lasts.event (State.Fixes.on h fun c => (Core.linkFailed_lasting ..).trans (Core.reported_lasting ..))
  exact .ite (.some (failed.event.ite failed)) .none

theorem State.Lasts.sendMove {c j} : Holds (State.Lasts k p) (s.sendMove c j) := by
  unfold State.sendMove
  dsimp only
  split
  · split
    · exact .none
    · split
      next _ _ e => exact .some (h.linkFails.some_of_eq e)
      · exact .some (h.onMember.on)
  · exact .none

end

theorem State.Lasts.slotsTo {k : Fin 768} {p : Nat → Ctx × Sys × Nat} {i keep n : Nat} {s t : State} (h : s.Lasts k p)
    (e : State.slotsTo i keep n s = .ok t) : t.Lasts k p := by
  induction n generalizing s with
  | zero => cases e
  | succ n ih =>
    unfold State.slotsTo at e
    split at e
    · split at e
      · split at e
        next _ _ e2 => exact ih (h.sendMove.some_of_eq e2) e
        · cases e
      · cases e
        exact h
    · split at e
      · cases e
      · split at e
        · dsimp only at e
          split at e
          next _ _ e2 => exact ih ((State.Lasts.sendMove (State.Fixes.on h)).some_of_eq e2) e
          · cases e
        · split at e
          · exact ih h.on e
          · cases e

theorem Core.drainTo_lasting {keep n : Nat} {c : Core} : Holds (fun d => d.lasting = c.lasting) (Core.drainTo keep n c) := by
  induction n generalizing c with
  | zero => exact .some rfl
  | succ n ih =>
    unfold Core.drainTo
    split
    · exact .some rfl
    · exact .ite .none ih

/-- Inserting empty slots changes neither the running core nor what lasts of a core. -/
theorem State.Lasts.slotted {k : Fin 768} {p : Nat → Ctx × Sys × Nat} {s t : State} (h : s.Lasts k p) {keep : Nat}
    {f : Core → Option Core} (hf : ∀ c, Holds (fun d => d.lasting = c.lasting) (f c)) (e : s.slotted keep f = .ok t) : t.Lasts k p := by
  unfold State.slotted at e
  split at e
  · cases e
    exact h
  · split at e
    · split at e
      next c ec =>
        cases e
        have hlast : c.lasting = s.core.lasting := (hf _).some_of_eq ec
        refine ⟨h.cur, fun i => ?_⟩
        by_cases hi : i = s.cur.val
        · subst hi
          calc ((s.setCore c).at s.cur).lasting = c.lasting := by rw [show s.cur = (s.setCore c).cur from rfl, State.at_cur]; simp
            _ = (s.at s.cur).lasting := by rw [hlast, State.at_cur]
            _ = p s.cur := h.val s.cur
        · exact (congrArg Core.lasting (s.setCore_at_ne (Ne.symm hi) c)).trans (h.val i)
      · cases e
    · split at e
      next _ e2 => cases e; exact h.slotsTo e2
      all_goals cases e

theorem State.Lasts.drained {k : Fin 768} {p : Nat → Ctx × Sys × Nat} {s t : State} (h : s.Lasts k p) (e : s.drained = .ok t) :
    t.Lasts k p := h.slotted (fun _ => Core.drainTo_lasting) e

theorem State.Lasts.roomed {k : Fin 768} {p : Nat → Ctx × Sys × Nat} {s t : State} (h : s.Lasts k p) (e : s.roomed = .ok t) :
    t.Lasts k p := h.slotted (fun _ => Core.drainTo_lasting) e

/-! ## The followers of a chain -/

theorem chainAbove_sorted (bits k n : Nat) : (chainAbove bits k n).Pairwise (· < ·) ∧ ∀ j ∈ chainAbove bits k n, k < j := by
  induction n generalizing k with
  | zero => simp [chainAbove]
  | succ n ih =>
    obtain ⟨hs, hk⟩ := ih (k + 1)
    unfold chainAbove
    split
    · exact ⟨List.pairwise_cons.mpr ⟨hk, hs⟩, by
        intro j hj
        rcases List.mem_cons.mp hj with rfl | hj
        · omega
        · have := hk j hj; omega⟩
    · simp

/-- The followers of a core are named once each, and are none of them the core (R153). -/
theorem State.followersOf_nodup (s : State) (i : Nat) : (s.followersOf i).Nodup ∧ i ∉ s.followersOf i := by
  unfold State.followersOf
  split
  · simp
  · split
    · simp
    · rename_i l _ _
      obtain ⟨hs, hk⟩ := chainAbove_sorted (l.chainOf (podOf i)) (i % 8) 7
      have hnodup : (chainAbove (l.chainOf (podOf i)) (i % 8) 7).Nodup := hs.imp fun h => h.ne
      refine ⟨hnodup.map fun a b hab => by simpa using hab, fun hm => ?_⟩
      obtain ⟨j, hj, he⟩ := List.mem_map.mp hm
      have := hk j hj
      simp only [podOf] at he
      omega

/-- The detached members that a leader's `JOIN` waits for. -/
theorem State.mem_detachedOf {s : State} {i k : Nat} :
    k ∈ s.detachedOf i ↔ k ∈ s.followersOf i ∧ (s.at k).ctx.attached = false ∧ (s.at k).phase = .running := by
  simp [State.detachedOf]

/-- Cores named once each are changed once each, and no other. -/
theorem State.foldl_on_nodup {f : Core → Core} {l : List Nat} (hl : l.Nodup) (s : State) (i : Nat) :
    (l.foldl (fun s k => s.on k f) s).at i = if i ∈ l ∧ i < 768 then f (s.at i) else s.at i := by
  induction l generalizing s with
  | nil => simp
  | cons k l ih =>
    obtain ⟨hk, hl⟩ := List.nodup_cons.mp hl
    rw [List.foldl_cons, ih hl]
    by_cases hik : i = k
    · subst hik
      by_cases hi : i < 768
      · simp [hk, hi, State.on_at s hi]
      · simp [hi, State.at]
    · simp [hik, State.on_at_ne s (Ne.symm hik)]

theorem State.foldl_on_mem {f : Core → Core} (l : List Nat) (s : State) : (l.foldl (fun s k => s.on k f) s).mem = s.mem := by
  induction l generalizing s with
  | nil => rfl
  | cons k l ih => exact ih (s.on k f)

/-- A change of cores that looks at the time finds the same time at every core. -/
theorem State.foldl_on_tick (f : Nat → Core → Core) (l : List Nat) (s : State) :
    l.foldl (fun s k => s.on k (f s.tick)) s = l.foldl (fun u k => u.on k (f s.tick)) s := by
  induction l generalizing s with
  | nil => rfl
  | cons k l ih => exact ih (s.on k (f s.tick))

/-! ## JOIN -/

/-- A halt that waits, with nothing done. -/
theorem waits_halted (u : State) (w : Wait) (d : Nat) (pc next : Word) : Waits u (State.halted d pc next (.wait w u)) w := by
  simp only [State.halted, Waits, State.upd_core, State.upd_mem, true_and, and_true]
  omega

theorem exec_join (s : State) (h : Hd) : exec (.join h) s = execJoin h s := rfl

/-- The members that a leader's `JOIN` waits for have met it. -/
theorem all_met_iff (u : State) : ((u.detachedOf u.cur).all fun k => (u.at k).wait == some .join && (u.at k).ctx.pc == u.core.ctx.pc) = true ↔
    ∀ k ∈ u.detachedOf u.cur, (u.at k).wait = some .join ∧ (u.at k).ctx.pc = u.core.ctx.pc := by simp

section
variable {s u : State} {h : Hd} (hg : s.core.guard h = true) (hl : s.drained = .ok u)
include hg hl

/-- A `JOIN` that finds nothing to wait for completes. -/
theorem join_completes (hout : u.core.ctx.attached = true ∨ (u.core.chainPos = 0 ∧ u.followersOf u.cur = []) ∨
    (u.core.chainPos ≠ 0 ∧ (u.at (u.leaderOf u.cur)).phase = .exited)) :
    Yields s (.join h) fun t => Completes u t u.core (s.after 8) h.dly.toNat := by
  have hi := exec_join s h
  rw [execJoin, State.issue64, hg] at hi
  refine ⟨_, hi.trans (State.issue_ok (t := u) (p := none) ?_), completes_finish u _ _⟩
  simp only [hl, ok_bind]
  by_cases ha : u.core.ctx.attached = true
  · simp only [ha, if_true]
    rfl
  · rcases hout with hout | ⟨hpos, hnone⟩ | ⟨hpos, hexit⟩
    · exact absurd hout ha
    · simp only [ha, hpos, if_true, Bool.false_eq_true, if_false, State.detachedOf, hnone]
      rfl
    · simp only [ha, hpos, if_false, Bool.false_eq_true, hexit]
      rfl

/-- A detached member waits while its leader runs on. -/
theorem join_waits_member (ha : u.core.ctx.attached = false) (hpos : u.core.chainPos ≠ 0) (hrun : (u.at (u.leaderOf u.cur)).phase = .running)
    (hnot : ¬ ((u.at (u.leaderOf u.cur)).wait = some .join ∧ (u.at (u.leaderOf u.cur)).ctx.pc ≠ u.core.ctx.pc)) :
    Yields s (.join h) fun t => Waits u t .join := by
  have hi := exec_join s h
  rw [execJoin, State.issue64, hg] at hi
  refine ⟨_, hi.trans (State.issue_halt (e := .wait .join u) ?_), ?_⟩
  · have hok : (!((u.at (u.leaderOf u.cur)).wait == some .join && (u.at (u.leaderOf u.cur)).ctx.pc != u.core.ctx.pc)) = true := by
      simpa [imp_iff_not_or] using hnot
    simp only [hl, ok_bind, ha, hpos, hrun, hok, Bool.false_eq_true, if_false]
    rfl
  · exact waits_halted ..

/-- A detached member whose leader waits at another `JOIN` traps. -/
theorem join_traps (ha : u.core.ctx.attached = false) (hpos : u.core.chainPos ≠ 0) (hrun : (u.at (u.leaderOf u.cur)).phase = .running)
    (hout : (u.at (u.leaderOf u.cur)).wait = some .join ∧ (u.at (u.leaderOf u.cur)).ctx.pc ≠ u.core.ctx.pc) (hs : u.handles = true) :
    Yields s (.join h) fun t => Enters u t (illegal 11 u) (u.core.ctx.pc &&& 0x1FFFFFFFFFFFFF) 0 := by
  have lasts : u.Lasts s.cur fun i => (s.at i).lasting := State.Lasts.drained ⟨rfl, fun _ => rfl⟩ hl
  have hpc : u.core.ctx.pc = s.core.ctx.pc := congrArg (fun x => x.1.pc) (lasts.core.trans (by rw [State.at_cur]))
  have hi := exec_join s h
  rw [execJoin, State.issue64, hg] at hi
  refine ⟨_, hi.trans (State.issue_halt (e := .trap (illegal 11 u) u) ?_), ?_⟩
  · have hbad : (!((u.at (u.leaderOf u.cur)).wait == some .join && (u.at (u.leaderOf u.cur)).ctx.pc != u.core.ctx.pc)) = false := by
      simpa using hout
    simp only [hl, ok_bind, ha, hpos, hrun, hbad, Bool.false_eq_true, if_false]
    rfl
  · have enters := takeTrap_enters_owed hs (f := id) ⟨rfl, rfl, rfl⟩ ⟨rfl, rfl⟩ (illegal 11 u) u.core.ctx.pc 0
    rw [State.upd_id] at enters
    rw [State.halted, ← hpc]
    exact enters

/-- A leader waits for the detached members that have not met it. -/
theorem join_waits_leader (ha : u.core.ctx.attached = false) (hpos : u.core.chainPos = 0)
    (hnot : ¬ ∀ k ∈ u.detachedOf u.cur, (u.at k).wait = some .join ∧ (u.at k).ctx.pc = u.core.ctx.pc) :
    Yields s (.join h) fun t => Waits u t .join := by
  have hi := exec_join s h
  rw [execJoin, State.issue64, hg] at hi
  refine ⟨_, hi.trans (State.issue_halt (e := .wait .join u) ?_), waits_halted ..⟩
  rw [← all_met_iff, Bool.not_eq_true] at hnot
  simp only [hl, ok_bind, ha, hpos, hnot, waitFor, Bool.false_eq_true, if_false, if_true]
  rfl

/-- A leader whose detached members have all met it completes, the members re-slaved. -/
theorem join_slaves (ha : u.core.ctx.attached = false) (hpos : u.core.chainPos = 0)
    (hmet : ∀ k ∈ u.detachedOf u.cur, (u.at k).wait = some .join ∧ (u.at k).ctx.pc = u.core.ctx.pc) :
    exec (.join h) s = .next (((u.detachedOf u.cur).foldl
      (fun s k => s.on k (Core.reslave h.dly.toNat (Config.stallCycles u.tick))) u).finish false h.dly.toNat (s.after 8)) := by
  have hi := exec_join s h
  rw [execJoin, State.issue64, hg] at hi
  refine hi.trans (State.issue_ok (p := none) ?_)
  rw [← all_met_iff] at hmet
  simp only [hl, ok_bind, ha, hpos, hmet, waitFor, Bool.false_eq_true, if_false, if_true]
  rw [State.foldl_on_tick fun k => Core.reslave h.dly.toNat (Config.stallCycles k)]
  rfl

end

/-- Slaving again the detached members of the running core, which then completes. -/
theorem slaved (u : State) (d m : Nat) (n : Word) :
    let f := Core.reslave d m
    let t := ((u.detachedOf u.cur).foldl (fun s k => s.on k f) u).finish false d n
    Retires u t n d ∧ t.core.registers = u.core.registers ∧ t.mem = u.mem ∧
      ∀ k, k ≠ u.cur.val → t.at k = if k ∈ u.detachedOf u.cur ∧ k < 768 then f (u.at k) else u.at k := by
  intro f t
  let w := (u.detachedOf u.cur).foldl (fun s k => s.on k f) u
  obtain ⟨hfollow, hself⟩ := u.followersOf_nodup u.cur
  have hat (k : Nat) : w.at k = if k ∈ u.detachedOf u.cur ∧ k < 768 then f (u.at k) else u.at k :=
    State.foldl_on_nodup (hfollow.filter _) u k
  have hcur : w.cur = u.cur := (State.foldl_on_frame _ u).1
  have hcore : w.core = u.core := by
    rw [← State.at_cur, hcur, hat, if_neg fun hm => hself (State.mem_detachedOf.mp hm.1).1, State.at_cur]
  have hmem : w.mem = u.mem := State.foldl_on_mem _ u
  have done := completes_finish w d n
  refine ⟨⟨done.pc, hcore ▸ done.slots, done.going⟩, ?_, ?_, fun k hk => ?_⟩
  · simp [t, show (u.detachedOf u.cur).foldl (fun s k => s.on k f) u = w from rfl, hcore, Core.retire, Core.registers]
  · exact (by simp [t, w, State.finish_eq] : t.mem = w.mem).trans hmem
  · exact (done.others k (hcur ▸ hk)).trans (hat k)

/-! ## YIELD and DETACH -/

theorem exec_yield (s : State) (h : Hd) : exec (.yield h) s = execYield h s := rfl

theorem exec_detach (s : State) (h : Hd) : exec (.detach h) s = execDetach h s := rfl

/-- At a yield point a core stops for a pending request, unless it is an attached follower (R26, R158). -/
theorem Core.atYield_true (c : Core) : ∃ b : Bool, Core.atYield true c = { c with stopped := b } ∧
    (b = true ↔ c.stopped = true ∨ (c.stopReq ≠ none ∧ c.ctx.attached = false)) := by
  have hstop : (true && c.stopReq.isSome && !c.ctx.attached) = true ↔ c.stopReq ≠ none ∧ c.ctx.attached = false := by
    simp [Option.isSome_iff_ne_none]
  unfold Core.atYield
  split
  next h => exact ⟨true, rfl, by simp [hstop.mp h]⟩
  next h => exact ⟨c.stopped, rfl, by simp [mt hstop.mpr h]⟩

theorem yield_completes {s : State} {h : Hd} (hg : s.core.guard h = true) : Yields s (.yield h) fun t =>
    ∃ b : Bool, Completes s t { s.core with stopped := b } (s.after 8) h.dly.toNat ∧
      (b = true ↔ s.core.stopped = true ∨ (s.core.stopReq ≠ none ∧ s.core.ctx.attached = false)) := by
  have hi := exec_yield s h
  rw [execYield, hg] at hi
  obtain ⟨t, ht, hc⟩ := issue_completes hi (f := id) (by rw [State.upd_id]; rfl) rfl
  obtain ⟨b, hb, hiff⟩ := s.core.atYield_true
  exact ⟨t, ht, b, hb ▸ hc, hiff⟩

theorem detach_completes {s : State} {h : Hd} (hg : s.core.guard h = true) : Yields s (.detach h) fun t =>
    Completes s t { s.core with replay := [], ctx := { s.core.ctx with attached := false } } (s.after 8) h.dly.toNat :=
  issue64_completes hg (exec_detach ..) (f := fun c => { c with replay := [], ctx := { c.ctx with attached := false } }) rfl rfl

end Sys2Proof.Machine

namespace Sys2Proof

set_option Elab.async false

open Machine

/-- Settles O25: each clause is a lemma above. -/
theorem chainInstructions : Obligations.ChainInstructions := by
  refine fun s h hg => ⟨yield_completes hg, detach_completes hg, fun u hl => ⟨join_completes hg hl, ?_, ?_⟩⟩
  · intro ha hpos hrun astray
    exact ⟨join_waits_member hg hl ha hpos hrun, join_traps hg hl ha hpos hrun⟩
  · intro ha hpos out met
    have hout (k : Nat) : k ∈ u.detachedOf u.cur ↔ out k := State.mem_detachedOf
    refine ⟨fun hmet => ?_, fun ⟨k, hk, hnot⟩ => join_waits_leader hg hl ha hpos fun hall => hnot (hall k ((hout k).mpr hk))⟩
    obtain ⟨hret, hregs, hmem, hat⟩ := slaved u h.dly.toNat (Config.stallCycles u.tick) (s.after 8)
    refine ⟨_, join_slaves hg hl ha hpos fun k hk => hmet k ((hout k).mp hk), hret, hregs, hmem, fun k hk hnot => ?_, fun k hk => ?_⟩
    · rw [hat k hk, if_neg fun hm => hnot ((hout k).mp hm.1)]
    · have hlt : k < 768 := by
        by_contra hge
        have : (u.at k).phase = .idle := by simp [State.at, hge, Core.reset]
        exact absurd (this.symm.trans hk.2.2) (by decide)
      have hne : k ≠ u.cur.val := fun e => (u.followersOf_nodup u.cur).2 (e ▸ hk.1)
      rw [hat k hne, if_pos ⟨(hout k).mpr hk, hlt⟩, ← (hmet k hk).2]
      exact ⟨rfl, rfl, rfl, rfl, rfl⟩

end Sys2Proof
end

section
/-! PROOFS. The end of a core's part of a launch (R78). First: what the end of a squad's superstep does to logs, memory, objects and other
devices leaves the outline of the launches as it is: which core and which saved image is in which launch, running or exited, and which
launch has ended. -/

namespace Sys2Proof.Machine

set_option Elab.async false

/-! ## The outline of the launches -/

/-- A launch: its sequence number, its status, the cores of its squads. -/
def Launch.outline (l : Launch) : Word × LStatus × List (List Nat) := (l.record.seq, l.status, l.squads.map (·.cores))

/-- Squads changed but for their cores. -/
theorem Launch.outline_squads {l : Launch} {f : Squad → Squad} (hf : ∀ q, (f q).cores = q.cores) :
    ({ l with squads := l.squads.map f } : Launch).outline = l.outline := by
  simp [Launch.outline, Function.comp_def, hf]

/-- A saved image: its launch, its core, its phase. -/
def Image.outline (m : Image) : Word × Nat × Phase := (m.seq, m.home, m.core.phase)

/-- The outline of the launches: the running core, every core's phase and launch, the launches and the saved images. -/
structure Outline where
  cur : Fin 768
  core : Nat → Phase × Option Word
  launches : List (Word × LStatus × List (List Nat))
  images : List (Word × Nat × Phase)

/-- A state has an outline. -/
structure State.Outlined (W : Outline) (s : State) : Prop where
  cur : s.cur = W.cur
  core : ∀ i, ((s.at i).phase, (s.at i).launch) = W.core i
  launches : s.launches.map Launch.outline = W.launches
  images : s.images.map Image.outline = W.images

/-- The outline of a state. -/
def State.outline (s : State) : Outline where
  cur := s.cur
  core i := ((s.at i).phase, (s.at i).launch)
  launches := s.launches.map Launch.outline
  images := s.images.map Image.outline

theorem State.outlined (s : State) : s.Outlined s.outline := ⟨rfl, fun _ => rfl, rfl, rfl⟩

section
variable {W : Outline} {s : State} (h : s.Outlined W)
include h

/-- An update of anything but the cores, the launches and the images. -/
theorem State.Outlined.rest {t : State} (hcur : t.cur = s.cur := by rfl) (hc : t.cores = s.cores := by rfl)
    (hl : t.launches = s.launches := by rfl) (hi : t.images = s.images := by rfl) : t.Outlined W where
  cur := hcur.trans h.cur
  core i := by rw [show t.at i = s.at i by simp [State.at, hc]]; exact h.core i
  launches := hl ▸ h.launches
  images := hi ▸ h.images

theorem State.Outlined.ite {t : State} {p : Prop} [Decidable p] (ht : t.Outlined W) : (if p then s else t).Outlined W := by
  split
  · exact h
  · exact ht

theorem State.Outlined.foldl {α : Type} {f : State → α → State} {l : List α} (hf : ∀ s a, s.Outlined W → (f s a).Outlined W) :
    (l.foldl f s).Outlined W := List.foldlRecOn l f h fun t ht a _ => hf t a ht

theorem State.Outlined.on {i : Nat} {f : Core → Core} (hp : ∀ c, (f c).phase = c.phase := by intros; rfl)
    (hl : ∀ c, (f c).launch = c.launch := by intros; rfl) : (s.on i f).Outlined W where
  cur := h.cur
  launches := h.launches
  images := h.images
  core j := by
    by_cases hij : i = j
    · subst hij
      by_cases hi : i < 768
      · rw [State.on_at s hi, hp, hl]; exact h.core i
      · rw [← h.core i]; simp [State.at, hi]
    · rw [State.on_at_ne s hij]; exact h.core j

theorem State.Outlined.onMember {seq i} {f : Core → Core} (hp : ∀ c, (f c).phase = c.phase := by intros; rfl)
    (hl : ∀ c, (f c).launch = c.launch := by intros; rfl) : (s.onMember seq i f).Outlined W := by
  refine (h.on hp hl).ite ⟨h.cur, h.core, h.launches, ?_⟩
  rw [← h.images, List.map_map]
  refine List.map_congr_left fun m _ => ?_
  simp only [Function.comp_apply]
  split
  · simp [Image.outline, hp]
  · rfl

/-- An update of the launches that leaves the outline of each. -/
theorem State.Outlined.mapLaunches {f : Launch → Launch} (hf : ∀ l, (f l).outline = l.outline) :
    ({ s with launches := s.launches.map f } : State).Outlined W where
  cur := h.cur
  core := h.core
  images := h.images
  launches := by
    rw [← h.launches, List.map_map]
    exact List.map_congr_left fun l _ => hf l

theorem State.Outlined.updLaunch {seq : Word} {f : Launch → Launch} (hf : ∀ l, (f l).outline = l.outline := by intros; rfl) :
    (s.updLaunch seq f).Outlined W := h.mapLaunches fun l => by
  split
  · exact hf l
  · rfl

theorem State.Outlined.updSquadOf {seq i} {f : Squad → Squad} (hf : ∀ q, (f q).cores = q.cores := by intros; rfl) :
    (s.updSquadOf seq i f).Outlined W := h.updLaunch fun l => Launch.outline_squads fun q => by
  split
  · exact hf q
  · rfl

theorem State.Outlined.onSquad {seq q} {f : Squad → Squad} (hf : ∀ q, (f q).cores = q.cores := by intros; rfl) :
    (s.onSquad seq q f).Outlined W := h.updLaunch fun l => Launch.outline_squads fun q => by
  split
  · exact hf q
  · rfl

/-! ### Coherence -/

theorem State.Outlined.sendTo {dst cls seq b} : (s.sendTo dst cls seq b).Outlined W := h.rest

theorem State.Outlined.askFor {r b} : (s.askFor r b).Outlined W := h.sendTo.ite h

theorem State.Outlined.askOthers {pa n} : (s.askOthers pa n).Outlined W := (h.foldl fun _ _ hs => hs.askFor).rest

theorem State.Outlined.dropCopies {pa n} : (s.dropCopies pa n).Outlined W := h.foldl fun _ _ hs => hs.on

theorem State.Outlined.writeKeys {ks : List (Nat × Nat)} {bs : List Byte} : (State.writeKeys ks bs s).Outlined W := by
  induction ks generalizing s bs with
  | nil => exact h
  | cons k ks ih => exact ih h.dropCopies.rest

theorem State.Outlined.journal {seq gs} : (s.journal seq gs).Outlined W := by
  unfold State.journal
  split
  · exact h
  · exact h.ite (h.writeKeys.updLaunch.ite h.updLaunch)

theorem State.Outlined.noted {seq i undo pa n} : (s.noted seq i undo pa n).Outlined W := by
  refine (h.journal.updLaunch fun l => Launch.outline_squads fun q => ?_).ite h.journal
  split <;> rfl

theorem State.Outlined.setBytes {who undo pa bs hint} : (s.setBytes who undo pa bs hint).Outlined W := by
  have noted : (match who with
      | none => s
      | some i => match (s.at i).launch with
        | none => s
        | some q => s.noted q i undo pa bs.length).Outlined W := by
    split
    · exact h
    · split
      · exact h
      · exact h.noted
  exact noted.rest

theorem State.Outlined.tellAs {seq pa b} : (s.tellAs seq pa b).Outlined W := by
  unfold State.tellAs
  split
  · exact h
  · have sent := h.sendTo (dst := pa / 2 ^ 41) (cls := 0) (seq := seq) (b := b)
    dsimp only
    generalize s.sendTo (pa / 2 ^ 41) 0 seq b = t at sent
    split
    · exact sent.rest
    · exact sent

theorem State.Outlined.tellHome {who pa b} : (s.tellHome who pa b).Outlined W := by
  unfold State.tellHome
  split
  · exact h
  · exact h.tellAs

theorem State.Outlined.homeWrite {who undo pa bs} : (s.homeWrite who undo pa bs).Outlined W := h.setBytes.tellHome

theorem State.Outlined.drainWb {p i} : (s.drainWb p i).Outlined W := by
  refine h.on.foldl fun _ _ hs => ?_
  split
  · exact hs.homeWrite
  · exact hs

theorem State.Outlined.onL1 {i f} : (s.onL1 i f).Outlined W := h.on.foldl fun _ _ hs => hs.drainWb.homeWrite

theorem State.Outlined.invalidateAt {i pa n} : (s.invalidateAt i pa n).Outlined W := by
  have invalidated := h.onL1 (i := i) (f := fun v es => invalidateL1 v pa n es)
  exact invalidated.on (f := fun c => { c with memq := c.memq ++ (s.at i).repins pa n })

theorem State.Outlined.withdraw {keep pa n} : (s.withdraw keep pa n).Outlined W := by
  have settled : (s.settleWb pa n).Outlined W := h.foldl fun _ _ hs => hs.drainWb
  exact settled.askOthers.foldl fun _ _ hs => hs.invalidateAt

theorem State.Outlined.memberWrite {seq i undo pa bs hint} : (s.memberWrite seq i undo pa bs hint).Outlined W :=
  h.withdraw.noted.setBytes.tellAs

/-! ### Objects and queues -/

theorem State.Outlined.cbChanged {pa} : (s.cbChanged pa).Outlined W := h.ite ((h.rest.ite h).foldl fun _ _ hs => hs.sendTo)

theorem State.Outlined.queuesWritten {before : State} : (before.queuesWritten s).Outlined W := h.foldl fun _ _ hs => hs.cbChanged

theorem State.Outlined.syncStep {who undo pa f} : (s.syncStep who undo pa f).Outlined W := by
  unfold State.syncStep
  refine State.Outlined.mapLaunches ?_ fun l => Launch.outline_squads fun q => ?_
  · split
    · exact h.withdraw.setBytes
    · exact h.withdraw.setBytes.ite h.withdraw.memberWrite
  · split <;> rfl

theorem State.Outlined.requeue {pa} : (s.requeue pa).Outlined W := h.withdraw.ite h.withdraw.setBytes

theorem State.Outlined.expose {seq pa} : (s.expose seq pa).Outlined W := h.mapLaunches fun l => by split <;> rfl

theorem State.Outlined.exposeAll {pa} : (s.exposeAll pa).Outlined W := h.mapLaunches fun l => by split <;> rfl

theorem State.Outlined.kept {who pa bs} : (s.kept who pa bs).Outlined W :=
  h.mapLaunches fun l => Launch.outline_squads fun q => by split <;> rfl

theorem State.Outlined.granting {r} : (s.granting r).Outlined W := by
  unfold State.granting
  dsimp only
  have noted : ({ s with syncs := s.syncs.map fun x => if x == r then { x with granted := true } else x } : State).Outlined W := h.rest
  refine State.Outlined.requeue ?_
  cases s.asker r with
  | none =>
    have stepped := noted.syncStep (who := none) (undo := false) (pa := r.pa) (f := (syncHeld · r.excl r.team))
    exact .exposeAll (.sendTo (State.Outlined.rest stepped))
  | some m => exact .expose (.ite (.updSquadOf noted) noted.syncStep)

theorem State.Outlined.grant {pa n} : (State.grant pa n s).Outlined W := by
  induction n generalizing s with
  | zero => exact h
  | succ n ih =>
    unfold State.grant
    split
    · exact h
    · exact h.withdraw.ite (ih h.withdraw.granting)

theorem State.Outlined.returnSlots {pa back} : (s.returnSlots pa back).Outlined W := h.foldl fun _ _ hs => hs.sendTo

theorem State.Outlined.reserve {seq i pa r} : (s.reserve seq i pa r).Outlined W := h.memberWrite.kept.onMember

theorem State.Outlined.serveCb {pa n back} : (State.serveCb pa n s back).Outlined W := by
  induction n generalizing s back with
  | zero => exact h.returnSlots
  | succ n ih =>
    unfold State.serveCb
    split
    · exact h.returnSlots
    · dsimp only
      have seen : (if s.isRemote pa then s else s.withdraw none pa 128).Outlined W := h.ite h.withdraw
      generalize (if s.isRemote pa then s else s.withdraw none pa 128) = u at seen
      refine seen.returnSlots.ite (.ite (ih ?_) (ih ?_))
      · exact (State.Outlined.rest seen).reserve.cbChanged
      · exact (State.Outlined.rest seen).setBytes.cbChanged

/-! ### The end of a squad's superstep -/

theorem State.Outlined.commitWrite {seq i e} : (State.commitWrite seq i s e).Outlined W := h.noted.memberWrite

theorem State.Outlined.applyLog {seq i} : (State.applyLog seq s i).Outlined W := (h.foldl fun _ _ hs => hs.commitWrite).onMember

theorem State.Outlined.commitLogs {seq q} : (s.commitLogs seq q).Outlined W := h.ite (h.foldl fun _ _ hs => hs.applyLog).onSquad

theorem State.Outlined.release {seq i a} : (State.release seq i s a).Outlined W := by
  unfold State.release
  dsimp only
  have shown := h.updLaunch (seq := seq) (f := fun l => { l with shown := if l.shown.contains a.pa then l.shown else a.pa :: l.shown,
                                                                 exposed := l.exposed || s.isRemote a.pa })
  split
  · split
    · exact shown.syncStep.tellAs
    · exact shown.syncStep
  · split
    · exact shown.memberWrite.queuesWritten
    · refine State.Outlined.serveCb (State.Outlined.cbChanged ?_)
      split
      · exact shown.withdraw.noted.setBytes.tellAs
      · exact shown.withdraw.noted.setBytes.tellAs
      · exact shown.withdraw.noted.setBytes

theorem State.Outlined.releaseAll {seq i as} : (s.releaseAll seq i as).Outlined W :=
  (h.foldl fun _ _ hs => hs.release).foldl fun _ _ hs => hs.grant.ite hs

theorem State.Outlined.noteTrigger {seq} : (s.noteTrigger seq).Outlined W := by
  unfold State.noteTrigger
  split
  · exact h
  · exact h.ite h.updLaunch

theorem State.Outlined.finishSquad {seq q} : (s.finishSquad seq q).Outlined W := by
  have proven : (q.cores.foldl (fun s i => s.onMember seq i Core.prove) (s.commitLogs seq q)).Outlined W :=
    h.commitLogs.foldl fun _ _ hs => hs.onMember
  exact proven.onSquad.releaseAll.noteTrigger

end

end Sys2Proof.Machine
end

section
/-! PROOFS. What the end of a squad's superstep does with its logs does not look at the timed windows of the cores (R236, R259). -/

namespace Sys2Proof.Machine

set_option Elab.async false

/-- A core without its timed window. -/
def Core.windowless (c : Core) : Core := { c with window := none }

/-- A state without its timed windows. -/
def State.shut (s : State) : State := { s with cores := s.cores.map Core.windowless }

@[simp] theorem State.shut_at (s : State) (i : Nat) : s.shut.at i = (s.at i).windowless := by
  by_cases hi : i < 768
  · simp [State.at, State.shut, hi]
  · simp [State.at, hi]
    rfl

theorem State.shut_on (s : State) (i : Nat) {f g : Core → Core} (h : (f (s.at i)).windowless = g (s.at i).windowless) :
    s.shut.on i g = (s.on i f).shut := by
  rw [State.on, State.on, State.shut_at, ← h, State.put, State.put, State.shut, State.shut]
  congr 1
  ext j hj : 1
  simp [Vector.getElem_setIfInBounds]

theorem State.shut_foldl {α : Type} {f : State → α → State} (h : ∀ s a, f s.shut a = (f s a).shut) (l : List α) (s : State) :
    l.foldl f s.shut = (l.foldl f s).shut := by
  induction l generalizing s with
  | nil => rfl
  | cons a l ih => rw [List.foldl_cons, h, ih, List.foldl_cons]

theorem State.shut_ite {a b s t : State} {p : Prop} [Decidable p] (ha : a = s.shut) (hb : b = t.shut) :
    (if p then a else b) = (if p then s else t).shut := by
  split
  · exact ha
  · exact hb

/-! ## Coherence -/

theorem State.shut_launchOf (s : State) (i : Nat) : s.shut.launchOf i = s.launchOf i := by
  rw [State.launchOf, State.shut_at]
  rfl

theorem State.shut_space (s : State) (i : Nat) : s.shut.space i = s.space i := by rw [State.space, State.shut_launchOf]; rfl

theorem State.shut_l1Env (s : State) (i : Nat) : s.shut.l1Env i = s.l1Env i := by
  have houtstanding (r : MemReq) : s.shut.outstanding i r = s.outstanding i r := by
    cases r with
    | fill va n x c =>
      simp only [State.outstanding, State.shut_space, State.shut_at]
      rfl
    | _ => rfl
  simp only [State.l1Env, State.busyExtents, State.reached, houtstanding, State.shut_at]
  rfl

theorem State.shut_sharers (s : State) (pa n : Nat) : s.shut.sharers pa n = s.sharers pa n := by
  have from_map (cs : List Core) (i : Nat) : sharersFrom pa n i (cs.map Core.windowless) = sharersFrom pa n i cs := by
    induction cs generalizing i with
    | nil => rfl
    | cons c cs ih =>
      rw [List.map_cons, sharersFrom, sharersFrom, ih]
      rfl
  rw [State.sharers, State.sharers, State.shut, Vector.toList_map, from_map]

theorem State.shut_wbackers (s : State) (pa n : Nat) : wbackers pa n 0 s.shut.cores.toList = wbackers pa n 0 s.cores.toList := by
  have from_map (cs : List Core) (i : Nat) : wbackers pa n i (cs.map Core.windowless) = wbackers pa n i cs := by
    induction cs generalizing i with
    | nil => rfl
    | cons c cs ih =>
      rw [List.map_cons, wbackers, wbackers, ih]
      rfl
  rw [State.shut, Vector.toList_map, from_map]

theorem State.shut_dropCopies (s : State) (pa n : Nat) : s.shut.dropCopies pa n = (s.dropCopies pa n).shut := by
  rw [State.dropCopies, State.shut_sharers]
  refine State.shut_foldl (fun s i => ?_) _ s
  simp only [State.shut_l1Env, State.shut_at]
  exact State.shut_on s i rfl

theorem State.shut_writeKeys (ks : List (Nat × Nat)) (bs : List Byte) (s : State) :
    State.writeKeys ks bs s.shut = (State.writeKeys ks bs s).shut := by
  induction ks generalizing s bs with
  | nil => rfl
  | cons k ks ih =>
    rw [State.writeKeys, State.writeKeys, State.shut_dropCopies]
    exact ih _ { s.dropCopies k.1 k.2 with mem := s.mem.write k.1 (bs.take k.2) }

theorem State.shut_journal (s : State) (seq : Word) (gs : List Nat) : s.shut.journal seq gs = (s.journal seq gs).shut := by
  unfold State.journal
  rw [show s.shut.launch seq = s.launch seq from rfl]
  split
  · rfl
  · refine State.shut_ite rfl (State.shut_ite ?_ rfl)
    exact congrArg (State.updLaunch · seq _) (State.shut_writeKeys ..)

theorem State.shut_noted (s : State) (seq : Word) (i : Nat) (undo : Bool) (pa n : Nat) :
    s.shut.noted seq i undo pa n = (s.noted seq i undo pa n).shut := by
  simp only [State.noted, State.shut_journal]
  split <;> rfl

theorem State.shut_setBytes (s : State) (who : Option Nat) (undo : Bool) (pa : Nat) (bs : List Byte) (hint : BitVec 4) :
    s.shut.setBytes who undo pa bs hint = (s.setBytes who undo pa bs hint).shut := by
  cases who with
  | none => rfl
  | some i =>
    simp only [State.setBytes, State.shut_at, show ∀ c : Core, c.windowless.launch = c.launch from fun _ => rfl, State.shut_noted]
    cases (s.at i).launch <;> rfl

theorem State.shut_sendTo (s : State) (dst cls : Nat) (seq : Option Word) (b : Payload) :
    s.shut.sendTo dst cls seq b = (s.sendTo dst cls seq b).shut := rfl

theorem State.shut_tellAs (s : State) (seq : Option Word) (pa : Nat) (b : Payload) : s.shut.tellAs seq pa b = (s.tellAs seq pa b).shut := by
  unfold State.tellAs
  refine State.shut_ite rfl ?_
  dsimp only
  split <;> rfl

theorem State.shut_tellHome (s : State) (who : Option Nat) (pa : Nat) (b : Payload) :
    s.shut.tellHome who pa b = (s.tellHome who pa b).shut := by
  cases who with
  | none => rfl
  | some i =>
    rw [State.tellHome, State.shut_at]
    exact State.shut_tellAs ..

theorem State.shut_homeWrite (s : State) (who : Option Nat) (undo : Bool) (pa : Nat) (bs : List Byte) :
    s.shut.homeWrite who undo pa bs = (s.homeWrite who undo pa bs).shut := by
  have hteam : ((who.map fun i => (s.shut.at i).team).getD 0) = ((who.map fun i => (s.at i).team).getD 0) := by
    simp only [State.shut_at]; rfl
  have hseq : ((who.map s.shut.seqOf).getD 0) = ((who.map s.seqOf).getD 0) := by
    cases who with
    | none => rfl
    | some i => simp only [Option.map_some, State.seqOf, State.shut_at]; rfl
  rw [State.homeWrite, hteam, hseq, State.shut_setBytes, State.shut_tellHome, State.homeWrite]

theorem State.shut_drainWb (s : State) (p : MemReq → Bool) (i : Nat) : s.shut.drainWb p i = (s.drainWb p i).shut := by
  have hq : (s.shut.at i).memq = (s.at i).memq := by rw [State.shut_at]; rfl
  simp only [State.drainWb, hq]
  rw [State.shut_on s i (f := fun c => { c with memq := (s.at i).memq.filter (!p ·) }) rfl]
  refine State.shut_foldl (fun s r => ?_) _ _
  cases r with
  | wback a bs => exact State.shut_homeWrite ..
  | own | repin | fill => rfl

theorem State.shut_applyWbs (s : State) (i : Nat) (w : Wbs) : s.shut.applyWbs i w = (s.applyWbs i w).shut :=
  State.shut_foldl (fun s b => by rw [State.shut_drainWb, State.shut_homeWrite]) w s

theorem State.shut_onL1 (s : State) (i : Nat) (f : L1Env → List L1Entry → List L1Entry × Wbs) : s.shut.onL1 i f = (s.onL1 i f).shut := by
  have hl : f (s.shut.l1Env i) (s.shut.at i).l1 = f (s.l1Env i) (s.at i).l1 := by rw [State.shut_l1Env, State.shut_at]; rfl
  simp only [State.onL1, hl]
  rw [State.shut_on s i (f := fun c => { c with l1 := (f (s.l1Env i) (s.at i).l1).1 }) rfl, State.shut_applyWbs]

theorem State.shut_invalidateAt (s : State) (i pa n : Nat) : s.shut.invalidateAt i pa n = (s.invalidateAt i pa n).shut := by
  have hagain : (s.shut.at i).repins pa n = (s.at i).repins pa n := by rw [State.shut_at]; rfl
  simp only [State.invalidateAt, hagain, State.shut_onL1]
  exact State.shut_on _ i rfl

theorem State.shut_askOthers (s : State) (pa n : Nat) : s.shut.askOthers pa n = (s.askOthers pa n).shut := by
  have hask (s : State) (r : Remote) : s.shut.askFor r (.invalidate r.start r.len) = (s.askFor r (.invalidate r.start r.len)).shut :=
    State.shut_ite rfl rfl
  simp only [State.askOthers, show s.shut.remotes = s.remotes from rfl, State.shut_foldl (f := fun s r => s.askFor r (.invalidate r.start r.len)) hask]
  rfl

theorem State.shut_withdraw (s : State) (pa n : Nat) : s.shut.withdraw none pa n = (s.withdraw none pa n).shut := by
  have hsettle : s.shut.settleWb pa n = (s.settleWb pa n).shut := by
    rw [State.settleWb, State.shut_wbackers]
    exact State.shut_foldl (fun s i => State.shut_drainWb ..) _ s
  rw [State.withdraw, State.shut_sharers, hsettle, State.shut_askOthers]
  exact State.shut_foldl (fun s i => State.shut_invalidateAt ..) _ _

/-! ## Logs -/

/-- A member of a launch is as it was but for its window. -/
theorem State.shut_member (s : State) (seq : Word) (i : Nat) :
    (s.shut.member seq i).team = (s.member seq i).team ∧ (s.shut.member seq i).log = (s.member seq i).log := by
  simp only [State.member, State.shut_at, show ∀ c : Core, c.windowless.launch = c.launch from fun _ => rfl]
  split
  · exact ⟨rfl, rfl⟩
  · exact ⟨rfl, rfl⟩

theorem State.shut_memberWrite (s : State) (seq : Word) (i : Nat) (undo : Bool) (pa : Nat) (bs : List Byte) (hint : BitVec 4) :
    s.shut.memberWrite seq i undo pa bs hint = (s.memberWrite seq i undo pa bs hint).shut := by
  rw [State.memberWrite, (s.shut_member seq i).1, State.shut_withdraw, State.shut_noted, State.shut_setBytes, State.shut_tellAs,
    State.memberWrite]

theorem State.shut_applyLog (seq : Word) (s : State) (i : Nat) : State.applyLog seq s.shut i = (State.applyLog seq s i).shut := by
  have hwrite (s : State) (e : LogEntry) : State.commitWrite seq i s.shut e = (State.commitWrite seq i s e).shut := by
    rw [State.commitWrite, State.shut_noted, State.shut_memberWrite, State.commitWrite]
  have hforget (s : State) : s.shut.onMember seq i (fun c => { c with log := [] }) = (s.onMember seq i fun c => { c with log := [] }).shut := by
    simp only [State.onMember, State.shut_at, show ∀ c : Core, c.windowless.launch = c.launch from fun _ => rfl]
    exact State.shut_ite (State.shut_on s i rfl) rfl
  rw [State.applyLog, (s.shut_member seq i).2, State.shut_foldl hwrite, hforget, State.applyLog]

theorem State.shut_commitLogs (s : State) (seq : Word) (q : Squad) : s.shut.commitLogs seq q = (s.commitLogs seq q).shut := by
  have hteam : s.shut.byTeam seq q = s.byTeam seq q := by simp only [State.byTeam, (s.shut_member seq _).1]
  have hlogs : s.shut.applyLogs seq q = (s.applyLogs seq q).shut := by
    rw [State.applyLogs, hteam]
    exact State.shut_foldl (fun s i => State.shut_applyLog ..) _ s
  rw [State.commitLogs, hlogs]
  exact State.shut_ite rfl rfl

theorem State.shut_squadPending (s : State) (seq : Word) (q : Squad) : s.shut.squadPending seq q = s.squadPending seq q := by
  simp only [State.squadPending, (s.shut_member seq _).1]
  rfl

theorem State.shut_commitWaits (s : State) (seq : Word) (q : Squad) : s.shut.commitWaits seq q = s.commitWaits seq q := by
  simp only [State.commitWaits, State.closingBytes, State.unread, State.loggedBytes, (s.shut_member seq _).2]
  rfl

end Sys2Proof.Machine
end

section
/-! PROOFS. `EXIT` (R78). -/

namespace Sys2Proof.Machine

set_option Elab.async false

/-! ## What an outline says -/

theorem State.upd_eq_on (s : State) (f : Core → Core) : s.upd f = s.on s.cur f := by
  have hset (c : Core) : s.cores.set s.cur c = s.cores.setIfInBounds s.cur c := by
    ext j hj : 1
    simp [Vector.getElem_set, Vector.getElem_setIfInBounds]
  rw [State.upd, State.setCore, State.on, State.at_cur, State.put, hset]

theorem State.Outlined.upd {W : Outline} {s : State} (h : s.Outlined W) {f : Core → Core} (hp : ∀ c, (f c).phase = c.phase := by intros; rfl)
    (hl : ∀ c, (f c).launch = c.launch := by intros; rfl) : (s.upd f).Outlined W :=
  State.upd_eq_on s f ▸ h.on hp hl

/-- The outline when the running core exits. -/
def Outline.exits (W : Outline) : Outline := { W with core := fun i => if i = W.cur.val then (.exited, (W.core i).2) else W.core i }

/-- The phase of a member of a launch. -/
def Outline.memberPhase (W : Outline) (seq : Word) (i : Nat) : Phase :=
  if (W.core i).2 == some seq then (W.core i).1
  else ((W.images.find? fun m => m.1 == seq && m.2.1 == i).map (·.2.2)).getD .idle

section
variable {W : Outline} {s : State} (h : s.Outlined W)
include h

theorem State.Outlined.exits {f : Core → Core} (hp : ∀ c, (f c).phase = .exited) (hl : ∀ c, (f c).launch = c.launch) :
    (s.upd f).Outlined W.exits where
  cur := h.cur
  launches := h.launches
  images := h.images
  core i := by
    rw [Outline.exits]
    by_cases hi : i = s.cur.val
    · have hcore : (s.upd f).at i = f s.core := by
        rw [hi, show s.cur = (s.upd f).cur from rfl, State.at_cur, State.upd_core]
      have hat : s.at i = s.core := by rw [hi, State.at_cur]
      simp only [hcore, hp, hl, ← h.core i, hat, if_pos (hi.trans (congrArg _ h.cur))]
    · simp only [State.upd_at_ne s (Ne.symm hi), if_neg (h.cur ▸ hi), h.core i]

theorem State.Outlined.memberPhase (seq : Word) (i : Nat) : (s.member seq i).phase = W.memberPhase seq i := by
  have himg : (s.images.find? fun m => m.seq == seq && m.home == i).map Image.outline =
      W.images.find? fun m => m.1 == seq && m.2.1 == i := by
    rw [← h.images, List.find?_map]
    rfl
  rw [State.member, Outline.memberPhase, ← h.core i, ← himg]
  split
  · rfl
  · cases s.images.find? fun m => m.seq == seq && m.home == i <;> rfl

theorem State.Outlined.launch (seq : Word) : (s.launch seq).map Launch.outline = W.launches.find? fun l => l.1 == seq := by
  rw [← h.launches, List.find?_map]
  rfl

/-- Members that have all exited. -/
theorem State.Outlined.live_isEmpty {seq : Word} {q : Squad} (hq : ∀ k ∈ q.cores, W.memberPhase seq k = .exited) :
    (s.live seq q).isEmpty = true := by
  rw [List.isEmpty_iff, State.live, List.filter_eq_nil_iff]
  intro k hk
  simp [h.memberPhase, hq k hk]

end

/-! ## Issue -/

theorem drained_of_nil {s : State} (h : s.core.pend = []) : s.drained = .ok s := by simp [State.drained, State.slotted, h]

theorem exec_exit (s : State) (h : Hd) : exec (.exit h) s = execExit h s := rfl

/-- What `EXIT` finds when it has nothing to wait for (R78). -/
structure Leaving (s : State) (h : Hd) (l : Launch) (q : Squad) (seq : Word) : Prop where
  guard : s.core.guard h = true
  pend : s.core.pend = []
  idle : s.core.enginesIdle = true
  faults : s.core.faults = []
  cut : s.atCut seq s.cur = false
  inbound : s.inbound s.cur 256 0 = false
  performed : s.core.performed = true
  holds : s.core.ctx.holds = []
  mine : s.core.launch = some seq
  launch : s.launch seq = some l
  squad : l.squadOf s.cur = some q
  far : s.farPending s.cur = false

/-- The running core leaves its timed window. -/
def State.windowless (s : State) : State := s.upd Core.windowless

theorem State.windowless_core (s : State) : s.windowless.core = s.core.windowless := State.upd_core _ _

theorem State.windowless_at (s : State) : s.windowless.at s.cur = s.core.windowless :=
  (State.at_cur s.windowless).trans s.windowless_core

theorem Core.windowless_engines (c : Core) : c.windowless.enginesIdle = c.enginesIdle ∧ c.windowless.performed = c.performed := ⟨rfl, rfl⟩

/-- No core's commands are changed with the window. -/
theorem State.windowless_inbound (s : State) (i g phase : Nat) : s.windowless.inbound i g phase = s.inbound i g phase := by
  have hcopies (k : Nat) : (s.windowless.at k).copies = (s.at k).copies := by
    by_cases hk : k = s.cur.val
    · rw [hk, State.windowless_at, State.at_cur]
      rfl
    · rw [State.windowless, State.upd_at_ne s (Ne.symm hk)]
  simp only [State.inbound, hcopies]

theorem State.windowless_farPending (s : State) : s.windowless.farPending s.cur = s.farPending s.cur := by
  rw [State.farPending, State.farPending, State.windowless_at, State.at_cur]
  rfl

/-- A core that leaves does so as its squad's end allows, with nothing done before but the closing of its window. -/
theorem Leaving.exec_exit {s w : State} {h : Hd} {l : Launch} {q : Squad} {seq : Word} (e : Leaving s h l q seq)
    (hw : s.windowless.lastOut seq s.cur = .ok w) :
    exec (.exit h) s = .next (((w.retire h.dly.toNat (w.core.ctx.pc + 8)).upd Core.left).settleExit seq s.cur) := by
  have hcur : s.windowless.cur = s.cur := rfl
  have hseq : s.windowless.seqOf s.cur = seq := by
    rw [State.seqOf, State.windowless_at]
    exact (congrArg (·.getD 0) e.mine : _)
  have hready : (s.windowless.core.enginesIdle && s.windowless.core.faults.isEmpty && !s.windowless.atCut seq s.cur &&
      !s.windowless.inbound s.cur 256 0) = true := by
    have hcut : s.windowless.atCut seq s.cur = false := e.cut
    have hfaults : s.core.windowless.faults = [] := e.faults
    rw [s.windowless_core, hcut, hfaults, s.windowless_inbound, e.inbound, (Core.windowless_engines _).1, e.idle]
    rfl
  have hperf : s.windowless.performedAt s.cur .dev = true := by
    rw [State.performedAt, s.windowless_at, (Core.windowless_engines _).2, e.performed]
    rfl
  have hholds : s.windowless.core.ctx.holds = [] := by rw [s.windowless_core]; exact e.holds
  have hfar := s.windowless_farPending.trans e.far
  have hi := Machine.exec_exit s h
  rw [execExit, State.issue64, e.guard] at hi
  refine hi.trans (State.issue_halt (e := .gone (((w.retire h.dly.toNat (w.core.ctx.pc + 8)).upd Core.left).settleExit seq s.cur)) ?_)
  have hclosed : (s.upd fun c => { c with window := none }) = s.windowless := rfl
  simp only [drained_of_nil e.pend, ok_bind, hclosed, hcur, hseq, hready, hholds, waitFor, if_true]
  have hstays : s.windowless.writeBack s.cur (List.flatMap (fun k : Hold => s.windowless.regionKeys s.cur k.va) []) = s.windowless := rfl
  have hgo : (!s.windowless.performedAt s.cur (if ([] : List Hold).isEmpty = true then .dev else .sys) ||
      s.windowless.farPending s.cur) = false := by
    rw [hfar, show (if ([] : List Hold).isEmpty = true then Scope.dev else Scope.sys) = .dev from rfl, hperf]
    rfl
  simp only [hstays, hgo, hw, ok_bind]
  rfl

/-- The state in which the running core has left. -/
def State.departed (s : State) (d : Nat) : State := (s.retire d (s.core.ctx.pc + 8)).upd Core.left

theorem State.departed_eq (s : State) (d : Nat) : s.departed d =
    s.upd fun c => (Core.retire d (s.core.ctx.pc + 8) (Config.stallCycles s.tick) c).left := State.upd_upd ..

/-! ## While another member runs on -/

section
variable {s : State} {h : Hd} {l : Launch} {q : Squad} {seq : Word} (e : Leaving s h l q seq)
include e

/-- While another member of the squad runs on without being ready, a core that leaves has exited. -/
theorem Leaving.exits {k : Nat} (hk : k ∈ q.cores) (hne : k ≠ s.cur.val) (hrun : (s.member seq k).phase = .running)
    (hwait : (s.member seq k).wait = none) (hresume : (s.member seq k).resume = none) :
    exec (.exit h) s = .next (s.windowless.departed h.dly.toNat) := by
  have member {f : Core → Core} : (s.upd f).member seq k = s.member seq k := by
    simp only [State.member, State.upd_at_ne s (Ne.symm hne)]
    rfl
  have live {f : Core → Core} : k ∈ (s.upd f).live seq q := by
    rw [State.live, List.mem_filter, member, hrun]
    exact ⟨hk, rfl⟩
  have hsquad {f : Core → Core} : ((s.upd f).launch seq).bind (·.squadOf s.cur) = some q := by
    rw [show (s.upd f).launch seq = s.launch seq from rfl, e.launch]
    exact e.squad
  have hlast : s.windowless.lastOut seq s.cur = .ok s.windowless := by
    have hmore : (s.windowless.live seq q != [s.cur.val]) = true := by
      rw [bne_iff_ne]
      intro hl
      have := live (f := Core.windowless)
      rw [← State.windowless, hl, List.mem_singleton] at this
      exact hne this
    rw [State.lastOut, State.windowless, hsquad, ← State.windowless]
    simp only [hmore, if_true]
  refine (e.exec_exit hlast).trans (congrArg _ ?_)
  change (s.windowless.departed h.dly.toNat).settleExit seq s.cur = _
  rw [State.departed_eq, State.windowless, State.upd_upd]
  have hready : (s.upd fun c => (Core.retire h.dly.toNat ((s.upd Core.windowless).core.ctx.pc + 8)
      (Config.stallCycles (s.upd Core.windowless).tick) c.windowless).left).squadReady seq q = false := by
    rw [State.squadReady, List.all_eq_false]
    refine ⟨k, hk, ?_⟩
    rw [State.readyMember, member, hrun, Core.atStep, hwait, hresume]
    simp
  have hlive : ∀ x : State, k ∈ x.live seq q → (x.live seq q).isEmpty = false := fun x hx => by
    rw [List.isEmpty_eq_false_iff]
    exact List.ne_nil_of_mem hx
  rw [State.settleExit, hsquad]
  simp only [hlive _ live, Bool.not_false, if_true]
  rw [State.tryStep, hsquad]
  simp only [hready, Bool.and_false, Bool.false_eq_true, if_false]

/-- What the state of a core that has left so says of it. -/
theorem Leaving.departed : let t := s.windowless.departed h.dly.toNat
    t.core.phase = .exited ∧ t.core.launch = some seq ∧ t.core.log = s.core.log ∧ t.core.ctx.pc = s.after 8 ∧
    t.core.sys.slots = s.core.sys.slots + 1 + BitVec.ofNat 64 h.dly.toNat ∧ t.core.ctx.regs = s.core.ctx.regs ∧ t.core.shared = [] ∧
    t.core.reserve = false ∧ t.core.ctx.handles = Vector.replicate 32 {} ∧ (∀ e ∈ t.core.l1, e.pin = false) ∧ t.mem = s.mem := by
  have hcore : (s.windowless.departed h.dly.toNat).core = (Core.retire h.dly.toNat (s.after 8) (Config.stallCycles s.tick) s.core.windowless).left := by
    rw [State.departed_eq, State.upd_core, State.windowless_core]
    rfl
  simp only [hcore]
  refine ⟨rfl, e.mine, rfl, rfl, rfl, rfl, rfl, rfl, rfl, fun x hx => ?_, rfl⟩
  obtain ⟨y, -, rfl⟩ := List.mem_map.mp hx
  rfl

end

/-! ## When every other member has exited -/

/-- A launch with the outline of one squad has that squad. -/
theorem Launch.squads_of_outline {l : Launch} {a : Word} {st : LStatus} {cs : List Nat} (h : l.outline = (a, st, [cs])) :
    l.record.seq = a ∧ l.status = st ∧ ∃ q, l.squads = [q] ∧ q.cores = cs := by
  obtain ⟨hseq, hst, hcs⟩ : l.record.seq = a ∧ l.status = st ∧ l.squads.map (·.cores) = [cs] := by simpa [Launch.outline] using h
  obtain ⟨q, hq, rfl⟩ := List.map_eq_singleton_iff.mp hcs
  exact ⟨hseq, hst, q, hq, rfl⟩

/-- Commitment of logs, and what it waits for, with the running core's window closed and as the core has it. -/
theorem State.windowless_commit (s : State) (seq : Word) (q : Squad) : s.windowless.commitWaits seq q = s.commitWaits seq q ∧
    (s.windowless.commitLogs seq q).squadPending seq q = (s.commitLogs seq q).squadPending seq q := by
  have hshut : s.windowless.shut = s.shut := by
    have hcores : s.windowless.cores.map Core.windowless = s.cores.map Core.windowless := by
      ext j hj : 1
      simp only [State.windowless, State.upd, State.setCore, Vector.getElem_map, Vector.getElem_set]
      split
      · subst_vars
        rfl
      · rfl
    rw [State.shut, State.shut, hcores]
    rfl
  constructor
  · rw [← State.shut_commitWaits, hshut, State.shut_commitWaits]
  · rw [← State.shut_squadPending, ← State.shut_commitLogs, hshut, State.shut_commitLogs, State.shut_squadPending]

/-- The launch of a squad whose members have all exited, the only one of the launch, ends with success. -/
theorem State.Outlined.settleExit {W : Outline} {s : State} {seq : Word} {cs : List Nat} (h : s.Outlined W)
    (hl : W.launches.find? (fun l => l.1 == seq) = some (seq, .running, [cs])) (hcur : s.cur.val ∈ cs)
    (hmine : (W.core W.cur).2 = some seq) (hout : ∀ k ∈ cs, W.memberPhase seq k = .exited) :
    let t := s.settleExit seq s.cur
    (∃ l ∈ t.launches, l.record.seq = seq ∧ l.status = .ended 0 0) ∧
    (∃ y ∈ t.dones, y.seq = seq ∧ y.status = 0 ∧ y.detail = 0) ∧ t.core.launch = none ∧ t.core.phase = .idle := by
  have launchOf {t : State} (ht : t.Outlined W) : ∃ l q, t.launch seq = some l ∧ l.status = .running ∧ l.squads = [q] ∧ q.cores = cs := by
    have hmap := ht.launch seq
    rw [hl, Option.map_eq_some_iff] at hmap
    obtain ⟨l, hfind, hout⟩ := hmap
    obtain ⟨-, hst, q, hq, hcs⟩ := Launch.squads_of_outline hout
    exact ⟨l, q, hfind, hst, hq, hcs⟩
  obtain ⟨l, q, hfind, -, hq, rfl⟩ := launchOf h
  have hsquad : (s.launch seq).bind (·.squadOf s.cur) = some q := by
    rw [hfind]
    simp [Launch.squadOf, hq, hcur]
  obtain ⟨l', q', hfind', hst', hq', hcs'⟩ := launchOf (h.finishSquad (seq := seq) (q := q))
  have ended := h.finishSquad (seq := seq) (q := q)
  have hall : (l'.squads.all fun x => ((s.finishSquad seq q).live seq x).isEmpty) = true := by
    rw [hq']
    simp [-List.isEmpty_iff, ended.live_isEmpty (q := q') (hcs' ▸ hout)]
  have hcore : (s.finishSquad seq q).core.launch = some seq := by
    rw [← hmine, ← ended.core, ← ended.cur, State.at_cur]
  rw [State.settleExit, hsquad]
  simp only [h.live_isEmpty hout, hfind', hall, Bool.not_true, Bool.false_eq_true, if_false, if_true]
  exact endLaunch_ends hcore hfind' (fun st d => by rw [hst']; nofun) 0 0 false

/-- The last member of the only squad of a launch to leave ends the launch. -/
theorem Leaving.ends {s : State} {h : Hd} {l : Launch} {q : Squad} {seq : Word} (e : Leaving s h l q seq) (hone : l.squads = [q])
    (hrun : l.status = .running) (hwaits : s.commitWaits seq q = false) (hpending : (s.commitLogs seq q).squadPending seq q = false)
    (hcur : s.cur.val ∈ q.cores) (hothers : ∀ k ∈ q.cores, k ≠ s.cur.val → (s.member seq k).phase = .exited) :
    Yields s (.exit h) fun t => (∃ l ∈ t.launches, l.record.seq = seq ∧ l.status = .ended 0 0) ∧
      (∃ y ∈ t.dones, y.seq = seq ∧ y.status = 0 ∧ y.detail = 0) ∧ t.core.launch = none ∧ t.core.phase = .idle := by
  obtain ⟨hwaits', hpending'⟩ := s.windowless_commit seq q
  have closed : s.windowless.Outlined s.outline := s.outlined.upd
  have hsquad : (s.windowless.launch seq).bind (·.squadOf s.cur) = some q := by
    rw [show s.windowless.launch seq = s.launch seq from rfl, e.launch]
    exact e.squad
  have hlast : ∃ w, s.windowless.lastOut seq s.cur = .ok w ∧ w.Outlined s.outline := by
    rw [State.lastOut, hsquad]
    dsimp only
    split
    · exact ⟨_, rfl, closed⟩
    · rw [hwaits', hwaits, Bool.and_false, hpending', hpending]
      exact ⟨_, rfl, closed.commitLogs⟩
  obtain ⟨w, hw, hout⟩ := hlast
  have left : (w.departed h.dly.toNat).Outlined s.outline.exits := by
    rw [State.departed_eq]
    exact hout.exits (fun _ => rfl) (fun _ => rfl)
  have hwcur : (w.departed h.dly.toNat).cur = s.cur := hout.cur
  refine ⟨_, e.exec_exit hw, ?_⟩
  have hseq : l.record.seq = seq := by simpa using List.find?_some e.launch
  have hmine : (s.outline.exits.core s.cur).2 = some seq := by
    simp only [Outline.exits, State.outline, if_true, State.at_cur]
    exact e.mine
  have hlaunch : s.outline.exits.launches.find? (fun l => l.1 == seq) = some (seq, .running, [q.cores]) := by
    have := s.outlined.launch seq
    rw [e.launch, Option.map_some, Launch.outline, hseq, hrun, hone] at this
    exact this.symm
  rw [← hwcur]
  refine left.settleExit hlaunch (hwcur ▸ hcur) hmine fun k hk => ?_
  by_cases hkc : k = s.cur.val
  · subst hkc
    rw [Outline.memberPhase, hmine]
    simp [Outline.exits, State.outline]
  · have := s.outlined.memberPhase seq k
    rw [hothers k hk hkc] at this
    have hcore : s.outline.exits.core k = s.outline.core k := if_neg hkc
    rw [this, Outline.memberPhase, Outline.memberPhase, hcore]
    rfl

end Sys2Proof.Machine

namespace Sys2Proof

set_option Elab.async false

open Machine

/-- Settles O29: the part of a core that leaves while its squad goes on, and the end of the launch with its last core. -/
theorem exits : Obligations.Exits := by
  intro s h l q seq hg hp hidle hf hcut hin hperf hholds hmine hl hseq hsq hfar hcur huniq
  have hlaunch : s.launch seq = some l := by
    rw [State.launchOf, State.at_cur, hmine] at hl
    exact hl
  have leaving : Leaving s h l q seq := ⟨hg, hp, hidle, hf, hcut, hin, hperf, hholds, hmine, hlaunch, hsq, hfar⟩
  refine ⟨fun k hk hne hrun hw hr => ⟨_, leaving.exits hk hne hrun hw hr, leaving.departed⟩, fun hone hrun hw hpend hothers => ?_⟩
  obtain ⟨t, ht, hended, ⟨y, hy, hyseq, hst, -⟩, hfree⟩ := leaving.ends hone hrun hw hpend hcur hothers
  exact ⟨t, ht, hended, hfree.1, hfree.2, y, hy, hyseq, hst⟩

end Sys2Proof
end

section
/-! PROOFS. The special registers (R64, R71, R72, R94, R95, R329, R379): what they read, and what a write leaves of them. -/

namespace Sys2Proof.Machine

set_option Elab.async false

open Claims (sysOf sysWritten)

/-! ## Two fields of a word -/

/-- Two packed fields are the concatenation of the second and the first. -/
theorem ofNat_packFields_append {n : Nat} (a : BitVec n) (m k : Nat) :
    BitVec.ofNat 64 (packFields [(n, a.toNat), (m, k)]) = (BitVec.ofNat m k ++ a).setWidth 64 := by
  apply BitVec.eq_of_toNat_eq
  have ha : a.toNat < 2 ^ n := a.isLt
  have hk : k % 2 ^ m < 2 ^ m := Nat.mod_lt _ (Nat.two_pow_pos m)
  have hcat : (BitVec.ofNat m k ++ a).toNat = a.toNat + 2 ^ n * (k % 2 ^ m) := by
    rw [BitVec.toNat_append, BitVec.toNat_ofNat, ← Nat.shiftLeft_add_eq_or_of_lt ha, Nat.shiftLeft_eq]
    ring
  rw [BitVec.toNat_setWidth, hcat, BitVec.toNat_ofNat]
  simp [packFields, Nat.mod_eq_of_lt ha]

/-- The model reads a system register as the rules say. -/
theorem Core.sysValue_eq (c : Core) (r : SysReg) : c.sysValue r = sysOf c r := by
  cases r with
  | pquota => exact ofNat_packFields_append c.sys.pmax 16 c.pused
  | lquota => exact (ofNat_packFields_append c.sys.lmax 32 (ceilDiv c.logUsed 1024)).trans (BitVec.setWidth_eq _)
  | _ => rfl

/-! ## Writes -/

/-- The low bits of a word, above them another word's. -/
theorem append_setWidth (v : Word) (n m : Nat) (k : BitVec m) (old : BitVec n) (mask : Word) (h : mask = (BitVec.allOnes n).setWidth 64) :
    (k ++ v.setWidth n).setWidth 64 = (v &&& mask) ||| ((k ++ old).setWidth 64 &&& ~~~mask) := by
  subst h
  ext i hi
  simp only [BitVec.getElem_setWidth, BitVec.getElem_or, BitVec.getElem_and, BitVec.getElem_not, BitVec.getLsbD_append,
    BitVec.getLsbD_setWidth, BitVec.getLsbD_allOnes]
  by_cases hin : i < n <;> simp [hin, hi, BitVec.getLsbD_eq_getElem]

/-- A mask of the low bits. -/
theorem and_mask_setWidth (v : Word) (n : Nat) (mask : BitVec n) : (v.setWidth n &&& mask).setWidth 64 = v &&& mask.setWidth 64 := by
  ext i hi
  simp only [BitVec.getElem_setWidth, BitVec.getElem_and, BitVec.getLsbD_and, BitVec.getLsbD_setWidth, BitVec.getLsbD_eq_getElem hi]
  by_cases hin : i < n
  · simp [hin]
  · simp [hin, BitVec.getLsbD_of_ge mask i (Nat.le_of_not_lt hin)]

theorem setWidth_setWidth_mask (v : Word) (n : Nat) : (v.setWidth n).setWidth 64 = v &&& (BitVec.allOnes n).setWidth 64 := by
  rw [← and_mask_setWidth, BitVec.and_allOnes]

/-- A write of `fpc` (R64). -/
theorem fpcWritten_eq (old v : Word) : fpcWritten old v =
    (v &&& 0x3FF0) ||| (if 1 ≤ (v.setWidth 3).toNat ∧ (v.setWidth 3).toNat ≤ 5 then v &&& 7 else old &&& 7) := by
  have hm : field v.toNat 0 3 = (v.setWidth 3).toNat := by simp [field]
  have hlow : BitVec.ofNat 64 (v.setWidth 3).toNat = v &&& 7 := by
    rw [BitVec.ofNat_toNat, setWidth_setWidth_mask]
    rfl
  simp only [fpcWritten, hm, Bool.and_eq_true, decide_eq_true_eq, hlow]
  rfl

/-- After a write a register that is not read-only reads what the rules say. -/
theorem Core.sysOf_sysWrite (c : Core) (r : SysReg) (v : Word) (hro : isRO r = false) : sysOf (c.sysWrite r v) r = sysWritten c r v := by
  cases r with
  | cyc | slots | depth => cases hro
  | fpc => exact fpcWritten_eq ..
  | lc =>
    by_cases hd : c.ctx.depth = 0 <;> simp [Core.sysWrite, sysWritten, sysOf, Core.updCtx, hd]
  | wthr => exact setWidth_setWidth_mask v 32
  | pquota => exact append_setWidth v 16 16 (BitVec.ofNat 16 c.pused) c.sys.pmax _ (by decide)
  | lquota =>
    have := append_setWidth v 32 32 (BitVec.ofNat 32 (ceilDiv c.logUsed 1024)) c.sys.lmax 0xFFFFFFFF (by decide)
    simp only [BitVec.setWidth_eq] at this
    exact this
  | inj => exact and_mask_setWidth v 9 0x17F
  | einfo => exact (BitVec.and_allOnes (x := v)).symm
  | tvec | epc | ecause | eaddr | estat => rfl

/-- Where the counts of a core stand decides no register but the counts. -/
theorem Core.sysOf_settled {c : Core} {r : SysReg} (h : isRO r = false) : sysOf c.settled r = sysOf c r := by
  cases r with
  | cyc | slots | depth => cases h
  | _ => rfl

/-- A write of a system register leaves the scalars, the guards and the count of slots. -/
theorem Core.sysWrite_frame (c : Core) {r : SysReg} (v : Word) (h : isRO r = false) : (c.sysWrite r v).ctx.regs = c.ctx.regs ∧
    (c.sysWrite r v).ctx.guards = c.ctx.guards ∧ (c.sysWrite r v).sys.slots = c.sys.slots := by
  cases r with
  | lc =>
    rw [Core.sysWrite]
    split <;> exact ⟨rfl, rfl, rfl⟩
  | cyc | slots | depth => cases h
  | _ => exact ⟨rfl, rfl, rfl⟩

/-! ## The instructions -/

theorem exec_idr (s : State) (h : Hd) (a : SReg) (r : IdReg) : exec (.idr h a r) s = execIdr h a r s := rfl
theorem exec_srr (s : State) (h : Hd) (a : SReg) (r : SysReg) : exec (.srr h a r) s = execSrr h a r s := rfl
theorem exec_srw (s : State) (h : Hd) (r : SysReg) (b : SReg) : exec (.srw h r b) s = execSrw h r b s := rfl

theorem idr_completes {s : State} {h : Hd} (hg : s.core.guard h = true) (d : SReg) (r : IdReg) :
    Yields s (.idr h d r) fun t => Completes s t (s.core.setS d (s.idValue s.cur r)) (s.after 8) h.dly.toNat :=
  issue64_completes hg (exec_idr ..) (f := fun k => k.setS d (s.idValue s.cur r)) rfl (by simp)

section
variable {s : State} {h : Hd} {r : SysReg} (hg : s.core.guard h = true) (hm : isSup r = true → s.core.sys.sup = true) (hp : s.core.pend = [])
include hg hm hp

theorem srr_completes (d : SReg) :
    Yields s (.srr h d r) fun t => Completes s t (s.core.setS d (sysOf s.core r)) (s.after 8) h.dly.toNat := by
  have hmode : (!isSup r || s.core.sys.sup) = true := by cases hs : isSup r <;> simp [hs, hm]
  rw [← Core.sysValue_eq]
  refine issue64_completes hg (exec_srr ..) (f := fun k => k.setS d (k.sysValue r)) ?_ (by simp)
  simp only [hmode, drained_of_nil hp]
  cases r == .fpc <;> rfl

theorem srw_completes (d : SReg) (hro : isRO r = false) :
    Yields s (.srw h r d) fun t => Completes s t (s.core.sysWrite r (s.core.getS d)) (s.after 8) h.dly.toNat := by
  have hmode : ((!isSup r || s.core.sys.sup) && !isRO r) = true := by cases hs : isSup r <;> simp [hs, hm, hro]
  refine issue64_completes hg (exec_srw ..) (f := fun k => k.sysWrite r (k.getS d)) ?_ (Core.sysWrite_frame _ _ hro).2.2
  simp only [hmode, drained_of_nil hp]
  cases r == .fpc <;> rfl

end

end Sys2Proof.Machine
end

section
/-! PROOFS. Stores (R106), and the events of a core's storage where they complete (R87 to R103, R179). -/

namespace Sys2Proof.Machine

set_option Elab.async false

open Claims (Only Ours Unjournalled Standing Storable storeAt widthOf)

/-! ## Stores -/

section
variable {α : Type} {g : Core → α} {k : Fin 768} {p : Nat → α} {s : State} (h : s.Fixes g k p)
  (hg : ∀ (c : Core) l m n, g { c with l1 := l, memq := m, l1Count := n } = g c)
include h hg

theorem State.Fixes.onL1q {i f} : (s.onL1q i f).Fixes g k p := h.on fun c => hg c _ _ c.l1Count

/-- Owned bytes, performed or queued (R88, R91, R107). -/
theorem State.Fixes.storePieces {i hint l bs} : (s.storePieces i hint l bs).Fixes g k p := by
  induction l generalizing s bs with
  | nil => exact h
  | cons x l ih =>
    unfold State.storePieces
    refine ih (h.foldl fun u z hu => ?_)
    dsimp only
    split
    · exact hu.onL1q hg
    · exact hu.on fun c => hg c c.l1 _ c.l1Count

theorem State.Fixes.storeHeld {i l bs hint} : (s.storeHeld i l bs hint).Fixes g k p :=
  (h.on fun c => hg c _ c.memq _).storePieces hg

end

section
variable {α : Type} {g : Core → α} {k : Fin 768} {p : Nat → α} {s : State} (h : s.Fixes g k p)
include h

theorem State.Fixes.updSquad {i f} : (s.updSquad i f).Fixes g k p := by
  unfold State.updSquad
  split
  · exact h
  · exact h.rest

theorem State.Fixes.kept {w pa bs} : (s.kept w pa bs).Fixes g k p := h.rest

theorem State.Fixes.seenAs {i pa bs} : (s.seenAs i pa bs).Fixes g k p := h.ite h.updSquad

/-- A store in supervisor mode (R378). -/
theorem State.Fixes.storeNow {i l bs} (hg : ∀ (c : Core) l m, g { c with l1 := l, memq := m } = g c) : (s.storeNow i l bs).Fixes g k p := by
  induction l generalizing s bs with
  | nil => exact h
  | cons x l ih =>
    unfold State.storeNow
    exact ih (h.tame (State.Tame.refl s).coherentWrite.tellHome hg).kept.seenAs

end

theorem exec_st (s : State) (h : Hd) (a b : SReg) (imm : BitVec 21) (z : Size) : exec (.st h a b imm z) s = execSt h a b imm z s := rfl

theorem sizeBytes_eq (z : Size) : sizeBytes z = widthOf z := by cases z <;> rfl

/-- What holds the running core's stores back in neither mode (R95, R11, R368, R378). -/
structure Free (s : State) (va n : Nat) (ps : List Piece) : Prop where
  user : s.core.sys.sup = false → s.heldWrite s.cur va n = false → s.core.logFits 16 = true
  sup : s.core.sys.sup = true → s.reached s.cur s.core.memq (zonesOf ps) = false ∧ ∀ p ∈ ps, s.knownElsewhere p.2.1 p.2.2 = false

/-- A store that nothing holds back takes place, and changes no register. -/
theorem storeBytes_done {s : State} {va : Nat} {bs : List Byte} {ps : List Piece} (h : Storable s va bs.length ps) (hf : Free s va bs.length ps) :
    ∃ t, s.storeBytes va bs = .ok t ∧ t.Fixes (fun c => (c.ctx, c.sys)) s.cur fun i => ((s.at i).ctx, (s.at i).sys) := by
  obtain ⟨standing, hraces, hpart⟩ := h
  have start : s.Fixes (fun c => (c.ctx, c.sys)) s.cur fun i => ((s.at i).ctx, (s.at i).sys) := ⟨rfl, fun _ => rfl⟩
  have hpieces : s.pieces s.cur s.core.writes va bs.length = .ok (s, ps) := by rw [State.pieces, standing]
  simp only [State.storeBytes, hpieces, ok_bind, hraces, hpart, Bool.false_eq_true, if_false]
  by_cases hs : s.core.sys.sup = true
  · obtain ⟨hreach, hknown⟩ := hf.sup hs
    have goes : s.sysWaits ps = .ok () := by
      have none : (ps.any fun p => s.knownElsewhere p.2.1 p.2.2) = false := by simpa using hknown
      rw [State.sysWaits, none]
      rfl
    simp only [hs, hreach, goes, if_true, Bool.false_eq_true, if_false]
    exact ⟨_, rfl, start.storeNow fun _ _ _ => rfl⟩
  · rw [if_neg hs]
    by_cases hh : s.heldWrite s.cur va bs.length = true
    · rw [if_pos hh]
      exact ⟨_, rfl, start.storeHeld fun _ _ _ _ => rfl⟩
    · have fits := hf.user (Bool.eq_false_iff.mpr hs) (Bool.eq_false_iff.mpr hh)
      simp only [hh, fits, Bool.not_true, Bool.false_eq_true, if_false]
      refine ⟨_, rfl, ?_⟩
      rw [State.upd_eq_on]
      exact start.on

theorem st_retires {s : State} {h : Hd} {x y : SReg} {i : BitVec 21} {z : Size} {ps : List Piece} (hg : s.core.guard h = true)
    (hs : Storable s.exch (storeAt s.core y i) (widthOf z) ps) (hf : Free s.exch (storeAt s.core y i) (widthOf z) ps) :
    Yields s (.st h x y i z) fun t => Retires s t (s.after 8) h.dly.toNat ∧ t.core.registers = s.core.registers := by
  have hlen : (bytesLE (sizeBytes z) (s.core.getS x).toNat).length = widthOf z := by rw [bytesLE_length, sizeBytes_eq]
  rw [← hlen] at hs hf
  obtain ⟨t, ht, same⟩ := storeBytes_done hs hf
  have hcore : (t.core.ctx, t.core.sys) = (s.core.ctx, s.core.sys) := by
    have := same.val s.exch.cur
    rwa [State.at_cur, ← same.cur, State.at_cur, State.exch_core] at this
  obtain ⟨hctx, hsys⟩ := Prod.mk.inj hcore
  have hb : (s.exch.storeBytes (storeAt s.core y i) (bytesLE (sizeBytes z) (s.core.getS x).toNat) >>= done) = .ok (t, none) := by
    rw [ht]
    rfl
  obtain ⟨t', hexec, hret, hregs, -⟩ := retires_of_ok (b := fun u => do
    done (← u.exch.storeBytes (u.core.getS y + imm21 i).toNat (bytesLE (sizeBytes z) (u.core.getS x).toNat))) hg hb (by rw [hsys])
  exact ⟨t', (exec_st ..).trans hexec, hret, by rw [hregs, Core.registers, Core.registers, hctx, hsys]⟩

/-! ## The L1 and the memory queue of one core -/

/-- Of the cores and the memory only the L1 of core `c` and its queue have changed; the queue has gained write-backs. -/
structure State.Behind (c : Nat) (s t : State) : Prop where
  only : Only s t c
  mem : t.mem = s.mem
  ctx : (t.at c).ctx = (s.at c).ctx
  queue : ∃ ws : Wbs, (t.at c).memq = (s.at c).memq ++ ws.map fun w => .wback w.1 w.2

section
variable {s t : State} {c : Nat} (hc : c < 768)

theorem State.Behind.refl (s : State) (c : Nat) : State.Behind c s s := ⟨fun _ _ => rfl, rfl, rfl, [], by simp⟩

include hc in
theorem State.Behind.onL1q (h : State.Behind c s t) (f : L1Env → List L1Entry → List L1Entry × Wbs) : State.Behind c s (t.onL1q c f) := by
  obtain ⟨ws, hws⟩ := h.queue
  refine ⟨fun i hi => (State.on_at_ne t (Ne.symm hi) _).trans (h.only i hi), h.mem, ?_, ws ++ (f (t.l1Env c) (t.at c).l1).2, ?_⟩
  · rw [State.onL1q, State.on_at t hc, ← h.ctx]
  · rw [State.onL1q, State.on_at t hc, List.map_append, ← List.append_assoc, ← hws]

include hc in
/-- An update of what neither the context nor the queue decides. -/
theorem State.Behind.on (h : State.Behind c s t) {f : Core → Core} (hf : ∀ x, (f x).ctx = x.ctx ∧ (f x).memq = x.memq) :
    State.Behind c s (t.on c f) := by
  obtain ⟨hctx, hmemq⟩ := hf (t.at c)
  refine ⟨fun i hi => (State.on_at_ne t (Ne.symm hi) _).trans (h.only i hi), h.mem, ?_, h.queue.imp fun ws hws => ?_⟩
  · rw [State.on_at t hc, hctx, h.ctx]
  · rw [State.on_at t hc, hmemq, hws]

theorem State.Behind.trans {u : State} (h : State.Behind c s t) (k : State.Behind c t u) : State.Behind c s u := by
  obtain ⟨ws, hws⟩ := h.queue
  obtain ⟨vs, hvs⟩ := k.queue
  exact ⟨fun i hi => (k.only i hi).trans (h.only i hi), k.mem.trans h.mem, k.ctx.trans h.ctx, ws ++ vs, by
    rw [hvs, hws, List.map_append, List.append_assoc]⟩

/-- A granted store takes place where nothing holds it back (R12, R87, R88). -/
theorem ownershipGrant_completes (hc : c < 768) {k va pa : Nat} {bs : List Byte} {hint : BitVec 4}
    (hk : (s.at c).memq[k]? = some (.own va pa bs hint)) (hr : s.reachedBefore c k [(pa, bs.length)] = false) (hl : Lone s c pa bs.length)
    (hw : (s.on c (Core.dropReq k)).storeWaits c pa bs = false) : Yields s (.ownershipGrant c k) (State.Behind c (s.on c (Core.dropReq k))) := by
  refine ⟨_, ?_, (State.Behind.refl (s.on c (Core.dropReq k)) c).onL1q hc fun v es => storeL1 (v.hinted hint) pa bs es⟩
  simp only [exec_ownershipGrant, execOwnershipGrant, hk, hr, hl.comes true, hl.withdraw, hw, Bool.false_eq_true, if_false]

/-- What the home and a way are ready for fills (R10, R87, R88). -/
theorem fill_lone (hc : c < 768) {excl : Bool} {cls : RClass} {pa n : Nat} (hz : pa % 4096 + n ≤ 4096) (hl : Lone s c pa n)
    (hp : s.poisoned pa n = none) (hi : (s.at c).sys.inj.getLsbD 5 = false) (hw : s.fillWaits c excl cls false pa n = false) :
    ∃ t, s.fill c excl cls false pa n = .ok t ∧ State.Behind c s t := by
  have inside : ∀ g ∈ gaps (s.at c).l1 pa n, Inside g (pa, n) := gaps_inside (z := (pa, n)) hz
  obtain ⟨d, hd⟩ := State.entersAll_lone (z := (pa, n)) inside hl hp hi
  have lone : Lone ({ s with dies := d } : State) c pa n := hl.congr rfl rfl fun _ => ⟨fun _ => rfl, List.Subset.refl _⟩
  have entered : State.Behind c s ({ s with dies := d } : State) := ⟨fun _ _ => rfl, rfl, rfl, [], by simp [State.at]⟩
  have served := served1_lone (excl := excl) (z := (pa, n)) lone inside
  simp only [State.fill, hw, alone_lone hl, hd, ok_bind, Bool.false_eq_true, if_false]
  rw [served]
  refine ⟨_, rfl, ?_⟩
  split
  · exact (entered.onL1q hc _).onL1q hc _
  · exact entered.onL1q hc _

/-- The fill of an extent that the TLB translates (R87, R88, R92). -/
theorem l1Fill_completes (hc : c < 768) {k va n pa : Nat} {excl : Bool} {cls : RClass} (hk : (s.at c).memq[k]? = some (.fill va n excl cls))
    (hm : s.missing c va n = none) (hn : n ≠ 0) (hz : pa % 4096 + n ≤ 4096)
    (ht : s.translateAll c { rd := true, user := !(s.at c).sys.sup } va n = (s, [(va, pa, n)], none))
    (hr : s.reachedBefore c k [(pa, n)] = false) (hl : Lone s c pa n) (hp : s.poisoned pa n = none)
    (hi : (s.at c).sys.inj.getLsbD 5 = false)
    (hw : ((s.on c (Core.dropReq k)).on c (Core.hits [(pa, n)])).fillWaits c excl cls false pa n = false) :
    Yields s (.l1Fill c k) (State.Behind c (s.on c (Core.dropReq k))) := by
  have zones : zonesOf [(va, pa, n)] = [(pa, n)] := by simp [zonesOf, pieces_zone hn hz]
  generalize hu : (s.on c (Core.dropReq k)).on c (Core.hits [(pa, n)]) = u at hw
  have hat : u.at c = (Core.hits [(pa, n)] (Core.dropReq k (s.at c))) := by rw [← hu, State.on_on, State.on_at s hc]
  have lone : Lone u c pa n := by
    refine hl.congr (by rw [← hu]; rfl) (by rw [← hu]; rfl) fun i => ?_
    by_cases hic : c = i
    · subst hic
      rw [hat]
      exact ⟨fun h => absurd rfl h, (List.eraseIdx_sublist _ _).subset⟩
    · rw [← hu, State.on_at_ne _ hic, State.on_at_ne _ hic]
      exact ⟨fun _ => rfl, List.Subset.refl _⟩
  obtain ⟨t, hfill, behind⟩ := fill_lone hc hz lone (by rw [State.poisoned, ← hu]; exact hp) (by rw [hat]; exact hi) hw
  have hinst : s.installed c k va n excl cls = .ok (t, true) := by
    simp only [State.installed, ht, zones, hr, State.fillAll, hu, hfill]
    rfl
  refine ⟨_, by simp only [exec_l1Fill, execL1Fill, hk, hm, hinst]; rfl, ?_⟩
  have hit : State.Behind c (s.on c (Core.dropReq k)) u := by
    rw [← hu]
    exact (State.Behind.refl _ c).on hc fun _ => ⟨rfl, rfl⟩
  exact (hit.trans behind).on hc (f := fun x => { x with memq := x.memq.take k ++ [] ++ x.memq.drop k }) fun x => ⟨rfl, by simp⟩

/-- What was done behind a request that has left the queue. -/
theorem State.Behind.dropped (hc : c < 768) {k : Nat} (h : State.Behind c (s.on c (Core.dropReq k)) t) :
    Only s t c ∧ t.mem = s.mem ∧ (t.at c).ctx = (s.at c).ctx ∧
      ∃ ws : List (Nat × List Byte), (t.at c).memq = (s.at c).memq.eraseIdx k ++ ws.map fun w => .wback w.1 w.2 := by
  have hat : (s.on c (Core.dropReq k)).at c = Core.dropReq k (s.at c) := State.on_at s hc _
  exact ⟨fun i hi => (h.only i hi).trans (State.on_at_ne s (Ne.symm hi) _), h.mem, h.ctx.trans (by rw [hat]; rfl),
    h.queue.imp fun ws hws => hws.trans (by rw [hat]; rfl)⟩

end

/-! ## The walkers of a die -/

theorem State.setDie_die (s : State) {d : Nat} (hd : d < 2) (x : Die) : (s.setDie d x).die d = x := by
  simp [State.setDie, State.die, Vector.getD, hd]

/-- A request finds its core attached to a walk of the page (R98, R394). -/
theorem Die.request_attached (asid : BitVec 12) (root va i : Nat) (x : Die) :
    ∃ w ∈ (x.request asid root va i).walks, i ∈ w.cores ∧ w.root = root ∧ w.va / 8192 = va / 8192 := by
  unfold Die.request
  extract_lets same
  split
  next h =>
    obtain ⟨w, hw, hsame⟩ := List.any_eq_true.mp h
    have hplace : w.root = root ∧ w.va / 8192 = va / 8192 := by simpa [same, onePage] using hsame
    refine ⟨_, List.mem_map_of_mem hw, ?_⟩
    by_cases hi : i ∈ w.cores <;> simp [hi, hsame, hplace]
  next => exact ⟨{ asid := asid, root := root, va := va, cores := [i] }, by simp⟩

/-- The fill of a `PREF` whose first page has no translation takes a walker (R92, R98). -/
theorem l1Fill_requests {s : State} {c : Nat} (hc : c < 768) {k va n : Nat} {excl : Bool} {cls : RClass}
    (hk : (s.at c).memq[k]? = some (.fill va n excl cls)) (hm : s.missing c va n = some va) :
    Yields s (.l1Fill c k) fun t => t.cores = s.cores ∧ t.mem = s.mem ∧
      ∃ w ∈ (t.die (dieOf c)).walks, c ∈ w.cores ∧ w.root = (s.space c).2 ∧ w.va / 8192 = va / 8192 := by
  have hd : dieOf c < 2 := by simp only [dieOf]; omega
  refine ⟨s.setDie (dieOf c) ((s.die (dieOf c)).request (s.space c).1 (s.space c).2 va c),
    by simp only [exec_l1Fill, execL1Fill, hk, hm, if_true], rfl, rfl, ?_⟩
  rw [State.setDie_die s hd]
  exact Die.request_attached ..

/-- Halving (R103). -/
theorem hotRowHalve_completes {s : State} {d : Nat} (hd : d < 2) (hg : 2 ^ 20 ≤ (s.die d).gathers) : Yields s (.hotRowHalve d) fun t =>
    t.cores = s.cores ∧ t.mem = s.mem ∧ (t.die d).gathers = (s.die d).gathers - 2 ^ 20 := by
  let x : Die := { s.die d with gathers := (s.die d).gathers - 2 ^ 20, hot := halvedHot (s.die d).hot }
  refine ⟨s.setDie d x.release, by simp only [exec_hotRowHalve, execHotRowHalve, if_neg (Nat.not_lt.mpr hg)]; rfl, rfl, rfl, ?_⟩
  rw [State.setDie_die s hd]
  rfl

/-! ## The other events -/

section
variable {s : State} {c : Nat} (hc : c < 768)
include hc

theorem pendingWriteLand_completes {p : PendWrite} (hp : (s.at c).dueWrite = some p) (hn : s.landsNow c p = true) :
    Yields s (.pendingWriteLand c) fun t => Only s t c ∧ t.mem = s.mem ∧ (t.at c).pend = (s.at c).pend.erase p ∧
      (t.at c).ctx.regs = (s.at c).ctx.regs := by
  refine ⟨s.on c (·.land p), by simp only [exec_pendingWriteLand, execPendingWriteLand, hp, if_pos hn],
    fun i hi => State.on_at_ne s (Ne.symm hi) _, rfl, ?_, ?_⟩ <;> rw [State.on_at s hc]
  · exact Core.land_pend _ p
  · rw [Core.land_ctx]

theorem writeBackComplete_completes {k pa : Nat} {bs : List Byte} (hk : (s.at c).memq[k]? = some (.wback pa bs))
    (hb : (s.at c).wbackBefore k pa bs.length = false) (hj : Unjournalled s c) : Yields s (.writeBackComplete c k) fun t =>
      Only s t c ∧ (t.at c).memq = (s.at c).memq.eraseIdx k ∧ (t.at c).l1 = (s.at c).l1 ∧ (t.at c).ctx = (s.at c).ctx := by
  have dropped : State.Wrote c s (s.on c (Core.dropReq k)) [] :=
    (State.Wrote.refl hj).onQ hc (fun _ => rfl) (List.eraseIdx_sublist _ _)
  obtain ⟨hat, -, -⟩ := setBytes_plain dropped.plain true pa bs
  have told := dropped.homeWrite true pa bs
  refine ⟨(s.on c (Core.dropReq k)).homeWrite (some c) true pa bs, by simp [exec_writeBackComplete, execWriteBackComplete, hk, hb], told.others, ?_, ?_, ?_⟩
  · rw [State.homeWrite, State.tellHome, State.tellAs_at, hat, State.on_at s hc]
    rfl
  · rw [told.core]
  · rw [told.core]

theorem invalidate_clears {pa n : Nat} (hn : 0 < n) :
    Yields s (.invalidate c pa n) fun t => Claims.entriesMeeting (t.at c) pa n fun _ => False := by
  obtain ⟨t, hexec, -, hl1, -⟩ := exec_invalidate s hc pa n
  have cleared := taken_all (s := s) (pa := pa) (n := n) hc (Met.hereditary (pa := pa) hn fun _ _ h => h)
    (fun v es => invalidateL1_clears (v := v) (es := es) hn)
  rw [← hl1] at cleared
  exact ⟨t, hexec, entriesMeeting_of_met cleared fun _ h => h⟩

theorem downgrade_shares {pa n : Nat} (hn : 0 < n) :
    Yields s (.downgrade c pa n) fun t => Claims.entriesMeeting (t.at c) pa n fun e => e.st = .s :=
  ⟨_, rfl, entriesMeeting_of_met (taken_all (s := s) (pa := pa) (n := n) hc (Met.hereditary (pa := pa) hn fun _ _ _ => rfl)
    fun v es => downgradeL1_shares (v := v) (es := es) hn) fun _ h => h⟩

end

end Sys2Proof.Machine

namespace Sys2Proof

set_option Elab.async false

open Machine

/-- Settles O60: each clause is a lemma above, the end of a walk the lemma of `StorageEvents`. -/
theorem normalCompletion : Obligations.NormalCompletion := by
  refine ⟨fun s h d r hg => idr_completes hg d r, fun s h d r hg hm hp => ⟨srr_completes hg hm hp d, fun hro => ?_⟩, ?_, ?_, ?_⟩
  · obtain ⟨t, hexec, hdone⟩ := srw_completes hg hm hp d hro
    have hctx : { t.core.ctx with pc := 0 } = { (s.core.sysWrite r (s.core.getS d)).ctx with pc := 0 } := congrArg Core.ctx hdone.core
    obtain ⟨hregs, hguards, -⟩ := s.core.sysWrite_frame (s.core.getS d) hro
    refine ⟨t, hexec, ⟨hdone.pc, hdone.slots, hdone.going⟩, ?_, (congrArg Ctx.regs hctx).trans hregs, (congrArg Ctx.guards hctx).trans hguards⟩
    calc Claims.sysOf t.core r = Claims.sysOf t.core.settled r := (Core.sysOf_settled hro).symm
      _ = Claims.sysOf (s.core.sysWrite r (s.core.getS d)) r := by rw [hdone.core, Core.sysOf_settled hro]
      _ = _ := Core.sysOf_sysWrite _ _ _ hro
  · intro s h x y i z ps hg hs huser hsup
    exact st_retires hg hs ⟨by rw [State.exch_core]; exact huser, by rw [State.exch_core]; exact hsup⟩
  · refine fun s c hc => ⟨fun p => pendingWriteLand_completes hc, ?_, fun k pa bs => writeBackComplete_completes hc, ?_,
      fun pa n hn => ⟨invalidate_clears hc hn, downgrade_shares hc hn⟩⟩
    · intro k va pa bs hint hk hr ho hwb hsh hw
      obtain ⟨t, hexec, behind⟩ := ownershipGrant_completes hc hk hr (Lone.of_parts ho hwb hsh) hw
      exact ⟨t, hexec, behind.dropped hc⟩
    · intro k va n excl cls hk
      refine ⟨fun pa hm hn hz ht hr ho hwb hsh hp hi hw => ?_, fun hm _ => l1Fill_requests hc hk hm⟩
      obtain ⟨t, hexec, behind⟩ := l1Fill_completes hc hk hm hn hz ht hr (Lone.of_parts ho hwb hsh) hp hi hw
      exact ⟨t, hexec, behind.dropped hc⟩
  · refine fun s d hd => ⟨fun k w hk hw hnot => ?_, hotRowHalve_completes hd⟩
    obtain ⟨t, hexec, -, hgone, -⟩ := walkComplete_yields hd hk hw
    exact ⟨t, hexec, hgone hnot⟩

end Sys2Proof
end

section
/-! PROOFS. The instructions of the lanes (R205, R210 to R214): what they share, told of the work that each of them does. -/

namespace Sys2Proof.Machine

set_option Elab.async false

open Claims (LaneWork laneOf roomFor laned pended issued)

/-! ## What lasts of a core -/

section
variable {c d : Core} (h : c.lasting = d.lasting)
include h

theorem Core.lasting_getH (n : HReg) : c.getH n = d.getH n := congrArg (fun x => x.1.handles[n.toNat]'n.isLt) h

theorem Core.lasting_mode : c.sys.sup = d.sys.sup ∧ c.sys.tvec = d.sys.tvec := ⟨congrArg (·.2.1.sup) h, congrArg (·.2.1.tvec) h⟩

theorem Core.lasting_getS (n : SReg) : c.getS n = d.getS n := by
  have regs : c.ctx.regs = d.ctx.regs := congrArg (·.1.regs) h
  have depth : c.ctx.depth = d.ctx.depth := congrArg (·.1.depth) h
  have frame : c.sys.supFrame = d.sys.supFrame := congrArg (·.2.1.supFrame) h
  simp only [Core.getS, regs, depth, Core.lasting_mode h, frame]

theorem Core.lasting_inPad (a n : Nat) : c.inPad a n = d.inPad a n := by
  have size : c.padSize = d.padSize := congrArg (·.2.2 * 1024) h
  rw [Core.inPad, Core.inPad, size]

end

/-- Making room changes neither the running core nor what lasts of it. -/
theorem roomFor_keeps {s u : State} {w : LaneWork} (h : roomFor s u w) : u.cur = s.cur ∧ u.core.lasting = s.core.lasting := by
  unfold roomFor at h
  split at h
  · have lasts : u.Lasts s.cur fun i => (s.at i).lasting := State.Lasts.roomed ⟨rfl, fun _ => rfl⟩ h
    exact ⟨lasts.cur, lasts.core.trans (by rw [State.at_cur])⟩
  · rw [h]
    exact ⟨rfl, rfl⟩

/-! ## Lanes taken -/

/-- A core with eight lanes of its own, and perhaps shared groups, granted (R205, R206). -/
def Core.granted (shared : List Nat) (c : Core) : Core := { c with ctx := { c.ctx with want := 8 }, reserve := true, shared := shared }

/-- The state in which an instruction of the lanes works is one in which at most the running core's lanes have changed. -/
theorem laned_eq (s : State) : laned s = s ∨ ∃ x, laned s = s.upd (Core.granted x) := by
  unfold laned
  split
  · exact .inr ⟨(s.candidates s.cur).take 0, (State.upd_eq_on s (Core.granted _)).symm⟩
  · exact .inl rfl

theorem laned_frame (s : State) : (laned s).cur = s.cur ∧ (laned s).core.pad = s.core.pad ∧ (laned s).core.pend = s.core.pend ∧
    (laned s).core.sys = s.core.sys ∧ (laned s).core.ctx.fpc = s.core.ctx.fpc ∧ (laned s).handles = s.handles := by
  rcases laned_eq s with h | ⟨x, h⟩ <;> rw [h]
  · exact ⟨rfl, rfl, rfl, rfl, rfl, rfl⟩
  · simp [Core.granted, State.handles]

/-! ## The body of an instruction of the lanes -/

theorem padTraps_none {c : Core} {l : List (Nat × Nat)} (h : ∀ e ∈ l, c.inPad e.1 e.2 = true) : c.padTraps l = none := by
  induction l with
  | nil => rfl
  | cons e l ih =>
    obtain ⟨he, hl⟩ := List.forall_mem_cons.mp h
    rw [Core.padTraps, he]
    exact ih hl

section
variable {s u : State} {chk : List (Nat × Handle × Accept)} {exts : List (Nat × Nat)} {l : Nat} {out : Core → Except Trap Lanes}
  {upd : Core → Core} {writes active : Bool} {r : Lanes}

/-- An operand that fails its checks traps, with nothing done. -/
theorem lane_judged {x : Trap} (hj : judge chk = some x) : s.lane chk exts l out upd writes active = .error (.trap x s) := by
  simp only [State.lane, hj]
  rfl

section
variable (hj : judge chk = none) (hp : ∀ e ∈ exts, s.core.inPad e.1 e.2 = true) (hh : s.hold (chk.map (·.2.1)) = .ok ())
  (hr : if writes then s.roomed = .ok u else u = s) (ho : out u.core = .ok r) (hq : (laned u).laneReports (laned u).cur = false)
include hj hp hh hr ho hq

/-- Operands that pass are worked on (R210 to R214). -/
theorem lane_works : s.lane chk exts l out upd writes active =
    if (laned u).core.traps r.2 then .error (.trap (floatTrap r.2) ((laned u).upd (·.raise r.2)))
    else done ((laned u).upd fun c => upd (if r.1.isEmpty then c else c.pendWrite l r.1 r.2 true)) := by
  have quiet : ¬ (active && (laned u).laneReports (laned u).cur) = true := by rw [hq, Bool.and_false]; exact Bool.false_ne_true
  cases writes with
  | true =>
    simp only [State.lane, hj, padTraps_none hp, hh, orTrap, ok_bind, if_true, show s.roomed = .ok u from hr, ho]
    exact if_neg quiet
  | false =>
    obtain rfl : u = s := hr
    simp only [State.lane, hj, padTraps_none hp, hh, orTrap, ok_bind, Bool.false_eq_true, if_false, pure_bind, ho]
    exact if_neg quiet

end

end

/-- A trap's entry after flags were raised sets the pending writes aside and leaves the scratchpad (R179, R381). -/
theorem Core.raised_entered (c : Core) (f : Fl) (x : Trap) (e : Entry) : ((c.raise f).entered x e).pend = [] ∧
    ((c.raise f).entered x e).pendHeld.map (·.seq) = c.pend.map (·.seq) ∧ ((c.raise f).entered x e).pad = c.pad :=
  ⟨rfl, List.map_map, rfl⟩

/-! ## Work -/

/-- How an instruction of the lanes goes about its work. -/
structure LaneBody where
  exts : List (Nat × Nat)
  out : Core → Except Trap Lanes
  upd : Core → Core
  active : Bool

/-- An instruction of the lanes does some work from a state: its body is a lane body that reads of core `c`, with room made, what the work
says. -/
structure Works (s : State) (c : Core) (i : Instr) (h : Hx) (w : LaneWork) (b : LaneBody) : Prop where
  issue : ∃ body : Body, exec i s = s.issue128 h w.ops body ∧
    body s = s.lane w.chk b.exts w.l b.out b.upd (b.exts.any (·.2 != 0)) b.active
  inside : b.exts ⊆ w.exts
  writes : b.exts.any (·.2 != 0) = w.exts.any (·.2 ≠ 0)
  out : judge w.chk = none → (∀ e ∈ w.exts, s.core.inPad e.1 e.2 = true) → b.out c = .ok (w.cells, w.flags)
  upd : ∀ k : Core, k.pad = c.pad → b.upd k = w.upd k
  slots : ∀ k, (w.upd k).sys.slots = k.sys.slots

section
variable {s u : State} {i : Instr} {h : Hx} {w : LaneWork} {b : LaneBody} (work : Works s u.core i h w b)
include work

/-- A format trap of an operand. -/
theorem Works.judged (hg : s.core.guardX h = true) {x : Trap} (hj : judge w.chk = some x) (hs : s.handles = true) : Yields s i fun t =>
    Enters s t x (s.core.ctx.pc &&& 0x1FFFFFFFFFFFFF) 0 := by
  obtain ⟨body, hi, hb⟩ := work.issue
  refine issue128_enters hg hi (f := id) ?_ ⟨rfl, rfl⟩ hs
  rw [hb, lane_judged hj, State.upd_id]

variable (hr : roomFor s u w) (hj : judge w.chk = none) (hp : ∀ e ∈ w.exts, s.core.inPad e.1 e.2 = true)
  (hh : s.hold (w.chk.map (·.2.1)) = .ok ()) (hq : (laned u).laneReports s.cur = false)
include hr hj hp hh hq

theorem Works.ran : ∃ body : Body, exec i s = s.issue128 h w.ops body ∧ body s =
    if u.core.traps w.flags then .error (.trap (floatTrap w.flags) ((laned u).upd (·.raise w.flags)))
    else done ((laned u).upd (pended w)) := by
  obtain ⟨body, hi, hb⟩ := work.issue
  obtain ⟨hcur, -⟩ := roomFor_keeps hr
  obtain ⟨hlcur, hpad, -, -, hfpc, -⟩ := laned_frame u
  have room : if b.exts.any (·.2 != 0) then s.roomed = .ok u else u = s := by rw [work.writes]; exact hr
  have traps : (laned u).core.traps w.flags = u.core.traps w.flags := by rw [Core.traps, Core.traps, hfpc]
  have same : (laned u).upd (fun c => b.upd (if w.cells.isEmpty then c else c.pendWrite w.l w.cells w.flags true)) = (laned u).upd (pended w) := by
    rw [State.upd, State.upd]
    refine congrArg _ ?_
    simp only [pended, List.isEmpty_iff]
    refine work.upd _ ?_
    split <;> exact hpad
  refine ⟨body, hi, ?_⟩
  rw [hb, lane_works hj (fun e he => hp e (work.inside he)) hh room (work.out hj hp) (by rw [hlcur, hcur]; exact hq), traps, same]

/-- The work is done, and what it writes lands later (R211). -/
theorem Works.completes (hg : s.core.guardX h = true) (ht : u.core.traps w.flags = false) : Yields s i fun t =>
    Completes (laned u) t (issued h w.ops (pended w (laned u).core)) (s.after 16) h.dly.toNat := by
  obtain ⟨body, hi, hb⟩ := work.ran hr hj hp hh hq
  rw [ht] at hb
  refine ⟨_, hi.trans (issue128_ok hg hb), ?_⟩
  rw [State.upd_upd]
  refine completes_yield (laned u) (f := fun c => Core.bumps (postsOf h w.ops) [h.inc1, h.inc2, h.inc3] (pended w c)) h.yld h.dly.toNat _ ?_
  simp only [Core.bumps_sys, pended, work.slots]
  split <;> rfl

/-- A raised flag that is enabled traps, with nothing written (R65, R213). -/
theorem Works.trapped (hg : s.core.guardX h = true) (ht : u.core.traps w.flags = true) (hs : s.handles = true) : Yields s i fun t =>
    Enters (laned u) t { cause := .float, detail := w.flags.toNat } (s.core.ctx.pc &&& 0x1FFFFFFFFFFFFF) 0 ∧
      t.core.pend = [] ∧ t.core.pendHeld.map (·.seq) = u.core.pend.map (·.seq) ∧ t.core.pad = u.core.pad := by
  obtain ⟨body, hi, hb⟩ := work.ran hr hj hp hh hq
  obtain ⟨-, hkeeps⟩ := roomFor_keeps hr
  obtain ⟨-, hpad, hpend, -, -, hhandles⟩ := laned_frame u
  obtain ⟨hsup, htvec⟩ := Core.lasting_mode hkeeps
  have handles : (laned u).handles = true := by rw [hhandles, ← hs, State.handles, State.handles, hsup, htvec]
  rw [ht] at hb
  rw [State.issue128, hg] at hi
  refine ⟨_, hi.trans (State.issue_halt (e := .trap (floatTrap w.flags) ((laned u).upd (·.raise w.flags))) (by simp [hb])), ?_⟩
  have enters := takeTrap_enters_owed handles (f := (·.raise w.flags)) ⟨rfl, rfl, rfl⟩ ⟨rfl, rfl⟩ (floatTrap w.flags) s.core.ctx.pc 0
  have entered := takeTrap_upd handles (f := (·.raise w.flags)) ⟨rfl, rfl⟩ (floatTrap w.flags) { epc := s.core.ctx.pc }
  refine ⟨enters, ?_⟩
  rw [State.halted, entered, State.upd_core, ← hpad, ← hpend]
  exact Core.raised_entered _ _ _ _

end

end Sys2Proof.Machine
end

section
/-! PROOFS. The elements of operands (R128, R210) and what is worked out of them (R215 to R218, R225), as the rules say it and as the model
computes it. -/

namespace Sys2Proof.Machine

set_option Elab.async false

open Claims (signed clamped wrapped intElem floatElem arithElem intCond cmpElem logicElem shiftElem foldElem foldsOf flagsOf numberOf widthOf)

/-! ## Elements and their bytes -/

theorem chunksOf_read {k : Nat} (hk : 0 < k) (m : Mem) (n a : Nat) :
    chunksOf k n (m.read a (n * k)) = (List.range n).map fun i => m.read (a + i * k) k := by
  induction n generalizing a with
  | zero => rfl
  | succ n ih =>
    have split : m.read a ((n + 1) * k) = m.read a k ++ m.read (a + k) (n * k) := by
      rw [← Mem.read_add]
      congr 1
      ring
    have nonempty : (m.read a k ++ m.read (a + k) (n * k)).isEmpty = false := by
      rw [List.isEmpty_eq_false_iff, ← List.length_pos_iff, List.length_append, Mem.read_length]
      omega
    have ha (i : Nat) : a + k + i * k = a + (i + 1) * k := by ring
    simp only [chunksOf, nonempty, Bool.false_eq_true, if_false, split, List.take_left' (Mem.read_length m a k),
      List.drop_left' (Mem.read_length m a k), ih, List.range_succ_eq_map, List.map_cons, List.map_map, Function.comp_def, ha, zero_mul,
      Nat.add_zero, Nat.succ_eq_add_one]

theorem bytesOf_double (k n : Nat) : bytesOf (2 * k) n = n * k := by
  have : n * (2 * k) = 2 * (n * k) := by ring
  simp only [bytesOf, this]
  omega

/-- The elements of an operand, one by one, where an element has whole bytes. -/
theorem Core.elems_eq {k : Nat} (hk : 0 < k) (c : Core) (h : Handle) (n : Nat) :
    c.elems h (2 * k) n = (List.range n).map fun i => ofBytesLE (c.pad.read (h.start + i * k) k) := by
  have hone : 2 * k ≠ 1 := by omega
  have hhalf : 2 * k / 2 = k := by omega
  simp only [Core.elems, elemsOf, if_neg hone, hhalf, bytesOf_double, chunksOf_read hk, List.map_map, Function.comp_def]

theorem Core.elems_lt {k : Nat} (hk : 0 < k) (c : Core) (h : Handle) (n : Nat) : ∀ x ∈ c.elems h (2 * k) n, x < 2 ^ (8 * k) := by
  rw [Core.elems_eq hk, List.forall_mem_map]
  intro i _
  have := ofBytesLE_lt (c.pad.read (h.start + i * k) k)
  rwa [Mem.read_length] at this

theorem packElems_double (k : Nat) (vs : List Nat) : packElems (2 * k) vs = vs.flatMap (bytesLE k) := by
  have hone : 2 * k ≠ 1 := by omega
  have hhalf : 2 * k / 2 = k := by omega
  rw [packElems, if_neg hone, hhalf]

/-- Elements put back where they came from are their bytes. -/
theorem bytesLE_ofBytesLE_read (m : Mem) (a k : Nat) : bytesLE k (ofBytesLE (m.read a k)) = m.read a k := by
  have := bytesLE_ofBytesLE (m.read a k)
  rwa [Mem.read_length] at this

theorem efNib_eq (e : EF) : efNib e = 2 * efBytes e := by cases e <;> rfl

theorem efBytes_pos (e : EF) : 0 < efBytes e := by cases e <;> decide

theorem efBits_eq (e : EF) : 4 * efNib e = 8 * efBytes e := by rw [efNib_eq]; ring

theorem efBits_pos (e : EF) : 0 < 8 * efBytes e := Nat.mul_pos (by decide) (efBytes_pos e)

/-- Bytes of an element of a scalar format. -/
def sfBytes (e : SFmt) : Nat := (sfmtOf e).width / 8

theorem sfNib_eq (e : SFmt) : (fmtNibbles (sfTag e)).getD 2 = 2 * sfBytes e := by cases e <;> rfl

theorem sfBytes_pos (e : SFmt) : 0 < sfBytes e := by cases e <;> decide

theorem numberOf_eq (bs : List Byte) : numberOf bs = ofBytesLE bs := by
  induction bs with
  | nil => rfl
  | cons b bs ih => rw [numberOf, ofBytesLE, ih]; rfl

/-! ## Signed numbers -/

theorem wrapped_eq (w : Nat) (v : Int) : ofSval w v = wrapped w v := by simp [ofSval, wrapped]

theorem signed_eq {w : Nat} (hw : 0 < w) (x : Nat) : sval w x = signed w x := by
  have hpow : 2 ^ w = 2 * 2 ^ (w - 1) := by rw [← Nat.pow_succ']; congr 1; omega
  simp only [sval, signed, BitVec.toInt_eq_toNat_cond, BitVec.toNat_ofNat]
  have : x % 2 ^ w < 2 ^ (w - 1) ↔ 2 * (x % 2 ^ w) < 2 ^ w := by omega
  simp only [this]

theorem signed_modEq (w x : Nat) : signed w x ≡ x [ZMOD 2 ^ w] := by
  have hpow : (2 : Int) ^ w = (2 ^ w : Nat) := by push_cast; rfl
  rw [signed, BitVec.toInt_eq_toNat_bmod, BitVec.toNat_ofNat, Int.ModEq, hpow, Int.bmod_emod, Int.natCast_emod, Int.emod_emod]

theorem wrapped_congr {w : Nat} {a b : Int} (h : a ≡ b [ZMOD 2 ^ w]) : wrapped w a = wrapped w b := congrArg Int.toNat h

theorem wrapped_natCast (w n : Nat) : wrapped w n = n % 2 ^ w := by
  rw [wrapped, show ((2 : Int) ^ w) = ((2 ^ w : Nat) : Int) by push_cast; rfl, ← Int.natCast_emod, Int.toNat_natCast]

theorem wrapped_signed {w x : Nat} (hx : x < 2 ^ w) : wrapped w (signed w x) = x := by
  rw [wrapped_congr (signed_modEq w x), wrapped_natCast, Nat.mod_eq_of_lt hx]

theorem signed_bounds (w x : Nat) : -2 ^ (w - 1) ≤ signed w x ∧ signed w x < 2 ^ (w - 1) := ⟨BitVec.le_toInt _, BitVec.toInt_lt⟩

/-! ## Element-wise arithmetic (R215) -/

theorem satInt_eq (w : Nat) (v : Int) : satInt v (-(2 ^ (w - 1) : Nat)) ((2 ^ (w - 1) : Nat) - 1) = clamped w v := by
  have hpos : (0 : Int) < 2 ^ (w - 1) := by positivity
  simp only [satInt, clamped]
  push_cast
  omega

theorem intArith_eq {w : Nat} (hw : 0 < w) (op : VOp) {x y : Nat} (hx : op = .min ∨ op = .max → x < 2 ^ w)
    (hy : op = .min ∨ op = .max → y < 2 ^ w) : intArith op w x y = intElem op w x y := by
  have sx := signed_modEq w x
  have sy := signed_modEq w y
  simp only [intArith, wrapped_eq, signed_eq hw, satInt_eq]
  cases op with
  | add => exact (wrapped_congr (sx.add sy)).trans (wrapped_natCast w (x + y))
  | sub => exact wrapped_congr (sx.sub sy)
  | mul => exact (wrapped_congr (sx.mul sy)).trans (wrapped_natCast w (x * y))
  | neg => exact wrapped_congr sx.neg
  | abs => simp only [intElem, Int.natCast_natAbs]
  | adds | subs => rfl
  | div | sqrt => exact wrapped_natCast w 0
  | min =>
    simp only [intElem, min_def]
    split
    · exact wrapped_signed (hx (.inl rfl))
    · exact wrapped_signed (hy (.inl rfl))
  | max =>
    simp only [intElem, max_def]
    have same (h : signed w x = signed w y) : x = y := by
      rw [← wrapped_signed (hx (.inr rfl)), h, wrapped_signed (hy (.inr rfl))]
    split
    next hle =>
      rw [wrapped_signed (hy (.inr rfl))]
      split
      next hge => exact (same (le_antisymm hle hge)).symm
      next => rfl
    next hlt =>
      rw [wrapped_signed (hx (.inr rfl)), if_pos (le_of_not_ge hlt)]

/-- Turning the top bit over. -/
theorem xor_two_pow {n x : Nat} (hx : x < 2 ^ (n + 1)) : x ^^^ 2 ^ n = (x + 2 ^ n) % 2 ^ (n + 1) := by
  refine Nat.eq_of_testBit_eq fun j => ?_
  rw [Nat.testBit_xor, Nat.testBit_mod_two_pow, Nat.testBit_two_pow, Nat.add_comm x]
  rcases lt_trichotomy j n with hj | rfl | hj
  · simp [Nat.testBit_two_pow_add_gt hj, hj.ne', Nat.lt_succ_of_lt hj]
  · simp [Nat.testBit_two_pow_add_eq]
  · have : x < 2 ^ j := hx.trans_le (Nat.pow_le_pow_right (by decide) hj)
    simp [Nat.testBit_lt_two_pow this, hj.ne, Nat.not_lt.mpr (show n + 1 ≤ j from hj)]

theorem ieeeArith_eq (op : VOp) {f : FFmt} (hf : 0 < f.width) (r : Rnd) {x : Nat} (y : Nat) (hx : x < 2 ^ f.width) :
    ieeeArith op f r x y = floatElem op f r x y := by
  cases op with
  | neg =>
    obtain ⟨n, hn⟩ : ∃ n, f.width = n + 1 := ⟨f.width - 1, by omega⟩
    rw [hn] at hx
    simp only [ieeeArith, floatElem, hn, Nat.add_sub_cancel, xor_two_pow hx]
  | _ => rfl

/-- An element of `VARITH`, of elements of their width. -/
theorem elemArith_eq (op : VOp) (e : EF) (r : Rnd) {x y : Nat} (hx : x < 2 ^ (8 * efBytes e)) (hy : y < 2 ^ (8 * efBytes e)) :
    elemArith op e r x y = arithElem op e r x y := by
  have hpos := efBits_pos e
  rw [elemArith, arithElem, efBits_eq, intArith_eq hpos op (fun _ => hx) (fun _ => hy)]
  split
  · rfl
  · split
    · rfl
    next hint hmk =>
      have hwidth : (tagFFmt (efTag e)).width = 8 * efBytes e := by
        cases e with
        | f64 | f32 | f16 | bf16 => rfl
        | i8 | i16 | i32 | i64 => exact absurd rfl hint
        | mk8 => exact absurd rfl hmk
      rw [← hwidth] at hx hpos
      exact ieeeArith_eq op hpos r y hx

/-! ## Comparisons (R217) -/

/-- A number kept in a word reads as it is. -/
theorem toInt_ofInt_word {v : Int} (h : -2 ^ 63 ≤ v ∧ v < 2 ^ 63) : (BitVec.ofInt 64 v).toInt = v :=
  BitVec.toInt_ofInt_eq_self (by decide) (by simpa using h.1) (by simpa using h.2)

theorem signed_inj {w x y : Nat} (hx : x < 2 ^ w) (hy : y < 2 ^ w) : signed w x = signed w y ↔ x = y :=
  ⟨fun h => by rw [← wrapped_signed hx, h, wrapped_signed hy], fun h => by rw [h]⟩

/-- The word that a signed number is extended to, as a number without a sign. -/
theorem toNat_ofInt_signed {w x : Nat} (hw : 0 < w) (h64 : w ≤ 64) (hx : x < 2 ^ w) :
    (BitVec.ofInt 64 (signed w x)).toNat = if x < 2 ^ (w - 1) then x else x + (2 ^ 64 - 2 ^ w) := by
  have hpow : 2 ^ w = 2 * 2 ^ (w - 1) := by rw [← Nat.pow_succ']; congr 1; omega
  have hle : 2 ^ w ≤ 2 ^ 64 := Nat.pow_le_pow_right (by decide) h64
  rw [← signed_eq hw, sval, Nat.mod_eq_of_lt hx, BitVec.toNat_ofInt]
  split <;> omega

theorem icondHolds_signed {w : Nat} (hw : 0 < w) (h64 : w ≤ 64) (k : ICond) {x y : Nat} (hx : x < 2 ^ w) (hy : y < 2 ^ w) :
    icondHolds k (BitVec.ofInt 64 (signed w x)) (BitVec.ofInt 64 (signed w y)) = intCond k w x y := by
  have bounds (z : Nat) : -2 ^ 63 ≤ signed w z ∧ signed w z < 2 ^ 63 := by
    have hpow : (2 : Int) ^ (w - 1) ≤ 2 ^ 63 := pow_le_pow_right₀ (by decide) (by omega)
    have := signed_bounds w z
    omega
  have hpow : 2 ^ w = 2 * 2 ^ (w - 1) := by rw [← Nat.pow_succ']; congr 1; omega
  have hle : 2 ^ w ≤ 2 ^ 64 := Nat.pow_le_pow_right (by decide) h64
  have heq : (BitVec.ofInt 64 (signed w x) == BitVec.ofInt 64 (signed w y)) = (x == y) := by
    rw [Bool.eq_iff_iff, beq_iff_eq, beq_iff_eq, ← BitVec.toInt_inj, toInt_ofInt_word (bounds x), toInt_ofInt_word (bounds y), signed_inj hx hy]
  have lt (a b : Nat) (ha : a < 2 ^ w) (hb : b < 2 ^ w) :
      (BitVec.ofInt 64 (signed w a)).toNat < (BitVec.ofInt 64 (signed w b)).toNat ↔ a < b := by
    rw [toNat_ofInt_signed hw h64 ha, toNat_ofInt_signed hw h64 hb]
    split <;> split <;> omega
  cases k with
  | eq => exact heq
  | ne => simp only [icondHolds, intCond, bne, heq]
  | lt | ge | le | gt => simp only [icondHolds, intCond, toInt_ofInt_word (bounds _)]
  | ltu | gtu => simp only [icondHolds, intCond, lt x y hx hy, lt y x hy hx]
  | geu | leu => simp only [icondHolds, intCond, ← Nat.not_lt, lt x y hx hy, lt y x hy hx]

/-- An element of `VCMP`, of elements of their width. -/
theorem elemCmp_eq (k : Nat) (e : EF) (sig : Bool) {x y : Nat} (hx : x < 2 ^ (8 * efBytes e)) (hy : y < 2 ^ (8 * efBytes e)) :
    elemCmp k e sig x y = cmpElem k e sig x y := by
  have h64 : 8 * efBytes e ≤ 64 := by cases e <;> decide
  simp only [elemCmp, cmpElem, efBits_eq, signed_eq (efBits_pos e)]
  split
  · cases ICond.ofCode k with
    | none => rfl
    | some k =>
      simp only [Option.any_some, icondHolds_signed (efBits_pos e) h64 k hx hy]
      rfl
  · cases FCond.ofCode k <;> rfl

/-! ## Logic and shifts (R218) -/

theorem elemLogic_eq (op : LogicOp) {w x y : Nat} (hx : x < 2 ^ w) (hy : y < 2 ^ w) : elemLogic op w x y = logicElem op w x y := by
  cases op with
  | and | or | xor => rfl
  | andn => simp only [elemLogic, logicElem, BitVec.toNat_and, BitVec.toNat_not, BitVec.toNat_ofNat, Nat.mod_eq_of_lt hx, Nat.mod_eq_of_lt hy]
  | not => simp only [elemLogic, logicElem, BitVec.toNat_not, BitVec.toNat_ofNat, Nat.mod_eq_of_lt hx]

theorem elemShift_eq (op : ShiftOp) {w x : Nat} (n : Nat) (hw : 0 < w) (hx : x < 2 ^ w) : elemShift op w x n = shiftElem op w x n := by
  have hv : (BitVec.ofNat w x).toNat = x := by rw [BitVec.toNat_ofNat, Nat.mod_eq_of_lt hx]
  cases op with
  | shl => simp only [elemShift, shiftElem, BitVec.toNat_shiftLeft, hv, Nat.shiftLeft_eq]
  | shr => simp only [elemShift, shiftElem, BitVec.toNat_ushiftRight, hv, Nat.shiftRight_eq_div_pow]
  | sar =>
    have toNat (v : BitVec w) : v.toNat = wrapped w v.toInt := by
      have := wrapped_signed v.isLt
      rwa [signed, BitVec.ofNat_toNat, BitVec.setWidth_eq, eq_comm] at this
    simp only [elemShift, shiftElem, wrapped_eq, signed_eq hw, toNat, BitVec.toInt_sshiftRight, Int.shiftRight_eq_div_pow]
    rfl
  | rot =>
    have hc : n % w < w := Nat.mod_lt _ hw
    have hlow : x / 2 ^ (w - n % w) < 2 ^ (n % w) := by
      rw [Nat.div_lt_iff_lt_mul (Nat.two_pow_pos _), ← Nat.pow_add]
      rwa [show n % w + (w - n % w) = w by omega]
    have hhigh : x * 2 ^ (n % w) % 2 ^ w = (x % 2 ^ (w - n % w)) <<< (n % w) := by
      rw [Nat.shiftLeft_eq, ← Nat.mul_mod_mul_right, ← Nat.pow_add, show w - n % w + n % w = w by omega]
    have hsum : x * 2 ^ (n % w) % 2 ^ w + x / 2 ^ (w - n % w) < 2 ^ w := by
      have hpow : 2 ^ w = 2 ^ (w - n % w) * 2 ^ (n % w) := by rw [← Nat.pow_add, show w - n % w + n % w = w by omega]
      have hmod : x % 2 ^ (w - n % w) + 1 ≤ 2 ^ (w - n % w) := Nat.mod_lt _ (Nat.two_pow_pos _)
      have := Nat.mul_le_mul_right (2 ^ (n % w)) hmod
      rw [hhigh, Nat.shiftLeft_eq, hpow]
      rw [Nat.add_mul, Nat.one_mul] at this
      omega
    calc elemShift .rot w x n = (x * 2 ^ (n % w) % 2 ^ w + x / 2 ^ (w - n % w)) % 2 ^ w := by rw [Nat.mod_add_mod]; rfl
      _ = x * 2 ^ (n % w) % 2 ^ w + x / 2 ^ (w - n % w) := Nat.mod_eq_of_lt hsum
      _ = x * 2 ^ (n % w) % 2 ^ w ||| x / 2 ^ (w - n % w) := by rw [hhigh, Nat.shiftLeft_add_eq_or_of_lt hlow]
      _ = shiftElem .rot w x n := by
        simp only [shiftElem, BitVec.toNat_rotateLeft, hv, Nat.mod_mod, Nat.shiftLeft_eq, Nat.shiftRight_eq_div_pow]

/-! ## Reductions (R225) -/

/-- What an accumulator must be for a comparison of it to go as the rule says. -/
def Comparable (op : RedOp) (e : EF) (x : Nat) : Prop := op = .min ∨ op = .max → e.isInt = true → x < 2 ^ (8 * efBytes e)

/-- Arithmetic that compares nothing, or compares elements of their width. -/
theorem elemArith_eq_fold {op : VOp} {q : RedOp} {e : EF} (r : Rnd) {a x : Nat} (hop : op = .add ∨ op = .min ∧ q = .min ∨ op = .max ∧ q = .max)
    (ha : Comparable q e a) (hx : x < 2 ^ (8 * efBytes e)) : elemArith op e r a x = arithElem op e r a x := by
  have compares (hm : op = .min ∨ op = .max) : q = .min ∨ q = .max := by
    rcases hop with rfl | ⟨-, rfl⟩ | ⟨-, rfl⟩
    · rcases hm with hm | hm <;> cases hm
    · exact .inl rfl
    · exact .inr rfl
  rw [elemArith, arithElem, efBits_eq]
  split
  next hint => rw [intArith_eq (efBits_pos e) op (fun hm => ha (compares hm) hint) fun _ => hx]
  next =>
    split
    · rfl
    · rcases hop with rfl | ⟨rfl, -⟩ | ⟨rfl, -⟩ <;> rfl

theorem redStep_eq {op : RedOp} {e : EF} (r : Rnd) {a x : Nat} (ha : Comparable op e a) (hx : x < 2 ^ (8 * efBytes e)) :
    redStep op e r a x = foldElem op e r a x := by
  cases op with
  | sum => exact elemArith_eq_fold r (.inl rfl) ha hx
  | min => exact elemArith_eq_fold r (.inr (.inl ⟨rfl, rfl⟩)) ha hx
  | max => exact elemArith_eq_fold r (.inr (.inr ⟨rfl, rfl⟩)) ha hx
  | and | or | xor | sumsq => rfl

/-- Of two elements of their width the accumulator of a comparison keeps one. -/
theorem foldElem_comparable {op : RedOp} {e : EF} (r : Rnd) {a x : Nat} (ha : Comparable op e a) (hx : x < 2 ^ (8 * efBytes e)) :
    Comparable op e (foldElem op e r a x).1 := by
  intro hop hint
  have ha := ha hop hint
  rcases hop with rfl | rfl
  all_goals
    simp only [foldElem, arithElem, hint, if_true, intElem]
    split <;> assumption

theorem prefixes_eq {op : RedOp} {e : EF} (r : Rnd) {a : Nat × Fl} {xs : List Nat} (ha : Comparable op e a.1)
    (hx : ∀ x ∈ xs, x < 2 ^ (8 * efBytes e)) :
    a :: prefixes op e r a.1 xs = List.scanl (fun a y => foldElem op e r a.1 y) a xs := by
  induction xs generalizing a with
  | nil => rfl
  | cons x xs ih =>
    obtain ⟨hx, hxs⟩ := List.forall_mem_cons.mp hx
    rw [List.scanl_cons, prefixes, redStep_eq r ha hx]
    exact congrArg _ (ih (foldElem_comparable r ha hx) hxs)

/-- The accumulators of a reduction of elements of their width. -/
theorem accsOf_eq (op : RedOp) (e : EF) (r : Rnd) {xs : List Nat} (hx : ∀ x ∈ xs, x < 2 ^ (8 * efBytes e)) :
    accsOf op e r xs = foldsOf op e r xs := by
  cases xs with
  | nil => rfl
  | cons x xs =>
    obtain ⟨hx, hxs⟩ := List.forall_mem_cons.mp hx
    refine prefixes_eq r (fun _ hint => ?_) hxs
    simp only [redStart, hint, Bool.true_or, if_true]
    exact hx

end Sys2Proof.Machine
end

section
/-! PROOFS. The work of each instruction of the lanes (R215 to R225, R298, R301). -/

namespace Sys2Proof.Machine

set_option Elab.async false

open Claims (LaneWork laneOf pairsWork convertWork unaryWork arithElem cmpElem logicElem shiftElem foldElem foldsOf flagsOf mixWord widthOf numberOf
  signed wrapped issued)

/-- An instruction of the lanes does some work from a state, what it reads taken from a core. -/
def Does (s : State) (c : Core) (i : Instr) (h : Hx) (w : LaneWork) : Prop := ∃ b, Works s c i h w b

theorem any_ne (l : List (Nat × Nat)) : l.any (·.2 != 0) = l.any (·.2 ≠ 0) :=
  congrArg l.any (funext fun _ => Bool.eq_iff_iff.mpr (by simp))

section
variable {s : State} {c : Core} {i : Instr} {h : Hx} {w : LaneWork}

section
variable {chk : List (Nat × Handle × Accept)} {exts : List (Nat × Nat)} {out : Core → Except Trap Lanes} {upd : Core → Core} {active : Bool}
  {body : Body} (hi : exec i s = s.issue128 h w.ops body)
  (hb : body s = s.lane chk exts w.l out upd (exts.any (·.2 != 0)) active) (hchk : chk = w.chk)
include hi hb hchk

/-- A lane body over the operands of the work and some of its extents. -/
theorem Does.of_part (hexts : exts ⊆ w.exts) (hwrites : exts.any (·.2 != 0) = w.exts.any (·.2 != 0))
    (ho : (∀ e ∈ w.exts, s.core.inPad e.1 e.2 = true) → out c = .ok (w.cells, w.flags))
    (hu : ∀ k, upd k = w.upd k := by exact fun _ => rfl) (hs : ∀ k, (w.upd k).sys.slots = k.sys.slots := by exact fun _ => rfl) :
    Does s c i h w := by
  subst hchk
  exact ⟨⟨exts, out, upd, active⟩, ⟨body, hi, hb⟩, hexts, hwrites.trans (any_ne _), fun _ hp => ho hp, fun k _ => hu k, hs⟩

/-- A lane body over the operands and the extents of the work. -/
theorem Does.of_lane (hexts : exts = w.exts) (ho : judge w.chk = none → out c = .ok (w.cells, w.flags))
    (hupd : ∀ k : Core, k.pad = c.pad → upd k = w.upd k := by exact fun _ _ => rfl)
    (hu : ∀ k, (w.upd k).sys.slots = k.sys.slots := by exact fun _ => rfl) : Does s c i h w := by
  subst hchk hexts
  exact ⟨⟨w.exts, out, upd, active⟩, ⟨body, hi, hb⟩, List.Subset.refl _, any_ne _, fun hj _ => ho hj, hupd, hu⟩

end

end

/-! ## The instructions -/

section
variable (h : Hx)

theorem exec_vfma (s : State) (o1 o2 o3 o4 : HReg) (o5 : SReg) (k : Fma) (e : SFmt) (rm : RM) :
    exec (.vfma h o1 o2 o3 o4 o5 k e rm) s = execVfma h o1 o2 o3 o4 o5 k e rm s := rfl
theorem exec_vsel (s : State) (o1 o2 o3 o4 : HReg) (o5 : SReg) (e : EF) : exec (.vsel h o1 o2 o3 o4 o5 e) s = execVsel h o1 o2 o3 o4 o5 e s := rfl
theorem exec_vcvt (s : State) (o1 o2 : HReg) (o3 : SReg) (tag : BitVec 8) (rm : RM) :
    exec (.vcvt h o1 o2 o3 tag rm) s = execVcvt h o1 o2 o3 tag rm s := rfl
theorem exec_vreq (s : State) (o1 o2 : HReg) (o3 : SReg) (b : Bool) : exec (.vreq h o1 o2 o3 b) s = execVreq h o1 o2 o3 b s := rfl
theorem exec_vmov (s : State) (o1 o2 : HReg) (o3 : SReg) : exec (.vmov h o1 o2 o3) s = execVmov h o1 o2 o3 s := rfl
theorem exec_vfill (s : State) (o1 : HReg) (o2 o3 : SReg) (z : Size) : exec (.vfill h o1 o2 o3 z) s = execVfill h o1 o2 o3 z s := rfl
theorem exec_vbcast (s : State) (o1 o2 : HReg) (o3 : SReg) (e : EF) : exec (.vbcast h o1 o2 o3 e) s = execVbcast h o1 o2 o3 e s := rfl
theorem exec_vred (s : State) (o1 o2 : HReg) (o3 : SReg) (op : RedOp) (e : EF) (rm : RM) :
    exec (.vred h o1 o2 o3 op e rm) s = execVred h o1 o2 o3 op e rm s := rfl
theorem exec_vscan (s : State) (o1 o2 : HReg) (o3 : SReg) (op : ScanOp) (e : EF) (ex : Bool) (rm : RM) :
    exec (.vscan h o1 o2 o3 op e ex rm) s = execVscan h o1 o2 o3 op e ex rm s := rfl
theorem exec_vperm (s : State) (o1 o2 o3 : HReg) (o4 : SReg) (scat : Bool) (e : EF) :
    exec (.vperm h o1 o2 o3 o4 scat e) s = execVperm h o1 o2 o3 o4 scat e s := rfl
theorem exec_rfwd (s : State) (o1 o2 : HReg) (o3 : SReg) : exec (.rfwd h o1 o2 o3) s = execRfwd h o1 o2 o3 s := rfl
theorem exec_rrev (s : State) (o1 o2 : HReg) (o3 : SReg) (gd : GReg) : exec (.rrev h o1 o2 o3 gd) s = execRrev h o1 o2 o3 gd s := rfl

end

/-! ## Bytes, elements and operands -/

theorem VOp.unary_eq (op : VOp) : decide (op = .abs ∨ op = .neg ∨ op = .sqrt) = op.unary := by cases op <;> rfl

theorem efNibbles (e : EF) : (fmtNibbles (efTag e)).getD 2 = 2 * efBytes e := efNib_eq e

/-- What is made of three lists of one length, index by index. -/
theorem map_zip_zip {α : Type} (f : Nat → Nat → Nat → α) {n : Nat} {xs ys zs : List Nat} (hx : xs.length = n) (hy : ys.length = n)
    (hz : zs.length = n) :
    ((xs.zip (ys.zip zs)).map fun p => f p.1 p.2.1 p.2.2) = (List.range n).map fun i => f (xs.getD i 0) (ys.getD i 0) (zs.getD i 0) := by
  refine List.ext_getElem (by simp [hx, hy, hz]) fun i h1 h2 => ?_
  have hi : i < n := by simpa using h2
  simp [List.getD, hx, hy, hz, hi]

theorem Core.elems_bytes (c : Core) (x : Handle) (n : Nat) : c.elems x 2 n = (List.range n).map fun i => (c.pad.get (x.start + i)).toNat := by
  rw [show 2 = 2 * 1 from rfl, Core.elems_eq (by decide)]
  simp [Mem.read, ofBytesLE]

/-- Results that raise nothing. -/
theorem lay_quiet {α : Type} (x : Handle) (nib : Nat) (f : α → Nat) (l : List α) :
    lay x nib (l.map fun a => (f a, 0)) = (cellsAt x.start (packElems nib (l.map f)), 0) := by
  have quiet : (l.map fun a => (f a, (0 : Fl))).foldl (fun a r => a ||| r.2) 0 = 0 := by
    rw [List.foldl_map]
    exact List.foldlRecOn (motive := (· = 0)) l _ rfl fun _ h _ _ => by simp [h]
  rw [lay, quiet, List.map_map]
  rfl

theorem blockTags_contains (n : Nat) : blockTags.contains n = decide (n = 0x11 ∨ n = 0x12) := by
  simp [blockTags]

/-- Bytes repeated, byte by byte. -/
theorem flatten_replicate {k : Nat} {bs : List Byte} (hb : bs.length = k) (n : Nat) :
    (List.replicate n bs).flatten = (List.range (n * k)).map fun i => bs.getD (i % k) 0 := by
  induction n with
  | zero => simp
  | succ n ih =>
    have tail : bs = (List.range k).map fun j => bs.getD ((n * k + j) % k) 0 := by
      refine List.ext_getElem (by simp [hb]) fun j h1 h2 => ?_
      have hj : j < k := hb ▸ h1
      simp [List.getD, Nat.mod_eq_of_lt hj, h1]
    rw [List.replicate_succ', List.flatten_append, ih, List.flatten_singleton, Nat.succ_mul, List.range_add, List.map_append, List.map_map]
    exact congrArg _ tail

theorem cellsAt_map (a m : Nat) (f : Nat → Byte) : cellsAt a ((List.range m).map f) = (List.range m).map fun i => (a + i, f i) := by
  rw [cellsAt, List.length_map, List.length_range]
  refine List.map_congr_left fun i hi => ?_
  simp [List.getD, List.mem_range.mp hi]

theorem bytesLE_getD {k j : Nat} (v : Nat) (hj : j < k) : (bytesLE k v).getD j 0 = BitVec.ofNat 8 (v / 256 ^ j) := by
  induction k generalizing j v with
  | zero => omega
  | succ k ih =>
    cases j with
    | zero => simp [bytesLE]
    | succ j => rw [bytesLE, List.getD_cons_succ, ih _ (by omega), Nat.div_div_eq_div_mul, Nat.pow_succ']

theorem bytesLE_toNat_getD {k j : Nat} (v : Word) (hj : j < k) : (bytesLE k v.toNat).getD j 0 = v.extractLsb' (8 * j) 8 := by
  rw [bytesLE_getD _ hj]
  apply BitVec.eq_of_toNat_eq
  rw [BitVec.toNat_ofNat, BitVec.extractLsb'_toNat, Nat.shiftRight_eq_div_pow, Nat.pow_mul]

theorem Mem.read_getD (m : Mem) (a : Nat) {k j : Nat} (hj : j < k) : (m.read a k).getD j 0 = m.get (a + j) := by
  simp [Mem.read_eq, List.getD, hj]

theorem cellsAt_append (a : Nat) (xs ys : List Byte) : cellsAt a (xs ++ ys) = cellsAt a xs ++ cellsAt (a + xs.length) ys := by
  simp only [cellsAt, List.length_append, List.range_add, List.map_append, List.map_map]
  refine congrArg₂ _ (List.map_congr_left fun i hi => ?_) (List.map_congr_left fun i hi => ?_)
  · simp [List.getD, List.getElem?_append_left (List.mem_range.mp hi)]
  · simp [List.getD, Nat.add_assoc, List.getElem?_append_right]

/-- Groups of `k` bytes, one behind the other. -/
theorem cellsAt_flatMap (a n k : Nat) (f : Nat → List Byte) (hf : ∀ i, (f i).length = k) :
    cellsAt a ((List.range n).flatMap f) = (List.range n).flatMap fun i => cellsAt (a + i * k) (f i) := by
  induction n with
  | zero => rfl
  | succ n ih =>
    have len : ((List.range n).flatMap f).length = n * k := by simp [List.length_flatMap, hf]
    rw [List.range_succ, List.flatMap_append, List.flatMap_append, cellsAt_append, ih, len]
    simp

theorem cellsAt_read (c : Core) (d a k : Nat) : cellsAt d (c.pad.read a k) = (List.range k).map fun j => (d + j, c.pad.get (a + j)) := by
  rw [Mem.read_eq, cellsAt_map]

/-- The index that `VPERM` reads at a place of its list (R223). -/
def Core.permIndex (c : Core) (x : Handle) (i : Nat) : Nat := numberOf ((List.range 4).map fun j => c.pad.get (x.start + 4 * i + j))

theorem Core.elems_index (c : Core) (x : Handle) (n : Nat) : c.elems x 8 n = (List.range n).map (c.permIndex x) := by
  rw [show 8 = 2 * 4 from rfl, Core.elems_eq (by decide)]
  refine List.map_congr_left fun i _ => ?_
  rw [Core.permIndex, numberOf_eq, Mem.read_eq, Nat.mul_comm]

/-- Indices below a bound pass the check of `VPERM`. -/
theorem any_above {n m : Nat} {f : Nat → Nat} (h : ((List.range n).all fun i => decide (f i < m)) = true) :
    ((List.range n).map f).any (fun x => decide (m ≤ x)) = false := by
  simpa [List.any_eq_false] using h

theorem modulus_pos (k : Nat) : 0 < modulus k := by
  unfold modulus
  rcases Nat.lt_or_ge k 8 with hk | hk
  · interval_cases k <;> decide
  · rw [List.getD_eq_default _ _ (by simpa using hk)]
    decide

/-- An operand that passes the check of its tag has one of the tags. -/
theorem Accept.tag_of_passes {x : Handle} {tags : List Nat} {a : Accept} (ha : a.tags = some tags) (h : a.fails x = none) :
    tags.contains x.fmt.toNat = true := by
  by_contra hn
  rw [Bool.not_eq_true] at hn
  unfold Accept.fails at h
  split at h
  · cases h
  · rw [if_pos (by rw [ha, Option.any_some, hn]; rfl)] at h
    cases h

theorem judge_second {x y : Nat × Handle × Accept} {l : List (Nat × Handle × Accept)} (h : judge (x :: y :: l) = none) :
    y.2.2.fails y.2.1 = none := by
  unfold judge at h
  split at h
  · cases h
  · unfold judge at h
    split at h
    · cases h
    next hy => exact hy

/-- A residue in a byte. -/
theorem bytesLE_residue (v : Int) {m : Nat} (hm : 0 < m) : bytesLE 1 (v % (m : Int)).toNat = [BitVec.ofInt 8 (v % (m : Int))] := by
  have hnonneg : 0 ≤ v % (m : Int) := Int.emod_nonneg _ (by omega)
  obtain ⟨n, hn⟩ := Int.eq_ofNat_of_zero_le hnonneg
  rw [hn]
  rfl

theorem Core.residue_of_pad {k c : Core} (hp : k.pad = c.pad) (x : Handle) : k.residue x = c.residue x := by
  funext i j
  rw [Core.residue, Core.residue, hp]

/-- The operands that an instruction names are those that it finds once there is room. -/
theorem Core.lasting_operands {s : State} {c : Core} (hk : c.lasting = s.core.lasting) :
    (∀ n, s.core.getH n = c.getH n) ∧ ∀ n, s.core.getS n = c.getS n :=
  ⟨fun n => (Core.lasting_getH hk n).symm, fun n => (Core.lasting_getS hk n).symm⟩

section
variable {s : State} {c : Core} (hk : c.lasting = s.core.lasting) (h : Hx)
include hk

/-! ## Element by element (R215 to R219, R224) -/

theorem lane3_does {i : Instr} {unary : Bool} {o1 o2 o3 : HReg} {o4 : SReg} {td ta l k : Nat} {f : Core → Nat → Nat → Nat × Fl}
    {g : Nat → Nat → Nat × Fl} (hi : exec i s = s.issue128 h (ops3 unary o1 o2 o3) fun s => s.lane3 unary o1 o2 o3 o4 td ta l f)
    (hpos : 0 < k) (hta : (fmtNibbles ta).getD 2 = 2 * k) (hfg : ∀ x y, x < 2 ^ (8 * k) → y < 2 ^ (8 * k) → f c x y = g x y) :
    Does s c i h (pairsWork c unary o1 o2 o3 (c.getS o4).toNat td ta l g) := by
  have pairs (xs ys : List Nat) (hx : ∀ x ∈ xs, x < 2 ^ (8 * k)) (hy : ∀ y ∈ ys, y < 2 ^ (8 * k)) :
      ((xs.zip ys).map fun p => f c p.1 p.2) = List.zipWith g xs ys := by
    rw [← List.map_uncurry_zip_eq_zipWith]
    exact List.map_congr_left fun p hp => hfg _ _ (hx _ (List.of_mem_zip hp).1) (hy _ (List.of_mem_zip hp).2)
  have bound (o : HReg) := Core.elems_lt hpos c (c.getH o) (c.getS o4).toNat
  obtain ⟨hH, hS⟩ := Core.lasting_operands hk
  cases unary with
  | false =>
    refine Does.of_lane hi (by unfold State.lane3; rfl) (by simp only [hH]; rfl) (by simp only [hH, hS]; rfl) fun _ => ?_
    simp only [hH, hS, hta, pairsWork, Bool.false_eq_true, if_false, pairs _ _ (bound o2) (bound o3)]
    rfl
  | true =>
    refine Does.of_lane hi (by unfold State.lane3; rfl) (by simp only [hH]; rfl) (by simp only [hH, hS]; rfl) fun _ => ?_
    simp only [hH, hS, hta, pairsWork, if_true, pairs _ _ (bound o2) (bound o2), List.zipWith_self]
    rfl

theorem varith_does {o1 o2 o3 : HReg} {o4 : SReg} {op : VOp} {e : EF} {rm : RM} {w : LaneWork}
    (hw : laneOf s c (.varith h o1 o2 o3 o4 op e rm) = some (h, w)) : Does s c (.varith h o1 o2 o3 o4 op e rm) h w := by
  simp only [laneOf, VOp.unary_eq] at hw
  obtain rfl := (Prod.mk.inj (Option.some.inj hw)).2
  exact lane3_does hk h (f := fun c => elemArith op e (c.mode rm)) (by cases op <;> rfl) (efBytes_pos e) (efNibbles e)
    fun _ _ hx hy => elemArith_eq op e _ hx hy

theorem vcmp_does (o1 o2 o3 : HReg) (o4 : SReg) (cond : BitVec 4) (e : EF) (sig : Bool) :
    Does s c (.vcmp h o1 o2 o3 o4 cond e sig) h
      (pairsWork c false o1 o2 o3 (c.getS o4).toNat 0x20 (efTag e) (if e.isInt then 2 else 4) (cmpElem cond.toNat e sig)) :=
  lane3_does hk h (f := fun _ => elemCmp cond.toNat e sig) rfl (efBytes_pos e) (efNibbles e) fun _ _ hx hy => elemCmp_eq _ e sig hx hy

theorem vlogic_does (o1 o2 o3 : HReg) (o4 : SReg) (op : LogicOp) (e : EF) :
    Does s c (.vlogic h o1 o2 o3 o4 op e) h
      (pairsWork c (op = .not) o1 o2 o3 (c.getS o4).toNat (efTag e) (efTag e) 2 fun x y => (logicElem op (8 * efBytes e) x y, 0)) :=
  lane3_does hk h (f := fun _ x y => (elemLogic op (4 * efNib e) x y, 0)) (by cases op <;> rfl) (efBytes_pos e) (efNibbles e)
    fun _ _ hx hy => by rw [efBits_eq, elemLogic_eq op hx hy]

theorem vshift_does (o1 o2 o3 : HReg) (o4 : SReg) (op : ShiftOp) (e : EF) (n : Option (BitVec 6)) :
    Does s c (.vshift h o1 o2 o3 o4 op e n) h
      (pairsWork c n.isSome o1 o2 o3 (c.getS o4).toNat (efTag e) (efTag e) 2 fun x y =>
        (shiftElem op (8 * efBytes e) x (match n with | some n => n.toNat | none => y), 0)) :=
  lane3_does hk h (f := fun _ x y => (elemShift op (4 * efNib e) x (n.elim y (·.toNat)), 0)) rfl (efBytes_pos e) (efNibbles e)
    fun _ _ hx _ => by
      rw [efBits_eq, elemShift_eq op _ (efBits_pos e) hx]
      cases n <;> rfl

theorem vclass_does (o1 o2 : HReg) (o3 : SReg) (e : SFmt) :
    Does s c (.vclass h o1 o2 o3 e) h
      (pairsWork c true o1 o2 o2 (c.getS o3).toNat 0x22 (sfTag e) 2 fun x _ => ((sfmtOf e).classOf ((sfmtOf e).decode x), 0)) :=
  lane3_does hk h (f := fun _ x _ => ((sfmtOf e).classOf ((sfmtOf e).decode x), 0)) rfl (sfBytes_pos e) (sfNib_eq e) fun _ _ _ _ => rfl

theorem vmix_does (o1 o2 : HReg) (o3 o4 : SReg) :
    Does s c (.vmix h o1 o2 o3 o4) h
      (pairsWork c true o1 o2 o2 (c.getS o4).toNat 0x24 0x24 4 fun x _ => ((mixWord (c.getS o3) (BitVec.ofNat 64 x)).toNat, 0)) :=
  lane3_does hk h (k := 8) (f := fun c x _ => ((squash64 (c.getS o3) (BitVec.ofNat 64 x)).toNat, 0)) rfl (by decide) rfl fun _ _ _ _ => rfl

/-! ## Three sources (R216, R217) -/

theorem vfma_does (o1 o2 o3 o4 : HReg) (o5 : SReg) (k : Fma) (e : SFmt) (rm : RM) {w : LaneWork}
    (hw : laneOf s c (.vfma h o1 o2 o3 o4 o5 k e rm) = some (h, w)) : Does s c (.vfma h o1 o2 o3 o4 o5 k e rm) h w := by
  obtain rfl := (Prod.mk.inj (Option.some.inj hw)).2
  obtain ⟨hH, hS⟩ := Core.lasting_operands hk
  have signs : fmaSigns k = (decide (k = .fnma ∨ k = .fnms), decide (k = .fms ∨ k = .fnma)) := by cases k <;> rfl
  have hi := exec_vfma h s o1 o2 o3 o4 o5 k e rm
  unfold execVfma at hi
  refine Does.of_lane hi (by rfl) (by simp only [hH]) (by simp only [hH, hS]; rfl) fun _ => ?_
  have len (o : HReg) : (c.elems (c.getH o) ((fmtNibbles (sfTag e)).getD 2) (c.getS o5).toNat).length = (c.getS o5).toNat := by
    rw [sfNib_eq, Core.elems_eq (sfBytes_pos e), List.length_map, List.length_range]
  let f := sfmtOf e
  let step (x y z : Nat) : Nat × Fl :=
    let r := f.fma (c.mode rm) (fmaSigns k).1 (fmaSigns k).2 (f.decode x) (f.decode y) (f.decode z)
    (f.encode r.1, r.2)
  have triples := map_zip_zip step (len o2) (len o3) (len o4)
  simp only [step, signs] at triples
  simp only [hH, hS, signs, len, min_self]
  rw [triples]
  rfl

theorem vsel_does (o1 o2 o3 o4 : HReg) (o5 : SReg) (e : EF) {w : LaneWork}
    (hw : laneOf s c (.vsel h o1 o2 o3 o4 o5 e) = some (h, w)) : Does s c (.vsel h o1 o2 o3 o4 o5 e) h w := by
  obtain rfl := (Prod.mk.inj (Option.some.inj hw)).2
  obtain ⟨hH, hS⟩ := Core.lasting_operands hk
  have hi := exec_vsel h s o1 o2 o3 o4 o5 e
  unfold execVsel at hi
  refine Does.of_lane hi (by rfl) (by simp only [hH]) (by simp only [hH, hS, efNib_eq, bytesOf_double]) fun _ => ?_
  simp only [hH, hS, efNib_eq, Core.elems_bytes, Core.elems_eq (efBytes_pos e), List.zip_map', List.map_map, Function.comp_def, lay_quiet,
    packElems_double, List.flatMap_map]
  refine congrArg (fun bs => Except.ok (cellsAt (c.getH o1).start bs, 0)) (List.flatMap_congr fun i _ => ?_)
  have hzero : (c.pad.get ((c.getH o2).start + i)).toNat = 0 ↔ c.pad.get ((c.getH o2).start + i) = 0 := (BitVec.toNat_eq (y := 0#8)).symm
  simp only [hzero]
  split <;> exact bytesLE_ofBytesLE_read ..

/-! ## Conversions (R220, R221) -/

theorem laneCvt_does {i : Instr} {o1 o2 : HReg} {o3 : SReg} {tag : Nat} {srcs : List Nat}
    {f : State → Core → List Nat → List Nat → List Nat × List Nat × Fl} {out : List Nat → List Nat → List Nat × List Nat × Fl}
    (hi : exec i s = s.issue128 h [(0, o1), (1, o2)] fun s => s.laneCvt o1 o2 o3 tag srcs (f s)) (hf : f s c = out) :
    Does s c i h (convertWork c o1 o2 (c.getS o3).toNat tag srcs out) := by
  obtain ⟨hH, hS⟩ := Core.lasting_operands hk
  refine Does.of_lane hi (by unfold State.laneCvt; rfl) (by simp only [hH]; rfl) (by simp only [hH, hS]; rfl) (fun _ => ?_) fun k _ => ?_
  · simp only [hH, hS, hf, blockTags_contains, decide_eq_true_eq]
    rfl
  · simp only [Handle.retag, blockTags_contains]
    rfl

theorem vcvt_does (o1 o2 : HReg) (o3 : SReg) (tag : BitVec 8) (rm : RM) {w : LaneWork}
    (hw : laneOf s c (.vcvt h o1 o2 o3 tag rm) = some (h, w)) : Does s c (.vcvt h o1 o2 o3 tag rm) h w := by
  obtain rfl := (Prod.mk.inj (Option.some.inj hw)).2
  refine laneCvt_does hk h (exec_vcvt ..) (f := fun s c es sc => if (s.core.getH o2).fmt.toNat = tag.toNat then (es, sc, 0)
    else convertTo (c.mode rm) tag.toNat (valuesOf (s.core.getH o2).fmt.toNat es sc)) ?_
  simp only [← Core.lasting_getH hk, BitVec.toNat_inj]

theorem vreq_does (o1 o2 : HReg) (o3 : SReg) (b : Bool) {w : LaneWork}
    (hw : laneOf s c (.vreq h o1 o2 o3 b) = some (h, w)) : Does s c (.vreq h o1 o2 o3 b) h w := by
  obtain rfl := (Prod.mk.inj (Option.some.inj hw)).2
  refine laneCvt_does hk h (exec_vreq ..) (f := fun s _ es sc =>
    let r := convertTo .rne (if b then 0x12 else 0x11) (valuesOf (s.core.getH o2).fmt.toNat es sc)
    (r.1, r.2.1, r.2.2 &&& (fNX ||| fOF))) ?_
  simp only [← Core.lasting_getH hk]
  rfl

/-! ## Moves and generated values (R222) -/

theorem vmov_does (o1 o2 : HReg) (o3 : SReg) {w : LaneWork} (hw : laneOf s c (.vmov h o1 o2 o3) = some (h, w)) :
    Does s c (.vmov h o1 o2 o3) h w := by
  obtain rfl := (Prod.mk.inj (Option.some.inj hw)).2
  obtain ⟨hH, hS⟩ := Core.lasting_operands hk
  have hi := exec_vmov h s o1 o2 o3
  unfold execVmov at hi
  refine Does.of_lane hi (by rfl) (by simp only [hH]; rfl) (by simp only [hH, hS]; rfl) fun _ => ?_
  simp only [hH, hS, Mem.read_eq]
  rfl

theorem vfill_does (o1 : HReg) (o2 o3 : SReg) (z : Size) {w : LaneWork} (hw : laneOf s c (.vfill h o1 o2 o3 z) = some (h, w)) :
    Does s c (.vfill h o1 o2 o3 z) h w := by
  obtain rfl := (Prod.mk.inj (Option.some.inj hw)).2
  obtain ⟨hH, hS⟩ := Core.lasting_operands hk
  have hi := exec_vfill h s o1 o2 o3 z
  unfold execVfill at hi
  refine Does.of_lane hi (by rfl) (by simp only [hH]) (by simp only [hH, hS, sizeBytes_eq]) fun _ => ?_
  simp only [hH, hS, sizeBytes_eq, flatten_replicate (bytesLE_length ..), cellsAt_map]
  refine congrArg (fun l => Except.ok (l, 0)) (List.map_congr_left fun i hi => ?_)
  have hpos : 0 < widthOf z := by cases z <;> decide
  rw [bytesLE_toNat_getD _ (Nat.mod_lt _ hpos)]

theorem vbcast_does (o1 o2 : HReg) (o3 : SReg) (e : EF) {w : LaneWork} (hw : laneOf s c (.vbcast h o1 o2 o3 e) = some (h, w)) :
    Does s c (.vbcast h o1 o2 o3 e) h w := by
  obtain rfl := (Prod.mk.inj (Option.some.inj hw)).2
  obtain ⟨hH, hS⟩ := Core.lasting_operands hk
  have hmin (n : Nat) : min n 1 * efBytes e = if n = 0 then 0 else efBytes e := by cases n <;> simp
  have hi := exec_vbcast h s o1 o2 o3 e
  unfold execVbcast at hi
  refine Does.of_lane hi (by rfl) (by simp only [hH]; rfl) (by simp only [hH, hS, hmin]; rfl) fun _ => ?_
  simp only [hH, hS, flatten_replicate (Mem.read_length ..)]
  refine congrArg (fun l => Except.ok (cellsAt (c.getH o1).start l, 0)) (List.map_congr_left fun i _ => ?_)
  rw [Mem.read_getD _ _ (Nat.mod_lt _ (efBytes_pos e))]

/-! ## Reductions and scans (R225) -/

theorem vred_does (o1 o2 : HReg) (o3 : SReg) (op : RedOp) (e : EF) (rm : RM) {w : LaneWork}
    (hw : laneOf s c (.vred h o1 o2 o3 op e rm) = some (h, w)) : Does s c (.vred h o1 o2 o3 op e rm) h w := by
  obtain rfl := (Prod.mk.inj (Option.some.inj hw)).2
  obtain ⟨hH, hS⟩ := Core.lasting_operands hk
  have bound := Core.elems_lt (efBytes_pos e) c (c.getH o2) (c.getS o3).toNat
  have last (l : List (Nat × Fl)) (x : Nat) : (l.getLast?.map (·.1)).getD x = (l.getLastD (x, 0)).1 := by
    rw [List.getLastD_eq_getLast?]
    cases l.getLast? <;> rfl
  have hi := exec_vred h s o1 o2 o3 op e rm
  unfold execVred at hi
  refine Does.of_lane hi (by rfl) (by simp only [hH]; rfl) (by simp only [hH, hS, efNib_eq, bytesOf_double, Nat.one_mul]; rfl) fun _ => ?_
  simp only [hH, hS, efNib_eq, accsOf_eq op e _ bound, last]
  rfl

theorem vscan_does (o1 o2 : HReg) (o3 : SReg) (op : ScanOp) (e : EF) (ex : Bool) (rm : RM) {w : LaneWork}
    (hw : laneOf s c (.vscan h o1 o2 o3 op e ex rm) = some (h, w)) : Does s c (.vscan h o1 o2 o3 op e ex rm) h w := by
  obtain rfl := (Prod.mk.inj (Option.some.inj hw)).2
  obtain ⟨hH, hS⟩ := Core.lasting_operands hk
  have bound := Core.elems_lt (efBytes_pos e) c (c.getH o2) (c.getS o3).toNat
  have boundEx : ∀ x ∈ (c.elems (c.getH o2) (2 * efBytes e) (c.getS o3).toNat).dropLast, x < 2 ^ (8 * efBytes e) :=
    fun x hx => bound x (List.dropLast_subset _ hx)
  have hi := exec_vscan h s o1 o2 o3 op e ex rm
  unfold execVscan at hi
  refine Does.of_lane hi (by rfl) (by simp only [hH]; rfl) (by simp only [hH, hS, efNib_eq, bytesOf_double]; rfl) fun _ => ?_
  simp only [hH, hS, efNib_eq, accsOf_eq _ e _ bound, accsOf_eq _ e _ boundEx, Bool.and_eq_true, bne_iff_ne]
  cases op <;> rfl

/-! ## Permutations (R223) -/

theorem vperm_scatters (o1 o2 o3 : HReg) (o4 : SReg) (e : EF) {w : LaneWork}
    (hw : laneOf s c (.vperm h o1 o2 o3 o4 true e) = some (h, w)) : Does s c (.vperm h o1 o2 o3 o4 true e) h w := by
  obtain ⟨hH, hS⟩ := Core.lasting_operands hk
  obtain ⟨hin, hw⟩ := Option.ite_none_right_eq_some.mp hw
  obtain rfl := (Prod.mk.inj (Option.some.inj hw)).2
  have hi := exec_vperm h s o1 o2 o3 o4 true e
  unfold execVperm at hi
  have inside : ((List.range (c.getS o4).toNat).map (c.permIndex (c.getH o3))).any (fun x => decide ((c.getH o1).ext 0 ≤ x)) = false :=
    any_above hin
  have pairs (n : Nat) (f : Nat → Nat) : (List.range n).zip ((List.range n).map f) = (List.range n).map fun i => (i, f i) := by
    rw [← List.zip_map', List.map_id']
  refine Does.of_lane hi (by rfl) (by simp only [hH]) (by simp only [hH, hS]; rfl) fun _ => ?_
  simp only [hH, hS, Core.elems_index, if_true, inside, Bool.false_eq_true, if_false, pairs, List.flatMap_map, cellsAt_read]
  rfl

theorem vperm_gathers (o1 o2 o3 : HReg) (o4 : SReg) (e : EF) {w : LaneWork}
    (hw : laneOf s c (.vperm h o1 o2 o3 o4 false e) = some (h, w)) : Does s c (.vperm h o1 o2 o3 o4 false e) h w := by
  obtain ⟨hH, hS⟩ := Core.lasting_operands hk
  obtain ⟨hin, hw⟩ := Option.ite_none_right_eq_some.mp hw
  obtain rfl := (Prod.mk.inj (Option.some.inj hw)).2
  have hi := exec_vperm h s o1 o2 o3 o4 false e
  unfold execVperm at hi
  have inside : ((List.range (c.getS o4).toNat).map (c.permIndex (c.getH o3))).any (fun x => decide ((c.getH o2).ext 0 ≤ x)) = false :=
    any_above hin
  have bytes (x : Nat) : (c.pad.read ((c.getH o2).start + x * efBytes e) (efBytes e)).length = efBytes e := Mem.read_length ..
  refine Does.of_part hi (by rfl) (by simp only [hH]) ?_ ?_ fun hp => ?_
  · simp only [hH, hS]
    simp
  · simp only [hH, hS]
    cases (c.getS o4).toNat with
    | zero => simp
    | succ n =>
      have first (l : List (Nat × Nat)) : (((c.getH o3).start, 4 * (n + 1)) :: l).any (·.2 != 0) = true := by
        rw [List.any_cons, Bool.or_eq_true]
        exact .inl (bne_iff_ne.mpr (by omega))
      exact (first _).trans (first _).symm
  · have covered : c.padTraps (((List.range (c.getS o4).toNat).map (c.permIndex (c.getH o3))).map fun x =>
        ((c.getH o2).start + x * efBytes e, efBytes e)) = none := by
      refine padTraps_none fun x hx => ?_
      rw [Core.lasting_inPad hk]
      rw [List.map_map] at hx
      exact hp x (List.mem_cons_of_mem _ (List.mem_cons_of_mem _ hx))
    simp only [hH, hS, Core.elems_index, Bool.false_eq_true, if_false, inside, covered, List.flatMap_map, cellsAt_flatMap _ _ _ _ fun _ => bytes _,
      cellsAt_read]
    rfl

/-! ## Residues (R298, R301) -/

theorem rfwd_does (o1 o2 : HReg) (o3 : SReg) {w : LaneWork} (hw : laneOf s c (.rfwd h o1 o2 o3) = some (h, w)) :
    Does s c (.rfwd h o1 o2 o3) h w := by
  obtain rfl := (Prod.mk.inj (Option.some.inj hw)).2
  obtain ⟨hH, hS⟩ := Core.lasting_operands hk
  have hi := exec_rfwd h s o1 o2 o3
  unfold execRfwd at hi
  refine Does.of_lane hi (by rfl) (by simp only [hH]; rfl) (by simp only [hH, hS]; rfl) fun hj => ?_
  have htag : [0x20, 0x22, 0x23, 0x24].contains (c.getH o2).fmt.toNat = true := Accept.tag_of_passes rfl (judge_second hj)
  have hbits : tagBits (c.getH o2).fmt.toNat = 4 * (c.getH o2).nib ∧ 0 < 4 * (c.getH o2).nib := by
    simp only [List.contains_cons, List.contains_nil, Bool.or_false, Bool.or_eq_true, beq_iff_eq] at htag
    simp only [tagBits, Handle.nib]
    rcases htag with h | h | h | h <;> rw [h] <;> decide
  simp only [hH, hS, lay_quiet, hbits.1, signed_eq hbits.2]
  refine congrArg (fun bs => Except.ok (cellsAt (c.getH o1).start bs, 0)) ?_
  rw [show 2 = 2 * 1 from rfl, packElems_double, List.flatMap_map]
  simp only [bytesLE_residue _ (modulus_pos _)]
  exact (List.map_eq_flatMap ..).symm

theorem rrev_does (o1 o2 : HReg) (o3 : SReg) (gd : GReg) {w : LaneWork} (hw : laneOf s c (.rrev h o1 o2 o3 gd) = some (h, w)) :
    Does s c (.rrev h o1 o2 o3 gd) h w := by
  obtain ⟨g, hg, hw⟩ := Option.map_eq_some_iff.mp hw
  obtain rfl := (Prod.mk.inj hw).2
  obtain ⟨hH, hS⟩ := Core.lasting_operands hk
  have hi := exec_rrev h s o1 o2 o3 gd
  unfold execRrev at hi
  refine Does.of_lane hi (by simp only [hg]; rfl) (by simp only [hH]; rfl) (by simp only [hH, hS]; rfl) (fun _ => ?_) (fun k hp => ?_) fun k => ?_
  · simp only [hH, hS, lay_quiet, wrapped_eq]
    rw [show 16 = 2 * 8 from rfl, packElems_double, List.flatMap_map]
    rfl
  · simp only [hH, hS, Core.reversed, Core.residue_of_pad hp]
    refine congrArg (k.setG gd) (congrArg (List.any _) (funext fun i => ?_))
    refine congrArg (List.any _) (funext fun j => ?_)
    have hm := modulus_pos j
    have hnonneg := Int.emod_nonneg (reconstruct g.1.primaries (c.residue (c.getH o2) i)) (show (modulus j : Int) ≠ 0 by omega)
    rw [Bool.eq_iff_iff, bne_iff_ne, bne_iff_ne]
    omega
  · exact congrArg Sys.slots (Core.setG_sys ..)

/-! ## Every instruction of the lanes -/

/-- What an instruction of the lanes does is the work that the rules give it. -/
theorem does_of_laneOf {i : Instr} {w : LaneWork} (hw : laneOf s c i = some (h, w)) : Does s c i h w := by
  have header {h' : Hx} {v : LaneWork} (e : some (h', v) = some (h, w)) : h' = h ∧ v = w := Prod.mk.inj (Option.some.inj e)
  cases i with
  | varith => obtain ⟨rfl, -⟩ := header hw; exact varith_does hk _ hw
  | vfma => obtain ⟨rfl, -⟩ := header hw; exact vfma_does hk _ _ _ _ _ _ _ _ _ hw
  | vcmp => obtain ⟨rfl, rfl⟩ := header hw; exact vcmp_does hk _ _ _ _ _ _ _ _
  | vsel => obtain ⟨rfl, -⟩ := header hw; exact vsel_does hk _ _ _ _ _ _ _ hw
  | vlogic => obtain ⟨rfl, rfl⟩ := header hw; exact vlogic_does hk _ _ _ _ _ _ _
  | vshift => obtain ⟨rfl, rfl⟩ := header hw; exact vshift_does hk _ _ _ _ _ _ _ _
  | vclass => obtain ⟨rfl, rfl⟩ := header hw; exact vclass_does hk _ _ _ _ _
  | vmix => obtain ⟨rfl, rfl⟩ := header hw; exact vmix_does hk _ _ _ _ _
  | vcvt => obtain ⟨rfl, -⟩ := header hw; exact vcvt_does hk _ _ _ _ _ _ hw
  | vreq => obtain ⟨rfl, -⟩ := header hw; exact vreq_does hk _ _ _ _ _ hw
  | vmov => obtain ⟨rfl, -⟩ := header hw; exact vmov_does hk _ _ _ _ hw
  | vfill => obtain ⟨rfl, -⟩ := header hw; exact vfill_does hk _ _ _ _ _ hw
  | vbcast => obtain ⟨rfl, -⟩ := header hw; exact vbcast_does hk _ _ _ _ _ hw
  | vperm h' o1 o2 o3 o4 scat e =>
    obtain ⟨rfl, -⟩ := header (Option.ite_none_right_eq_some.mp hw).2
    cases scat with
    | true => exact vperm_scatters hk _ _ _ _ _ _ hw
    | false => exact vperm_gathers hk _ _ _ _ _ _ hw
  | vred => obtain ⟨rfl, -⟩ := header hw; exact vred_does hk _ _ _ _ _ _ _ hw
  | vscan => obtain ⟨rfl, -⟩ := header hw; exact vscan_does hk _ _ _ _ _ _ _ _ hw
  | rfwd => obtain ⟨rfl, -⟩ := header hw; exact rfwd_does hk _ _ _ _ hw
  | rrev =>
    obtain ⟨g, -, e⟩ := Option.map_eq_some_iff.mp hw
    obtain ⟨rfl, -⟩ := Prod.mk.inj e
    exact rrev_does hk _ _ _ _ _ hw
  | _ => cases hw

end

theorem laneResults : Claims.LaneResults := by
  intro s u i h w hr hw hg
  obtain ⟨-, hk⟩ := roomFor_keeps hr
  obtain ⟨b, work⟩ := does_of_laneOf hk h hw
  exact ⟨fun x hj hs => work.judged hg hj hs, fun hj hp hh hq =>
    ⟨fun ht => work.completes hr hj hp hh hq hg ht, fun ht hs => work.trapped hr hj hp hh hq hg ht hs⟩⟩

/-! ## VSFU (R226, R227) -/

theorem exec_vsfu (s : State) (h : Hx) (o1 o2 : HReg) (o3 : SReg) (fn : SfuFn) (e : SFmt) :
    exec (.vsfu h o1 o2 o3 fn e) s = execVsfu h o1 o2 o3 fn e s := rfl

section
variable {s : State} {h : Hx} {o1 o2 : HReg} {o3 : SReg} {fn : SfuFn} {e : SFmt}
  (hj : judge [(1, s.core.getH o1, tagged (sfTag e)), (2, s.core.getH o2, tagged (sfTag e))] = none)
  (hn : (s.core.getS o3).toNat * sfBytes e ≤ 512)
  (hd : s.core.inPad (s.core.getH o1).start ((s.core.getS o3).toNat * sfBytes e) = true)
  (ha : s.core.inPad (s.core.getH o2).start ((s.core.getS o3).toNat * sfBytes e) = true)
  (hh : s.hold [s.core.getH o1, s.core.getH o2] = .ok ()) (hfree : s.core.sfu = none)
include hj hn hd ha hh hfree

/-- `VSFU` whose operands pass goes on to its work (R226). -/
theorem vsfu_checked : ∃ body : Body, exec (.vsfu h o1 o2 o3 fn e) s = s.issue128 h [(0, o1), (1, o2)] body ∧ body s =
    if (s.core.getS o3).toNat = 0 then done s else s.roomed >>= fun u =>
      let src := u.core.pad.read (s.core.getH o2).start ((s.core.getS o3).toNat * sfBytes e)
      let fl := (sfuBytes fn e src).2
      if u.core.traps fl then
        if bitAt u.core.sys.inj.toNat 3 then
          .error (.gone ((u.upd (·.updSys (·.reported 3))).rollback u.cur (.sfu (podOf u.cur))))
        else .error (.trap (floatTrap fl) (u.setCore (u.core.raise fl)))
      else done (u.setCore { u.core.pendWrite 8 [] 0 false with
        sfu := some { seq := u.core.pendSeq, fn := fn, ef := e, src := src, dst := (s.core.getH o1).start, started := false, withdrawn := false } }) := by
  have hi := exec_vsfu s h o1 o2 o3 fn e
  unfold execVsfu at hi
  have fits : decide ((s.core.getS o3).toNat * ((sfmtOf e).width / 8) ≤ 512) = true := decide_eq_true hn
  have inside : s.core.padTraps [((s.core.getH o1).start, (s.core.getS o3).toNat * ((sfmtOf e).width / 8)),
      ((s.core.getH o2).start, (s.core.getS o3).toNat * ((sfmtOf e).width / 8))] = none :=
    padTraps_none (by simpa using ⟨hd, ha⟩)
  refine ⟨_, hi, ?_⟩
  simp only [hj, orTrap, need, fits, inside, hh, hfree, ok_bind, if_true, Option.isSome_none, Bool.false_eq_true, if_false]
  rfl

/-- Of no elements `VSFU` does nothing but count. -/
theorem vsfu_empty (hg : s.core.guardX h = true) (h0 : (s.core.getS o3).toNat = 0) : Yields s (.vsfu h o1 o2 o3 fn e) fun t =>
    Completes s t (issued h [(0, o1), (1, o2)] s.core) (s.after 16) h.dly.toNat := by
  obtain ⟨body, hi, hb⟩ := vsfu_checked (h := h) (fn := fn) hj hn hd ha hh hfree
  refine issue128_completes hg hi (f := id) ?_ rfl
  rw [hb, if_pos h0, State.upd_id]
  rfl

/-- `VSFU` stages its request (R227). -/
theorem vsfu_stages (hg : s.core.guardX h = true) {u : State} (h0 : (s.core.getS o3).toNat ≠ 0) (hr : s.roomed = .ok u)
    (ht : u.core.traps (sfuBytes fn e (u.core.pad.read (s.core.getH o2).start ((s.core.getS o3).toNat * sfBytes e))).2 = false) :
    Yields s (.vsfu h o1 o2 o3 fn e) fun t => ∃ r : SfuReq,
      Completes u t (issued h [(0, o1), (1, o2)] { u.core.pendWrite 8 [] 0 false with sfu := some r }) (s.after 16) h.dly.toNat ∧
      r.fn = fn ∧ r.ef = e ∧ r.src = u.core.pad.read (s.core.getH o2).start ((s.core.getS o3).toNat * sfBytes e) ∧
      r.dst = (s.core.getH o1).start ∧ r.seq = u.core.pendSeq ∧ r.started = false ∧ r.withdrawn = false := by
  obtain ⟨body, hi, hb⟩ := vsfu_checked (h := h) (fn := fn) hj hn hd ha hh hfree
  rw [if_neg h0, hr, ok_bind] at hb
  dsimp only at hb
  rw [ht] at hb
  let r : SfuReq := { seq := u.core.pendSeq, fn := fn, ef := e, src := u.core.pad.read (s.core.getH o2).start ((s.core.getS o3).toNat * sfBytes e),
                      dst := (s.core.getH o1).start, started := false, withdrawn := false }
  have hb : body s = .ok (u.upd fun c => { c.pendWrite 8 [] 0 false with sfu := some r }, none) := hb
  refine ⟨_, hi.trans (issue128_ok hg hb), r, ?_, rfl, rfl, rfl, rfl, rfl, rfl, rfl⟩
  rw [State.upd_upd]
  refine completes_yield u (f := fun c => Core.bumps (postsOf h [(0, o1), (1, o2)]) [h.inc1, h.inc2, h.inc3]
    { c.pendWrite 8 [] 0 false with sfu := some r }) h.yld h.dly.toNat _ ?_
  rw [Core.bumps_sys]
  rfl

end

theorem sfuRequests : Claims.SfuRequests := by
  intro s u h o1 o2 o3 fn e hg n d a k hj hn hd ha hh hfree
  have hk : k = sfBytes e := by
    simp only [k, sfNib_eq]
    omega
  rw [hk] at hn hd ha ⊢
  exact ⟨vsfu_empty hj hn hd ha hh hfree hg, vsfu_stages hj hn hd ha hh hfree hg⟩

end Sys2Proof.Machine

namespace Sys2Proof

set_option Elab.async false

/-- Settles O31: every instruction of the lanes does the work that the rules give it, its elements worked out as they say. -/
theorem lanesAndSfu : Obligations.LanesAndSfu := ⟨Machine.laneResults, Machine.sfuRequests⟩

end Sys2Proof
end
